-- ==== Sys2Proof/Word.lean ====
section
/-! DEFINITION. The word types of the model and the sparse table type. -/

namespace Sys2Proof

/-- A byte. -/
abbrev Byte := BitVec 8
/-- A 16-bit field. -/
abbrev W16 := BitVec 16
/-- A 32-bit field or register. -/
abbrev W32 := BitVec 32
/-- A 64-bit field or register. -/
abbrev W64 := BitVec 64
/-- A context-virtual or module address (spec/02: 40 bits). -/
abbrev Addr := BitVec 40

/-- A sparse table: indices strictly rising; an index that is not listed holds the table's default. -/
abbrev Tab (α : Type) := List (Nat × α)

end Sys2Proof
end

