-- ==== Sys2Proof/Syntax.lean ====
section
/-! DEFINITION. The commands of the module: one constructor of Instr for each row of spec/opcode_table.json. -/

namespace Sys2Proof

/-- A context, 0 to 63 (R40). -/
abbrev CtxId := Fin 64
/-- A global pick index, stack x 512 + pick (R15). -/
abbrev PickId := Fin 4096
/-- A physical face F00 to F51 (R18). -/
abbrev FaceId := Fin 52
/-- A Xeide port L0 to L5. -/
abbrev PortId := Fin 6
/-- A queue Q00 to Q63. -/
abbrev QueueId := Fin 64
/-- A stack S0 to S7. -/
abbrev StackId := Fin 8

/-- The path of a dictionary access: the CAN segment or a mailbox of the mirror, both of which act as context 0 (R354),
or a writer of another context, which the owning rules refuse with PROT (R44, R52, R280, R313, R344, R424). -/
inductive DictPath where
  | can
  | mbox (m : Fin 16)
  | other (c : CtxId)
  deriving DecidableEq, Repr

/-- Who issued a request, and how its answer finds the way back. -/
inductive Origin where
  /-- Source `src` of the partner on a port; `tag` returns in the RSP. -/
  | partner (port : PortId) (src : BitVec 4) (tag : BitVec 10)
  /-- The host; `tag` returns in the completion of a read. -/
  | host (tag : BitVec 10)
  /-- A unit of the module, by its source code of Table 9.1. -/
  | unit (code : W16)
  deriving DecidableEq, Repr

/-- A tally as an operation names it: virtual in a context (R253), or physical (R260). -/
inductive TallyRef where
  | virt (v : W16)
  | phys (t : W16)
  deriving DecidableEq, Repr

/-- The context fields that software writes (Table 2.6). -/
inductive CtxField where
  | enabled | xlateBase | xlateCount | tallyBase | tallyLimit
  deriving DecidableEq, Repr

/-- The part of a USDO transfer that a request carries (R350). -/
inductive UsdoPart where
  | whole | first | next | last
  deriving DecidableEq, Repr

/-- The causes that reset the host port (R341, R451). -/
inductive HostReset where
  | conventional | perstLow | linkDown
  deriving DecidableEq, Repr

/-- What a canary sensor delivers in its slot (R413, R414). -/
inductive Sensor where
  | value (v : Int)
  | openOrShort
  | late
  deriving DecidableEq, Repr

/-- What the physical world does during a run of bring-up steps (Table 13.4): which domain, link, lane, face or pick fails,
how each port's training ends, how long each step takes, and the step, if any, that does not end by itself. -/
structure BringupEnv where
  domainFail : Option (Fin 30) := none
  /-- An uncorrectable fuse word; a service record that fails its CRC (step 2). -/
  fuseBad : Bool := false
  serviceBad : Bool := false
  linksFail : BitVec 8 := 0
  lanesFail : List PickId := []
  fillFail : List PickId := []
  facesFail : List FaceId := []
  picksFail : List PickId := []
  laneLoss : List (PortId × BitVec 17) := []
  portsFail : List PortId := []
  /-- Pools that the partners advertise: port, C1, C2, C3 (R333). -/
  credits : List (PortId × W16 × W16 × W16) := []
  durations : List W32 := []
  hang : Option (Fin 12) := none
  deriving DecidableEq, Repr

/-- The commands. The comment of each group names the chapter of spec/ that its rows come from; the rule is that of the row. -/
inductive Instr where
  -- dictionary and translation (02, 03, 12)
  | registerWrite (p : DictPath) (idx : W16) (sb : Byte) (data : List Byte)
  | xlateEntryWrite (p : DictPath) (n : Fin 32768) (v : W32)
  | groupViewWrite (p : DictPath) (k : Fin 16) (v : W32)
  | contextWrite (p : DictPath) (c : CtxId) (f : CtxField) (v : W16)
  | xlateDrain (p : DictPath) (v : Byte)
  | xlateDrainConfirmed
  | xlateDrainTimeout
  | srSeedWrite (p : DictPath) (f : FaceId) (v : W32)
  -- column modes, direct commands, pick operations (04)
  | colModePick (p : DictPath) (g : PickId)
  | pickModeReached (g : PickId)
  | colModeNormal (p : DictPath) (g : PickId)
  | normalModeReached (g : PickId)
  | colModeTimeout (g : PickId)
  | stackMode (p : DictPath) (n : StackId) (v : Byte)
  | directCommandWrite (o : Origin) (c : CtxId) (g : PickId) (off : BitVec 24) (data : List Byte)
  | apertureRead (o : Origin) (c : CtxId) (g : PickId) (off : BitVec 24) (len : BitVec 13)
  | pickAdmission (g : PickId)
  | pickOperationStart (g : PickId) (i : Fin 5)
  | pickOperationCompletion (g : PickId) (i : Fin 5)
  | pcopy (g : PickId) (i : Fin 5) (rows : BitVec 14)
  | pinit (g : PickId) (i : Fin 5) (rows : BitVec 14)
  | plogic (g : PickId) (i : Fin 5) (rows : BitVec 14)
  | pload (g : PickId) (i : Fin 5)
  | pmv (g : PickId) (i : Fin 5)
  | pmvk (g : PickId) (i : Fin 5)
  | pfold (g : PickId) (i : Fin 5)
  | pdrain (g : PickId) (i : Fin 5)
  | pfence (g : PickId) (i : Fin 5)
  | pickDataTimeout (g : PickId) (i : Fin 5)
  -- ordinary requests and claims (04, 10), broadcast (05, 07)
  | rowStepBoundary (g : PickId)
  | ordinaryRequest (o : Origin) (c : CtxId) (wr : Bool) (nc : Bool) (va : Addr) (len : BitVec 13) (data : List Byte)
  | claimWaitEnd (g : PickId)
  | claimWaitTimeout (g : PickId)
  | segmentDelivery (n : StackId) (lane : BitVec 3) (window : BitVec 9)
  | segmentTimeout (f : FaceId) (hid : Fin 2)
  -- passes and reductions (05, 08)
  | lode (q : QueueId)
  | score (q : QueueId)
  | valuePass (q : QueueId)
  | mergeOp (q : QueueId)
  | passCompletion (q : QueueId)
  | fastHubReduction (q : QueueId) (f : FaceId)
  | collarReduction
  -- face sequencer and engines (06)
  | taskStart (f : FaceId)
  | faceEnd (f : FaceId)
  | setx (f : FaceId)
  | setvl (f : FaceId)
  | loopOpen (f : FaceId)
  | endl (f : FaceId)
  | br (f : FaceId)
  | waitt (f : FaceId)
  | waittTimeout (f : FaceId)
  | seqTally (f : FaceId)
  | seqFence (f : FaceId)
  | engineOperationStart (f : FaceId) (i : Fin 16)
  | engineOperationDone (f : FaceId) (i : Fin 16)
  | taskCompletion (f : FaceId)
  | mma (f : FaceId) (i : Fin 16)
  | mxv (f : FaceId) (i : Fin 16)
  | mstore (f : FaceId) (i : Fin 16)
  | vchain (f : FaceId) (i : Fin 16)
  | vhred (f : FaceId) (i : Fin 16)
  | planesum (f : FaceId) (i : Fin 16)
  | sramWriteBack (f : FaceId)
  -- hoists (07)
  | hoistCopy (f : FaceId) (hid : Fin 2) (blocks : W32)
  | hoistGather (f : FaceId) (hid : Fin 2) (blocks : W32)
  | hoistScatter (f : FaceId) (hid : Fin 2) (blocks : W32)
  | hoistScatterAdd (f : FaceId) (hid : Fin 2) (blocks : W32)
  | hoistFusedStore (f : FaceId) (hid : Fin 2) (blocks : W32)
  | hoistBroadcast (f : FaceId) (hid : Fin 2)
  | hoistTransferDone (f : FaceId) (hid : Fin 2)
  -- queues, steps, windows (08)
  | doorbellWrite (o : Origin) (q : QueueId) (off : BitVec 6) (data : List Byte)
  | slotReread (q : QueueId)
  | slotStaleStall (q : QueueId)
  | qResume (p : DictPath) (q : QueueId)
  | qReset (p : DictPath) (q : QueueId)
  | qAbort (p : DictPath) (q : QueueId)
  | qEnableWrite (p : DictPath) (q : QueueId) (v : Byte)
  | stepStart
  | operationDispatch
  | operationCompletion (q : QueueId)
  | stepEnd (q : QueueId)
  | emit (q : QueueId)
  | jump (q : QueueId)
  | setn (q : QueueId)
  | signal (q : QueueId)
  | waitw (q : QueueId)
  | task (q : QueueId)
  | waitLimitExpiry (q : QueueId)
  | stepCompletion (q : QueueId)
  | recordAcknowledged (q : QueueId)
  | recordWaitTimeout (q : QueueId)
  | winLenWrite (p : DictPath) (v : W32)
  | windowBoundary
  | cadenceEdge (rising : Bool)
  | cadenceMissed
  -- tally board (09)
  | tallyAdd (o : Origin) (c : CtxId) (t : TallyRef) (n : W32)
  | tallySub (o : Origin) (c : CtxId) (t : TallyRef) (n : W32)
  | tallyArrive (o : Origin) (c : CtxId) (t : TallyRef) (sel : W32)
  | tallySet (o : Origin) (c : CtxId) (t : TallyRef) (n : W32)
  | tallyWatch (o : Origin) (c : CtxId) (t : TallyRef) (thr : W32) (cons : Bool) (cookie : W16) (msix : Byte) (haddr : W64)
  | tallyUnwatch (o : Origin) (c : CtxId) (t : TallyRef) (cookie : W16)
  | barinit (o : Origin) (c : CtxId) (t : TallyRef) (mask : W64)
  | barfree (o : Origin) (c : CtxId) (t : TallyRef)
  | watchArmOnFree
  | sigStampMet (k : PortId) (src : BitVec 4)
  | stampTimeout (k : PortId) (src : BitVec 4)
  | faceGate (f : FaceId)
  | tallyDbgSel (p : DictPath) (v : W16)
  | watchDbgSel (p : DictPath) (v : W16)
  | barrierDbgSel (p : DictPath) (v : Byte)
  -- shaft controllers (10)
  | refreshIntervalDue (g : PickId)
  | owedRefreshInsertion (g : PickId)
  | targetedRefresh (g : PickId)
  | commandParityAlert (g : PickId)
  | shaftLinkFrame (n : StackId) (down : Bool) (seq : Byte) (ftype : Byte) (payload : List Byte) (crc : W32)
  | stackRequestTimeout (n : StackId)
  | writeBackEntry (g : PickId)
  | scrubStep (g : PickId)
  | remapReq (p : DictPath) (n : StackId) (loc : W64)
  | remapCopy (n : StackId)
  | remapClaimTimeout (n : StackId)
  | remapSel (p : DictPath) (n : StackId) (v : W16)
  -- Xeide ports (11)
  | flitReceived (k : PortId) (corrected : W16) (badLanes : List (Fin 17)) (flit : List Byte)
  | nak (k : PortId) (aseq : BitVec 12)
  | portRetrain (k : PortId)
  | portTrainingDone (k : PortId) (good : Bool) (bad : BitVec 17) (c1 c2 c3 : W16) (peerSeq : BitVec 12)
  | retrainReq (p : DictPath) (k : PortId) (v : Byte)
  | portEnable (p : DictPath) (k : PortId) (v : Byte)
  | rd (k : PortId) (hdr : BitVec 256)
  | wr (k : PortId) (hdr : BitVec 256) (data : List Byte)
  | sig (k : PortId) (hdr : BitVec 256) (data : List Byte)
  | rsp (k : PortId) (hdr : BitVec 256) (data : List Byte)
  | echo (k : PortId) (hdr : BitVec 256) (data : List Byte)
  -- host port (11)
  | hostRead (off : BitVec 26) (len : BitVec 13) (tag : BitVec 10)
  | hostWrite (off : BitVec 26) (data : List Byte)
  | aditAccess (wr : Bool) (off : BitVec 24) (len : BitVec 13) (data : List Byte) (tag : BitVec 10)
  | msixUnmask (v : Option (Fin 64))
  | hostPortReset (k : HostReset)
  -- CAN and mailboxes (12)
  | nmtStart
  | nmtStop
  | nmtEnterPreOperational
  | nmtResetNode
  | nmtResetCommunication
  | heartbeatTimer
  | usdoUpload (idx : W16) (sb : Byte) (part : UsdoPart)
  | usdoDownload (idx : W16) (sb : Byte) (part : UsdoPart) (data : List Byte)
  | usdoSegmentTimeout
  | tpdoEventTimer (t : Fin 4)
  | emcySend
  | errorCountWrite (p : DictPath) (v : Byte)
  | mailboxRead (m : Fin 16) (cmd : W64)
  | mailboxWrite (m : Fin 16) (cmd : W64)
  -- life states, resets, firmware, licences, attestation (13)
  | buRun (p : DictPath) (n : Byte) (env : BringupEnv)
  | bringupStepTimeout
  | quiesceRequest (p : DictPath)
  | serviceRequest (p : DictPath)
  | maintenanceRequest (p : DictPath)
  | faceReset (p : DictPath) (v : Byte)
  | computeReset (p : DictPath)
  | warmReset (p : DictPath)
  | warmResetDrainEnd
  | coldReset (p : DictPath)
  | coldResetOffEnd
  | fwImageWrite (p : DictPath) (off : W32) (data : List Byte)
  | verify (p : DictPath)
  | imageVerified
  | commit (p : DictPath)
  | flashWriteDone (good : Bool)
  | activate (p : DictPath)
  | headframeRestartDone
  | discard (p : DictPath)
  | licImageWrite (p : DictPath) (off : W32) (data : List Byte)
  | licenceCheck (p : DictPath)
  | licenceSlotEmpty (p : DictPath) (k : Fin 8)
  | attNonceWrite (p : DictPath) (off : W32) (data : List Byte)
  | attCmd (p : DictPath) (v : Byte)
  | signingDone
  -- power, thermal control, inputs (14, 16)
  | d00Start (node : BitVec 6)
  | powerRemoved
  | inputSample (v : W16) (w : W16)
  | phaseFault (i : Fin 18)
  | unitDutyTick (stackTbl : List Nat) (faces : List Nat)
  | recallComplete (f : FaceId)
  | canarySlot (c : Fin 128) (raw : Sensor)
  | canaryRoundEnd
  | domainIdle (d : Fin 30)
  | domainSleep (d : Fin 30)
  | domainWake (d : Fin 30)
  | wakeNChange (active : Bool)
  | throttleNChange (active : Bool)
  | inputStuck (i : Fin 3)
  -- service (15)
  | faceFence (p : DictPath) (v : Byte)
  | pickFence (p : DictPath) (v : W16)
  | fenceComplete
  | colRetire (p : DictPath) (v : W16)
  | flogSel (p : DictPath) (v : W32)
  | flogSavedSel (p : DictPath) (v : W16)
  | flogClear (p : DictPath) (v : Byte)
  -- later rows of the table
  | hostLinkUp (full : Bool)
  | shaftLinkRetrained (n : StackId)
  | commandLaneRetrained (g : PickId)
  | laneLossOfLock (k : PortId) (lane : Fin 17)
  | inputGlitch (i : Fin 3)
  | inputStuckRelease (i : Fin 3)
  | canErrorPassive (enter : Bool)
  | canBusOff
  | canBusOffRecovered
  | computeResetDone
  | faceResetDone (f : FaceId)
  deriving DecidableEq, Repr

end Sys2Proof
end

