-- ==== Sys2Proof/Config.lean ====
section
/-! DEFINITION. The free values of the model: constants without a body, so that no proof can see what they are. -/

namespace Sys2Proof.Config

/-- What a read of a face SRAM word with three or more wrong bits gives (R192 allows three outcomes): bits [65:64]
0 found uncorrectable, 1 corrected wrongly, 2 and 3 passed as clean; bits [63:0] the data then delivered.
The argument is State's free-value counter. Free value, log entry 8. -/
opaque sramBeyondCode : Nat → BitVec 66

/-- Byte i of the 2,820-byte XMSS signature that D02 makes with the given index over the given report bytes (R397, R399), from byte 4
on: the private key never leaves D02. Free value, log entry 18. -/
opaque attestationByte : Nat → List Byte → Nat → Byte

/-- Byte i of the root (0 to 31) and the public seed (32 to 63) of the key in the boot ROM (R389): the manual gives no key. Free value,
log entry 18. -/
opaque bootKey : Nat → Byte

/-- Byte i of the root and the public seed of the attestation key that D02 generated at manufacture (R397). Free value, log entry 18. -/
opaque attKey : Nat → Byte

/-- The residual RES that SEED EXP2 leaves for an operand outside its ordinary row (R179, R188 state none), by the operand's FP32
code. Free value, log entry 34. -/
opaque exp2Residual : BitVec 32 → BitVec 32

/-- The RECIP seed of a nonzero operand below 2^−126 in magnitude, which no row of Table 6.13 states, by the operand's FP32 code.
Free value, log entry 34. -/
opaque recipSubnormal : BitVec 32 → BitVec 32

/-- Scale byte of a block of a packed MX stream that COMPRESS writes: its elements come from several blocks (R184 states none), by
State's free-value counter. Free value, log entry 35. -/
opaque packedScale : Nat → BitVec 8

/-- Microseconds that a domain takes to wake (R404 gives limits, no values), by State's free-value counter. Free value, log entry 37. -/
opaque wakeMicros : Nat → Nat

/-- The text of `sw_version` (Table 12.11: from the firmware image; no form is given), by the image loaded. Free value, log entry 40. -/
opaque swVersion : List Byte → List Byte

/-- Virtual page that a requester used when it named a pick's aperture page that no entry of its context maps, by State's free-value
counter: the rows DIRECT_COMMAND_WRITE and APERTURE_READ name the pick, not the address. Free value, log entry 142. -/
opaque unmappedPage : Nat → BitVec 16

/-- Base address that the host assigns to a BAR (R337: the host chooses it), by State's free-value counter. Free value, log entry 15. -/
opaque barBase : Nat → BitVec 64

end Sys2Proof.Config
end

