-- ==== Sys2Proof/Machine/State.lean ====
section
/-! DEFINITION. The state of the module as plain data, the reasons a step can stop, and the state right after reset.
Each record names the rule or table of spec/ that gives it. Sparse tables (Tab) list only what differs from the default. -/

namespace Sys2Proof.Machine

/-! ## Reasons to stop -/

/-- Faults. R13: every condition of the manual has one stated outcome, so no meaning raises a fault. -/
inductive Fault where
  /-- Raised by no meaning; kept so that the type of outcomes has a fault reason. Safe: it never occurs. -/
  | machineCheck
  deriving DecidableEq, Repr

/-- Refusals. -/
inductive Refusal where
  /-- A command whose meaning is not written yet, by its mnemonic in the opcode table. Raised by the dispatch alone. Safe. -/
  | notModelled (mnemonic : String)
  deriving DecidableEq, Repr

/-! ## What the module sends -/

/-- How a host read completes on PCIe (R339): successful, successful with the poisoned indication, Unsupported Request, Completer
Abort. -/
inductive Completion where
  | good | poisoned | unsupported | abort
  deriving DecidableEq, Repr

/-- What the module has sent, oldest first (log entry 3). -/
inductive Out where
  /-- A packet starts on a Xeide port: header of Table 11.4 and payload. The flits that carry it follow as they fill. -/
  | packet (port : PortId) (hdr : BitVec 256) (data : List Byte)
  /-- A flit leaves on a Xeide port: its 256 bytes (Table 11.3). -/
  | flit (port : PortId) (bytes : List Byte)
  /-- What a port's training sends the partner (R333): failed lanes, the receive pools of Table 11.7 (C1, C2 local, C2 forwarding, C3)
  and the last good `fseq`. -/
  | training (port : PortId) (lanes : BitVec 17) (pools : List Nat) (fseq : BitVec 12)
  /-- A posted write into host memory (R337). -/
  | hostWrite (addr : W64) (data : List Byte)
  /-- An MSI-X vector sent (R340). -/
  | msix (vector : Nat)
  /-- The completion of a host read (R339). -/
  | hostCpl (tag : BitVec 10) (how : Completion) (data : List Byte)
  /-- The answer to an internal requester, by source code of Table 9.1. -/
  | unitRsp (code : W16) (status : Byte) (data : List Byte)
  /-- A CAN frame: identifier and bytes (R347). -/
  | can (cobId : Nat) (data : List Byte)
  /-- A USDO response: its CAN identifier, abort code 0 for a positive answer, and the data of an upload (R347, R350). -/
  | usdo (cobId : Nat) (abort : W32) (data : List Byte)
  /-- The answer to a dictionary access of another writer: status and abort code. -/
  | dictRsp (path : DictPath) (status : Byte) (abort : W32)
  /-- A NAK on the hub-to-base-die link naming the expected sequence (R297). -/
  | shaftNak (stack : Nat) (seq : Byte)
  /-- A replay of frames on the hub-to-base-die link from a sequence number: the frames, with their type and payload (R297). -/
  | shaftReplay (stack : Nat) (seq : Byte) (frames : List (Byte × Byte × List Byte))
  deriving DecidableEq, Repr

/-! ## Fault log (chapter 15) -/

/-- A fault log record (Table 15.3). -/
structure FaultRec where
  event : Byte := 0
  status : Byte := 0
  unit : W16 := 0
  src : W16 := 0xFFFF
  ctx : BitVec 6 := 0
  tag : W16 := 0
  info : W64 := 0
  whenUs : W64 := 0
  rpt : W16 := 0
  fseq : W32 := 0
  deriving DecidableEq, Repr

/-- The fault log (R428 to R431). `recs` holds the newest record first. -/
structure FaultLog where
  recs : List FaultRec := []
  count : W32 := 0
  oldest : W32 := 0
  merged : W32 := 0
  /-- Cycle of the newest record's last occurrence (R429). -/
  lastAt : Nat := 0
  sel : W32 := 0
  snap : BitVec 256 := 0
  /-- Flash copy, newest first. -/
  saved : List FaultRec := []
  savedSel : W16 := 0
  savedSnap : BitVec 256 := 0
  deriving DecidableEq, Repr

/-! ## CAN, EMCY and dictionary diagnostics (chapter 12) -/

/-- NMT states (R348, R349). -/
inductive Nmt where
  | preOperational | operational | stopped
  deriving DecidableEq, Repr

/-- A condition of Table 12.14 that is active: its EMCY code and what tells it from others of the same code. -/
structure Cond where
  code : W16
  key : Nat
  deriving DecidableEq, Repr

/-- An EMCY message (R367). -/
structure Emcy where
  code : W16
  reg : Byte
  unit : Byte
  detail : W32
  deriving DecidableEq, Repr

/-- The stored communication objects (Table 12.11) and bit rates (Table 12.12). -/
structure CommObjs where
  emcyCob : W32
  emcyInhibit : W16 := 10
  heartbeatMs : W16 := 100
  tpdoCob : Tab W32
  tpdoType : Tab Byte := []
  tpdoInhibit : Tab W16 := []
  tpdoTimer : Tab W16 := []
  deriving DecidableEq, Repr

/-- A segmented USDO transfer in progress (R350). -/
structure UsdoXfer where
  upload : Bool
  idx : W16
  sb : Byte
  /-- Bytes gathered (download) or still to send (upload). -/
  data : List Byte
  since : Nat
  deriving DecidableEq, Repr

/-- A mailbox of the dictionary mirror (R359 to R361). -/
structure Mailbox where
  cmd : W64 := 0
  doff : W64 := 0
  pend : Bool := false
  /-- The headframe has taken the access and holds its response (R356). -/
  taken : Bool := false
  done : Bool := false
  status : Byte := 0
  rlen : W16 := 0
  abort : W32 := 0
  area : Tab Byte := []
  deriving DecidableEq, Repr

/-- A mailbox whose access waits for the headframe: when it arrived, and from where: 0 the host, 1 + k port k, 7 a unit (R355). -/
structure MailWait where
  box : Nat
  at_ : Nat
  via : Nat
  deriving DecidableEq, Repr

/-- The CAN side and the diagnostics of block 0x2003. -/
structure Can where
  nodeId : Nat := 64
  nmt : Nmt := .preOperational
  comm : CommObjs
  /-- Flash copy that NMT resets and cold reset load (R363). -/
  stored : CommObjs
  canNominal : W16 := 500
  canData : W16 := 5000
  rateNominal : W16 := 500
  rateData : W16 := 5000
  conds : List Cond := []
  /-- Conditions that began while the headframe was off: active in 0x1001, their EMCY not raised (R351, R368). -/
  quiet : List Cond := []
  errors : List W32 := []
  emcyQueue : List Emcy := []
  /-- Cycle of the last EMCY sent. -/
  emcyLast : Option Nat := none
  /-- A message was dropped and its EMCY 0x8110 waits for room (R369). -/
  emcyOwed : Bool := false
  usdo : Option UsdoXfer := none
  usdoHeld : Option (W16 × Byte) := none
  usdoLast : Byte := 0
  usdoAborts : W32 := 0
  mirrorDropped : W32 := 0
  emcyDropped : W32 := 0
  busOffs : W32 := 0
  busOff : Bool := false
  /-- The CAN controller is error passive. -/
  errorPassive : Bool := false
  hbLast : Nat := 0
  tpdoLast : Tab Nat := []
  /-- Telemetry copy of block 0x2004, by subindex (R364). -/
  telemetry : Tab W32 := []
  boxes : Tab Mailbox := []
  /-- Mailboxes that wait, in the order in which they are served (R355). -/
  mail : List MailWait := []
  deriving DecidableEq, Repr

/-! ## Contexts and translation (chapter 02) -/

/-- A context object (Table 2.6). -/
structure Ctx where
  enabled : Bool := false
  xlateBase : W16 := 0
  xlateCount : W16 := 0
  tallyBase : W16 := 0
  tallyLimit : W16 := 0
  xlateFaults : W32 := 0
  protFaults : W32 := 0
  lastFaultVa : W64 := 0
  deriving DecidableEq, Repr

/-- The held write of xlate_drain (R47): who waits, since when, and the first request number after it. -/
structure Drain where
  path : DictPath
  since : Nat
  mark : Nat
  deriving DecidableEq, Repr

/-! ## Ordinary memory traffic (chapters 04 and 10) -/

/-- A unit of the module whose work makes ordinary accesses. -/
inductive Waiter where
  | pick (uid : Nat)
  | hoist (f : Nat) (hid : Nat)
  | face (f : Nat)
  | queue (q : Nat)
  | pass (id : Nat)
  /-- An operation of a step, by the number of its dispatch. -/
  | op (order : Nat)
  | record (id : Nat)
  | unit (code : W16)
  deriving DecidableEq, Repr

/-- To whom an ordinary transfer answers. -/
inductive XferOwner where
  | partner (port : PortId) (src : BitVec 4) (tag : BitVec 10)
  | host (tag : BitVec 10)
  | unit (code : W16)
  /-- Access number `i` of a unit's work in progress: it stays listed, complete, until that work has used it. -/
  | inner (who : Waiter) (i : Nat)
  /-- The port it came from went DOWN: it completes without a response (R334). -/
  | nobody
  deriving DecidableEq, Repr

/-- An ordinary transfer in progress: its granules are served on their own (R123). -/
structure Xfer where
  id : Nat
  owner : XferOwner
  ctx : BitVec 6
  code : W16
  va : W64
  wr : Bool
  /-- Granules not served yet. -/
  left : Nat
  /-- Bytes read so far, with their poison. -/
  data : List (Byte × Bool)
  status : Byte := 0
  /-- Tag of the operation it belongs to (Table 15.3). -/
  tag : W16 := 0
  /-- Its completion counts in the fence of its source: its port has not trained again since (R271, R272). -/
  counted : Bool := true
  deriving DecidableEq, Repr

/-- A granule of an ordinary transfer that waits (R123, R124, R285, R297). -/
structure GranReq where
  seq : Nat
  xfer : Nat
  col : Nat
  die : Nat
  row : Nat
  off : Nat
  len : Nat
  wr : Bool
  data : List (Byte × Bool)
  /-- Place of its first byte in the transfer. -/
  base : Nat
  /-- It waits in the crossbar: the link is down, or the controller's 512 places are taken (R283, R297). -/
  held : Bool := false
  /-- Operations whose claims it waits for, as they stood at arrival (R124). -/
  holders : List Nat
  /-- Earlier waiting granules that share a codeword (R124). -/
  behind : List Nat
  arrived : Nat
  deriving DecidableEq, Repr

/-! ## Picks and columns (chapters 04, 05, 10) -/

/-- Column modes of Table 4.5; FENCED and RETIRED are flags of their own, read first. -/
inductive ColMode where
  | normal | pick | toPick | toNormal
  deriving DecidableEq, Repr

/-- A mode change in progress (R91 to R93). -/
structure ModeChange where
  since : Nat
  /-- First request number after the write. -/
  mark : Nat
  /-- Part of a stack_mode write. -/
  byStack : Bool
  path : DictPath
  deriving DecidableEq, Repr

/-- A claim: granules q to q + n - 1 of die pair d (R102, R122). -/
structure Claim where
  pair : Nat
  q : Nat
  n : Nat
  write : Bool
  deriving DecidableEq, Repr

/-- Who gave a pick operation. -/
inductive PickOwner where
  /-- Direct command slot. -/
  | slot (k : Nat)
  /-- Operation `idx` of pass `pass` (05 R138). -/
  | pass (pass : Nat) (idx : Nat)
  deriving DecidableEq, Repr

/-- A pick operation, waiting or admitted (R100 to R104). -/
structure PickOp where
  uid : Nat := 0
  /-- The 64-byte command record (Table 4.11). -/
  record : BitVec 512 := 0
  ctx : BitVec 6 := 0
  owner : PickOwner := .slot 0
  claims : List Claim := []
  /-- Module addresses captured by translation at admission (R39, R46). -/
  srcPa : Nat := 0
  auxPa : Nat := 0
  dstPa : Nat := 0
  /-- Request number of the translation (R47). -/
  req : Nat := 0
  /-- Operations a PFENCE waits for (R114). -/
  waitsFor : List Nat := []
  started : Option Nat := none
  /-- Rows done so far (PCOPY, PINIT, PLOGIC). -/
  rows : Nat := 0
  /-- The data effect is done. -/
  done : Bool := false
  cost : Nat := 0
  /-- Cycles that refresh and ordinary accesses inserted between its row steps (R120, R125). -/
  delay : Nat := 0
  /-- Tag for its fault log records (Table 15.3). -/
  tag : W16 := 0
  /-- Cycle from which the column port takes its next row step, and the die of its last one (16: none). -/
  stepAt : Nat := 0
  stepDie : Nat := 16
  /-- A broadcast PLOAD of a pass: how many earlier ones of the pass at this pick name its lane and window (log entry 146). -/
  turn : Nat := 0
  /-- A segment delivered before it started (R210). -/
  segment : Option (List (Byte × Bool)) := none
  status : Byte := 0
  assay : W64 := 0
  /-- Cycle of the last data received (R115). -/
  lastData : Nat := 0
  deriving DecidableEq, Repr

/-- The partials a PMVK left (R111). -/
structure Partials where
  seqStream : Bool
  slots : Byte
  nout : Nat
  resBase : Nat
  exact : Bool
  deriving DecidableEq, Repr

/-- A direct command slot (Table 4.10): state 0 FREE, 1 QUEUED, 2 RUNNING, 3 DONE. -/
structure SlotRec where
  state : BitVec 3 := 0
  status : Byte := 0
  seq : W16 := 0
  assay : W64 := 0
  cycles : W32 := 0
  record : BitVec 512 := 0
  deriving DecidableEq, Repr

/-- A drift chain word with its marks (R112). -/
structure LinkWord where
  word : W64
  last : Bool
  exact : Bool
  /-- Travelling down (PFOLD direction 1). -/
  down : Bool
  /-- Cycle at which the last word of its PFOLD is past every fenced pick on its way (R141). -/
  at_ : Nat := 0
  deriving DecidableEq, Repr

/-- Refresh rates (Table 10.2). -/
inductive RefRate where
  | cool | hot | rescue
  deriving DecidableEq, Repr

/-- A segment's sweep state and credit (R291): `exp` 0 is IDLE. -/
structure Seg where
  exp : Nat := 0
  tRun : Nat := 0
  credit : Option Nat := none
  deriving DecidableEq, Repr

/-- An entry of the row table (R294). -/
structure ActEntry where
  bank : Nat
  row : Nat
  cnt : Nat
  deriving DecidableEq, Repr

/-- A remap table entry (Table 10.12). -/
structure Remap where
  die : Nat
  row : Nat
  spare : Nat
  deriving DecidableEq, Repr

/-- An interval whose refresh is owed on some dies (R288): row, due time, dies. -/
structure Owed where
  row : Nat
  due : Nat
  dies : List Nat
  deriving DecidableEq, Repr

/-- A bank column, its pick and its share of the shaft controller. -/
structure Col where
  mode : ColMode := .normal
  fenced : Bool := false
  retired : Bool := false
  /-- The command path failed (R296). -/
  pathFailed : Bool := false
  change : Option ModeChange := none
  vbuf : Tab Byte := []
  vmark : Tab Bool := []
  scales : Tab Byte := []
  smark : Tab Bool := []
  entries : Tab W64 := []
  accs : Tab (BitVec 1024) := []
  accFlags : Tab (BitVec 3) := []
  layout : BitVec 2 := 3
  afmt : BitVec 2 := 0
  /-- Partials that stand, oldest first. -/
  partials : List Partials := []
  window : List PickOp := []
  seqQ : List PickOp := []
  dirQ : List PickOp := []
  /-- The last admission came from the sequencer stream (R103). -/
  lastSeq : Bool := false
  slots : Tab SlotRec := []
  opsDone : W32 := 0
  lastStatus : Byte := 0
  inbox : List LinkWord := []
  lastActive : Nat := 0
  /-- Cycle at which an operation that uses the column port started last (R121). -/
  portAt : Option Nat := none
  -- refresh (R287 to R289)
  refK : Nat := 0
  /-- Due time of interval refK (R287). -/
  refDue : Nat := 0
  refRate : RefRate := .cool
  rescueLeft : Nat := 0
  owed : List Owed := []
  refStarted : Bool := false
  /-- Cycle of the first row write after which refresh runs: the banks follow it in the order of the fill (R312). -/
  refFrom : Nat := 0
  -- sweeps and activation tracking (R291 to R295)
  segs : Tab Seg := []
  /-- Row table, by the number of the entry, 0 to 15. -/
  act : Tab ActEntry := []
  floorF : Nat := 0
  floorLast : Nat := 0
  segCounts : Tab Nat := []
  trrOwed : List (Nat × Nat × Bool) := []
  -- repair (R308); the factory's repairs stand beside the remap table (Table 13.5)
  remaps : List Remap := []
  factory : List Remap := []
  sparesGone : List (Nat × Nat) := []
  -- scrubber (R305, R306)
  scrubRow : Nat := 0
  scrubDie : Nat := 0
  scrubLap : Nat := 0
  scrubLaps : Nat := 0
  scrubLapLast : Nat := 0
  -- command path (R296)
  alerts : Nat := 0
  alertAt : Nat := 0
  laneTraining : Bool := false
  laneTrained : Bool := false
  deriving DecidableEq, Repr

/-- A remap in progress (R308). -/
structure RemapJob where
  loc : W64
  path : Option DictPath
  since : Nat
  /-- The claim was granted at this cycle. -/
  granted : Option Nat := none
  /-- Operations and granules it waits for. -/
  holders : List Nat := []
  behind : List Nat := []
  deriving DecidableEq, Repr

/-- A broadcast segment held for the stack (05 R133, R134; 07 R210). -/
structure Segment where
  lane : Nat
  window : Nat
  data : List Byte
  /-- Byte places of the data that arrived poisoned. -/
  poison : List Nat := []
  /-- The pass it belongs to, or the hoist that sends it. -/
  pass : Option Nat := none
  /-- Which of the pass's sendings of this lane and window it is (log entry 146). -/
  turn : Nat := 0
  face : Nat := 0
  hid : Nat := 0
  sent : Nat := 0
  deriving DecidableEq, Repr

/-- A stack: the objects of Tables 4.4 and 10.13 and its link. -/
structure Stack where
  claimWaits : W32 := 0
  claimWaitMax : W32 := 0
  claimTimeouts : W32 := 0
  directRefusals : W32 := 0
  opsDone : W32 := 0
  /-- The held stack_mode write: value, path, and whether a column ended with TIMEOUT. -/
  change : Option (Bool × DictPath × Bool) := none
  staggerAt : Option Nat := none
  hotEnter : Byte := 82
  hotExit : Byte := 80
  refRate : RefRate := .cool
  refsDone : W32 := 0
  refsWaived : W32 := 0
  refInsertions : W32 := 0
  owedMax : Byte := 0
  rescues : W32 := 0
  creditsVoided : W32 := 0
  rowTrr : W32 := 0
  segTrr : W32 := 0
  floorMax : W16 := 0
  ceCount : W32 := 0
  ueCount : W32 := 0
  lastCe : W64 := 0
  lastUe : W64 := 0
  rmwCount : W32 := 0
  wbqDropped : W32 := 0
  cmdAlerts : W32 := 0
  cmdReplays : W32 := 0
  cmdRetrains : W32 := 0
  cmdFailures : W32 := 0
  linkCrcErrors : W32 := 0
  linkReplays : W32 := 0
  linkRetrains : W32 := 0
  scrubEnable : Bool := true
  scrubFixed : W32 := 0
  scrubSkipped : W32 := 0
  wbq : List W64 := []
  /-- Suspect rows, least recently updated first, with their counts and the codewords counted. -/
  suspects : List (W64 × Nat × List Nat) := []
  remapSel : W16 := 0
  remapSnap : List W32 := []
  autoRemap : Bool := true
  ceRemapThresh : Byte := 3
  remapsDone : W32 := 0
  remapJob : Option RemapJob := none
  /-- Automatic remaps that wait for the one in progress. -/
  remapQueue : List W64 := []
  fillState : Byte := 0
  fillCycles : W32 := 0
  -- core temperature (R289), in 0.1 degrees
  tempMax : Int := 0
  coolSince : Option Nat := none
  supplyHot : Bool := false
  -- link (R297)
  linkUp : Bool := false
  linkDownAt : Nat := 0
  seqDown : Byte := 0
  seqUp : Byte := 0
  /-- Frames are discarded until the one expected comes again. -/
  dropDown : Bool := false
  dropUp : Bool := false
  replayDown : Nat := 0
  replayUp : Nat := 0
  /-- Replay buffers of the two ends: the last 128 frames sent down and up, newest first, as far as they arrived whole:
  sequence number, type, payload (R297, log entry 143). -/
  framesDown : List (Byte × Byte × List Byte) := []
  framesUp : List (Byte × Byte × List Byte) := []
  segments : List Segment := []
  deriving DecidableEq, Repr

/-! ## The tally board (chapter 09) -/

/-- The last-signaller record (R259). -/
structure Signaller where
  amount : W32 := 0
  src : W16 := 0xFFFF
  status : Byte := 0
  op : BitVec 4 := 0
  ctx : BitVec 6 := 0
  deriving DecidableEq, Repr

/-- A physical tally (R252): its watch list holds slots in registration order. -/
structure TallyCell where
  value : W32 := 0
  barrier : Bool := false
  watches : List Nat := []
  signaller : Signaller := {}
  deriving DecidableEq, Repr

/-- The target of a watch (Table 9.8). -/
inductive WatchTarget where
  | face (f : Nat)
  | step (q : Nat)
  | host (haddr : W64) (msix : Byte)
  | partner (port : PortId) (src : BitVec 4)
  deriving DecidableEq, Repr

/-- A watch slot (Table 9.7). -/
structure Watch where
  armed : Bool := false
  target : WatchTarget := .face 0
  cons : Bool := false
  thr : W32 := 0
  tally : Nat := 0
  cookie : W16 := 0
  ctx : BitVec 6 := 0
  deriving DecidableEq, Repr

/-- A barrier record (Table 9.11). -/
structure Barrier where
  used : Bool := false
  tally : Nat := 0
  mask : W64 := 0
  cur : W64 := 0
  nxt : W64 := 0
  deriving DecidableEq, Repr

/-- A registration of a face or a step that waits for a slot (R262). -/
structure WatchReq where
  target : WatchTarget
  code : W16
  cons : Bool
  thr : W32
  tally : Nat
  ctx : BitVec 6
  /-- The tally's kind when the registration was made. -/
  barrier : Bool
  deriving DecidableEq, Repr

/-- The tally board. -/
structure TallyBoard where
  cells : Tab TallyCell := []
  watches : Tab Watch := []
  barriers : Tab Barrier := []
  waiting : List WatchReq := []
  dbgSel : W16 := 0
  dbgSnap : BitVec 128 := 0
  watchSel : W16 := 0
  watchSnap : BitVec 256 := 0
  barSel : Byte := 0
  barSnap : BitVec 256 := 0
  underFaults : W32 := 0
  overFaults : W32 := 0
  rangeFaults : W32 := 0
  overrunFaults : W32 := 0
  watchRefused : W32 := 0
  stampTimeouts : W32 := 0
  opsApplied : W32 := 0
  poolWaits : W32 := 0
  gates : W32 := 0
  gateWait : W16 := 50
  watchRemoteMax : W16 := 1024
  deriving DecidableEq, Repr

/-! ## Passes and reductions (chapter 05) -/

/-- The kinds of pass (R136, R153, R154). -/
inductive PassKind where
  | lode | score | value
  deriving DecidableEq, Repr

/-- One pick operation of a pass: the output rows it contributes to (R139) and how it ended. -/
structure PassOp where
  idx : Nat
  col : Nat
  group : Nat
  row0 : Nat
  rows : Nat
  /-- A PLOAD: it serves every row it names, and no failure of one run ends it. -/
  load : Bool := false
  done : Bool := false
  status : Byte := 0
  deriving DecidableEq, Repr

/-- A run of output rows that the hub reduces, and how many partials they have (R144). -/
structure HubRows where
  row0 : Nat
  rows : Nat
  parts : Nat := 0
  deriving DecidableEq, Repr

/-- An output of a reduction that waits to be written: its address, its bytes, and its assay flags as a word (R78). -/
structure RedOut where
  va : Nat
  bytes : List Byte
  assay : W64
  deriving DecidableEq, Repr

/-- A reduction in progress (R144 to R146, R237): fillers written, outputs whose partials are read, the outputs, and the cycle at which
its own cycles end, once all are read. -/
structure Reduction where
  filled : Nat := 0
  read : Nat := 0
  outs : List RedOut := []
  words : Nat := 0
  assay : W64 := 0
  status : Byte := 0
  endAt : Option Nat := none
  deriving DecidableEq, Repr

/-- A pass in progress. -/
structure Pass where
  id : Nat
  q : Nat
  /-- Dispatch number of its step operation. -/
  seq : Nat
  kind : PassKind
  ctx : BitVec 6
  req : Nat
  exact : Bool
  ofmt : BitVec 2
  smask : Byte
  cluster : Nat
  /-- Output rows for each slot, and the outputs' place (R136, R236). -/
  nRows : Nat
  outVa : Nat
  partVa : Nat
  planes : Nat := 0
  hubRows : List HubRows := []
  /-- Output row of the pass at which each slot starts is slot x nRows; VALUE numbers rows head x 128 + d. -/
  ops : List PassOp := []
  assay : W64 := 0
  started : Nat := 0
  /-- Number of its dispatch among all (R140, R146). -/
  order : Nat := 0
  /-- Its hub reduction, once begun, and whether it is over. -/
  red : Option Reduction := none
  reduced : Bool := false
  /-- A pick that it names was fenced while it ran (R149). -/
  fenced : Bool := false
  /-- Tag for its fault log records (Table 15.3). -/
  tag : W16 := 0
  status : Byte := 0
  deriving DecidableEq, Repr

/-- A merge waiting at the collar (R146, R237): its dispatch number, queue and number in its step. -/
structure CollarJob where
  order : Nat
  q : Nat
  seq : Nat
  red : Option Reduction := none
  deriving DecidableEq, Repr

/-! ## Faces and hoists (chapters 06 and 07) -/

/-- An open loop of the face sequencer (R163). -/
structure LoopFrame where
  start : Nat
  left : Nat
  iter : W32
  strip : Bool
  /-- Elements not yet covered by a strip. -/
  elems : Nat
  xd : Nat
  deriving DecidableEq, Repr

/-- The sequencer's WAITT (R165). -/
inductive FaceWait where
  | none
  /-- A watch registered or waiting for a slot, since a cycle. -/
  | watching (since : Nat)
  /-- The watch could not be armed: its status (R262). -/
  | failed (status : Byte)
  deriving DecidableEq, Repr

/-- A page of a transfer with its translation (R211). -/
structure PageMap where
  vpage : Nat
  ppage : Nat
  deriving DecidableEq, Repr

/-- A hoist transfer that has started (R198 to R216). -/
structure HoistRun where
  srcLd : BitVec 512 := 0
  dstLd : BitVec 512 := 0
  /-- Added to the bases (R198). -/
  sx : Nat := 0
  dx : Nat := 0
  stx : Nat := 0
  pages : List PageMap := []
  /-- Coordinates of the list after clamping, entry by entry. -/
  list : List (List Nat) := []
  /-- Moves made in this phase, and moves in all. -/
  moved : Nat := 0
  total : Nat := 0
  /-- 0 direct, 1 in place with transposition, 2 staged reading, 3 staged writing. -/
  mode : Nat := 0
  /-- Bytes counted in this phase, and cycles of what is behind (R216). -/
  counted : Nat := 0
  spent : Nat := 0
  /-- Blocks of the unit fetched last, by their number in it (R205). -/
  held : Tab (List (Byte × Bool)) := []
  /-- Staging slots whose source could not be read (R213). -/
  lost : List Nat := []
  /-- Blocks of the present run of repeats of a SCATTER_ADD that a failed request leaves unwritten (log entry 151). -/
  dropped : List Nat := []
  /-- Stacks that still have to deliver the segment (R210). -/
  pendingStacks : List Nat := []
  deriving DecidableEq, Repr

/-- An engine operation in the scoreboard (R167). -/
structure EngOp where
  uid : Nat
  /-- Descriptor, with its continuation for a VCHAIN (R176). -/
  desc : BitVec 768
  index : Nat
  /-- Scalar registers and VL as read when it entered. -/
  xs : Tab W32
  vl : Nat
  started : Option Nat := none
  /-- The engine's work is done; completion follows after its cost, and its engine is free after `busy`. -/
  done : Bool := false
  cost : Nat := 0
  busy : Nat := 0
  status : Byte := 0
  assay : W64 := 0
  /-- Scalar register that receives a value at completion (R184 to R186). -/
  xout : Option (Nat × W32) := none
  req : Nat := 0
  hoist : Option HoistRun := none
  deriving DecidableEq, Repr

/-- The task a face runs (R158). -/
structure FaceTask where
  q : Nat
  seq : Nat
  ctx : BitVec 6
  pc : Nat := 0
  loops : List LoopFrame := []
  wait : FaceWait := .none
  ops : List EngOp := []
  /-- First failure in issue order: descriptor index, status and tag. -/
  fail : Option (Nat × Byte × W16) := none
  /-- END was issued: the task completes when nothing is outstanding. -/
  ending : Bool := false
  assay : W64 := 0
  started : Nat := 0
  /-- Cycle from which the sequencer may issue its next descriptor (Table 6.1, R167). -/
  seqAt : Nat := 0
  deriving DecidableEq, Repr

/-- A physical face. -/
structure Face where
  logical : Option Nat := none
  fenced : Bool := false
  resetting : Bool := false
  tasksDone : W32 := 0
  lastStatus : Byte := 0
  lastFailTag : W16 := 0
  mxBusy : W32 := 0
  vxBusy : W32 := 0
  sramCe : W32 := 0
  sramUe : W32 := 0
  srSeed : W32 := 1
  srState : W32 := 1
  hoistClamps : W32 := 0
  hoistMisaligned : W32 := 0
  hoistStaged : W32 := 0
  hoistTransfers : W32 := 0
  hoistLastStatus : Byte := 0
  xregs : Tab W32 := []
  masks : Tab W64 := []
  /-- Vector register lane: register x 64 + lane. -/
  vregs : Tab W32 := []
  vl : Nat := 64
  /-- Accumulator bank entry: bank x 4096 + row x 64 + column. -/
  accs : Tab W32 := []
  vinbuf : Tab Byte := []
  program : List (BitVec 256) := []
  progVa : Addr := 0
  lastCtx : Option (BitVec 6) := none
  task : Option FaceTask := none
  /-- SRAM words waiting for their write-back, by word number (R192). -/
  writeBacks : List Nat := []
  gated : Bool := false
  floorRate : Bool := false
  /-- Cycle at which it gated or woke last. -/
  wokeAt : Nat := 0
  deriving DecidableEq, Repr

/-- A task held by a cluster foreman, bound to a logical face (R234). -/
structure TaskReq where
  q : Nat
  seq : Nat
  face : Nat
  ctx : BitVec 6
  progVa : Addr
  ndesc : Nat
  args : List W32
  reload : Bool
  /-- Tag of the TASK operation, for the fault log (Table 8.5). -/
  tag : W16 := 0
  deriving DecidableEq, Repr

/-- A cluster foreman. -/
structure Cluster where
  tasks : List TaskReq := []
  /-- Logical face bound last by an ANY task; none before the first. -/
  last : Option Nat := none
  deriving DecidableEq, Repr

/-! ## Queues, steps and windows (chapter 08) -/

/-- An accepted slot (R224). -/
structure Accepted where
  slot : BitVec 1024
  index : Nat
  stamp : Nat
  deriving DecidableEq, Repr

/-- The wait of the head operation (R231, R262). -/
inductive HeadWait where
  /-- No watch asked for yet. -/
  | idle
  | watching
  | met
  | failed (status : Byte)
  deriving DecidableEq, Repr

/-- A member of a task operation: its logical face and, once complete, its status and assay word. -/
structure Member where
  face : Nat
  done : Bool := false
  status : Byte := 0
  assay : W64 := 0
  deriving DecidableEq, Repr

/-- An operation dispatched and not complete. -/
structure StepOp where
  seq : Nat
  index : Nat
  /-- The executor has taken it up (the row of its own operation ran). -/
  begun : Bool := false
  done : Bool := false
  status : Byte := 0
  assay : W64 := 0
  members : List Member := []
  /-- Number of its dispatch among those of all queues. -/
  order : Nat := 0
  /-- Cycle of its dispatch. -/
  at_ : Nat := 0
  deriving DecidableEq, Repr

/-- An active step (R230 to R241). -/
structure StepRun where
  slot : BitVec 1024
  index : Nat
  ctx : BitVec 6
  started : Nat
  prog : List (BitVec 512)
  head : Nat
  headAt : Nat
  wait : HeadWait := .idle
  counters : Tab W32 := []
  ops : List StepOp := []
  seqNext : Nat := 0
  /-- First failure in dispatch order: dispatch number, status, operation index. -/
  fail : Option (Nat × Byte × Nat) := none
  /-- Nothing more is dispatched. -/
  stopped : Bool := false
  /-- END was executed: the tokens of its DONE record. -/
  ended : Option (List W32) := none
  assay : W64 := 0
  windowed : Bool := false
  ovr : Bool := false
  deriving DecidableEq, Repr

/-- Where a record goes (R229). -/
inductive RecPort where
  | inModule | host | partner (k : Nat)
  deriving DecidableEq, Repr

/-- A record whose write is in flight (R227). -/
structure RecFlight where
  data : List Byte
  addr : W64
  port : RecPort
  rseq : W32
  since : Nat
  /-- Request number of its write. -/
  id : Nat := 0
  /-- Sent to its destination. -/
  sent : Bool := false
  /-- Acknowledged there. -/
  acked : Bool := false
  deriving DecidableEq, Repr

/-- A queue: the objects of Table 8.12 and the queue engine's state. -/
structure Queue where
  context : Byte := 0
  enable : Bool := false
  depth : W16 := 512
  seq0 : W16 := 0
  staleLimit : W16 := 64
  recAddr : W64 := 0
  recPort : Byte := 0
  recDepth : W16 := 512
  recTally : W16 := 0xFFFF
  recMsix : Byte := 0xFF
  prio : Byte := 0
  waitLimit : W16 := 0
  staleRetries : W32 := 0
  staleStalls : W32 := 0
  dbDropped : W32 := 0
  recDropped : W32 := 0
  head : Nat := 0
  ephase : Bool := true
  eseq : W16 := 0
  target : Option Nat := none
  stalled : Bool := false
  /-- Cycle of the first failed check and of the last re-read of the head slot. -/
  stale : Option (Nat × Nat) := none
  accepted : List Accepted := []
  step : Option StepRun := none
  prevDone : Nat := 0
  recCount : Nat := 0
  records : List RecFlight := []
  deriving DecidableEq, Repr

/-- The step foreman (R238, R239). -/
structure Foreman where
  /-- Queue started last, for each priority 0 and 1. -/
  lastStart0 : Option Nat := none
  lastStart1 : Option Nat := none
  lastDispatch : Option Nat := none
  watchWaits : W32 := 0
  stepsDone : W32 := 0
  deriving DecidableEq, Repr

/-- Step windows (Table 8.10). -/
structure Window where
  len : W32 := 0
  align : Bool := false
  number : W32 := 0
  ignored : W32 := 0
  missed : W32 := 0
  overruns : W32 := 0
  fallback : Bool := false
  /-- Stamp of the last boundary, in cycles. -/
  boundary : Nat := 0
  missedInRow : Nat := 0
  deriving DecidableEq, Repr

/-! ## Ports (chapter 11) -/

/-- A SIG held until its stamp is met (R271). -/
structure Hold where
  src : BitVec 4
  tag : BitVec 10
  ctx : BitVec 6
  stamp : W32
  /-- Offset in the tally port page, and the record (Table 9.5). -/
  off : BitVec 24
  data : List Byte
  since : Nat
  /-- Request number of its translation (R47). -/
  req : Nat := 0
  deriving DecidableEq, Repr

/-- A request forwarded to a partner and not answered (R330), or a record write to it (R229). -/
structure FwdReq where
  dst : PortId
  /-- Arrival port; none for a record write of the module. -/
  origin : Option PortId
  src : BitVec 4
  tag : BitVec 10
  ctx : BitVec 6
  wr : Bool
  /-- Queue and record of a record write. -/
  queue : Nat := 0
  rseq : W32 := 0
  counted : Bool := true
  deriving DecidableEq, Repr

/-- A packet that waits for its start on a port. `pool`: the port whose forwarding pool holds it until then (R324). -/
structure TxPkt where
  hdr : BitVec 256
  data : List Byte
  pool : Option PortId := none
  deriving DecidableEq, Repr

/-- A DATA flit in the replay buffer, and how often it was sent (R318). -/
structure TxFlit where
  seq : BitVec 12
  bytes : List Byte
  sends : Nat
  deriving DecidableEq, Repr

/-- Credits of the receive pools of Table 11.7: C1, C2 local, C2 forwarding, C3. -/
structure Pools where
  c1 : Nat := 0
  c2l : Nat := 0
  c2f : Nat := 0
  c3 : Nat := 0
  deriving DecidableEq, Repr

/-- A Xeide port: the objects of Table 11.13 and the link's state. `state` holds the codes of Table 11.8. -/
structure Port where
  state : Byte := 0
  enable : Bool := true
  width : Byte := 0
  spareFor : Byte := 0xFF
  lanesFailed : BitVec 17 := 0
  ctxMask : W64 := 0xFFFFFFFFFFFFFFFE
  fecCorrected : W32 := 0
  fecUncorrected : W32 := 0
  flitReplays : W32 := 0
  retrains : W32 := 0
  rxMalformed : W32 := 0
  fwdRefused : W32 := 0
  peerCredits : W64 := 0
  fwd : Byte := 0
  /-- Next DATA flit expected, whether flits are discarded until a replay, and the unfinished packet stream. -/
  rxSeq : BitVec 12 := 0
  discarding : Bool := false
  rxBuf : List Byte := []
  /-- A good DATA flit is not acknowledged yet, and the credits that go back in the next flits (R324). -/
  ackOwed : Bool := false
  owed : Pools := {}
  /-- Credits of the module's own pools that arrived packets hold (R324). -/
  held : Pools := {}
  /-- Next DATA flit to send, bytes of started packets that no flit carries yet, and the replay buffer (R318). -/
  txSeq : BitVec 12 := 0
  txBuf : List Byte := []
  unacked : List TxFlit := []
  /-- Packets that wait for the port, for acknowledgements or for credits. -/
  txWait : List TxPkt := []
  /-- DATA flits sent while a class C2 packet was ready and none started (R325). -/
  c2Wait : Nat := 0
  /-- Credits that the partner has left to the module in classes C1, C2 and C3 (R324). -/
  credit1 : Nat := 0
  credit2 : Nat := 0
  credit3 : Nat := 0
  /-- The training in progress is a first one (R333); training attempts that failed. -/
  firstTraining : Bool := true
  tries : Nat := 0
  /-- Uncorrectable codewords of the last 1 ms: lane and cycle. -/
  laneErrs : List (Nat × Nat) := []
  /-- Acknowledged class C2 writes of each source (R271). -/
  fence : Tab W32 := []
  holds : List Hold := []
  deriving DecidableEq, Repr

/-- What the host writes in the configuration space of the function (Table 11.11, log entry 15): the bases of BAR0 and BAR2, none
before they are assigned, Bus Master Enable and MSI-X Enable. -/
structure HostConfig where
  bar0 : Option W64 := none
  bar2 : Option W64 := none
  busMaster : Bool := false
  msixEnable : Bool := false
  deriving DecidableEq, Repr

/-- The host port (R337 to R343). -/
structure HostPort where
  /-- h_state: 0 down, 1 up full, 2 up lower. -/
  link : Byte := 0
  refused : W32 := 0
  dropped : W32 := 0
  aditRefused : W32 := 0
  aditPage : W16 := 0
  /-- MSI-X table entry v; an unlisted entry is masked and 0. -/
  msixTable : Tab (BitVec 128) := []
  msixPending : W64 := 0
  cfg : HostConfig := {}
  perst : Bool := false
  /-- The link was up and went down. -/
  lost : Bool := false
  deriving DecidableEq, Repr

/-! ## Life, fuses, trust (chapter 13) -/

/-- A bring-up step object (Table 13.3). -/
structure StepObj where
  state : Byte := 0
  status : Byte := 0
  detail : W32 := 0
  us : W32 := 0
  deriving DecidableEq, Repr

/-- The run of bring-up steps in progress (R376). -/
structure BuRunning where
  /-- The step now running and the last one asked for. -/
  step : Nat
  last : Nat
  since : Nat
  deriving DecidableEq, Repr

/-- Life state, bring-up and resets. -/
structure Life where
  state : Byte := 1
  buRun : Byte := 0
  buLast : Byte := 0
  running : Option BuRunning := none
  steps : Tab StepObj := []
  resetCause : Byte := 0
  fastPath : Bool := true
  /-- The bring-up in progress follows a warm reset. -/
  warmBoot : Bool := false
  compute : Option Nat := none
  warm : Option Nat := none
  cold : Option Nat := none
  /-- A headframe restart under ACTIVATE since a cycle (R393). -/
  restart : Option Nat := none
  /-- Cycle at which D00 last came up (R428). -/
  d00At : Nat := 0
  /-- Step 5 completed or was skipped; step 9 completed (R379). -/
  filled : Bool := false
  opened : Bool := false
  deriving DecidableEq, Repr

/-- A repaired row: global pick, die, row, spare (Table 13.5). -/
structure RowRep where
  col : Nat
  die : Nat
  row : Nat
  spare : Nat
  deriving DecidableEq, Repr

/-- The fuse map (Table 13.5): the factory part and the service part. -/
structure FuseMap where
  serial : W64 := 0
  hwRev : W16 := 0
  actThresh : W16 := 1024
  epoch : Byte := 0
  badFaces : List Nat := []
  badXlanes : Tab (BitVec 17) := []
  badPicks : List Nat := []
  svcFaces : List Nat := []
  svcPicks : List Nat := []
  svcRetired : List Nat := []
  rowReps : List RowRep := []
  bundleReps : List W32 := []
  svcRemaps : List RowRep := []
  deriving DecidableEq, Repr

/-- A licence slot (R395): the stored licence and whether it passed the last step 8. -/
structure LicSlot where
  data : List Byte := []
  passed : Bool := false
  deriving DecidableEq, Repr

/-- Firmware, licences and attestation. -/
structure Trust where
  fwImage : List Byte := []
  fwState : Byte := 0
  fwStatus : Byte := 0
  ucodePending : Bool := false
  /-- Image region of the flash. -/
  flash : List Byte := []
  fwVersion : W32 := 0
  /-- The image that the last step 7 or ACTIVATE loaded. -/
  loaded : List Byte := []
  licImage : List Byte := []
  licStatus : Byte := 0
  slots : Tab LicSlot := []
  attNonce : List Byte := []
  attState : Byte := 0
  attReport : List Byte := []
  /-- Bytes 0 to 191 of the report being signed. -/
  attBody : List Byte := []
  /-- The 68-byte public key: OID of XMSS-SHAKE256_20_256, root, public seed (R397, RFC 8391). -/
  attPubkey : List Byte := [0, 0, 0, 0x12] ++ (List.range 64).map Config.attKey
  nextIdx : W32 := 0
  reservedTo : W32 := 0
  deriving DecidableEq, Repr

/-- The geometry object's changing subindices (Table 1.7) and the suffix of part_number. -/
structure Geometry where
  picksLive : W16 := 4096
  facesLive : Byte := 48
  portsLicensed : Byte := 4
  pagesLive : W16 := 32768
  features : W32 := 1
  generation : W32 := 0
  /-- 0 none, 1 "-S", 2 "-X". -/
  suffix : Byte := 0
  deriving DecidableEq, Repr

/-! ## Power, canary round, throttle, inputs (chapter 14) -/

/-- A power domain (Table 14.7): codes 0 OFF, 1 ON, 2 IDLE, 3 SLEEP, 4 FAILED. -/
structure Domain where
  state : Byte := 0
  wakes : W32 := 0
  wakeUsMax : Byte := 0
  idleSince : Nat := 0
  deriving DecidableEq, Repr

/-- A loan of the budget ledger (R411): the lender's physical face and the borrower, stack n or 8 + physical face. -/
structure Loan where
  lender : Nat
  borrower : Nat
  watts : Nat
  /-- The lending face has woken: the watts are recalled. -/
  recalled : Bool := false
  deriving DecidableEq, Repr

/-- A unit of the ledger: its duty in eighths and its recent estimates (R410). -/
structure LedgerUnit where
  duty : Nat := 8
  /-- Microseconds in a row below 7/8 of the grant. -/
  calm : Nat := 0
  /-- Microseconds since its duty was last below 8. -/
  free : Nat := 8
  /-- Estimate of the last microsecond. -/
  est : Nat := 0
  deriving DecidableEq, Repr

/-- Input monitor, phases, ledger and domains. -/
structure Power where
  domains : Tab Domain := [(0, ⟨1, 0, 0, 0⟩)]
  sleepIdleUs : W16 := 200
  volts : Nat := 0
  watts : Nat := 0
  over66 : Nat := 0
  over64 : Nat := 0
  under54 : Nat := 0
  under48 : Nat := 0
  under40 : Nat := 0
  inBand : Nat := 0
  highCond : Bool := false
  lowCond : Bool := false
  phases : BitVec 18 := BitVec.allOnes 18
  /-- Excursion store in units of 0.01 mJ. -/
  store : Nat := 300000
  powerK : Nat := 8
  powerCuts : W32 := 0
  calmSamples : Nat := 0
  wattSum : Nat := 0
  wattCount : Nat := 0
  loans : List Loan := []
  lendNext : Nat := 0
  recalls : W32 := 0
  recallUsMax : Byte := 0
  grantLimitedUs : W32 := 0
  units : Tab LedgerUnit := []
  deriving DecidableEq, Repr

/-- A canary channel (Table 14.8): its readings and status. -/
structure Channel where
  value : Int := 0
  prev : Int := 0
  prevGood : Bool := false
  good : Bool := false
  status : Byte := 0
  /-- Limits written by software; none: the default of Table 14.4. -/
  high : Option W16 := none
  low : Option W16 := none
  /-- Rounds in a row outside and inside the limits (R440). -/
  outRounds : Nat := 0
  inRounds : Nat := 0
  acting : Bool := false
  deriving DecidableEq, Repr

/-- The canary round and the throttle (R413 to R420). -/
structure Canary where
  slot : Nat := 0
  rounds : W32 := 0
  riseLimit : W16 := 200
  ignore : BitVec 128 := 0
  brokenRounds : W32 := 0
  channels : Tab Channel := []
  graceMs : W16 := 25
  thrK : Nat := 8
  thrState : Byte := 0
  thrMsix : Byte := 0xFF
  pinK : Byte := 4
  asks : W32 := 0
  enforcements : W32 := 0
  askedAt : Nat := 0
  /-- Rounds since the last change of thr_k. -/
  sinceChange : Nat := 0
  /-- Rounds since the last step down of thr_k in ENFORCED. -/
  sinceStep : Nat := 0
  /-- Effective duty last reported. -/
  dutySent : Nat := 8
  lastReading : Nat := 0
  deriving DecidableEq, Repr

/-- An asynchronous input (R421). -/
structure InputPin where
  level : Bool := false
  glitches : W32 := 0
  fast : W32 := 0
  stuck : Bool := false
  stucks : W32 := 0
  spacingUs : W16 := 10
  stuckMs : W32 := 0
  lastEdge : Option Nat := none
  since : Nat := 0
  /-- Cycle of the last qualified change of level. -/
  changed : Option Nat := none
  deriving DecidableEq, Repr

/-- The fence in progress (R433): a pick or a physical face, and the cause. -/
structure FenceJob where
  pick : Bool
  idx : Nat
  cause : Byte
  since : Nat
  deriving DecidableEq, Repr

/-- The fence unit (Table 15.11). -/
structure FenceUnit where
  /-- Fences in progress, oldest first; fence_busy is 1 while there is one. -/
  jobs : List FenceJob := []
  done : W32 := 0
  deriving DecidableEq, Repr

/-! ## The whole module -/

/-- The stored and current communication objects at their defaults for a node (Table 12.11, Table 12.13). -/
def commDefaults (node : Nat) : CommObjs where
  emcyCob := BitVec.ofNat 32 (0x080 + node)
  tpdoCob := [(0, BitVec.ofNat 32 (0x180 + node)), (1, BitVec.ofNat 32 (0x280 + node)),
    (2, BitVec.ofNat 32 (0x380 + node)), (3, BitVec.ofNat 32 (0x480 + node))]
  tpdoTimer := [(0, 10), (1, 10), (2, 100), (3, 1000)]

/-- The state of the module. -/
structure State where
  /-- Commands that wait, first in, first out (log entry 1). -/
  pending : List Instr := []
  /-- Cycles of 800 MHz since reset (log entry 2). -/
  now : Nat := 0
  out : List Out := []
  freeTick : Nat := 0
  /-- Next request number, in order of translation (R47). -/
  reqNext : Nat := 1
  /-- DRAM, face SRAM and queue memory by byte (log entry 6). -/
  mem : List Host.Cell := []
  /-- Stored check bytes XOR the check bytes of the stored data, by codeword (R298 to R301). -/
  eccDiff : Tab W32 := []
  /-- Wrong bits of a face SRAM word, by word (R192). -/
  sramErr : Tab Nat := []
  xfers : List Xfer := []
  waits : List GranReq := []
  xlate : Tab W32 := []
  groupView : BitVec 512 := 0
  ctxs : Tab Ctx := [(0, { enabled := true })]
  drain : Option Drain := none
  cols : Tab Col := []
  stackTbl : Tab Stack := []
  passes : List Pass := []
  collar : List CollarJob := []
  /-- Cycle from which the collar is free (R146). -/
  collarFree : Nat := 0
  faces : Tab Face := []
  clusters : Tab Cluster := []
  queues : Tab Queue := []
  foreman : Foreman := {}
  win : Window := {}
  tally : TallyBoard := {}
  ports : Tab Port := []
  fwds : List FwdReq := []
  host : HostPort := {}
  can : Can := { comm := commDefaults 64, stored := commDefaults 64 }
  log : FaultLog := {}
  life : Life := {}
  fuse : FuseMap := {}
  trust : Trust := {}
  geo : Geometry := {}
  power : Power := {}
  canary : Canary := {}
  inputs : Tab InputPin := [(1, { stuckMs := 60000 }), (2, { stuckMs := 10000 })]
  fence : FenceUnit := {}
  /-- Logical face numbers of the previous bring-up by physical face (R20). -/
  oldBinding : Tab (Option Nat) := []
  deriving DecidableEq, Repr

/-- The module right after reset: input power has brought up D00 and the life state is STANDBY (R370, Table 13.2); every
object at the Default of its table; the values that the manual leaves to the factory as log entries 7 and 10 name them. -/
def State.reset : State := {}

end Sys2Proof.Machine
end

