-- ==== Sys2Proof/Machine/Ops.lean ====
section
/-! DEFINITION. The named operations over the state: tables, bytes, counters, units, the fault log, EMCY and memory cells. -/

namespace Sys2Proof.Machine

/-- The outcome of a meaning. -/
abbrev Result := Host.Outcome State Fault Refusal

/-! ## Status codes (Table 15.1) -/

abbrev stOk : Byte := 0x00
abbrev stPoison : Byte := 0x01
abbrev stXlate : Byte := 0x02
abbrev stProt : Byte := 0x03
abbrev stOob : Byte := 0x04
abbrev stOverlap : Byte := 0x05
abbrev stTallyUnder : Byte := 0x06
abbrev stTallyOver : Byte := 0x07
abbrev stTallyRange : Byte := 0x08
abbrev stOverrun : Byte := 0x09
abbrev stStale : Byte := 0x0A
abbrev stFenced : Byte := 0x0B
abbrev stTimeout : Byte := 0x0C
abbrev stBusy : Byte := 0x0D
abbrev stMode : Byte := 0x0E
abbrev stLicence : Byte := 0x0F
abbrev stClaim : Byte := 0x10

/-! ## Sparse tables -/

/-- What a table holds at an index: the listed value, or the default. -/
def tget {α : Type} (d : α) : Tab α → Nat → α
  | [], _ => d
  | (j, w) :: t, i => if i = j then w else tget d t i

/-- Put a value at an index, in canonical form: indices rise, and the default is never listed. -/
def tset {α : Type} [DecidableEq α] (d : α) : Tab α → Nat → α → Tab α
  | [], i, v => if v = d then [] else [(i, v)]
  | (j, w) :: t, i, v =>
    if i < j then (if v = d then (j, w) :: t else (i, v) :: (j, w) :: t)
    else if i = j then (if v = d then t else (i, v) :: t)
    else (j, w) :: tset d t i v

/-- Change every listed value, in canonical form. -/
def tmap {α : Type} [DecidableEq α] (d : α) (f : α → α) (t : Tab α) : Tab α :=
  t.filterMap fun p => if f p.2 = d then none else some (p.1, f p.2)

/-- The canonical form: every listed index is above the bound and rises, and no listed value is the default. -/
def tabWf {α : Type} [DecidableEq α] (d : α) : Tab α → Bool
  | [] => true
  | [(_, w)] => decide (w ≠ d)
  | (i, w) :: (j, x) :: t => decide (i < j) && decide (w ≠ d) && tabWf d ((j, x) :: t)

/-! ## Numbers, bits and bytes -/

/-- One microsecond and one millisecond in cycles of 1.25 ns. -/
abbrev usCycles : Nat := 800
abbrev msCycles : Nat := 800000

/-- Bits hi to lo of a word. -/
def bitsAt {w : Nat} (x : BitVec w) (hi lo : Nat) : Nat := (x.toNat >>> lo) % 2 ^ (hi + 1 - lo)

/-- Bit i of a word. -/
def bitAt {w : Nat} (x : BitVec w) (i : Nat) : Bool := x.toNat.testBit i

/-- Put bit i of a word. -/
def setBit {w : Nat} (x : BitVec w) (i : Nat) (b : Bool) : BitVec w :=
  if b then x ||| BitVec.ofNat w (2 ^ i) else x &&& ~~~ (BitVec.ofNat w (2 ^ i))

/-- Add 1 to a counter that saturates at all ones. -/
def satInc {w : Nat} (x : BitVec w) : BitVec w := if x = BitVec.allOnes w then x else x + 1

/-- Add n to a counter that saturates. -/
def satAdd {w : Nat} (x : BitVec w) (n : Nat) : BitVec w := BitVec.ofNat w (min (x.toNat + n) (2 ^ w - 1))

/-- ⌈a ÷ b⌉. -/
def ceilDiv (a b : Nat) : Nat := if a = 0 ∨ b = 0 then 0 else (a - 1) / b + 1

/-- The n low bytes of a number, little-endian (R10). -/
def leBytes : Nat → Nat → List Byte
  | 0, _ => []
  | n + 1, v => BitVec.ofNat 8 v :: leBytes n (v / 256)

/-- The number that bytes spell, little-endian (R10). -/
def leNat : List Byte → Nat
  | [] => 0
  | b :: bs => b.toNat + 256 * leNat bs

/-- Bytes off to off + n - 1 of a string, 0 past its end. -/
def sliceBytes (bs : List Byte) (off n : Nat) : List Byte :=
  (List.range n).map fun i => (bs[off + i]?).getD 0

/-- Put bytes over a string from an offset; what falls past its end is lost. -/
def overlay (bs : List Byte) (off : Nat) (new : List Byte) : List Byte :=
  bs.take off ++ (new.take (bs.length - off)) ++ bs.drop (off + new.length)

/-- Set bits of a word, lowest first. -/
def setBits {w : Nat} (x : BitVec w) : List Nat := (List.range w).filter (bitAt x)

/-- A signed 32-bit and a signed 16-bit reading of a number below its modulus. -/
def signed (w n : Nat) : Int := if n < 2 ^ (w - 1) then (n : Int) else (n : Int) - (2 ^ w : Nat)

/-! ## Units of the module -/

def State.col (s : State) (g : Nat) : Col := tget {} s.cols g
def State.setCol (s : State) (g : Nat) (c : Col) : State := { s with cols := tset {} s.cols g c }
def State.modCol (s : State) (g : Nat) (f : Col → Col) : State := s.setCol g (f (s.col g))
def State.stack (s : State) (n : Nat) : Stack := tget {} s.stackTbl n
def State.setStack (s : State) (n : Nat) (k : Stack) : State := { s with stackTbl := tset {} s.stackTbl n k }
def State.modStack (s : State) (n : Nat) (f : Stack → Stack) : State := s.setStack n (f (s.stack n))
def State.face (s : State) (f : Nat) : Face := tget {} s.faces f
def State.setFace (s : State) (f : Nat) (c : Face) : State := { s with faces := tset {} s.faces f c }
def State.modFace (s : State) (f : Nat) (k : Face → Face) : State := s.setFace f (k (s.face f))
def State.cluster (s : State) (c : Nat) : Cluster := tget {} s.clusters c
def State.setCluster (s : State) (c : Nat) (k : Cluster) : State := { s with clusters := tset {} s.clusters c k }
def State.queue (s : State) (q : Nat) : Queue := tget {} s.queues q
def State.setQueue (s : State) (q : Nat) (k : Queue) : State := { s with queues := tset {} s.queues q k }
def State.modQueue (s : State) (q : Nat) (f : Queue → Queue) : State := s.setQueue q (f (s.queue q))
def State.port (s : State) (k : Nat) : Port := tget {} s.ports k
def State.setPort (s : State) (k : Nat) (p : Port) : State := { s with ports := tset {} s.ports k p }
def State.modPort (s : State) (k : Nat) (f : Port → Port) : State := s.setPort k (f (s.port k))
def State.ctx (s : State) (c : Nat) : Ctx := tget {} s.ctxs c
def State.setCtx (s : State) (c : Nat) (k : Ctx) : State := { s with ctxs := tset {} s.ctxs c k }
def State.box (s : State) (m : Nat) : Mailbox := tget {} s.can.boxes m
def State.setBox (s : State) (m : Nat) (b : Mailbox) : State :=
  { s with can := { s.can with boxes := tset {} s.can.boxes m b } }
def State.domain (s : State) (d : Nat) : Domain := tget {} s.power.domains d
def State.setDomain (s : State) (d : Nat) (k : Domain) : State :=
  { s with power := { s.power with domains := tset {} s.power.domains d k } }
def State.channel (s : State) (c : Nat) : Channel := tget {} s.canary.channels c
def State.setChannel (s : State) (c : Nat) (k : Channel) : State :=
  { s with canary := { s.canary with channels := tset {} s.canary.channels c k } }
def State.input (s : State) (i : Nat) : InputPin := tget {} s.inputs i
def State.setInput (s : State) (i : Nat) (k : InputPin) : State := { s with inputs := tset {} s.inputs i k }
def State.cell (s : State) (t : Nat) : TallyCell := tget {} s.tally.cells t
def State.setCell (s : State) (t : Nat) (k : TallyCell) : State :=
  { s with tally := { s.tally with cells := tset {} s.tally.cells t k } }

/-- Send something. -/
def State.emit (s : State) (o : Out) : State := { s with out := s.out ++ [o] }

/-- Send things in order. -/
def State.emits (s : State) (os : List Out) : State := { s with out := s.out ++ os }

/-- The next request number, and the state that has used it (R47). -/
def State.newReq (s : State) : Nat × State := (s.reqNext, { s with reqNext := s.reqNext + 1 })

/-- The next free value index, and the state that has used it (log entry 4). -/
def State.newFree (s : State) : Nat × State := (s.freeTick, { s with freeTick := s.freeTick + 1 })

/-- Stack and place in the stack of a global pick (R15). -/
def stackOf (g : Nat) : Nat := g / 512
def pickOf (g : Nat) : Nat := g % 512

/-- Cluster of a physical face (R18), and of a logical face (R19). -/
def clusterOf (f : Nat) : Nat := f / 13
def clusterOfLogical (l : Nat) : Nat := l / 12

/-- The physical face that a logical face is bound to (R19). -/
def physicalOf (s : State) (l : Nat) : Option Nat :=
  (s.faces.find? fun p => p.2.logical == some l).map (·.1)

/-- A logical face is live while it is bound and not fenced (R250). -/
def faceLive (s : State) (l : Nat) : Bool :=
  match physicalOf s l with
  | none => false
  | some f => !(s.face f).fenced

/-- The live logical faces in increasing order. -/
def liveFaces (s : State) : List Nat := (List.range 48).filter (faceLive s)

/-- A pick is live while it is not fenced (Table 4.4); a retired column's pick is fenced. -/
def pickLive (s : State) (g : Nat) : Bool := !(s.col g).fenced && !(s.col g).retired

/-- Whether a licensed feature bit of Table 1.8 is in force (R4). -/
def licensed (s : State) (bit : Nat) : Bool := bitAt s.geo.features bit

/-- The active steps. -/
def stepsActive (s : State) : Nat := (s.queues.filter fun p => p.2.step.isSome).length

/-- The headframe runs in every life state but OFF and STANDBY, and not while a cold reset holds its domain off (R351, R370, R386). -/
def headframeOn (s : State) : Bool := s.life.state ≠ 0 && s.life.state ≠ 1 && s.life.cold.isNone

/-! ## Requesters -/

/-- Source code of Table 9.1. -/
def codeOf : Origin → W16
  | .partner k src _ => BitVec.ofNat 16 (0x10 + 16 * k.val + src.toNat)
  | .host _ => 1
  | .unit c => c

/-- The `unit` of a REFUSED record: port k, 15 for the host, or the unit's source code (Table 15.4). -/
def logUnitOf : Origin → W16
  | .partner k _ _ => BitVec.ofNat 16 k.val
  | .host _ => 15
  | .unit c => c

/-! ## Domains (R404 to R406) -/

/-- A domain is ON. -/
def domainOn (s : State) (d : Nat) : Bool := (s.domain d).state == 1

/-- Longest wake in µs of a domain (Table 14.2). -/
def wakeLimit (d : Nat) (sleep : Bool) : Nat := if !sleep then 1 else if d ≤ 14 then 20 else 5

/-- A domain in IDLE or SLEEP wakes; the time it takes is a free value within its limit (log entry 37). -/
def wakeDomain (s : State) (d : Nat) : State :=
  let k := s.domain d
  if k.state = 2 || k.state = 3 then
    let (i, t) := s.newFree
    let us := Config.wakeMicros i % (wakeLimit d (k.state == 3) + 1)
    t.setDomain d { k with state := 1, wakes := k.wakes + 1, wakeUsMax := BitVec.ofNat 8 (max k.wakeUsMax.toNat us) }
  else s

/-! ## The issue duty (R420) -/

/-- The pin duty (R423, Table 14.6): a stuck THROTTLE_N counts as active. -/
def pinDuty (s : State) : Nat := if (s.input 2).level || (s.input 2).stuck then s.canary.pinK.toNat else 8

abbrev thrNone : Byte := 0
abbrev thrAsked : Byte := 1
abbrev thrEnforced : Byte := 2
abbrev thrRecovering : Byte := 3

/-- The effective duty in eighths (R420). -/
def effectiveDuty (s : State) : Nat :=
  min (if s.canary.thrState = thrNone || s.canary.thrState = thrAsked then 8 else s.canary.thrK) (min s.power.powerK (pinDuty s))

/-- The duty of a unit: the smaller of the effective one and its own. Unit n is stack n, unit 8 + f is physical face f (R420). -/
def dutyOf (s : State) (u : Nat) : Nat := min (effectiveDuty s) (tget {} s.power.units u).duty

/-- A cycle in which a duty of k eighths lets work advance: the first 128 k of a frame of 1,024 (R420, log entry 159). -/
def dutyOpen (k t : Nat) : Bool := decide (t % 1024 < 128 * k)

/-- The first such cycle from t on. -/
def dutySlot (k t : Nat) : Nat := if dutyOpen k t then t else (t / 1024 + 1) * 1024

/-- Such cycles below n. -/
def dutyUpTo (k n : Nat) : Nat := n / 1024 * (128 * k) + min (n % 1024) (128 * k)

/-- Such cycles from a to b. -/
def dutyCycles (k a b : Nat) : Nat := dutyUpTo k b - dutyUpTo k a

/-! ## The inputs' filter (R421) -/

/-- A change of level so soon after the last qualified one that 9 samples, 20 ns or 16 cycles, have not shown the level between:
it is not qualified. -/
def tooShort (s : State) (i : Nat) : Bool := (s.input i).changed.any fun a => decide (s.now < a + 16)

/-- A pulse that is not qualified is discarded and counts. -/
def glitch (s : State) (i : Nat) : State := s.setInput i { s.input i with glitches := satInc (s.input i).glitches }

/-! ## The fault log (R428, R429) -/

/-- Microseconds since D00 last came up. -/
def nowUs (s : State) : Nat := (s.now - s.life.d00At) / usCycles

/-- A record matches the newest one and merges into it (R429). -/
def logMerges (s : State) (r : FaultRec) : Bool :=
  match s.log.recs with
  | [] => false
  | n :: _ => n.event == r.event && n.status == r.status && n.unit == r.unit && n.src == r.src && n.ctx == r.ctx &&
      decide (s.now - s.log.lastAt ≤ 1000 * usCycles)

/-- Write a record, or merge it into the newest (R428, R429). -/
def logPut (s : State) (r : FaultRec) : State :=
  if logMerges s r then
    match s.log.recs with
    | [] => s
    | n :: t => { s with log := { s.log with recs := { n with rpt := satInc n.rpt } :: t, merged := satInc s.log.merged,
                                              lastAt := s.now } }
  else
    let full := decide ((s.log.count - s.log.oldest).toNat = 4096)
    { s with log := { s.log with
        recs := ({ r with fseq := s.log.count, whenUs := BitVec.ofNat 64 (nowUs s), rpt := 0 } :: s.log.recs).take 4096,
        count := s.log.count + 1,
        oldest := if full then s.log.oldest + 1 else s.log.oldest,
        lastAt := s.now } }

/-- A record of the running headframe; without it none is written but that of a change of life state (R373, log entry 13). -/
def logRec (s : State) (r : FaultRec) : State := if headframeOn s then logPut s r else s

/-- A REFUSED record (Table 15.4). -/
def logRefused (s : State) (o : Origin) (ctx : BitVec 6) (status : Byte) (info : Nat) (tag : W16 := 0) : State :=
  logRec s { event := 0x01, status := status, unit := logUnitOf o, src := codeOf o, ctx := ctx, tag := tag,
             info := BitVec.ofNat 64 info }

/-- Put the tag of an operation into the refusals, memory errors and tally faults that its work logged since a state (Table 15.3). -/
def withTag (tag : W16) (before after : State) : State :=
  let n := (after.log.count - before.log.count).toNat
  if n = 0 then after
  else { after with log := { after.log with recs := after.log.recs.zipIdx.map fun x =>
      if x.2 < n && x.1.tag == 0 && (x.1.event == 0x01 || x.1.event == 0x02 || x.1.event == 0x09) then { x.1 with tag := tag } else x.1 } }

/-! ## EMCY (R367 to R369) -/

/-- The register bits that an active condition of a code sets (Table 12.14). -/
def condBit (code : W16) : Byte :=
  if code = 0x3110 || code = 0x3120 then 0x04
  else if code = 0x4210 || code = 0x4220 || code = 0x4230 then 0x08
  else if code = 0x8120 then 0x10
  else if code = 0xFF01 || code = 0xFF02 || code = 0xFF03 || code = 0xFF10 || code = 0xFF11 || code = 0xFF20 ||
          code = 0xFF21 then 0x80
  else if code = 0xFF40 || code = 0xFF41 then 0x01
  else 0

/-- 0x1001: bit 0 is set while any other bit is set (R368). -/
def errorRegister (cs : List Cond) : Byte :=
  let r := cs.foldl (fun acc c => acc ||| condBit c.code) 0
  if r = 0 then 0 else r ||| 1

/-- Conditions that are active, with those that began while the headframe was off. -/
def activeConds (c : Can) : List Cond := c.conds ++ c.quiet

/-- Put a message into the queue of 16, dropping the oldest when it is full (R369). -/
def emcyPush (c : Can) (m : Emcy) : Can :=
  if bitAt c.comm.emcyCob 31 then c
  else if c.emcyQueue.length < 16 then { c with emcyQueue := c.emcyQueue ++ [m] }
  else { c with emcyQueue := c.emcyQueue.drop 1 ++ [m], emcyDropped := satInc c.emcyDropped, emcyOwed := true }

/-- Raise an EMCY: it enters 0x1003 and the fault log and waits to be sent (R368). In STANDBY none is sent (R351). -/
def raiseEmcy (s : State) (code : W16) (unit : Byte) (detail : Nat) : State :=
  if headframeOn s then
    let d : W32 := BitVec.ofNat 32 detail
    let m : Emcy := ⟨code, errorRegister (activeConds s.can), unit, d⟩
    let e : W32 := BitVec.ofNat 32 (code.toNat + 0x10000 * (d.toNat % 256) + 0x1000000 * unit.toNat)
    let c := emcyPush { s.can with errors := (e :: s.can.errors).take 8 } m
    logRec { s with can := c }
      { event := 0x0C, unit := BitVec.ofNat 16 unit.toNat, src := 0,
        info := BitVec.ofNat 64 (code.toNat + 0x10000 * d.toNat) }
  else s

/-- A condition of Table 12.14 begins: it becomes active and its EMCY is raised, unless it is active already. Without a running
headframe it is active in 0x1001 alone; its EMCY is raised when its rule finds it again with the headframe running (R351, R368, R461). -/
def condStart (s : State) (code : W16) (key : Nat) (unit : Byte) (detail : Nat) : State :=
  if s.can.conds.contains ⟨code, key⟩ then s
  else if headframeOn s then
    raiseEmcy { s with can := { s.can with conds := s.can.conds ++ [⟨code, key⟩],
                                           quiet := s.can.quiet.filter fun c => !(c == ⟨code, key⟩) } } code unit detail
  else if s.can.quiet.contains ⟨code, key⟩ then s
  else { s with can := { s.can with quiet := s.can.quiet ++ [⟨code, key⟩] } }

/-- A condition ends; when the last one ends, EMCY 0x0000 is raised with the register 0 (R368). -/
def condEnd (s : State) (code : W16) (key : Nat) : State :=
  let gone (cs : List Cond) : List Cond := cs.filter fun c => !(c == ⟨code, key⟩)
  if s.can.conds.contains ⟨code, key⟩ then
    let t := { s with can := { s.can with conds := gone s.can.conds } }
    if activeConds t.can = [] then raiseEmcy t 0 0 0 else t
  else if s.can.quiet.contains ⟨code, key⟩ then { s with can := { s.can with quiet := gone s.can.quiet } }
  else s

/-! ## Memory cells

One list of (key, byte) in canonical form holds DRAM, face SRAM and queue memory; a byte that is not listed reads 0. -/

/-- Key of byte b of physical row r (4,096 data rows, then 32 spare rows) of die d of column g. -/
def dramKey (g d r b : Nat) : Nat := ((g * 16 + d) * 4128 + r) * 2048 + b
/-- Key of SRAM byte o of physical face f. -/
def sramKey (f o : Nat) : Nat := 0x10000000000 + f * 0x800000 + o
/-- Key of queue memory byte o. -/
def queueKey (o : Nat) : Nat := 0x18000000000 + o

/-- The canonical form of memory. -/
def memWf (m : List Host.Cell) : Bool := tabWf (0 : Byte) m

/-- Read one byte. -/
def State.rdByte (s : State) (k : Nat) : Byte := tget (0 : Byte) s.mem k
/-- Write one byte. -/
def State.wrByte (s : State) (k : Nat) (b : Byte) : State := { s with mem := tset (0 : Byte) s.mem k b }

/-- Read n bytes from a key upward. -/
def State.rdBytes (s : State) (k n : Nat) : List Byte := (List.range n).map fun i => s.rdByte (k + i)

/-- Write bytes from a key upward. -/
def State.wrBytes (s : State) (k : Nat) : List Byte → State
  | [] => s
  | b :: bs => (s.wrByte k b).wrBytes (k + 1) bs

end Sys2Proof.Machine
end

