-- ==== Sys2Proof/Machine/Link.lean ====
section
/-! DEFINITION. What leaves the module: packets on the ports, writes and vectors to the host, answers to a requester. -/

namespace Sys2Proof.Machine

/-- A port runs: UP or DEGRADED (Table 11.8). -/
def portRuns (p : Port) : Bool := p.state == 3 || p.state == 4

/-- CRC-32 of IEEE 802.3: reflected polynomial 0xEDB88320, one bit. -/
def crc32Bit (c : BitVec 32) : BitVec 32 := if c.getLsbD 0 then (c >>> 1) ^^^ 0xEDB88320 else c >>> 1
def crc32Byte (c : BitVec 32) (b : Byte) : BitVec 32 :=
  (List.range 8).foldl (fun x _ => crc32Bit x) (c ^^^ b.setWidth 32)

/-- CRC-32 (R297, R317): initial value and final XOR of all ones. -/
def crc32 (bs : List Byte) : W32 := (bs.foldl crc32Byte 0xFFFFFFFF) ^^^ 0xFFFFFFFF

/-! ## Receive pools (R324, Table 11.7) -/

/-- Credits that a packet of n payload bytes takes (R324). -/
def packetCredits (n : Nat) : Nat := ceilDiv (32 + n) 256

/-- The pools of one port of the module (Table 11.7). -/
def portPools : Pools := { c1 := 32, c2l := 384, c2f := 128, c3 := 32 }

/-- Credits added to the pool of a class; C0 has none. -/
def poolAdd (q : Pools) (cls : Nat) (fwd : Bool) (n : Nat) : Pools :=
  if cls = 1 then { q with c1 := q.c1 + n }
  else if cls = 2 then (if fwd then { q with c2f := q.c2f + n } else { q with c2l := q.c2l + n })
  else if cls = 3 then { q with c3 := q.c3 + n }
  else q

/-- Credits taken from the pool of a class. -/
def poolSub (q : Pools) (cls : Nat) (fwd : Bool) (n : Nat) : Pools :=
  if cls = 1 then { q with c1 := q.c1 - n }
  else if cls = 2 then (if fwd then { q with c2f := q.c2f - n } else { q with c2l := q.c2l - n })
  else if cls = 3 then { q with c3 := q.c3 - n }
  else q

/-- A packet leaves its pool as it is taken in: its credits go back (R324). -/
def poolBack (s : State) (k : PortId) (h : BitVec 256) (n : Nat) : State :=
  s.modPort k fun p => { p with owed := poolAdd p.owed (bitsAt h 9 8) (bitsAt h 27 24 ≠ 15) (packetCredits n) }

/-- A packet stays in its pool: a signal that is held, a request that waits to be forwarded (R324). -/
def poolKeep (s : State) (k : PortId) (cls n : Nat) : State :=
  s.modPort k fun p => { p with owed := poolSub p.owed cls true (packetCredits n), held := poolAdd p.held cls true (packetCredits n) }

/-- A packet that stayed leaves its pool. -/
def poolLeave (s : State) (k : PortId) (cls n : Nat) : State :=
  s.modPort k fun p => { p with owed := poolAdd p.owed cls true (packetCredits n), held := poolSub p.held cls true (packetCredits n) }

/-! ## Flits (R317, R318) -/

/-- A flit with its credits, `aseq` and CRC, and the port after it (Table 11.3). -/
def buildFlit (p : Port) (ftype : Nat) (seq : BitVec 12) (body : List Byte) : List Byte × Port :=
  let o := p.owed
  let hdr := min o.c1 255 * 2 ^ 56 + min o.c2l 255 * 2 ^ 48 + min o.c2f 255 * 2 ^ 40 + min o.c3 255 * 2 ^ 32 + ftype * 2 ^ 30 +
    seq.toNat * 2 ^ 18 + (p.rxSeq - 1).toNat * 2 ^ 6
  let bs := leBytes 8 hdr ++ body ++ List.replicate (244 - body.length) 0
  (bs ++ leBytes 4 (crc32 bs).toNat,
   { p with ackOwed := false, owed := { c1 := o.c1 - 255, c2l := o.c2l - 255, c2f := o.c2f - 255, c3 := o.c3 - 255 } })

/-- An IDLE flit leaves while an acknowledgement or credits are owed (structural on the count: the credits of the pools need at most
two). -/
def portIdle (k : PortId) : Nat → State → State
  | 0, s => s
  | n + 1, s =>
    let p := s.port k
    if portRuns p && (p.ackOwed || p.owed ≠ {}) then
      let (bs, q) := buildFlit p 0 0 []
      portIdle k n ((s.setPort k q).emit (.flit k bs))
    else s

/-- DATA flits that the packet stream fills leave and enter the replay buffer (structural on the count; log entry 16). -/
def cutFlits (k : PortId) : Nat → State → State
  | 0, s => s
  | n + 1, s =>
    let p := s.port k
    if 244 ≤ p.txBuf.length then
      let (bs, q) := buildFlit p 1 p.txSeq (p.txBuf.take 244)
      cutFlits k n ((s.setPort k { q with txBuf := p.txBuf.drop 244, txSeq := p.txSeq + 1,
                                          unacked := p.unacked ++ [⟨p.txSeq, bs, 1⟩] }).emit (.flit k bs))
    else s

/-! ## Packets that wait for a port (R325) -/

/-- Class of a packet. -/
def pktCls (x : TxPkt) : Nat := bitsAt x.hdr 9 8

/-- Credits left in a class; C0 needs none. -/
def creditFor (p : Port) (cls n : Nat) : Bool :=
  cls == 0 || decide (packetCredits n ≤ (if cls = 1 then p.credit1 else if cls = 2 then p.credit2 else p.credit3))

/-- A packet's credits are used. -/
def takeCredit (p : Port) (cls n : Nat) : Port :=
  if cls = 1 then { p with credit1 := p.credit1 - packetCredits n }
  else if cls = 2 then { p with credit2 := p.credit2 - packetCredits n }
  else if cls = 3 then { p with credit3 := p.credit3 - packetCredits n }
  else p

/-- The first waiting packet of a class, if the class has credit for it. -/
def readyOf (p : Port) (cls : Nat) : Option TxPkt :=
  (p.txWait.find? fun x => pktCls x == cls).filter fun x => creditFor p cls x.data.length

/-- The packet that starts next: in the order C0, C1, C3, C2, and C2 first after 16 flits without a start of it (R325). -/
def nextOut (p : Port) : Option TxPkt :=
  ((if 16 ≤ p.c2Wait then [2, 0, 1, 3] else [0, 1, 3, 2]).filterMap (readyOf p)).head?

/-- A packet starts: its bytes join the stream, its credits are used, and its flits leave (R318, R325). A forwarded request leaves its
pool (R324). -/
def startPacket (s : State) (k : PortId) (x : TxPkt) : State :=
  let p := s.port k
  let buf := p.txBuf ++ leBytes 32 x.hdr.toNat ++ x.data
  let wait := if pktCls x = 2 || (readyOf p 2).isNone then 0 else p.c2Wait + buf.length / 244
  let q := takeCredit { p with txWait := p.txWait.erase x, txBuf := buf, c2Wait := wait } (pktCls x) x.data.length
  let t := cutFlits k (buf.length / 244) ((s.setPort k q).emit (.packet k x.hdr x.data))
  match x.pool with
  | none => t
  | some j => portIdle j 2 (poolLeave t j 2 x.data.length)

/-- Send waiting packets while the port runs, credits allow and at most 256 flits stay unacknowledged (R318, R325; structural on the
count). -/
def portDrain (k : PortId) : Nat → State → State
  | 0, s => s
  | n + 1, s =>
    let p := s.port k
    if portRuns p then
      match nextOut p with
      | none => s
      | some x =>
        if p.unacked.length + (p.txBuf.length + 32 + x.data.length) / 244 ≤ 256 then portDrain k n (startPacket s k x) else s
    else s

/-- Let go what may leave: packets, and then what no DATA flit took back of acknowledgements and credits. -/
def portFlush (s : State) (k : PortId) : State := portIdle k 2 (portDrain k ((s.port k).txWait.length) s)

/-- Send a packet: it leaves in its turn when the port runs, waits while the port retrains (R334), and is not sent on a port that
does not run. -/
def portSend (s : State) (k : PortId) (hdr : BitVec 256) (data : List Byte) (pool : Option PortId := none) : State :=
  let p := s.port k
  if portRuns p || p.state = 5 then portFlush (s.setPort k { p with txWait := p.txWait ++ [⟨hdr, data, pool⟩] }) k
  else s

/-- Header of a packet that the module sends to the partner on a port (Table 11.4); `dst` names that port (log entry 161). -/
def sentHeader (k ptype cls src ctx org tag len : Nat) (addr mcode status : Nat := 0) : BitVec 256 :=
  BitVec.ofNat 256 (status * 2 ^ 128 + mcode * 2 ^ 120 + addr * 2 ^ 64 + len * 2 ^ 48 + tag * 2 ^ 32 + org * 2 ^ 28 + k * 2 ^ 24 +
    ctx * 2 ^ 16 + src * 2 ^ 12 + cls * 2 ^ 8 + ptype)

/-- A management message to the partner on a port (Table 11.10). -/
def portMsg (s : State) (k : PortId) (mcode : Nat) (data : List Byte) : State :=
  portSend s k (sentHeader k.val 0x30 3 0 0 15 0 data.length (mcode := mcode)) data

/-- The ports. -/
def allPorts : List PortId := [0, 1, 2, 3, 4, 5]

/-- A message to every partner whose port is UP or DEGRADED. -/
def msgAll (s : State) (mcode : Nat) (data : List Byte) : State :=
  allPorts.foldl (fun (t : State) (k : PortId) => if portRuns (t.port k) then portMsg t k mcode data else t) s

/-- A response to a partner: it carries the tag, source, context and origin of its request, whose port is its origin but where the
request was refused for naming another (R320, R322). -/
def portRsp (s : State) (k : PortId) (src : BitVec 4) (tag : BitVec 10) (ctx : Nat) (status : Byte) (data : List Byte)
    (org : Nat := k.val) : State :=
  portSend s k (sentHeader k.val 0x10 0 src.toNat ctx org tag.toNat data.length (status := status.toNat)) data

/-- A notice to a source of a port (R264, Table 9.9). -/
def portNotice (s : State) (k : PortId) (src : BitVec 4) (ctx : Nat) (word : W64) : State :=
  portSend s k (sentHeader k.val 0x21 1 src.toNat ctx 15 0 8) (leBytes 8 word.toNat)

/-- A class C2 write of a source is acknowledged, or completes with a failing status (R271). -/
def fenceCount (s : State) (k : PortId) (src : BitVec 4) : State :=
  s.modPort k fun p => { p with fence := tset 0 p.fence src.toNat (tget 0 p.fence src.toNat + 1) }

/-- The host can be written to: link up, out of reset, Bus Master Enable set (R340). -/
def hostWritable (s : State) : Bool := s.host.link ≠ 0 && !s.host.perst && s.host.cfg.busMaster

/-- A posted write into host memory, or a dropped one (R340). -/
def hostSend (s : State) (addr : W64) (data : List Byte) : State :=
  if hostWritable s then s.emit (.hostWrite addr data)
  else { s with host := { s.host with dropped := satInc s.host.dropped } }

/-- An MSI-X table entry at reset: vector masked (log entry 15). -/
def msixReset : BitVec 128 := BitVec.ofNat 128 (2 ^ 96)

/-- A vector is masked. -/
def msixMasked (s : State) (v : Nat) : Bool := bitAt (tget msixReset s.host.msixTable v) 96

/-- Send an MSI-X vector: pending while masked or disabled, dropped while the host cannot be written (R340). -/
def hostMsix (s : State) (v : Nat) : State :=
  if msixMasked s v || !s.host.cfg.msixEnable then
    { s with host := { s.host with msixPending := setBit s.host.msixPending v true } }
  else if hostWritable s then s.emit (.msix v)
  else { s with host := { s.host with dropped := satInc s.host.dropped } }

/-- A host request did not complete with OK (R339). -/
def hostRefused (s : State) (status : Byte) (info : Nat) : State :=
  logRefused { s with host := { s.host with refused := satInc s.host.refused } } (.host 0) 0 status info

/-- A port of the module is licensed: L4 and L5 need feature bit 2 (R6, Table 1.8). -/
def portLicensed (s : State) (k : Nat) : Bool := decide (k < 4) || licensed s 2

/-- The PCIe completion of a host read by its status (R339). -/
def completionOf (st : Byte) : Completion :=
  if st = stOk then .good else if st = stPoison then .poisoned else if st = stOob then .unsupported else .abort

/-- Answer a requester of a context. `rd`: the request was a read. A host write has no answer; `info` is the offset that a refused host
request logs (R339, R427). -/
def answer (s : State) (o : Origin) (c : Nat) (rd : Bool) (status : Byte) (data : List Byte) (info : Nat) : State :=
  match o with
  | .partner k src tag => portRsp s k src tag c status (if rd && (status == stOk || status == stPoison) then data else [])
  | .host tag =>
    let t := if status = stOk then s else hostRefused s status info
    if rd then t.emit (.hostCpl tag (completionOf status) (if status == stOk || status == stPoison then data else [])) else t
  | .unit c => s.emit (.unitRsp c status data)

/-- Answer a class C2 write: it counts in the fence of its source, whatever its status (R271). -/
def answerWrite (s : State) (o : Origin) (c : Nat) (status : Byte) (info : Nat) : State :=
  match o with
  | .partner k src _ => answer (fenceCount s k src) o c false status [] info
  | _ => answer s o c false status [] info

end Sys2Proof.Machine
end

