-- ==== Sys2Proof/Machine/Access.lean ====
section
/-! DEFINITION. How a dictionary access is opened, held and answered (R350, R351, R356 to R361). -/

namespace Sys2Proof.Machine

/-- The headframe serves the dictionary: it has been started by step 1 and is not restarting (R351, Table 13.4, R393). -/
def headframeServes (s : State) : Bool :=
  headframeOn s && (s.life.warmBoot || s.life.buLast ≠ 0) && (tget {} s.life.steps 1).state ≠ 4 && s.life.restart.isNone

/-- Mailboxes are served: the headframe serves, and from the begin of a warm reset until step 1 has ended they wait (Table 13.6,
R393). -/
def mailboxServes (s : State) : Bool := headframeServes s && s.life.warm.isNone && s.life.buLast ≠ 0

/-- A compute reset, or the compute part of a warm reset, is in progress (Table 13.7, R385). -/
def computeBusy (s : State) : Bool := s.life.compute.isSome || s.life.warm.isSome

/-- Abort code of a status of the object's own rules (Table 12.6). -/
def abortOf (st : Byte) : W32 :=
  if st = stOk then 0
  else if st = stOob then 0x06090030
  else if st = stProt || st = stXlate then 0x06010000
  else if st = stMode then 0x08000022
  else if st = stBusy then 0x08000021
  else if st = stLicence then 0x08000020
  else if st = stFenced || st = stPoison then 0x06060000
  else 0x08000000

/-- CAN serves USDO: not Stopped, not bus-off (R348). -/
def usdoServes (s : State) : Bool := s.can.nmt ≠ .stopped && !s.can.busOff

/-! ## Mailboxes that wait (R355, R361) -/

/-- A mailbox takes a command: `pend` (R361). -/
def mailCommand (b : Mailbox) (cmd : W64) : Mailbox :=
  { b with cmd := cmd, pend := true, taken := false, done := false, status := 0, rlen := 0, abort := 0 }

/-- The first access is served before the second: arrival, then the host before the ports, then the mailbox number (R355). -/
def mailBefore (x y : MailWait) : Bool :=
  decide (x.at_ < y.at_) || (x.at_ == y.at_ && (decide (x.via < y.via) || (x.via == y.via && decide (x.box ≤ y.box))))

/-- A mailbox with a command waits for the headframe. -/
def mailPut (s : State) (m via : Nat) : State :=
  let x : MailWait := { box := m, at_ := s.now, via := via }
  { s with can := { s.can with mail := s.can.mail.takeWhile (mailBefore · x) ++ x :: s.can.mail.dropWhile (mailBefore · x) } }

/-- The `mb_cmd` of a write of n bytes (Table 12.9). -/
def writeCmd (idx : W16) (sb : Byte) (n : Nat) : W64 :=
  BitVec.ofNat 64 (min n 0xFFFF * 2 ^ 32 + idx.toNat * 2 ^ 16 + sb.toNat * 2 ^ 8 + 2)

/-- A write through a mailbox that is not served now stays in the mailbox: its command, its bytes and, where it names one, its
offset (R361, R393). -/
def mailHold (s : State) (p : DictPath) (idx : W16) (sb : Byte) (off : Option W64) (w : List Byte) : State :=
  match p with
  | .mbox m =>
    let b := mailCommand (s.box m.val) (writeCmd idx sb w.length)
    mailPut (s.setBox m.val { b with
      doff := off.getD b.doff,
      area := (List.range (min w.length 4064)).foldl (fun t i => tset 0 t i (w.getD i 0)) b.area }) m.val 0
  | _ => s

/-- A request that starts a transfer ends the one in progress without a response (R350). -/
def usdoNew (s : State) : State :=
  if s.can.usdo.isSome || s.can.usdoHeld.isSome then
    { s with can := { s.can with usdo := none, usdoHeld := none, usdoAborts := satInc s.can.usdoAborts } }
  else s

/-- CAN identifier of the USDO responses (Table 12.1). -/
abbrev usdoCob (s : State) : Nat := 0x580 + s.can.nodeId

/-- Answer a dictionary access: the USDO response, the mailbox's completion, or the answer to another writer. -/
def dictReply (s : State) (p : DictPath) (st : Byte) (abort : W32) (data : List Byte) : State :=
  match p with
  | .can =>
    if st = stOk then s.emit (.usdo (usdoCob s) 0 data)
    else ({ s with can := { s.can with usdoLast := st, usdoAborts := satInc s.can.usdoAborts } }).emit (.usdo (usdoCob s) abort [])
  | .mbox m =>
    let b := s.box m.val
    let n := data.length
    s.setBox m.val { b with
      pend := false, taken := false, done := true, status := st, abort := abort,
      rlen := BitVec.ofNat 16 (if st = stOk then n else 0),
      area := if st = stOk then (List.range n).foldl (fun t i => tset 0 t i (data.getD i 0)) b.area else b.area }
  | .other _ => s.emit (.dictRsp p st abort)

/-- Answer a held write of a waiting object: a USDO transfer that ended meanwhile gets no response (R350, R356). -/
def dictRelease (s : State) (p : DictPath) (idx : W16) (sb : Byte) (st : Byte) : State :=
  match p with
  | .can =>
    if s.can.usdoHeld = some (idx, sb) then
      dictReply { s with can := { s.can with usdoHeld := none } } .can st (abortOf st) []
    else s
  | _ => dictReply s p st (abortOf st) []

/-- Object that a D00 responder serves: in STANDBY, before step 1 has started the headframe and during its restart (R351,
R393, R401). -/
def d00Serves (idx : W16) (sb : Byte) (wr : Bool) : Bool :=
  (idx == 0x1000 || idx == 0x1001 || idx == 0x1017 || idx == 0x1018 || idx == 0x2000) ||
  (decide (0x2100 ≤ idx.toNat) && decide (idx.toNat ≤ 0x210B) &&
    (!wr || idx ≠ 0x2100 || sb == 2 || sb == 1 || sb == 3 || sb == 7 || sb == 8 || sb == 10 || sb == 0))

/-- A REFUSED record of a dictionary object (Table 15.4), by the headframe. -/
def logObject (s : State) (st : Byte) (idx : W16) (sb : Byte) : State :=
  logRec s { event := 0x01, status := st, src := 0, info := BitVec.ofNat 64 (idx.toNat * 2 ^ 16 + sb.toNat * 2 ^ 8) }

/-- How an access begins. -/
inductive Opened where
  | serve (s : State)
  /-- Nothing happens now, or the write is ignored. -/
  | drop (s : State)
  /-- A mailbox keeps the access until the headframe serves it. -/
  | wait
  | refuse (status : Byte) (abort : W32) (s : State)
  deriving DecidableEq, Repr

/-- Begin an access: who serves it, and whether its path takes it (R348, R350, R351, R355, R361, R379, R393). An access over CAN ends
the transfer in progress; one through a mailbox waits behind those that came before it. -/
def dictOpen (s : State) (p : DictPath) (idx : W16) (sb : Byte) (wr : Bool) : Opened :=
  match p with
  | .can =>
    if !usdoServes s || s.life.state = 0 then .drop s
    else if headframeServes s || d00Serves idx sb wr then .serve (usdoNew s)
    else .refuse stMode 0x08000022 (usdoNew s)
  | .mbox m =>
    if !headframeOn s then .drop s
    else
      let b := s.box m.val
      if b.pend then .drop { s with can := { s.can with mirrorDropped := satInc s.can.mirrorDropped } }
      else if !mailboxServes s || s.can.mail ≠ [] then .wait
      else .serve (s.setBox m.val { b with pend := true, taken := true, done := false, status := 0, rlen := 0, abort := 0 })
  | .other c =>
    if !headframeServes s then .drop s
    else if c.val = 0 then .serve s
    else .refuse stProt 0x06010000 s

/-- Hold a write of a waiting object: the response waits (R356). -/
def dictHold (s : State) (p : DictPath) (idx : W16) (sb : Byte) : State :=
  match p with
  | .can => { s with can := { s.can with usdoHeld := some (idx, sb) } }
  | _ => s

/-- Serve an opened write with its owner's rules: a status answers it, none holds it. -/
def dictFinish (p : DictPath) (idx : W16) (sb : Byte) (r : State × Option Byte) : State :=
  match r.2 with
  | some st => dictReply r.1 p st (abortOf st) []
  | none => dictHold r.1 p idx sb

/-- A whole dictionary write of an object with a row of its own; `w` are the bytes written. -/
def dictRow (s : State) (p : DictPath) (idx : W16) (sb : Byte) (w : List Byte) (f : State → State × Option Byte) : State :=
  match dictOpen s p idx sb true with
  | .drop t => t
  | .wait => mailHold s p idx sb none w
  | .refuse st a t => dictReply t p st a []
  | .serve t => dictFinish p idx sb (f t)

/-- The same for rules that never hold a write. -/
def dictRow1 (s : State) (p : DictPath) (idx : W16) (sb : Byte) (w : List Byte) (f : State → State × Byte) : State :=
  dictRow s p idx sb w fun t => ((f t).1, some (f t).2)

/-- A dictionary write whose effect begins after its response (R382). -/
def dictRowThen (s : State) (p : DictPath) (idx : W16) (sb : Byte) (w : List Byte) (check : State → Byte) (act : State → State) :
    State :=
  match dictOpen s p idx sb true with
  | .drop t => t
  | .wait => mailHold s p idx sb none w
  | .refuse st a t => dictReply t p st a []
  | .serve t =>
    let st := check t
    let u := dictReply t p st (abortOf st) []
    if st = stOk then act u else u

/-- Offset of a DOMAIN write: a USDO download brings the object from its first byte (R350, R360). -/
def domainOff (p : DictPath) (off : Nat) : Nat :=
  match p with
  | .can => 0
  | _ => off

/-- A mailbox takes 1 to 4,064 bytes (check 4 of Table 12.5). -/
def mailLen (p : DictPath) (n : Nat) : Bool :=
  match p with
  | .mbox _ => decide (1 ≤ n) && decide (n ≤ 4064)
  | _ => true

/-- A write of a DOMAIN's bytes at an offset (R391): subindex 1 of its index. -/
def domainRow (s : State) (p : DictPath) (idx : W16) (off : W32) (w : List Byte) (f : State → Nat → State × Byte) : State :=
  match dictOpen s p idx 1 true with
  | .drop t => t
  | .wait => mailHold s p idx 1 (some (off.setWidth 64)) w
  | .refuse st a t => dictReply t p st a []
  | .serve t =>
    if mailLen p w.length then
      let r := f t (domainOff p off.toNat)
      dictFinish p idx 1 (r.1, some r.2)
    else dictReply t p stMode 0x06070010 []

end Sys2Proof.Machine
end

