-- ==== Sys2Proof/Machine/Xlate.lean ====
section
/-! DEFINITION. The address map, page homes and views, translation and its refusals (chapter 02). -/

namespace Sys2Proof.Machine

/-! ## Pages (Table 2.1, R34 to R37) -/

def isDramPage (pn : Nat) : Bool := decide (pn < 0x8000)
def isSramPage (pn : Nat) : Bool := decide (0xC000 ≤ pn) && decide (pn ≤ 0xC017)
def isQueuePage (pn : Nat) : Bool := pn == 0xD000
def isTallyPage (pn : Nat) : Bool := pn == 0xD100
def isAperturePage (pn : Nat) : Bool := decide (0xE000 ≤ pn) && decide (pn ≤ 0xEFFF)
def isMirrorPage (pn : Nat) : Bool := pn == 0xF000
/-- A hole of Table 2.1. -/
def isHolePage (pn : Nat) : Bool :=
  !(isDramPage pn || isSramPage pn || isQueuePage pn || isTallyPage pn || isAperturePage pn || isMirrorPage pn)

/-- Home column (global pick index) and die pair of a DRAM page (R34). -/
def homeCol (pn : Nat) : Nat := (pn % 8) * 512 + (pn / 8) % 512
def homePair (pn : Nat) : Nat := (pn / 4096) % 8
/-- Stripe group of a DRAM page. -/
def groupOf (pn : Nat) : Nat := pn / 64

/-- A place in DRAM: column, die, logical row, byte. -/
structure Place where
  col : Nat
  die : Nat
  row : Nat
  byte : Nat
  deriving DecidableEq, Repr

/-- Place of offset o of a page in the bank-local view (R35). -/
def placeLocal (pn o : Nat) : Place :=
  let q := o / 2048
  ⟨homeCol pn, 2 * homePair pn + q % 2, q / 2, o % 2048⟩

/-- Place of offset o of a page in the striped view (R36). -/
def placeStriped (pn o : Nat) : Place :=
  let a := (pn % 64) * 2 ^ 24 + o
  let r := a / 2048
  let m := r % 64
  let t := r / 64
  ⟨(m % 8) * 512 + ((pn / 64) % 64) * 8 + m / 8, 2 * homePair pn + t % 2, t / 2, a % 2048⟩

/-- A group is striped (R37). -/
def striped (s : State) (pn : Nat) : Bool := bitAt s.groupView (groupOf pn)

/-- Place of a DRAM module address under its group's current view. -/
def placeOf (s : State) (pa : Nat) : Place :=
  let pn := pa / 2 ^ 24
  let o := pa % 2 ^ 24
  if striped s pn then placeStriped pn o else placeLocal pn o

/-- The eight stripe groups that include a column: one for each die pair (R34). -/
def groupsOfCol (g : Nat) : List Nat := (List.range 8).map fun d => d * 64 + (pickOf g) / 8

/-- The eight pages homed at a column (R34). -/
def pagesOfCol (g : Nat) : List Nat := (List.range 8).map fun d => d * 4096 + pickOf g * 8 + stackOf g

/-! ## Translation entries (Table 2.4) -/

def entryValid (e : W32) : Bool := bitAt e 31
def entryView (e : W32) : Bool := bitAt e 27
def entryNc (e : W32) : Bool := bitAt e 26
def entryDirect (e : W32) : Bool := bitAt e 25
def entryWrite (e : W32) : Bool := bitAt e 24
def entryRead (e : W32) : Bool := bitAt e 23
def entryPage (e : W32) : Nat := bitsAt e 15 0

/-- The entry n of the table. -/
def State.entry (s : State) (n : Nat) : W32 := tget 0 s.xlate n

/-- Every queue whose memory or doorbell a range of the queue page touches belongs to a context. -/
def queuesOwned (s : State) (c off len : Nat) : Bool :=
  (List.range 64).all fun q =>
    (s.queue q).context.toNat == c ||
      !((decide (off < (q + 1) * 0x10000) && decide (q * 0x10000 < off + len)) ||
        (decide (off < 0x400000 + (q + 1) * 64) && decide (0x400000 + q * 64 < off + len)))

/-- What a translation gives. -/
inductive Xl where
  | pa (n : Nat)
  | fail (status : Byte)
  deriving DecidableEq, Repr

/-- Translate a request of context c (R40, in its order of checks). -/
def translate (s : State) (c va len : Nat) (wr cacheable : Bool) : Xl :=
  let x := s.ctx c
  let v := va / 2 ^ 24
  let off := va % 2 ^ 24
  if !x.enabled then .fail stXlate
  else if x.xlateCount.toNat ≤ v then .fail stXlate
  else if 2 ^ 24 < off + len then .fail stOob
  else
    let e := s.entry (x.xlateBase.toNat + v)
    let pn := entryPage e
    if !entryValid e then .fail stXlate
    else if !wr && !entryRead e then .fail stProt
    else if wr && isAperturePage pn && !entryDirect e then .fail stProt
    else if wr && !isAperturePage pn && !entryWrite e then .fail stProt
    else if cacheable && entryNc e then .fail stProt
    else if isMirrorPage pn && c ≠ 0 then .fail stProt
    else if isQueuePage pn && c ≠ 0 && !(queuesOwned s c off len) then .fail stProt
    else .pa (pn * 2 ^ 24 + off)

/-- A request failed translation or a rights check: the context's counters, its last address and the fault log (R41). -/
def xlateRefused (s : State) (o : Origin) (c va : Nat) (st : Byte) (tag : W16 := 0) : State :=
  let x := s.ctx c
  let y := if st = stProt then { x with protFaults := satInc x.protFaults } else { x with xlateFaults := satInc x.xlateFaults }
  logRefused (s.setCtx c { y with lastFaultVa := BitVec.ofNat 64 (va % 2 ^ 40) }) o (BitVec.ofNat 6 c) st va tag

/-- A translated request met a hole, or an offset that is not implemented: the record of R32. -/
def holeRefused (s : State) (o : Origin) (c va : Nat) (tag : W16 := 0) : State :=
  logRefused s o (BitVec.ofNat 6 c) stOob (va % 2 ^ 40) tag

/-- What a status of the checks after translation logs: a refused right as R41 states, a hole as R32 states. -/
def placeRefused (s : State) (o : Origin) (c va : Nat) (st : Byte) (tag : W16 := 0) : State :=
  if st = stProt then xlateRefused s o c va st tag else if st = stOob then holeRefused s o c va tag else s

/-- Bytes of face SRAM (R14, R31). -/
abbrev sramBytes : Nat := 0x600000

/-- The checks that R32 and R33 make on a translated request: the implemented bytes and the fenced faces. -/
def paCheck (s : State) (pa len : Nat) : Byte :=
  let pn := pa / 2 ^ 24
  let off := pa % 2 ^ 24
  if isHolePage pn then stOob
  else if isSramPage pn then
    let a := pa - 0xC000000000
    if sramBytes < a % 0x800000 + len then stOob
    else if faceLive s (a / 0x800000) then stOk else stFenced
  else if isQueuePage pn then
    if off < 0x400000 then (if off + len ≤ 0x400000 then stOk else stOob)
    else if off + len ≤ 0x401000 then stOk else stOob
  else stOk

/-- The column of a page is not in NORMAL mode: PICK, TO_PICK or TO_NORMAL, and neither fenced nor retired. -/
def colNotNormal (c : Col) : Bool := !c.fenced && !c.retired && c.mode ≠ .normal

/-- A DRAM page touches a column that is not NORMAL: its home, or a column of its striped group (Table 2.5, R45). -/
def pageNotNormal (s : State) (pn : Nat) (view : Bool) : Bool :=
  if view then
    (List.range 64).any fun m => colNotNormal (s.col ((m % 8) * 512 + ((pn / 64) % 64) * 8 + m / 8))
  else colNotNormal (s.col (homeCol pn))

/-- A valid entry with nc = 0 maps a page of the column, or a page of a striped group that includes it (R45). -/
def cachedMapping (s : State) (g : Nat) : Bool :=
  s.xlate.any fun p =>
    let e := p.2
    let pn := entryPage e
    entryValid e && !entryNc e && isDramPage pn &&
      ((pagesOfCol g).contains pn || ((groupsOfCol g).contains (groupOf pn) && striped s pn))

/-- A context may use a face SRAM page: some valid entry of its window maps it with both rights (R158). -/
def sramRight (s : State) (c page : Nat) : Bool :=
  let x := s.ctx c
  s.xlate.any fun p =>
    decide (x.xlateBase.toNat ≤ p.1) && decide (p.1 < x.xlateBase.toNat + x.xlateCount.toNat) &&
      entryValid p.2 && entryRead p.2 && entryWrite p.2 && entryPage p.2 == page

end Sys2Proof.Machine
end

