-- ==== Sys2Proof/Machine/Memory.lean ====
section
/-! DEFINITION. The shaft controller's accesses: codewords and their check symbols, activation tracking, suspects, SRAM words,
claims, and reads and writes by module address (chapters 04, 06 and 10). -/

namespace Sys2Proof.Machine

/-- A byte and whether it is poisoned. -/
abbrev PByte := Byte × Bool

/-! ## The code (R299, R300, R301) -/

/-- Multiply by x in GF(2⁸) modulo x⁸ + x⁴ + x³ + x² + 1. -/
def gfDouble (a : Byte) : Byte := if a.getLsbD 7 then (a <<< 1) ^^^ 0x1D else a <<< 1

/-- Product in the field: bits of b from high to low. -/
def gfMul (a b : Byte) : Byte :=
  (List.range 8).foldl (fun acc i => (gfDouble acc) ^^^ (if b.getLsbD (7 - i) then a else 0)) 0

/-- α to a power. -/
def gfPow : Nat → Byte
  | 0 => 1
  | n + 1 => gfDouble (gfPow n)

/-- Check symbols P_0 to P_3 of data symbols, highest power first (R299). -/
def rsCheck (data : List Byte) : Byte × Byte × Byte × Byte :=
  data.foldl (fun (p : Byte × Byte × Byte × Byte) d =>
    let fb := d ^^^ p.1
    (p.2.1 ^^^ gfMul 0x0F fb, p.2.2.1 ^^^ gfMul 0x36 fb, p.2.2.2 ^^^ gfMul 0x78 fb, gfMul 0x40 fb)) (0, 0, 0, 0)

/-- Syndrome j of a codeword whose check symbols differ by d from those of its data (R300). -/
def syndrome (d : W32) (j : Nat) : Byte :=
  (List.range 4).foldl (fun acc i => acc ^^^ gfMul (BitVec.ofNat 8 (d.toNat / 256 ^ i)) (gfPow (j * (3 - i)))) 0

/-- Decoding outcomes (Table 10.8). -/
inductive EccOut where
  | clean
  | fix (l : Nat) (e : Byte)
  | bad
  deriving DecidableEq, Repr

/-- Decode a codeword from the difference of its check symbols. -/
def eccDecode (d : W32) : EccOut :=
  if d = 0 then .clean
  else
    let s0 := syndrome d 0
    let s1 := syndrome d 1
    let s2 := syndrome d 2
    let s3 := syndrome d 3
    if s0 = 0 || s1 = 0 || s2 = 0 || s3 = 0 then .bad
    else
      match (List.range 36).find? fun l =>
          gfMul s0 (gfPow l) == s1 && gfMul s1 (gfPow l) == s2 && gfMul s2 (gfPow l) == s3 with
      | some l => .fix l s0
      | none => .bad

/-- The data of a codeword after correction of the symbol of x^L: data symbol i stands at x^(35 - i). -/
def eccFix (bs : List Byte) (l : Nat) (e : Byte) : List Byte :=
  if 4 ≤ l then bs.set (35 - l) ((bs.getD (35 - l) 0) ^^^ e) else bs

/-- Difference of a codeword written poisoned: P_0 XOR 0x50, P_1 XOR 0x4F (R301). -/
def poisonDiff : W32 := 0x4F50

/-! ## Rows and locators -/

/-- Physical row of a logical row, after repair in service (R308) or by the factory (Table 13.5). -/
def physRow (c : Col) (die row : Nat) : Nat :=
  match (c.remaps ++ c.factory).find? fun r => r.die == die && r.row == row with
  | some r => 4096 + r.spare
  | none => row

/-- Row locator (Table 10.11). -/
def locator (g die row cw : Nat) : W64 :=
  BitVec.ofNat 64 (stackOf g * 2 ^ 31 + pickOf g * 2 ^ 22 + die * 2 ^ 18 + row * 2 ^ 6 + cw)
def locCol (l : W64) : Nat := bitsAt l 33 31 * 512 + bitsAt l 30 22
def locDie (l : W64) : Nat := bitsAt l 21 18
def locRow (l : W64) : Nat := bitsAt l 17 6
def locCw (l : W64) : Nat := bitsAt l 5 0

/-- Key of codeword cw of a logical row: its number among all codewords. -/
def cwKey (s : State) (g die row cw : Nat) : Nat := dramKey g die (physRow (s.col g) die row) 0 / 32 + cw

/-! ## Claims (R102, R122) -/

/-- A claim covers a row. -/
def claimCovers (c : Claim) (die row : Nat) : Bool :=
  c.pair == die / 2 && decide (c.q ≤ 2 * row + die % 2) && decide (2 * row + die % 2 < c.q + c.n)

/-- Admitted operations whose claims make an ordinary access wait: a read waits for write claims, a write for read claims
(Table 4.18). A granted remap holds a write claim under number 0 (R308). -/
def claimHolders (s : State) (g die row : Nat) (wr : Bool) : List Nat :=
  ((s.col g).window.filter fun o => o.claims.any fun c => claimCovers c die row && c.write == !wr).map (·.uid)
  ++ (match (s.stack (stackOf g)).remapJob with
      | some j => if j.granted.isSome && locCol j.loc == g && locDie j.loc == die && locRow j.loc == row && !wr then [0]
                  else []
      | none => [])

/-- A holder still holds: the operation is in the window, or the remap is in progress. -/
def holderStands (s : State) (g uid : Nat) : Bool :=
  if uid = 0 then
    match (s.stack (stackOf g)).remapJob with
    | some j => j.granted.isSome && locCol j.loc == g
    | none => false
  else (s.col g).window.any fun o => o.uid == uid

/-- Any claim holds a row (R305). -/
def rowClaimed (s : State) (g die row : Nat) : Bool :=
  (claimHolders s g die row true ++ claimHolders s g die row false) ≠ []

/-! ## Repair candidates (R307 to R309) -/

/-- Spare rows of a bank that no repair uses, has used or names. -/
def freePillars (s : State) (g die : Nat) : List Nat :=
  let c := s.col g
  (List.range 32).filter fun p =>
    !(c.remaps.any fun r => r.die == die && r.spare == p) && !(c.sparesGone.contains (die, p)) &&
    !(s.fuse.rowReps.any fun r => r.col == g && r.die == die && r.spare == p)

/-- A row that is not remapped yet has room: a free pillar row, and a place in the column's table of 64 (Table 10.10). -/
def remapRoom (s : State) (g die row : Nat) : Bool :=
  let c := s.col g
  (freePillars s g die) ≠ [] && (decide (c.remaps.length < 64) || c.remaps.any fun r => r.die == die && r.row == row)

/-- A REMAP record of the fault log (Table 15.4). -/
def logRemap (s : State) (l : W64) (status : Byte) (spare : Nat) : State :=
  logRec s { event := 0x03, status := status, unit := BitVec.ofNat 16 (locCol l), src := 0,
             info := l ||| BitVec.ofNat 64 (spare * 2 ^ 59) }

/-- Start a remap of a row: it waits for the read claims on the row, as an ordinary write waits (R308). -/
def remapStart (s : State) (l : W64) (path : Option DictPath) : State :=
  let g := locCol l
  let hs := claimHolders s g (locDie l) (locRow l) true
  let bs := (s.waits.filter fun w => w.col == g && w.die == locDie l && w.row == locRow l).map (·.seq)
  s.modStack (stackOf g) fun k =>
    { k with remapJob := some { loc := l, path := path, since := s.now, holders := hs, behind := bs,
                                granted := if hs = [] && bs = [] then some s.now else none } }

/-- A row that R307 remaps: at once, after the remap in progress, or only logged. -/
def remapAuto (s : State) (l : W64) : State :=
  let g := locCol l
  let k := s.stack (stackOf g)
  if !k.autoRemap then logRemap s l stOk 0
  else if (s.col g).retired then s
  else if !(remapRoom s g (locDie l) (locRow l)) then logRemap s l stOob 0
  else if k.remapJob.isSome then
    if k.remapQueue.contains l || k.remapJob.any (·.loc == l) then s else s.modStack (stackOf g) fun k => { k with remapQueue := k.remapQueue ++ [l] }
  else remapStart s l none

/-- Count a correctable codeword in the suspect table: each codeword counts once; the entry becomes the most recent (R307).
The table holds at most 32 rows and drops the least recent. -/
def suspectAdd (k : Stack) (l : W64) (cw : Nat) : Stack × Nat :=
  match k.suspects.find? fun e => e.1 == l with
  | some e =>
    if e.2.2.contains cw then (k, 0)
    else
      let e' := (l, e.2.1 + 1, e.2.2 ++ [cw])
      ({ k with suspects := (k.suspects.filter fun x => !(x.1 == l)) ++ [e'] }, e.2.1 + 1)
  | none =>
    let t := if k.suspects.length < 32 then k.suspects else k.suspects.drop 1
    ({ k with suspects := t ++ [(l, 1, [cw])] }, 1)

/-- A correctable codeword was read (R302, R307). -/
def ceFound (s : State) (g die row cw : Nat) : State :=
  let l := locator g die row cw
  let k := s.stack (stackOf g)
  let k1 := { k with ceCount := satInc k.ceCount, lastCe := l }
  let k2 := if k1.wbq.contains l then k1
    else if k1.wbq.length < 64 then { k1 with wbq := k1.wbq ++ [l] }
    else { k1 with wbqDropped := satInc k1.wbqDropped }
  let (k3, n) := suspectAdd k2 (locator g die row 0) cw
  let t := s.setStack (stackOf g) k3
  if n = k3.ceRemapThresh.toNat then remapAuto t (locator g die row 0) else t

/-- An uncorrectable codeword was read (R303, Table 12.14). -/
def ueFound (s : State) (g die row cw : Nat) (code : W16) (ctx : BitVec 6) : State :=
  let l := locator g die row cw
  let t := s.modStack (stackOf g) fun k => { k with ueCount := satInc k.ueCount, lastUe := l }
  let u := logRec t { event := 0x02, status := stPoison, unit := BitVec.ofNat 16 g, src := code, ctx := ctx, info := l }
  raiseEmcy u 0x5050 5 (stackOf g * 2 ^ 29 + pickOf g * 2 ^ 20 + die * 2 ^ 16 + row)

/-! ## Activations (R291, R294, R295) -/

/-- T ÷ 2 of R294. -/
def halfThresh (s : State) : Nat := s.fuse.actThresh.toNat / 2

/-- The entry of the row table with the least count, at the lowest index on a tie (R294). -/
def actLeast : Tab ActEntry → Option (Nat × ActEntry)
  | [] => none
  | x :: xs =>
    match actLeast xs with
    | none => some x
    | some y => if y.2.cnt < x.2.cnt then some y else some x

/-- An index of the row table that holds no entry: the lowest (log entry 138). -/
def actFree (t : Tab ActEntry) : Option Nat := (List.range 16).find? fun i => !(t.any fun p => p.1 == i)

/-- The activation of a row is counted in an entry of the row table, which holds the row with its count before this activation; at
T ÷ 2 a targeted refresh falls due and the entry is free (R294). -/
def actCount (s : State) (g die row i cnt floor : Nat) : State :=
  s.modCol g fun c =>
    if halfThresh s ≤ cnt + 1 then
      { c with act := tset ⟨0, 0, 0⟩ c.act i ⟨0, 0, 0⟩, floorF := floor, trrOwed := c.trrOwed ++ [(die, row, false)] }
    else { c with act := tset ⟨0, 0, 0⟩ c.act i ⟨die, row, cnt + 1⟩, floorF := floor }

/-- An activation that no sweep counts, in the row table of 16 entries (R294). -/
def actRow (s : State) (g die row : Nat) : State :=
  let c := s.col g
  match c.act.find? fun p => p.2.bank == die && p.2.row == row with
  | some p => actCount s g die row p.1 p.2.cnt c.floorF
  | none =>
    match actFree c.act with
    | some i => actCount s g die row i c.floorF c.floorF
    | none =>
      match actLeast c.act with
      | none => s
      | some p =>
        let f := max c.floorF p.2.cnt
        actCount s g die row p.1 f f

/-- Segment number of a row of a bank: 32 segments of 128 rows for each bank. -/
def segKey (die row : Nat) : Nat := die * 32 + row / 128

/-- A pick row step activates a row at a cycle: the sweep state of its segment, and the activation counts (R291, R294). -/
def rowStepAct (at_ : Nat) (s : State) (g die row : Nat) : State :=
  let c := s.col g
  let k := segKey die row
  let sg := tget {} c.segs k
  let o := row % 128
  let starts := o = 0 && !c.fenced
  let goesOn := o ≠ 0 && sg.exp == o
  let sg1 : Seg :=
    if starts then { sg with exp := 1, tRun := at_ }
    else if goesOn then { sg with exp := o + 1 }
    else { sg with exp := 0 }
  let sg2 : Seg := if sg1.exp = 128 then { sg1 with credit := some sg1.tRun, exp := 0 } else sg1
  let c1 := { c with segs := tset {} c.segs k sg2 }
  if starts || goesOn then
    let n := tget 0 c1.segCounts k + (if starts then 1 else 0)
    if n = halfThresh s then
      s.setCol g { c1 with segCounts := tset 0 c1.segCounts k 0, trrOwed := c1.trrOwed ++ [(die, row / 128, true)] }
    else s.setCol g { c1 with segCounts := tset 0 c1.segCounts k n }
  else actRow (s.setCol g c1) g die row

/-! ## Codewords -/

/-- Read a codeword of a logical row: its 32 bytes, corrected, and whether it is uncorrectable (R300, R302, R303). -/
def readCw (s : State) (g die row cw : Nat) (code : W16) (ctx : BitVec 6) : State × List Byte × Bool :=
  let k := cwKey s g die row cw
  let raw := s.rdBytes (32 * k) 32
  match eccDecode (tget 0 s.eccDiff k) with
  | .clean => (s, raw, false)
  | .fix l e => (ceFound s g die row cw, eccFix raw l e, false)
  | .bad => (ueFound s g die row cw code ctx, raw, true)

/-- Write a whole codeword, valid or poisoned (R301). -/
def writeCw (s : State) (g die row cw : Nat) (bs : List Byte) (poison : Bool) : State :=
  let k := cwKey s g die row cw
  let t := s.wrBytes (32 * k) bs
  { t with eccDiff := tset 0 t.eccDiff k (if poison then poisonDiff else 0) }

/-- Read bytes of one row from byte off on, codeword by codeword; `cws` lists the codewords touched. -/
def readRowCws (s : State) (g die row : Nat) (code : W16) (ctx : BitVec 6) : List Nat → State × List PByte
  | [] => (s, [])
  | cw :: cws =>
    let (s1, bs, bad) := readCw s g die row cw code ctx
    let (s2, rest) := readRowCws s1 g die row code ctx cws
    (s2, bs.map (fun b => (b, bad)) ++ rest)

/-- Codewords that bytes off to off + n - 1 of a row touch. -/
def cwsOf (off n : Nat) : List Nat := (List.range ((off % 32 + n + 31) / 32)).map (off / 32 + ·)

/-- Read n bytes at byte off of a logical row. -/
def dramRead (s : State) (g die row off n : Nat) (code : W16) (ctx : BitVec 6) : State × List PByte :=
  let (t, bs) := readRowCws s g die row code ctx (cwsOf off n)
  (t, (bs.drop (off % 32)).take n)

/-- Write to one codeword the bytes of `bs` (given from byte off of the row) that fall into it. A partial write is a
read-modify-write; on an uncorrectable codeword it is merged and written poisoned, with POISON (R304). -/
def writeRowCw (s : State) (g die row off : Nat) (bs : List PByte) (code : W16) (ctx : BitVec 6) (cw : Nat) : State × Byte :=
  let lo := max off (32 * cw)
  let hi := min (off + bs.length) (32 * cw + 32)
  let new := (bs.drop (lo - off)).take (hi - lo)
  let flag := new.any (·.2)
  if hi - lo = 32 then (writeCw s g die row cw (new.map (·.1)) flag, stOk)
  else
    let (s1, old, bad) := readCw s g die row cw code ctx
    let s2 := s1.modStack (stackOf g) fun k => { k with rmwCount := k.rmwCount + 1 }
    (writeCw s2 g die row cw (overlay old (lo - 32 * cw) (new.map (·.1))) (bad || flag), if bad then stPoison else stOk)

/-- Write bytes at byte off of a logical row. -/
def dramWrite (s : State) (g die row off : Nat) (bs : List PByte) (code : W16) (ctx : BitVec 6) : State × Byte :=
  (cwsOf off bs.length).foldl (fun (a : State × Byte) cw =>
    let (t, st) := writeRowCw a.1 g die row off bs code ctx cw
    (t, if st = stOk then a.2 else st)) (s, stOk)

/-! ## Face SRAM (R192) -/

/-- Number of the 64-bit word at offset o of a physical face's SRAM. -/
def sramWord (f o : Nat) : Nat := sramKey f o / 8

/-- Read a 64-bit word: corrected, uncorrectable, or one of the outcomes that R192 leaves open. -/
def readSramWord (s : State) (f o : Nat) (code : W16) (ctx : BitVec 6) : State × List Byte × Bool :=
  let w := sramWord f o
  let raw := s.rdBytes (8 * w) 8
  let ue (t : State) : State :=
    logRec (t.modFace f fun c => { c with sramUe := satInc c.sramUe })
      { event := 0x02, status := stPoison, unit := BitVec.ofNat 16 (f + 0x2000), src := code, ctx := ctx,
        info := BitVec.ofNat 64 (o / 8 * 8) }
  let ce (t : State) : State :=
    t.modFace f fun c => { c with sramCe := satInc c.sramCe,
                                  writeBacks := if c.writeBacks.contains w then c.writeBacks else c.writeBacks ++ [w] }
  match tget 0 s.sramErr w with
  | 0 => (s, raw, false)
  | 1 => (ce s, raw, false)
  | 2 => (ue s, raw, true)
  | _ =>
    let (i, t) := s.newFree
    let x := Config.sramBeyondCode i
    let d := leBytes 8 (bitsAt x 63 0)
    if bitsAt x 65 64 = 0 then (ue t, raw, true)
    else if bitsAt x 65 64 = 1 then (ce t, d, false)
    else (t, d, false)

/-- Write a whole 64-bit word, valid or poisoned. -/
def writeSramWord (s : State) (f o : Nat) (bs : List Byte) (poison : Bool) : State :=
  let w := sramWord f o
  let t := s.wrBytes (8 * w) bs
  { t with sramErr := tset 0 t.sramErr w (if poison then 2 else 0) }

/-- Read n bytes of SRAM by words. -/
def readSramWords (s : State) (f : Nat) (code : W16) (ctx : BitVec 6) : List Nat → State × List PByte
  | [] => (s, [])
  | o :: os =>
    let (s1, bs, bad) := readSramWord s f o code ctx
    let (s2, rest) := readSramWords s1 f code ctx os
    (s2, bs.map (fun b => (b, bad)) ++ rest)

/-- Offsets of the words that bytes off to off + n - 1 touch. -/
def wordsOf (off n : Nat) : List Nat := (List.range ((off % 8 + n + 7) / 8)).map fun i => (off / 8 + i) * 8

/-- Read n bytes at an offset of a physical face's SRAM. -/
def sramRead (s : State) (f off n : Nat) (code : W16) (ctx : BitVec 6) : State × List PByte :=
  let (t, bs) := readSramWords s f code ctx (wordsOf off n)
  (t, (bs.drop (off % 8)).take n)

/-- Write the bytes that fall into one word; a write to part of a poisoned word stays poisoned, with POISON (R192). -/
def writeSramPart (s : State) (f off : Nat) (bs : List PByte) (code : W16) (ctx : BitVec 6) (o : Nat) : State × Byte :=
  let lo := max off o
  let hi := min (off + bs.length) (o + 8)
  let new := (bs.drop (lo - off)).take (hi - lo)
  let flag := new.any (·.2)
  if hi - lo = 8 then (writeSramWord s f o (new.map (·.1)) flag, stOk)
  else
    let (s1, old, bad) := readSramWord s f o code ctx
    (writeSramWord s1 f o (overlay old (lo - o) (new.map (·.1))) (bad || flag), if bad then stPoison else stOk)

/-- Write bytes at an offset of a physical face's SRAM. -/
def sramWrite (s : State) (f off : Nat) (bs : List PByte) (code : W16) (ctx : BitVec 6) : State × Byte :=
  (wordsOf off bs.length).foldl (fun (a : State × Byte) o =>
    let (t, st) := writeSramPart a.1 f off bs code ctx o
    (t, if st = stOk then a.2 else st)) (s, stOk)

/-! ## By module address -/

/-- A piece of a request that lies in one row: its place, its length, and where it stands in the request. -/
structure Gran where
  place : Place
  len : Nat
  base : Nat
  deriving DecidableEq, Repr

/-- The granules of n bytes at a DRAM module address under the current view (R123). -/
def granulesOf (s : State) (pa n : Nat) : List Gran :=
  (List.range ((pa % 2048 + n + 2047) / 2048)).map fun i =>
    let a := if i = 0 then pa else (pa / 2048 + i) * 2048
    let e := min (pa + n) ((pa / 2048 + i + 1) * 2048)
    ⟨placeOf s a, e - a, a - pa⟩

/-- Physical face and offset of a face SRAM module address. -/
def sramPlace (s : State) (pa : Nat) : Option (Nat × Nat) :=
  let a := pa - 0xC000000000
  (physicalOf s (a / 0x800000)).map fun f => (f, a % 0x800000)

/-- Read n bytes at a module address of face SRAM or queue memory that passed its checks; a sleeping cluster wakes for it (R193). -/
def paRead (s : State) (pa n : Nat) (code : W16) (ctx : BitVec 6) : State × List PByte :=
  if isSramPage (pa / 2 ^ 24) then
    match sramPlace s pa with
    | some (f, o) => sramRead (wakeDomain s (11 + clusterOf f)) f o n code ctx
    | none => (s, [])
  else (s, (s.rdBytes (queueKey (pa % 2 ^ 24)) n).map fun b => (b, false))

/-- Write bytes at a module address of face SRAM or queue memory that passed its checks. -/
def paWrite (s : State) (pa : Nat) (bs : List PByte) (code : W16) (ctx : BitVec 6) : State × Byte :=
  if isSramPage (pa / 2 ^ 24) then
    match sramPlace s pa with
    | some (f, o) => sramWrite (wakeDomain s (11 + clusterOf f)) f o bs code ctx
    | none => (s, stFenced)
  else (s.wrBytes (queueKey (pa % 2 ^ 24)) (bs.map (·.1)), stOk)

/-- Bytes for a requester that sees poisoned bytes as 0 (Table 10.9). -/
def hidePoison (bs : List PByte) : List Byte := bs.map fun b => if b.2 then 0 else b.1

/-- Some byte is poisoned. -/
def anyPoison (bs : List PByte) : Bool := bs.any (·.2)

/-- Clean bytes. -/
def cleanBytes (bs : List Byte) : List PByte := bs.map fun b => (b, false)

/-! ## Ordinary transfers (R123, R124, R283 to R285) -/

/-- Two pieces of one row share a codeword. -/
def shareCw (off1 n1 off2 n2 : Nat) : Bool :=
  decide (off1 / 32 ≤ (off2 + n2 - 1) / 32) && decide (off2 / 32 ≤ (off1 + n1 - 1) / 32)

/-- Two granules touch one codeword. -/
def granMeets (a b : GranReq) : Bool :=
  a.col == b.col && a.die == b.die && a.row == b.row && shareCw a.off a.len b.off b.len

/-- A granule waits under R124: on claims, or behind an earlier request that does. -/
def claimWaits (r : GranReq) : Bool := r.holders ≠ [] || r.behind ≠ []

/-- Two granules belong to one request of at most 4,096 B (log entry 139). -/
def sameRequest (a b : GranReq) : Bool := a.xfer == b.xfer && a.base / 4096 == b.base / 4096

/-- Record in the stacks that requests waited on claims, and the longest wait (R124). -/
def claimWaited (s : State) (g waited : Nat) : State :=
  s.modStack (stackOf g) fun k =>
    { k with claimWaitMax := if k.claimWaitMax.toNat < waited then satAdd 0 waited else k.claimWaitMax }

/-- Worst of two statuses: the numerically larger code (log entry 17). -/
def worstStatus (a b : Byte) : Byte := if a.toNat < b.toNat then b else a

/-- The last granule of a transfer is served: its answer leaves (R123, R323, R339). A read that ended with neither OK nor POISON
returns no data (R124). -/
def xferDone (s : State) (x : Xfer) : State :=
  let data := if x.wr || !(x.status == stOk || x.status == stPoison) then [] else hidePoison x.data
  match x.owner with
  | .partner k src tag =>
    let t := if x.wr && x.counted then fenceCount s k src else s
    portRsp t k src tag x.ctx.toNat x.status data
  | .host tag => answer s (.host tag) x.ctx.toNat (!x.wr) x.status data x.va.toNat
  | .unit c => s.emit (.unitRsp c x.status data)
  | .inner _ _ => s
  | .nobody => s

/-- The owner of a transfer takes its result itself. -/
def isInner (x : Xfer) : Bool :=
  match x.owner with
  | .inner _ _ => true
  | _ => false

/-- Put bytes over a list of bytes with their poison. -/
def overlayP (old : List PByte) (off : Nat) (new : List PByte) : List PByte :=
  old.take off ++ (new.take (old.length - off)) ++ old.drop (off + new.length)

/-- One granule of a transfer ended with a status and, for a read, its bytes. -/
def granDone (s : State) (id base : Nat) (st : Byte) (bs : List PByte) : State :=
  match s.xfers.find? fun x => x.id == id with
  | none => s
  | some x =>
    let y := { x with left := x.left - 1, status := worstStatus x.status st,
                      data := if x.wr then x.data else overlayP x.data base bs }
    if y.left = 0 && !isInner y then xferDone { s with xfers := s.xfers.filter fun z => !(z.id == id) } y
    else { s with xfers := s.xfers.map fun z => if z.id == id then y else z }

/-- Serve one granule: read or write its row. What it logs carries the tag of its operation. -/
def serveGran (s : State) (r : GranReq) : State :=
  match s.xfers.find? fun x => x.id == r.xfer with
  | none => s
  | some x =>
    if (s.col r.col).pathFailed then granDone s r.xfer r.base stPoison (List.replicate r.len (0, true))
    else
      let s0 := actRow s r.col r.die r.row
      if r.wr then
        let (t, st) := dramWrite s0 r.col r.die r.row r.off r.data x.code x.ctx
        granDone (withTag x.tag s t) r.xfer r.base st []
      else
        let (t, bs) := dramRead s0 r.col r.die r.row r.off r.len x.code x.ctx
        granDone (withTag x.tag s t) r.xfer r.base (if anyPoison bs then stPoison else stOk) bs

/-- An operation uses the column port at `now`: it has started, and its row steps or the cycles they take are not over (R117, R125). -/
def usesPort (now : Nat) (o : PickOp) : Bool :=
  o.claims ≠ [] && o.started.any fun a => !o.done || decide (now < a + o.cost + o.delay)

/-- Some admitted operation of a column uses its port. -/
def portBusy (s : State) (g : Nat) : Bool := (s.col g).window.any (usesPort s.now)

/-- The controller issues nothing to a column for ordinary requests: its command lanes train (R296), or the fill runs (R312). -/
def colStalled (s : State) (g : Nat) : Bool := (s.col g).laneTraining || (s.stack (stackOf g)).fillState == 1

/-- A granule has reached its controller: it is served at once, or waits on claims, behind earlier requests of its codeword, or for
the next row-step boundary (R123, R124). `claim_waits` counts a request once in a stack, however many of its granules wait. -/
def ctrlGran (s : State) (r : GranReq) : State :=
  let n := stackOf r.col
  if (s.col r.col).pathFailed then serveGran s r
  else
    let hs := claimHolders s r.col r.die r.row r.wr
    let meets := s.waits.filter fun w => !w.held && granMeets w r
    let bs := if hs ≠ [] || meets.any claimWaits then meets.map (·.seq) else []
    let r' := { r with holders := hs, behind := bs, held := false }
    let counted := s.waits.any fun w => sameRequest w r && stackOf w.col == n && claimWaits w
    let t := if claimWaits r' && !counted then s.modStack n fun k => { k with claimWaits := satInc k.claimWaits } else s
    if !claimWaits r' && meets = [] && !portBusy s r.col && !colStalled s r.col then serveGran s r
    else { t with waits := t.waits ++ [r'] }

/-- Ordinary requests that hold places of a stack's controller: one granule of each. -/
def placesTaken (s : State) (n : Nat) : List GranReq :=
  s.waits.foldl (fun l w => if !w.held && stackOf w.col == n && !(l.any (sameRequest w)) then l ++ [w] else l) []

/-- A granule may enter its controller: the link is up, and its request holds or finds one of the 512 places (R283, R297). -/
def mayEnter (s : State) (r : GranReq) : Bool :=
  let n := stackOf r.col
  (s.stack n).linkUp && (decide ((placesTaken s n).length < 512) || (placesTaken s n).any (sameRequest r))

/-- A granule arrives: at its controller, or in the crossbar, which holds it in its order (R283, R297). -/
def arriveGran (s : State) (r : GranReq) : State :=
  if (s.waits.any fun w => w.held && stackOf w.col == stackOf r.col) || !mayEnter s r then
    { s with waits := s.waits ++ [{ r with held := true }] }
  else ctrlGran s r

/-- The granules that the crossbar holds for a stack enter its controller in order, as far as places and the link allow (R283). -/
def crossbarIn (s : State) (n : Nat) : State :=
  (s.waits.filter fun w => w.held && stackOf w.col == n).foldl (fun t r =>
    if mayEnter t r then ctrlGran { t with waits := t.waits.filter fun x => x.seq ≠ r.seq } r else t) s

/-- Granules of pieces of memory that stand one after another in an access. -/
def granulesFrom (s : State) (base : Nat) : List (Nat × Nat) → List Gran
  | [] => []
  | (pa, n) :: ps =>
    (if isDramPage (pa / 2 ^ 24) then (granulesOf s pa n).map fun g => { g with base := base + g.base } else []) ++
      granulesFrom s (base + n) ps

/-- The granules of a transfer go to their controllers in order, each with a request number. -/
def sendGrans (s : State) (x : Xfer) (gs : List Gran) (data : List PByte) : State :=
  gs.foldl (fun t g =>
    let (q, t1) := t.newReq
    arriveGran t1 { seq := q, xfer := x.id, col := g.place.col, die := g.place.die, row := g.place.row, off := g.place.byte,
                    len := g.len, wr := x.wr, data := (data.drop g.base).take g.len, base := g.base, holders := [],
                    behind := [], arrived := t1.now }) { s with xfers := s.xfers ++ [x] }

/-- Start an ordinary transfer at a DRAM module address: one request number, one granule for each row it touches. -/
def startXfer (s : State) (owner : XferOwner) (code : W16) (ctx : BitVec 6) (wr : Bool) (va : W64) (pa n : Nat)
    (data : List Byte) : State :=
  let (id, s1) := s.newReq
  let gs := granulesOf s1 pa n
  sendGrans s1 { id := id, owner := owner, ctx := ctx, code := code, va := va, wr := wr, left := gs.length,
                 data := if wr then [] else List.replicate n (0, false) } gs (cleanBytes data)

/-! ## Granules that waited (R124, R125, R285) -/

/-- Work between row steps delays the operation that uses the port (R118, R120, R125). -/
def delayOp (s : State) (g n : Nat) : State :=
  s.modCol g fun c => { c with window := c.window.map fun o => if usesPort s.now o then { o with delay := o.delay + n, stepAt := o.stepAt + n } else o }

/-- Cycles that an ordinary access takes between row steps (R125). -/
def granCost (r : GranReq) : Nat :=
  let cws := cwsOf r.off r.len
  let part := (cws.filter fun cw => decide (32 * cw < r.off) || decide (r.off + r.len < 32 * cw + 32)).length
  24 + cws.length + (if r.wr then 12 * part else 0)

/-- Serve a waiting granule between row steps. -/
def serveWait (s : State) (r : GranReq) : State :=
  serveGran (delayOp { s with waits := s.waits.filter fun x => x.seq ≠ r.seq } r.col (granCost r)) r

/-- What a waiting granule waited for is gone: its claims, and the earlier requests to its codewords (R124). -/
def waitOver (s : State) (r : GranReq) : Bool :=
  (r.holders.all fun u => !holderStands s r.col u) && (r.behind.all fun q => !(s.waits.any fun x => x.seq == q)) &&
    !colStalled s r.col

/-- Serve, in arrival order, the granules of a column whose claim waits have ended (R124). -/
def claimWaitEnd (s : State) (g : Nat) : State :=
  (s.waits.filter fun r => r.col == g && claimWaits r).foldl (fun t r =>
    if waitOver t r then serveWait (claimWaited t g (t.now - r.arrived)) r else t) s

/-- The granule of a list, oldest first, that its bank serves next: the oldest, or ahead of it one of its bank's open row, for at most
16 codewords in a row (R284). `open_` gives for a die its open row and the codewords that went ahead. -/
def pickGran (open_ : Tab (Nat × Nat)) : List GranReq → Option (GranReq × Tab (Nat × Nat))
  | [] => none
  | r :: rest =>
    let (row, ahead) := tget (4096, 0) open_ r.die
    let next := if row = r.row || row = 4096 then none
      else rest.find? fun x => x.die == r.die && x.row == row && decide (ahead + (cwsOf x.off x.len).length ≤ 16)
    match next with
    | some x => some (x, tset (4096, 0) open_ r.die (row, ahead + (cwsOf x.off x.len).length))
    | none => some (r, tset (4096, 0) open_ r.die (r.row, 0))

/-- Serve up to n granules of a column that wait on nothing but their turn (R284, R285; structural on n). -/
def serveOthers (g : Nat) : Nat → Tab (Nat × Nat) → State → State
  | 0, _, s => s
  | n + 1, open_, s =>
    match pickGran open_ (s.waits.filter fun r => r.col == g && !r.held && !claimWaits r) with
    | none => s
    | some (r, o) => serveOthers g n o (serveWait s r)

/-- Ordinary requests of a column at a boundary, or while nothing uses its port: those whose claim waits ended, then others up to a
number of granules, then what waited behind those; the crossbar follows (R124, R283, R285). -/
def serveColumn (s : State) (g limit : Nat) : State :=
  if colStalled s g then s
  else crossbarIn (claimWaitEnd (serveOthers g limit [] (claimWaitEnd s g)) g) (stackOf g)

/-- The column's port is free and nothing stalls it: every granule that only waits for its turn goes. -/
def serveFree (s : State) (g : Nat) : State := if portBusy s g then s else serveColumn s g s.waits.length

/-- End a request of a transfer with TIMEOUT: its granules leave; a read returns no data and a write changes nothing (R124, R297). -/
def requestTimeout (s : State) (r : GranReq) : State :=
  let t := { s with waits := s.waits.filter fun w => !sameRequest w r }
  (s.waits.filter fun w => sameRequest w r).foldl (fun u w => granDone u w.xfer w.base stTimeout []) t

/-! ## Accesses of the module's units -/

/-- Who works, with the source code, the context and the tag that its accesses carry. -/
structure Req where
  who : Waiter
  code : W16
  ctx : BitVec 6
  tag : W16 := 0
  deriving DecidableEq, Repr

/-- An access of a unit: module address, length, write. -/
structure Acc where
  pa : Nat
  len : Nat
  wr : Bool
  deriving DecidableEq, Repr

/-- What a stage of a unit's work gives: a value, a wait, or a failing status. -/
inductive Chk (α : Type) where
  | ok (s : State) (a : α)
  | wait (s : State)
  | fail (status : Byte) (s : State)

/-- Go on with the value. -/
def Chk.andThen {α β : Type} (x : Chk α) (f : State → α → Chk β) : Chk β :=
  match x with
  | .ok s a => f s a
  | .wait s => .wait s
  | .fail st s => .fail st s

/-- Fail with a status unless a condition holds. -/
def Chk.guard (s : State) (b : Bool) (st : Byte) : Chk Unit := if b then .ok s () else .fail st s

/-- A unit's access number i, once begun. -/
def innerXfer (s : State) (who : Waiter) (i : Nat) : Option Xfer := s.xfers.find? fun x => x.owner == .inner who i

/-- A unit's work is over: what it accessed is forgotten, and what still waits for it leaves with it. -/
def innerDrop (s : State) (p : Waiter → Bool) : State :=
  let mine (x : Xfer) : Bool := match x.owner with
    | .inner w _ => p w
    | _ => false
  let ids := (s.xfers.filter mine).map (·.id)
  { s with xfers := s.xfers.filter fun x => !mine x, waits := s.waits.filter fun w => !(ids.contains w.xfer) }

/-- The pieces of an access in face SRAM and queue memory, done at once: what is read, and the worst status. -/
def localPieces (s : State) (r : Req) (base : Nat) (data : List PByte) (acc : List PByte) (st : Byte) :
    List Acc → State × List PByte × Byte
  | [] => (s, acc, st)
  | a :: as =>
    if isDramPage (a.pa / 2 ^ 24) then localPieces s r (base + a.len) data acc st as
    else if a.wr then
      let (t, e) := paWrite s a.pa ((data.drop base).take a.len) r.code r.ctx
      localPieces t r (base + a.len) data acc (worstStatus st e) as
    else
      let (t, bs) := paRead s a.pa a.len r.code r.ctx
      localPieces t r (base + a.len) data (overlayP acc base bs) (worstStatus st (if anyPoison bs then stPoison else stOk)) as

/-- Begin access i of a unit at translated pieces that stand one after another: its addresses are those of now (R46). -/
def innerBegin (s : State) (r : Req) (i va : Nat) (wr : Bool) (as : List Acc) (data : List PByte) : State :=
  let (id, s1) := s.newReq
  let n := (as.map (·.len)).sum
  let (s2, bs, st) := localPieces s1 r 0 data (if wr then [] else List.replicate n (0, false)) stOk as
  let gs := granulesFrom s2 0 (as.map fun a => (a.pa, a.len))
  sendGrans (withTag r.tag s1 s2)
    { id := id, owner := .inner r.who i, ctx := r.ctx, code := r.code, va := BitVec.ofNat 64 va, wr := wr, left := gs.length,
      data := bs, status := st, tag := r.tag } gs data

/-- Where access i of a unit stands: a result with its worst status, or a wait. -/
def innerResult (s : State) (who : Waiter) (i : Nat) : Chk (Byte × List PByte) :=
  match innerXfer s who i with
  | none => .wait s
  | some x => if x.left = 0 then .ok s (x.status, x.data) else .wait s

/-- Access i of a unit at translated pieces: begun once, then awaited. -/
def innerAccess (s : State) (r : Req) (i va : Nat) (wr : Bool) (as : List Acc) (data : List PByte) : Chk (Byte × List PByte) :=
  if (innerXfer s r.who i).isSome then innerResult s r.who i
  else innerResult (innerBegin s r i va wr as data) r.who i

/-- A status with which a request has done nothing. -/
def stBad (st : Byte) : Bool := st ≠ stOk && st ≠ stPoison

end Sys2Proof.Machine
end

