-- ==== Sys2Proof/Machine/Numeric.lean ====
section
/-! DEFINITION. Number formats, conversions, exact values and exact accumulators (chapter 03). -/

namespace Sys2Proof.Machine

/-- A value of the floating-point formats, exactly: (−1)^neg × m × 2^e. -/
inductive Val where
  | nan
  | inf (neg : Bool)
  | num (neg : Bool) (m : Nat) (e : Int)
  deriving DecidableEq, Repr

abbrev Val.zero : Val := .num false 0 0
abbrev Val.negZero : Val := .num true 0 0
abbrev Val.one : Val := .num false 1 0

def Val.isNan : Val → Bool
  | .nan => true
  | _ => false
def Val.isInf : Val → Bool
  | .inf _ => true
  | _ => false
def Val.isNeg : Val → Bool
  | .nan => false
  | .inf s => s
  | .num s _ _ => s
def Val.neg : Val → Val
  | .nan => .nan
  | .inf s => .inf (!s)
  | .num s m e => .num (!s) m e

/-- Multiply by 2^k, exactly. -/
def Val.scale (v : Val) (k : Int) : Val :=
  match v with
  | .num s m e => .num s m (e + k)
  | x => x

/-- The exact product (IEEE for the special values). -/
def Val.mul : Val → Val → Val
  | .nan, _ => .nan
  | _, .nan => .nan
  | .inf s, .inf t => .inf (s != t)
  | .inf s, .num t m _ => if m = 0 then .nan else .inf (s != t)
  | .num s m _, .inf t => if m = 0 then .nan else .inf (s != t)
  | .num s m e, .num t n f => .num (s != t) (m * n) (e + f)

/-- A signed mantissa. -/
def sgn (neg : Bool) (m : Nat) : Int := if neg then -(m : Int) else (m : Int)

/-- The exact sum. An exact zero sum is +0 unless both operands are −0 (R70). -/
def Val.add : Val → Val → Val
  | .nan, _ => .nan
  | _, .nan => .nan
  | .inf s, .inf t => if s = t then .inf s else .nan
  | .inf s, .num .. => .inf s
  | .num .., .inf t => .inf t
  | .num s m e, .num t n f =>
    let g := min e f
    let z := sgn s (m * 2 ^ (e - g).toNat) + sgn t (n * 2 ^ (f - g).toNat)
    if z = 0 then .num (s && t) 0 0 else .num (decide (z < 0)) z.natAbs g

/-- Compare two numbers: a < b. Infinities are ordered; a NaN is below nothing. -/
def Val.lt : Val → Val → Bool
  | .nan, _ => false
  | _, .nan => false
  | .inf s, .inf t => s && !t
  | .inf s, .num .. => s
  | .num .., .inf t => !t
  | .num s m e, .num t n f =>
    let g := min e f
    decide (sgn s (m * 2 ^ (e - g).toNat) < sgn t (n * 2 ^ (f - g).toNat))

/-- Equal as numbers: −0 equals +0. -/
def Val.eq (a b : Val) : Bool := !a.isNan && !b.isNan && !(a.lt b) && !(b.lt a)

/-- ⌊log2 |v|⌋ of a nonzero number. -/
def log2Of (m : Nat) (e : Int) : Int := (Nat.log2 m : Int) + e

/-! ## Formats (Tables 3.2 and 3.4) -/

/-- The formats of Tables 3.2 and 3.4. -/
inductive Fmt where
  | fp32 | bf16 | fp16 | e5m2 | e4m3 | e3m2 | e2m3 | e2m1 | int4 | int8 | mxint8 | int32
  deriving DecidableEq, Repr

def Fmt.bits : Fmt → Nat
  | .fp32 => 32 | .bf16 => 16 | .fp16 => 16 | .e5m2 => 8 | .e4m3 => 8 | .e3m2 => 6 | .e2m3 => 6 | .e2m1 => 4
  | .int4 => 4 | .int8 => 8 | .mxint8 => 8 | .int32 => 32

/-- Mantissa field bits. -/
def Fmt.mant : Fmt → Nat
  | .fp32 => 23 | .bf16 => 7 | .fp16 => 10 | .e5m2 => 2 | .e4m3 => 3 | .e3m2 => 2 | .e2m3 => 3 | .e2m1 => 1
  | .int4 => 0 | .int8 => 0 | .mxint8 => 0 | .int32 => 0

def Fmt.bias : Fmt → Nat
  | .fp32 => 127 | .bf16 => 127 | .fp16 => 15 | .e5m2 => 15 | .e4m3 => 7 | .e3m2 => 3 | .e2m3 => 1 | .e2m1 => 1
  | .int4 => 0 | .int8 => 0 | .mxint8 => 0 | .int32 => 0

def Fmt.isInt : Fmt → Bool
  | .int4 => true | .int8 => true | .mxint8 => true | .int32 => true
  | _ => false

/-- Bytes of an element of a format of whole bytes. -/
def Fmt.bytes (f : Fmt) : Nat := f.bits / 8

/-- Exponent field bits of a floating-point format. -/
def Fmt.expBits (f : Fmt) : Nat := f.bits - 1 - f.mant

/-- Largest finite value: mantissa and exponent. -/
def Fmt.largest : Fmt → Nat × Int
  | .fp32 => (2 ^ 24 - 1, 104)
  | .bf16 => (255, 120)
  | .fp16 => (2047, 5)
  | .e5m2 => (7, 13)
  | .e4m3 => (14, 5)
  | .e3m2 => (7, 2)
  | .e2m3 => (15, -1)
  | .e2m1 => (3, 1)
  | .int4 => (7, 0)
  | .int8 => (127, 0)
  | .mxint8 => (127, -6)
  | .int32 => (2 ^ 31 - 1, 0)

/-- Code of the canonical NaN (positive; formats without NaN: 0). -/
def Fmt.nanCode : Fmt → Nat
  | .fp32 => 0x7FC00000 | .bf16 => 0x7FC0 | .fp16 => 0x7E00 | .e5m2 => 0x7E | .e4m3 => 0x7F
  | _ => 0

/-- The format has infinities. -/
def Fmt.hasInf : Fmt → Bool
  | .fp32 => true | .bf16 => true | .fp16 => true | .e5m2 => true
  | _ => false

/-- The value of a code (R55 to R57). -/
def Fmt.decode (f : Fmt) (code : Nat) : Val :=
  if f.isInt then
    let i := signed f.bits (code % 2 ^ f.bits)
    .num (decide (i < 0)) i.natAbs (if f = .mxint8 then -6 else 0)
  else
    let m := code % 2 ^ f.mant
    let e := code / 2 ^ f.mant % 2 ^ f.expBits
    let s := code / 2 ^ (f.bits - 1) % 2 == 1
    if f.hasInf && e = 2 ^ f.expBits - 1 then (if m = 0 then .inf s else .nan)
    else if f = .e4m3 && e = 15 && m = 7 then .nan
    else if e = 0 then .num s m (1 - (f.bias : Int) - (f.mant : Int))
    else .num s (2 ^ f.mant + m) ((e : Int) - (f.bias : Int) - (f.mant : Int))

/-- Exponent of the unit in the last place that a value with ⌊log2⌋ = l has in a format. -/
def Fmt.ulpExp (f : Fmt) (l : Int) : Int :=
  if f.isInt then (if f = .mxint8 then -6 else 0)
  else max l (1 - (f.bias : Int)) - (f.mant : Int)

/-- Code of a finite value that the format represents exactly. -/
def Fmt.encodeNum (f : Fmt) (neg : Bool) (m : Nat) (e : Int) : Nat :=
  if f.isInt then
    let u : Int := if f = .mxint8 then -6 else 0
    let n := if e < u then m / 2 ^ (u - e).toNat else m * 2 ^ (e - u).toNat
    if neg && n ≠ 0 then 2 ^ f.bits - n else n
  else
    let sign := if neg then 2 ^ (f.bits - 1) else 0
    if m = 0 then sign
    else
      let l := log2Of m e
      let u := f.ulpExp l
      let k := if e < u then m / 2 ^ (u - e).toNat else m * 2 ^ (e - u).toNat
      if l < 1 - (f.bias : Int) then sign + k
      else sign + (l - (1 - (f.bias : Int)) + 1).toNat * 2 ^ f.mant + (k - 2 ^ f.mant)

/-- Rounding modes of R64. `sr` carries the draw of R66. -/
inductive RMode where
  | rne
  | rtz
  | sr (draw : Nat)
  deriving DecidableEq, Repr

/-- Round a magnitude m × 2^e to a multiple of 2^u. -/
def roundMag (mode : RMode) (m : Nat) (e u : Int) : Nat :=
  if u ≤ e then m * 2 ^ (e - u).toNat
  else
    let k := (u - e).toNat
    let q := m / 2 ^ k
    let r := m % 2 ^ k
    match mode with
    | .rtz => q
    | .rne => if 2 ^ k < 2 * r || (2 ^ k = 2 * r && q % 2 = 1) then q + 1 else q
    | .sr d => if d < r * 2 ^ 32 / 2 ^ k then q + 1 else q

/-- A magnitude is larger than another. -/
def magGt (m : Nat) (e : Int) (n : Nat) (f : Int) : Bool :=
  let g := min e f
  decide (n * 2 ^ (f - g).toNat < m * 2 ^ (e - g).toNat)

/-- The flags of one output element (Table 3.10). -/
structure Flags where
  ovf : Bool := false
  invalid : Bool := false
  flush : Bool := false
  sat : Bool := false
  deriving DecidableEq, Repr

def Flags.or (a b : Flags) : Flags := ⟨a.ovf || b.ovf, a.invalid || b.invalid, a.flush || b.flush, a.sat || b.sat⟩

/-- Code of the largest finite value of a sign; for MXINT8 −2.0 on the negative side, for the integers their limit. -/
def Fmt.limitCode (f : Fmt) (neg : Bool) : Nat :=
  if f.isInt then (if neg then 2 ^ (f.bits - 1) else 2 ^ (f.bits - 1) - 1)
  else f.encodeNum neg f.largest.1 f.largest.2

/-- Code of an infinity. -/
def Fmt.infCode (f : Fmt) (neg : Bool) : Nat :=
  (if neg then 2 ^ (f.bits - 1) else 0) + (2 ^ f.expBits - 1) * 2 ^ f.mant

/-- The rounded magnitude is out of range; an integer format reaches one further below. -/
def Fmt.outOfRange (f : Fmt) (neg : Bool) (k : Nat) (u : Int) : Bool :=
  if f.isInt then decide ((if neg then 2 ^ (f.bits - 1) else 2 ^ (f.bits - 1) - 1) < k)
  else magGt k u f.largest.1 f.largest.2

/-- Convert a value to a format standing alone: Table 3.6, rows 1 to 3 and 5. -/
def Fmt.convert (f : Fmt) (mode : RMode) (v : Val) : Nat × Flags :=
  match v with
  | .nan => (f.nanCode, { invalid := true })
  | .inf s => if f.hasInf then (f.infCode s, {}) else (f.limitCode s, { sat := true })
  | .num s m e =>
    let u := f.ulpExp (log2Of m e)
    let k := if m = 0 then 0 else roundMag mode m e u
    if f.outOfRange s k u then
      if f.hasInf && mode ≠ .rtz then (f.infCode s, { ovf := true }) else (f.limitCode s, { sat := true })
    else (f.encodeNum s k u, {})

/-- Convert one element of an MX block, after scaling: row 4 of Table 3.6. The formats without NaN take their block scale 0xFF
elsewhere. -/
def Fmt.convertMx (f : Fmt) (mode : RMode) (v : Val) : Nat × Flags :=
  match v with
  | .nan => (f.nanCode, { invalid := true })
  | .inf s => if f = .e5m2 then (f.infCode s, {}) else (f.limitCode s, { sat := true })
  | .num s m e =>
    let u := f.ulpExp (log2Of m e)
    let k := if m = 0 then 0 else roundMag mode m e u
    if f.outOfRange s k u then (f.limitCode s, { sat := true }) else (f.encodeNum s k u, {})

/-- e_max of R63. -/
def Fmt.eMax : Fmt → Int
  | .e2m1 => 2 | .e2m3 => 2 | .e3m2 => 4 | .e4m3 => 8 | .e5m2 => 15
  | _ => 0

/-- Exponent x of R63: from the largest finite magnitude of the block. -/
def blockExp (f : Fmt) (vs : List Val) : Int :=
  let best := vs.foldl (fun (acc : Option Int) v =>
    match v with
    | .num _ m e => if m = 0 then acc else
        match acc with
        | none => some (log2Of m e)
        | some b => some (max b (log2Of m e))
    | _ => acc) none
  match best with
  | none => 0
  | some l => min (max (l - f.eMax) (-127)) 127

/-- Block scale and element codes of up to 32 values (R63); `modes` gives each element's rounding. -/
def blockScale (f : Fmt) (modes : List RMode) (vs : List Val) : Byte × List (Nat × Flags) :=
  if vs.any Val.isNan && f.nanCode = 0 then (0xFF, vs.map fun _ => (0, { invalid := true }))
  else
    let x := blockExp f vs
    (BitVec.ofNat 8 (x + 127).toNat, (vs.zip modes).map fun p => f.convertMx p.2 (p.1.scale (-x)))

/-- Value of an E8M0 scale (R57). -/
def e8m0 (b : Byte) : Val := if b = 0xFF then .nan else .num false 1 ((b.toNat : Int) - 127)

/-! ## FP32 arithmetic (R70, R82) -/

/-- Round to FP32 with RNE, subnormals kept. -/
def rne32 (v : Val) : Val :=
  match v with
  | .num .. => Fmt.fp32.decode (Fmt.fp32.convert .rne v).1
  | x => x

/-- A rounded sum, and whether it became infinite from finite operands. -/
def add32 (a b : Val) : Val × Bool :=
  let r := rne32 (a.add b)
  (r, r.isInf && !a.isInf && !b.isInf)

/-- One level of the tree: neighbours are added. -/
def treeLevel : List Val → List Val × Bool
  | a :: b :: t =>
    let (r, h) := add32 a b
    let (rs, k) := treeLevel t
    (r :: rs, h || k)
  | l => (l, false)

/-- tree of R70, by levels. -/
def treeSum : Nat → List Val → Val × Bool
  | 0, l => (l.headD .zero, false)
  | n + 1, l =>
    let (r, h) := treeLevel l
    let (v, k) := treeSum n r
    (v, h || k)

/-- FP32 code of a value that FP32 represents. -/
def code32 (v : Val) : W32 := BitVec.ofNat 32 (Fmt.fp32.convert .rne v).1

/-- Value of an FP32 code. -/
def val32 (c : W32) : Val := Fmt.fp32.decode c.toNat

/-! ## Exact accumulators (R72 to R75) -/

/-- An exact partial: the accumulator and its flags nan (bit 0), pinf (bit 1), ninf (bit 2). -/
structure Exact where
  acc : BitVec 1024 := 0
  flags : BitVec 3 := 0
  deriving DecidableEq, Repr

/-- Add a value: a finite one exactly at bit weight 2^(i − 512), a special one as a flag. -/
def Exact.addVal (x : Exact) : Val → Exact
  | .nan => { x with flags := x.flags ||| 1 }
  | .inf false => { x with flags := x.flags ||| 2 }
  | .inf true => { x with flags := x.flags ||| 4 }
  | .num s m e => { x with acc := x.acc + BitVec.ofInt 1024 (sgn s (m * 2 ^ (e + 512).toNat)) }

/-- Add two partials exactly and OR their flags (R74). -/
def Exact.add (x y : Exact) : Exact := ⟨x.acc + y.acc, x.flags ||| y.flags⟩

/-- The value that Table 3.9 gives before rounding, NaN and infinities included. -/
def Exact.value (x : Exact) : Val :=
  if bitAt x.flags 0 then .nan
  else if bitAt x.flags 1 && bitAt x.flags 2 then .nan
  else if bitAt x.flags 1 then .inf false
  else if bitAt x.flags 2 then .inf true
  else
    let i := x.acc.toInt
    .num (decide (i < 0)) i.natAbs (-512)

/-! ## Transfer form (R143) -/

/-- 64-bit words of an accumulator, lowest first. -/
def accWords (a : BitVec 1024) : List Nat := (List.range 16).map fun w => bitsAt a (64 * w + 63) (64 * w)

/-- Header and payload of an exact partial (Table 5.5). -/
def exactWords (x : Exact) : List Nat :=
  let ws := accWords x.acc
  let fl := (if bitAt x.flags 0 then 2 ^ 63 else 0) + (if bitAt x.flags 1 then 2 ^ 62 else 0) +
    (if bitAt x.flags 2 then 2 ^ 61 else 0)
  if x.acc = 0 then [fl]
  else
    let neg := bitAt x.acc 1023
    let fill := if neg then 2 ^ 64 - 1 else 0
    let lo := ((List.range 16).find? fun w => ws.getD w 0 ≠ 0).getD 0
    let hi := ((List.range 16).reverse.find? fun w => ws.getD w 0 ≠ fill).getD 0
    let n := max 1 (hi + 1 - lo)
    (fl + (if neg then 2 ^ 60 else 0) + lo * 256 + n) :: (ws.drop lo).take n

/-- The partial that a header and its payload words spell. -/
def exactOf (ws : List Nat) : Exact :=
  let h : W64 := BitVec.ofNat 64 (ws.headD 0)
  let n := bitsAt h 4 0
  let lo := bitsAt h 11 8
  let neg := bitAt h 60
  let fill := if neg then 2 ^ 64 - 1 else 0
  let body := (List.range 16).map fun w =>
    if w < lo then 0 else if w < lo + n then (ws.drop 1).getD (w - lo) 0 else fill
  { acc := BitVec.ofNat 1024 ((body.foldr (fun w acc => w + 2 ^ 64 * acc) 0))
    flags := (if bitAt h 63 then 1 else 0) ||| (if bitAt h 62 then 2 else 0) ||| (if bitAt h 61 then 4 else 0) }

/-! ## Stochastic rounding (R66) -/

/-- sr_next. -/
def srNext (s : W32) : W32 :=
  let a := s ^^^ (s <<< 13)
  let b := a ^^^ (a >>> 17)
  b ^^^ (b <<< 5)

/-- The next n draws and the state after them. -/
def srDraws : Nat → W32 → List RMode × W32
  | 0, s => ([], s)
  | n + 1, s =>
    let t := srNext s
    let (ds, u) := srDraws n t
    (.sr t.toNat :: ds, u)

/-! ## Packing (R59) -/

/-- Element n of w bits in a bit string of bytes: at most two bytes more than the element spans are read. -/
def unpackAt (get : Nat → Nat) (w n : Nat) : Nat :=
  let b := w * n
  let span := (b % 8 + w + 7) / 8
  let v := (List.range span).foldr (fun i acc => get (b / 8 + i) + 256 * acc) 0
  v / 2 ^ (b % 8) % 2 ^ w

/-- Pack elements of w bits, lowest first, into whole bytes. -/
def packElems (w : Nat) (es : List Nat) : List Byte :=
  leBytes ((es.length * w + 7) / 8) (es.foldr (fun e acc => e % 2 ^ w + 2 ^ w * acc) 0)

end Sys2Proof.Machine
end

