-- ==== Sys2Proof/Machine/Flags.lean ====
section
/-! DEFINITION. The assay word (R77, R78): how flags of output elements become counts. -/

namespace Sys2Proof.Machine

/-- Counts of output elements. -/
structure Counts where
  ovf : Nat := 0
  invalid : Nat := 0
  flush : Nat := 0
  sat : Nat := 0
  deriving DecidableEq, Repr

/-- One element counts at most once in each field. -/
def Counts.elem (c : Counts) (f : Flags) : Counts :=
  ⟨c.ovf + (if f.ovf then 1 else 0), c.invalid + (if f.invalid then 1 else 0), c.flush + (if f.flush then 1 else 0),
   c.sat + (if f.sat then 1 else 0)⟩

/-- The counts of a list of elements. -/
def countFlags (fs : List Flags) : Counts := fs.foldl Counts.elem {}

/-- A field stops at 0xFFFF. -/
def assayField (n : Nat) : Nat := min n 0xFFFF

/-- The assay word (Table 3.10). -/
def Counts.word (c : Counts) : W64 :=
  BitVec.ofNat 64 (assayField c.ovf * 2 ^ 48 + assayField c.invalid * 2 ^ 32 + assayField c.flush * 2 ^ 16 + assayField c.sat)

/-- The counts of an assay word. -/
def countsOf (w : W64) : Counts := ⟨bitsAt w 63 48, bitsAt w 47 32, bitsAt w 31 16, bitsAt w 15 0⟩

/-- Field-by-field sum, each field stopping at 0xFFFF (R139, R169, R241). -/
def assayAdd (a b : W64) : W64 :=
  let x := countsOf a
  let y := countsOf b
  Counts.word ⟨x.ovf + y.ovf, x.invalid + y.invalid, x.flush + y.flush, x.sat + y.sat⟩

/-- The sum of assay words. -/
def assaySum (ws : List W64) : W64 := ws.foldl assayAdd 0

end Sys2Proof.Machine
end

