-- ==== Sys2Proof/Machine/Operands.lean ====
section
/-! DEFINITION. The operand forms of the picks: the fields of a command record and the format codes (Tables 4.11 to 4.13). -/

namespace Sys2Proof.Machine

/-! ## Command record (Table 4.11) -/

def recOp (r : BitVec 512) : Nat := bitsAt r 7 0
def recExact (r : BitVec 512) : Bool := bitAt r 8
def recAcc (r : BitVec 512) : Bool := bitAt r 9
def recNotify (r : BitVec 512) : Bool := bitAt r 11
def recWfmt (r : BitVec 512) : Nat := bitsAt r 15 12
def recAfmt (r : BitVec 512) : Nat := bitsAt r 17 16
def recOfmt (r : BitVec 512) : Nat := bitsAt r 19 18
def recFn (r : BitVec 512) : Nat := bitsAt r 23 20
def recSlots (r : BitVec 512) : Byte := BitVec.ofNat 8 (bitsAt r 31 24)
def recSeq (r : BitVec 512) : W16 := BitVec.ofNat 16 (bitsAt r 47 32)
def recSrcVa (r : BitVec 512) : Nat := bitsAt r 103 64
def recSrcN (r : BitVec 512) : Nat := bitsAt r 127 112
def recAuxVa (r : BitVec 512) : Nat := bitsAt r 167 128
def recDstVa (r : BitVec 512) : Nat := bitsAt r 231 192
def recK (r : BitVec 512) : Nat := bitsAt r 279 256
def recKstride (r : BitVec 512) : Nat := bitsAt r 311 288
def recNout (r : BitVec 512) : Nat := bitsAt r 329 320
def recResBase (r : BitVec 512) : Nat := bitsAt r 344 336
def recVoff (r : BitVec 512) : Nat := bitsAt r 367 352
def recTally (r : BitVec 512) : W16 := BitVec.ofNat 16 (bitsAt r 383 368)
def recImm (r : BitVec 512) : Nat := bitsAt r 447 384
/-- Slot layout of a PLOAD, and the number of slots it gives. -/
def recLayout (r : BitVec 512) : Nat := bitsAt r 385 384
/-- Direction of a PFOLD: true is down. -/
def recDown (r : BitVec 512) : Bool := bitAt r 384

/-- The fields of a record that the shaft sequencers fill in. -/
structure PickFields where
  op : Nat
  fn : Nat := 0
  exact : Bool := false
  wfmt : Nat := 0
  afmt : Nat := 0
  ofmt : Nat := 0
  slots : Byte := 0
  srcVa : Nat := 0
  auxVa : Nat := 0
  dstVa : Nat := 0
  k : Nat := 0
  kstride : Nat := 0
  nout : Nat := 0
  resBase : Nat := 0
  voff : Nat := 0
  imm : Nat := 0
  deriving DecidableEq, Repr

/-- The record with these fields. -/
def mkRecord (p : PickFields) : BitVec 512 :=
  BitVec.ofNat 512 (p.op + (if p.exact then 2 ^ 8 else 0) + p.wfmt * 2 ^ 12 + p.afmt * 2 ^ 16 + p.ofmt * 2 ^ 18 +
    p.fn * 2 ^ 20 + p.slots.toNat * 2 ^ 24 + p.srcVa * 2 ^ 64 + p.auxVa * 2 ^ 128 + p.dstVa * 2 ^ 192 + p.k * 2 ^ 256 +
    p.kstride * 2 ^ 288 + p.nout * 2 ^ 320 + p.resBase * 2 ^ 336 + p.voff * 2 ^ 352 + p.imm * 2 ^ 384)

/-! ## Operation codes (Table 4.13) -/

abbrev opPcopy : Nat := 1
abbrev opPinit : Nat := 2
abbrev opPlogic : Nat := 3
abbrev opPload : Nat := 4
abbrev opPmv : Nat := 5
abbrev opPmvk : Nat := 6
abbrev opPfold : Nat := 7
abbrev opPdrain : Nat := 8
abbrev opPfence : Nat := 9

/-- `op` and `fn` are not reserved. -/
def opFnOk (op fn : Nat) : Bool :=
  if op = opPlogic then decide (fn ≤ 4)
  else if op = opPload || op = opPdrain then decide (fn ≤ 2)
  else if op = opPfold || op = opPfence then decide (fn ≤ 3)
  else if op = opPcopy || op = opPinit || op = opPmv || op = opPmvk then decide (fn = 0)
  else false

/-- The operation uses `exact` (R101, check 4). -/
def usesExact (r : BitVec 512) : Bool :=
  recOp r == opPmv || recOp r == opPmvk || recOp r == opPfold || (recOp r == opPdrain && recFn r == 2)

/-- The operation works on accumulators instead of entries (R112, R113). -/
def usesAccs (r : BitVec 512) : Bool :=
  recExact r && (recOp r == opPfold || (recOp r == opPdrain && recFn r == 2))

/-! ## Formats (Tables 3.5, 3.8, 4.12) -/

/-- A weight format: elements per row E, data rows per scale row Q (0 without scales), step of kstride, group of Table 3.8. -/
structure WFmt where
  fmt : Fmt
  e : Nat
  q : Nat
  unit : Nat
  group : Nat
  deriving DecidableEq, Repr

/-- Weight formats by code; codes 10 to 15 are reserved. -/
def wfmtOf (c : Nat) : Option WFmt :=
  if c = 0 then some ⟨.int4, 4096, 0, 64, 64⟩
  else if c = 1 then some ⟨.int8, 2048, 0, 32, 32⟩
  else if c = 2 then some ⟨.e2m1, 4096, 16, 64, 64⟩
  else if c = 3 then some ⟨.e3m2, 2720, 24, 32, 32⟩
  else if c = 4 then some ⟨.e2m3, 2720, 24, 32, 32⟩
  else if c = 5 then some ⟨.e4m3, 2048, 32, 32, 32⟩
  else if c = 6 then some ⟨.e5m2, 2048, 32, 32, 32⟩
  else if c = 7 then some ⟨.mxint8, 2048, 32, 32, 32⟩
  else if c = 8 then some ⟨.bf16, 1024, 0, 16, 16⟩
  else if c = 9 then some ⟨.fp16, 1024, 0, 16, 16⟩
  else none

/-- Activation formats by code. -/
def afmtOf (c : Nat) : Fmt := if c = 0 then .bf16 else if c = 1 then .fp16 else if c = 2 then .fp32 else .e4m3

/-- Output formats by code. -/
def ofmtOf (c : Nat) : Fmt := if c = 0 then .fp32 else if c = 1 then .bf16 else if c = 2 then .fp16 else .e4m3

/-- Slots S of a layout code. -/
def layoutSlots (l : Nat) : Nat := 2 ^ l

/-- Elements per slot (Table 4.2). -/
def slotCapacity (layout afmt : Nat) : Nat := 65536 / layoutSlots layout / (afmtOf afmt).bytes

/-- Selected slots or accumulators, lowest first. -/
def selected (m : Byte) : List Nat := setBits m

/-- Bytes of one part of a PLOAD source: elements, then the MXFP8 scales (R107). -/
def loadPart (k afmt : Nat) : Nat := k * (afmtOf afmt).bytes + (if afmt = 3 then ceilDiv k 32 else 0)

/-- Bytes of a PLOAD source. -/
def loadBytes (r : BitVec 512) : Nat := (selected (recSlots r)).length * loadPart (recK r) (recAfmt r)

/-- Data rows and scale rows of a PMV or PMVK (R108, R109). -/
def dataRows (w : WFmt) (nout kstride : Nat) : Nat := ceilDiv (nout * kstride) w.e
def scaleRows (w : WFmt) (n : Nat) : Nat := if w.q = 0 then 0 else ceilDiv n w.q

/-- Bytes that output entries of a format pack into (R113). -/
def packedBytes (ofmt n : Nat) : Nat := n * (ofmtOf ofmt).bytes + (if ofmt = 3 then ceilDiv n 32 else 0)

end Sys2Proof.Machine
end

