-- ==== Sys2Proof/Machine/Tally.lean ====
section
/-! DEFINITION. The tally board: operations, watches, barriers, debug records (chapter 09). -/

namespace Sys2Proof.Machine

/-- Operation codes (Table 9.2). -/
abbrev topAdd : BitVec 4 := 1
abbrev topSub : BitVec 4 := 2
abbrev topArrive : BitVec 4 := 3
abbrev topSet : BitVec 4 := 4
abbrev topBarinit : BitVec 4 := 7
abbrev topBarfree : BitVec 4 := 8

/-- Largest value of a tally (R252). -/
abbrev tallyMax : Nat := 0x7FFFFFFF

/-- Physical tally that a reference names, or none where R253 maps nothing (a physical ID is below 16,384). -/
def tallyOf (s : State) (c : Nat) : TallyRef → Option Nat
  | .virt v =>
    let x := s.ctx c
    if x.tallyLimit.toNat < v.toNat || 16384 ≤ x.tallyBase.toNat + v.toNat then none
    else some (x.tallyBase.toNat + v.toNat)
  | .phys t => if t.toNat < 16384 then some t.toNat else none

/-- A TALLY record of the fault log (Table 15.4). -/
def logTally (s : State) (code : W16) (c : Nat) (st : Byte) (unit : W16) (info : Nat) : State :=
  logRec s { event := 0x09, status := st, unit := unit, src := code, ctx := BitVec.ofNat 6 c, info := BitVec.ofNat 64 info }

/-- TALLY_RANGE: the counter and the record with v and the context's base (R253). -/
def tallyRangeFault (s : State) (code : W16) (c : Nat) (r : TallyRef) : State :=
  let info := match r with
    | .virt v => v.toNat + 2 ^ 32 * (s.ctx c).tallyBase.toNat
    | .phys t => t.toNat
  logTally { s with tally := { s.tally with rangeFaults := satInc s.tally.rangeFaults } } code c stTallyRange 0xFFFF info

/-- The counter of Table 9.14 that a failing status moves, and its record (R257). -/
def tallyFault (s : State) (code : W16) (c t : Nat) (st : Byte) (amount : W32) : State :=
  let b := s.tally
  if st = stTallyUnder then
    logTally { s with tally := { b with underFaults := satInc b.underFaults } } code c st (BitVec.ofNat 16 t) amount.toNat
  else if st = stTallyOver then
    logTally { s with tally := { b with overFaults := satInc b.overFaults } } code c st (BitVec.ofNat 16 t) amount.toNat
  else if st = stOverrun then
    logTally { s with tally := { b with overrunFaults := satInc b.overrunFaults } } code c st (BitVec.ofNat 16 t) amount.toNat
  else s

/-- The barrier record bound to a tally. -/
def barrierOf (s : State) (t : Nat) : Option (Nat × Barrier) :=
  s.tally.barriers.find? fun p => p.2.used && p.2.tally == t

/-- Participant that a source gives by itself (R268): face, host, or port. -/
def implicitId (code : W16) : Option Nat :=
  if 0x100 ≤ code.toNat && code.toNat < 0x130 then some (code.toNat - 0x100)
  else if code = 1 then some 48
  else if 0x10 ≤ code.toNat && code.toNat < 0x70 then some (49 + (code.toNat - 0x10) / 16)
  else none

/-- Source code of a watch's target, as its registrations carry it (Table 9.1). -/
def targetCode : WatchTarget → W16
  | .face f => BitVec.ofNat 16 (0x100 + f)
  | .step _ => 0x81
  | .host _ _ => 1
  | .partner k src => BitVec.ofNat 16 (0x10 + 16 * k.val + src.toNat)

/-- Participant ID of a selector in a mask, or none where R268 calls it invalid. -/
def participant (sel : W32) (code : W16) (mask : W64) : Option Nat :=
  if sel.toNat / 256 ≠ 0 || bitAt sel 6 then none
  else
    let id := if bitAt sel 7 then some (bitsAt sel 5 0) else implicitId code
    id.filter fun p => bitAt mask p

/-- A watch holds: on an ordinary tally the value reaches the threshold (R263); on a barrier the participant has no arrival in an
unreleased round (R270). -/
def watchHolds (s : State) (t : Nat) (code : W16) (thr : W32) : Bool :=
  if (s.cell t).barrier then
    match barrierOf s t with
    | none => false
    | some (_, b) =>
      match participant thr code b.mask with
      | none => false
      | some p => !(bitAt b.cur p) && !(bitAt b.nxt p)
  else decide (thr.toNat ≤ (s.cell t).value.toNat)

/-- Status or notice word (Table 9.9). -/
def noticeWord (value : W32) (cookie : W16) (st : Byte) : W64 :=
  BitVec.ofNat 64 (value.toNat * 2 ^ 32 + cookie.toNat * 2 ^ 16 + st.toNat * 2 ^ 8 + 1)

/-- The grant of a unit of the ledger, stack unit n or face unit 8 + f, with the watts on loan to it (R409, R411). -/
def unitGrant (p : Power) (u : Nat) : Nat :=
  (if u < 8 then 110 else 6) + ((p.loans.filter fun l => l.borrower == u && !l.recalled).map (·.watts)).sum

/-- Every loan of a face's share is recalled: a borrower above its new grant sets its duty (R411). -/
def recallLoans (p : Power) (f : Nat) : Power :=
  let q := { p with loans := p.loans.map fun l => if l.lender = f then { l with recalled := true } else l }
  (p.loans.filter fun l => l.lender == f && !l.recalled).foldl (fun r l =>
    let u := tget {} r.units l.borrower
    let g := unitGrant r l.borrower
    if g < u.est then { r with units := tset {} r.units l.borrower { u with duty := max 2 (8 * g / u.est), calm := 0, free := 0 } }
    else r) q

/-- The operations of a task whose engines had no clock for some cycles go on as if started so much later (R276). -/
def unclocked (t : FaceTask) (n : Nat) : FaceTask := { t with ops := t.ops.map fun o => { o with started := o.started.map (· + n) } }

/-- A gated face wakes: its loans are recalled, and it runs at the floor rate until they have returned (R277, R411). -/
def faceWake (s : State) (f : Nat) : State :=
  let c := s.face f
  if c.gated then
    { s.setFace f { c with gated := false, floorRate := true, wokeAt := s.now,
                           task := c.task.map fun t => unclocked t (s.now - c.wokeAt) } with power := recallLoans s.power f }
  else s

/-- A task waits on its WAITT. -/
def FaceWait.waits : FaceWait → Bool
  | .watching _ => true
  | _ => false

/-- The sequencer of a logical face goes on after its WAITT (R165, R264). -/
def faceResume (s : State) (l : Nat) : State :=
  match physicalOf s l with
  | none => s
  | some f =>
    match (s.face f).task with
    | none => s
    | some t =>
      if t.wait.waits then faceWake (s.modFace f fun c => { c with task := some { t with wait := .none, pc := t.pc + 1 } }) f else s

/-- A face's registration failed: its task will end with the status (R262). -/
def faceWaitFail (s : State) (l : Nat) (st : Byte) : State :=
  match physicalOf s l with
  | none => s
  | some f =>
    match (s.face f).task with
    | none => s
    | some t => if t.wait.waits then s.modFace f fun c => { c with task := some { t with wait := .failed st } } else s

/-- Set the head wait of a queue's step. -/
def stepWait (s : State) (q : Nat) (w : HeadWait) : State :=
  match (s.queue q).step with
  | none => s
  | some x => s.modQueue q fun k => { k with step := some { x with wait := w } }

/-- Deliver a firing to its target (Table 9.8, R264, R275). -/
def deliver (s : State) (w : Watch) (value : W32) (st : Byte) : State :=
  match w.target with
  | .face f => faceResume s f
  | .step q => stepWait s q .met
  | .host haddr v =>
    let t := if haddr = 0 then s else hostSend s haddr (leBytes 8 (noticeWord value w.cookie st).toNat)
    if v = 0xFF then t else hostMsix t v.toNat
  | .partner k src => portNotice s k src w.ctx.toNat (noticeWord value w.cookie st)

/-- A slot becomes FREE. -/
def freeWatch (s : State) (i : Nat) : State :=
  { s with tally := { s.tally with watches := tset {} s.tally.watches i {} } }

/-- A watch fires: it leaves the list, a consuming one subtracts its threshold from an ordinary tally, and its notice goes out
(R263, R270). -/
def fireWatch (s : State) (t i : Nat) : State :=
  let w := tget {} s.tally.watches i
  let c := s.cell t
  let v := if w.cons && !c.barrier then c.value - w.thr else c.value
  let s1 := s.setCell t { c with value := v, watches := c.watches.filter fun j => j ≠ i }
  deliver (freeWatch s1 i) w v stOk

/-- Walk a tally's watch list in registration order (R258, R263). -/
def walkWatches (s : State) (t : Nat) : List Nat → State
  | [] => s
  | i :: is =>
    let w := tget {} s.tally.watches i
    if w.armed && watchHolds s t (targetCode w.target) w.thr then walkWatches (fireWatch s t i) t is
    else walkWatches s t is

/-- Put a value and walk the watches as they stood. -/
def tallyPut (s : State) (t : Nat) (v : W32) : State :=
  let c := s.cell t
  walkWatches (s.setCell t { c with value := v }) t c.watches

/-- Release the rounds that are complete: at most two, since `nxt` then becomes 0 (R269). -/
def releaseRounds (b : Barrier) (v : W32) : Barrier × W32 :=
  let r (x : Barrier × W32) : Barrier × W32 :=
    if x.1.cur = x.1.mask then ({ x.1 with cur := x.1.nxt, nxt := 0 }, BitVec.ofNat 32 ((x.2.toNat + 1) % 2 ^ 31)) else x
  r (r (b, v))

/-- The status that checks 4 to 7 of Table 9.3 give an ADD, SUB, SET or ARRIVE, and on OK the state after it. -/
def tallyEffect (s : State) (code : W16) (c t : Nat) (top : BitVec 4) (n : W32) : State × Byte :=
  let x := s.cell t
  if top = topSet && c ≠ 0 then (s, stProt)
  else if top = topArrive then
    match barrierOf s t with
    | none => (s, stMode)
    | some (i, b) =>
      match participant n code b.mask with
      | none => (s, stMode)
      | some p =>
        if bitAt b.cur p && bitAt b.nxt p then (s, stOverrun)
        else
          let b1 := if bitAt b.cur p then { b with nxt := setBit b.nxt p true } else { b with cur := setBit b.cur p true }
          let (b2, v) := releaseRounds b1 x.value
          let s1 := { s with tally := { s.tally with barriers := tset {} s.tally.barriers i b2 } }
          (if v = x.value then s1 else tallyPut s1 t v, stOk)
  else if x.barrier then (s, stMode)
  else if top = topAdd then
    if tallyMax < x.value.toNat + n.toNat then (s, stTallyOver) else (tallyPut s t (x.value + n), stOk)
  else if top = topSub then
    if x.value.toNat < n.toNat then (s, stTallyUnder) else (tallyPut s t (x.value - n), stOk)
  else if tallyMax < n.toNat then (s, stOob)
  else (tallyPut s t n, stOk)

/-- Update the last-signaller record (R259) and the count of operations applied. -/
def tallySigned (s : State) (code : W16) (c t : Nat) (top : BitVec 4) (n : W32) (st : Byte) : State :=
  let s1 := s.setCell t { s.cell t with signaller := ⟨n, code, st, top, BitVec.ofNat 6 c⟩ }
  if st = stOk then { s1 with tally := { s1.tally with opsApplied := s1.tally.opsApplied + 1 } } else s1

/-- One ADD, SUB, SET or ARRIVE of a requester (R256, R257, R259). -/
def tallyOp (s : State) (code : W16) (c : Nat) (r : TallyRef) (top : BitVec 4) (n : W32) : State × Byte :=
  match tallyOf s c r with
  | none => (tallyRangeFault s code c r, stTallyRange)
  | some t =>
    let (s1, st) := tallyEffect s code c t top n
    (tallyFault (tallySigned s1 code c t top n st) code c t st n, st)

/-- Remote watches armed: those registered through the tally port (R262). -/
def remoteArmed (s : State) : Nat :=
  (s.tally.watches.filter fun p => p.2.armed && match p.2.target with
    | .host _ _ => true | .partner _ _ => true | _ => false).length

/-- The lowest free watch slot (log entry 19). -/
def freeSlot (s : State) : Option Nat := (List.range 4096).find? fun i => !(tget {} s.tally.watches i).armed

/-- Checks 5 and 6 of Table 9.3 for a watch: the selector on a barrier, the threshold on an ordinary tally. -/
def watchCheck (s : State) (t : Nat) (code : W16) (thr : W32) : Byte :=
  if (s.cell t).barrier then
    match barrierOf s t with
    | none => stMode
    | some (_, b) => if (participant thr code b.mask).isSome then stOk else stMode
  else if tallyMax < thr.toNat then stOob else stOk

/-- Arm a watch in a slot, at the end of its tally's list. -/
def armWatch (s : State) (i : Nat) (w : Watch) : State :=
  let c := s.cell w.tally
  let s1 := { s with tally := { s.tally with watches := tset {} s.tally.watches i { w with armed := true } } }
  s1.setCell w.tally { c with watches := c.watches ++ [i] }

/-- What a registration of a face or the step foreman gives. -/
inductive WatchOut where
  | fired | armed | queued
  | fail (status : Byte)
  deriving DecidableEq, Repr

/-- A consuming watch that holds at registration subtracts at once (R263). -/
def watchNow (s : State) (t : Nat) (thr : W32) (cons : Bool) : State :=
  let c := s.cell t
  if cons && !c.barrier then s.setCell t { c with value := c.value - thr } else s

/-- Register a watch of a face or a step: it fires at once, is armed, or waits for a slot, behind what its source has waiting (R258,
R262, R263). -/
def innerWatch (s : State) (target : WatchTarget) (c : Nat) (v : W16) (thr : W32) (cons : Bool) : State × WatchOut :=
  let code := targetCode target
  match tallyOf s c (.virt v) with
  | none => (tallyRangeFault s code c (.virt v), .fail stTallyRange)
  | some t =>
    let st := watchCheck s t code thr
    if st ≠ stOk then (s, .fail st)
    else
      match (if s.tally.waiting.any fun r => r.code == code then none else freeSlot s) with
      | none =>
        ({ s with tally := { s.tally with
             waiting := s.tally.waiting ++ [⟨target, code, cons, thr, t, BitVec.ofNat 6 c, (s.cell t).barrier⟩],
             poolWaits := satInc s.tally.poolWaits } }, .queued)
      | some i =>
        let s1 := { s with tally := { s.tally with opsApplied := s.tally.opsApplied + 1 } }
        if watchHolds s t code thr then (watchNow s1 t thr cons, .fired)
        else (armWatch s1 i { armed := true, target := target, cons := cons, thr := thr, tally := t,
                              ctx := BitVec.ofNat 6 c }, .armed)

/-- A WATCH through the tally port: its checks and its slot; on BUSY the host's status word goes out (R262, R265). -/
def remoteWatch (s : State) (target : WatchTarget) (c : Nat) (r : TallyRef) (thr : W32) (cons : Bool) (cookie : W16) :
    State × Byte :=
  let code := targetCode target
  match tallyOf s c r with
  | none => (tallyRangeFault s code c r, stTallyRange)
  | some t =>
    let st := watchCheck s t code thr
    let hostBad := match target with
      | .host haddr v => decide (haddr.toNat % 8 ≠ 0) || (decide (63 < v.toNat) && v ≠ 0xFF)
      | _ => false
    let w : Watch := { armed := true, target := target, cons := cons, thr := thr, tally := t, cookie := cookie,
                       ctx := BitVec.ofNat 6 c }
    if st ≠ stOk then (s, st)
    else if hostBad then (s, stOob)
    else
      match (if remoteArmed s < s.tally.watchRemoteMax.toNat then freeSlot s else none) with
      | none =>
        let s1 := { s with tally := { s.tally with watchRefused := satInc s.tally.watchRefused } }
        (match target with
         | .host _ _ => deliver s1 w (s.cell t).value stBusy
         | _ => s1, stBusy)
      | some i =>
        let s1 := { s with tally := { s.tally with opsApplied := s.tally.opsApplied + 1 } }
        let s2 := armWatch s1 i w
        (if watchHolds s2 t code thr then fireWatch s2 t i else s2, stOk)

/-- Withdraw the armed watches that match, and the registrations that wait for a slot (R266): nothing is subtracted or sent. -/
def withdraw (s : State) (p : Watch → Bool) (pw : WatchReq → Bool) : State :=
  let gone := s.tally.watches.filter fun x => x.2.armed && p x.2
  let s1 := gone.foldl (fun t x =>
    let c := t.cell x.2.tally
    freeWatch (t.setCell x.2.tally { c with watches := c.watches.filter fun j => j ≠ x.1 }) x.1) s
  { s1 with tally := { s1.tally with waiting := s1.tally.waiting.filter fun r => !(pw r) } }

/-- Withdraw everything that one target registered. -/
def withdrawTarget (s : State) (x : WatchTarget) : State :=
  withdraw s (fun w => w.target == x) (fun r => r.target == x)

/-- UNWATCH: the armed watches of this tally with the same source, path and cookie (R266). -/
def unwatch (s : State) (target : WatchTarget) (c : Nat) (r : TallyRef) (cookie : W16) : State × Byte :=
  match tallyOf s c r with
  | none => (tallyRangeFault s (targetCode target) c r, stTallyRange)
  | some t =>
    let samePath (x : WatchTarget) : Bool := match x, target with
      | .host _ _, .host _ _ => true
      | .partner k a, .partner j b => k == j && a == b
      | _, _ => false
    let s1 := withdraw s (fun w => w.tally == t && w.cookie == cookie && samePath w.target) (fun _ => false)
    ({ s1 with tally := { s1.tally with opsApplied := s1.tally.opsApplied + 1 } }, stOk)

/-- BARINIT (R267) after its tally is named. -/
def barinitEffect (s : State) (t : Nat) (mask : W64) : State × Byte :=
  let x := s.cell t
  if x.barrier || x.value ≠ 0 || x.watches ≠ [] then (s, stMode)
  else if mask = 0 then (s, stOob)
  else
    match (List.range 256).find? fun i => !(tget {} s.tally.barriers i).used with
    | none => (s, stBusy)
    | some i =>
      let s1 := { s with tally := { s.tally with barriers := tset {} s.tally.barriers i ⟨true, t, mask, 0, 0⟩ } }
      (s1.setCell t { x with barrier := true, value := 0 }, stOk)

/-- BARFREE (R267) after its tally is named. -/
def barfreeEffect (s : State) (t : Nat) : State × Byte :=
  let x := s.cell t
  if !x.barrier || x.watches ≠ [] then (s, stMode)
  else
    match barrierOf s t with
    | none => (s, stMode)
    | some (i, _) =>
      let s1 := { s with tally := { s.tally with barriers := tset {} s.tally.barriers i {} } }
      (s1.setCell t { x with barrier := false, value := 0 }, stOk)

/-- BARINIT and BARFREE of a requester. -/
def barOp (s : State) (code : W16) (c : Nat) (r : TallyRef) (top : BitVec 4) (mask : W64) : State × Byte :=
  match tallyOf s c r with
  | none => (tallyRangeFault s code c r, stTallyRange)
  | some t =>
    let (s1, st) := if top = topBarinit then barinitEffect s t mask else barfreeEffect s t
    (tallySigned s1 code c t top 0 st, st)

/-- Where an origin's tally port watch fires. -/
def originTarget (o : Origin) (msix : Byte) (haddr : W64) : WatchTarget :=
  match o with
  | .partner k src _ => .partner k src
  | .host _ => .host haddr msix
  | .unit c => .face (c.toNat - 0x100)

/-! ## Records (Tables 9.6, 9.7, 9.11, 9.13) -/

/-- Value word (Table 9.6). -/
def valueWord (s : State) (t : Nat) : Nat :=
  let x := s.cell t
  min x.watches.length 255 * 2 ^ 40 + (if x.barrier then 2 ^ 32 else 0) + x.value.toNat

/-- Debug record (Table 9.13). -/
def debugRecord (s : State) (t : Nat) : BitVec 128 :=
  let x := s.cell t
  let g := x.signaller
  BitVec.ofNat 128 (g.amount.toNat * 2 ^ 96 + g.src.toNat * 2 ^ 80 + g.status.toNat * 2 ^ 72 + g.op.toNat * 2 ^ 68 +
    g.ctx.toNat * 2 ^ 62 + (if x.barrier then 2 ^ 61 else 0) + x.watches.length * 2 ^ 48 +
    (x.watches.headD 0x1FFF) * 2 ^ 32 + x.value.toNat)

/-- The slot after slot i on a list, 0x1FFF at its end. -/
def nextSlot (i : Nat) : List Nat → Nat
  | [] => 0x1FFF
  | j :: js => if j = i then js.headD 0x1FFF else nextSlot i js

/-- Watch record (Table 9.7); a FREE slot reads its reset value (log entry 19). -/
def watchRecord (s : State) (i : Nat) : BitVec 256 :=
  let w := tget {} s.tally.watches i
  if w.armed then
    let (haddr, tid, tsrc, ttype) : Nat × Nat × Nat × Nat := match w.target with
      | .face f => (0, f, 0, 0)
      | .step q => (0, q, 0, 1)
      | .host a v => (a.toNat, v.toNat, 0, 2)
      | .partner k src => (0, k.val, src.toNat, 3)
    BitVec.ofNat 256 (haddr * 2 ^ 128 + w.cookie.toNat * 2 ^ 112 + w.tally * 2 ^ 96 + w.thr.toNat * 2 ^ 64 +
      nextSlot i (s.cell w.tally).watches * 2 ^ 51 + tid * 2 ^ 40 + tsrc * 2 ^ 36 + ttype * 2 ^ 33 +
      (if w.cons then 2 ^ 32 else 0) + 2 ^ 30 + w.ctx.toNat * 2 ^ 24)
  else BitVec.ofNat 256 (0x1FFF * 2 ^ 51)

/-- Barrier record (Table 9.11). -/
def barrierRecord (s : State) (i : Nat) : BitVec 256 :=
  let b := tget {} s.tally.barriers i
  BitVec.ofNat 256 (b.nxt.toNat * 2 ^ 192 + b.cur.toNat * 2 ^ 128 + b.mask.toNat * 2 ^ 64 +
    (if b.used then 2 ^ 46 else 0) + b.tally * 2 ^ 32)

/-! ## Commands of the tally board -/

/-- Before bring-up step 9 the tally port page answers MODE (R379); only context 0 may name physical tallies (R260). Requests of
the module's own units pass. -/
def tallyGate (s : State) (o : Origin) (c : Nat) (r : TallyRef) : Byte :=
  match o with
  | .unit _ => stOk
  | _ =>
    if !s.life.opened then stMode
    else match r with
      | .phys _ => if c = 0 then stOk else stProt
      | .virt _ => stOk

/-- Offset of a reference in the tally port page (Table 9.4). -/
def tallyOffset : TallyRef → Nat
  | .virt v => 16 * v.toNat
  | .phys t => 0x100000 + 16 * t.toNat

/-- Run one operation for an origin and answer it (R261, R427). -/
def tallyCommand (s : State) (o : Origin) (c : CtxId) (r : TallyRef) (f : State → State × Byte) : State :=
  let g := tallyGate s o c.val r
  let (t, st) := if g = stOk then f s else (s, g)
  answer t o c.val false st [] (0x1000000 + tallyOffset r)

/-- ADD (R256). -/
def execTallyAdd (o : Origin) (c : CtxId) (t : TallyRef) (n : W32) (s : State) : Result :=
  .next (tallyCommand s o c t fun u => tallyOp u (codeOf o) c.val t topAdd n)

/-- SUB (R256). -/
def execTallySub (o : Origin) (c : CtxId) (t : TallyRef) (n : W32) (s : State) : Result :=
  .next (tallyCommand s o c t fun u => tallyOp u (codeOf o) c.val t topSub n)

/-- ARRIVE (R269). -/
def execTallyArrive (o : Origin) (c : CtxId) (t : TallyRef) (sel : W32) (s : State) : Result :=
  .next (tallyCommand s o c t fun u => tallyOp u (codeOf o) c.val t topArrive sel)

/-- SET (R256). -/
def execTallySet (o : Origin) (c : CtxId) (t : TallyRef) (n : W32) (s : State) : Result :=
  .next (tallyCommand s o c t fun u => tallyOp u (codeOf o) c.val t topSet n)

/-- WATCH through the tally port (R262, R263). -/
def execTallyWatch (o : Origin) (c : CtxId) (t : TallyRef) (thr : W32) (cons : Bool) (cookie : W16) (msix : Byte)
    (haddr : W64) (s : State) : Result :=
  .next (tallyCommand s o c t fun u => remoteWatch u (originTarget o msix haddr) c.val t thr cons cookie)

/-- UNWATCH (R266). -/
def execTallyUnwatch (o : Origin) (c : CtxId) (t : TallyRef) (cookie : W16) (s : State) : Result :=
  .next (tallyCommand s o c t fun u => unwatch u (originTarget o 0 0) c.val t cookie)

/-- BARINIT (R267). -/
def execBarinit (o : Origin) (c : CtxId) (t : TallyRef) (mask : W64) (s : State) : Result :=
  .next (tallyCommand s o c t fun u => barOp u (codeOf o) c.val t topBarinit mask)

/-- BARFREE (R267). -/
def execBarfree (o : Origin) (c : CtxId) (t : TallyRef) (s : State) : Result :=
  .next (tallyCommand s o c t fun u => barOp u (codeOf o) c.val t topBarfree 0)

/-- The oldest registration that waits takes a slot: it is checked again and is armed, fires, or fails with MODE (R262). -/
def armOldest (s : State) : State :=
  match s.tally.waiting, freeSlot s with
  | r :: rest, some i =>
    let s1 := { s with tally := { s.tally with waiting := rest } }
    if (s.cell r.tally).barrier ≠ r.barrier || watchCheck s r.tally r.code r.thr ≠ stOk then
      match r.target with
      | .face f => faceWaitFail s1 f stMode
      | .step q => stepWait s1 q (.failed stMode)
      | _ => s1
    else
      let s2 := armWatch { s1 with tally := { s1.tally with opsApplied := s1.tally.opsApplied + 1 } } i
        { armed := true, target := r.target, cons := r.cons, thr := r.thr, tally := r.tally, ctx := r.ctx }
      if watchHolds s2 r.tally r.code r.thr then fireWatch s2 r.tally i else s2
  | _, _ => s

/-- WATCH_ARM_ON_FREE (R262). -/
def execWatchArmOnFree (s : State) : Result := .next (armOldest s)

/-- FACE_GATE: a WAITT that has not fired within gate_wait µs clock-gates its face, which returns its budget share (R276, R411). -/
def faceGate (s : State) (f : Nat) : State :=
  let c := s.face f
  match c.task with
  | none => s
  | some t =>
    match t.wait with
    | .watching since =>
      if c.gated || s.tally.gateWait = 0 || s.now < since + s.tally.gateWait.toNat * usCycles then s
      else { s.setFace f { c with gated := true, wokeAt := s.now } with tally := { s.tally with gates := satInc s.tally.gates } }
    | _ => s

/-- FACE_GATE (R276). -/
def execFaceGate (f : FaceId) (s : State) : Result := .next (faceGate s f.val)

end Sys2Proof.Machine
end

