-- ==== Sys2Proof/Machine/Pick.lean ====
section
/-! DEFINITION. Picks: state clearing, the aperture, direct commands, admission, start, completion (chapter 04). -/

namespace Sys2Proof.Machine

/-- Source code of a pick (Table 9.1). -/
def pickCode (g : Nat) : W16 := BitVec.ofNat 16 (0x1000 + g)

/-- Next live pick round the ring of the stack (R17). -/
def nextLive (s : State) (g : Nat) (down : Bool) : Option Nat :=
  (List.range 511).findSome? fun i =>
    let q := stackOf g * 512 + (if down then (pickOf g + 511 - i) % 512 else (pickOf g + 1 + i) % 512)
    if pickLive s q then some q else none

/-- The pick's parts, cleared (R85). Words on its links are dropped with them. -/
def clearPick (c : Col) : Col :=
  { c with vbuf := [], vmark := [], scales := [], smark := [], entries := [], accs := [], accFlags := [], layout := 3, afmt := 0,
           partials := [], inbox := [] }

/-- Void the sweeps in progress of some dies (R293); credits stay. -/
def voidSweeps (segs : Tab Seg) (dies : Nat → Bool) : Tab Seg :=
  segs.filterMap fun p =>
    let sg := if dies (p.1 / 32) then { p.2 with exp := 0, tRun := 0 } else p.2
    if sg = {} then none else some (p.1, sg)

/-- Void every sweep and every credit of a column (R293). -/
def voidAll (c : Col) : Col := { c with segs := [] }

/-- Void the sweeps of a column. -/
def voidCol (c : Col) : Col := { c with segs := voidSweeps c.segs fun _ => true }

/-- Column mode code (Table 4.5). -/
def modeCode (c : Col) : Nat :=
  if c.retired then 8 else if c.fenced then 7
  else match c.mode with
    | .normal => 0
    | .pick => 1
    | .toPick => 2
    | .toNormal => 3

/-! ## Passes as their operations see them -/

def State.pass (s : State) (id : Nat) : Option Pass := s.passes.find? fun p => p.id == id
def State.modPass (s : State) (id : Nat) (f : Pass → Pass) : State :=
  { s with passes := s.passes.map fun p => if p.id == id then f p else p }

/-! ## Completion (R97, R122, R139, R149) -/

/-- Dies of the column operands of an operation: a run of one granule lies on one die (R35). -/
def claimDies (o : PickOp) : List Nat :=
  (o.claims.flatMap fun c => if c.n = 1 then [2 * c.pair + c.q % 2] else [2 * c.pair, 2 * c.pair + 1]).eraseDups

/-- A die that an operation's column operands touch. -/
def opDies (o : PickOp) (d : Nat) : Bool := (claimDies o).contains d

/-- An operation leaves its pick: it is out of the streams and the window, its claims are gone, and the counts move. -/
def pickGone (s : State) (g : Nat) (o : PickOp) (st : Byte) : State :=
  let out (l : List PickOp) : List PickOp := l.filter fun x => x.uid ≠ o.uid
  let t := s.modCol g fun c =>
    { c with window := out c.window, seqQ := out c.seqQ, dirQ := out c.dirQ, opsDone := c.opsDone + 1, lastStatus := st,
             lastActive := if o.started.isSome then s.now else c.lastActive,
             segs := if st = stOk then c.segs else voidSweeps c.segs (opDies o) }
  let u := t.modStack (stackOf g) fun k => { k with opsDone := k.opsDone + 1 }
  innerDrop u fun w => w == .pick o.uid

/-- The slot of a direct record is DONE, after the ADD of its notify (R97). -/
def slotDone (s : State) (g k : Nat) (o : PickOp) (st : Byte) : State :=
  let (t, ts) := if recNotify o.record then tallyOp s (pickCode g) o.ctx.toNat (.virt (recTally o.record)) topAdd 1
                 else (s, stOk)
  let cycles := match o.started with
    | some a => s.now - a
    | none => 0
  t.modCol g fun c =>
    { c with slots := tset {} c.slots k { (tget {} c.slots k) with
        state := 3, status := if ts = stOk then st else ts, assay := o.assay, cycles := satAdd 0 cycles } }

/-- The record of an operation of a pass is done. -/
def passOpDone (s : State) (pid idx : Nat) (o : PickOp) (st : Byte) : State :=
  s.modPass pid fun p =>
    { p with assay := assayAdd p.assay o.assay,
             ops := p.ops.map fun x => if x.idx = idx then { x with done := true, status := st } else x }

/-- An operation completes with a status; nothing else of its pass is touched. -/
def pickEnd1 (s : State) (g : Nat) (o : PickOp) (st : Byte) : State :=
  let t := pickGone s g o st
  match o.owner with
  | .slot k => slotDone t g k o st
  | .pass pid idx => passOpDone t pid idx o st

/-- Two operations of a pass share an output row. -/
def rowsShare (a b : PassOp) : Bool := decide (a.row0 < b.row0 + b.rows) && decide (b.row0 < a.row0 + a.rows)

/-- The operation of a pass where it now stands in its pick. -/
def passOpOf (s : State) (pid : Nat) (x : PassOp) : Option PickOp :=
  let c := s.col x.col
  (c.window ++ c.seqQ).find? fun o => o.owner == .pass pid x.idx

/-- The work of an operation is done and its cycles have passed: it is complete, but for the row that says so (R117). -/
def opFinished (s : State) (o : PickOp) : Bool :=
  match o.started with
  | some a => o.done && decide (a + o.cost + o.delay ≤ s.now)
  | none => false

/-- End an operation of a pass that stands in its pick, with a status unless it is complete. -/
def passOpEnd (s : State) (pid : Nat) (x : PassOp) (st : Byte) : State :=
  match passOpOf s pid x with
  | none => s
  | some o => pickEnd1 s x.col o (if opFinished s o then o.status else st)

/-- What the failure of one operation of a pass completes with it (R139, R149). -/
def passFail (s : State) (pid idx : Nat) (st : Byte) : State :=
  match s.pass pid with
  | none => s
  | some p =>
    match p.ops.find? fun x => x.idx == idx with
    | none => s
    | some a =>
      let hit (x : PassOp) : Bool :=
        if st = stOk || st = stPoison then false
        else if st = stFenced then x.group == a.group
        else rowsShare a x && (a.load || !x.load)
      (p.ops.filter fun x => !x.done && hit x).foldl (fun t x => passOpEnd t pid x st) s

/-- An operation completes with a status (R97, R101, R139, R149). -/
def pickEnd (s : State) (g : Nat) (o : PickOp) (st : Byte) : State :=
  let t := pickEnd1 s g o st
  match o.owner with
  | .slot _ => t
  | .pass pid idx => passFail t pid idx st

/-! ## Claims and resources (R104, R122) -/

/-- Two claims conflict: they share a row and one of them writes. -/
def claimConflict (a b : Claim) : Bool :=
  a.pair == b.pair && decide (a.q < b.q + b.n) && decide (b.q < a.q + a.n) && (a.write || b.write)

/-- Some claim of one list conflicts with some claim of another. -/
def claimsConflict (as bs : List Claim) : Bool := as.any fun a => bs.any fun b => claimConflict a b

/-- An operation of the direct stream. -/
def isDirect (o : PickOp) : Bool :=
  match o.owner with
  | .slot _ => true
  | .pass _ _ => false

/-- Entries of an operation: first and count. -/
def entryRange (r : BitVec 512) : Nat × Nat :=
  let a := (selected (recSlots r)).length
  if recOp r = opPmv || (recOp r = opPmvk && !recExact r) then (recResBase r, a * recNout r)
  else if recOp r = opPfold && recExact r then (recResBase r, if recFn r = 3 then a else 0)
  else if recOp r = opPfold || (recOp r = opPdrain && !usesAccs r) then (recResBase r, recNout r)
  else (0, 0)

/-- Two entry ranges meet. -/
def rangesMeet (a b : Nat × Nat) : Bool := decide (a.1 < b.1 + b.2) && decide (b.1 < a.1 + a.2)

/-- The operation uses the vector buffer; the accumulators. -/
def usesVbuf (r : BitVec 512) : Bool := recOp r == opPload || recOp r == opPmv || recOp r == opPmvk
def usesAccRes (r : BitVec 512) : Bool := usesAccs r || (recExact r && (recOp r == opPmv || recOp r == opPmvk))

/-- Two operations share a resource (R104). -/
def sharesRes (a b : PickOp) : Bool :=
  (a.claims ≠ [] && b.claims ≠ []) || claimsConflict a.claims b.claims || (usesVbuf a.record && usesVbuf b.record) ||
  (usesAccRes a.record && usesAccRes b.record) || rangesMeet (entryRange a.record) (entryRange b.record)

/-! ## Checks (Table 4.14) -/

/-- Static part of check 3. -/
def check3 (r : BitVec 512) (direct : Bool) : Bool :=
  opFnOk (recOp r) (recFn r) && !((recOp r == opPmv || recOp r == opPmvk) && (wfmtOf (recWfmt r)).isNone) &&
  !(recOp r == opPload && recFn r == 0 && direct) && !(recOp r == opPfold && !recExact r && recDown r)

/-- A column operand is aligned to a granule and stays in its page. -/
def colRunOk (va n : Nat) : Bool := decide (va % 2048 = 0) && decide (va % 2 ^ 24 / 2048 + n ≤ 8192)

/-- Output format that a PDRAIN of entries will find, as far as its admission can tell: that of the latest admitted operation that
writes them, else theirs. Its length is checked and claimed with it (DESIGN CHOICE, log entry 141). -/
def drainFmt (c : Col) (r : BitVec 512) : Nat :=
  let w := c.window.reverse.find? fun o =>
    (recOp o.record == opPmv || (recOp o.record == opPfold && recFn o.record == 3)) &&
      rangesMeet (entryRange o.record) (recResBase r, recNout r)
  match w with
  | some o => recOfmt o.record
  | none => bitsAt (tget 0 c.entries (recResBase r)) 33 32

/-- Bytes that a PDRAIN writes. -/
def drainBytes (c : Col) (r : BitVec 512) : Nat :=
  if usesAccs r then 136 * (selected (recSlots r)).length
  else if recFn r = 2 then 8 * recNout r
  else packedBytes (drainFmt c r) (recNout r)

/-- Check 5: the limits that each operation's rule states, and its column runs. -/
def check5 (c : Col) (r : BitVec 512) : Bool :=
  let op := recOp r
  let n := recSrcN r
  let a := (selected (recSlots r)).length
  if op = opPcopy then decide (1 ≤ n) && decide (n ≤ 8192) && colRunOk (recSrcVa r) n && colRunOk (recDstVa r) n
  else if op = opPinit then decide (1 ≤ n) && decide (n ≤ 8192) && colRunOk (recDstVa r) n
  else if op = opPlogic then
    decide (1 ≤ n) && decide (n ≤ 8192) && colRunOk (recSrcVa r) n && (recFn r == 4 || colRunOk (recAuxVa r) n) &&
      colRunOk (recDstVa r) n
  else if op = opPload then
    decide (recVoff r % 32 = 0) && a ≠ 0 && ((selected (recSlots r)).all fun x => decide (x < layoutSlots (recLayout r))) &&
      decide (recVoff r + recK r ≤ slotCapacity (recLayout r) (recAfmt r)) &&
      (recFn r ≠ 0 || decide (recSrcVa r < 4096)) && (recFn r ≠ 1 || colRunOk (recSrcVa r) (ceilDiv (loadBytes r) 2048))
  else if op = opPmv || op = opPmvk then
    match wfmtOf (recWfmt r) with
    | none => false
    | some w =>
      let nd := dataRows w (recNout r) (recKstride r)
      decide (1 ≤ recK r) && decide (recK r ≤ recKstride r) && decide (recKstride r % w.unit = 0) &&
        decide (1 ≤ recNout r) && decide (recNout r ≤ 512) && decide (recVoff r % 32 = 0) &&
        (if op = opPmvk && recExact r then decide (a * recNout r ≤ 8) else decide (recResBase r + a * recNout r ≤ 512)) &&
        colRunOk (recSrcVa r) nd && (w.q == 0 || colRunOk (recAuxVa r) (scaleRows w nd))
  else if op = opPfold then
    if recExact r then a ≠ 0 && (recFn r ≠ 3 || decide (recResBase r + a ≤ 512))
    else decide (1 ≤ recNout r) && decide (recNout r ≤ 512) && decide (recResBase r + recNout r ≤ 512)
  else if op = opPdrain then
    if usesAccs r then a ≠ 0
    else decide (1 ≤ recNout r) && decide (recNout r ≤ 512) && decide (recResBase r + recNout r ≤ 512) &&
      (recFn r ≠ 1 || colRunOk (recDstVa r) (ceilDiv (drainBytes c r) 2048))
  else true

/-- A column operand (R39): its module address, or the status; a refused translation or right is counted and logged (R41). -/
def colOperand (s : State) (g c va : Nat) (wr : Bool) (tag : W16) : State × Xl :=
  match translate s c va 2048 wr false with
  | .fail st => (xlateRefused s (.unit (pickCode g)) c va st tag, .fail st)
  | .pa pa =>
    let pn := pa / 2 ^ 24
    if isDramPage pn && striped s pn then (s, .fail stMode)
    else if !isDramPage pn || homeCol pn ≠ g then (placeRefused s (.unit (pickCode g)) c va stProt tag, .fail stProt)
    else (s, .pa pa)

/-- A hub-side operand (R102): face SRAM or a DRAM page, checked under R32 and R33. -/
def hubOperand (s : State) (code : W16) (c va n : Nat) (wr : Bool) (tag : W16) : State × Xl :=
  match translate s c va n wr false with
  | .fail st => (xlateRefused s (.unit code) c va st tag, .fail st)
  | .pa pa =>
    let pn := pa / 2 ^ 24
    let st := if isDramPage pn || isSramPage pn then paCheck s pa n else stProt
    if st = stOk then (s, .pa pa) else (placeRefused s (.unit code) c va st tag, .fail st)

/-- The operands of an operation that its record names. -/
inductive Operand where
  | src (va n : Nat)
  | aux (va n : Nat)
  | dst (va n : Nat)
  /-- Hub-side source and destination, in bytes. -/
  | hubSrc (va n : Nat)
  | hubDst (va n : Nat)
  deriving DecidableEq, Repr

/-- The operands in the order of check 6. -/
def operandsOf (c : Col) (r : BitVec 512) : List Operand :=
  let op := recOp r
  let n := recSrcN r
  if op = opPcopy then [.src (recSrcVa r) n, .dst (recDstVa r) n]
  else if op = opPinit then [.dst (recDstVa r) n]
  else if op = opPlogic then
    [.src (recSrcVa r) n] ++ (if recFn r = 4 then [] else [.aux (recAuxVa r) n]) ++ [.dst (recDstVa r) n]
  else if op = opPload then
    let b := loadBytes r
    if recFn r = 1 && b ≠ 0 then [.src (recSrcVa r) (ceilDiv b 2048)]
    else if recFn r = 2 then [.hubSrc (recSrcVa r) b]
    else []
  else if op = opPmv || op = opPmvk then
    match wfmtOf (recWfmt r) with
    | none => []
    | some w =>
      let nd := dataRows w (recNout r) (recKstride r)
      [.src (recSrcVa r) nd] ++ (if w.q = 0 then [] else [.aux (recAuxVa r) (scaleRows w nd)])
  else if op = opPdrain then
    let b := drainBytes c r
    if recFn r = 1 then [.dst (recDstVa r) (ceilDiv b 2048)] else [.hubDst (recDstVa r) b]
  else []

/-- The claim of a column run. -/
def runClaim (pa n : Nat) (wr : Bool) : Claim := ⟨homePair (pa / 2 ^ 24), pa % 2 ^ 24 / 2048, n, wr⟩

/-- Check 6: every operand in order; addresses and claims enter the operation. -/
def takeOperands (g : Nat) : List Operand → State × PickOp → State × PickOp × Byte
  | [], (s, o) => (s, o, stOk)
  | x :: xs, (s, o) =>
    let c := o.ctx.toNat
    match x with
    | .src va n =>
      match colOperand s g c va false o.tag with
      | (t, .fail st) => (t, o, st)
      | (t, .pa pa) => takeOperands g xs (t, { o with srcPa := pa, claims := o.claims ++ [runClaim pa n false] })
    | .aux va n =>
      match colOperand s g c va false o.tag with
      | (t, .fail st) => (t, o, st)
      | (t, .pa pa) => takeOperands g xs (t, { o with auxPa := pa, claims := o.claims ++ [runClaim pa n false] })
    | .dst va n =>
      match colOperand s g c va true o.tag with
      | (t, .fail st) => (t, o, st)
      | (t, .pa pa) => takeOperands g xs (t, { o with dstPa := pa, claims := o.claims ++ [runClaim pa n true] })
    | .hubSrc va n =>
      match hubOperand s (pickCode g) c va n false o.tag with
      | (t, .fail st) => (t, o, st)
      | (t, .pa pa) => takeOperands g xs (t, { o with srcPa := pa })
    | .hubDst va n =>
      match hubOperand s (pickCode g) c va n true o.tag with
      | (t, .fail st) => (t, o, st)
      | (t, .pa pa) => takeOperands g xs (t, { o with dstPa := pa })

/-- Check 7: the destination run shares a row with a source run and is not identical to it. -/
def overlaps (o : PickOp) : Bool :=
  o.claims.any fun w => w.write && o.claims.any fun r => !r.write && r.pair == w.pair && decide (r.q < w.q + w.n) &&
    decide (w.q < r.q + r.n) && !(r.q == w.q && r.n == w.n)

/-- The checks of Table 4.14 at admission, but for check 8: the state with what they log, the operation with its operands,
and the status. -/
def admissionChecks (s : State) (g : Nat) (o : PickOp) : State × PickOp × Byte :=
  let c := s.col g
  let r := o.record
  if c.fenced || c.retired then (s, o, stFenced)
  else if c.mode ≠ .pick then (s, o, stMode)
  else if !check3 r (isDirect o) then (s, o, stMode)
  else if usesExact r && recExact r && !licensed s 1 then
    (logRefused s (.unit (pickCode g)) o.ctx stLicence 2 o.tag, o, stLicence)
  else if !check5 c r then (s, o, stOob)
  else
    let (t, o', st) := takeOperands g (operandsOf c r) (s, { o with claims := [] })
    if st ≠ stOk then (t, o, st)
    else if overlaps o' then (t, o, stOverlap)
    else (t, o', stOk)

/-- Operations that a PFENCE waits for (R114). -/
def fenceWaits (c : Col) (o : PickOp) : List Nat :=
  if recOp o.record = opPfence then
    (c.window.filter fun x =>
      (isDirect x == isDirect o) || bitAt o.record 21 ||
      (bitAt o.record 20 && recOp x.record == opPdrain && recFn x.record ≠ 1)).map (·.uid)
  else []

/-- Sequencer operations of a stack that are admitted and not complete (Table 1.4). -/
def seqOutstanding (s : State) (n : Nat) : Nat :=
  ((s.cols.filter fun p => stackOf p.1 == n).map fun p => (p.2.window.filter fun o => !isDirect o).length).sum

/-- Admit the head of a stream, or complete it where a check fails; a sequencer operation whose claims conflict with a direct
record is held (R103, R122). The checks are made at admission, so only while the window has room (R101, R103). None: nothing can be
done with this stream now. -/
def admitHead (s : State) (g : Nat) (seq : Bool) : Option State :=
  let c := s.col g
  match (if seq then c.seqQ else c.dirQ) with
  | [] => none
  | o :: _ =>
    if 5 ≤ c.window.length || (seq && decide (1024 ≤ seqOutstanding s (stackOf g))) then none
    else
    let (t, o', st) := admissionChecks s g o
    if st ≠ stOk then some (pickEnd t g o st)
    else
      let others := ((t.col g).window.filter fun x => isDirect x == seq).flatMap (·.claims)
      if claimsConflict o'.claims others then
        if seq then none
        else some (pickEnd (t.modStack (stackOf g) fun k => { k with directRefusals := satInc k.directRefusals }) g o stClaim)
      else
        let (q, u) := t.newReq
        let a := { o' with req := q, waitsFor := fenceWaits c o' }
        some (u.modCol g fun k =>
          { k with window := k.window ++ [a], lastSeq := seq,
                   seqQ := if seq then k.seqQ.drop 1 else k.seqQ, dirQ := if seq then k.dirQ else k.dirQ.drop 1,
                   slots := match a.owner with
                     | .slot n => tset {} k.slots n { (tget {} k.slots n) with state := 2 }
                     | .pass _ _ => k.slots })

/-- PICK_ADMISSION (R101, R103): the streams alternate, the sequencer stream first. Work waits while the base die's domain is not
ON (R406). -/
def pickAdmission (s : State) (g : Nat) : State :=
  if domainOn s (18 + stackOf g) then
    let first := !(s.col g).lastSeq
    match admitHead s g first with
    | some t => t
    | none => (admitHead s g (!first)).getD s
  else s

/-- PICK_ADMISSION (R103). -/
def execPickAdmission (g : PickId) (s : State) : Result := .next (pickAdmission s g.val)

/-! ## Start (R101, R104, R118, R121) -/

/-- Kind of an entry. -/
def entryKind (e : W64) : Nat := bitsAt e 63 62

/-- A partial matches a continuation (R111). -/
def partialMatches (p : Partials) (o : PickOp) : Bool :=
  p.seqStream == !isDirect o && p.slots == recSlots o.record && p.nout == recNout o.record &&
    p.resBase == recResBase o.record && p.exact == recExact o.record

/-- State-dependent part of check 3. -/
def startCheck (c : Col) (o : PickOp) : Bool :=
  let r := o.record
  if recOp r = opPmv || recOp r = opPmvk then
    recAfmt r == c.afmt.toNat && ((selected (recSlots r)).all fun x => decide (x < layoutSlots c.layout.toNat)) &&
      decide (recVoff r + recK r ≤ slotCapacity c.layout.toNat c.afmt.toNat) &&
      (!recAcc r || c.partials.any fun p => partialMatches p o)
  else if (recOp r = opPfold || recOp r = opPdrain) && !usesAccs r then
    let es := (List.range (recNout r)).map fun i => tget 0 c.entries (recResBase r + i)
    let kind := if recOp r = opPfold || recFn r = 2 then 2 else 1
    (es.all fun e => entryKind e == kind) &&
      (kind == 2 || es.all fun e => bitsAt e 33 32 == bitsAt (es.headD 0) 33 32) &&
      !(recOp r == opPdrain && recFn r == 1 && es.any fun e => decide (1 < bitsAt e 33 32))
  else true

/-- Die of granule i of a run. -/
def granDie (pa i : Nat) : Nat := 2 * homePair (pa / 2 ^ 24) + (pa % 2 ^ 24 / 2048 + i) % 2

/-- Row steps that follow one on the same die (R118). -/
def sameDie : List Nat → Nat
  | a :: b :: t => (if a = b then 1 else 0) + sameDie (b :: t)
  | _ => 0

/-- Dies of the row steps of an operation, in order. -/
def stepDies (o : PickOp) : List Nat :=
  let r := o.record
  let n := recSrcN r
  if recOp r = opPcopy then (List.range n).flatMap fun i => [granDie o.srcPa i, granDie o.dstPa i]
  else if recOp r = opPinit then (List.range n).map fun i => granDie o.dstPa i
  else if recOp r = opPlogic then
    (List.range n).flatMap fun i =>
      [granDie o.srcPa i] ++ (if recFn r = 4 then [] else [granDie o.auxPa i]) ++ [granDie o.dstPa i]
  else if recOp r = opPmv || recOp r = opPmvk then
    match wfmtOf (recWfmt r) with
    | none => []
    | some w =>
      let nd := dataRows w (recNout r) (recKstride r)
      if w.q = 0 then (List.range nd).map fun i => granDie o.srcPa i
      else (List.range (scaleRows w nd)).flatMap fun m =>
        granDie o.auxPa m :: (List.range (min w.q (nd - m * w.q))).map fun i => granDie o.srcPa (m * w.q + i)
  else if recOp r = opPload then (o.claims.flatMap fun c => (List.range c.n).map fun i => granDie o.srcPa i)
  else o.claims.flatMap fun c => (List.range c.n).map fun i => granDie o.dstPa i

/-- Least cycles of an operation (Table 4.15); the ones that wait for outside data get their cost when it comes. -/
def opCost (c : Col) (o : PickOp) : Nat :=
  let r := o.record
  let same := 24 * sameDie (stepDies o)
  let a := (selected (recSlots r)).length
  let op := recOp r
  if op = opPcopy then 24 + 128 * recSrcN r + same
  else if op = opPinit then 24 + 64 * recSrcN r + same
  else if op = opPlogic then 24 + (if recFn r = 4 then 128 else 192) * recSrcN r + same
  else if op = opPload then
    if recFn r = 1 then 24 + 64 * ceilDiv (loadBytes r) 2048 + same else 16 + ceilDiv (loadBytes r) 128
  else if op = opPmv || op = opPmvk then
    let h := if recExact r && decide (5 ≤ a) then 2 else 1
    40 + h * 64 * (stepDies o).length + same + (if op = opPmv then ceilDiv (a * recNout r) 8 else 0)
  else if op = opPfold then 8
  else if op = opPdrain then
    if recFn r = 1 then 24 + 64 * ceilDiv (drainBytes c r) 2048 + same else 16 + ceilDiv (drainBytes c r) 8
  else 1

/-- Every pick of a stack has been idle for 20 µs (R121). -/
def stackIdle (s : State) (n : Nat) : Bool :=
  decide (20 * usCycles ≤ s.now) && s.cols.all fun p =>
    stackOf p.1 ≠ n || ((p.2.window.all fun o => o.started.isNone) && decide (p.2.lastActive + 20 * usCycles ≤ s.now))

/-- The stagger lets a pick activate now: its first activation in the window waits for its place in it (R121). -/
def staggerOk (s : State) (g : Nat) : Bool :=
  match (s.stack (stackOf g)).staggerAt with
  | none => true
  | some t0 =>
    decide (t0 + 1575 ≤ s.now) || stackIdle s (stackOf g) || decide (t0 + 25 * (pickOf g / 8) ≤ s.now) ||
      (match (s.col g).portAt with
       | some a => decide (t0 ≤ a)
       | none => false)

/-- The i-th admitted operation can start: the earlier ones have started, those that share a resource have completed, and the
stagger and the issue duty let it (R121, R420). A PFENCE starts at once. -/
def canStart (s : State) (g i : Nat) : Bool :=
  let c := s.col g
  match c.window[i]? with
  | none => false
  | some o =>
    o.started.isNone && ((c.window.take i).all fun x => x.started.isSome && !sharesRes x o) &&
      (o.claims = [] || (staggerOk s g && dutyOpen (dutyOf s (stackOf g)) s.now))

/-- Put an operation back into the window. -/
def putOp (s : State) (g : Nat) (o : PickOp) : State :=
  s.modCol g fun c => { c with window := c.window.map fun x => if x.uid = o.uid then o else x }

/-- PICK_OPERATION_START (R104). -/
def pickStart (s : State) (g i : Nat) : State :=
  if canStart s g i then
    let c := s.col g
    match c.window[i]? with
    | none => s
    | some o =>
      if startCheck c o then
        let t := if o.claims = [] then s
          else (if stackIdle s (stackOf g) then s.modStack (stackOf g) fun k => { k with staggerAt := some s.now } else s).modCol g
            fun c => { c with portAt := some s.now }
        putOp t g { o with started := some s.now, lastData := s.now, cost := opCost c o, stepAt := s.now + 24 }
      else pickEnd s g o stMode
  else s

/-- PICK_OPERATION_START (R104). -/
def execPickOperationStart (g : PickId) (i : Fin 5) (s : State) : Result := .next (pickStart s g.val i.val)

/-- PICK_OPERATION_COMPLETION (R97): the operation's work is done and its cycles have passed (R117). -/
def pickCompletion (s : State) (g i : Nat) : State :=
  match (s.col g).window[i]? with
  | none => s
  | some o =>
    if opFinished s o then pickEnd s g o o.status else s

/-- PICK_OPERATION_COMPLETION (R97). -/
def execPickOperationCompletion (g : PickId) (i : Fin 5) (s : State) : Result := .next (pickCompletion s g.val i.val)

/-! ## The aperture (R95 to R99) -/

/-- Pick status word (Table 4.9). -/
def statusWord (c : Col) : Nat :=
  let dead := c.fenced || c.retired
  c.opsDone.toNat * 2 ^ 32 + c.lastStatus.toNat * 2 ^ 24 + (c.window.flatMap (·.claims)).length * 2 ^ 16 +
    (if dead then 0 else c.window.length) * 2 ^ 12 + c.afmt.toNat * 2 ^ 10 + c.layout.toNat * 2 ^ 8 + modeCode c

/-- Slot status record (Table 4.10). -/
def slotRecord (x : SlotRec) : Nat :=
  x.cycles.toNat * 2 ^ 96 + x.seq.toNat * 2 ^ 80 + x.state.toNat * 2 ^ 72 + x.status.toNat * 2 ^ 64 + x.assay.toNat

/-- Byte of an accumulator's 256 B region. -/
def accByte (c : Col) (i : Nat) : Byte :=
  let a := tget 0 c.accs (i / 256)
  let j := i % 256
  if j < 128 then BitVec.ofNat 8 (bitsAt a (8 * j + 7) (8 * j))
  else if j = 128 then BitVec.ofNat 8 (tget 0 c.accFlags (i / 256)).toNat
  else 0

/-- Regions of Table 4.7. -/
inductive Region where
  | slots | status | slotStatus | entries | vbuf | scales | accs
  deriving DecidableEq, Repr

/-- The region that holds a whole request, and the offset in it. -/
def regionOf (off len : Nat) : Option (Region × Nat) :=
  if off < 0x400 && off + len ≤ 0x400 then some (.slots, off)
  else if 0x100000 ≤ off && off < 0x100008 && off + len ≤ 0x100008 then some (.status, off - 0x100000)
  else if 0x100040 ≤ off && off < 0x100140 && off + len ≤ 0x100140 then some (.slotStatus, off - 0x100040)
  else if 0x200000 ≤ off && off < 0x201000 && off + len ≤ 0x201000 then some (.entries, off - 0x200000)
  else if 0x300000 ≤ off && off < 0x310000 && off + len ≤ 0x310000 then some (.vbuf, off - 0x300000)
  else if 0x310000 ≤ off && off < 0x310800 && off + len ≤ 0x310800 then some (.scales, off - 0x310000)
  else if 0x400000 ≤ off && off < 0x400800 && off + len ≤ 0x400800 then some (.accs, off - 0x400000)
  else none

/-- Bytes o to o + n - 1 of a region, with their marks. -/
def regionBytes (c : Col) (rg : Region) (o n : Nat) : List PByte :=
  (List.range n).map fun i =>
    let j := o + i
    match rg with
    | .slots => (0, false)
    | .status => (BitVec.ofNat 8 (statusWord c / 256 ^ j), false)
    | .slotStatus => (BitVec.ofNat 8 (slotRecord (tget {} c.slots (j / 16)) / 256 ^ (j % 16)), false)
    | .entries => (BitVec.ofNat 8 ((tget 0 c.entries (j / 8)).toNat / 256 ^ (j % 8)), false)
    | .vbuf => (tget 0 c.vbuf j, tget false c.vmark j)
    | .scales => (tget 0x7F c.scales j, tget false c.smark j)
    | .accs => (accByte c j, false)

/-- A read within an aperture page: status and data (R95, R98, R99). -/
def apertureRead (s : State) (g off len : Nat) : Byte × List Byte :=
  let c := s.col g
  match regionOf off len with
  | none => (stOob, [])
  | some (rg, o) =>
    let bs := regionBytes c rg o len
    let free := match rg with
      | .slots => true
      | .status => true
      | .slotStatus => true
      | _ => c.window = [] && !computeBusy s
    if !free then (stBusy, [])
    else (if anyPoison bs then stPoison else stOk, hidePoison bs)

/-- A write within an aperture page by a requester with the pick-direct right (R95, R96). The whole slot record starts anew at the
acceptance: its `cycles` read 0 from then on (DESIGN CHOICE, log entry 140). -/
def apertureWrite (s : State) (g off : Nat) (data : List Byte) (ctx : BitVec 6) : State × Byte :=
  let c := s.col g
  match regionOf off data.length with
  | none => (s, stOob)
  | some (.slots, o) =>
    let k := o / 64
    let x := tget {} c.slots k
    if data.length ≠ 64 || o % 64 ≠ 0 then (s, stOob)
    else if computeBusy s then (s, stBusy)
    else if c.fenced || c.retired then (s, stFenced)
    else if c.mode ≠ .pick then (s, stMode)
    else if x.state = 1 || x.state = 2 then (s, stBusy)
    else
      let r : BitVec 512 := BitVec.ofNat 512 (leNat data)
      let (u, t) := (wakeDomain s (18 + stackOf g)).newReq
      (t.modCol g fun c =>
        { c with slots := tset {} c.slots k { state := 1, seq := recSeq r, record := r },
                 dirQ := c.dirQ ++ [{ uid := u, record := r, ctx := ctx, owner := .slot k }] }, stOk)
  | some _ => (s, stProt)

end Sys2Proof.Machine
end

