-- ==== Sys2Proof/Machine/Unit.lean ====
section
/-! DEFINITION. What the module's own units share: ranges of context-virtual memory, translated page by page (R51), and the
operations of a step as their executors see them (R231 to R241). -/

namespace Sys2Proof.Machine

/-! ## Source codes of Table 9.1 -/

abbrev codeQueueEngine : W16 := 0x80
abbrev codeForeman : W16 := 0x81
/-- The code of the shaft sequencer of a stack. -/
def codeSequencer (n : Nat) : W16 := BitVec.ofNat 16 (0x88 + n)
abbrev codeCollar : W16 := 0x98
/-- The code of a logical face. -/
def codeFace (l : Nat) : W16 := BitVec.ofNat 16 (0x100 + l)

/-! ## Ranges (R40, R51) -/

/-- Pages a range of addresses touches: none when it is empty. -/
def pageCount (va len : Nat) : Nat := if len = 0 then 0 else (va % 2 ^ 24 + len - 1) / 2 ^ 24 + 1

/-- A range of addresses cut at page ends. -/
def rangePieces (va len : Nat) : List (Nat × Nat) :=
  (List.range (pageCount va len)).map fun i =>
    let a := if i = 0 then va else (va / 2 ^ 24 + i) * 2 ^ 24
    let e := min (va + len) ((va / 2 ^ 24 + i + 1) * 2 ^ 24)
    (a % 2 ^ 40, e - a)

/-- Memory that a unit reads and writes by module address: DRAM, face SRAM, queue memory. -/
def isMemory (pa : Nat) : Bool :=
  isDramPage (pa / 2 ^ 24) || isSramPage (pa / 2 ^ 24) || (isQueuePage (pa / 2 ^ 24) && decide (pa % 2 ^ 24 < 0x400000))

/-- Translate pieces in order: their accesses, or the first failing status, counted and logged (R41, R32). Pages that are no memory are
refused with PROT (log entry 30). -/
def mapPieces (s : State) (code : W16) (tag : W16) (c : Nat) (wr : Bool) : List (Nat × Nat) → State × Byte × List Acc
  | [] => (s, stOk, [])
  | (va, n) :: ps =>
    match translate s c va n wr false with
    | .fail st => (xlateRefused s (.unit code) c va st tag, st, [])
    | .pa pa =>
      let st := if paCheck s pa n ≠ stOk then paCheck s pa n else if isMemory pa then stOk else stProt
      if st ≠ stOk then (placeRefused s (.unit code) c va st tag, st, [])
      else
        let (t, st2, as) := mapPieces s code tag c wr ps
        (t, st2, ⟨pa, n, wr⟩ :: as)

/-- Translate a range of several requests, cut at page ends. -/
def mapRange (s : State) (code : W16) (tag : W16) (c va len : Nat) (wr : Bool) : State × Byte × List Acc :=
  mapPieces s code tag c wr (rangePieces va len)

/-- Translate several ranges with their directions. -/
def mapRanges (s : State) (code : W16) (tag : W16) (c : Nat) : List (Nat × Nat × Bool) → State × Byte × List Acc
  | [] => (s, stOk, [])
  | (va, n, wr) :: rs =>
    let (t, st, as) := mapRange s code tag c va n wr
    if st ≠ stOk then (t, st, [])
    else
      let (u, st2, bs) := mapRanges t code tag c rs
      (u, st2, as ++ bs)

/-- Access i of a unit to pieces of context-virtual memory, translated once when it begins (R46): its bytes, or a failing status. -/
def pieceAccess (s : State) (r : Req) (i va : Nat) (wr : Bool) (ps : List (Nat × Nat)) (data : List PByte) :
    Chk (Byte × List PByte) :=
  if (innerXfer s r.who i).isSome then innerResult s r.who i
  else
    let (t, st, as) := mapPieces s r.code r.tag r.ctx.toNat wr ps
    if st ≠ stOk then .fail st t else innerAccess t r i va wr as data

/-- Bytes of an access, or the status with which it did nothing. -/
def accessBytes (x : Chk (Byte × List PByte)) : Chk (List PByte) :=
  x.andThen fun t y => if stBad y.1 then .fail y.1 t else .ok t y.2

/-- A unit reads a range as access i, in as many requests as its pages ask for. -/
def fetchRange (s : State) (r : Req) (i va len : Nat) : Chk (List PByte) :=
  accessBytes (pieceAccess s r i va false (rangePieces va len) [])

/-- A unit reads a range as one request: a range past the end of its page is OOB (R40). -/
def fetchOne (s : State) (r : Req) (i va len : Nat) : Chk (List PByte) := accessBytes (pieceAccess s r i va false [(va, len)] [])

/-- POISON as a failing status. -/
def cleanOnly (x : Chk (List PByte)) : Chk (List PByte) :=
  x.andThen fun t bs => if anyPoison bs then .fail stPoison t else .ok t bs

/-- A unit writes a range as access i; its worst status. -/
def storeRange (s : State) (r : Req) (i va : Nat) (bs : List PByte) : Chk Byte :=
  (pieceAccess s r i va true (rangePieces va bs.length) bs).andThen fun t y => .ok t y.1

/-- The number that plain bytes spell. -/
def pbNat (bs : List PByte) : Nat := leNat (bs.map (·.1))

/-! ## Operations of a step (Tables 8.5 and 8.6) -/

def hdrOp (d : BitVec 512) : Nat := bitsAt d 7 0
def hdrHold (d : BitVec 512) : Bool := bitAt d 8
def hdrWait (d : BitVec 512) : Bool := bitAt d 9
def hdrWcons (d : BitVec 512) : Bool := bitAt d 10
def hdrSig (d : BitVec 512) : Bool := bitAt d 11
def hdrTag (d : BitVec 512) : W16 := BitVec.ofNat 16 (bitsAt d 31 16)
def hdrWtally (d : BitVec 512) : W16 := BitVec.ofNat 16 (bitsAt d 79 64)
def hdrStally (d : BitVec 512) : W16 := BitVec.ofNat 16 (bitsAt d 95 80)
def hdrWval (d : BitVec 512) : W32 := BitVec.ofNat 32 (bitsAt d 127 96)

abbrev sopEnd : Nat := 0x01
abbrev sopEmit : Nat := 0x02
abbrev sopJump : Nat := 0x03
abbrev sopSetn : Nat := 0x04
abbrev sopSignal : Nat := 0x05
abbrev sopWaitw : Nat := 0x06
abbrev sopTask : Nat := 0x10
abbrev sopLode : Nat := 0x11
abbrev sopScore : Nat := 0x12
abbrev sopValue : Nat := 0x13
abbrev sopMerge : Nat := 0x14

/-- The descriptor of an operation of a step. -/
def stepDesc (x : StepRun) (i : Nat) : BitVec 512 := (x.prog[i]?).getD 0

/-- Put a changed operation back into its step. -/
def putStepOp (s : State) (q : Nat) (o : StepOp) : State :=
  match (s.queue q).step with
  | none => s
  | some x => s.modQueue q fun k => { k with step := some { x with ops := x.ops.map fun y => if y.seq = o.seq then o else y } }

/-- An operation of a step has ended with a status and an assay word; its completion follows. -/
def stepOpDone (s : State) (q seq : Nat) (st : Byte) (assay : W64) : State :=
  match (s.queue q).step with
  | none => s
  | some x =>
    match x.ops.find? fun o => o.seq == seq with
    | none => s
    | some o => putStepOp s q { o with begun := true, done := true, status := st, assay := assay }

/-- The oldest dispatched operation of a queue's step with a code that its executor has not taken up. -/
def nextStepOp (s : State) (q op : Nat) : Option (StepRun × StepOp × BitVec 512) :=
  match (s.queue q).step with
  | none => none
  | some x =>
    (x.ops.find? fun o => !o.begun && !o.done && hdrOp (stepDesc x o.index) == op).map fun o => (x, o, stepDesc x o.index)

/-- Waits of an operation's executor are told apart by its dispatch number. -/
def opWaiter (o : StepOp) : Waiter := .op o.order

/-- What an operation's executor accessed is forgotten. -/
def opDrop (s : State) (o : StepOp) : State := innerDrop s fun w => w == opWaiter o

/-- The byte at `smask_va` of a LODE, read by the foreman at its dispatch (R235): its access 1000. -/
def maskRead (s : State) (x : StepRun) (o : StepOp) (d : BitVec 512) : Chk (List PByte) :=
  cleanOnly (fetchOne s ⟨opWaiter o, codeForeman, x.ctx, hdrTag d⟩ 1000 (bitsAt d 343 304) 1)

/-- A LODE takes its slot mask from memory (R235). -/
def maskIndirect (d : BitVec 512) : Bool := hdrOp d == sopLode && bitAt d 303

end Sys2Proof.Machine
end

