-- ==== Sys2Proof/Machine/Queue.lean ====
section
/-! DEFINITION. Queues: slots, doorbells, the queue engine's checks, records and the queue's control (R218 to R229). -/

namespace Sys2Proof.Machine

/-! ## The command slot (Table 8.1) -/

/-- CRC-16 of R221 over bytes, each most significant bit first. -/
def crc16 (bs : List Byte) : W16 :=
  bs.foldl (fun (c : W16) (b : Byte) =>
    let d : W16 := c ^^^ BitVec.ofNat 16 (b.toNat * 256)
    (List.range 8).foldl (fun (c : W16) (_ : Nat) => if c.getLsbD 15 then (c <<< 1) ^^^ 0x1021 else c <<< 1) d) 0xFFFF

def slotPhase (d : BitVec 1024) : Bool := bitAt d 0
def slotKind (d : BitVec 1024) : Nat := bitsAt d 3 1
def slotWin (d : BitVec 1024) : Bool := bitAt d 4
def slotSeq (d : BitVec 1024) : W16 := BitVec.ofNat 16 (bitsAt d 31 16)
def slotNops (d : BitVec 1024) : Nat := bitsAt d 47 32
def slotTag (d : BitVec 1024) : W16 := BitVec.ofNat 16 (bitsAt d 63 48)
def slotProg (d : BitVec 1024) : Nat := bitsAt d 103 64
def slotStartOp (d : BitVec 1024) : Nat := bitsAt d 143 128
def slotArgs (d : BitVec 1024) : List W32 := (List.range 8).map fun i => BitVec.ofNat 32 (bitsAt d (32 * i + 287) (32 * i + 256))
def slotCrc (d : BitVec 1024) : W16 := BitVec.ofNat 16 (bitsAt d 1023 1008)

/-- The bytes of slot i of a queue (R218). -/
def slotBytes (s : State) (q i : Nat) : List Byte := s.rdBytes (queueKey (q * 0x10000 + i * 0x80)) 128

/-- The three checks of R224 on the head slot. -/
def slotGood (k : Queue) (bs : List Byte) : Bool :=
  let d := BitVec.ofNat 1024 (leNat bs)
  slotPhase d == k.ephase && slotSeq d == k.eseq && slotCrc d == crc16 (bs.take 126)

/-! ## Records (R227 to R229) -/

/-- What a record reports (Table 8.4). -/
structure RecInfo where
  kind : Nat
  slot : Nat
  seq : W16
  status : Byte
  failOp : Nat := 0
  cycles : Nat := 0
  assay : W64 := 0
  tokens : List W32 := []
  ovr : Bool := false
  deriving DecidableEq, Repr

/-- The 64 bytes of record r of a queue. -/
def recordBytes (s : State) (q r : Nat) (x : RecInfo) : List Byte :=
  let k := s.queue q
  let toks := (x.tokens.zipIdx.map fun t => t.1.toNat * 2 ^ (32 * t.2)).sum
  leBytes 64 (toks * 2 ^ 256 + x.assay.toNat * 2 ^ 192 + s.win.number.toNat * 2 ^ 160 + min x.cycles (2 ^ 32 - 1) * 2 ^ 128 +
    r % 2 ^ 32 * 2 ^ 96 + x.failOp * 2 ^ 80 + x.seq.toNat * 2 ^ 64 + x.tokens.length * 2 ^ 48 + x.status.toNat * 2 ^ 40 +
    q * 2 ^ 26 + x.slot * 2 ^ 17 + (if x.ovr then 2 ^ 3 else 0) + x.kind * 2 +
    (if r / k.recDepth.toNat % 2 = 0 then 1 else 0))

/-- A record cannot be written: it is dropped (R229). -/
def recDrop (s : State) (q : Nat) (x : RecFlight) (st : Byte) : State :=
  let t := s.modQueue q fun k =>
    { k with recDropped := satInc k.recDropped, records := k.records.filter fun y => y.id ≠ x.id }
  logRec t { event := 0x0A, status := st, unit := BitVec.ofNat 16 q, src := codeQueueEngine,
             ctx := BitVec.ofNat 6 (s.queue q).context.toNat, info := BitVec.ofNat 64 x.rseq.toNat }

/-- A record has been sent; a write inside the module, or posted to the host, is acknowledged with it. -/
def recSent (s : State) (q : Nat) (x : RecFlight) (acked : Bool) : State :=
  s.modQueue q fun k =>
    { k with records := k.records.map fun y => if y.id = x.id then { y with sent := true, acked := acked } else y }

/-- The lowest tag that no request of the module to a partner holds. -/
def freeTag (s : State) (k : PortId) : Nat :=
  ((List.range 1024).find? fun t => !(s.fwds.any fun f => f.dst == k && f.origin.isNone && f.tag.toNat == t)).getD 0

/-- Send a record, or drop it, or leave it waiting. -/
def recSend (s : State) (q : Nat) (x : RecFlight) : State :=
  let ctx := (s.queue q).context.toNat
  match x.port with
  | .inModule =>
    if x.addr.toNat / 2 ^ 40 ≠ 0 then recDrop s q x stXlate
    else
      let r : Req := ⟨.record x.id, codeQueueEngine, BitVec.ofNat 6 ctx, 0⟩
      match storeRange s r 0 x.addr.toNat (cleanBytes x.data) with
      | .wait t => t
      | .fail st t => recDrop (innerDrop t fun w => w == r.who) q x st
      | .ok t st =>
        let u := innerDrop t fun w => w == r.who
        if st = stOk then recSent u q x true else recDrop u q x st
  | .host => if hostWritable s then recSent (hostSend s x.addr x.data) q x true else recDrop (hostSend s x.addr x.data) q x stOk
  | .partner n =>
    if h : n < 6 then
      let k : PortId := ⟨n, h⟩
      let p := s.port n
      if x.addr.toNat / 2 ^ 48 ≠ 0 || !portLicensed s n || (!portRuns p && p.state ≠ 5) then recDrop s q x stOk
      else if p.state = 5 then s
      else
        let tag := freeTag s k
        let f : FwdReq := { dst := k, origin := none, src := 0, tag := BitVec.ofNat 10 tag, ctx := BitVec.ofNat 6 ctx, wr := true,
                            queue := q, rseq := x.rseq }
        let t := recSent { s with fwds := s.fwds ++ [f] } q x false
        portSend t k (sentHeader n 0x02 2 0 ctx 15 tag 64 (addr := x.addr.toNat)) x.data
    else recDrop s q x stOk

/-- Write a record for a queue (R227): its place in the ring, its number, and its write. -/
def putRecord (s : State) (q : Nat) (x : RecInfo) : State :=
  let k := s.queue q
  let r := k.recCount
  let (id, s1) := s.newReq
  let port : RecPort := if k.recPort = 0 then .inModule else if k.recPort = 1 then .host else .partner (k.recPort.toNat - 2)
  let f : RecFlight := { data := recordBytes s q r x, addr := k.recAddr + BitVec.ofNat 64 (64 * (r % k.recDepth.toNat)), port := port,
                         rseq := BitVec.ofNat 32 r, since := s.now, id := id }
  recSend (s1.setQueue q { k with recCount := r + 1, records := k.records ++ [f] }) q f

/-- RECORD_ACKNOWLEDGED: the oldest record acknowledged at its destination is signalled on `rec_tally`, then by its MSI-X vector. A
record that still waits for its write is tried again first. -/
def recordAcknowledged (s : State) (q : Nat) : State :=
  let s1 := match (s.queue q).records.find? fun x => !x.sent with
    | some x => recSend s q x
    | none => s
  match (s1.queue q).records.find? fun x => x.acked with
  | none => s1
  | some x =>
    let k := s1.queue q
    let t := s1.setQueue q { k with records := k.records.filter fun y => y.id ≠ x.id }
    let u := if k.recTally = 0xFFFF then t else (tallyOp t codeQueueEngine k.context.toNat (.virt k.recTally) topAdd 1).1
    if k.recMsix = 0xFF then u else hostMsix u k.recMsix.toNat

/-- RECORD_ACKNOWLEDGED (R227). -/
def execRecordAcknowledged (q : QueueId) (s : State) : Result := .next (recordAcknowledged s q.val)

/-- RECORD_WAIT_TIMEOUT: a record whose port has been unusable for more than 10 ms (R229). -/
def recordWaitTimeout (s : State) (q : Nat) : State :=
  match (s.queue q).records.find? fun x => !x.sent && decide (x.since + 10 * msCycles < s.now) &&
      (match x.port with | .partner n => (s.port n).state == 5 | _ => false) with
  | none => s
  | some x => recDrop s q x stOk

/-- RECORD_WAIT_TIMEOUT (R229). -/
def execRecordWaitTimeout (q : QueueId) (s : State) : Result := .next (recordWaitTimeout s q.val)

/-! ## The queue engine (R222 to R226) -/

/-- Slots stand pending at a queue: from `head` to the doorbell's target. -/
def slotsPending (k : Queue) : Bool :=
  match k.target with
  | none => false
  | some t => (t + 1) % k.depth.toNat ≠ k.head

/-- Checks of R226 on an accepted slot: a status completes the step at once. -/
def acceptCheck (d : BitVec 1024) : Option Byte :=
  if 1 < slotKind d then some stMode
  else if slotKind d = 1 then some stOk
  else if slotNops d = 0 || 1024 < slotNops d || slotNops d ≤ slotStartOp d then some stOob
  else if slotProg d % 64 ≠ 0 then some stOob
  else none

/-- A slot is accepted: the ring place is free, and the step waits to start or completes at once (R223, R226). -/
def acceptSlot (s : State) (q : Nat) (d : BitVec 1024) : State :=
  let k := s.queue q
  let i := k.head
  let h := (i + 1) % k.depth.toNat
  let k1 := { k with head := h, eseq := k.eseq + 1, ephase := if h = 0 then !k.ephase else k.ephase, stale := none,
                     target := if k.target = some i then none else k.target }
  match acceptCheck d with
  | some st => putRecord (s.setQueue q k1) q { kind := 0, slot := i, seq := slotSeq d, status := st }
  | none => s.setQueue q { k1 with accepted := k1.accepted ++ [{ slot := d, index := i, stamp := s.now }] }

/-- Check pending slots in order (structural on the count); the first that fails begins its re-reads. -/
def checkSlots (q : Nat) : Nat → State → State
  | 0, s => s
  | n + 1, s =>
    let k := s.queue q
    if slotsPending k && k.enable && !k.stalled && !computeBusy s then
      let bs := slotBytes s q k.head
      if slotGood k bs then checkSlots q n (acceptSlot s q (BitVec.ofNat 1024 (leNat bs)))
      else s.setQueue q { k with stale := some (match k.stale with
        | some x => x
        | none => (s.now, s.now)) }
    else s

/-- Status of a doorbell write (R222, R379). -/
def doorbellStatus (s : State) (q : Nat) (off : BitVec 6) (data : List Byte) : Byte :=
  let k := s.queue q
  if !s.life.opened then stMode
  else if off ≠ 0 || data.length ≠ 4 then stOob
  else if computeBusy s then stBusy
  else if !k.enable then stMode
  else if k.depth.toNat ≤ leNat data % 512 then stOob
  else stOk

/-- A doorbell write: it names the last slot written, or is dropped. A failing head slot keeps its own pace of re-reads (R224). -/
def doorbell (s : State) (q : Nat) (off : BitVec 6) (data : List Byte) : State × Byte :=
  let st := doorbellStatus s q off data
  if st ≠ stOk then (s.modQueue q fun k => { k with dbDropped := satInc k.dbDropped }, st)
  else
    let t := leNat data % 512
    let u := s.modQueue q fun k =>
      if (t + 1) % k.depth.toNat = k.head then k
      else { k with target := some t }
    (if (s.queue q).stale.isSome then u else checkSlots q 512 u, stOk)

/-- Answer a doorbell: a partner has its response, in the queue's context, and its write counts in the fence (R222, R271); the host's is
posted. -/
def answerDoorbell (s : State) (o : Origin) (q : Nat) (st : Byte) : State :=
  match o with
  | .partner k src tag => portRsp (fenceCount s k src) k src tag (s.queue q).context.toNat st []
  | .host _ => s
  | .unit c => s.emit (.unitRsp c st [])

/-- DOORBELL_WRITE (R222). -/
def execDoorbellWrite (o : Origin) (q : QueueId) (off : BitVec 6) (data : List Byte) (s : State) : Result :=
  let r := doorbell s q.val off data
  .next (answerDoorbell r.1 o q.val r.2)

/-- A failing head slot is read again at each µs from its first check: the re-reads due since the last one, each counted (R224). -/
def rereadSlot (s : State) (q first last : Nat) : State :=
  let n := (s.now - last) / usCycles
  checkSlots q 512 (s.modQueue q fun k => { k with staleRetries := satAdd k.staleRetries n, stale := some (first, last + n * usCycles) })

/-- SLOT_REREAD: 1 µs after the last read of a failing head slot it is read and checked again. -/
def slotReread (s : State) (q : Nat) : State :=
  let k := s.queue q
  match k.stale with
  | none => s
  | some (first, last) =>
    if !k.enable || k.stalled || computeBusy s || s.now < last + usCycles then s else rereadSlot s q first last

/-- SLOT_REREAD (R224). -/
def execSlotReread (q : QueueId) (s : State) : Result := .next (slotReread s q.val)

/-- A queue whose head slot stays bad stalls, with its record (R224). -/
def stallQueue (s : State) (q : Nat) : State :=
  let k := s.queue q
  let t := s.setQueue q { k with stalled := true, stale := none, staleStalls := satInc k.staleStalls }
  let u := logRec t { event := 0x0A, status := stStale, unit := BitVec.ofNat 16 q, src := codeQueueEngine,
                      ctx := BitVec.ofNat 6 k.context.toNat, info := BitVec.ofNat 64 k.eseq.toNat }
  putRecord u q { kind := 2, slot := k.head, seq := k.eseq, status := stStale }

/-- SLOT_STALE_STALL: `stale_limit` µs after its first check the head slot is read a last time, if that is still due, and stalls its
queue if it fails. -/
def slotStaleStall (s : State) (q : Nat) : State :=
  let k := s.queue q
  match k.stale with
  | none => s
  | some (first, last) =>
    if !k.enable || k.stalled || computeBusy s || s.now < first + k.staleLimit.toNat * usCycles then s
    else
      let t := if s.now < last + usCycles then s else rereadSlot s q first last
      match (t.queue q).stale with
      | some (a, _) => if a = first && (t.queue q).head = k.head then stallQueue t q else t
      | none => t

/-- SLOT_STALE_STALL (R224). -/
def execSlotStaleStall (q : QueueId) (s : State) : Result := .next (slotStaleStall s q.val)

/-! ## Queue control (R219, R223, R225, R242) -/

/-- `head`, `ephase` and `eseq` as R223 starts them; slots accepted but not started are discarded. -/
def queueStart (k : Queue) : Queue :=
  { k with head := 0, ephase := true, eseq := k.seq0, target := none, stalled := false, stale := none, accepted := [] }

/-- State of a queue (Table 8.12): 0 DISABLED, 1 IDLE, 2 ACTIVE, 3 STALLED, 4 RESET. -/
def queueState (s : State) (q : Nat) : Nat :=
  let k := s.queue q
  if !k.enable then 0
  else if computeBusy s then 4
  else if k.stalled then 3
  else if k.step.isSome || k.accepted ≠ [] || slotsPending k then 2
  else 1

/-- The word that a read of the doorbell gives (R222). -/
def doorbellWord (s : State) (q : Nat) : Nat :=
  let k := s.queue q
  k.head + (if k.ephase then 2 ^ 9 else 0) + queueState s q * 2 ^ 10 + k.eseq.toNat * 2 ^ 16

/-- RESUME of Table 8.3: a STALLED queue checks its head again at once. -/
def queueResume (s : State) (q : Nat) : State × Byte :=
  let k := s.queue q
  if k.stalled then (checkSlots q 512 (s.setQueue q { k with stalled := false, stale := none }), stOk) else (s, stOk)

/-- RESET of Table 8.3. -/
def queueReset (s : State) (q : Nat) : State × Byte :=
  let k := s.queue q
  if k.step.isSome then (s, stBusy) else (s.setQueue q { queueStart k with recCount := 0 }, stOk)

/-- The dispatch of a queue's step stops with a failure at its head (R241, R266): its watch is withdrawn. -/
def stepStop (s : State) (q : Nat) (num : Nat) (st : Byte) (at_ : Nat) : State :=
  match (s.queue q).step with
  | none => s
  | some x =>
    let fail := match x.fail with
      | some (n, st0, i) => if num < n then some (num, st, at_) else some (n, st0, i)
      | none => some (num, st, at_)
    let t := s.modQueue q fun k => { k with step := some { x with fail := fail, stopped := true, wait := .idle } }
    withdrawTarget t (.step q)

/-- ABORT of Table 8.3: TIMEOUT, naming the first operation not dispatched; nothing takes precedence over it. -/
def queueAbort (s : State) (q : Nat) : State × Byte :=
  match (s.queue q).step with
  | none => (s, stOk)
  | some x => (if x.ended.isSome then s else stepStop s q 0 stTimeout x.head, stOk)

/-- Table 8.3. -/
def queueCtl (s : State) (q : Nat) (v : Nat) : State × Byte :=
  if v = 1 then queueResume s q
  else if v = 2 then queueReset s q
  else if v = 3 then queueAbort s q
  else (s, stOob)

/-- A write to `q_enable` (R219, R223). -/
def queueEnable (s : State) (q v : Nat) : State × Byte :=
  let k := s.queue q
  if 1 < v then (s, stOob)
  else if v = 1 then
    if k.enable then (s, stOk) else (s.setQueue q { queueStart k with enable := true, recCount := 0 }, stOk)
  else if k.step.isSome then (s, stBusy)
  else (s.setQueue q { k with enable := false, target := none, stalled := false, stale := none, accepted := [] }, stOk)

/-- Index of the objects of a queue. -/
def queueIdx (q : QueueId) : W16 := BitVec.ofNat 16 (0x4810 + q.val)

/-- A write to a queue's control object: context 0 only (R219). -/
def queueWrite (s : State) (p : DictPath) (q : QueueId) (sb v : Byte) (f : State → State × Byte) : State :=
  dictRow1 s p (queueIdx q) sb [v] f

/-- Q_RESUME (R225). -/
def execQResume (p : DictPath) (q : QueueId) (s : State) : Result := .next (queueWrite s p q 5 1 fun t => queueResume t q.val)

/-- Q_RESET (R225). -/
def execQReset (p : DictPath) (q : QueueId) (s : State) : Result := .next (queueWrite s p q 5 2 fun t => queueReset t q.val)

/-- Q_ABORT (R225). -/
def execQAbort (p : DictPath) (q : QueueId) (s : State) : Result := .next (queueWrite s p q 5 3 fun t => queueAbort t q.val)

/-- Q_ENABLE_WRITE (R219). -/
def execQEnableWrite (p : DictPath) (q : QueueId) (v : Byte) (s : State) : Result :=
  .next (queueWrite s p q 2 v fun t => queueEnable t q.val v.toNat)

/-- A write to another object of a queue (R219, R251). -/
def queueObject (s : State) (q sb v : Nat) : State × Byte :=
  let k := s.queue q
  let put (j : Queue) : State × Byte := (s.setQueue q j, stOk)
  let locked (ok : Bool) (j : Queue) : State × Byte := if k.enable then (s, stMode) else if ok then put j else (s, stOob)
  let free (ok : Bool) (j : Queue) : State × Byte := if ok then put j else (s, stOob)
  if sb = 1 then locked (decide (v ≤ 63)) { k with context := BitVec.ofNat 8 v }
  else if sb = 2 then queueEnable s q v
  else if sb = 3 then locked ([16, 32, 64, 128, 256, 512].contains v) { k with depth := BitVec.ofNat 16 v }
  else if sb = 4 then locked true { k with seq0 := BitVec.ofNat 16 v }
  else if sb = 5 then queueCtl s q v
  else if sb = 8 then free (v ≠ 0) { k with staleLimit := BitVec.ofNat 16 v }
  else if sb = 9 then locked (v % 64 == 0) { k with recAddr := BitVec.ofNat 64 v }
  else if sb = 10 then locked (decide (v ≤ 7)) { k with recPort := BitVec.ofNat 8 v }
  else if sb = 11 then locked (decide (16 ≤ v)) { k with recDepth := BitVec.ofNat 16 v }
  else if sb = 12 then put { k with recTally := BitVec.ofNat 16 v }
  else if sb = 13 then put { k with recMsix := BitVec.ofNat 8 v }
  else if sb = 14 then free (decide (v ≤ 1)) { k with prio := BitVec.ofNat 8 v }
  else put { k with waitLimit := BitVec.ofNat 16 v }

end Sys2Proof.Machine
end

