-- ==== Sys2Proof/Machine/Request.lean ====
section
/-! DEFINITION. Requests of partners, the host and units by page: memory, queue page, tally port page, apertures, mirror (chapters
02, 08, 09, 11, 12). -/

namespace Sys2Proof.Machine

/-! ## The dictionary mirror (R359 to R361) -/

/-- `mb_stat` (Table 12.10). -/
def mailStat (b : Mailbox) : Nat :=
  b.abort.toNat * 2 ^ 32 + b.rlen.toNat * 2 ^ 16 + (if b.pend then 2 ^ 9 else 0) + (if b.done then 2 ^ 8 else 0) + b.status.toNat

/-- Bytes of a mailbox's data area. -/
def areaBytes (b : Mailbox) (o n : Nat) : List Byte := (List.range n).map fun i => tget 0 b.area (o + i)

/-- Whole words of a data area. -/
def areaWords (o n : Nat) : Bool := decide (0x20 ≤ o) && o % 4 == 0 && n % 4 == 0 && decide (0 < n) && decide (o + n ≤ 0x1000)

/-- A read of the mirror page. -/
def mirrorRead (s : State) (off n : Nat) : Byte × List Byte :=
  let b := s.box (off / 0x1000)
  let o := off % 0x1000
  if 16 ≤ off / 0x1000 then (stOob, [])
  else if o = 0x08 && n = 8 then (stOk, leBytes 8 b.doff.toNat)
  else if o = 0x10 && n = 8 then (stOk, leBytes 8 (mailStat b))
  else if o = 0x18 && n = 8 then (stOk, leBytes 8 0)
  else if areaWords o n then (stOk, areaBytes b (o - 0x20) n)
  else (stOob, [])

/-- Where a mailbox was written from, as R355 ranks it: 0 the host, 1 + k port k, 7 a unit of the module (log entry 164). -/
def mailVia : Origin → Nat
  | .host _ => 0
  | .partner k _ _ => 1 + k.val
  | .unit _ => 7

/-- A write of the mirror page; what comes while `pend` = 1 is ignored and counted. -/
def mirrorWrite (s : State) (o : Origin) (off : Nat) (data : List Byte) : State × Byte :=
  let via := mailVia o
  let m := off / 0x1000
  let b := s.box m
  let o := off % 0x1000
  let n := data.length
  let v : W64 := BitVec.ofNat 64 (leNat data)
  let put (c : Mailbox) : State × Byte :=
    if b.pend then ({ s with can := { s.can with mirrorDropped := satInc s.can.mirrorDropped } }, stOk) else (s.setBox m c, stOk)
  if 16 ≤ m then (s, stOob)
  else if o = 0x00 && n = 8 then
    let r := put (mailCommand b v)
    (if b.pend then r.1 else mailPut r.1 m via, r.2)
  else if o = 0x08 && n = 8 then put { b with doff := v }
  else if o = 0x18 && n = 8 then (s, stOk)
  else if areaWords o n then
    put { b with area := (List.range n).foldl (fun t i => tset 0 t (o - 0x20 + i) (data.getD i 0)) b.area }
  else (s, stOob)

/-! ## The tally port page (R260, R261) -/

/-- The record that an offset of the page names in an operation region. -/
def opRegion (off : Nat) : Option TallyRef :=
  if off < 0x10000 then some (.virt (BitVec.ofNat 16 (off / 16)))
  else if 0x100000 ≤ off && off < 0x140000 then some (.phys (BitVec.ofNat 16 ((off - 0x100000) / 16)))
  else none

/-- The record in a debug, watch or barrier region, its size, and the offset in it. -/
def debugRegion (s : State) (off : Nat) : Option (Nat × Nat × Nat) :=
  if 0x200000 ≤ off && off < 0x240000 then some ((debugRecord s ((off - 0x200000) / 16)).toNat, 16, off % 16)
  else if 0x300000 ≤ off && off < 0x320000 then some ((watchRecord s ((off - 0x300000) / 32)).toNat, 32, off % 32)
  else if 0x380000 ≤ off && off < 0x382000 then some ((barrierRecord s ((off - 0x380000) / 32)).toNat, 32, off % 32)
  else none

/-- Only context 0 reaches what lies outside the virtual operation region. -/
def tallyPageRight (c off : Nat) : Bool := c == 0 || decide (off < 0x10000)

/-- A tally operation record applied (Tables 9.2, 9.3, 9.5). -/
def tallyRecord (s : State) (o : Origin) (c : Nat) (r : TallyRef) (w0 w1 : W64) : State × Byte :=
  let code := codeOf o
  let top := bitsAt w0 3 0
  let n : W32 := BitVec.ofNat 32 (bitsAt w0 63 32)
  let cookie : W16 := BitVec.ofNat 16 (bitsAt w0 31 16)
  let msix : Byte := BitVec.ofNat 8 (bitsAt w0 15 8)
  if 1 ≤ top && top ≤ 4 then tallyOp s code c r (BitVec.ofNat 4 top) n
  else if top = 5 then remoteWatch s (originTarget o msix w1) c r n (bitAt w0 4) cookie
  else if top = 6 then unwatch s (originTarget o 0 0) c r cookie
  else if top = 7 || top = 8 then barOp s code c r (BitVec.ofNat 4 top) w1
  else (s, stMode)

/-- A write of the tally port page: one record, or its first half (R261). -/
def tallyPageWrite (s : State) (o : Origin) (c off : Nat) (data : List Byte) : State × Byte :=
  if !s.life.opened then (s, stMode)
  else
    match opRegion off with
    | some r =>
      if !tallyPageRight c off then (s, stProt)
      else if off % 16 ≠ 0 || (data.length ≠ 8 && data.length ≠ 16) then (s, stOob)
      else tallyRecord s o c r (BitVec.ofNat 64 (leNat (data.take 8))) (BitVec.ofNat 64 (leNat (data.drop 8)))
    | none => if (debugRegion s off).isSome then (s, stProt) else (s, stOob)

/-- A read of the tally port page (R261). -/
def tallyPageRead (s : State) (o : Origin) (c off n : Nat) : State × Byte × List Byte :=
  if !s.life.opened then (s, stMode, [])
  else
    match opRegion off with
    | some r =>
      if !tallyPageRight c off then (s, stProt, [])
      else if off % 16 ≠ 0 || (n ≠ 8 && n ≠ 16) then (s, stOob, [])
      else
        match tallyOf s c r with
        | none => (tallyRangeFault s (codeOf o) c r, stTallyRange, [])
        | some t => (s, stOk, leBytes n (valueWord s t))
    | none =>
      match debugRegion s off with
      | none => (s, stOob, [])
      | some (v, size, i) =>
        if c ≠ 0 then (s, stProt, [])
        else if (n = size && i = 0) || (n = 8 && i % 8 = 0) then (s, stOk, leBytes n (v / 256 ^ i))
        else (s, stOob, [])

/-! ## The queue page (R218, R222, R379) -/

/-- A write of the queue page that its owner's context makes. -/
def queuePageWrite (s : State) (off : Nat) (data : List Byte) : State × Byte :=
  if 0x400000 ≤ off && off < 0x401000 then
    doorbell s ((off - 0x400000) / 64) (BitVec.ofNat 6 (off % 64)) data
  else if !s.life.opened then (s, stMode)
  else if off + data.length ≤ 0x400000 then (s.wrBytes (queueKey off) data, stOk)
  else (s, stOob)

/-- A read of the queue page: memory, or a doorbell's word. -/
def queuePageRead (s : State) (off n : Nat) : Byte × List Byte :=
  if !s.life.opened then (stMode, [])
  else if off + n ≤ 0x400000 then (stOk, s.rdBytes (queueKey off) n)
  else if 0x400000 ≤ off && off + n ≤ 0x401000 then
    (stOk, if off % 64 = 0 && n = 4 then leBytes 4 (doorbellWord s ((off - 0x400000) / 64)) else List.replicate n 0)
  else (stOob, [])

/-! ## Requests -/

/-- Owner of an ordinary transfer. -/
def ownerOf : Origin → XferOwner
  | .partner k src tag => .partner k src tag
  | .host tag => .host tag
  | .unit c => .unit c

/-- What a page's refusal logs: a hole as R32 states, a right as R41 states; the host's request logs in its answer (R339). -/
def pageRefused (s : State) (o : Origin) (c va : Nat) (st : Byte) : State :=
  match o with
  | .host _ => s
  | _ => placeRefused s o c va st

/-- A host doorbell has no status and moves `db_dropped` alone (Table 15.2). -/
def silentWrite (o : Origin) (pa : Nat) : Bool :=
  match o with
  | .host _ => isQueuePage (pa / 2 ^ 24) && decide (0x400000 ≤ pa % 2 ^ 24) && decide (pa % 2 ^ 24 < 0x401000)
  | _ => false

/-- A write at a module address that is no DRAM: the state after it and its status. -/
def pageWrite (s : State) (o : Origin) (c pa : Nat) (data : List Byte) : State × Byte :=
  let pn := pa / 2 ^ 24
  let off := pa % 2 ^ 24
  if isTallyPage pn then
    match o with
    | .partner _ _ _ => if (opRegion off).isSome && s.life.opened then (s, stMode) else tallyPageWrite s o c off data
    | _ => tallyPageWrite s o c off data
  else if isQueuePage pn then queuePageWrite s off data
  else if isMirrorPage pn then mirrorWrite s o off data
  else if isAperturePage pn then apertureWrite s (pn - 0xE000) off data (BitVec.ofNat 6 c)
  else if isSramPage pn then
    let st := paCheck s pa data.length
    if st = stOk then paWrite s pa (cleanBytes data) (codeOf o) (BitVec.ofNat 6 c) else (s, st)
  else (s, stOob)

/-- A read at a module address that is no DRAM. -/
def pageRead (s : State) (o : Origin) (c pa n : Nat) : State × Byte × List Byte :=
  let pn := pa / 2 ^ 24
  let off := pa % 2 ^ 24
  if isTallyPage pn then tallyPageRead s o c off n
  else if isQueuePage pn then (s, queuePageRead s off n)
  else if isMirrorPage pn then (s, mirrorRead s off n)
  else if isAperturePage pn then (s, apertureRead s (pn - 0xE000) off n)
  else if isSramPage pn then
    let st := paCheck s pa n
    if st = stOk then
      let (t, bs) := paRead s pa n (codeOf o) (BitVec.ofNat 6 c)
      (t, if anyPoison bs then stPoison else stOk, hidePoison bs)
    else (s, st, [])
  else (s, stOob, [])

/-- A request at a module address that passed its translation; `va` is what a refusal logs. -/
def pageRequest (s : State) (o : Origin) (c : Nat) (wr : Bool) (va pa n : Nat) (data : List Byte) : State :=
  if isDramPage (pa / 2 ^ 24) then
    startXfer s (ownerOf o) (codeOf o) (BitVec.ofNat 6 c) wr (BitVec.ofNat 64 va) pa n data
  else if wr then
    let (t, st) := pageWrite s o c pa data
    if silentWrite o pa then t else answerWrite (pageRefused t o c va st) o c st va
  else
    let (t, st, bs) := pageRead s o c pa n
    answer (pageRefused t o c va st) o c true st bs va

/-- Answer a request that was refused before it reached a page. -/
def refuseRequest (s : State) (o : Origin) (c : Nat) (wr : Bool) (st : Byte) (va : Nat) : State :=
  if wr then answerWrite s o c st va else answer s o c true st [] va

/-- A request of a context: translation, then its page (R40, R284). -/
def request (s : State) (o : Origin) (c : Nat) (wr nc : Bool) (va n : Nat) (data : List Byte) : State :=
  match translate s c va n wr (!nc) with
  | .fail st => refuseRequest (xlateRefused s o c va st) o c wr st va
  | .pa pa => pageRequest s o c wr va pa n data

/-- ORDINARY_REQUEST: 1 to 4,096 B; a write brings its bytes. -/
def ordinaryRequest (s : State) (o : Origin) (c : Nat) (wr nc : Bool) (va n : Nat) (data : List Byte) : State :=
  let len := if wr then data.length else n
  let busy := match o with
    | .partner _ _ _ => s.life.warm.isSome
    | _ => false
  if len = 0 || 4096 < len then refuseRequest s o c wr stMode va
  else if busy then refuseRequest s o c wr stBusy va
  else request s o c wr nc va len data

/-- ORDINARY_REQUEST (R284). -/
def execOrdinaryRequest (o : Origin) (c : CtxId) (wr nc : Bool) (va : Addr) (len : BitVec 13) (data : List Byte) (s : State) :
    Result :=
  .next (ordinaryRequest s o c.val wr nc va.toNat len.toNat data)

/-! ## The pick aperture as its own rows name it (R95, R96, R99) -/

/-- The virtual address at which a context reaches an offset of a pick's aperture page: through the first entry of its window that gives
the right on the page, else the first that maps it; and whether one maps it. Where none maps it the request used an address that the
row does not name: a free value (log entry 142). -/
def apertureVa (s : State) (c g off : Nat) (wr : Bool) : State × Nat × Bool :=
  let x := s.ctx c
  let es := s.xlate.filter fun p => decide (x.xlateBase.toNat ≤ p.1) && decide (p.1 < x.xlateBase.toNat + x.xlateCount.toNat) &&
    entryValid p.2 && entryPage p.2 == 0xE000 + g
  match (es.find? fun p => if wr then entryDirect p.2 else entryRead p.2).or es.head? with
  | some p => (s, (p.1 - x.xlateBase.toNat) * 2 ^ 24 + off, true)
  | none =>
    let (i, t) := s.newFree
    (t, (Config.unmappedPage i).toNat * 2 ^ 24 + off, false)

/-- Status of a context's access at an address that maps, or does not map, an aperture page (R40). -/
def apertureRight (s : State) (c va len : Nat) (wr mapped : Bool) : Byte :=
  match translate s c va len wr false with
  | .fail st => if mapped then st else stXlate
  | .pa _ => if mapped then stOk else stXlate

/-- DIRECT_COMMAND_WRITE (R96): a write at an offset of a pick's aperture page by a requester of a context. -/
def directWrite (s : State) (o : Origin) (c g off : Nat) (data : List Byte) : State :=
  let (s1, va, mapped) := apertureVa s c g off true
  let st := apertureRight s1 c va data.length true mapped
  if st ≠ stOk then answerWrite (xlateRefused s1 o c va st) o c st va
  else
    let (t, st) := apertureWrite s1 g off data (BitVec.ofNat 6 c)
    answerWrite (pageRefused t o c va st) o c st va

/-- DIRECT_COMMAND_WRITE (R96). -/
def execDirectCommandWrite (o : Origin) (c : CtxId) (g : PickId) (off : BitVec 24) (data : List Byte) (s : State) : Result :=
  .next (directWrite s o c.val g.val off.toNat data)

/-- APERTURE_READ (R99). -/
def apertureReadBy (s : State) (o : Origin) (c g off len : Nat) : State :=
  let (s1, va, mapped) := apertureVa s c g off false
  let st := apertureRight s1 c va len false mapped
  if st ≠ stOk then answer (xlateRefused s1 o c va st) o c true st [] va
  else
    let (st, bs) := apertureRead s1 g off len
    answer (pageRefused s1 o c va st) o c true st bs va

/-- APERTURE_READ (R99). -/
def execApertureRead (o : Origin) (c : CtxId) (g : PickId) (off : BitVec 24) (len : BitVec 13) (s : State) : Result :=
  .next (apertureReadBy s o c.val g.val off.toNat len.toNat)

end Sys2Proof.Machine
end

