-- ==== Sys2Proof/Machine/ColMode.lean ====
section
/-! DEFINITION. Column modes: entering and leaving PICK mode (R90 to R94). -/

namespace Sys2Proof.Machine

/-- Index and subindex of a column's col_mode. -/
def colModeIdx (g : Nat) : W16 := BitVec.ofNat 16 (0x3010 + 0x100 * stackOf g + pickOf g / 256)
def colModeSub (g : Nat) : Byte := BitVec.ofNat 8 (pickOf g % 256)
def stackModeIdx (n : Nat) : W16 := BitVec.ofNat 16 (0x3012 + 0x100 * n)

/-- Columns of a stack. -/
def colsOf (n : Nat) : List Nat := (List.range 512).map fun p => n * 512 + p

/-- A col_mode write of the column, or a stack_mode write of its stack, is held (R356). -/
def modeHeld (s : State) (g : Nat) : Bool := (s.col g).change.isSome || (s.stack (stackOf g)).change.isSome

/-- Start the change to PICK (R91): the column reads TO_PICK. -/
def startToPick (s : State) (g : Nat) (p : DictPath) (byStack : Bool) : State :=
  s.modCol g fun c => { c with mode := .toPick, change := some ⟨s.now, s.reqNext, byStack, p⟩ }

/-- Start the change to NORMAL (R93): operations not yet admitted complete with MODE. -/
def startToNormal (s : State) (g : Nat) (p : DictPath) (byStack : Bool) : State :=
  let t := s.modCol g fun c => { c with mode := .toNormal, change := some ⟨s.now, s.reqNext, byStack, p⟩ }
  let c := t.col g
  (c.seqQ ++ c.dirQ).foldl (fun u o =>
    if ((u.col g).seqQ ++ (u.col g).dirQ).any fun x => x.uid == o.uid then pickEnd u g o stMode else u) t

/-- A write to col_mode, after the checks of Table 12.5 (Table 4.6). -/
def colModeWrite (s : State) (p : DictPath) (g v : Nat) : State × Option Byte :=
  let c := s.col g
  if modeHeld s g then (s, some stBusy)
  else if 1 < v then (s, some stOob)
  else if computeBusy s then (s, some stBusy)
  else if c.fenced || c.retired then (s, some stFenced)
  else if c.mode = .toPick || c.mode = .toNormal then (s, some stBusy)
  else if (v = 1 && c.mode = .pick) || (v = 0 && c.mode = .normal) then (s, some stOk)
  else if v = 1 then
    if cachedMapping s g then (s, some stMode) else (startToPick s g p false, none)
  else (startToNormal s g p false, none)

/-- COL_MODE_PICK (R90, R91). -/
def execColModePick (p : DictPath) (g : PickId) (s : State) : Result :=
  .next (dictRow s p (colModeIdx g.val) (colModeSub g.val) [1] fun t => colModeWrite t p g.val 1)

/-- COL_MODE_NORMAL (R90, R93). -/
def execColModeNormal (p : DictPath) (g : PickId) (s : State) : Result :=
  .next (dictRow s p (colModeIdx g.val) (colModeSub g.val) [0] fun t => colModeWrite t p g.val 0)

/-- Confirm a column's change: its own write, or the stack's when its last column ends (R92). -/
def changeEnds (s : State) (g : Nat) (ch : ModeChange) (st : Byte) : State :=
  if ch.byStack then
    let n := stackOf g
    match (s.stack n).change with
    | none => s
    | some (v, p, bad) =>
      let bad' := bad || st ≠ stOk
      if s.cols.any fun x => stackOf x.1 == n && x.2.change.isSome then
        s.modStack n fun k => { k with change := some (v, p, bad') }
      else
        dictRelease (s.modStack n fun k => { k with change := none }) p (stackModeIdx n) 1 (if bad' then stTimeout else stOk)
  else dictRelease s ch.path (colModeIdx g) (colModeSub g) st

/-- Every ordinary request to the column accepted before the write has completed (R91). -/
def earlierDone (s : State) (g : Nat) (ch : ModeChange) : Bool :=
  !(s.waits.any fun w => w.col == g && !w.held && decide (w.seq < ch.mark))

/-- PICK_MODE_REACHED (R91): the pick is cleared and the column reads PICK. -/
def pickModeReached (s : State) (g : Nat) : State :=
  let c := s.col g
  match c.change with
  | none => s
  | some ch =>
    if c.mode = .toPick && earlierDone s g ch then
      changeEnds (s.setCol g (voidCol { clearPick c with mode := .pick, change := none, lastSeq := false })) g ch stOk
    else s

/-- PICK_MODE_REACHED (R91). -/
def execPickModeReached (g : PickId) (s : State) : Result := .next (pickModeReached s g.val)

/-- NORMAL_MODE_REACHED (R93): the admitted operations have completed; the pick is cleared and the column reads NORMAL. -/
def normalModeReached (s : State) (g : Nat) : State :=
  let c := s.col g
  match c.change with
  | none => s
  | some ch =>
    if c.mode = .toNormal && c.window = [] then
      changeEnds (s.setCol g (voidCol { clearPick c with mode := .normal, change := none })) g ch stOk
    else s

/-- NORMAL_MODE_REACHED (R93). -/
def execNormalModeReached (g : PickId) (s : State) : Result := .next (normalModeReached s g.val)

/-- COL_MODE_TIMEOUT (R91, R93): what the change waits for has not come within 10 ms; the column returns to its earlier mode. -/
def colModeTimeout (s : State) (g : Nat) : State :=
  let c := s.col g
  match c.change with
  | none => s
  | some ch =>
    if s.now < ch.since + 10 * msCycles then s
    else if c.mode = .toPick && !earlierDone s g ch then
      let t := s.setCol g { c with mode := .normal, change := none }
      let u := logObject t stTimeout (colModeIdx g) (colModeSub g)
      changeEnds u g ch stTimeout
    else if c.mode = .toNormal && c.window ≠ [] then
      changeEnds (s.setCol g { c with mode := .pick, change := none }) g ch stTimeout
    else s

/-- COL_MODE_TIMEOUT (R91). -/
def execColModeTimeout (g : PickId) (s : State) : Result := .next (colModeTimeout s g.val)

/-- A write to stack_mode, after the checks of Table 12.5 (R92). -/
def stackModeWrite (s : State) (p : DictPath) (n v : Nat) : State × Option Byte :=
  let live := (colsOf n).filter fun g => pickLive s g
  let changing (g : Nat) : Bool := (s.col g).mode = .toPick || (s.col g).mode = .toNormal
  let want : ColMode := if v = 1 then .pick else .normal
  if (s.stack n).change.isSome || (s.cols.any fun x => stackOf x.1 == n && x.2.change.isSome) then (s, some stBusy)
  else if 1 < v then (s, some stOob)
  else if computeBusy s then (s, some stBusy)
  else if v = 1 && live.any fun g => (s.col g).mode = .normal && cachedMapping s g then (s, some stMode)
  else if live.any changing then (s, some stBusy)
  else
    let go := live.filter fun g => (s.col g).mode ≠ want
    if go = [] then (s, some stOk)
    else
      let t := s.modStack n fun k => { k with change := some (v == 1, p, false) }
      (go.foldl (fun u g => if v = 1 then startToPick u g p true else startToNormal u g p true) t, none)

/-- STACK_MODE (R92). -/
def execStackMode (p : DictPath) (n : StackId) (v : Byte) (s : State) : Result :=
  .next (dictRow s p (stackModeIdx n.val) 1 [v] fun t => stackModeWrite t p n.val v.toNat)

end Sys2Proof.Machine
end

