-- ==== Sys2Proof/Machine/Shaft.lean ====
section
/-! DEFINITION. The shaft controllers: row-step boundaries, claim waits, refresh, sweep credit, targeted refresh, command paths,
the hub links, scrubbing and row repair (chapter 10; R436 and R437 of chapter 15). -/

namespace Sys2Proof.Machine

/-! ## Fencing a pick (R433, R436) -/

/-- Put a fence into progress. -/
def fenceJob (s : State) (pick : Bool) (idx : Nat) (cause : Byte) : State :=
  { s with fence := { s.fence with jobs := s.fence.jobs ++ [⟨pick, idx, cause, s.now⟩] } }

/-- Complete every operation of a pick with a status. -/
def endAllOps (s : State) (g : Nat) (st : Byte) : State :=
  let c := s.col g
  (c.window ++ c.seqQ ++ c.dirQ).foldl (fun t o =>
    let k := t.col g
    if (k.window ++ k.seqQ ++ k.dirQ).any fun x => x.uid == o.uid then pickEnd t g o (if opFinished t o then o.status else st)
    else t) s

/-- Every pass that names a fenced pick ends FENCED, and what its groups there have not completed completes with FENCED (R149). -/
def passesFenced (s : State) (g : Nat) : State :=
  (s.passes.filter fun p => p.ops.any fun x => x.col == g).foldl (fun t p =>
    let groups := (p.ops.filter fun x => x.col == g).map (·.group)
    (p.ops.filter fun x => groups.contains x.group).foldl (fun u x => passOpEnd u p.id x stFenced)
      (t.modPass p.id fun y => { y with fenced := true })) s

/-- What fencing a pick does to its column at once (R436). A held mode change of the column ends with FENCED (log entry 21). -/
def fencePickNow (s : State) (g : Nat) : State :=
  let t := passesFenced (endAllOps s g stFenced) g
  let c := t.col g
  let u := t.setCol g (voidCol { c with fenced := true, mode := .normal, change := none })
  match c.change with
  | none => u
  | some ch => changeEnds u g ch (if ch.byStack then stOk else stFenced)

/-! ## Row-step boundaries (R123 to R125, R285) -/

/-- The busy dies of a column: those of the operation that uses the column port (Table 10.2). -/
def busyDies (s : State) (g : Nat) : List Nat :=
  ((s.col g).window.filter (usesPort s.now)).flatMap claimDies

/-- CLAIM_WAIT_END (R124). -/
def execClaimWaitEnd (g : PickId) (s : State) : Result := .next (crossbarIn (claimWaitEnd s g.val) (stackOf g.val))

/-- A request of the column that has waited 10 ms on claims ends with TIMEOUT (R124). -/
def claimWaitTimeout (s : State) (g : Nat) : State :=
  let n := stackOf g
  match s.waits.find? fun r => r.col == g && claimWaits r && decide (r.arrived + 10 * msCycles ≤ s.now) with
  | some r =>
    crossbarIn (requestTimeout ((claimWaited s g (s.now - r.arrived)).modStack n fun k =>
      { k with claimTimeouts := satInc k.claimTimeouts }) r) n
  | none => s

/-- CLAIM_WAIT_TIMEOUT (R124). -/
def execClaimWaitTimeout (g : PickId) (s : State) : Result := .next (claimWaitTimeout s g.val)

/-! ## Refresh (R286 to R289, R292) -/

/-- tREFI and credit margin of a rate (Table 10.2). -/
def trefi : RefRate → Nat
  | .cool => 3100
  | .hot => 1550
  | .rescue => 775
def creditMargin : RefRate → Option Nat
  | .cool => some 6400000
  | .hot => some 3200000
  | .rescue => none

/-- Credits held in a table of segments. -/
def creditCount (segs : Tab Seg) : Nat := (segs.filter fun p => p.2.credit.isSome).length

/-- Void every sweep and every credit of the columns of a stack, and count the credits (R293). -/
def voidStack (s : State) (n : Nat) : State :=
  let gs := (s.cols.filter fun p => stackOf p.1 == n).map (·.1)
  let k := (gs.map fun g => creditCount (s.col g).segs).sum
  (gs.foldl (fun t g => t.modCol g voidAll) s).modStack n fun x => { x with creditsVoided := satAdd x.creditsVoided k }

/-- The core temperature that a stack takes, in 0.1 degrees: 150 degrees during a supply fault, and while the round is stopped and
its last reading is 2.048 ms old (R289, R440, R414). -/
def coreTemp (s : State) (n : Nat) : Int :=
  let k := s.stack n
  if k.supplyHot || (s.life.restart.isSome && decide (s.canary.lastReading + 1638400 ≤ s.now)) then 1500 else k.tempMax

/-- A stack at COOL whose temperature reaches hot_enter changes to RESCUE (R289). -/
def rateTrigger (s : State) (n : Nat) : State :=
  let k := s.stack n
  if k.refRate = .cool && decide ((10 * k.hotEnter.toNat : Int) ≤ coreTemp s n) then
    (voidStack s n).modStack n fun x => { x with refRate := .rescue, rescues := satInc x.rescues, coolSince := none }
  else s

/-- The consecutive time at or below hot_exit that a return to COOL asks for: readings above restart it (R289). -/
def coolCount (s : State) (n : Nat) : State :=
  s.modStack n fun k =>
    { k with coolSince := if decide (coreTemp s n ≤ (10 * k.hotExit.toNat : Int)) then some (k.coolSince.getD s.now) else none }

/-- Every refreshed column of a stack runs at a rate. -/
def allAtRate (s : State) (n : Nat) (r : RefRate) : Bool :=
  s.cols.all fun p => stackOf p.1 ≠ n || !p.2.refStarted || p.2.retired || p.2.refRate == r

/-- The rate of a column at its next due interval (R289), and what follows for the stack. -/
def columnRate (s : State) (g : Nat) : State :=
  let n := stackOf g
  let s1 := rateTrigger s n
  let k := s1.stack n
  let c := s1.col g
  let s2 :=
    if k.refRate = .hot && (match k.coolSince with | some t => decide (t + 6348800 ≤ s.now) | none => false) then
      (voidStack s1 n).modStack n fun x => { x with refRate := .cool }
    else s1
  let s3 :=
    if c.refRate = .cool && (s2.stack n).refRate ≠ .cool then s2.modCol g fun x => { x with refRate := .rescue, rescueLeft := 4096 }
    else if c.refRate = .rescue && c.rescueLeft = 0 then s2.modCol g fun x => { x with refRate := .hot }
    else if c.refRate = .hot && (s2.stack n).refRate = .cool then s2.modCol g fun x => { x with refRate := .cool }
    else s2
  if (s3.stack n).refRate = .rescue && allAtRate s3 n .hot then s3.modStack n fun x => { x with refRate := .hot } else s3

/-- A credit covers a row due at a time; a credit too old becomes NONE (R292). -/
def waive (rate : RefRate) (due : Nat) (sg : Seg) : Bool × Seg :=
  match creditMargin rate, sg.credit with
  | some m, some c => if due ≤ c + m then (true, sg) else (false, { sg with credit := none })
  | _, _ => (false, sg)

/-- Refresh or waive row k of one die, counted. -/
def refreshDie (g k due : Nat) (s : State) (die : Nat) : State :=
  let c := s.col g
  let key := segKey die k
  let (w, sg) := waive c.refRate due (tget {} c.segs key)
  (s.setCol g { c with segs := tset {} c.segs key sg }).modStack (stackOf g) fun x =>
    if w then { x with refsWaived := x.refsWaived + 1 } else { x with refsDone := x.refsDone + 1 }

/-- A die whose row is waived at its due time. -/
def waivedAt (s : State) (g k due die : Nat) : Bool :=
  let c := s.col g
  (waive c.refRate due (tget {} c.segs (segKey die k))).1

/-- The check of a bank at an interval's due time: a credit found too old becomes NONE (R292). -/
def creditChecked (g k due : Nat) (s : State) (die : Nat) : State :=
  s.modCol g fun c =>
    let key := segKey die k
    { c with segs := tset {} c.segs key (waive c.refRate due (tget {} c.segs key)).2 }

/-- Cycles that the fill takes for one page, which is both banks of a die pair (R312, Table 4.15). -/
abbrev pageFill : Nat := 24 + 64 * 8192

/-- The refresh of a die has started: with the first write of its bank, in the page order of the fill (R312). -/
def dieRefreshed (c : Col) (due die : Nat) : Bool := decide (c.refFrom + die / 2 * pageFill + die % 2 * 64 ≤ due)

/-- Perform every owed refresh as one insertion of 4 + 36 n cycles (R288). -/
def insertOwed (s : State) (g : Nat) : State :=
  let os := (s.col g).owed
  if os = [] then s
  else
    let t := os.foldl (fun u o => o.dies.foldl (refreshDie g o.row o.due) u) s
    delayOp ((t.modCol g fun c => { c with owed := [] }).modStack (stackOf g) fun x => { x with refInsertions := x.refInsertions + 1 })
      g (4 + 36 * os.length)

/-- An insertion is due: eight intervals are owed, or no operation uses the port. -/
def insertionDue (s : State) (g : Nat) : Bool :=
  decide (8 ≤ (s.col g).owed.length) || ((s.col g).owed ≠ [] && !portBusy s g)

/-- OWED_REFRESH_INSERTION (R288). -/
def execOwedRefreshInsertion (g : PickId) (s : State) : Result :=
  .next (if insertionDue s g.val then insertOwed s g.val else s)

/-- The pointer's next interval; at its return to 0 the activation counts are cleared (R287, R294). -/
def nextInterval (s : State) (g : Nat) : State :=
  let c := s.col g
  let c1 := { c with refK := (c.refK + 1) % 4096, refDue := c.refDue + trefi c.refRate, rescueLeft := c.rescueLeft - 1 }
  if c.refK = 4095 then
    let t := s.setCol g { c1 with act := [], segCounts := [], floorLast := c.floorF, floorF := 0 }
    let m := t.cols.foldl (fun a p => if stackOf p.1 = stackOf g then max a p.2.floorLast else a) 0
    t.modStack (stackOf g) fun k => { k with floorMax := BitVec.ofNat 16 (min m 65535) }
  else s.setCol g c1

/-- Interval k of a column falls due (R287, R288, R292). -/
def refreshDue (s : State) (g : Nat) : State :=
  let c0 := s.col g
  if c0.refStarted && !c0.retired && decide (c0.refDue ≤ s.now) then
    let s1 := columnRate s g
    let k := c0.refK
    let due := c0.refDue
    let busy := busyDies s1 g
    let dies := (List.range 16).filter (dieRefreshed c0 due)
    let idle := dies.filter fun d => !(busy.contains d) || waivedAt s1 g k due d
    let owe := dies.filter fun d => busy.contains d && !(waivedAt s1 g k due d)
    let s2 := owe.foldl (creditChecked g k due) (idle.foldl (refreshDie g k due) s1)
    let s3 :=
      if owe = [] then s2
      else
        let t := if 8 ≤ (s2.col g).owed.length then insertOwed s2 g else s2
        let u := t.modCol g fun c => { c with owed := c.owed ++ [⟨k, due, owe⟩] }
        u.modStack (stackOf g) fun x => { x with owedMax := BitVec.ofNat 8 (max x.owedMax.toNat (u.col g).owed.length) }
    nextInterval s3 g
  else s

/-- REFRESH_INTERVAL_DUE (R287). -/
def execRefreshIntervalDue (g : PickId) (s : State) : Result := .next (refreshDue s g.val)

/-! ## Targeted refresh (R294, R295) -/

/-- Physical neighbours at distance 1 and 2 of some physical rows of a bank; spare rows count, and follow the 4,096 rows
(log entry 22). -/
def neighbours (rows : List Nat) : List Nat :=
  (List.range 4128).filter fun p => rows.any fun r => p ≠ r && decide (p ≤ r + 2) && decide (r ≤ p + 2)

/-- The oldest targeted refresh that is due: at once beside the row steps, or as an insertion on a busy die. -/
def targetedRefresh (s : State) (g : Nat) : State :=
  match (s.col g).trrOwed with
  | [] => s
  | (die, x, seg) :: rest =>
    let rows := if seg then (List.range 128).map fun i => physRow (s.col g) die (128 * x + i) else []
    let cyc := if seg then 4 + 36 * (neighbours rows).length else 148
    let t := if (busyDies s g).contains die then delayOp s g cyc else s
    (t.modCol g fun c => { c with trrOwed := rest }).modStack (stackOf g) fun k =>
      if seg then { k with segTrr := satInc k.segTrr } else { k with rowTrr := satInc k.rowTrr }

/-- TARGETED_REFRESH (R295). -/
def execTargetedRefresh (g : PickId) (s : State) : Result := .next (targetedRefresh s g.val)

/-- A row-step boundary (R285): refresh work that is due, the requests whose claim waits ended, then up to eight granules of the
others in arrival order. -/
def rowStepBoundary (s : State) (g : Nat) : State :=
  let s1 := if insertionDue s g then insertOwed s g else s
  let s2 := (s1.col g).trrOwed.foldl (fun t _ => targetedRefresh t g) s1
  serveColumn s2 g 8

/-- ROW_STEP_BOUNDARY (R285). -/
def execRowStepBoundary (g : PickId) (s : State) : Result := .next (rowStepBoundary s g.val)

/-! ## Command paths (R296, R437) -/

/-- Cycles within which a further alert falls in the same replayed window: the alert's 8, tRP and tRCD, the window's 8 and the
alert's 8 again (log entry 23). -/
abbrev replayWindow : Nat := 48

/-- Complete the ordinary requests that wait for a column with POISON (R296): a write among them is not applied. -/
def poisonWaits (s : State) (g : Nat) : State :=
  let t := (s.waits.filter fun r => r.col == g).foldl (fun u r =>
    granDone { u with waits := u.waits.filter fun x => x.seq ≠ r.seq } r.xfer r.base stPoison (List.replicate r.len (0, true))) s
  crossbarIn t (stackOf g)

/-- A column's command path fails: waiting requests and running operations end with POISON, the record and the EMCY are
written, and the pick is fenced. -/
def pathFail (s : State) (g : Nat) : State :=
  let n := stackOf g
  let s1 := s.setCol g { s.col g with pathFailed := true, laneTraining := false, laneTrained := false, alerts := 0 }
  let s2 := poisonWaits s1 g
  let s3 := ((s2.col g).window.filter fun o => o.started.isSome).foldl (fun t o =>
    if (t.col g).window.any fun x => x.uid == o.uid then pickEnd t g o stPoison else t) s2
  let s4 := s3.modStack n fun k => { k with cmdFailures := satInc k.cmdFailures }
  let s5 := raiseEmcy (logRec s4 { event := 0x07, status := stPoison, unit := BitVec.ofNat 16 g, src := 0,
                                   info := BitVec.ofNat 64 (s4.stack n).cmdAlerts.toNat }) 0x5040 3 g
  if (s5.col g).fenced then s5 else fenceJob (fencePickNow s5 g) true g 2

/-- COMMAND_PARITY_ALERT (R296): a replay, at the fourth alert of one window a lane training, and after that a failed path. -/
def parityAlert (s : State) (g : Nat) : State :=
  let c := s.col g
  if c.pathFailed || c.laneTraining then s
  else
    let n := stackOf g
    let s1 := s.modStack n fun k => { k with cmdAlerts := satInc k.cmdAlerts }
    let same := c.alerts ≠ 0 && decide (s.now ≤ c.alertAt + replayWindow)
    let cnt := if same then c.alerts + 1 else 1
    if same && c.laneTrained then pathFail s1 g
    else if cnt = 4 then
      (s1.setCol g { c with alerts := 0, laneTraining := true }).modStack n fun k => { k with cmdRetrains := satInc k.cmdRetrains }
    else
      (s1.setCol g { c with alerts := cnt, alertAt := s.now, laneTrained := false }).modStack n fun k =>
        { k with cmdReplays := satInc k.cmdReplays }

/-- COMMAND_PARITY_ALERT (R296). -/
def execCommandParityAlert (g : PickId) (s : State) : Result := .next (parityAlert s g.val)

/-- COMMAND_LANE_RETRAINED (R296): the buffered commands are replayed once more, and the requests held meanwhile go on. -/
def laneRetrained (s : State) (g : Nat) : State :=
  let c := s.col g
  if c.laneTraining then
    serveFree ((s.setCol g { c with laneTraining := false, laneTrained := true, alerts := 1, alertAt := s.now }).modStack (stackOf g)
      fun k => { k with cmdReplays := satInc k.cmdReplays }) g
  else s

/-- COMMAND_LANE_RETRAINED (R296). -/
def execCommandLaneRetrained (g : PickId) (s : State) : Result := .next (laneRetrained s g.val)

/-! ## The hub link (R297) -/

/-- A LINK record of a stack link (Table 15.4): states as Table 11.8 codes them, 3 up and 5 retraining (log entry 24). -/
def logShaftLink (s : State) (n : Nat) (state : Nat) : State :=
  logRec s { event := 0x08, unit := BitVec.ofNat 16 (n + 16), src := 0, info := BitVec.ofNat 64 state }

/-- Frames of a replay buffer from a sequence number on, oldest first. -/
def framesFrom (fs : List (Byte × Byte × List Byte)) (seq : Byte) : List (Byte × Byte × List Byte) :=
  (fs.filter fun f => decide ((f.1 - seq).toNat < 128)).reverse

/-- A frame was sent: the sender keeps its last 128 (R297). -/
def frameKept (fs : List (Byte × Byte × List Byte)) (f : Byte × Byte × List Byte) : List (Byte × Byte × List Byte) :=
  if fs.contains f then fs else (f :: fs.filter fun x => x.1 ≠ f.1).take 128

/-- A frame is replayed, or after four replays of it the link retrains. -/
def linkNak (s : State) (n : Nat) (down : Bool) : State :=
  let k := s.stack n
  let exp := if down then k.seqDown else k.seqUp
  let cnt := if down then k.replayDown else k.replayUp
  if 4 ≤ cnt then
    logShaftLink (s.setStack n { k with linkUp := false, linkDownAt := s.now, linkRetrains := satInc k.linkRetrains,
                                        replayDown := 0, replayUp := 0, dropDown := false, dropUp := false }) n 5
  else
    let k1 := { k with linkReplays := satInc k.linkReplays }
    let k2 := if down then { k1 with replayDown := cnt + 1, dropDown := true } else { k1 with replayUp := cnt + 1, dropUp := true }
    ((s.setStack n k2).emit (.shaftNak n exp)).emit (.shaftReplay n exp (framesFrom (if down then k.framesDown else k.framesUp) exp))

/-- A frame arrives: delivered once and in order, or discarded with a NAK. -/
def linkFrame (s : State) (n : Nat) (down : Bool) (seq ftype : Byte) (payload : List Byte) (crc : W32) : State :=
  let k0 := s.stack n
  let exp := if down then k0.seqDown else k0.seqUp
  let drop := if down then k0.dropDown else k0.dropUp
  let good := decide (payload.length = 64) && crc32 ([seq, ftype] ++ payload) == crc
  let k := if !good then k0
    else if down then { k0 with framesDown := frameKept k0.framesDown (seq, ftype, payload) }
    else { k0 with framesUp := frameKept k0.framesUp (seq, ftype, payload) }
  if !k.linkUp then s
  else if good && seq = exp then
    s.setStack n (if down then { k with seqDown := k.seqDown + 1, replayDown := 0, dropDown := false }
                  else { k with seqUp := k.seqUp + 1, replayUp := 0, dropUp := false })
  else
    let s1 := if good then s.setStack n k else s.setStack n { k with linkCrcErrors := satInc k.linkCrcErrors }
    if drop && seq ≠ exp then s1 else linkNak s1 n down

/-- SHAFT_LINK_FRAME (R297). -/
def execShaftLinkFrame (n : StackId) (down : Bool) (seq ftype : Byte) (payload : List Byte) (crc : W32) (s : State) : Result :=
  .next (linkFrame s n.val down seq ftype payload crc)

/-- SHAFT_LINK_RETRAINED (R297): the link runs again, and the requests held for the stack go on in arrival order. -/
def shaftLinkRetrained (s : State) (n : Nat) : State :=
  if (s.stack n).linkUp || (s.stack n).linkRetrains = 0 then s
  else crossbarIn (logShaftLink (s.modStack n fun k => { k with linkUp := true }) n 3) n

/-- SHAFT_LINK_RETRAINED (R297). -/
def execShaftLinkRetrained (n : StackId) (s : State) : Result := .next (shaftLinkRetrained s n.val)

/-- A request that has waited 10 ms for a link that is down ends with TIMEOUT. -/
def stackRequestTimeout (s : State) (n : Nat) : State :=
  let k := s.stack n
  let late (t : Nat) : Bool := !k.linkUp && decide (max t k.linkDownAt + 10 * msCycles ≤ s.now)
  match s.waits.find? fun r => stackOf r.col == n && r.held && late r.arrived with
  | some r => requestTimeout s r
  | none => s

/-- STACK_REQUEST_TIMEOUT (R297). -/
def execStackRequestTimeout (n : StackId) (s : State) : Result := .next (stackRequestTimeout s n.val)

/-! ## The scrubber (R302, R305, R306) -/

/-- Idle cycles of a column: no admitted operation is ready for the port, no ordinary request waits, no insertion is due. -/
def colIdle (s : State) (g : Nat) : Bool :=
  let c := s.col g
  !portBusy s g && !((List.range 5).any fun i => canStart s g i && ((c.window[i]?).any fun o => o.claims ≠ [])) &&
    !(s.waits.any fun r => r.col == g) && !insertionDue s g && c.trrOwed = [] && !c.laneTraining && !c.pathFailed

/-- One codeword as the scrubber sees it. -/
def cwState (s : State) (g die row cw : Nat) : EccOut := eccDecode (tget 0 s.eccDiff (cwKey s g die row cw))

/-- Write a correctable codeword back corrected. -/
def cwFix (s : State) (g die row cw l : Nat) (e : Byte) : State :=
  let bs := eccFix (s.rdBytes (32 * cwKey s g die row cw) 32) l e
  (writeCw s g die row cw bs false).modStack (stackOf g) fun k => { k with scrubFixed := satInc k.scrubFixed }

/-- The first write-back entry of a column. -/
def wbqHead (s : State) (g : Nat) : Option W64 := (s.stack (stackOf g)).wbq.find? fun l => locCol l == g

/-- Serve a column's oldest write-back entry. -/
def writeBackEntry (s : State) (g : Nat) : State :=
  match wbqHead s g with
  | none => s
  | some l =>
    let die := locDie l
    let row := locRow l
    if colIdle s g then
      let t := actRow (s.modStack (stackOf g) fun k => { k with wbq := k.wbq.filter fun x => x ≠ l }) g die row
      match cwState t g die row (locCw l) with
      | .clean => t
      | .fix p e => cwFix t g die row (locCw l) p e
      | .bad => remapAuto (ueFound t g die row (locCw l) 0 0) (locator g die row 0)
    else s

/-- WRITE_BACK_ENTRY (R305). -/
def execWriteBackEntry (g : PickId) (s : State) : Result := .next (writeBackEntry s g.val)

/-- The scrubber's next row: the 16 banks in die order, then the next row; at the end a lap is complete. -/
def scrubAdvance (s : State) (g : Nat) : State :=
  s.modCol g fun c =>
    if c.scrubDie < 15 then { c with scrubDie := c.scrubDie + 1 }
    else if c.scrubRow < 4095 then { c with scrubDie := 0, scrubRow := c.scrubRow + 1 }
    else { c with scrubDie := 0, scrubRow := 0, scrubLap := s.now, scrubLaps := c.scrubLaps + 1,
                  scrubLapLast := (s.now - c.scrubLap) / usCycles }

/-- Scrub one codeword: a correctable one counts as any read does and is written back (R305); it needs no queue entry. -/
def scrubCw (g die row : Nat) (s : State) (cw : Nat) : State :=
  match cwState s g die row cw with
  | .clean => s
  | .fix l e =>
    let k := s.stack (stackOf g)
    let (k1, n) := suspectAdd { k with ceCount := satInc k.ceCount, lastCe := locator g die row cw } (locator g die row 0) cw
    let t := cwFix (s.setStack (stackOf g) k1) g die row cw l e
    if n = k1.ceRemapThresh.toNat then remapAuto t (locator g die row 0) else t
  | .bad => remapAuto (ueFound s g die row cw 0 0) (locator g die row 0)

/-- A scrub step: one row, or one row skipped because it is claimed. -/
def scrubStep (s : State) (g : Nat) : State :=
  let c := s.col g
  if (s.stack (stackOf g)).scrubEnable && c.refStarted && !c.retired && colIdle s g && (wbqHead s g).isNone then
    if rowClaimed s g c.scrubDie c.scrubRow then
      scrubAdvance (s.modStack (stackOf g) fun k => { k with scrubSkipped := satInc k.scrubSkipped }) g
    else
      scrubAdvance ((List.range 64).foldl (scrubCw g c.scrubDie c.scrubRow) (actRow s g c.scrubDie c.scrubRow)) g
  else s

/-- SCRUB_STEP (R305). -/
def execScrubStep (g : PickId) (s : State) : Result := .next (scrubStep s g.val)

/-- Live columns of a stack, for the scrubber's reports: neither fenced nor retired (R306). -/
def scrubCols (s : State) (n : Nat) : List Nat := (colsOf n).filter (pickLive s)

/-- Laps completed by the slowest column (R306). -/
def scrubLapsOf (s : State) (n : Nat) : Nat :=
  ((scrubCols s n).map fun g => (s.col g).scrubLaps).min?.getD 0

/-- Longest last lap in µs, 0 until every live column has completed one (R306). -/
def scrubLapLastOf (s : State) (n : Nat) : Nat :=
  if scrubLapsOf s n = 0 then 0 else (scrubCols s n).foldl (fun m h => max m (s.col h).scrubLapLast) 0

/-! ## Row repair (R307 to R311) -/

def remapIdx (n : Nat) : W16 := BitVec.ofNat 16 (0x3060 + 0x100 * n)

/-- A remap of the stack ends: its writer is answered, and the next automatic one starts. -/
def remapEnd (s : State) (n : Nat) (j : RemapJob) (st : Byte) : State :=
  let t := s.modStack n fun k => { k with remapJob := none }
  let u := match j.path with
    | some p => dictRelease t p (remapIdx n) 0x42 st
    | none => t
  match (u.stack n).remapQueue with
  | [] => u
  | l :: rest => remapAuto (u.modStack n fun k => { k with remapQueue := rest }) l

/-- A write to remap_req is held (R356). -/
def remapHeld (s : State) (n : Nat) : Bool :=
  match (s.stack n).remapJob with
  | some j => j.path.isSome
  | none => false

/-- A write to remap_req after checks 1 to 5 of Table 12.5: BUSY while one is held, then Table 10.10 (R356, R357). -/
def remapReqWrite (s : State) (p : DictPath) (n : Nat) (l : W64) : State × Option Byte :=
  if remapHeld s n then (s, some stBusy)
  else if bitsAt l 63 35 ≠ 0 || bitsAt l 33 31 ≠ n || bitAt l 34 then (s, some stOob)
  else if (s.col (locCol l)).retired then (s, some stFenced)
  else if (s.stack n).remapJob.isSome then (s, some stBusy)
  else if !(remapRoom s (locCol l) (locDie l) (locRow l)) then (logRemap s l stOob 0, some stOob)
  else (remapStart s (l &&& ~~~ 0x3F) (some p), none)

/-- REMAP_REQ (R309). -/
def execRemapReq (p : DictPath) (n : StackId) (loc : W64) (s : State) : Result :=
  .next (dictRow s p (remapIdx n.val) 0x42 (leBytes 8 loc.toNat) fun t => remapReqWrite t p n.val loc)

/-- Copy codewords of a row to a pillar row: corrected, or written poisoned (R308 step 3). -/
def copyCw (g die row spare : Nat) (s : State) (cw : Nat) : State :=
  let (t, bs, bad) := readCw s g die row cw 0 0
  let k := dramKey g die (4096 + spare) 0 / 32 + cw
  let u := t.wrBytes (32 * k) bs
  { u with eccDiff := tset 0 u.eccDiff k (if bad then poisonDiff else 0) }

/-- Enter a mapping: in place, where the row is already remapped (R308 step 4). -/
def enterRemap (c : Col) (die row spare : Nat) : Col :=
  let key := segKey die row
  let c1 := { c with segs := tset {} c.segs key {}, act := c.act.filter fun e => !(e.2.bank == die && e.2.row == row) }
  match c.remaps.find? fun r => r.die == die && r.row == row with
  | some r => { c1 with remaps := c.remaps.map fun x => if x = r then { x with spare := spare } else x,
                        sparesGone := c.sparesGone ++ [(die, r.spare)] }
  | none => { c1 with remaps := c.remaps ++ [⟨die, row, spare⟩] }

/-- The copy and the mapping of a remap whose claim is granted. -/
def remapDo (s : State) (n : Nat) (j : RemapJob) : State :=
  let g := locCol j.loc
  let die := locDie j.loc
  let row := locRow j.loc
  match freePillars s g die with
  | [] => remapEnd (logRemap s j.loc stOob 0) n j stOob
  | p :: _ =>
    let t := (List.range 64).foldl (copyCw g die row p) (actRow s g die row)
    let c := t.col g
    let v := if (tget {} c.segs (segKey die row)).credit.isSome then 1 else 0
    let u := (t.setCol g (enterRemap c die row p)).modStack n fun k =>
      { k with creditsVoided := satAdd k.creditsVoided v, remapsDone := satInc k.remapsDone }
    let w := { u with fuse := { u.fuse with svcRemaps :=
      (u.fuse.svcRemaps.filter fun r => !(r.col == g && r.die == die && r.row == row)) ++ [⟨g, die, row, p⟩] } }
    remapEnd (logRemap w j.loc stOk p) n j stOk

/-- REMAP_COPY: the claim is granted when what it waited for is gone; 200 cycles later the row is copied and mapped (R308). -/
def remapCopy (s : State) (n : Nat) : State :=
  match (s.stack n).remapJob with
  | none => s
  | some j =>
    match j.granted with
    | some a => if a + 200 ≤ s.now then remapDo s n j else s
    | none =>
      if (j.holders.all fun u => !holderStands s (locCol j.loc) u) && (j.behind.all fun q => !(s.waits.any fun x => x.seq == q)) then
        s.modStack n fun k => { k with remapJob := some { j with granted := some s.now } }
      else s

/-- REMAP_COPY (R308). -/
def execRemapCopy (n : StackId) (s : State) : Result := .next (remapCopy s n.val)

/-- A remap whose claim is not granted within 10 ms ends with TIMEOUT (Table 10.10). -/
def remapClaimTimeout (s : State) (n : Nat) : State :=
  match (s.stack n).remapJob with
  | none => s
  | some j =>
    if j.granted.isNone && decide (j.since + 10 * msCycles ≤ s.now) then remapEnd s n j stTimeout
    else s

/-- REMAP_CLAIM_TIMEOUT (R309). -/
def execRemapClaimTimeout (n : StackId) (s : State) : Result := .next (remapClaimTimeout s n.val)

/-- A remap table entry (Table 10.12). -/
def remapWord (r : Remap) : W32 := BitVec.ofNat 32 (2 ^ 31 + r.spare * 2 ^ 16 + r.die * 2 ^ 12 + r.row)

/-- A write to remap_sel after the checks of Table 12.5 (R313). -/
def remapSelWrite (s : State) (n v : Nat) : State × Byte :=
  if 511 < v then (s, stOob)
  else (s.modStack n fun k => { k with remapSel := BitVec.ofNat 16 v, remapSnap := (s.col (n * 512 + v)).remaps.map remapWord }, stOk)

/-- REMAP_SEL (R313). -/
def execRemapSel (p : DictPath) (n : StackId) (v : W16) (s : State) : Result :=
  .next (dictRow1 s p (remapIdx n.val) 1 (leBytes 2 v.toNat) fun t => remapSelWrite t n.val v.toNat)

/-- Fewest free pillar rows in any bank of a stack (Table 10.13, log entry 27). -/
def pillarFreeMin (s : State) (n : Nat) : Nat :=
  let used := (s.cols.filter fun p => stackOf p.1 == n).flatMap fun p =>
    (List.range 16).map fun d => (freePillars s p.1 d).length
  used.foldl min 32

end Sys2Proof.Machine
end

