-- ==== Sys2Proof/Machine/Port.lean ====
section
/-! DEFINITION. The Xeide ports: packets, held signals, forwarding, flits, training (R314 to R336). -/

namespace Sys2Proof.Machine

/-! ## Packet headers (Table 11.4) -/

def hdrType (h : BitVec 256) : Nat := bitsAt h 7 0
def hdrCls (h : BitVec 256) : Nat := bitsAt h 9 8
def hdrNc (h : BitVec 256) : Bool := bitAt h 10
def hdrSrc (h : BitVec 256) : BitVec 4 := BitVec.ofNat 4 (bitsAt h 15 12)
def hdrCtx (h : BitVec 256) : Nat := bitsAt h 21 16
def hdrDst (h : BitVec 256) : Nat := bitsAt h 27 24
def hdrOrg (h : BitVec 256) : Nat := bitsAt h 31 28
def hdrRtag (h : BitVec 256) : BitVec 10 := BitVec.ofNat 10 (bitsAt h 41 32)
def hdrLen (h : BitVec 256) : Nat := bitsAt h 60 48
def hdrAddr (h : BitVec 256) : Nat := bitsAt h 111 64
def hdrMcode (h : BitVec 256) : Nat := bitsAt h 127 120
def hdrStatus (h : BitVec 256) : Byte := BitVec.ofNat 8 (bitsAt h 135 128)
def hdrStamp (h : BitVec 256) : W32 := BitVec.ofNat 32 (bitsAt h 167 136)

abbrev ptRd : Nat := 0x01
abbrev ptWr : Nat := 0x02
abbrev ptRsp : Nat := 0x10
abbrev ptSig : Nat := 0x20
abbrev ptNotice : Nat := 0x21
abbrev ptMsg : Nat := 0x30

/-- Reserved fields of a header are 0. -/
def hdrReserved (h : BitVec 256) : Bool :=
  bitsAt h 255 168 == 0 && bitsAt h 119 112 == 0 && bitsAt h 63 61 == 0 && bitsAt h 47 42 == 0 && bitsAt h 23 22 == 0 && !bitAt h 11

/-- Check 1 of Table 11.6 on a packet with its payload. -/
def hdrOk (h : BitVec 256) (n : Nat) : Bool :=
  let t := hdrType h
  let c := hdrCls h
  let st := (hdrStamp h).toNat
  hdrReserved h && hdrLen h == n &&
    (if t = ptRd then c == 2 && n == 0 && decide (1 ≤ st) && decide (st ≤ 4096)
     else if t = ptWr then c == 2 && decide (1 ≤ n) && decide (n ≤ 4096) && st == 0
     else if t = ptRsp then c == 0 && decide (n ≤ 4096) && st == 0
     else if t = ptSig then c == 1 && (n == 8 || n == 16)
     else if t = ptNotice then c == 1 && n == 8 && st == 0
     else if t = ptMsg then c == 3 && decide (n ≤ 256) && st == 0
     else false)

/-- The port's `ctx_mask` admits a context. -/
def ctxAllowed (p : Port) (c : Nat) : Bool := bitAt p.ctxMask c

/-- A packet discarded (R322, R335). -/
def malformed (s : State) (k : PortId) : State := s.modPort k fun p => { p with rxMalformed := satInc p.rxMalformed }

/-! ## Held signals (R271, R272) -/

/-- The stamp of a held operation is met. -/
def stampMet (p : Port) (h : Hold) : Bool := decide ((tget 0 p.fence h.src.toNat - h.stamp).toNat < 2 ^ 31)

/-- Apply a signal and answer it. -/
def applySig (s : State) (k : PortId) (h : Hold) : State :=
  let (t, st) := tallyPageWrite s (.partner k h.src h.tag) h.ctx.toNat h.off.toNat h.data
  portRsp t k h.src h.tag h.ctx.toNat st []

/-- A held signal leaves the hold queue and its pool (R324). -/
def unhold (s : State) (k : PortId) (h : Hold) : State :=
  poolLeave (s.modPort k fun p => { p with holds := p.holds.erase h }) k 1 h.data.length

/-- A held signal completes with TIMEOUT (R272, R334). -/
def timeoutSig (s : State) (k : PortId) (h : Hold) : State :=
  let t := unhold s k h
  portRsp { t with tally := { t.tally with stampTimeouts := satInc t.tally.stampTimeouts } } k h.src h.tag h.ctx.toNat stTimeout []

/-- The oldest held signal of a source. -/
def firstHold (p : Port) (src : BitVec 4) : Option Hold := p.holds.find? fun h => h.src == src

/-- A signal arrives: it is applied, or held behind its stamp and the earlier ones of its source. -/
def arriveSig (s : State) (k : PortId) (h : Hold) : State :=
  let p := s.port k
  if (firstHold p h.src).isNone && stampMet p h then applySig s k h
  else
    let (n, t) := s.newReq
    poolKeep (t.modPort k fun p => { p with holds := p.holds ++ [{ h with req := n }] }) k 1 h.data.length

/-- SIG_STAMP_MET: the oldest held signal of a source whose stamp is met is applied. -/
def sigStampMet (s : State) (k : PortId) (src : BitVec 4) : State :=
  let p := s.port k
  match firstHold p src with
  | none => s
  | some h => if stampMet p h then applySig (unhold s k h) k h else s

/-- SIG_STAMP_MET (R271). -/
def execSigStampMet (k : PortId) (src : BitVec 4) (s : State) : Result := .next (sigStampMet s k src)

/-- A TALLY record of a held signal (R272). -/
def logStamp (s : State) (k : PortId) (h : Hold) : State :=
  let t := match opRegion h.off.toNat with
    | some r => tallyOf s h.ctx.toNat r
    | none => none
  logTally s (codeOf (.partner k h.src h.tag)) h.ctx.toNat stTimeout (BitVec.ofNat 16 (t.getD 0xFFFF))
    ((tget 0 (s.port k).fence h.src.toNat).toNat * 2 ^ 32 + h.stamp.toNat)

/-- STAMP_TIMEOUT: a held signal of a source not applied within 10 ms. -/
def stampTimeout (s : State) (k : PortId) (src : BitVec 4) : State :=
  let p := s.port k
  match p.holds.find? fun h => h.src == src && decide (h.since + 10 * msCycles ≤ s.now) with
  | none => s
  | some h =>
    timeoutSig (logStamp s k h) k h

/-- STAMP_TIMEOUT (R272). -/
def execStampTimeout (k : PortId) (src : BitVec 4) (s : State) : Result := .next (stampTimeout s k src)

/-- Every held signal of a port completes with TIMEOUT (R272, R334). -/
def dropHolds (s : State) (k : PortId) : State := (s.port k).holds.foldl (fun t h => timeoutSig t k h) s

/-! ## Forwarding (R330, R331) -/

/-- A forwarded request completes to its originator. -/
def fwdDone (s : State) (f : FwdReq) (st : Byte) (data : List Byte) : State :=
  match f.origin with
  | none => s
  | some j =>
    let t := if f.wr && f.counted then fenceCount s j f.src else s
    portRsp t j f.src f.tag f.ctx.toNat st (if f.wr then [] else data)

/-- Refuse a request packet: a WR counts in the fence of its source, and the response carries the request's own fields (R271, R320). -/
def refusePacket (s : State) (k : PortId) (h : BitVec 256) (st : Byte) : State :=
  portRsp (if hdrType h = ptWr then fenceCount s k (hdrSrc h) else s) k (hdrSrc h) (hdrRtag h) (hdrCtx h) st [] (hdrOrg h)

/-- Forward a request from port k, or refuse it. It waits for its start in the forwarding pool of port k (R324, R330, R331). -/
def forward (s : State) (k : PortId) (h : BitVec 256) (data : List Byte) : State :=
  let p := s.port k
  let bad := refusePacket (s.setPort k { p with fwdRefused := satInc p.fwdRefused }) k h stProt
  if hj : hdrDst h < 6 then
    let j : PortId := ⟨hdrDst h, hj⟩
    if hdrType h = ptSig || j = k || !bitAt p.fwd j.val || !licensed s 3 then bad
    else if !portRuns (s.port j) then refusePacket s k h stBusy
    else
      let f : FwdReq := { dst := j, origin := some k, src := hdrSrc h, tag := hdrRtag h, ctx := BitVec.ofNat 6 (hdrCtx h),
                          wr := hdrType h == ptWr }
      portSend (poolKeep { s with fwds := s.fwds ++ [f] } k 2 data.length) j h data (some k)
  else bad

/-! ## Packets (R322, R323) -/

/-- Check 1 of Table 11.6 on a request of type `t`, new class C2 requests during a warm reset (R385), checks 2 to 4, then what the
request does. -/
def requestPacket (s : State) (k : PortId) (t : Nat) (h : BitVec 256) (data : List Byte) (f : State) : State :=
  if hdrType h ≠ t || !(hdrOk h data.length) then refusePacket s k h stMode
  else if s.life.warm.isSome && hdrCls h == 2 then refusePacket s k h stBusy
  else if hdrOrg h ≠ k.val || !ctxAllowed (s.port k) (hdrCtx h) then refusePacket s k h stProt
  else if hdrDst h ≠ 15 then forward s k h data
  else if hdrAddr h / 2 ^ 40 ≠ 0 then refusePacket s k h stOob
  else f

/-- A read request. -/
def rdPacket (s : State) (k : PortId) (h : BitVec 256) : State :=
  requestPacket s k ptRd h []
    (request s (.partner k (hdrSrc h) (hdrRtag h)) (hdrCtx h) false (hdrNc h) (hdrAddr h) (hdrStamp h).toNat [])

/-- A write request. -/
def wrPacket (s : State) (k : PortId) (h : BitVec 256) (data : List Byte) : State :=
  requestPacket s k ptWr h data
    (request s (.partner k (hdrSrc h) (hdrRtag h)) (hdrCtx h) true (hdrNc h) (hdrAddr h) data.length data)

/-- An offset of the module's own pages that R32 leaves unimplemented. -/
def unimplemented (s : State) (pa n : Nat) : Bool :=
  let pn := pa / 2 ^ 24
  let off := pa % 2 ^ 24
  if isTallyPage pn then (opRegion off).isNone && (debugRegion s off).isNone
  else if isQueuePage pn then decide (0x401000 ≤ off)
  else if isMirrorPage pn then decide (0x10000 ≤ off)
  else if isAperturePage pn then (regionOf off n).isNone
  else paCheck s pa n == stOob

/-- A signal: it must translate to an operation region of the tally port page; an offset that is not implemented leaves the record of
R32. -/
def sigPacket (s : State) (k : PortId) (h : BitVec 256) (data : List Byte) : State :=
  let o : Origin := .partner k (hdrSrc h) (hdrRtag h)
  let c := hdrCtx h
  requestPacket s k ptSig h data (match translate s c (hdrAddr h) data.length true (!hdrNc h) with
    | .fail st => answer (xlateRefused s o c (hdrAddr h) st) o c false st [] (hdrAddr h)
    | .pa pa =>
      if isTallyPage (pa / 2 ^ 24) && (opRegion (pa % 2 ^ 24)).isSome then
        arriveSig s k { src := hdrSrc h, tag := hdrRtag h, ctx := BitVec.ofNat 6 c, stamp := hdrStamp h,
                        off := BitVec.ofNat 24 (pa % 2 ^ 24), data := data, since := s.now }
      else
        answer (if unimplemented s pa data.length then holeRefused s o c (hdrAddr h) else s) o c false stOob [] (hdrAddr h))

/-- The request that a response answers: on its port, with its source, tag and origin. -/
def answered (s : State) (k : PortId) (h : BitVec 256) : Option FwdReq :=
  s.fwds.find? fun f => f.dst == k && f.tag == hdrRtag h && f.src == hdrSrc h &&
    (match f.origin with
     | some j => j.val == hdrOrg h
     | none => hdrOrg h == 15 || hdrOrg h == k.val)

/-- A record's write to a partner ended. -/
def recAnswered (s : State) (f : FwdReq) (st : Byte) : State :=
  match (s.queue f.queue).records.find? fun x => x.rseq == f.rseq && x.sent && !x.acked with
  | none => s
  | some x => if st = stOk then recSent s f.queue x true else recDrop s f.queue x st

/-- A response: it completes a forwarded request or a record write; one that answers nothing any more is discarded. -/
def rspPacket (s : State) (k : PortId) (h : BitVec 256) (data : List Byte) : State :=
  if hdrType h ≠ ptRsp || !(hdrOk h data.length) then malformed s k
  else
    match answered s k h with
    | none => s
    | some f =>
      let t := { s with fwds := s.fwds.erase f }
      if f.origin.isNone then recAnswered t f (hdrStatus h) else fwdDone t f (hdrStatus h) data

/-- Checks 1 to 4 of Table 11.6 as they bear on a message, which is not forwarded (R320, R322, R330). -/
def msgOk (p : Port) (k : PortId) (h : BitVec 256) (n : Nat) : Bool :=
  hdrType h == ptMsg && hdrOk h n && hdrOrg h == k.val && ctxAllowed p (hdrCtx h) && hdrDst h == 15 && hdrAddr h / 2 ^ 40 == 0

/-- A message: an ECHO is returned; any other code is discarded. -/
def echoPacket (s : State) (k : PortId) (h : BitVec 256) (data : List Byte) : State :=
  if msgOk (s.port k) k h data.length && hdrMcode h == 0x05 then portMsg s k 0x05 data else malformed s k

/-- A packet that arrived whole. A NOTICE to the module has no destination and is discarded as malformed. -/
def packetIn (s : State) (k : PortId) (h : BitVec 256) (data : List Byte) : State :=
  let t := hdrType h
  if t = ptRd then rdPacket s k h
  else if t = ptWr then wrPacket s k h data
  else if t = ptSig then sigPacket s k h data
  else if t = ptRsp then rspPacket s k h data
  else if t = ptMsg then echoPacket s k h data
  else if t = ptNotice then malformed s k
  else refusePacket s k h stMode

/-- A packet arrives whole while the port runs: its credits go back as it leaves its pool (R324). -/
def onPort (s : State) (k : PortId) (h : BitVec 256) (n : Nat) (f : State → State) : State :=
  if portRuns (s.port k) then portFlush (f (poolBack s k h n)) k else s

/-- RD (R322). -/
def execRd (k : PortId) (hdr : BitVec 256) (s : State) : Result := .next (onPort s k hdr 0 fun t => rdPacket t k hdr)

/-- WR (R323). -/
def execWr (k : PortId) (hdr : BitVec 256) (data : List Byte) (s : State) : Result :=
  .next (onPort s k hdr data.length fun t => wrPacket t k hdr data)

/-- SIG (R271). -/
def execSig (k : PortId) (hdr : BitVec 256) (data : List Byte) (s : State) : Result :=
  .next (onPort s k hdr data.length fun t => sigPacket t k hdr data)

/-- RSP (R331). -/
def execRsp (k : PortId) (hdr : BitVec 256) (data : List Byte) (s : State) : Result :=
  .next (onPort s k hdr data.length fun t => rspPacket t k hdr data)

/-- ECHO (R335). -/
def execEcho (k : PortId) (hdr : BitVec 256) (data : List Byte) (s : State) : Result :=
  .next (onPort s k hdr data.length fun t => echoPacket t k hdr data)

/-! ## Widths (R315) -/

/-- Lanes lo to lo + n − 1 that are failed. -/
def failedIn (lanes : BitVec 17) (lo n : Nat) : List Nat := ((List.range n).map (lo + ·)).filter (bitAt lanes)

/-- A group of lanes can be used: at most one failed, and then a good spare. -/
def groupOk (lanes : BitVec 17) (lo n : Nat) : Bool :=
  let f := failedIn lanes lo n
  f = [] || (decide (f.length = 1) && !bitAt lanes 16)

/-- Groups of lanes in the order of Table 11.2: width, first lane. -/
def laneGroups : List (Nat × Nat) := [(16, 0), (8, 0), (8, 8), (4, 0), (4, 4), (4, 8), (4, 12)]

/-- Width and the logical lane that the spare replaces (0xFF: none). -/
def chooseWidth (lanes : BitVec 17) : Nat × Nat :=
  match laneGroups.find? fun g => groupOk lanes g.2 g.1 with
  | none => (0, 0xFF)
  | some (w, lo) => (w, match failedIn lanes lo w with
    | [] => 0xFF
    | l :: _ => l - lo)

/-! ## Training (R332 to R336) -/

/-- A LINK record of a port (Table 15.4). -/
def logPort (s : State) (k : PortId) : State :=
  let p := s.port k
  logRec s { event := 0x08, unit := BitVec.ofNat 16 k.val, src := 0,
             info := BitVec.ofNat 64 (p.lanesFailed.toNat * 2 ^ 32 + p.width.toNat * 2 ^ 8 + p.state.toNat) }

/-- The requests that the module holds for the partner of a port end with TIMEOUT: forwarded ones, and on DOWN its records too
(R331, R334). -/
def endForwards (s : State) (k : PortId) (records : Bool) : State :=
  let gone (f : FwdReq) : Bool := f.dst == k && (records || f.origin.isSome)
  (s.fwds.filter gone).foldl (fun t f => if f.origin.isNone then recAnswered t f stTimeout else fwdDone t f stTimeout [])
    { s with fwds := s.fwds.filter fun f => !(gone f) }

/-- A running port begins to retrain. -/
def retrain (s : State) (k : PortId) : State :=
  let p := s.port k
  if portRuns p then
    let t := s.setPort k { p with state := 5, retrains := satInc p.retrains, tries := 0, firstTraining := false }
    endForwards (dropHolds t k) k false
  else s

/-- A packet that waited for a port is not sent: a forwarded request leaves its pool (R324). -/
def dropPacket (s : State) (x : TxPkt) : State :=
  match x.pool with
  | none => s
  | some j => portIdle j 2 (poolLeave s j 2 x.data.length)

/-- What was received from a port completes without a response: transfers go on for nobody, forwarded requests are forgotten (R334). -/
def forgetFrom (s : State) (k : PortId) : State :=
  { s with
    xfers := s.xfers.map fun x => match x.owner with
      | .partner j _ _ => if j = k then { x with owner := .nobody } else x
      | _ => x,
    fwds := s.fwds.filter fun f => f.origin ≠ some k }

/-- A port stops for good: nothing waits on it any more (R334, R336). -/
def portStop (s : State) (k : PortId) (state : Byte) : State :=
  let p := s.port k
  let t := s.setPort k { p with state := state, width := 0, spareFor := 0xFF, txWait := [], txBuf := [], unacked := [], rxBuf := [],
                                discarding := false, holds := [], ackOwed := false, owed := {}, held := {}, c2Wait := 0 }
  condEnd (endForwards (forgetFrom (p.txWait.foldl dropPacket t) k) k true) 0xFF02 k.val

/-- A port goes DOWN: the record, the EMCY, and every request for its partner ends (R333, R334). -/
def portDown (s : State) (k : PortId) : State :=
  let t := logPort (portStop s k 6) k
  condStart t 0xFF01 k.val 7 k.val

/-- Begin a first training. -/
def firstTrain (s : State) (k : PortId) : State :=
  condEnd (s.modPort k fun p => { p with state := 2, tries := 0, firstTraining := true }) 0xFF01 k.val

/-- A lane is marked failed, and a running port retrains (R316). -/
def laneFailed (s : State) (k : PortId) (lane : Nat) : State :=
  let p := s.port k
  if bitAt p.lanesFailed lane then s
  else
    let t := s.setPort k { p with lanesFailed := setBit p.lanesFailed lane true }
    if portRuns p then logPort (retrain t k) k else t

/-- LANE_LOSS_OF_LOCK (R316). -/
def execLaneLossOfLock (k : PortId) (lane : Fin 17) (s : State) : Result :=
  .next (if 2 ≤ (s.port k).state.toNat && (s.port k).state ≠ 6 then laneFailed s k lane.val else s)

/-- PORT_RETRAIN (R334): the partner asks for it. -/
def execPortRetrain (k : PortId) (s : State) : Result := .next (retrain s k)

/-- Flits that a sequence number acknowledges leave. -/
def ackFlits (p : Port) (aseq : BitVec 12) : Port :=
  if p.unacked.any fun u => u.seq == aseq then { p with unacked := (p.unacked.dropWhile fun u => u.seq ≠ aseq).drop 1 } else p

/-- Every unacknowledged flit is sent again, in order (R318). -/
def resend (s : State) (k : PortId) (fresh : Bool) : State :=
  let p := s.port k
  (s.setPort k { p with flitReplays := satAdd p.flitReplays p.unacked.length,
                        unacked := p.unacked.map fun x => { x with sends := if fresh then 1 else x.sends + 1 } }).emits
    (p.unacked.map fun x => .flit k x.bytes)

/-- A port's training ended well: the lanes that the fuse map marks bad are failed at every training (R381); its width, what each end
tells the other, and the flits sent again (R333). -/
def trained (s : State) (k : PortId) (bad : BitVec 17) (c1 c2 c3 : W16) (peerSeq : BitVec 12) : State :=
  let p := s.port k
  let lanes := p.lanesFailed ||| bad ||| tget 0 s.fuse.badXlanes k.val
  let (w, sp) := chooseWidth lanes
  if w = 0 || c1.toNat < 1 || c2.toNat < 17 || c3.toNat < 1 then portDown (s.setPort k { p with lanesFailed := lanes }) k
  else
    let p1 := { p with lanesFailed := lanes, width := BitVec.ofNat 8 w, spareFor := BitVec.ofNat 8 sp, tries := 0, fence := [],
                       state := if w = 16 then 3 else 4,
                       peerCredits := BitVec.ofNat 64 (c1.toNat * 2 ^ 32 + c2.toNat * 2 ^ 16 + c3.toNat) }
    let p2 := if p.firstTraining then
        { p1 with credit1 := c1.toNat, credit2 := c2.toNat, credit3 := c3.toNat, rxSeq := 0, txSeq := 0, txBuf := [], unacked := [],
                  rxBuf := [], discarding := false, ackOwed := false, owed := {}, held := {}, c2Wait := 0 }
      else { ackFlits p1 peerSeq with discarding := false, ackOwed := false }
    let t := { (s.setPort k p2).emit (.training k lanes [portPools.c1, portPools.c2l, portPools.c2f, portPools.c3] (p2.rxSeq - 1)) with
      xfers := s.xfers.map fun x => match x.owner with
        | .partner j _ _ => if j = k then { x with counted := false } else x
        | _ => x,
      fwds := s.fwds.map fun f => if f.origin = some k then { f with counted := false } else f }
    let u := condEnd t 0xFF01 k.val
    let v := if w = 16 then condEnd u 0xFF02 k.val else condStart u 0xFF02 k.val 7 (k.val + w * 256)
    portFlush (resend v k true) k

/-- PORT_TRAINING_DONE: an attempt ended; the third failure in succession leaves the port DOWN. -/
def trainingDone (s : State) (k : PortId) (good : Bool) (bad : BitVec 17) (c1 c2 c3 : W16) (peerSeq : BitVec 12) : State :=
  let p := s.port k
  if p.state ≠ 2 && p.state ≠ 5 then s
  else if good then trained s k bad c1 c2 c3 peerSeq
  else if p.tries < 2 then s.setPort k { p with tries := p.tries + 1, lanesFailed := p.lanesFailed ||| bad }
  else portDown (s.setPort k { p with lanesFailed := p.lanesFailed ||| bad }) k

/-- PORT_TRAINING_DONE (R333). -/
def execPortTrainingDone (k : PortId) (good : Bool) (bad : BitVec 17) (c1 c2 c3 : W16) (peerSeq : BitVec 12) (s : State) : Result :=
  .next (trainingDone s k good bad c1 c2 c3 peerSeq)

/-- Index of the objects of a port. -/
def portIdx (k : PortId) : W16 := BitVec.ofNat 16 (0x2410 + k.val)

/-- A write to `retrain_req`: a running port retrains, a DOWN one trains again; elsewhere nothing begins (R316, R333). -/
def retrainReq (s : State) (k : PortId) (v : Nat) : State × Byte :=
  if v ≠ 1 && v ≠ 2 then (s, stOob)
  else
    let t := if v = 2 then s.modPort k fun p => { p with lanesFailed := 0, laneErrs := [] } else s
    if portRuns (t.port k) then (retrain t k, stOk)
    else if (t.port k).state = 6 then (firstTrain t k, stOk)
    else (t, stOk)

/-- RETRAIN_REQ (R316). -/
def execRetrainReq (p : DictPath) (k : PortId) (v : Byte) (s : State) : Result :=
  .next (dictRow1 s p (portIdx k) 6 [v] fun t => retrainReq t k v.toNat)

/-- A write to `port_enable` (R336): 1 begins a first training, of a port that runs too, which stops first. -/
def portEnable (s : State) (k : PortId) (v : Nat) : State × Byte :=
  let p := s.port k
  if 1 < v then (s, stOob)
  else if v = 0 then
    let t := s.setPort k { p with enable := false }
    if p.state = 0 || p.state = 1 then (t, stOk) else (condEnd (portStop (retrain t k) k 1) 0xFF01 k.val, stOk)
  else if !portLicensed s k.val then (logRefused s (.unit 0) 0 stLicence 4, stLicence)
  else
    let t := s.setPort k { p with enable := true }
    if p.state = 0 && !s.life.opened then (t, stOk)
    else
      let u := if 2 ≤ p.state.toNat && p.state ≠ 6 then portStop (retrain t k) k 1 else t
      (firstTrain (u.setDomain (4 + k.val) { u.domain (4 + k.val) with state := 1 }) k, stOk)

/-- PORT_ENABLE (R336). -/
def execPortEnable (p : DictPath) (k : PortId) (v : Byte) (s : State) : Result :=
  .next (dictRow1 s p (portIdx k) 2 [v] fun t => portEnable t k v.toNat)

/-- A write to `fwd_matrix` of a port (Table 11.13, R5). -/
def fwdMatrix (s : State) (k : PortId) (v : Nat) : State × Byte :=
  if !licensed s 3 then (logRefused s (.unit 0) 0 stLicence 8, stLicence)
  else if v / 64 ≠ 0 || v.testBit k.val then (s, stOob)
  else (s.modPort k fun p => { p with fwd := BitVec.ofNat 8 v }, stOk)

/-! ## Flits (R317, R318) -/

def flitSeq (f : Nat) : BitVec 12 := BitVec.ofNat 12 (f / 2 ^ 18)
def flitAck (f : Nat) : BitVec 12 := BitVec.ofNat 12 (f / 2 ^ 6)
def flitType (f : Nat) : Nat := f / 2 ^ 30 % 4

/-- Cut whole packets off the stream and take them in (structural on the count). -/
def takePackets (k : PortId) : Nat → State → State
  | 0, s => s
  | n + 1, s =>
    let p := s.port k
    if p.rxBuf.length < 32 then s
    else
      let h : BitVec 256 := BitVec.ofNat 256 (leNat (p.rxBuf.take 32))
      let len := hdrLen h
      if p.rxBuf.length < 32 + len then s
      else
        takePackets k n (packetIn (poolBack (s.setPort k { p with rxBuf := p.rxBuf.drop (32 + len) }) k h len) k h
          ((p.rxBuf.drop 32).take len))

/-- A NAK: what it acknowledges leaves, the rest is sent again; a fifth send retrains instead (R318). -/
def nakIn (s : State) (k : PortId) (aseq : BitVec 12) : State :=
  let p := ackFlits (s.port k) aseq
  let t := s.setPort k p
  if !portRuns p then s
  else if p.unacked.any fun u => decide (4 ≤ u.sends) then retrain t k
  else portFlush (resend t k false) k

/-- NAK (R318). -/
def execNak (k : PortId) (aseq : BitVec 12) (s : State) : Result := .next (nakIn s k aseq)

/-- The receiver asks for a replay: a NAK whose `aseq` names the last good flit (R318). -/
def sendNak (s : State) (k : PortId) : State :=
  let (bs, q) := buildFlit (s.port k) 2 0 []
  (s.setPort k { q with discarding := true }).emit (.flit k bs)

/-- Uncorrectable codewords on lanes: counted, and a lane with more than 16 within 1 ms fails (R316). -/
def laneErrors (s : State) (k : PortId) (lanes : List (Fin 17)) : State :=
  lanes.foldl (fun t l =>
    let p := t.port k
    let es := (p.laneErrs.filter fun e => decide (t.now < e.2 + msCycles)) ++ [(l.val, t.now)]
    let u := t.setPort k { p with fecUncorrected := satInc p.fecUncorrected, laneErrs := es }
    if 16 < (es.filter fun e => e.1 == l.val).length then laneFailed u k l.val else u) s

/-- Credits that a good flit returns (Table 11.3). -/
def takeCredits (p : Port) (f : Nat) : Port :=
  { p with credit1 := p.credit1 + f / 2 ^ 56 % 256, credit2 := p.credit2 + f / 2 ^ 48 % 256 + f / 2 ^ 40 % 256,
           credit3 := p.credit3 + f / 2 ^ 32 % 256 }

/-- What a good flit acknowledges and returns. -/
def flitHeader (s : State) (k : PortId) (f : Nat) : State := s.modPort k fun p => takeCredits (ackFlits p (flitAck f)) f

/-- A good flit that is not discarded: the DATA flit expected brings its packets; one that came before is dropped, and one that shows a
gap calls for a replay. IDLE and NAK flits carry acknowledgements and credits. While a replay is awaited every other flit is discarded
whole (R318). -/
def goodFlit (s : State) (k : PortId) (flit : List Byte) : State :=
  let f := leNat (flit.take 8)
  let ty := flitType f
  let p := s.port k
  if ty = 1 && flitSeq f = p.rxSeq then
    let t := (flitHeader s k f).modPort k fun q =>
      { q with rxSeq := q.rxSeq + 1, discarding := false, ackOwed := true, rxBuf := q.rxBuf ++ (flit.drop 8).take 244 }
    portFlush (takePackets k 16 t) k
  else if p.discarding || ty = 3 then s
  else if ty = 1 then (if (p.rxSeq - flitSeq f).toNat < 2048 then s else sendNak s k)
  else if ty = 2 then nakIn (flitHeader s k f) k (flitAck f)
  else portFlush (flitHeader s k f) k

/-- FLIT_RECEIVED: delivered if good, or discarded with a NAK. -/
def flitIn (s : State) (k : PortId) (corrected : W16) (bad : List (Fin 17)) (flit : List Byte) : State :=
  let p := s.port k
  if !portRuns p then s
  else
    let t := laneErrors (s.setPort k { p with fecCorrected := satAdd p.fecCorrected corrected.toNat }) k bad
    if bad = [] && flit.length = 256 && crc32 (flit.take 252) == BitVec.ofNat 32 (leNat (flit.drop 252)) then goodFlit t k flit
    else if portRuns (t.port k) then sendNak t k
    else t

/-- FLIT_RECEIVED (R318). -/
def execFlitReceived (k : PortId) (corrected : W16) (badLanes : List (Fin 17)) (flit : List Byte) (s : State) : Result :=
  .next (flitIn s k corrected badLanes flit)

end Sys2Proof.Machine
end

