-- ==== Sys2Proof/Machine/Foreman.lean ====
section
/-! DEFINITION. The step foreman and the cluster foremen: steps, their programs, dispatch and completion (R230 to R241). -/

namespace Sys2Proof.Machine

/-! ## Programs (R230, R233) -/

/-- Every operation code of Table 8.6. -/
def sopDefined (op : Nat) : Bool :=
  [sopEnd, sopEmit, sopJump, sopSetn, sopSignal, sopWaitw, sopTask, sopLode, sopScore, sopValue, sopMerge].contains op

def sopImm (d : BitVec 512) : W32 := BitVec.ofNat 32 (bitsAt d 207 176)
def sopCtally (d : BitVec 512) : W16 := BitVec.ofNat 16 (bitsAt d 175 160)
def sopTokVa (d : BitVec 512) : Nat := bitsAt d 167 128
def sopNidx (d : BitVec 512) : Nat := bitsAt d 149 148
def sopCond (d : BitVec 512) : Nat := bitsAt d 147 144
/-- Index that a JUMP at h reaches. -/
def jumpTarget (h : Nat) (d : BitVec 512) : Int := (h : Int) + signed 16 (bitsAt d 143 128)

/-- An operation of a program of n operations that R230 refuses. -/
def opRefused (n i : Nat) (d : BitVec 512) : Bool :=
  let op := hdrOp d
  if op = sopEnd || op = sopEmit then bitsAt d 511 168 ≠ 0
  else if op = sopJump || op = sopSetn || op = sopSignal then
    bitsAt d 511 208 ≠ 0 || bitsAt d 159 150 ≠ 0 ||
      (op == sopJump && (decide (3 < sopCond d) || decide (jumpTarget i d < 0) || decide ((n : Int) ≤ jumpTarget i d))) ||
      (op == sopSignal && sopCond d % 4 == 3)
  else if op = sopWaitw then bitsAt d 511 208 ≠ 0
  else if op = sopLode then bitsAt d 299 298 == 3
  else if op = sopScore then bitsAt d 306 305 ≠ 3
  else if op = sopValue then bitsAt d 306 305 == 3
  else if op = sopMerge then bitsAt d 241 240 == 3
  else !sopDefined op

/-- The first refused operation of a program. -/
def badOp (ps : List (BitVec 512)) : Option Nat :=
  (ps.zipIdx.find? fun x => opRefused ps.length x.2 x.1).map (·.2)

/-- Operations out of the bytes of a program. -/
def programOf (bs : List PByte) : List (BitVec 512) :=
  (List.range (bs.length / 64)).map fun i => BitVec.ofNat 512 (pbNat ((bs.drop (64 * i)).take 64))

/-- Change the step of a queue. -/
def modStep (s : State) (q : Nat) (f : StepRun → StepRun) : State :=
  s.modQueue q fun k => { k with step := k.step.map f }

/-- The operation at the head; past the last one stands END without tokens (R233). -/
def headDesc (x : StepRun) : BitVec 512 :=
  if x.head < x.prog.length then stepDesc x x.head else BitVec.ofNat 512 sopEnd

/-- The head moves to an operation; its watch is registered as it arrives (R231, R239, R262). -/
def setHead (s : State) (q h : Nat) : State :=
  let t := modStep s q fun x => { x with head := h, headAt := s.now, wait := .idle }
  match (t.queue q).step with
  | none => t
  | some x =>
    let d := headDesc x
    if hdrWait d then
      let (u0, out) := innerWatch t (.step q) x.ctx.toNat (hdrWtally d) (hdrWval d) (hdrWcons d)
      match (withTag (hdrTag d) t u0, out) with
      | (u, .fired) => stepWait u q .met
      | (u, .armed) => stepWait u q .watching
      | (u, .queued) =>
        stepWait { u with foreman := { u.foreman with watchWaits := satInc u.foreman.watchWaits } } q .watching
      | (u, .fail st) => stepStop u q (x.seqNext + 1) st h
    else t

/-! ## Starting steps (R230, R238, R245) -/

/-- Steps start in MAINTENANCE, SERVICE and DEGRADED, and in BRINGUP once step 9 has completed (Table 13.1). -/
def stepsMayStart (s : State) : Bool :=
  (s.life.state == 3 || s.life.state == 4 || s.life.state == 5 || (s.life.state == 2 && s.life.opened)) && !computeBusy s

/-- A slot waits for a window boundary (R245). -/
def slotWindowed (s : State) (a : Accepted) : Bool := slotWin a.slot && s.win.len ≠ 0

/-- A queue has a step that may start; at a boundary a windowed one that was ready at its stamp. -/
def stepEligible (s : State) (boundary : Bool) (q : Nat) : Bool :=
  let k := s.queue q
  match k.accepted with
  | [] => false
  | a :: _ =>
    k.step.isNone && (!slotWindowed s a || (boundary && decide (max a.stamp k.prevDone ≤ s.win.boundary)))

/-- The next of candidates in rotation after the one served last. -/
def rotate (last : Option Nat) (qs : List Nat) : Option Nat :=
  match last with
  | none => qs.head?
  | some l =>
    match qs.find? fun q => decide (l < q) with
    | some q => some q
    | none => qs.head?

/-- The queue whose step starts next: priority 1 before 0, in rotation within each. -/
def nextStart (s : State) (boundary : Bool) : Option Nat :=
  let qs := (List.range 64).filter (stepEligible s boundary)
  let hi := qs.filter fun q => (s.queue q).prio == 1
  if hi ≠ [] then rotate s.foreman.lastStart1 hi else rotate s.foreman.lastStart0 qs

/-- Who the foreman's accesses for a step are made for, with a tag. -/
def stepReq (q : Nat) (x : StepRun) (tag : W16) : Req := ⟨.queue q, codeForeman, x.ctx, tag⟩

/-- What the foreman accessed for a step is forgotten. -/
def stepDrop (s : State) (q : Nat) : State := innerDrop s fun w => w == .queue q

/-- Read and validate the program of a step that has none yet (R230). -/
def loadStep (s : State) (q : Nat) : State :=
  match (s.queue q).step with
  | none => s
  | some x =>
    if x.prog ≠ [] || x.stopped then s
    else
      match cleanOnly (fetchRange s (stepReq q x (slotTag x.slot)) 0 (slotProg x.slot) (64 * slotNops x.slot)) with
      | .wait t => t
      | .fail st t => stepStop (stepDrop t q) q 0 st 0
      | .ok t bs =>
        let u := stepDrop t q
        let ps := programOf bs
        match badOp ps with
        | some i => stepStop u q 0 stMode i
        | none => setHead (modStep u q fun x => { x with prog := ps }) q (slotStartOp x.slot)

/-- The oldest accepted step of a queue becomes active. -/
def startStep (s : State) (q : Nat) : State :=
  let k := s.queue q
  match k.accepted with
  | [] => s
  | a :: rest =>
    let x : StepRun := { slot := a.slot, index := a.index, ctx := BitVec.ofNat 6 k.context.toNat, started := s.now, prog := [],
                         head := slotStartOp a.slot, headAt := s.now, windowed := slotWindowed s a }
    let f := s.foreman
    let t := s.setQueue q { k with accepted := rest, step := some x }
    loadStep { t with foreman := if k.prio = 1 then { f with lastStart1 := some q } else { f with lastStart0 := some q } } q

/-- Start steps while there are places and eligible queues (structural on the count). -/
def startSteps (boundary : Bool) : Nat → State → State
  | 0, s => s
  | n + 1, s =>
    if stepsMayStart s && decide (stepsActive s < 8) then
      match nextStart s boundary with
      | none => s
      | some q => startSteps boundary n (startStep s q)
    else s

/-- STEP_START: programs that wait to be read are read, then the next eligible step starts. -/
def stepStart (s : State) : State :=
  startSteps false 1 ((List.range 64).foldl loadStep s)

/-- STEP_START (R238). -/
def execStepStart (s : State) : Result := .next (stepStart s)

/-! ## Executors (R239, Table 8.9) -/

def taskTarget (d : BitVec 512) : Nat := bitsAt d 181 180
def taskCluster (d : BitVec 512) : Nat := bitsAt d 183 182
def taskFace (d : BitVec 512) : Nat := bitsAt d 189 184

/-- Clusters whose foremen hold an entry of a TASK. -/
def taskClusters (d : BitVec 512) : List Nat :=
  if taskTarget d = 3 then [0, 1, 2, 3]
  else if taskTarget d = 1 then [clusterOfLogical (taskFace d)]
  else [taskCluster d]

/-- Every operation dispatched and not complete, with its descriptor. -/
def outstanding (s : State) : List (StepOp × BitVec 512) :=
  s.queues.flatMap fun p => match p.2.step with
    | none => []
    | some x => x.ops.map fun o => (o, stepDesc x o.index)

/-- Entries that the foreman of a cluster holds (`cf_outstanding`). -/
def clusterEntries (s : State) (c : Nat) : Nat :=
  ((outstanding s).filter fun x => !x.1.done && hdrOp x.2 == sopTask && (taskClusters x.2).contains c).length

/-- Passes that wait in the shaft sequencers, and merges that wait at the collar. -/
def passesWaiting (s : State) : Nat :=
  ((outstanding s).filter fun x => !x.1.begun && !x.1.done && [sopLode, sopScore, sopValue].contains (hdrOp x.2)).length
def mergesWaiting (s : State) : Nat :=
  ((outstanding s).filter fun x => !x.1.done && hdrOp x.2 == sopMerge).length

/-- The executor of an operation has room. -/
def executorRoom (s : State) (d : BitVec 512) : Bool :=
  let op := hdrOp d
  if op < sopTask then true
  else
    decide ((outstanding s).length < 512) &&
      (if op = sopTask then (taskClusters d).all fun c => decide (clusterEntries s c < 256)
       else if op = sopMerge then decide (mergesWaiting s < 16)
       else decide (passesWaiting s < 8))

/-! ## The head (R231, R233) -/

/-- A head whose watch could not be armed fails its step (R262, R427). -/
def headSettle (s : State) (q : Nat) : State :=
  match (s.queue q).step with
  | none => s
  | some x =>
    match x.wait with
    | .failed st => stepStop s q (x.seqNext + 1) st x.head
    | _ => s

/-- The step runs: loaded, not stopped, not at its end. -/
def stepRuns (x : StepRun) : Bool := x.prog ≠ [] && !x.stopped && x.fail.isNone && x.ended.isNone

/-- The three conditions of R231 on the head operation. -/
def headReady (s : State) (x : StepRun) : Bool :=
  let d := headDesc x
  stepRuns x && (!hdrHold d || x.ops = []) && (!hdrWait d || x.wait == .met) && executorRoom s d

/-- The head operation of a queue's step, when it has a code and may go. -/
def headAt (s : State) (q op : Nat) : Option (StepRun × BitVec 512) :=
  match (s.queue q).step with
  | none => none
  | some x => if hdrOp (headDesc x) == op && headReady s x then some (x, headDesc x) else none

/-- The completion signal of an operation: the status that it leaves (R231, R427). -/
def opSignal (s : State) (x : StepRun) (d : BitVec 512) (st : Byte) : State × Byte :=
  if hdrSig d then
    let (t, e) := tallyOp s codeForeman x.ctx.toNat (.virt (hdrStally d)) topAdd 1
    (withTag (hdrTag d) s t, if st = stOk then e else st)
  else (s, st)

/-- A control operation at the head completes: its signal, then the next head or the end of the dispatch. -/
def headDone (s : State) (q : Nat) (x : StepRun) (d : BitVec 512) (st : Byte) (next : Nat) : State :=
  let (t, e) := opSignal s x d st
  let u := modStep t q fun y => { y with seqNext := x.seqNext + 1 }
  if e = stOk then setHead u q next else stepStop u q (x.seqNext + 1) e x.head

/-- SETN. -/
def setn (s0 : State) (q : Nat) : State :=
  let s := headSettle s0 q
  match headAt s q sopSetn with
  | none => s
  | some (x, d) =>
    headDone (modStep s q fun y => { y with counters := tset 0 y.counters (sopNidx d) (sopImm d) }) q x d stOk (x.head + 1)

/-- SETN (R233). -/
def execSetn (q : QueueId) (s : State) : Result := .next (setn s q.val)

/-- JUMP. -/
def jump (s0 : State) (q : Nat) : State :=
  let s := headSettle s0 q
  match headAt s q sopJump with
  | none => s
  | some (x, d) =>
    let go (t : State) (b : Bool) : State := headDone t q x d stOk (if b then (jumpTarget x.head d).toNat else x.head + 1)
    if sopCond d = 0 then go s true
    else if sopCond d = 3 then
      let n := tget 0 x.counters (sopNidx d) - 1
      go (modStep s q fun y => { y with counters := tset 0 y.counters (sopNidx d) n }) (n ≠ 0)
    else
      match tallyOf s x.ctx.toNat (.virt (sopCtally d)) with
      | none =>
        headDone (withTag (hdrTag d) s (tallyRangeFault s codeForeman x.ctx.toNat (.virt (sopCtally d)))) q x d stTallyRange (x.head + 1)
      | some t =>
        let ge := decide ((sopImm d).toNat ≤ (s.cell t).value.toNat)
        go s (if sopCond d = 1 then ge else !ge)

/-- JUMP (R233). -/
def execJump (q : QueueId) (s : State) : Result := .next (jump s q.val)

/-- SIGNAL. -/
def signalOp (s0 : State) (q : Nat) : State :=
  let s := headSettle s0 q
  match headAt s q sopSignal with
  | none => s
  | some (x, d) =>
    let top := if sopCond d % 4 = 0 then topAdd else if sopCond d % 4 = 1 then topSub else topArrive
    let (t, st) := tallyOp s codeForeman x.ctx.toNat (.virt (sopCtally d)) top (sopImm d)
    headDone (withTag (hdrTag d) s t) q x d st (x.head + 1)

/-- SIGNAL (R233). -/
def execSignal (q : QueueId) (s : State) : Result := .next (signalOp s q.val)

/-- WAITW: it completes at the start of the window after the one in which it reached the head: at a boundary whose stamp lies after its
arrival there (R243, R245). -/
def waitw (s0 : State) (q : Nat) : State :=
  let s := headSettle s0 q
  match headAt s q sopWaitw with
  | none => s
  | some (x, d) => if s.win.len = 0 || decide (x.headAt < s.win.boundary) then headDone s q x d stOk (x.head + 1) else s

/-- WAITW (R245). -/
def execWaitw (q : QueueId) (s : State) : Result := .next (waitw s q.val)

/-- The tokens at an address: a count, then eight tokens (R233); or the wait of the read. -/
def readTokens (s : State) (q : Nat) (x : StepRun) (va : Nat) : Chk (Byte × List W32) :=
  if va = 0 then .ok s (stOk, [])
  else
    match cleanOnly (fetchRange s (stepReq q x (hdrTag (headDesc x))) 0 va 36) with
    | .wait t => .wait t
    | .fail st t => .ok (stepDrop t q) (st, [])
    | .ok u bs =>
      let t := stepDrop u q
      let n := pbNat (bs.take 4)
      if 8 < n then .ok t (stOob, [])
      else .ok t (stOk, (List.range n).map fun i => BitVec.ofNat 32 (pbNat ((bs.drop (4 + 4 * i)).take 4)))

/-- EMIT: a record with tokens; the step goes on. -/
def emitOp (s0 : State) (q : Nat) : State :=
  let s := headSettle s0 q
  match headAt s q sopEmit with
  | none => s
  | some (x, d) =>
    match readTokens s q x (sopTokVa d) with
    | .wait t => t
    | .fail _ t => t
    | .ok t r =>
      let rec1 : RecInfo := { kind := 1, slot := x.index, seq := slotSeq x.slot, status := r.1,
                              failOp := if r.1 = stOk then 0 else x.head, cycles := s.now - x.started, assay := x.assay,
                              tokens := r.2, ovr := x.ovr }
      headDone (putRecord t q rec1) q x d r.1 (x.head + 1)

/-- EMIT (R233). -/
def execEmit (q : QueueId) (s : State) : Result := .next (emitOp s q.val)

/-- END: every earlier operation has completed; the step ends with its tokens. -/
def stepEnd (s0 : State) (q : Nat) : State :=
  let s := headSettle s0 q
  match headAt s q sopEnd with
  | none => s
  | some (x, d) =>
    if x.ops ≠ [] then s
    else
      match readTokens s q x (sopTokVa d) with
      | .wait t => t
      | .fail _ t => t
      | .ok t r =>
        let (u, e) := opSignal t x d r.1
        let v := modStep u q fun y => { y with seqNext := x.seqNext + 1, ended := some r.2 }
        if e = stOk then v else stepStop v q (x.seqNext + 1) e x.head

/-- STEP_END (R232). -/
def execStepEnd (q : QueueId) (s : State) : Result := .next (stepEnd s q.val)

/-! ## Dispatch (R231, R239) -/

/-- The head of a queue's step is ready and belongs to an executor. -/
def dispatchable (s : State) (q : Nat) : Bool :=
  match (s.queue q).step with
  | none => false
  | some x => decide (sopTask ≤ hdrOp (headDesc x)) && headReady s x

/-- A LODE dispatched with an indirect mask begins to read it; one that fails at once completes (R235). -/
def maskBegin (s : State) (q : Nat) (x : StepRun) (o : StepOp) (d : BitVec 512) : State :=
  if maskIndirect d then
    match maskRead s x o d with
    | .ok t _ => t
    | .wait t => t
    | .fail st t => stepOpDone (opDrop t o) q o.seq st 0
  else s

/-- Dispatch the head operation of a queue's step. -/
def dispatchHead (s : State) (q : Nat) : State :=
  match (s.queue q).step with
  | none => s
  | some x =>
    let (n, s1) := s.newReq
    let o : StepOp := { seq := x.seqNext + 1, index := x.head, order := n, at_ := s.now }
    let t := modStep { s1 with foreman := { s1.foreman with lastDispatch := some q } } q fun y =>
      { y with ops := y.ops ++ [o], seqNext := x.seqNext + 1 }
    setHead (maskBegin t q x o (headDesc x)) q (x.head + 1)

/-- Every queue's head settled, before one is chosen. -/
def headsSettled (s : State) : State := (List.range 64).foldl headSettle s

/-- The queue the rotation comes to. -/
def nextDispatch (s : State) : Option Nat := rotate s.foreman.lastDispatch ((List.range 64).filter (dispatchable s))

/-- Dispatch the head of the queue the rotation comes to, if it comes to one. -/
def dispatchNext (s : State) : State :=
  match nextDispatch s with
  | none => s
  | some q => dispatchHead s q

/-- OPERATION_DISPATCH: one operation, from the active steps in rotation. -/
def operationDispatch (s0 : State) : State := dispatchNext (headsSettled s0)

/-- OPERATION_DISPATCH (R231). -/
def execOperationDispatch (s : State) : Result := .next (operationDispatch s)

/-- WAIT_LIMIT_EXPIRY: an operation with `wait` has stood at the head for `wait_limit` ms (R240). -/
def waitLimitExpiry (s0 : State) (q : Nat) : State :=
  let s := headSettle s0 q
  let k := s.queue q
  match k.step with
  | none => s
  | some x =>
    if stepRuns x && hdrWait (headDesc x) && k.waitLimit ≠ 0 && decide (x.headAt + k.waitLimit.toNat * msCycles ≤ s.now) then
      stepStop s q (x.seqNext + 1) stTimeout x.head
    else s

/-- WAIT_LIMIT_EXPIRY (R240). -/
def execWaitLimitExpiry (q : QueueId) (s : State) : Result := .next (waitLimitExpiry s q.val)

/-! ## Tasks (R234) -/

/-- Live logical faces of a TASK's cluster, or of the module. -/
def gangFaces (s : State) (d : BitVec 512) : List Nat :=
  (liveFaces s).filter fun l => taskTarget d == 3 || clusterOfLogical l == taskCluster d

/-- A live face takes a binding of target ANY: it is not in a reset (R383). -/
def bindable (s : State) (l : Nat) : Bool :=
  match physicalOf s l with
  | none => false
  | some f => !(s.face f).resetting

/-- Argument words of a TASK. -/
def taskArgs (x : StepRun) (d : BitVec 512) : List W32 :=
  if bitAt d 179 then slotArgs x.slot
  else (List.range 8).map fun i => BitVec.ofNat 32 (bitsAt d (32 * i + 287) (32 * i + 256))

/-- Hand a task to the foreman of its face's cluster, whose domain wakes for it (R406). -/
def giveTask (s : State) (q : Nat) (x : StepRun) (o : StepOp) (d : BitVec 512) (args : List W32) (l : Nat) : State :=
  let c := s.cluster (clusterOfLogical l)
  (wakeDomain s (11 + clusterOfLogical l)).setCluster (clusterOfLogical l) { c with tasks := c.tasks ++
    [{ q := q, seq := o.seq, face := l, ctx := x.ctx, progVa := BitVec.ofNat 40 (bitsAt d 167 128), ndesc := bitsAt d 177 168,
       args := args, reload := bitAt d 178, tag := hdrTag d }] }

/-- Bind a TASK to faces: its members, each with its arguments. -/
def bindTask (s : State) (q : Nat) (x : StepRun) (o : StepOp) (d : BitVec 512) (ls : List Nat) : State :=
  let args := taskArgs x d
  let gang := decide (2 ≤ taskTarget d) && bitAt d 190
  let t := putStepOp s q { o with begun := true, members := ls.map fun l => { face := l } }
  ls.zipIdx.foldl (fun t m =>
    giveTask t q x o d (if gang then args.take 6 ++ [BitVec.ofNat 32 ls.length, BitVec.ofNat 32 m.2] else args) m.1) t

/-- TASK: the cluster foremen take the oldest dispatched task of a queue's step. -/
def taskOp (s : State) (q : Nat) : State :=
  match nextStepOp s q sopTask with
  | none => s
  | some (x, o, d) =>
    if taskTarget d = 1 then
      if 48 ≤ taskFace d then stepOpDone s q o.seq stMode 0
      else if faceLive s (taskFace d) then bindTask s q x o d [taskFace d]
      else stepOpDone s q o.seq stFenced 0
    else
      let ls := gangFaces s d
      if ls = [] then stepOpDone s q o.seq stFenced 0
      else if taskTarget d = 0 then
        let c := s.cluster (taskCluster d)
        match rotate c.last (ls.filter (bindable s)) with
        | none => s
        | some l => bindTask (s.setCluster (taskCluster d) { c with last := some l }) q x o d [l]
      else bindTask s q x o d ls

/-- TASK (R234). -/
def execTask (q : QueueId) (s : State) : Result := .next (taskOp s q.val)

/-! ## Completion (R231, R241) -/

/-- OPERATION_COMPLETION: the first dispatched operation that has ended leaves; its signal, its assay word, its status. -/
def operationCompletion (s : State) (q : Nat) : State :=
  match (s.queue q).step with
  | none => s
  | some x =>
    match x.ops.find? fun o => o.done with
    | none => s
    | some o =>
      let (t, e) := opSignal s x (stepDesc x o.index) o.status
      let u := modStep t q fun y =>
        { y with ops := y.ops.filter fun z => z.seq ≠ o.seq, assay := assayAdd y.assay o.assay }
      if e = stOk then u else stepStop u q o.seq e o.index

/-- OPERATION_COMPLETION (R231). -/
def execOperationCompletion (q : QueueId) (s : State) : Result := .next (operationCompletion s q.val)

/-- STEP_COMPLETION: END was executed or the dispatch stopped, and nothing is outstanding: the DONE record. -/
def stepCompletion (s : State) (q : Nat) : State :=
  let k := s.queue q
  match k.step with
  | none => s
  | some x =>
    if x.ops = [] && (x.ended.isSome || x.stopped) then
      let (st, at_) := match x.fail with
        | some (_, st, i) => (st, i)
        | none => (stOk, 0)
      let t := stepDrop (s.setQueue q { k with step := none, prevDone := s.now }) q
      putRecord { t with foreman := { t.foreman with stepsDone := t.foreman.stepsDone + 1 } } q
        { kind := 0, slot := x.index, seq := slotSeq x.slot, status := st, failOp := if st = stOk then 0 else at_,
          cycles := s.now - x.started, assay := x.assay, tokens := if st = stOk then x.ended.getD [] else [], ovr := x.ovr }
    else s

/-- STEP_COMPLETION (R241). -/
def execStepCompletion (q : QueueId) (s : State) : Result := .next (stepCompletion s q.val)

/-- Every active step completes as an ABORT completes it (R375). -/
def abortAll (s : State) : State := (List.range 64).foldl (fun t q => (queueAbort t q).1) s

end Sys2Proof.Machine
end

