-- ==== Sys2Proof/Machine/Host.lean ====
section
/-! DEFINITION. The host port: BAR0, the adit window, MSI-X, resets of the port (R337 to R344, R451). -/

namespace Sys2Proof.Machine

/-! ## Configuration space (Table 11.11) -/

/-- Class code: processing accelerator. -/
def hostClass : BitVec 24 := 0x120000

/-- Sizes of the BARs, by number; BAR4 is not implemented. -/
def barSize (n : Nat) : Nat := if n = 0 then 0x4000000 else if n = 2 then 0x1000000 else 0

/-- Max_Payload_Size supported, and the MSI-X vectors. -/
def hostPayload : Nat := 512
def hostVectors : Nat := 64

/-- Error reporting: AER is present; SR-IOV, ATS, PASID, PRI, FLR, Resizable BAR, MSI and INTx are not. -/
def hostAer : Bool := true

/-- The host reaches the function: the link is up and the port out of reset. -/
def hostUp (s : State) : Bool := s.host.link ≠ 0 && !s.host.perst

/-- The function answers at a BAR: the host reaches it and has assigned the BAR a base (R341). -/
def barServes (s : State) (n : Nat) : Bool := hostUp s && (if n = 0 then s.host.cfg.bar0 else s.host.cfg.bar2).isSome

/-! ## MSI-X (R340) -/

/-- A vector that is pending, unmasked and enabled is sent. -/
def sendPending (s : State) (v : Nat) : State :=
  if bitAt s.host.msixPending v && !msixMasked s v && s.host.cfg.msixEnable then
    hostMsix { s with host := { s.host with msixPending := setBit s.host.msixPending v false } } v
  else s

/-- Put an entry of the MSI-X table; a vector that is unmasked by it is sent if it is pending. -/
def msixWrite (s : State) (v : Nat) (e : BitVec 128) : State :=
  sendPending { s with host := { s.host with msixTable := tset msixReset s.host.msixTable v e } } v

/-- MSIX_UNMASK: a vector is unmasked, or (none) MSI-X is enabled. -/
def msixUnmask (s : State) : Option (Fin 64) → State
  | some v => msixWrite s v.val (setBit (tget msixReset s.host.msixTable v.val) 96 false)
  | none => (List.range hostVectors).foldl sendPending { s with host := { s.host with cfg := { s.host.cfg with msixEnable := true } } }

/-- MSIX_UNMASK (R340). -/
def execMsixUnmask (v : Option (Fin 64)) (s : State) : Result := .next (if hostUp s then msixUnmask s v else s)

/-! ## BAR0 (R338, R339) -/

/-- Module address that an offset of BAR0 below 0x300_0000 reaches (Table 11.12). -/
def bar0Addr (off : Nat) : Nat :=
  if off < 0x1000000 then 0xD000000000 + off
  else if off < 0x2000000 then 0xD100000000 + (off - 0x1000000)
  else 0xF000000000 + (off - 0x2000000)

/-- Bytes of the MSI-X table and of the pending bit array. -/
def msixByte (s : State) (i : Nat) : Byte := BitVec.ofNat 8 ((tget msixReset s.host.msixTable (i / 16)).toNat / 256 ^ (i % 16))

/-- A read of the MSI-X regions: whole words. -/
def msixRead (s : State) (off n : Nat) : Byte × List Byte :=
  if off % 4 ≠ 0 || n % 4 ≠ 0 then (stOob, [])
  else if off + n ≤ 0x3000400 then (stOk, (List.range n).map fun i => msixByte s (off - 0x3000000 + i))
  else if 0x3001000 ≤ off && off + n ≤ 0x3001008 then
    (stOk, sliceBytes (leBytes 8 s.host.msixPending.toNat) (off - 0x3001000) n)
  else (stOob, [])

/-- A write inside one entry of the MSI-X table; the pending bit array ignores writes. -/
def msixRegionWrite (s : State) (off : Nat) (data : List Byte) : State × Byte :=
  let n := data.length
  let o := off - 0x3000000
  if off % 4 ≠ 0 || n % 4 ≠ 0 then (s, stOob)
  else if off + n ≤ 0x3000400 && o / 16 = (o + n - 1) / 16 then
    let old := leBytes 16 (tget msixReset s.host.msixTable (o / 16)).toNat
    (msixWrite s (o / 16) (BitVec.ofNat 128 (leNat (overlay old (o % 16) data))), stOk)
  else if 0x3001000 ≤ off && off + n ≤ 0x3001008 then (s, stOk)
  else (s, stOob)

/-- HOST_READ. -/
def hostRead (s : State) (off n : Nat) (tag : BitVec 10) : State :=
  let o : Origin := .host tag
  if n = 0 || 4096 < n then answer s o 0 true stOob [] off
  else if off < 0x3000000 then
    if 2 ^ 24 < off % 2 ^ 24 + n then answer s o 0 true stOob [] off
    else pageRequest s o 0 false off (bar0Addr off) n []
  else
    let (st, bs) := msixRead s off n
    answer s o 0 true st bs off

/-- HOST_READ (R339). -/
def execHostRead (off : BitVec 26) (len : BitVec 13) (tag : BitVec 10) (s : State) : Result :=
  .next (if barServes s 0 then hostRead s off.toNat len.toNat tag else s)

/-- HOST_WRITE. -/
def hostWrite (s : State) (off : Nat) (data : List Byte) : State :=
  let o : Origin := .host 0
  let n := data.length
  if n = 0 || 4096 < n then answer s o 0 false stOob [] off
  else if off < 0x3000000 then
    if 2 ^ 24 < off % 2 ^ 24 + n then answer s o 0 false stOob [] off
    else pageRequest s o 0 true off (bar0Addr off) n data
  else
    let (t, st) := msixRegionWrite s off data
    answer t o 0 false st [] off

/-- HOST_WRITE (R339). -/
def execHostWrite (off : BitVec 26) (data : List Byte) (s : State) : Result :=
  .next (if barServes s 0 then hostWrite s off.toNat data else s)

/-! ## The adit window (R342, R343, R379) -/

/-- `adit_open`: BRINGUP after step 5, or MAINTENANCE. -/
def aditOpen (s : State) : Bool := (s.life.state == 2 || s.life.state == 3) && s.life.filled

/-- ADIT_ACCESS. -/
def aditAccess (s : State) (wr : Bool) (off n : Nat) (data : List Byte) (tag : BitVec 10) : State :=
  let o : Origin := .host tag
  let pn := s.host.aditPage.toNat
  if !aditOpen s then
    answer { s with host := { s.host with aditRefused := satInc s.host.aditRefused } } o 0 (!wr) stMode [] off
  else if n = 0 || 4096 < n || 2 ^ 24 < off + n then answer s o 0 (!wr) stOob [] off
  else if (s.col (homeCol pn)).retired then answer s o 0 (!wr) stFenced [] off
  else startXfer s (.host tag) 1 0 wr (BitVec.ofNat 64 off) (pn * 2 ^ 24 + off) n data

/-- ADIT_ACCESS (R343). -/
def execAditAccess (wr : Bool) (off : BitVec 24) (len : BitVec 13) (data : List Byte) (tag : BitVec 10) (s : State) : Result :=
  .next (if barServes s 2 then aditAccess s wr off.toNat (if wr then data.length else len.toNat) data tag else s)

/-- A write to `adit_page` (Table 11.13). -/
def aditPageWrite (s : State) (v : Nat) : State × Byte :=
  if 0x7FFF < v then (s, stOob) else ({ s with host := { s.host with aditPage := BitVec.ofNat 16 v } }, stOk)

/-! ## Link and resets (R341, R451) -/

/-- HOST_LINK_UP: the link trains while D03 is on and PERST_N is high; the host has then configured the function: bases for the BARs that
have none, and Bus Master Enable (log entry 15). -/
def hostLinkUp (s : State) (full : Bool) : State :=
  if domainOn s 3 then
    let (i, s1) := s.newFree
    let (j, s2) := s1.newFree
    let c := s2.host.cfg
    let d : HostConfig := { c with bar0 := c.bar0.or (some (Config.barBase i)), bar2 := c.bar2.or (some (Config.barBase j)),
                                   busMaster := true }
    condEnd { s2 with host := { s2.host with link := if full then 1 else 2, perst := false, cfg := d, lost := false } } 0xFF03 0
  else s

/-- HOST_LINK_UP (R341). -/
def execHostLinkUp (full : Bool) (s : State) : Result := .next (hostLinkUp s full)

/-- HOST_PORT_RESET: configuration space, MSI-X table and pending bits; a low PERST_N or a lost link also takes the link down. -/
def hostPortReset (s : State) (k : HostReset) : State :=
  let h := { s.host with msixTable := [], msixPending := 0, cfg := {} }
  match k with
  | .conventional => { s with host := h }
  | .perstLow =>
    let t := { s with host := { h with link := 0, perst := true, lost := h.lost || h.link ≠ 0 } }
    if s.host.link = 0 then t else condStart t 0xFF03 0 8 0
  | .linkDown =>
    let t := { s with host := { h with link := 0, lost := h.lost || h.link ≠ 0 } }
    if s.host.link = 0 then t else condStart t 0xFF03 0 8 0

/-- HOST_PORT_RESET (R341). -/
def execHostPortReset (k : HostReset) (s : State) : Result := .next (hostPortReset s k)

end Sys2Proof.Machine
end

