-- ==== Sys2Proof/Machine/Face.lean ====
section
/-! DEFINITION. The face sequencer: tasks, control descriptors and the scoreboard (R156 to R169 of chapter 06). -/

namespace Sys2Proof.Machine

/-! ## Descriptors (Tables 6.3 and 6.4) -/

abbrev opcEnd : Nat := 0x01
abbrev opcSetx : Nat := 0x02
abbrev opcSetvl : Nat := 0x03
abbrev opcLoop : Nat := 0x04
abbrev opcEndl : Nat := 0x05
abbrev opcBr : Nat := 0x06
abbrev opcWaitt : Nat := 0x07
abbrev opcTally : Nat := 0x08
abbrev opcFence : Nat := 0x09
abbrev opcMma : Nat := 0x10
abbrev opcMxv : Nat := 0x11
abbrev opcMstore : Nat := 0x12
abbrev opcVchain : Nat := 0x20
abbrev opcVhred : Nat := 0x21
abbrev opcPlanesum : Nat := 0x22
abbrev opcHoist : Nat := 0x30

def descOpc {w : Nat} (d : BitVec w) : Nat := bitsAt d 7 0
def descSerial {w : Nat} (d : BitVec w) : Bool := bitAt d 8
def descTag {w : Nat} (d : BitVec w) : W16 := BitVec.ofNat 16 (bitsAt d 31 16)
def ctlImm (d : BitVec 256) : W32 := BitVec.ofNat 32 (bitsAt d 63 32)
def ctlCond (d : BitVec 256) : Nat := bitsAt d 67 64
def ctlMk (d : BitVec 256) : Nat := bitsAt d 70 68
def ctlXa (d : BitVec 256) : Nat := bitsAt d 75 72
def ctlXd (d : BitVec 256) : Nat := bitsAt d 79 76
def ctlTarget (d : BitVec 256) : Int := signed 16 (bitsAt d 95 80)
def ctlTmo (d : BitVec 256) : Nat := bitsAt d 111 96
def ctlVtally (d : BitVec 256) : W16 := BitVec.ofNat 16 (bitsAt d 127 112)

def isControl (opc : Nat) : Bool := decide (1 ≤ opc) && decide (opc ≤ 9)
def isEngine (opc : Nat) : Bool :=
  [opcMma, opcMxv, opcMstore, opcVchain, opcVhred, opcPlanesum, opcHoist].contains opc

/-- Descriptors that an operation code takes. -/
def descCount (opc : Nat) : Nat := if opc = opcVchain then 3 else 1

/-! ## Validation (R159) -/

/-- What a scan of a program finds: for each descriptor the loop body it lies in (0 outside loops, else 1 + the index of the LOOP),
and whether it is a continuation. -/
structure Scanned where
  body : Nat
  cont : Bool
  deriving DecidableEq, Repr

/-- Scan descriptors from index i on; `skip` continuation descriptors follow; `open_` lists the open loops, innermost first. The first
offending index, or the scan. -/
def scanProgram : List (BitVec 256) → Nat → Nat → List Nat → Except Nat (List Scanned)
  | [], _, _, open_ => if open_ = [] then .ok [] else .error ((open_.getLastD 1) - 1)
  | d :: ds, i, skip, open_ =>
    let body := open_.headD 0
    let cons (x : Scanned) (r : Except Nat (List Scanned)) : Except Nat (List Scanned) :=
      match r with
      | .ok l => .ok (x :: l)
      | .error e => .error e
    if skip ≠ 0 then cons ⟨body, true⟩ (scanProgram ds (i + 1) (skip - 1) open_)
    else
      let opc := descOpc d
      if !isControl opc && !isEngine opc then .error i
      else if opc = opcVchain && decide (ds.length < 2) then .error i
      else if opc = opcLoop then
        if 4 ≤ open_.length then .error i else cons ⟨body, false⟩ (scanProgram ds (i + 1) 0 ((i + 1) :: open_))
      else if opc = opcEndl then
        if open_ = [] then .error i else cons ⟨body, false⟩ (scanProgram ds (i + 1) 0 (open_.drop 1))
      else cons ⟨body, false⟩ (scanProgram ds (i + 1) (descCount opc - 1) open_)

/-- Index that a BR at i reaches, when it lies in the program and in the same loop body. -/
def brTarget (n i : Nat) (d : BitVec 256) : Option Nat :=
  let t := (i : Int) + ctlTarget d
  if 0 ≤ t && t < (n : Int) then some t.toNat else none

/-- The first offending descriptor of a program, if there is one (R159). -/
def badDescriptor (ds : List (BitVec 256)) : Option Nat :=
  match scanProgram ds 0 0 [] with
  | .error e => some e
  | .ok sc =>
    (List.range ds.length).find? fun i =>
      let d := ds.getD i 0
      let x := sc.getD i ⟨0, false⟩
      !x.cont && descOpc d == opcBr &&
        match brTarget ds.length i d with
        | none => true
        | some t => (sc.getD t ⟨0, false⟩).body ≠ x.body

/-- Index after the ENDL that closes the loop opened at i: the count of loops open since. -/
def skipLoop : List (BitVec 256) → Nat → Nat → Nat → Nat
  | [], i, _, _ => i
  | d :: ds, i, skip, depth =>
    if skip ≠ 0 then skipLoop ds (i + 1) (skip - 1) depth
    else if descOpc d = opcLoop then skipLoop ds (i + 1) 0 (depth + 1)
    else if descOpc d = opcEndl then (if depth = 1 then i + 1 else skipLoop ds (i + 1) 0 (depth - 1))
    else skipLoop ds (i + 1) (descCount (descOpc d) - 1) depth

/-! ## Registers -/

/-- Scalar register x; X0 reads 0. -/
def xreg (t : Tab W32) (x : Nat) : W32 := if x = 0 then 0 else tget 0 t x
/-- Write scalar register x; X0 ignores writes. -/
def setX (t : Tab W32) (x : Nat) (v : W32) : Tab W32 := if x = 0 then t else tset 0 t x v

/-! ## Tasks as seen by the step -/

/-- A member of a task operation has ended; the operation ends with its last member: the status of the failing member with the lowest
logical face, and the sum of the assay words (R234). -/
def taskMemberDone (s : State) (q seq l : Nat) (st : Byte) (assay : W64) : State :=
  match (s.queue q).step with
  | none => s
  | some x =>
    match x.ops.find? fun o => o.seq == seq with
    | none => s
    | some o =>
      let ms := o.members.map fun m => if m.face = l && !m.done then { m with done := true, status := st, assay := assay } else m
      let t := putStepOp s q { o with begun := true, members := ms }
      if ms.all fun m => m.done then
        let bad := ms.filter fun m => m.status ≠ stOk
        let worst := match bad with
          | [] => stOk
          | m :: r => (r.foldl (fun a b => if b.face < a.face then b else a) m).status
        stepOpDone t q seq worst (assaySum (ms.map (·.assay)))
      else t

/-- Objects that a task's end updates (R169). -/
def countTask (c : Face) (st : Byte) (tag : Option W16) : Face :=
  { c with tasksDone := c.tasksDone + 1, lastStatus := st,
           lastFailTag := match tag with
             | some t => t
             | none => c.lastFailTag }

/-- A face sequencer asks its logical face's code. -/
def faceL (s : State) (f : Nat) : Nat := (s.face f).logical.getD 0

/-- Change the task of a face. -/
def modTask (s : State) (f : Nat) (g : FaceTask → FaceTask) : State :=
  s.modFace f fun c => { c with task := c.task.map g }

/-- A descriptor failed: the first in issue order counts, and nothing more is issued; a WAITT ends with its watch withdrawn (R169). -/
def taskFail (s : State) (f uid : Nat) (st : Byte) (tag : W16) : State :=
  let waits := (s.face f).task.any fun t => t.wait.waits
  modTask (if waits then faceWake (withdrawTarget s (.face (faceL s f))) f else s) f fun t =>
    { t with wait := .none, fail := match t.fail with
      | some (u, st0, tag0) => if uid < u then some (uid, st, tag) else some (u, st0, tag0)
      | none => some (uid, st, tag) }

/-! ## Task start (R158, R159) -/

/-- The task that the cluster foreman holds next for a logical face. -/
def heldTask (s : State) (l : Nat) : Option TaskReq :=
  (s.cluster (clusterOfLogical l)).tasks.find? fun t => t.face == l

/-- The foreman's entry of a task leaves. -/
def dropTask (s : State) (r : TaskReq) : State :=
  let c := s.cluster (clusterOfLogical r.face)
  s.setCluster (clusterOfLogical r.face) { c with tasks := c.tasks.erase r }

/-- A task that does not run ends with a status, and the tag of the descriptor that gave it, if one did. -/
def refuseTask (s : State) (f : Nat) (r : TaskReq) (st : Byte) (tag : Option W16 := none) : State :=
  taskMemberDone (dropTask (s.modFace f fun c => countTask c st tag) r) r.q r.seq r.face st 0

/-- Registers of a task that runs. -/
def taskRegs (c : Face) (r : TaskReq) : Face :=
  let xs := (r.args.zipIdx).foldl (fun t x => setX t (8 + x.2) x.1) ([] : Tab W32)
  let c1 := { c with xregs := xs, vl := 64, lastCtx := some r.ctx }
  if c.lastCtx = some r.ctx then c1 else { c1 with vregs := [], masks := [], accs := [], vinbuf := [] }

/-- Run a task whose program is in the buffer: validation, then the registers. The sequencer issues once a load of `load` bytes, 256 a
cycle, is over (R159). -/
def runTask (s : State) (f : Nat) (r : TaskReq) (load : Nat) : State :=
  match badDescriptor (s.face f).program with
  | some i =>
    let tag := descTag ((s.face f).program.getD i 0)
    refuseTask (logRefused s (.unit (codeFace r.face)) r.ctx stMode i tag) f r stMode (some tag)
  | none =>
    dropTask (s.modFace f fun c =>
      { taskRegs c r with task := some { q := r.q, seq := r.seq, ctx := r.ctx, started := s.now, seqAt := s.now + ceilDiv load 256 } }) r

/-- The program of a task, as bytes. -/
def descriptorsOf (bs : List PByte) : List (BitVec 256) :=
  (List.range (bs.length / 32)).map fun i => BitVec.ofNat 256 (pbNat ((bs.drop (32 * i)).take 32))

/-- TASK_START: an idle bound face of a cluster that is ON takes its next task. -/
def taskStart (s : State) (f : Nat) : State :=
  let c := s.face f
  match c.logical with
  | none => s
  | some l =>
    if c.task.isSome || c.fenced || c.resetting || !domainOn s (11 + clusterOf f) then s
    else
      match heldTask s l with
      | none => s
      | some r =>
        if !sramRight s r.ctx.toNat (0xC000 + l / 2) then refuseTask s f r stProt
        else if r.ndesc = 0 || 512 < r.ndesc then refuseTask s f r stOob
        else if r.reload || c.program = [] || c.progVa ≠ r.progVa || c.program.length ≠ r.ndesc then
          match cleanOnly (fetchRange s ⟨.face f, codeFace l, r.ctx, r.tag⟩ 0 r.progVa.toNat (32 * r.ndesc)) with
          | .wait t => t
          | .fail st t => refuseTask (innerDrop t fun w => w == .face f) f r st
          | .ok t bs =>
            runTask ((innerDrop t fun w => w == .face f).modFace f fun k =>
              { k with program := descriptorsOf bs, progVa := r.progVa }) f r (32 * r.ndesc)
        else runTask s f r 0

/-- TASK_START (R158). -/
def execTaskStart (f : FaceId) (s : State) : Result := .next (taskStart s f.val)

/-! ## Issue (R160, R167) -/

/-- The sequencer may issue: it runs, does not wait, nothing has failed, and its last descriptor's cycles have passed. -/
def issuing (t : FaceTask) (now : Nat) : Bool := t.wait == .none && t.fail.isNone && !t.ending && decide (t.seqAt ≤ now)

/-- The descriptor at the sequencer's place; past the last one stands END (R159). -/
def current (c : Face) (t : FaceTask) : BitVec 256 := c.program.getD t.pc (BitVec.ofNat 256 opcEnd)

/-- `serial` holds a descriptor until every earlier engine operation has completed. -/
def serialOk (t : FaceTask) (d : BitVec 256) : Bool := !descSerial d || t.ops = []

/-- The record of an engine descriptor, with its continuation descriptors. -/
def engineRecord (c : Face) (t : FaceTask) : BitVec 768 :=
  let d := current c t
  let k := if descOpc d = opcVchain then (c.program.getD (t.pc + 1) 0).toNat * 2 ^ 256 + (c.program.getD (t.pc + 2) 0).toNat * 2 ^ 512
           else 0
  BitVec.ofNat 768 (d.toNat + k)

/-- Let engine descriptors at the sequencer's place enter the scoreboard of 16, in order (structural on the count); a failed wait and
an undefined code end the task's issue. -/
def seqEnter (f : Nat) : Nat → State → State
  | 0, s => s
  | n + 1, s =>
    let c := s.face f
    match c.task with
    | none => s
    | some t =>
      match t.wait with
      | .failed st => taskFail { s with reqNext := s.reqNext + 1 } f s.reqNext st (descTag (current c t))
      | _ =>
        let d := current c t
        let opc := descOpc d
        if !issuing t s.now then s
        else if isEngine opc then
          if t.ops.length < 16 && serialOk t d then
            let (u, s1) := s.newReq
            seqEnter f n (modTask s1 f fun t =>
              { t with ops := t.ops ++ [{ uid := u, desc := engineRecord c t, index := t.pc, xs := c.xregs, vl := c.vl }],
                       pc := t.pc + descCount opc, seqAt := t.seqAt + 1 })
          else s
        else if isControl opc then s
        else taskFail { s with reqNext := s.reqNext + 1 } f s.reqNext stMode (descTag d)

/-- The face after the engine descriptors that could enter have done so. -/
def entered (s : State) (f : Nat) : State := seqEnter f 17 s

/-- The control descriptor of a code at the sequencer's place, when it may act now. -/
def controlAt (s : State) (f opc : Nat) : Option (FaceTask × BitVec 256) :=
  let c := s.face f
  match c.task with
  | none => none
  | some t =>
    let d := current c t
    if issuing t s.now && descOpc d == opc && serialOk t d then some (t, d) else none

/-- Scalar and mask registers that an operation in the scoreboard writes (R167): VHRED's xd; a VCHAIN's cx and the masks of its CMP
stages and its mask stream. -/
def writesX (o : EngOp) (x : Nat) : Bool :=
  let opc := descOpc o.desc
  x ≠ 0 && ((opc == opcVhred && bitsAt o.desc 51 48 == x) ||
    (opc == opcVchain && bitsAt o.desc 375 372 == x && (bitAt o.desc 55 || bitsAt o.desc 54 52 == 5)))

/-- Stage word i of a chain (Table 6.7). -/
def stageWord (d : BitVec 768) (i : Nat) : BitVec 32 := BitVec.ofNat 32 (bitsAt d (32 * i + 543) (32 * i + 512))
/-- Stages of a chain; the record holds at most eight. -/
def chainStages (d : BitVec 768) : List (BitVec 32) := (List.range (min 8 (bitsAt d 51 48))).map (stageWord d)

def writesM (o : EngOp) (m : Nat) : Bool :=
  descOpc o.desc == opcVchain &&
    ((bitAt o.desc 380 && bitsAt o.desc 383 381 == m) ||
      (chainStages o.desc).any fun w => bitsAt w 31 27 == 4 && bitsAt w 2 0 == m)

/-- No operation in the scoreboard still writes a scalar register; a mask register. -/
def xFree (t : FaceTask) (x : Nat) : Bool := t.ops.all fun o => !writesX o x
def mFree (t : FaceTask) (m : Nat) : Bool := t.ops.all fun o => !writesM o m

/-- A control descriptor fails, in its place in issue order. -/
def controlFail (s : State) (f : Nat) (d : BitVec 256) (st : Byte) : State :=
  taskFail { s with reqNext := s.reqNext + 1 } f s.reqNext st (descTag d)

/-- Go on at a descriptor after the cycles of the present one: one, or two for a taken BR (R167). -/
def goTo (s : State) (f pc : Nat) (cycles : Nat := 1) : State := modTask s f fun t => { t with pc := pc, seqAt := s.now + cycles }

/-! ## Control descriptors (R161 to R166) -/

/-- SETX. -/
def setx (s0 : State) (f : Nat) : State :=
  let s := entered s0 f
  match controlAt s f opcSetx with
  | none => s
  | some (t, d) =>
    if !(xFree t (ctlXa d) && xFree t (ctlXd d)) then s
    else
      let c := s.face f
      let a := xreg c.xregs (ctlXa d)
      let put (v : W32) : State := goTo (s.setFace f { c with xregs := setX c.xregs (ctlXd d) v }) f (t.pc + 1)
      if ctlCond d = 0 then put (a + ctlImm d)
      else if ctlCond d = 1 then put (a * ctlImm d)
      else if ctlCond d = 2 then put (a <<< ((ctlImm d).toNat % 32))
      else controlFail s f d stMode

/-- SETX (R162). -/
def execSetx (f : FaceId) (s : State) : Result := .next (setx s f.val)

/-- SETVL. -/
def setvl (s0 : State) (f : Nat) : State :=
  let s := entered s0 f
  match controlAt s f opcSetvl with
  | none => s
  | some (t, d) =>
    if !xFree t (ctlXa d) then s
    else
      let v := (xreg (s.face f).xregs (ctlXa d) + ctlImm d).toNat
      if v = 0 || 64 < v then controlFail s f d stOob
      else goTo (s.modFace f fun c => { c with vl := v }) f (t.pc + 1)

/-- SETVL (R162). -/
def execSetvl (f : FaceId) (s : State) : Result := .next (setvl s f.val)

/-- Begin an iteration of a loop: its index register, and for a strip the length. -/
def beginIter (c : Face) (l : LoopFrame) : Face :=
  { c with xregs := setX c.xregs l.xd l.iter, vl := if l.strip then min 64 l.elems else c.vl }

/-- LOOP. -/
def loopOpen (s0 : State) (f : Nat) : State :=
  let s := entered s0 f
  match controlAt s f opcLoop with
  | none => s
  | some (t, d) =>
    if !(xFree t (ctlXa d) && xFree t (ctlXd d)) then s
    else if 1 < ctlCond d then controlFail s f d stMode
    else
      let c := s.face f
      let n := (xreg c.xregs (ctlXa d) + ctlImm d).toNat
      if n = 0 then goTo s f (skipLoop (c.program.drop (t.pc + 1)) (t.pc + 1) 0 1)
      else
        let strip := ctlCond d == 1
        let l : LoopFrame := { start := t.pc + 1, left := if strip then ceilDiv n 64 else n, iter := 0, strip := strip, elems := n,
                               xd := ctlXd d }
        modTask (s.setFace f (beginIter c l)) f fun t => { t with pc := t.pc + 1, loops := l :: t.loops, seqAt := s.now + 1 }

/-- LOOP (R163). -/
def execLoopOpen (f : FaceId) (s : State) : Result := .next (loopOpen s f.val)

/-- ENDL. -/
def endl (s0 : State) (f : Nat) : State :=
  let s := entered s0 f
  match controlAt s f opcEndl with
  | none => s
  | some (t, _) =>
    match t.loops with
    | [] => goTo s f (t.pc + 1)
    | l :: rest =>
      if l.left ≤ 1 then modTask s f fun t => { t with pc := t.pc + 1, loops := rest, seqAt := s.now + 1 }
      else if !xFree t l.xd then s
      else
        let l' := { l with left := l.left - 1, iter := l.iter + 1, elems := l.elems - 64 }
        modTask (s.setFace f (beginIter (s.face f) l')) f fun t => { t with pc := l.start, loops := l' :: rest, seqAt := s.now + 2 }

/-- ENDL (R163). -/
def execEndl (f : FaceId) (s : State) : Result := .next (endl s f.val)

/-- Lanes 0 to vl − 1 of a mask. -/
def maskLanes (m : W64) (vl : Nat) : List Bool := (List.range vl).map (bitAt m)

/-- Outcome of a branch condition. -/
inductive BrOut where
  | taken (b : Bool)
  | later
  | fail (status : Byte)
  deriving DecidableEq, Repr

/-- Conditions 0 to 7 of R164; 8 and 9 read the tally once. -/
def brCond (s : State) (c : Face) (t : FaceTask) (l : Nat) (d : BitVec 256) : State × BrOut :=
  let a := xreg c.xregs (ctlXa d)
  let i := ctlImm d
  let lanes := maskLanes (tget 0 c.masks (ctlMk d)) c.vl
  let cond := ctlCond d
  if cond = 0 then (s, .taken true)
  else if cond ≤ 4 then
    if !xFree t (ctlXa d) then (s, .later)
    else (s, .taken (if cond = 1 then a == i else if cond = 2 then a != i
                     else if cond = 3 then decide (a.toNat < i.toNat) else decide (i.toNat ≤ a.toNat)))
  else if cond ≤ 7 then
    if !mFree t (ctlMk d) then (s, .later)
    else (s, .taken (if cond = 5 then lanes.any id else if cond = 6 then lanes.all id else !(lanes.any id)))
  else if cond ≤ 9 then
    match tallyOf s t.ctx.toNat (.virt (ctlVtally d)) with
    | none => (tallyRangeFault s (codeFace l) t.ctx.toNat (.virt (ctlVtally d)), .fail stTallyRange)
    | some v =>
      let ge := decide (i.toNat ≤ (s.cell v).value.toNat)
      (s, .taken (if cond = 8 then ge else !ge))
  else (s, .fail stMode)

/-- BR. -/
def branch (s0 : State) (f : Nat) : State :=
  let s := entered s0 f
  match controlAt s f opcBr with
  | none => s
  | some (t, d) =>
    let c := s.face f
    let (u0, out) := brCond s c t (faceL s f) d
    match (withTag (descTag d) s u0, out) with
    | (u, .later) => u
    | (u, .fail st) => controlFail u f d st
    | (u, .taken b) =>
      if b then goTo u f ((brTarget c.program.length t.pc d).getD (t.pc + 1)) 2 else goTo u f (t.pc + 1)

/-- BR (R164). -/
def execBr (f : FaceId) (s : State) : Result := .next (branch s f.val)

/-- WAITT. -/
def waitt (s0 : State) (f : Nat) : State :=
  let s := entered s0 f
  match controlAt s f opcWaitt with
  | none => s
  | some (t, d) =>
    if 1 < ctlCond d then controlFail s f d stMode
    else
      let (u0, out) := innerWatch s (.face (faceL s f)) t.ctx.toNat (ctlVtally d) (ctlImm d) (ctlCond d == 1)
      match (withTag (descTag d) s u0, out) with
      | (u, .fired) => goTo u f (t.pc + 1)
      | (u, .fail st) => controlFail u f d st
      | (u, _) => modTask u f fun t => { t with wait := .watching s.now, seqAt := s.now + 1 }

/-- WAITT (R165). -/
def execWaitt (f : FaceId) (s : State) : Result := .next (waitt s f.val)

/-- WAITT_TIMEOUT: the limit has passed; the watch is withdrawn, the face wakes and the task fails. -/
def waittTimeout (s : State) (f : Nat) : State :=
  let c := s.face f
  match c.task with
  | none => s
  | some t =>
    let d := current c t
    match t.wait with
    | .watching a =>
      if descOpc d = opcWaitt && ctlTmo d ≠ 0 && decide (a + ctlTmo d * usCycles ≤ s.now) then
        controlFail (faceWake (withdrawTarget s (.face (faceL s f))) f) f d stTimeout
      else s
    | _ => s

/-- WAITT_TIMEOUT (R165). -/
def execWaittTimeout (f : FaceId) (s : State) : Result := .next (waittTimeout s f.val)

/-- TALLY. -/
def seqTally (s0 : State) (f : Nat) : State :=
  let s := entered s0 f
  match controlAt s f opcTally with
  | none => s
  | some (t, d) =>
    if 2 < ctlCond d then controlFail s f d stMode
    else
      let top := if ctlCond d = 0 then topAdd else if ctlCond d = 1 then topSub else topArrive
      let (u0, st) := tallyOp s (codeFace (faceL s f)) t.ctx.toNat (.virt (ctlVtally d)) top (ctlImm d)
      let u := withTag (descTag d) s u0
      if st = stOk then goTo u f (t.pc + 1) else controlFail u f d st

/-- TALLY (R166). -/
def execSeqTally (f : FaceId) (s : State) : Result := .next (seqTally s f.val)

/-- FENCE: every earlier engine operation has completed. -/
def seqFence (s0 : State) (f : Nat) : State :=
  let s := entered s0 f
  match controlAt s f opcFence with
  | none => s
  | some (t, _) => if t.ops = [] then goTo s f (t.pc + 1) else s

/-- FENCE (R166). -/
def execSeqFence (f : FaceId) (s : State) : Result := .next (seqFence s f.val)

/-- END, or the end of the program: nothing more is issued. -/
def faceEnd (s0 : State) (f : Nat) : State :=
  let s := entered s0 f
  match controlAt s f opcEnd with
  | none => s
  | some _ => modTask s f fun t => { t with ending := true, seqAt := s.now + 1 }

/-- FACE_END (R166). -/
def execFaceEnd (f : FaceId) (s : State) : Result := .next (faceEnd s f.val)

/-- TASK_COMPLETION: END was reached or a descriptor failed, and the scoreboard is empty (R169). -/
def taskCompletion (s0 : State) (f : Nat) : State :=
  let s := entered s0 f
  let c := s.face f
  match c.task with
  | none => s
  | some t =>
    if ((t.ending && decide (t.seqAt ≤ s.now)) || t.fail.isSome) && t.ops = [] then
      let (st, tag) := match t.fail with
        | some (_, st, tag) => (st, some tag)
        | none => (stOk, none)
      taskMemberDone (s.setFace f { countTask c st tag with task := none }) t.q t.seq (faceL s f) st t.assay
    else s

/-- TASK_COMPLETION (R169). -/
def execTaskCompletion (f : FaceId) (s : State) : Result := .next (taskCompletion s f.val)

/-! ## Engine operations -/

/-- The i-th operation in the scoreboard. -/
def engOp (s : State) (f i : Nat) : Option (FaceTask × EngOp) :=
  match (s.face f).task with
  | none => none
  | some t => (t.ops[i]?).map fun o => (t, o)

/-- Put a changed operation back into the scoreboard. -/
def putEngOp (s : State) (f : Nat) (o : EngOp) : State :=
  modTask s f fun t => { t with ops := t.ops.map fun x => if x.uid = o.uid then o else x }

/-- The cycles of an operation that started have passed; those that the issue duty closes do not count (R420). -/
def engDue (s : State) (f : Nat) (o : EngOp) : Bool :=
  match o.started with
  | some a => decide (a ≤ s.now) && decide (o.cost ≤ dutyCycles (dutyOf s (8 + f)) a s.now)
  | none => false

/-- The i-th operation of a code whose work is due: started and not done, its cycles passed, its engine clocked (R276). An engine's
work takes effect as a whole at the end of its cycles (log entry 157). -/
def runningEng (s : State) (f i opc : Nat) : Option (FaceTask × EngOp) :=
  match engOp s f i with
  | none => none
  | some (t, o) => if engDue s f o && !o.done && descOpc o.desc == opc && !(s.face f).gated then some (t, o) else none

/-- ENGINE_OPERATION_DONE: the operation's cycles have passed; it leaves the scoreboard (R169). A hoist transfer moves its counters
(R217). -/
def engineDone (s00 : State) (f i : Nat) : State :=
  let s := entered s00 f
  match engOp s f i with
  | none => s
  | some (_, o) =>
      if engDue s f o && o.done && !(s.face f).gated then
        let s0 := match o.xout with
          | some (x, v) => s.modFace f fun c => { c with xregs := setX c.xregs x v }
          | none => s
        let s1 := modTask s0 f fun t =>
          { t with ops := t.ops.filter fun x => x.uid ≠ o.uid, seqAt := max t.seqAt s.now, assay := assayAdd t.assay o.assay }
        let s2 := if descOpc o.desc = opcHoist then
            s1.modFace f fun c => { c with hoistTransfers := c.hoistTransfers + 1, hoistLastStatus := o.status }
          else s1
        if o.status = stOk then s2 else taskFail s2 f o.uid o.status (descTag o.desc)
      else s

/-- ENGINE_OPERATION_DONE (R169). -/
def execEngineOperationDone (f : FaceId) (i : Fin 16) (s : State) : Result := .next (engineDone s f.val i.val)

/-- A correctable SRAM word is written back in the bank's next idle cycle (R192). -/
def sramWriteBack (s : State) (f : Nat) : State :=
  match (s.face f).writeBacks with
  | [] => s
  | w :: rest =>
    let t := s.modFace f fun c => { c with writeBacks := rest }
    if tget 0 t.sramErr w = 1 then { t with sramErr := tset 0 t.sramErr w 0 } else t

/-- SRAM_WRITE_BACK (R192). -/
def execSramWriteBack (f : FaceId) (s : State) : Result := .next (sramWriteBack s f.val)

end Sys2Proof.Machine
end

