-- ==== Sys2Proof/Machine/PickOps.lean ====
section
/-! DEFINITION. What the pick operations do to data (R105 to R116). -/

namespace Sys2Proof.Machine

/-- The i-th admitted operation while it runs: started, its work not done, and its column not stopped for lane training. -/
def runningOp (s : State) (g i op : Nat) : Option PickOp :=
  let c := s.col g
  match c.window[i]? with
  | none => none
  | some o => if o.started.isSome && !o.done && recOp o.record == op && !c.laneTraining then some o else none

/-- Die and row of granule i of a run at a module address (R102). -/
def granDieRow (pa i : Nat) : Nat × Nat :=
  let q := pa % 2 ^ 24 / 2048 + i
  (2 * homePair (pa / 2 ^ 24) + q % 2, q / 2)

/-- Cycles of a row step: 64, or 128 at half rate (R119). -/
def stepCycles (o : PickOp) : Nat :=
  let r := o.record
  if (recOp r = opPmv || recOp r = opPmvk) && recExact r && decide (5 ≤ (selected (recSlots r)).length) then 128 else 64

/-- Cycle at which the row of the next row step on a die is activated, 12 cycles before it streams; and the operation after that row
step (R118, R119, Table 4.19). Under a duty of k eighths the row step waits for the open part of a frame (R420). -/
def nextStep (k : Nat) (o : PickOp) (die : Nat) : Nat × PickOp :=
  let due := o.stepAt + (if o.stepDie = die then 24 else 0)
  let start := dutySlot k due
  (start - 12, { o with stepAt := start + stepCycles o, stepDie := die, delay := o.delay + (start - due) })

/-- A row step that reads granule i of a run. -/
def rowRead (s : State) (g : Nat) (o : PickOp) (pa i : Nat) : State × PickOp × List PByte :=
  let (die, row) := granDieRow pa i
  let (at_, o') := nextStep (dutyOf s (stackOf g)) o die
  let t := rowStepAct at_ s g die row
  let (u, bs) := dramRead t g die row 0 2048 (pickCode g) o.ctx
  (withTag o.tag t u, o', bs)

/-- A row step that writes granule i of a run: 2,048 bytes with new check bits. -/
def rowWrite (s : State) (g : Nat) (o : PickOp) (pa i : Nat) (bs : List PByte) : State × PickOp :=
  let (die, row) := granDieRow pa i
  let (at_, o') := nextStep (dutyOf s (stackOf g)) o die
  ((dramWrite (rowStepAct at_ s g die row) g die row 0 bs (pickCode g) o.ctx).1, o')

/-- POISON sticks to an operation. -/
def poisonStatus (o : PickOp) (bad : Bool) : PickOp := if bad then { o with status := stPoison } else o

/-! ## Copies, fills, logic (R105, R106) -/

/-- One row of a PCOPY. -/
def copyRow (g : Nat) (p : State × PickOp) (i : Nat) : State × PickOp :=
  let (t, o1, bs) := rowRead p.1 g p.2 p.2.srcPa i
  let (u, o2) := rowWrite t g o1 o1.dstPa i bs
  (u, poisonStatus { o2 with rows := i + 1 } (anyPoison bs))

/-- One row of a PINIT: the pattern 256 times. -/
def initRow (g : Nat) (p : State × PickOp) (i : Nat) : State × PickOp :=
  let pat := leBytes 8 (recImm p.2.record)
  let (t, o1) := rowWrite p.1 g p.2 p.2.dstPa i (cleanBytes ((List.replicate 256 pat).flatten))
  (t, { o1 with rows := i + 1 })

/-- PLOGIC's function of two bytes (Table 4.13). -/
def logicByte (fn : Nat) (a b : Byte) : Byte :=
  if fn = 0 then a &&& b else if fn = 1 then a ||| b else if fn = 2 then a ^^^ b else if fn = 3 then a &&& ~~~ b else ~~~ a

/-- One row of a PLOGIC; NOT reads operand A alone. -/
def logicRow (g : Nat) (p : State × PickOp) (i : Nat) : State × PickOp :=
  let fn := recFn p.2.record
  let (t, o1, as) := rowRead p.1 g p.2 p.2.srcPa i
  let (u, o2, bs) := if fn = 4 then (t, o1, as) else rowRead t g o1 o1.auxPa i
  let out := (as.zip bs).map fun x => (logicByte fn x.1.1 x.2.1, x.1.2 || x.2.2)
  let (v, o3) := rowWrite u g o2 o2.dstPa i out
  (v, poisonStatus { o3 with rows := i + 1 } (anyPoison out))

/-- The i-th operation as its next row step begins: requests whose claim waits ended are served first (R124). -/
def portOp (s : State) (g i op : Nat) : Option (State × PickOp) :=
  let t := claimWaitEnd s g
  (runningOp t g i op).map fun o => (t, o)

/-- Up to n further rows of an operation in increasing order; its work is done after the last. -/
def runRows (s : State) (g i op n : Nat) (f : Nat → State × PickOp → Nat → State × PickOp) : State :=
  match portOp s g i op with
  | none => s
  | some (s1, o) =>
    let k := min n (recSrcN o.record - o.rows)
    let (t, o') := ((List.range k).map (o.rows + ·)).foldl (f g) (s1, o)
    putOp t g { o' with done := decide (o'.rows = recSrcN o.record) }

/-- PCOPY (R106). -/
def execPcopy (g : PickId) (i : Fin 5) (rows : BitVec 14) (s : State) : Result :=
  .next (runRows s g.val i.val opPcopy rows.toNat copyRow)

/-- PINIT (R106). -/
def execPinit (g : PickId) (i : Fin 5) (rows : BitVec 14) (s : State) : Result :=
  .next (runRows s g.val i.val opPinit rows.toNat initRow)

/-- PLOGIC (R106). -/
def execPlogic (g : PickId) (i : Fin 5) (rows : BitVec 14) (s : State) : Result :=
  .next (runRows s g.val i.val opPlogic rows.toNat logicRow)

/-! ## Loading slots (R107, R116) -/

/-- A layout or format that differs clears the buffer and the scales first. -/
def loadPrep (c : Col) (r : BitVec 512) : Col :=
  if c.layout.toNat = recLayout r && c.afmt.toNat = recAfmt r then c
  else { c with vbuf := [], vmark := [], scales := [], smark := [],
                layout := BitVec.ofNat 2 (recLayout r), afmt := BitVec.ofNat 2 (recAfmt r) }

/-- Put bytes with their marks into the vector buffer from a byte on. -/
def putVbuf (c : Col) (o : Nat) : List PByte → Col
  | [] => c
  | b :: bs => putVbuf { c with vbuf := tset 0 c.vbuf o b.1, vmark := tset false c.vmark o b.2 } (o + 1) bs

/-- Put bytes with their marks into the slot scale store. -/
def putScales (c : Col) (o : Nat) : List PByte → Col
  | [] => c
  | b :: bs => putScales { c with scales := tset 0x7F c.scales o b.1, smark := tset false c.smark o b.2 } (o + 1) bs

/-- Load the parts of the selected slots in increasing order, as far as the bytes reach (R107, R210). -/
def loadParts (r : BitVec 512) : List Nat → List PByte → Col → Col
  | [], _, c => c
  | x :: xs, bs, c =>
    let n := layoutSlots (recLayout r)
    let b := (afmtOf (recAfmt r)).bytes
    let elems := recK r * b
    let c1 := putVbuf c (x * 65536 / n + recVoff r * b) (bs.take elems)
    let part := loadPart (recK r) (recAfmt r)
    let c2 := putScales c1 (x * 2048 / n + recVoff r / 32) ((bs.take part).drop elems)
    loadParts r xs (bs.drop part) c2

/-- Load a source into a pick and mark the operation's work done; a source that is too short gives OOB (R210). -/
def loadSlots (s : State) (g : Nat) (o : PickOp) (bs : List PByte) (cost : Nat) : State :=
  let r := o.record
  let need := loadBytes r
  let t := s.modCol g fun c => loadParts r (selected (recSlots r)) (bs.take need) (loadPrep c r)
  let st := if bs.length < need then stOob else if anyPoison (bs.take need) then stPoison else o.status
  putOp t g { o with done := true, status := st, cost := cost, lastData := s.now }

/-- Cost of a load whose data comes now (R117). -/
def loadCost (s : State) (o : PickOp) : Nat :=
  max 16 (s.now - o.started.getD s.now) + ceilDiv (loadBytes o.record) 128

/-- Read n granules of an operation's run as row steps, as one list of bytes. -/
def readRows (s : State) (g : Nat) (o : PickOp) (pa n : Nat) : State × PickOp × List PByte :=
  (List.range n).foldl (fun (p : State × PickOp × List PByte) j =>
    let (u, o', x) := rowRead p.1 g p.2.1 pa j
    (u, o', p.2.2 ++ x)) (s, o, [])

/-- Who a pick operation is to its hub-side accesses. -/
def pickReq (g : Nat) (o : PickOp) : Req := ⟨.pick o.uid, pickCode g, o.ctx, o.tag⟩

/-- PLOAD: from the column, or through the hub; on the broadcast path it makes the buffer ready and takes its segment, or waits for
it. -/
def pload (s : State) (g i : Nat) : State :=
  match portOp s g i opPload with
  | none => s
  | some (s1, o) =>
    let r := o.record
    let need := loadBytes r
    if recFn r = 0 then
      let t := s1.modCol g fun c => loadPrep c r
      match o.segment with
      | some bs => loadSlots t g { o with segment := none } bs (loadCost t o)
      | none => t
    else if recFn r = 1 then
      let (t, o', bs) := readRows s1 g o o.srcPa (ceilDiv need 2048)
      loadSlots t g (poisonStatus o' (anyPoison bs)) bs o.cost
    else
      match innerAccess s1 (pickReq g o) 0 (recSrcVa r) false [⟨o.srcPa, need, false⟩] [] with
      | .wait t => t
      | .fail st t => putOp t g { o with done := true, status := st }
      | .ok t (st, bs) =>
        let u := innerDrop t fun w => w == .pick o.uid
        if stBad st then putOp u g { o with done := true, status := st } else loadSlots u g o bs (loadCost u o)

/-- PLOAD (R107). -/
def execPload (g : PickId) (i : Fin 5) (s : State) : Result := .next (pload s g.val i.val)

/-! ## Dot products (R70, R72, R108 to R111) -/

/-- The weight stream and its scale rows as read, with poison marks. -/
structure Stream where
  w : WFmt
  rows : Array (Array PByte)
  scales : Array (Array PByte)
  deriving DecidableEq, Repr

/-- Element n of the weight stream (R59, R60). -/
def Stream.elem (x : Stream) (n : Nat) : Val :=
  let row := (x.rows[n / x.w.e]?).getD #[]
  x.w.fmt.decode (unpackAt (fun i => ((row[i]?).getD (0, false)).1.toNat) x.w.fmt.bits (n % x.w.e))

/-- Element n lies in a poisoned codeword. -/
def Stream.elemBad (x : Stream) (n : Nat) : Bool :=
  let row := (x.rows[n / x.w.e]?).getD #[]
  let b := x.w.fmt.bits * (n % x.w.e)
  ((row[b / 8]?).getD (0, false)).2 || ((row[(b + x.w.fmt.bits - 1) / 8]?).getD (0, false)).2

/-- Scale of the block of element n (R61, R109). -/
def Stream.scale (x : Stream) (n : Nat) : Val :=
  if x.w.q = 0 then .one
  else
    let r := n / x.w.e
    let row := (x.scales[r / x.w.q]?).getD #[]
    e8m0 ((row[r % x.w.q * (x.w.e / 32) + n % x.w.e / 32]?).getD (0, false)).1

/-- The scale row that serves element n holds a poisoned codeword. -/
def Stream.scaleBad (x : Stream) (n : Nat) : Bool :=
  x.w.q ≠ 0 && ((x.scales[n / x.w.e / x.w.q]?).getD #[]).any fun b => b.2

/-- Element i of slot x of a pick's buffer (R86). -/
def actElem (c : Col) (x i : Nat) : Val :=
  let f := afmtOf c.afmt.toNat
  let o := x * 65536 / layoutSlots c.layout.toNat + i * f.bytes
  f.decode (leNat ((List.range f.bytes).map fun j => tget 0 c.vbuf (o + j)))

/-- Scale of activation block k of a slot: 1 but for MXFP8. -/
def actScale (c : Col) (x k : Nat) : Val :=
  if c.afmt = 3 then e8m0 (tget 0x7F c.scales (x * 2048 / layoutSlots c.layout.toNat + k)) else .one

/-- A used byte of a slot, or a used scale, is marked (R116). -/
def slotBad (c : Col) (x voff k : Nat) : Bool :=
  let b := (afmtOf c.afmt.toNat).bytes
  let o := x * 65536 / layoutSlots c.layout.toNat + voff * b
  let q := x * 2048 / layoutSlots c.layout.toNat + voff / 32
  (c.vmark.any fun p => p.2 && decide (o ≤ p.1) && decide (p.1 < o + k * b)) ||
  (c.afmt == 3 && c.smark.any fun p => p.2 && decide (q ≤ p.1) && decide (p.1 < q + ceilDiv k 32))

/-- A product as fast mode takes it: one that rounds beyond FP32 becomes infinite (R70). -/
def fastProduct (p : Val) : Val × Bool :=
  if (rne32 p).isInf && !p.isInf then (.inf p.isNeg, true) else (p, false)

/-- A tree sum times a scale, rounded. -/
def scaled32 (v : Val × Bool) (sc : Val) : Val × Bool :=
  let r := rne32 (v.1.mul sc)
  (r, v.2 || (r.isInf && !v.1.isInf))

/-- Sum of products first to first + n - 1, n = 16 or 32, by the tree; products from k on are +0. -/
def treeOf (prod : Nat → Val) (k first levels : Nat) : Val × Bool :=
  let ps := (List.range (2 ^ levels)).map fun i => if first + i < k then fastProduct (prod (first + i)) else (.zero, false)
  let (v, h) := treeSum levels (ps.map (·.1))
  (v, h || ps.any (·.2))

/-- Sum t of group g, with whether anything in it overflowed (R70). `scale b` is wscale × ascale of block b of the row. -/
def groupSum (grp k : Nat) (prod scale : Nat → Val) (g : Nat) : Val × Bool :=
  let sc (b : Nat) : Val := if 32 * b < k then scale b else .one
  if grp = 64 then
    let a := scaled32 (treeOf prod k (64 * g) 5) (sc (2 * g))
    let b := scaled32 (treeOf prod k (64 * g + 32) 5) (sc (2 * g + 1))
    let (t, h) := add32 a.1 b.1
    (t, h || a.2 || b.2)
  else if grp = 32 then scaled32 (treeOf prod k (32 * g) 5) (sc g)
  else scaled32 (treeOf prod k (16 * g) 4) (sc (g / 2))

/-- fast_dot of R70, continued from a partial (R111). -/
def fastDot (grp k : Nat) (prod scale : Nat → Val) (init : Val × Bool) : Val × Bool :=
  (List.range (ceilDiv k grp)).foldl (fun (a : Val × Bool) g =>
    let t := groupSum grp k prod scale g
    let (v, h) := add32 a.1 t.1
    (v, a.2 || t.2 || h)) init

/-- Add one block's products to an exact partial (R72): finite products exactly, specials as flags, scales on the block sum. -/
def exactBlock (x : Exact) (ps : List Val) (scale : Val) : Exact :=
  let y := ps.foldl (fun (a : Exact) p =>
    match p with
    | .num .. => a
    | v => a.addVal v) x
  let sum := ps.foldl (fun a p =>
    match p with
    | .num .. => a.add p
    | _ => a) Val.zero
  y.addVal (sum.mul scale)

/-- An exact dot product, added to a partial. -/
def exactDot (k : Nat) (prod scale : Nat → Val) (init : Exact) : Exact :=
  (List.range (ceilDiv k 32)).foldl (fun a b =>
    exactBlock a ((List.range (min 32 (k - 32 * b))).map fun i => prod (32 * b + i)) (scale b)) init

/-- A result entry (Table 4.3). -/
def entryWord (kind : Nat) (hist : Bool) (ofmt value : Nat) : W64 :=
  BitVec.ofNat 64 (kind * 2 ^ 62 + (if hist then 2 ^ 34 else 0) + ofmt * 2 ^ 32 + value)

/-- Put entries from an index on. -/
def putEntries (c : Col) (i : Nat) : List W64 → Col
  | [] => c
  | e :: es => putEntries { c with entries := tset 0 c.entries i e } (i + 1) es

/-- Blocks of 32 of a list (structural on the fuel). -/
def chunks32 {α : Type} : Nat → List α → List (List α)
  | 0, _ => []
  | n + 1, l => if l = [] then [] else l.take 32 :: chunks32 n (l.drop 32)

/-- Output codes of values in an output format (R71, R73, R110): single conversions, or blocks of 32 with their scale. -/
def outputCodes (ofmt : Nat) (vals : List Val) : List (Nat × Flags) :=
  if ofmt = 3 then
    (chunks32 (vals.length + 1) vals).flatMap fun b =>
      let (sc, cs) := blockScale .e4m3 (b.map fun _ => .rne) b
      cs.map fun x => (x.1 + sc.toNat * 256, x.2)
  else vals.map fun v => (ofmtOf ofmt).convert .rne v

/-- Output entries and their assay flags: hist counts in ovf (R78). -/
def outputEntries (ofmt : Nat) (vals : List Val) (hists : List Bool) : List W64 × List Flags :=
  let cs := (outputCodes ofmt vals).zip hists
  (cs.map fun x => entryWord 1 x.2 ofmt x.1.1, cs.map fun x => { x.1.2 with ovf := x.1.2.ovf || x.2 })

/-- The exact partial in an accumulator. -/
def accOf (c : Col) (i : Nat) : Exact := ⟨tget 0 c.accs i, tget 0 c.accFlags i⟩
def putAcc (c : Col) (i : Nat) (x : Exact) : Col :=
  { c with accs := tset 0 c.accs i x.acc, accFlags := tset 0 c.accFlags i x.flags }

/-- A fast partial in an entry, and its entry. -/
def fastOf (e : W64) : Val × Bool := (val32 (BitVec.ofNat 32 e.toNat), bitAt e 34)
def fastEntry (p : Val × Bool) : W64 := entryWord 2 p.2 0 (code32 p.1).toNat

/-- Partials that stand after an operation has written entries or accumulators (R111). -/
def dropPartials (ps : List Partials) (range : Nat × Nat) (acc : Bool) : List Partials :=
  ps.filter fun p =>
    if p.exact then !acc else !(rangesMeet range (p.resBase, (setBits p.slots).length * p.nout))

/-- What the dot products of a slot need: products, scales and poison of matrix row j against slot x. -/
def rowProd (c : Col) (st : Stream) (r : BitVec 512) (x j i : Nat) : Val :=
  (st.elem (j * recKstride r + i)).mul (actElem c x (recVoff r + i))
def rowScale (c : Col) (st : Stream) (r : BitVec 512) (x j b : Nat) : Val :=
  (st.scale (j * recKstride r + 32 * b)).mul (actScale c x (recVoff r / 32 + b))
def rowBad (st : Stream) (r : BitVec 512) (j : Nat) : Bool :=
  (List.range (recK r)).any fun i =>
    st.elemBad (j * recKstride r + i) || (i % 32 == 0 && st.scaleBad (j * recKstride r + i))

/-- Fast result of row j against slot x, from the partial at entry e when it continues (R111). -/
def fastRow (c : Col) (st : Stream) (r : BitVec 512) (x j e : Nat) : Val × Bool :=
  let init := if recAcc r then fastOf (tget 0 c.entries e) else (.zero, false)
  let d := fastDot st.w.group (recK r) (rowProd c st r x j) (rowScale c st r x j) init
  if rowBad st r j || slotBad c x (recVoff r) (recK r) then (.nan, d.2) else d

/-- Exact result of row j against slot x, from accumulator a when it continues. -/
def exactRow (c : Col) (st : Stream) (r : BitVec 512) (x j a : Nat) : Exact :=
  let init := if recAcc r then accOf c a else {}
  let d := exactDot (recK r) (rowProd c st r x j) (rowScale c st r x j) init
  if rowBad st r j || slotBad c x (recVoff r) (recK r) then { d with flags := d.flags ||| 1 } else d

/-- One slot of a fast PMV or PMVK: its entries and flags. a is the slot's index among the selected. -/
def fastSlot (c : Col) (st : Stream) (r : BitVec 512) (x a : Nat) : List W64 × List Flags :=
  let base := recResBase r + a * recNout r
  let rs := (List.range (recNout r)).map fun j => fastRow c st r x j (base + j)
  if recOp r = opPmv then outputEntries (recOfmt r) (rs.map (·.1)) (rs.map (·.2))
  else (rs.map fastEntry, [])

/-- All slots of a fast operation: entries are computed from the column as it was, then written. -/
def fastMv (c : Col) (st : Stream) (r : BitVec 512) : Col × List Flags :=
  let res := (selected (recSlots r)).zipIdx.map fun p => fastSlot c st r p.1 p.2
  (putEntries c (recResBase r) (res.flatMap (·.1)), res.flatMap (·.2))

/-- All slots of an exact operation (R110). A PMV without `acc` works through its rows one at a time: accumulator a then holds the last
output row of the a-th selected slot (DESIGN CHOICE, log entry 144). -/
def exactMv (c : Col) (st : Stream) (r : BitVec 512) : Col × List Flags :=
  let n := recNout r
  let res := (selected (recSlots r)).zipIdx.map fun p => (List.range n).map fun j => exactRow c st r p.1 j (p.2 * n + j)
  if recOp r = opPmvk then
    ((res.flatten.zipIdx).foldl (fun k p => putAcc k p.2 p.1) c, [])
  else
    let outs := res.map fun xs => outputEntries (recOfmt r) (xs.map Exact.value) (xs.map fun _ => false)
    let c1 := putEntries c (recResBase r) (outs.flatMap (·.1))
    let c2 := if recAcc r then (res.flatten.zipIdx).foldl (fun k p => putAcc k p.2 p.1) c1
              else (res.zipIdx).foldl (fun k p => putAcc k p.2 (p.1.getLastD {})) c1
    (c2, outs.flatMap (·.2))

/-- Add data rows first to first + n - 1 to a stream, as arrays. -/
def readRun (g first n : Nat) (p : State × PickOp × Stream) : State × PickOp × Stream :=
  (List.range n).foldl (fun (p : State × PickOp × Stream) i =>
    let (t, o, bs) := rowRead p.1 g p.2.1 p.2.1.srcPa (first + i)
    (t, o, { p.2.2 with rows := p.2.2.rows.push bs.toArray })) p

/-- Read scale row m, then the data rows it serves (R109). -/
def readStream (s : State) (g : Nat) (o : PickOp) (w : WFmt) : State × PickOp × Stream :=
  let nd := dataRows w (recNout o.record) (recKstride o.record)
  if w.q = 0 then readRun g 0 nd (s, o, ⟨w, #[], #[]⟩)
  else
    (List.range (scaleRows w nd)).foldl (fun (p : State × PickOp × Stream) m =>
      let (t, o1, sc) := rowRead p.1 g p.2.1 p.2.1.auxPa m
      readRun g (m * w.q) (min w.q (nd - m * w.q)) (t, o1, { p.2.2 with scales := p.2.2.scales.push sc.toArray }))
      (s, o, ⟨w, #[], #[]⟩)

/-- The partials that a PMVK leaves. -/
def partialsOf (o : PickOp) : Partials :=
  ⟨!isDirect o, recSlots o.record, recNout o.record, recResBase o.record, recExact o.record⟩

/-- PMV and PMVK. -/
def matVec (s : State) (g i op : Nat) : State :=
  match portOp s g i op with
  | none => s
  | some (s1, o0) =>
    let r := o0.record
    match wfmtOf (recWfmt r) with
    | none => s1
    | some w =>
      let (t, o, st) := readStream s1 g o0 w
      let c := t.col g
      let (c1, fl) := if recExact r then exactMv c st r else fastMv c st r
      let bad := (st.rows.any fun x => x.any fun b => b.2) || (st.scales.any fun x => x.any fun b => b.2) ||
        (selected (recSlots r)).any fun x => slotBad c x (recVoff r) (recK r)
      let ps := dropPartials c.partials (entryRange r) (usesAccRes r)
      let c2 := { c1 with partials := if op = opPmvk then ps ++ [partialsOf o] else ps }
      putOp (t.setCol g c2) g (poisonStatus { o with done := true, assay := (countFlags fl).word } bad)

/-- PMV (R108). -/
def execPmv (g : PickId) (i : Fin 5) (s : State) : Result := .next (matVec s g.val i.val opPmv)

/-- PMVK (R108). -/
def execPmvk (g : PickId) (i : Fin 5) (s : State) : Result := .next (matVec s g.val i.val opPmvk)

/-! ## Folds (R112, R141 to R143) -/

/-- The words on a link up to and with the marked one; none while the mark has not come. -/
def takeFold (down : Bool) : List LinkWord → Option (List LinkWord × List LinkWord)
  | [] => none
  | w :: ws =>
    if w.down ≠ down then (takeFold down ws).map fun p => (p.1, w :: p.2)
    else if w.last then some ([w], ws)
    else (takeFold down ws).map fun p => (w :: p.1, p.2)

/-- Partials that exact words spell (structural on the fuel). -/
def splitExact : Nat → List Nat → List Exact
  | 0, _ => []
  | n + 1, ws =>
    match ws with
    | [] => []
    | h :: _ =>
      let k := 1 + h % 32
      exactOf (ws.take k) :: splitExact n (ws.drop k)

/-- Mark the last of the words of a fold. -/
def markWords (exact down : Bool) (ws : List Nat) : List LinkWord :=
  ws.zipIdx.map fun p => { word := BitVec.ofNat 64 p.1, last := decide (p.2 + 1 = ws.length), exact := exact, down := down }

/-- A fast partial as a link word, and back. -/
def fastWord (p : Val × Bool) : Nat := (code32 p.1).toNat + (if p.2 then 2 ^ 32 else 0)
def wordFast (w : W64) : Val × Bool := (val32 (BitVec.ofNat 32 w.toNat), bitAt w 32)

/-- The pick's own partials of a fold. -/
def foldFast (c : Col) (r : BitVec 512) : List (Val × Bool) :=
  (List.range (recNout r)).map fun i => fastOf (tget 0 c.entries (recResBase r + i))
def foldExact (c : Col) (r : BitVec 512) : List Exact := (selected (recSlots r)).map (accOf c)

/-- A received and an own fast partial added: rne32, and hist of either or of the sum. -/
def foldAdd (a b : Val × Bool) : Val × Bool :=
  let (v, h) := add32 a.1 b.1
  (v, a.2 || b.2 || h)

/-- What a fold has after adding: fast or exact sums, or none when what came does not match. -/
inductive FoldSum where
  | fast (xs : List (Val × Bool))
  | exact (xs : List Exact)
  | mismatch
  deriving DecidableEq, Repr

/-- Add the received words to the pick's own partials in order (R112). -/
def foldSum (c : Col) (r : BitVec 512) (ws : List LinkWord) : FoldSum :=
  if ws.any fun w => w.exact ≠ recExact r then .mismatch
  else if recExact r then
    let own := foldExact c r
    let got := splitExact ws.length (ws.map fun w => w.word.toNat)
    if got.length = own.length then .exact ((got.zip own).map fun p => p.1.add p.2) else .mismatch
  else
    let own := foldFast c r
    if ws.length = own.length then .fast ((ws.zip own).map fun p => foldAdd (wordFast p.1.word) p.2) else .mismatch

/-- The words a fold sends. -/
def foldWords (r : BitVec 512) : FoldSum → List LinkWord
  | .fast xs => markWords false (recDown r) (xs.map fastWord)
  | .exact xs => markWords true (recDown r) (xs.flatMap exactWords)
  | .mismatch => []

/-- Role 2 keeps the sums as partials. -/
def foldKeep (c : Col) (r : BitVec 512) : FoldSum → Col
  | .fast xs => putEntries c (recResBase r) (xs.map fastEntry)
  | .exact xs => ((selected (recSlots r)).zip xs).foldl (fun k p => putAcc k p.1 p.2) c
  | .mismatch => c

/-- Role 3 converts the sums once to outputs. In exact mode the sum of the i-th selected accumulator goes to entry `res_base` + i, and
E4M3 blocks count from the fold's first entry (DESIGN CHOICE, log entry 145). -/
def foldOut (c : Col) (r : BitVec 512) : FoldSum → Col × List Flags
  | .fast xs =>
    let (es, fl) := outputEntries (recOfmt r) (xs.map (·.1)) (xs.map (·.2))
    ({ putEntries c (recResBase r) es with partials := dropPartials c.partials (entryRange r) false }, fl)
  | .exact xs =>
    let (es, fl) := outputEntries (recOfmt r) (xs.map Exact.value) (xs.map fun _ => false)
    ({ putEntries c (recResBase r) es with partials := dropPartials c.partials (entryRange r) false }, fl)
  | .mismatch => (c, [])

/-- Fenced picks that words pass on the way from a pick to the next live one (R17). -/
def foldHops (g q : Nat) (down : Bool) : Nat :=
  (if down then pickOf g + 512 - pickOf q else pickOf q + 512 - pickOf g) % 512 - 1

/-- Send words, the last of which leaves at a cycle, to the next live pick. Each fenced pick on the way adds a cycle (R141). -/
def foldSend (s : State) (g q leaves : Nat) (down : Bool) (ws : List LinkWord) : State :=
  s.modCol q fun c =>
    { c with inbox := c.inbox ++ ws.map (fun (w : LinkWord) => { w with at_ := leaves + foldHops g q down }),
             window := c.window.map fun o =>
               if recOp o.record = opPfold && o.started.isSome && !o.done then { o with lastData := s.now } else o }

/-- An earlier fold of the pick in the same direction is not done: its words go first (R142). -/
def foldBehind (c : Col) (i : Nat) (o : PickOp) : Bool :=
  (c.window.take i).any fun x => recOp x.record == opPfold && recDown x.record == recDown o.record && !x.done

/-- PFOLD in its role (R112). -/
def pfold (s : State) (g i : Nat) : State :=
  match (runningOp s g i opPfold).filter fun o => !foldBehind (s.col g) i o with
  | none => s
  | some o =>
    let r := o.record
    let c := s.col g
    let role := recFn r
    let next := nextLive s g (recDown r)
    let fin (t : State) (o' : PickOp) : State := putOp t g { o' with done := true }
    if role ≤ 1 && next.isNone then fin s { o with status := stFenced }
    else if role = 0 then
      let own := if recExact r then FoldSum.exact (foldExact c r) else FoldSum.fast (foldFast c r)
      let ws := foldWords r own
      let leaves := o.started.getD 0 + 8 + ws.length
      fin (foldSend s g (next.getD g) leaves (recDown r) ws) { o with cost := 8 + ws.length }
    else
      match takeFold (recDown r) c.inbox with
      | none => s
      | some (ws, rest) =>
        let t := s.setCol g { c with inbox := rest }
        let came := ws.foldl (fun (m : Nat) (w : LinkWord) => max m w.at_) 0
        let o1 := { o with cost := max (8 + ws.length) (came + 4 - o.started.getD 0), lastData := s.now }
        let sum := foldSum c r ws
        if sum = .mismatch then fin t { o1 with status := stMode }
        else if role = 1 then fin (foldSend t g (next.getD g) (o1.started.getD 0 + o1.cost) (recDown r) (foldWords r sum)) o1
        else if role = 2 then fin (t.modCol g fun k => foldKeep k r sum) o1
        else
          let (c1, fl) := foldOut (t.col g) r sum
          fin (t.setCol g c1) { o1 with assay := (countFlags fl).word }

/-- PFOLD (R112). -/
def execPfold (g : PickId) (i : Fin 5) (s : State) : Result := .next (pfold s g.val i.val)

/-! ## Drains (R113) -/

/-- Output entries packed in their format; for E4M3 the scales of each run of 32 follow. -/
def packOutputs (es : List W64) : List Byte :=
  let f := bitsAt (es.headD 0) 33 32
  let vs := es.flatMap fun e => leBytes (ofmtOf f).bytes (bitsAt e 31 0)
  if f = 3 then vs ++ (chunks32 (es.length + 1) es).map fun b => BitVec.ofNat 8 (bitsAt (b.headD 0) 15 8) else vs

/-- What a drain writes: offsets and bytes. -/
def drainPieces (c : Col) (r : BitVec 512) : List (Nat × List Byte) :=
  let es := (List.range (recNout r)).map fun i => tget 0 c.entries (recResBase r + i)
  if usesAccs r then
    (selected (recSlots r)).zipIdx.map fun p => (136 * p.2, (exactWords (accOf c p.1)).flatMap (leBytes 8))
  else if recFn r = 2 then [(0, es.flatMap fun e => leBytes 8 (fastWord (fastOf e)))]
  else [(0, packOutputs es)]

/-- PDRAIN: to the hub, its writes there within its cycles (R139); or into the column with the rest of the last row written as 0. -/
def pdrain (s : State) (g i : Nat) : State :=
  match portOp s g i opPdrain with
  | none => s
  | some (s1, o) =>
    let r := o.record
    let ps := drainPieces (s1.col g) r
    if recFn r = 1 then
      let bs := ps.flatMap (·.2)
      let n := ceilDiv bs.length 2048
      let (t, o') := (List.range n).foldl (fun (p : State × PickOp) j =>
        rowWrite p.1 g p.2 p.2.dstPa j (cleanBytes (sliceBytes bs (2048 * j) 2048))) (s1, o)
      putOp t g { o' with done := true }
    else
      let cost := 16 + ceilDiv (ps.map fun p => p.2.length).sum 8
      if s.now < o.started.getD 0 + cost then s1
      else
        match innerAccess s1 (pickReq g o) 0 (recDstVa r) true (ps.map fun p => ⟨o.dstPa + p.1, p.2.length, true⟩)
            (cleanBytes (ps.flatMap (·.2))) with
        | .wait t => t
        | .fail st t => putOp t g { o with done := true, status := st }
        | .ok t (st, _) => putOp (innerDrop t fun w => w == .pick o.uid) g
            { o with done := true, status := if st = stOk then o.status else st, cost := cost }

/-- PDRAIN (R113). -/
def execPdrain (g : PickId) (i : Fin 5) (s : State) : Result := .next (pdrain s g.val i.val)

/-! ## Fences and time limits (R114, R115) -/

/-- PFENCE: what it waits for has completed. -/
def pfence (s : State) (g i : Nat) : State :=
  match runningOp s g i opPfence with
  | none => s
  | some o =>
    if (s.col g).window.any fun x => o.waitsFor.contains x.uid then s else putOp s g { o with done := true }

/-- PFENCE (R114). -/
def execPfence (g : PickId) (i : Fin 5) (s : State) : Result := .next (pfence s g.val i.val)

/-- PICK_DATA_TIMEOUT: a broadcast PLOAD or a receiving PFOLD has had no data for 10 ms. -/
def pickDataTimeout (s : State) (g i : Nat) : State :=
  match (s.col g).window[i]? with
  | none => s
  | some o =>
    let r := o.record
    let waits := (recOp r == opPload && recFn r == 0) || (recOp r == opPfold && recFn r ≠ 0)
    if o.started.isSome && !o.done && waits && decide (o.lastData + 10 * msCycles ≤ s.now) then pickEnd s g o stTimeout else s

/-- PICK_DATA_TIMEOUT (R115). -/
def execPickDataTimeout (g : PickId) (i : Fin 5) (s : State) : Result := .next (pickDataTimeout s g.val i.val)

end Sys2Proof.Machine
end

