-- ==== Sys2Proof/Machine/Matrix.lean ====
section
/-! DEFINITION. The matrix engine: MMA, MXV and MSTORE (R170 to R174 of chapter 06). -/

namespace Sys2Proof.Machine

/-! ## Formats and operands of the engines (Tables 6.5 and 6.6) -/

/-- A face format: its elements, and whether they stand in MX blocks. -/
structure FaceFmt where
  fmt : Fmt
  mx : Bool
  deriving DecidableEq, Repr

/-- Face format codes (Table 6.6). -/
def faceFmt (c : Nat) : Option FaceFmt :=
  match c with
  | 0 => some ⟨.fp32, false⟩
  | 1 => some ⟨.bf16, false⟩
  | 2 => some ⟨.fp16, false⟩
  | 3 => some ⟨.int8, false⟩
  | 4 => some ⟨.int32, false⟩
  | 5 => some ⟨.e4m3, false⟩
  | 6 => some ⟨.e5m2, false⟩
  | 7 => some ⟨.e4m3, true⟩
  | 8 => some ⟨.e5m2, true⟩
  | 9 => some ⟨.e3m2, true⟩
  | 10 => some ⟨.e2m3, true⟩
  | 11 => some ⟨.e2m1, true⟩
  | 12 => some ⟨.mxint8, true⟩
  | _ => none

/-- Bytes of n elements written from a start: packed, and for MX formats in blocks of 32, each followed by its scale byte. -/
def faceBytes (f : FaceFmt) (n : Nat) : Nat :=
  if f.mx then (n / 32) * (4 * f.fmt.bits + 1) + (if n % 32 = 0 then 0 else ceilDiv (n % 32 * f.fmt.bits) 8 + 1)
  else n * f.fmt.bytes

/-- An SRAM address: X[base] + offset, modulo 2³² as the scalar registers are (log entry 33). -/
def sramAddr (xs : Tab W32) (base off : Nat) : Nat := (xreg xs base + BitVec.ofNat 32 off).toNat

/-- An SRAM address field with its lowest bit at lo. -/
def addrField (o : EngOp) (lo : Nat) : Nat := sramAddr o.xs (bitsAt o.desc (lo + 31) (lo + 28)) (bitsAt o.desc (lo + 22) lo)

/-- Runs of bytes of face SRAM: the first, the bytes of each, the step from one to the next, their number. -/
structure Span where
  first : Nat
  len : Nat
  step : Int := 0
  count : Nat := 1
  deriving DecidableEq, Repr

/-- The lowest byte of a span, and the one after its highest. -/
def Span.lo (r : Span) : Int := (r.first : Int) + min 0 (r.step * ((r.count : Int) - 1))
def Span.hi (r : Span) : Int := (r.first : Int) + max 0 (r.step * ((r.count : Int) - 1)) + (r.len : Int)

/-- Every byte of a span lies in the SRAM (R168). -/
def Span.inSram (r : Span) : Bool := r.len == 0 || (decide (0 ≤ r.lo) && decide (r.hi ≤ (sramBytes : Int)))

/-- Status of the two checks of R168: codes first, then ranges. -/
def twoChecks (codes ranges : Bool) : Byte := if !codes then stMode else if !ranges then stOob else stOk

/-- Read a span of the face's own SRAM for one of its engines, run by run. -/
def readSpan (s : State) (f : Nat) (ctx : BitVec 6) (r : Span) : State × Array PByte :=
  (List.range r.count).foldl (fun (a : State × Array PByte) (j : Nat) =>
    let (t, bs) := sramRead a.1 f ((r.first : Int) + (j : Int) * r.step).toNat r.len (codeFace (faceL s f)) ctx
    (t, a.2 ++ bs.toArray)) (s, #[])

/-- Write bytes into the face's own SRAM for one of its engines. -/
def engWrite (s : State) (f : Nat) (ctx : BitVec 6) (o : Nat) (bs : List Byte) : State × Byte :=
  sramWrite s f o (cleanBytes bs) (codeFace (faceL s f)) ctx

/-- Code n of w bits in bytes that begin at a base, and whether a byte of it is poisoned. -/
def codeAt (a : Array PByte) (base w n : Nat) : Nat × Bool :=
  (unpackAt (fun i => (a.getD (base + i) (0, false)).1.toNat) w n,
   (List.range ((w * n % 8 + w + 7) / 8)).any fun i => (a.getD (base + w * n / 8 + i) (0, false)).2)

/-- The value of a code; a poisoned one is NaN, which makes every output that derives from it NaN (R192). -/
def valAt (a : Array PByte) (f : Fmt) (base n : Nat) : Val :=
  let (c, bad) := codeAt a base f.bits n
  if bad then .nan else f.decode c

/-- The value of a scale byte; a poisoned one is NaN. -/
def scaleAt (a : Array PByte) (i : Nat) : Val :=
  let (b, bad) := a.getD i (0, false)
  if bad then .nan else e8m0 b

/-- Some byte of a block is poisoned. -/
def poisonIn (a : Array PByte) : Bool := a.any fun b => b.2

/-! ## Ends of engine operations -/

/-- The work of an operation is done: its status and assay word. Its cycles stand from its start. -/
def engEnd (s : State) (f : Nat) (o : EngOp) (st : Byte) (fl : List Flags) : State :=
  putEngOp s f { o with done := true, status := st, assay := (countFlags fl).word }

/-- Cycles that the matrix engine ran an operation; that the vector engine's lanes were occupied (Table 6.2). -/
def mxBusyFor (s : State) (f n : Nat) : State := s.modFace f fun c => { c with mxBusy := c.mxBusy + BitVec.ofNat 32 n }
def vxBusyFor (s : State) (f n : Nat) : State := s.modFace f fun c => { c with vxBusy := c.vxBusy + BitVec.ofNat 32 n }

/-- The end of an operation of the matrix engine, whose cycles `mx_busy` counts, with the tag in what it logged since a state. -/
def mxEnd (before s : State) (f : Nat) (o : EngOp) (st : Byte) (fl : List Flags) : State :=
  engEnd (mxBusyFor (withTag (descTag o.desc) before s) f o.cost) f o st fl

/-- The same for the vector engine, with the cycles in which its lanes are occupied. -/
def vxEnd (before s : State) (f : Nat) (o : EngOp) (st : Byte) (fl : List Flags) : State :=
  engEnd (vxBusyFor (withTag (descTag o.desc) before s) f o.busy) f o st fl

/-- POISON when a poisoned byte was read. -/
def badStatus (bad : Bool) : Byte := if bad then stPoison else stOk

/-! ## MMA (R171) -/

def mxBank (o : EngOp) : Nat := bitsAt o.desc 9 9
def mxInit (o : EngOp) : Bool := bitAt o.desc 10
def mxAfmt (o : EngOp) : Nat := bitsAt o.desc 39 36
def mxBfmt (o : EngOp) : Nat := bitsAt o.desc 35 32
def mxM (o : EngOp) : Nat := bitsAt o.desc 47 40
def mxN (o : EngOp) : Nat := bitsAt o.desc 63 48
def mxK (o : EngOp) : Nat := bitsAt o.desc 79 64
def mxAstride (o : EngOp) : Nat := bitsAt o.desc 95 80
def mxBstride (o : EngOp) : Nat := bitsAt o.desc 111 96
def mxCstride (o : EngOp) : Nat := bitsAt o.desc 127 112
def mxOfmt (o : EngOp) : Nat := bitsAt o.desc 15 13
def mxRnd (o : EngOp) : Nat := bitsAt o.desc 12 11

/-- An input format of 16 bits (bf16, FP16) or of 8 bits (E4M3, E5M2); 0 for the others. -/
def mxInputBits (c : Nat) : Nat := if c = 1 || c = 2 then 16 else if c = 5 || c = 6 then 8 else 0

/-- The plain format of a code. -/
def plainFmt (c : Nat) : Fmt :=
  match faceFmt c with
  | some f => f.fmt
  | none => .fp32

/-- Operands A and B of an MMA. -/
def mmaA (o : EngOp) : Span := ⟨addrField o 128, mxM o * (plainFmt (mxAfmt o)).bytes, (mxAstride o : Int), mxK o⟩
def mmaB (o : EngOp) : Span := ⟨addrField o 160, mxN o * (plainFmt (mxBfmt o)).bytes, (mxBstride o : Int), mxK o⟩

/-- Checks of an MMA (R168, R171). -/
def mmaCheck (o : EngOp) : Byte :=
  twoChecks (mxInputBits (mxAfmt o) ≠ 0 && mxInputBits (mxAfmt o) == mxInputBits (mxBfmt o))
    (1 ≤ mxM o && mxM o ≤ 64 && 1 ≤ mxN o && mxN o ≤ 64 && 1 ≤ mxK o && (mmaA o).inSram && (mmaB o).inSram)

/-- Place of an accumulator in its bank. -/
def accIx (bank i j : Nat) : Nat := bank * 4096 + i * 64 + j

/-- One accumulator: products in increasing k, one or two at a time, each sum rounded once; an overflow from finite operands is
remembered. -/
def mmaCell (k : Nat) (wide : Bool) (prod : Nat → Val) (init : Val) : Val × Bool :=
  if wide then
    (List.range k).foldl (fun (a : Val × Bool) x =>
      let (p, h) := fastProduct (prod x)
      let (v, g) := add32 a.1 p
      (v, a.2 || h || g)) (init, false)
  else
    (List.range ((k + 1) / 2)).foldl (fun (a : Val × Bool) x =>
      let q := if 2 * x + 1 < k then prod (2 * x + 1) else .zero
      let (v, g) := add32 a.1 ((prod (2 * x)).add q)
      (v, a.2 || g)) (init, false)

/-- The assay flags of an FP32 result. -/
def resultFlags (p : Val × Bool) : Flags := { ovf := p.2, invalid := p.1.isNan }

/-- Cycles of an MMA (R171). -/
def mmaCycles (o : EngOp) : Nat := 16 + if mxInputBits (mxAfmt o) = 16 then mxK o else ceilDiv (mxK o) 2

/-- MMA. -/
def mma (s : State) (f i : Nat) : State :=
  match runningEng s f i opcMma with
  | none => s
  | some (t, o) =>
    let fa := plainFmt (mxAfmt o)
    let fb := plainFmt (mxBfmt o)
    let (s1, a) := readSpan s f t.ctx (mmaA o)
    let (s2, b) := readSpan s1 f t.ctx (mmaB o)
    let wide := mxInputBits (mxAfmt o) == 16
    let k := mxK o
    let old := (s2.face f).accs
    let cell (r c : Nat) : Val × Bool :=
      mmaCell k wide (fun x => (valAt a fa (x * (mmaA o).len) r).mul (valAt b fb (x * (mmaB o).len) c))
        (if mxInit o then .zero else val32 (tget 0 old (accIx (mxBank o) r c)))
    let out := (List.range (mxM o)).flatMap fun r => (List.range (mxN o)).map fun c => (accIx (mxBank o) r c, cell r c)
    let s3 := s2.modFace f fun c => { c with accs := out.foldl (fun t x => tset 0 t x.1 (code32 x.2.1)) c.accs }
    mxEnd s s3 f o (badStatus (poisonIn a || poisonIn b)) (out.map fun x => resultFlags x.2)

/-- MMA (R171). -/
def execMma (f : FaceId) (i : Fin 16) (s : State) : Result := .next (mma s f.val i.val)

/-! ## MXV (R172, R173) -/

/-- Weight formats of an MXV; MXINT8, FP32, INT8 and INT32 are none. -/
def mxvWeights (c : Nat) : Option FaceFmt :=
  if c = 0 || c = 3 || c = 4 || c = 12 then none else faceFmt c

/-- Output bytes. -/
def mxvOutBytes (o : EngOp) : Nat := (ofmtOf (mxOfmt o)).bytes

/-- Weight bytes and scale bytes of the stream. -/
def mxvWeightBytes (o : EngOp) : Nat := ceilDiv (mxN o * mxK o * (plainFmt (mxAfmt o)).bits) 8
def mxvScaleBytes (o : EngOp) : Nat :=
  match faceFmt (mxAfmt o) with
  | some w => if w.mx then mxN o * (mxK o / 32) else 0
  | none => 0
/-- Bytes of one input vector. -/
def mxvVecBytes (o : EngOp) : Nat := mxK o * (plainFmt (mxBfmt o)).bytes

def mxvW (o : EngOp) : Span := ⟨addrField o 128, mxvWeightBytes o, 0, 1⟩
def mxvS (o : EngOp) : Span := ⟨addrField o 192, mxvScaleBytes o, 0, 1⟩
def mxvX (o : EngOp) : Span := ⟨addrField o 160, mxvVecBytes o, (mxBstride o : Int), mxM o⟩
def mxvY (o : EngOp) : Span := ⟨addrField o 224, mxN o * mxvOutBytes o, (mxCstride o : Int), mxM o⟩

/-- Checks of an MXV (R168, R172, R173). -/
def mxvCheck (o : EngOp) : Byte :=
  twoChecks ((mxvWeights (mxAfmt o)).isSome && mxInputBits (mxBfmt o) ≠ 0 && mxOfmt o ≤ 2)
    (1 ≤ mxM o && mxM o ≤ 4 && 1 ≤ mxN o && 32 ≤ mxK o && mxK o ≤ 8192 && mxK o % 32 == 0 &&
     mxM o * mxvVecBytes o ≤ 65536 && (mxvW o).inSram && (mxvS o).inSram && (mxvX o).inSram && (mxvY o).inSram)

/-- Rows of the band that row r lies in, and the columns of the tile that column i lies in. -/
def bandRows (n r : Nat) : Nat := min 64 (n - r / 64 * 64)
def tileCols (k i : Nat) : Nat := min 64 (k - i / 64 * 64)

/-- Number of element (r, i) in the weight stream, and of its block's scale in the scale stream (R172). -/
def mxvElem (n k r i : Nat) : Nat :=
  r / 64 * 64 * k + i / 64 * 64 * bandRows n r + r % 64 * tileCols k i + i % 64
def mxvScaleIx (n k r i : Nat) : Nat :=
  r / 64 * 64 * (k / 32) + i / 64 * 2 * bandRows n r + r % 64 * (tileCols k i / 32) + i % 64 / 32

/-- Cycles of an MXV (R173). -/
def mxvCycles (o : EngOp) : Nat :=
  8 + ceilDiv (mxM o * mxvVecBytes o) 2048 +
    max (ceilDiv (mxvWeightBytes o + mxvScaleBytes o) 2048) (ceilDiv (mxN o * mxK o * mxM o) 4096)

/-- The work of an MXV for its first rows: the state, the status, the flags of the outputs written. -/
def mxvRows (s : State) (f : Nat) (ctx : BitVec 6) (o : EngOp) (rows : Nat) : State × Byte × List Flags :=
  let fw := plainFmt (mxAfmt o)
  let fx := plainFmt (mxBfmt o)
  let n := mxN o
  let k := mxK o
  let mx := mxvScaleBytes o ≠ 0
  let (s1, x) := readSpan s f ctx (mxvX o)
  let (s2, w) := readSpan s1 f ctx (mxvW o)
  let (s3, sc) := if mx then readSpan s2 f ctx (mxvS o) else (s2, #[])
  let dot (r v : Nat) : Val × Bool :=
    fastDot 32 k (fun e => (valAt w fw 0 (mxvElem n k r e)).mul (valAt x fx (v * mxvVecBytes o) e))
      (fun b => if mx then scaleAt sc (mxvScaleIx n k r (32 * b)) else .one) (.zero, false)
  let outs := (List.range (mxM o)).map fun v => (List.range (min rows n)).map fun r =>
    let p := dot r v
    let q := (ofmtOf (mxOfmt o)).convert .rne p.1
    (q.1, { q.2 with ovf := q.2.ovf || p.2 })
  let s4 := s3.modFace f fun c =>
    { c with vinbuf := (x.toList.zipIdx).foldl (fun t b => tset 0 t b.2 b.1.1) c.vinbuf }
  let (s5, st) := (outs.zipIdx).foldl (fun (a : State × Byte) y =>
    let (u, st) := engWrite a.1 f ctx ((mxvY o).first + y.2 * mxCstride o) (packElems (8 * mxvOutBytes o) (y.1.map (·.1)))
    (u, if a.2 = stOk then st else a.2)) (s4, badStatus (poisonIn x || poisonIn w || poisonIn sc))
  (s5, st, outs.flatten.map (·.2))

/-- MXV. -/
def mxv (s : State) (f i : Nat) : State :=
  match runningEng s f i opcMxv with
  | none => s
  | some (t, o) =>
    let (u, st, fl) := mxvRows s f t.ctx o (mxN o)
    mxEnd s u f o st fl

/-- MXV (R172, R173). -/
def execMxv (f : FaceId) (i : Fin 16) (s : State) : Result := .next (mxv s f.val i.val)

/-! ## MSTORE (R174) -/

/-- Destination of an MSTORE. -/
def mstoreC (o : EngOp) : Span :=
  ⟨addrField o 224, match faceFmt (mxBfmt o) with
    | some g => faceBytes g (mxN o)
    | none => 0, (mxCstride o : Int), mxM o⟩

/-- Checks of an MSTORE (R168, R174). -/
def mstoreCheck (o : EngOp) : Byte :=
  twoChecks ((faceFmt (mxBfmt o)).isSome && mxRnd o ≠ 3)
    (1 ≤ mxM o && mxM o ≤ 64 && 1 ≤ mxN o && mxN o ≤ 64 && (mstoreC o).inSram)

/-- Rounding modes of n elements, and the generator after them (R64, R66). -/
def roundings (rnd n : Nat) (s : W32) : List RMode × W32 :=
  if rnd = 2 then srDraws n s else (List.replicate n (if rnd = 1 then .rtz else .rne), s)

/-- Bytes of values written from a start in a format, with the flags of each: packed, or in blocks of 32 with their scales. -/
def storeElems (g : FaceFmt) (vs : List Val) (modes : List RMode) : List Byte × List Flags :=
  if g.mx then
    ((chunks32 (vs.length + 1) vs).zip (chunks32 (modes.length + 1) modes)).foldl (fun (a : List Byte × List Flags) b =>
      let (sc, es) := blockScale g.fmt b.2 b.1
      (a.1 ++ packElems g.fmt.bits (es.map (·.1)) ++ [sc], a.2 ++ es.map (·.2))) ([], [])
  else
    let es := (vs.zip modes).map fun p => g.fmt.convert p.2 p.1
    (packElems g.fmt.bits (es.map (·.1)), es.map (·.2))

/-- One row of an MSTORE. -/
def mstoreRow (f : Nat) (ctx : BitVec 6) (o : EngOp) (g : FaceFmt) (a : State × Byte × List Flags) (r : Nat) :
    State × Byte × List Flags :=
  let c := a.1.face f
  let (modes, sr) := roundings (mxRnd o) (mxN o) c.srState
  let vs := (List.range (mxN o)).map fun j => val32 (tget 0 c.accs (accIx (mxBank o) r j))
  let (bs, fl) := storeElems g vs modes
  let (u, st) := engWrite (a.1.setFace f { c with srState := sr }) f ctx ((mstoreC o).first + r * mxCstride o) bs
  (u, if a.2.1 = stOk then st else a.2.1, a.2.2 ++ fl)

/-- Cycles of an MSTORE (R174). -/
def mstoreCycles (o : EngOp) : Nat := 16 + ceilDiv (mxM o * (mstoreC o).len) 1024

/-- MSTORE. -/
def mstore (s : State) (f i : Nat) : State :=
  match runningEng s f i opcMstore with
  | none => s
  | some (t, o) =>
    match faceFmt (mxBfmt o) with
    | none => s
    | some g =>
      let (u, st, fl) := (List.range (mxM o)).foldl (mstoreRow f t.ctx o g) (s, stOk, [])
      mxEnd s u f o st fl

/-- MSTORE (R174). -/
def execMstore (f : FaceId) (i : Fin 16) (s : State) : Result := .next (mstore s f.val i.val)

end Sys2Proof.Machine
end

