-- ==== Sys2Proof/Machine/Vector.lean ====
section
/-! DEFINITION. The vector engine: stage chains, seeds, cross-lane and plane reductions (R175 to R189 of chapter 06). -/

namespace Sys2Proof.Machine

/-! ## The chain record (Tables 6.7 to 6.10) -/

/-- The value of a vector lane: floating point or INT32. -/
inductive Lane where
  | f (v : Val)
  | i (n : Int)
  deriving DecidableEq, Repr

/-- An integer as an exact value. -/
def intVal (n : Int) : Val := .num (decide (n < 0)) n.natAbs 0

def Lane.val : Lane → Val
  | .f v => v
  | .i n => intVal n
def Lane.int : Lane → Int
  | .f _ => 0
  | .i n => n
def Lane.neg : Lane → Lane
  | .f v => .f v.neg
  | .i n => .i (-n)

/-- A stream of a chain (Table 6.8). -/
structure ChainStream where
  fmt : Nat
  reg : Bool
  stride : Int
  xb : Nat
  off : Nat
  deriving DecidableEq, Repr

/-- The stream field whose lowest bit is lo. -/
def chStream (d : BitVec 768) (lo : Nat) : ChainStream :=
  ⟨bitsAt d (lo + 63) (lo + 60), bitAt d (lo + 59), signed 16 (bitsAt d (lo + 47) (lo + 32)), bitsAt d (lo + 31) (lo + 28),
   bitsAt d (lo + 22) lo⟩
/-- Input stream k, and the output stream. -/
def chIn (d : BitVec 768) (k : Nat) : ChainStream := chStream d (64 + 64 * k)
def chOut (d : BitVec 768) : ChainStream := chStream d 256
def chBeats (d : BitVec 768) : Nat := bitsAt d 47 32
def chNstage (d : BitVec 768) : Nat := bitsAt d 51 48
def chSink (d : BitVec 768) : Nat := bitsAt d 54 52
def chExp0 (d : BitVec 768) : Bool := bitAt d 55
def chVacc (d : BitVec 768) : Nat := bitsAt d 60 56
def chImm (d : BitVec 768) (k : Nat) : W32 := BitVec.ofNat 32 (bitsAt d (32 * k + 415) (32 * k + 384))
-- the mask specification (Table 6.9)
def chMk (d : BitVec 768) : Nat := bitsAt d 383 381
def chMin (d : BitVec 768) : Bool := bitAt d 380
def chMout (d : BitVec 768) : Bool := bitAt d 379
def chCx (d : BitVec 768) : Nat := bitsAt d 375 372
def chCap (d : BitVec 768) : Nat := bitsAt d 371 352
/-- Start of the mask stream. -/
def chMaskAddr (o : EngOp) : Nat := sramAddr o.xs (bitsAt o.desc 351 348) (bitsAt o.desc 342 320)

/-- A stage word (Table 6.10). -/
structure Stage where
  sop : Nat
  sa : Nat
  sb : Nat
  sc : Nat
  na : Bool
  nc : Bool
  int : Bool
  dfmt : Nat
  rnd : Nat
  fn : Nat
  mreg : Nat
  deriving DecidableEq, Repr

def stageOf (w : BitVec 32) : Stage :=
  ⟨bitsAt w 31 27, bitsAt w 26 23, bitsAt w 22 19, bitsAt w 18 15, bitAt w 14, bitAt w 13, bitAt w 12, bitsAt w 11 8,
   bitsAt w 7 6, bitsAt w 5 3, bitsAt w 2 0⟩

/-- The stages of a chain. -/
def chStages (d : BitVec 768) : List Stage := (chainStages d).map stageOf

/-- Operand selects that a stage reads. -/
def stageUses (g : Stage) : List Nat :=
  if g.sop = 3 then [g.sa, g.sb, g.sc] else if g.sop = 8 || g.sop = 9 then [g.sa] else [g.sa, g.sb]

/-- Stage latency (Table 6.11). -/
def stageLat (g : Stage) : Nat :=
  if g.sop = 3 || g.sop = 9 then 4 else if g.sop = 4 || g.sop = 6 || g.sop = 7 then 2 else if g.sop = 5 then 1 else 3

/-- Input streams that a chain reads: those its operands select, and an EXPAND source. -/
def chUsed (d : BitVec 768) : List Nat :=
  let sel := (chStages d).zipIdx.flatMap fun p =>
    (stageUses p.1).filterMap fun x => if x = 0 then (if p.2 = 0 then some 0 else none) else if x ≤ 3 then some (x - 1) else none
  (List.range 3).filter fun k => sel.contains k || (k == 0 && chExp0 d)

/-! ## Checks (R168, R176 to R182, R185) -/

/-- Type of an operand: floating point, INT32, or an encoded format that only a CONVERT may read as operand a. -/
inductive OpType where
  | flt | int | enc
  deriving DecidableEq, Repr

/-- Type of an input in a face format (R180). -/
def inType (c : Nat) : OpType := if c ≤ 2 then .flt else if c ≤ 4 then .int else .enc
/-- Type of a stage's result. -/
def outType (g : Stage) : OpType :=
  if g.sop = 8 then (if g.dfmt = 3 || g.dfmt = 4 then .int else .flt) else if g.int then .int else .flt

/-- Type of operand select x of stage i, or none where the select gives MODE (R179). -/
def selType (d : BitVec 768) (ts : List OpType) (exp2 : Bool) (want : OpType) (i x : Nat) : Option OpType :=
  if x = 0 then (if i = 0 then some (inType (chIn d 0).fmt) else ts[i - 1]?)
  else if x ≤ 3 then some (inType (chIn d (x - 1)).fmt)
  else if x ≤ 7 then some want
  else if x = 8 then (if exp2 then some .flt else none)
  else if x - 9 < i then ts[x - 9]?
  else none

/-- The codes of a stage are defined. -/
def stageCodes (g : Stage) : Bool :=
  1 ≤ g.sop && g.sop ≤ 9 && !(g.sop == 4 && 5 < g.fn) && !(g.sop == 9 && (2 < g.fn || g.int)) &&
  !(g.sop == 8 && (g.rnd == 3 || 12 < g.dfmt))

/-- The operands of stage i have its type; operand a of a CONVERT may have any (R180). -/
def stageTypes (d : BitVec 768) (ts : List OpType) (exp2 : Bool) (i : Nat) (g : Stage) : Bool :=
  let want : OpType := if g.int then .int else .flt
  (stageUses g).all fun x =>
    match selType d ts exp2 want i x with
    | none => false
    | some t => g.sop == 8 || t == want

/-- All stages pass, in order, given the types of those before. -/
def stagesOk (d : BitVec 768) : List Stage → Nat → List OpType → Bool → Bool
  | [], _, _, _ => true
  | g :: gs, i, ts, exp2 =>
    stageCodes g && stageTypes d ts exp2 i g &&
      stagesOk d gs (i + 1) (ts ++ [outType g]) (exp2 || (g.sop == 9 && g.fn == 0))

/-- Format and place of a stream are allowed: registers hold FP32 or INT32 (R177). -/
def streamCodes (x : ChainStream) : Bool := x.fmt ≤ 12 && (!x.reg || x.fmt == 0 || x.fmt == 4)

/-- The last stage gives the output's format (R180). -/
def lastGives (d : BitVec 768) : Bool :=
  let c := (chOut d).fmt
  c ≤ 2 || c == 4 || (match (chStages d).getLast? with
    | some g => g.sop == 8 && g.dfmt == c
    | none => false)

/-- Codes and combinations of a chain. -/
def chainCodes (d : BitVec 768) : Bool :=
  let k := chSink d
  k ≠ 7 && !(chMin d && chMout d) && !(chExp0 d && k == 5) &&
  ((chUsed d).all fun x => streamCodes (chIn d x)) &&
  (k == 6 || (streamCodes (chOut d) && lastGives d)) &&
  (!(k == 1 || k == 2 || k == 3) || (chOut d).reg) &&
  stagesOk d (chStages d) 0 [] false

/-- Bytes of a beat of vl elements: for MX formats whole blocks (R177). -/
def beatBytes (c vl : Nat) : Nat :=
  match faceFmt c with
  | some g => if g.mx then ceilDiv vl 32 * (4 * g.fmt.bits + 1) else vl * g.fmt.bytes
  | none => 0

/-- Start of an SRAM stream. -/
def streamAddr (o : EngOp) (x : ChainStream) : Nat := sramAddr o.xs x.xb x.off

/-- Bytes of a block of an MX stream with its scale (R170). -/
def mxBlock (g : FaceFmt) : Nat := 4 * g.fmt.bits + 1

/-- Bytes of a packed stream of n elements: one after another, or for MX formats in whole blocks (log entry 35). -/
def packStreamBytes (c n : Nat) : Nat :=
  match faceFmt c with
  | some g => if g.mx then ceilDiv n 32 * mxBlock g else n * g.fmt.bytes
  | none => 0

/-- Bytes of SRAM that a stream covers; a packed one holds up to cap elements. -/
def streamSpan (o : EngOp) (x : ChainStream) (packed : Bool) : Span :=
  if packed then ⟨streamAddr o x, packStreamBytes x.fmt (chCap o.desc), 0, 1⟩
  else ⟨streamAddr o x, beatBytes x.fmt o.vl, x.stride, chBeats o.desc⟩

/-- Register of beat j. -/
def streamReg (x : ChainStream) (j : Nat) : Nat := x.off % 32 + (if x.stride = 1 then j else 0)

/-- Register of element n of a packed register stream: 64 elements in each (log entry 35). -/
def packedReg (x : ChainStream) (n : Nat) : Nat := x.off % 32 + n / 64

/-- A stream stays in its range: registers to V31 in steps of 0 or 1, bytes in the SRAM. -/
def streamRange (o : EngOp) (x : ChainStream) (packed : Bool) : Bool :=
  if x.reg && packed then chCap o.desc == 0 || packedReg x (chCap o.desc - 1) ≤ 31
  else if x.reg then (x.stride == 0 || x.stride == 1) && streamReg x (chBeats o.desc - 1) ≤ 31
  else (streamSpan o x packed).inSram

/-- The mask stream, if there is one. -/
def maskSpan (o : EngOp) : Span :=
  if chMin o.desc || chMout o.desc then ⟨chMaskAddr o, 8 * chBeats o.desc, 0, 1⟩ else ⟨0, 0, 0, 1⟩

/-- Checks of a VCHAIN (R168). -/
def vchainCheck (o : EngOp) : Byte :=
  let d := o.desc
  twoChecks (chainCodes d)
    (1 ≤ chNstage d && chNstage d ≤ 8 && 1 ≤ chBeats d &&
     ((chUsed d).all fun x => streamRange o (chIn d x) (x == 0 && chExp0 d)) &&
     (chSink d == 6 || streamRange o (chOut d) (chSink d == 5)) && (maskSpan o).inSram)

/-! ## Rounding (R79) -/

/-- A format whose subnormal results the vector engine flushes. -/
def flushes (f : Fmt) : Bool := f == .fp32 || f == .bf16 || f == .fp16

/-- A code is a nonzero subnormal. -/
def isSub (f : Fmt) (c : Nat) : Bool := c / 2 ^ f.mant % 2 ^ f.expBits == 0 && c % 2 ^ f.mant ≠ 0

/-- Convert as a stage does: subnormal results of FP32, bf16 and FP16 become zero with the sign kept. -/
def stageConv (f : Fmt) (mode : RMode) (v : Val) : Nat × Flags :=
  let (c, fl) := f.convert mode v
  if flushes f && isSub f c then (c / 2 ^ (f.bits - 1) * 2 ^ (f.bits - 1), { fl with flush := true }) else (c, fl)

/-- Saturate to INT32. -/
def satInt (n : Int) : Int × Flags :=
  if 2 ^ 31 - 1 < n then (2 ^ 31 - 1, { sat := true }) else if n < -(2 ^ 31) then (-(2 ^ 31), { sat := true }) else (n, {})

/-- The result of a stage that is not the last: FP32, or INT32 saturated (R180). -/
def innerRound : Lane → Lane × Flags
  | .f v =>
    let (c, fl) := stageConv .fp32 .rne v
    (.f (Fmt.fp32.decode c), fl)
  | .i n =>
    let (m, fl) := satInt n
    (.i m, fl)

/-- Code of an INT32 value. -/
def intCode (n : Int) : Nat := (BitVec.ofInt 32 n).toNat

/-- The result of the last stage in FP32, bf16, FP16 or INT32: its code, its value as stored, and its flags. -/
def lastRound (f : Fmt) (x : Lane) : Nat × Lane × Flags :=
  if f = .int32 then
    match x with
    | .i n =>
      let (m, fl) := satInt n
      (intCode m, .i m, fl)
    | .f v =>
      let (c, fl) := Fmt.int32.convert .rne v
      (c, .i (signed 32 c), fl)
  else
    let (c, fl) := stageConv f .rne x.val
    (c, .f (f.decode c), fl)

/-! ## Seeds (R188) -/

/-- The largest x below 2^n with x^p at most a target, by its bits from bit n − 1 down. -/
def rootBits (p target : Nat) : Nat → Nat → Nat
  | 0, acc => acc
  | n + 1, acc => rootBits p target n (if (acc + 2 ^ n) ^ p ≤ target then acc + 2 ^ n else acc)

/-- T[i] = 2^(i ÷ 128) rounded to FP32: its significand, in units of 2^−23. -/
def exp2Table (i : Nat) : Nat := (rootBits 128 (2 ^ (i + 128 * 24)) 25 0 + 1) / 2

/-- R_i in units of 2^−24: 1 ÷ (1 + (i + 0.5) ÷ 4,096), rounded; there are no ties. -/
def recipTable (i : Nat) : Nat := (2 * 8192 * 2 ^ 24 / (8193 + 2 * i) + 1) / 2

/-- S_(p,i) in units of 2^−24: 1 ÷ √(2^p × (1 + (i + 0.5) ÷ 4,096)), rounded; there are no ties. -/
def rsqrtTable (p i : Nat) : Nat := (rootBits 2 (8192 * 2 ^ 50 / (2 ^ p * (8193 + 2 * i))) 26 0 + 1) / 2

/-- The 12 top bits of the fraction of a magnitude. -/
def fracTop (m : Nat) : Nat := m * 4096 / 2 ^ Nat.log2 m % 4096

/-- A seed: its value, RES for EXP2, and its flags. -/
structure Seeded where
  v : Val
  res : Val := .zero
  fl : Flags := {}
  deriving DecidableEq, Repr

/-- EXP2 (Table 6.13). RES outside the ordinary row is a free value. -/
def seedExp2 (x : Val) : Seeded :=
  let free := val32 (Config.exp2Residual (code32 x))
  match x with
  | .nan => { v := .nan, res := free, fl := { invalid := true } }
  | .inf false => { v := .inf false, res := free }
  | .inf true => { v := .zero, res := free }
  | .num s m e =>
    let k := (-(e + 7)).toNat
    let z := sgn s (m * 2 ^ (e + 7).toNat)
    let q := z / (2 ^ k : Nat)
    let r := z % (2 ^ k : Nat)
    if 128 * 128 ≤ q then { v := .inf false, res := free, fl := { ovf := true } }
    else if q < -(126 * 128) then { v := .zero, res := free, fl := { flush := true } }
    else { v := .num false (exp2Table (q % 128).toNat) (q / 128 - 23), res := .num false r.toNat (-7 - (k : Int)) }

/-- RECIP (Table 6.13). An operand below 2^−126 gives a free value. -/
def seedRecip (x : Val) : Seeded :=
  match x with
  | .nan => { v := .nan, fl := { invalid := true } }
  | .inf s => { v := .num s 0 0 }
  | .num s m e =>
    if m = 0 then { v := .inf s }
    else
      let l := log2Of m e
      if 126 ≤ l then { v := .num s 0 0, fl := { flush := true } }
      else if l < -126 then
        let v := val32 (Config.recipSubnormal (code32 x))
        { v := v, fl := { ovf := v.isInf } }
      else { v := .num s (recipTable (fracTop m)) (-24 - l) }

/-- RSQRT (Table 6.13). -/
def seedRsqrt (x : Val) : Seeded :=
  match x with
  | .nan => { v := .nan, fl := { invalid := true } }
  | .inf s => if s then { v := .nan, fl := { invalid := true } } else { v := .zero }
  | .num s m e =>
    if m = 0 then { v := .inf s }
    else if s then { v := .nan, fl := { invalid := true } }
    else
      let l := log2Of m e
      let p := l % 2
      { v := .num false (rsqrtTable p.toNat (fracTop m)) (-24 - (l - p) / 2) }

def seedOf (fn : Nat) (x : Val) : Seeded :=
  if fn = 0 then seedExp2 x else if fn = 1 then seedRecip x else seedRsqrt x

/-! ## Stages (R179 to R181) -/

/-- Smaller or larger under R81: NaN wins, and −0 is below +0. -/
def minMaxVal (big : Bool) (a b : Val) : Val :=
  if a.isNan || b.isNan then .nan
  else
    let below := a.lt b || (a.eq b && a.isNeg && !b.isNeg)
    if big then (if below then b else a) else (if below then a else b)

def minMaxInt (big : Bool) (a b : Int) : Int := if big then max a b else min a b

/-- A comparison holds; with a NaN only "not equal" does (R81). -/
def cmpHolds (fn : Nat) (a b : Lane) : Bool :=
  let x := a.val
  let y := b.val
  let lt := x.lt y
  let eq := x.eq y
  let gt := y.lt x
  if fn = 0 then eq else if fn = 1 then !eq else if fn = 2 then lt else if fn = 3 then lt || eq
  else if fn = 4 then gt else gt || eq

/-- ADD, MUL, FMA, MIN and MAX of one lane, exactly. -/
def laneAlu (sop : Nat) (int : Bool) (a b c : Lane) : Lane :=
  if int then
    let x := a.int
    let y := b.int
    .i (if sop = 1 then x + y else if sop = 2 then x * y else if sop = 3 then x * y + c.int else minMaxInt (sop == 7) x y)
  else
    let x := a.val
    let y := b.val
    .f (if sop = 1 then x.add y else if sop = 2 then x.mul y else if sop = 3 then (x.mul y).add c.val
        else minMaxVal (sop == 7) x y)

/-- What a beat holds while its stages run. -/
structure Beat where
  /-- Lanes of the three inputs. -/
  ins : List (List Lane)
  /-- Results of the stages so far. -/
  res : List (List Lane) := []
  resid : List Lane := []
  flags : List Flags
  /-- Lanes that derive from a poisoned word (R192). -/
  bad : List Bool
  /-- Codes, scales and bytes of the last CONVERT. -/
  conv : List Nat := []
  scales : List Byte := []
  face : Face

/-- Operand select x of stage i, read in a type (R179). -/
def laneOpnd (d : BitVec 768) (b : Beat) (vl i x : Nat) (int : Bool) : List Lane :=
  if x = 0 then (if i = 0 then b.ins.getD 0 [] else b.res.getD (i - 1) [])
  else if x ≤ 3 then b.ins.getD (x - 1) []
  else if x ≤ 7 then
    List.replicate vl (if int then .i (signed 32 (chImm d (x - 4)).toNat) else .f (val32 (chImm d (x - 4))))
  else if x = 8 then b.resid
  else b.res.getD (x - 9) []

/-- Lane by lane union of flags. -/
def orFlags (a b : List Flags) : List Flags := (a.zip b).map fun p => p.1.or p.2

/-- A result of a stage: rounded unless it is the last of a chain that writes it. R79 takes every stage's result, so an operand that
CMP or SEL passes on is flushed too when it is subnormal, and counts in `flush` (DESIGN CHOICE, log entry 154). -/
def putResult (b : Beat) (last : Bool) (ls : List Lane) (fl : List Flags) : Beat :=
  if last then { b with res := b.res ++ [ls], flags := orFlags b.flags fl }
  else
    let rs := ls.map innerRound
    { b with res := b.res ++ [rs.map (·.1)], flags := orFlags b.flags (orFlags fl (rs.map (·.2))) }

/-- CONVERT of the lanes of a beat (R180, Table 3.6). -/
def convertStage (b : Beat) (g : Stage) (as : List Lane) : Beat :=
  let vs := (as.zip b.bad).map fun p => if p.2 then Val.nan else p.1.val
  let (modes, sr) := roundings g.rnd vs.length b.face.srState
  let fc := { b.face with srState := sr }
  match faceFmt g.dfmt with
  | none => b
  | some q =>
    if q.mx then
      let bl := ((chunks32 (vs.length + 1) vs).zip (chunks32 (vs.length + 1) modes)).map fun p => blockScale q.fmt p.2 p.1
      let es := bl.flatMap fun x => x.2.map fun e => (e.1, e.2, (q.fmt.decode e.1).mul (e8m0 x.1))
      { b with face := fc, conv := es.map (·.1), scales := bl.map (·.1), res := b.res ++ [es.map fun e => .f e.2.2],
               flags := orFlags b.flags (es.map (·.2.1)) }
    else
      let es := (vs.zip modes).map fun p => if flushes q.fmt then stageConv q.fmt p.2 p.1 else q.fmt.convert p.2 p.1
      let ls := es.map fun e =>
        if q.fmt.isInt then Lane.i (signed q.fmt.bits e.1) else .f (q.fmt.decode e.1)
      { b with face := fc, conv := es.map (·.1), scales := [], res := b.res ++ [ls], flags := orFlags b.flags (es.map (·.2)) }

/-- One stage of a beat (Table 6.11). `stores`: the chain writes data. Two SR CONVERT stages of a chain draw beat by beat, in a beat
stage by stage, in a stage lane by lane (DESIGN CHOICE, log entry 153). -/
def runStage (d : BitVec 768) (vl n : Nat) (stores : Bool) (b : Beat) (p : Stage × Nat) : Beat :=
  let g := p.1
  let i := p.2
  let last := stores && i + 1 == n
  let a0 := laneOpnd d b vl i g.sa g.int
  let as := if g.na then a0.map Lane.neg else a0
  let none_ := as.map fun _ => ({} : Flags)
  if g.sop = 8 then convertStage b g as
  else if g.sop = 9 then
    let xs := as.map fun a => seedOf g.fn a.val
    let b1 := if g.fn = 0 then { b with resid := xs.map fun x => .f x.res } else b
    putResult b1 last (xs.map fun x => .f x.v) (xs.map (·.fl))
  else
    let bs := laneOpnd d b vl i g.sb g.int
    if g.sop = 4 then
      let m := (as.zip bs).zipIdx.foldl (fun (m : W64) q => if cmpHolds g.fn q.1.1 q.1.2 then setBit m q.2 true else m) 0
      putResult { b with face := { b.face with masks := tset 0 b.face.masks g.mreg m } } last as none_
    else if g.sop = 5 then
      let m := tget 0 b.face.masks g.mreg
      putResult b last ((as.zip bs).zipIdx.map fun q => if bitAt m q.2 then q.1.1 else q.1.2) none_
    else
      let c0 := if g.sop = 3 then laneOpnd d b vl i g.sc g.int else as
      let cs := if g.nc then c0.map Lane.neg else c0
      putResult b last (((as.zip bs).zip cs).map fun q => laneAlu g.sop g.int q.1.1 q.1.2 q.2) none_

/-! ## Streams -/

/-- The lanes of a byte run: vl elements, whether each is poisoned. -/
def lanesOf (g : FaceFmt) (vl : Nat) (a : Array PByte) : List (Lane × Bool) :=
  (List.range vl).map fun n =>
    let base := if g.mx then n / 32 * (4 * g.fmt.bits + 1) else 0
    let (c, bad) := codeAt a base g.fmt.bits (if g.mx then n % 32 else n)
    let sbad := g.mx && (a.getD (base + 4 * g.fmt.bits) (0, false)).2
    if g.mx then
      (.f (if bad || sbad then .nan else (g.fmt.decode c).mul (e8m0 (a.getD (base + 4 * g.fmt.bits) (0, false)).1)), bad || sbad)
    else if g.fmt.isInt then (.i (signed g.fmt.bits c), bad)
    else (.f (if bad then .nan else g.fmt.decode c), bad)

/-- A vector register lane. -/
def vlane (c : Face) (r i : Nat) : W32 := tget 0 c.vregs (r * 64 + i)

/-- The value of a register lane in FP32 or INT32. -/
def regLane (int : Bool) (w : W32) : Lane := if int then .i (signed 32 w.toNat) else .f (val32 w)

/-- Read beat j of a stream. -/
def readBeat (s : State) (f : Nat) (ctx : BitVec 6) (o : EngOp) (x : ChainStream) (j : Nat) : State × List (Lane × Bool) :=
  if x.reg then
    (s, (List.range o.vl).map fun i => (regLane (x.fmt == 4) (vlane (s.face f) (streamReg x j) i), false))
  else
    match faceFmt x.fmt with
    | none => (s, [])
    | some g =>
      let (t, a) := readSpan s f ctx ⟨((streamAddr o x : Int) + x.stride * (j : Int)).toNat, beatBytes x.fmt o.vl, 0, 1⟩
      (t, lanesOf g o.vl a)

/-- Elements used to used + n − 1 of a packed stream (R185, log entry 35). -/
def packedIn (s : State) (f : Nat) (ctx : BitVec 6) (o : EngOp) (x : ChainStream) (g : FaceFmt) (used n : Nat) :
    State × List (Lane × Bool) :=
  if x.reg then
    (s, (List.range n).map fun k =>
      (regLane (x.fmt == 4) (vlane (s.face f) (packedReg x (used + k)) ((used + k) % 64)), false))
  else if g.mx then
    let (t, a) := readSpan s f ctx ⟨streamAddr o x + used / 32 * mxBlock g, packStreamBytes x.fmt (used % 32 + n), 0, 1⟩
    (t, (lanesOf g (used % 32 + n) a).drop (used % 32))
  else
    let (t, a) := readSpan s f ctx ⟨streamAddr o x + used * g.fmt.bytes, n * g.fmt.bytes, 0, 1⟩
    (t, lanesOf g n a)

/-- Read beat lanes of an EXPAND source: selected lanes take the next packed elements up to cap, the others imm0 (R185). Also how many
elements were taken, and whether a lane read past cap. -/
def readExpand (s : State) (f : Nat) (ctx : BitVec 6) (o : EngOp) (used : Nat) : State × List (Lane × Bool) × Nat × Bool :=
  let d := o.desc
  let x := chIn d 0
  match faceFmt x.fmt with
  | none => (s, [], 0, false)
  | some g =>
    let m := tget 0 (s.face f).masks (chMk d)
    let sel := (List.range o.vl).filter (bitAt m)
    let take := min sel.length (chCap d - used)
    let int := g.fmt.isInt && !g.mx
    let (t, got) := packedIn s f ctx o x g used take
    let imm := if int then Lane.i (signed 32 (chImm d 0).toNat) else .f (val32 (chImm d 0))
    (t, (List.range o.vl).map (fun i =>
      if bitAt m i then got.getD (sel.idxOf i) (imm, false) else (imm, false)), take, decide (take < sel.length))

/-- Write the register lanes of a beat. -/
def putLanes (c : Face) (r : Nat) (codes : List Nat) : Face :=
  { c with vregs := codes.zipIdx.foldl (fun t p => tset 0 t (r * 64 + p.2) (BitVec.ofNat 32 p.1)) c.vregs }

/-- Pieces of a beat in SRAM: packed elements, or for each block its elements and its scale byte in its place. -/
def beatPieces (g : FaceFmt) (codes : List Nat) (scales : List Byte) : List (Nat × List Byte) :=
  if g.mx then
    ((chunks32 (codes.length + 1) codes).zip scales).zipIdx.flatMap fun p =>
      [(p.2 * (4 * g.fmt.bits + 1), packElems g.fmt.bits p.1.1), (p.2 * (4 * g.fmt.bits + 1) + 4 * g.fmt.bits, [p.1.2])]
  else [(0, packElems g.fmt.bits codes)]

/-- Write beat j of a stream. -/
def writeBeat (s : State) (f : Nat) (ctx : BitVec 6) (o : EngOp) (x : ChainStream) (j : Nat) (codes : List Nat)
    (scales : List Byte) : State × Byte :=
  if x.reg then (s.modFace f fun c => putLanes c (streamReg x j) codes, stOk)
  else
    match faceFmt x.fmt with
    | none => (s, stOk)
    | some g =>
      let base := ((streamAddr o x : Int) + x.stride * (j : Int)).toNat
      (beatPieces g codes scales).foldl (fun (a : State × Byte) p =>
        let (u, st) := engWrite a.1 f ctx (base + p.1) p.2
        (u, if a.2 = stOk then st else a.2)) (s, stOk)

/-! ## Sinks (R182, R184) -/

/-- Add a value into a register lane, or take the larger or smaller (kind 1, 2, 3). -/
def accLane (kind : Nat) (old : W32) (x : Lane) : W32 × Flags :=
  match x with
  | .i n =>
    let o := signed 32 old.toNat
    let (m, fl) := satInt (if kind = 1 then o + n else minMaxInt (kind == 2) o n)
    (BitVec.ofInt 32 m, fl)
  | .f v =>
    let o := val32 old
    let (c, fl) := stageConv .fp32 .rne (if kind = 1 then o.add v else minMaxVal (kind == 2) o v)
    (BitVec.ofNat 32 c, fl)

/-- The lanes of a beat into an accumulator register, and the flags that this adds. -/
def accBeat (c : Face) (r kind : Nat) (ls : List Lane) : Face × List Flags :=
  let rs := ls.zipIdx.map fun p => accLane kind (vlane c r p.2) p.1
  (putLanes c r (rs.map fun x => x.1.toNat), rs.map (·.2))

/-- What a chain has gathered so far. -/
structure ChainRun where
  flags : List Flags := []
  /-- POISON once a poisoned byte was read or a narrow write met a poisoned word. -/
  st : Byte := 0
  /-- Elements selected or consumed, and whether they went past cap. -/
  count : Nat := 0
  past : Bool := false
  /-- Codes gathered for a packed MX stream (R184). -/
  packed : List Nat := []
  deriving DecidableEq, Repr

/-- Codes, scales, stored values and flags of a beat's results in the output's format. A last CONVERT to another format than the
stream's is rounded to its own and then again to the stream's (DESIGN CHOICE, log entry 156). -/
def beatOutput (d : BitVec 768) (b : Beat) : List Nat × List Byte × List Lane × List Flags :=
  let ls := b.res.getLastD []
  let c := (chOut d).fmt
  let conv := match (chStages d).getLast? with
    | some g => g.sop == 8 && g.dfmt == c
    | none => false
  if conv then (b.conv, b.scales, ls, ls.map fun _ => {})
  else
    let rs := (ls.zip b.bad).map fun p => lastRound (plainFmt c) (if p.2 then .f .nan else p.1)
    (rs.map (·.1), [], rs.map (·.2.1), rs.map (·.2.2))

/-- Put one packed element in its place: a register lane or bytes of the SRAM; those of an MX stream are gathered into blocks. -/
def packElem (s : State) (f : Nat) (ctx : BitVec 6) (o : EngOp) (code : Nat) (r : ChainRun) : State × ChainRun :=
  let x := chOut o.desc
  let n := r.count
  if x.reg then
    (s.modFace f fun c => { c with vregs := tset 0 c.vregs (packedReg x n * 64 + n % 64) (BitVec.ofNat 32 code) }, r)
  else if (faceFmt x.fmt).any (·.mx) then (s, { r with packed := r.packed ++ [code] })
  else
    let w := (plainFmt x.fmt).bytes
    let (u, st) := engWrite s f ctx (streamAddr o x + n * w) (leBytes w code)
    (u, { r with st := if r.st = stOk then st else r.st })

/-- Selected elements go one after another from the stream's start, as long as cap allows (R184). -/
def compressBeat (s : State) (f : Nat) (ctx : BitVec 6) (o : EngOp) (codes : List Nat) (r : ChainRun) : State × ChainRun :=
  let d := o.desc
  let m := tget 0 (s.face f).masks (chMk d)
  codes.zipIdx.foldl (fun (a : State × ChainRun) p =>
    if bitAt m p.2 then
      let (u, r1) := if a.2.count < chCap d then packElem a.1 f ctx o p.1 a.2 else (a.1, { a.2 with past := true })
      (u, { r1 with count := r1.count + 1 })
    else a) (s, r)

/-- A free scale byte for each block of a packed MX stream (log entry 35). -/
def freeScales : Nat → State → State × List Byte
  | 0, s => (s, [])
  | n + 1, s =>
    let (i, t) := s.newFree
    let (u, l) := freeScales n t
    (u, Config.packedScale i :: l)

/-- Write the blocks that a COMPRESS to an MX stream has gathered. -/
def compressEnd (s : State) (f : Nat) (ctx : BitVec 6) (o : EngOp) (r : ChainRun) : State × ChainRun :=
  let x := chOut o.desc
  match faceFmt x.fmt with
  | none => (s, r)
  | some g =>
    let (t, sc) := freeScales (ceilDiv r.packed.length 32) s
    (beatPieces g r.packed sc).foldl (fun (a : State × ChainRun) p =>
      let (u, st) := engWrite a.1 f ctx (streamAddr o x + p.1) p.2
      (u, { a.2 with st := if a.2.st = stOk then st else a.2.st })) (t, { r with packed := [] })

/-- The sink of beat j. Every lane below VL counts in the assay word, whether or not a COMPRESS writes it or the chain has a sink
(DESIGN CHOICE, log entry 155). -/
def sinkBeat (s : State) (f : Nat) (ctx : BitVec 6) (o : EngOp) (j : Nat) (b : Beat) (r : ChainRun) : State × ChainRun :=
  let d := o.desc
  let k := chSink d
  let s1 := s.setFace f b.face
  if k = 6 then (s1, { r with flags := r.flags ++ b.flags })
  else
    let (codes, scales, stored, fl) := beatOutput d b
    let fl1 := orFlags b.flags fl
    if k = 0 || k = 4 then
      let (s2, st) := writeBeat s1 f ctx o (chOut d) j codes scales
      let r1 := { r with st := if r.st = stOk then st else r.st }
      if k = 0 then (s2, { r1 with flags := r1.flags ++ fl1 })
      else
        let (c, fl2) := accBeat (s2.face f) (chVacc d) 1 stored
        (s2.setFace f c, { r1 with flags := r1.flags ++ orFlags fl1 fl2 })
    else if k = 5 then
      let (s2, r1) := compressBeat s1 f ctx o codes r
      (s2, { r1 with flags := r1.flags ++ fl1 })
    else
      let (c, fl2) := accBeat (s1.face f) (streamReg (chOut d) j) k stored
      (s1.setFace f c, { r with flags := r.flags ++ orFlags fl1 fl2 })

/-! ## VCHAIN -/

/-- Read the inputs of beat j. -/
def readInputs (f : Nat) (ctx : BitVec 6) (o : EngOp) (j : Nat) (a : State × ChainRun) : State × ChainRun × List (List (Lane × Bool)) :=
  let d := o.desc
  (List.range 3).foldl (fun (x : State × ChainRun × List (List (Lane × Bool))) k =>
    if !(chUsed d).contains k then (x.1, x.2.1, x.2.2 ++ [[]])
    else if k = 0 && chExp0 d then
      let (t, ls, n, past) := readExpand x.1 f ctx o x.2.1.count
      (t, { x.2.1 with count := x.2.1.count + n, past := x.2.1.past || past }, x.2.2 ++ [ls])
    else
      let (t, ls) := readBeat x.1 f ctx o (chIn d k) j
      (t, x.2.1, x.2.2 ++ [ls])) (a.1, a.2, [])

/-- One beat of a chain: mask stream in, inputs, stages, sink, mask stream out (R177 to R185). -/
def chainBeat (f : Nat) (ctx : BitVec 6) (o : EngOp) (a : State × ChainRun) (j : Nat) : State × ChainRun :=
  let d := o.desc
  let maddr := chMaskAddr o + 8 * j
  let (s1, mbad) :=
    if chMin d then
      let (t, bs) := readSpan a.1 f ctx ⟨maddr, 8, 0, 1⟩
      (t.modFace f fun c => { c with masks := tset 0 c.masks (chMk d) (BitVec.ofNat 64 (pbNat bs.toList)) }, poisonIn bs)
    else (a.1, false)
  let (s2, r1, ins) := readInputs f ctx o j (s1, a.2)
  let bad := (List.range o.vl).map fun i => mbad || ins.any fun l => (l.map (·.2)).getD i false
  let b : Beat := { ins := ins.map fun l => l.map (·.1), flags := bad.map fun _ => {}, bad := bad, face := s2.face f }
  let b1 := (chStages d).zipIdx.foldl (runStage d o.vl (chNstage d) (chSink d ≠ 6)) b
  let r2 := if bad.any id && r1.st = stOk then { r1 with st := stPoison } else r1
  let (s3, r3) := sinkBeat s2 f ctx o j b1 r2
  if chMout d then
    let (u, st) := engWrite s3 f ctx maddr (leBytes 8 (tget 0 (s3.face f).masks (chMk d)).toNat)
    (u, { r3 with st := if r3.st = stOk then st else r3.st })
  else (s3, r3)

/-- Lane-cycles of a beat (R183). -/
def laneCycles (d : BitVec 768) : Nat := chNstage d + (if chSink d = 5 then 1 else 0) + (if chExp0 d then 1 else 0)

/-- Cycles of a VCHAIN (R183). -/
def vchainCycles (d : BitVec 768) : Nat :=
  8 + ((chStages d).map stageLat).foldl (· + ·) 0 + laneCycles d * (chBeats d - 1)

/-- The first beats of a chain, with what a COMPRESS gathered written out. -/
def vchainBeats (s : State) (f : Nat) (ctx : BitVec 6) (o : EngOp) (n : Nat) : State × ChainRun :=
  let a := (List.range n).foldl (chainBeat f ctx o) (s, {})
  if a.2.packed = [] then a else compressEnd a.1 f ctx o a.2

/-- VCHAIN. -/
def vchain (s : State) (f i : Nat) : State :=
  match runningEng s f i opcVchain with
  | none => s
  | some (t, o) =>
    let d := o.desc
    let (u, r) := vchainBeats s f t.ctx o (chBeats d)
    let st := if r.past then stOob else r.st
    let x := if chSink d = 5 || chExp0 d then some (chCx d, BitVec.ofNat 32 r.count) else none
    vxEnd s u f { o with xout := x } st r.flags

/-- VCHAIN (R175 to R185). -/
def execVchain (f : FaceId) (i : Fin 16) (s : State) : Result := .next (vchain s f.val i.val)

/-! ## VHRED (R186) -/

def hrVs (d : BitVec 768) : Nat := bitsAt d 36 32
def hrVd (d : BitVec 768) : Nat := bitsAt d 44 40
def hrXd (d : BitVec 768) : Nat := bitsAt d 51 48
def hrFn (d : BitVec 768) : Nat := bitsAt d 53 52
def hrInt (d : BitVec 768) : Bool := bitAt d 56

/-- Checks of a VHRED. -/
def vhredCheck (o : EngOp) : Byte := twoChecks (hrFn o.desc ≠ 3) true

/-- The identity of a reduction. -/
def hrIdent (fn : Nat) (int : Bool) : Lane :=
  if int then .i (if fn = 0 then 0 else if fn = 1 then -(2 ^ 31) else 2 ^ 31 - 1)
  else .f (if fn = 0 then .negZero else .inf (fn == 1))

/-- Join two lanes. -/
def hrJoin (fn : Nat) (int : Bool) (a b : Lane) : Lane × Flags :=
  if int then
    let (m, fl) := satInt (if fn = 0 then a.int + b.int else minMaxInt (fn == 1) a.int b.int)
    (.i m, fl)
  else if fn = 0 then
    let (c, fl) := stageConv .fp32 .rne (a.val.add b.val)
    (.f (Fmt.fp32.decode c), fl)
  else (.f (minMaxVal (fn == 1) a.val b.val), {})

/-- One level of the tree: lanes 2i and 2i + 1 into lane i. -/
def hrLevel (fn : Nat) (int : Bool) : List Lane → List Lane × Flags
  | a :: b :: t =>
    let (x, fl) := hrJoin fn int a b
    let (xs, fl2) := hrLevel fn int t
    (x :: xs, fl.or fl2)
  | l => (l, {})

/-- n levels. -/
def hrTree (fn : Nat) (int : Bool) : Nat → List Lane → Lane × Flags
  | 0, l => (l.headD (.i 0), {})
  | n + 1, l =>
    let (r, fl) := hrLevel fn int l
    let (x, fl2) := hrTree fn int n r
    (x, fl.or fl2)

/-- VHRED. -/
def vhred (s : State) (f i : Nat) : State :=
  match runningEng s f i opcVhred with
  | none => s
  | some (_, o) =>
    let d := o.desc
    let c := s.face f
    let ls := (List.range 64).map fun n =>
      if n < o.vl then regLane (hrInt d) (vlane c (hrVs d) n) else hrIdent (hrFn d) (hrInt d)
    let (x, fl) := hrTree (hrFn d) (hrInt d) 6 ls
    let v : W32 := match x with
      | .i n => BitVec.ofInt 32 n
      | .f w => code32 w
    let o1 := if hrXd d = 0 then o else { o with xout := some (hrXd d, v) }
    vxEnd s (s.setFace f { c with vregs := tset 0 c.vregs (hrVd d * 64) v }) f o1 stOk
      [{ fl with invalid := fl.invalid || x.val.isNan }]

/-- VHRED (R186). -/
def execVhred (f : FaceId) (i : Fin 16) (s : State) : Result := .next (vhred s f.val i.val)

/-! ## PLANESUM (R187) -/

def psOfmt (o : EngOp) : Nat := bitsAt o.desc 35 32
def psN (o : EngOp) : Nat := bitsAt o.desc 127 112
def psPlanes (o : EngOp) : Nat := bitsAt o.desc 159 144
def psStride (o : EngOp) : Nat := bitsAt o.desc 191 160
def psSrc (o : EngOp) : Span := ⟨addrField o 192, 8 * psN o, (psStride o : Int), psPlanes o⟩
def psDst (o : EngOp) : Span := ⟨addrField o 224, psN o * (ofmtOf (psOfmt o)).bytes, 0, 1⟩

/-- Checks of a PLANESUM. -/
def planesumCheck (o : EngOp) : Byte :=
  twoChecks (psOfmt o ≤ 2)
    (1 ≤ psPlanes o && psPlanes o ≤ 4096 && 1 ≤ psN o && (psSrc o).inSram && (psDst o).inSram)

/-- Partial i of plane p; a poisoned word is NaN. -/
def planePartial (a : Array PByte) (n p i : Nat) : Val × Bool :=
  let base := (p * n + i) * 8
  let bs := (List.range 8).map fun k => a.getD (base + k) (0, false)
  if anyPoison bs then (.nan, false) else wordFast (BitVec.ofNat 64 (pbNat bs))

/-- Output i: rne32 sums over the planes in order, from plane 0. -/
def planeSum (a : Array PByte) (n planes i : Nat) : Val × Bool :=
  (List.range (planes - 1)).foldl (fun x p => foldAdd x (planePartial a n (p + 1) i)) (planePartial a n 0 i)

/-- Cycles of a PLANESUM (R187). -/
def planesumCycles (o : EngOp) : Nat := 16 + psPlanes o * ceilDiv (psN o) 64

/-- The first outputs of a PLANESUM: the state, the status, their flags. -/
def planesumOuts (s : State) (f : Nat) (ctx : BitVec 6) (o : EngOp) (n : Nat) : State × Byte × List Flags :=
  let (s1, a) := readSpan s f ctx { psSrc o with len := 8 * n }
  let es := (List.range n).map fun j =>
    let x := planeSum a n (psPlanes o) j
    let (c, fl) := (ofmtOf (psOfmt o)).convert .rne x.1
    (c, { fl with ovf := fl.ovf || x.2 })
  let (s2, st) := engWrite s1 f ctx (psDst o).first (packElems (ofmtOf (psOfmt o)).bits (es.map (·.1)))
  (s2, if poisonIn a then stPoison else st, es.map (·.2))

/-- PLANESUM. -/
def planesum (s : State) (f i : Nat) : State :=
  match runningEng s f i opcPlanesum with
  | none => s
  | some (t, o) =>
    let (u, st, fl) := planesumOuts s f t.ctx o (psN o)
    vxEnd s u f o st fl

/-- PLANESUM (R187). -/
def execPlanesum (f : FaceId) (i : Fin 16) (s : State) : Result := .next (planesum s f.val i.val)

/-! ## Cycles, and a stop on the way (R383) -/

/-- Cycles of an operation of the matrix or vector engine, and those in which its engine is taken. -/
def engCycles (o : EngOp) : Nat × Nat :=
  let opc := descOpc o.desc
  let one (n : Nat) : Nat × Nat := (n, n)
  if opc = opcMma then one (mmaCycles o)
  else if opc = opcMxv then one (mxvCycles o)
  else if opc = opcMstore then one (mstoreCycles o)
  else if opc = opcVchain then (vchainCycles o.desc, laneCycles o.desc * chBeats o.desc)
  else if opc = opcVhred then (14, 6)
  else one (planesumCycles o)

/-- What an operation that a reset stops after its beat or tile in progress has written into SRAM (R383), its units spread evenly
over its cycles (log entry 157): beats of a chain, bands of an MXV, rows of an MSTORE, runs of 64 outputs of a PLANESUM. -/
def engStopped (s : State) (f : Nat) (ctx : BitVec 6) (o : EngOp) (start : Nat) : State :=
  let opc := descOpc o.desc
  let past := min ((if (s.face f).gated then (s.face f).wokeAt else s.now) - start) o.cost
  let units (n lead : Nat) : Nat := if o.cost ≤ lead then n else min n ((past - lead) * n / (o.cost - lead) + 1)
  let wrote :=
    if opc = opcVchain then (vchainBeats s f ctx o (units (chBeats o.desc) 0)).1
    else if opc = opcMxv then (mxvRows s f ctx o (64 * units (ceilDiv (mxN o) 64) 8)).1
    else if opc = opcMstore then
      match faceFmt (mxBfmt o) with
      | none => s
      | some g => ((List.range (units (mxM o) 16)).foldl (mstoreRow f ctx o g) (s, stOk, [])).1
    else if opc = opcPlanesum then (planesumOuts s f ctx o (min (psN o) (64 * units (ceilDiv (psN o) 64) 16))).1
    else s
  let t := withTag (descTag o.desc) s wrote
  if opc = opcMma || opc = opcMxv || opc = opcMstore then mxBusyFor t f past else vxBusyFor t f (min past o.busy)

end Sys2Proof.Machine
end

