-- ==== Sys2Proof/Machine/Life.lean ====
section
/-! DEFINITION. Life states and resets (R370 to R375, R382 to R387, R448, R461). -/

namespace Sys2Proof.Machine

/-! ## Life states (Tables 13.1 and 13.2) -/

abbrev lifeOff : Byte := 0
abbrev lifeStandby : Byte := 1
abbrev lifeBringup : Byte := 2
abbrev lifeMaintenance : Byte := 3
abbrev lifeService : Byte := 4
abbrev lifeDegraded : Byte := 5
abbrev lifeQuiesced : Byte := 6
abbrev lifeFault : Byte := 7

/-- A LIFE record (Table 15.4); reset kinds 1 face, 2 compute, 3 warm, 4 cold (log entry 38). A change of life state is recorded
whether or not the headframe runs (R373, log entry 13). -/
def logLife (s : State) (old new : Byte) (kind : Nat) : State :=
  logPut s { event := 0x0B, unit := BitVec.ofNat 16 new.toNat, src := 0,
             info := BitVec.ofNat 64 (kind * 2 ^ 16 + new.toNat * 2 ^ 8 + old.toNat) }

/-- Enter a life state (R373): the object, the record, a STATE message to every partner that can take one; FAULT ends the active
steps (R375). -/
def lifeTo (s : State) (new : Byte) (kind : Nat := 0) : State :=
  let old := s.life.state
  let t := logLife { s with life := { s.life with state := new } } old new kind
  let u := msgAll t 0x04 (leBytes 4 new.toNat)
  if new = lifeFault then abortAll u else u

/-- SERVICE, or DEGRADED while picks or faces are missing (R372). -/
def serviceState (s : State) : Byte :=
  if s.geo.picksLive.toNat < 4096 || s.geo.facesLive.toNat < 48 then lifeDegraded else lifeService

/-- SERVICE and DEGRADED follow the counts (R372). -/
def lifeFollow (s : State) : State :=
  if (s.life.state = lifeService || s.life.state = lifeDegraded) && s.life.state ≠ serviceState s then lifeTo s (serviceState s) else s

/-- A fatal failure: BRINGUP to QUIESCED become FAULT (Table 13.2). -/
def lifeFatal (s : State) : State :=
  if lifeBringup ≤ s.life.state && s.life.state ≤ lifeQuiesced then lifeTo s lifeFault else s

/-- Status of a write to `state_req` (R371). -/
def stateReqStatus (s : State) (v : Nat) : Byte :=
  let st := s.life.state
  if v = 6 then (if st = lifeService || st = lifeDegraded || st = lifeMaintenance then stOk else stMode)
  else if v = 4 then (if st = lifeQuiesced || st = lifeMaintenance then stOk else stMode)
  else if v = 3 then (if st = lifeQuiesced then (if stepsActive s = 0 then stOk else stBusy) else stMode)
  else stOob

/-- A write to `state_req`. -/
def stateReq (s : State) (v : Nat) : State × Byte :=
  let st := stateReqStatus s v
  if st ≠ stOk then (s, st)
  else if v = 4 then (lifeTo s (serviceState s), stOk)
  else (lifeTo s (BitVec.ofNat 8 v), stOk)

/-- QUIESCE_REQUEST (R371). -/
def execQuiesceRequest (p : DictPath) (s : State) : Result := .next (dictRow1 s p 0x2100 4 [6] fun t => stateReq t 6)

/-- SERVICE_REQUEST (R371). -/
def execServiceRequest (p : DictPath) (s : State) : Result := .next (dictRow1 s p 0x2100 4 [4] fun t => stateReq t 4)

/-- MAINTENANCE_REQUEST (R371). -/
def execMaintenanceRequest (p : DictPath) (s : State) : Result := .next (dictRow1 s p 0x2100 4 [3] fun t => stateReq t 3)

/-! ## A face stops (R383, R215) -/

/-- A face's registers, generator and hoist counters after a reset (R383, R67, R217). -/
def faceCleared (c : Face) : Face :=
  { c with xregs := [], masks := [], vregs := [], vl := 64, accs := [], vinbuf := [], srState := c.srSeed,
           hoistClamps := 0, hoistMisaligned := 0, hoistStaged := 0, hoistTransfers := 0, hoistLastStatus := 0 }

/-- An operation of the matrix or the vector engine. -/
def onEngine (o : EngOp) : Bool := descOpc o.desc ≠ opcHoist

/-- The matrix and vector engines of a face stop after the beat or tile in progress (R383). -/
def enginesStop (s : State) (f : Nat) (t : FaceTask) : State :=
  (t.ops.filter fun o => onEngine o && !o.done).foldl (fun (a : State) (o : EngOp) =>
    match o.started with
    | none => a
    | some b => engStopped a f t.ctx o b) s

/-- Hoists stop after the block in progress: a block whose write has begun is written whole, for nobody; all else that they wait for
is dropped (R215). -/
def hoistsStop (s : State) (p : Nat → Bool) : State :=
  innerDrop { s with xfers := s.xfers.map fun x =>
    match x.owner with
    | .inner (.hoist g _) _ => if p g && x.wr && x.left ≠ 0 then { x with owner := .nobody } else x
    | _ => x } fun w => match w with
      | .hoist g _ => p g
      | _ => false

/-- The task of a face ends with a status, its engines and hoists stop, its watches are withdrawn, and it is cleared. -/
def faceStop (s : State) (f : Nat) (st : Byte) : State :=
  let s0 := wakeDomain s (11 + clusterOf f)
  let s1 := match (s0.face f).task with
    | none => s0
    | some t =>
      let a := enginesStop s0 f t
      taskMemberDone (a.setFace f { countTask (a.face f) st none with task := none }) t.q t.seq (faceL s0 f) st t.assay
  let s2 := match (s1.face f).logical with
    | some l => withdrawTarget s1 (.face l)
    | none => s1
  let s3 := (faceWake s2 f).modFace f faceCleared
  let s4 := innerDrop (hoistsStop s3 (· == f)) fun w => w == .face f
  { s4 with stackTbl := tmap {} (fun k => { k with segments := k.segments.filter fun g => g.pass.isSome || g.face ≠ f }) s4.stackTbl }

/-- A fence of the face runs. -/
def faceJob (s : State) (f : Nat) : Bool := s.fence.jobs.any fun j => !j.pick && j.idx == f

/-- Faces that a reset or a fence holds. -/
def facesResetting (s : State) : Bool := s.faces.any fun p => p.2.resetting

/-! ## Which reset may begin (R382) -/

/-- Rank of the reset in progress: face 1, compute 2, warm 3, cold 4. -/
def resetRank (s : State) : Nat :=
  if s.life.cold.isSome then 4 else if s.life.warm.isSome then 3 else if s.life.compute.isSome then 2
  else if facesResetting s then 1 else 0

/-- The life states in which a face or the compute parts may be reset. -/
def lightResetState (s : State) : Bool :=
  (lifeMaintenance ≤ s.life.state && s.life.state ≤ lifeQuiesced) || (s.life.state == lifeBringup && s.life.opened)

/-- Status of a write to `reset_req`. -/
def resetReqStatus (s : State) (v : Nat) : Byte :=
  if v < 1 || 3 < v then stOob
  else if v = 1 && !lightResetState s then stMode
  else if v ≠ 1 && (s.life.state = lifeOff || s.life.state = lifeStandby) then stMode
  else if v + 1 ≤ resetRank s then stBusy
  else if v ≠ 1 && s.trust.fwState = 5 then stBusy
  else if v = 1 && s.life.running.isSome then stBusy
  else stOk

/-- Status of a write to `face_reset`. -/
def faceResetStatus (s : State) (f : Nat) : Byte :=
  if 51 < f then stOob
  else if !lightResetState s then stMode
  else if (s.face f).logical.isNone || (s.face f).fenced then stFenced
  else if 1 ≤ resetRank s then stBusy
  else if s.life.running.isSome then stBusy
  else stOk

/-! ## Face reset (R383) -/

/-- A face reset begins. -/
def faceResetBegin (s : State) (f : Nat) : State :=
  (faceStop (logLife s s.life.state s.life.state 1) f stBusy).modFace f fun c => { c with resetting := true }

/-- FACE_RESET (R383). -/
def execFaceReset (p : DictPath) (v : Byte) (s : State) : Result :=
  .next (dictRowThen s p 0x2100 6 [v] (fun t => faceResetStatus t v.toNat) (fun t => faceResetBegin t v.toNat))

/-- FACE_RESET_DONE: the face reads IDLE again; a face that a fence holds ends with FENCE_COMPLETE. -/
def faceResetDone (s : State) (f : Nat) : State :=
  if (s.face f).resetting && !faceJob s f then s.modFace f fun c => { c with resetting := false } else s

/-- FACE_RESET_DONE (R383). -/
def execFaceResetDone (f : FaceId) (s : State) : Result := .next (faceResetDone s f.val)

/-! ## Compute reset (R384, R94, R99, R242, R278) -/

/-- A pick stops: nothing waits or runs in it, its slots are FREE, its state is cleared and its sweeps are void. -/
def colStopped (c : Col) : Col :=
  voidCol { clearPick c with window := [], seqQ := [], dirQ := [], slots := [] }

/-- A queue's step ends without a record, and its accepted slots are discarded. -/
def queueStopped (k : Queue) : Queue := { k with step := none, accepted := [], stale := none }

/-- A compute reset ends the accesses of every unit it stops; those of a unit outside and of a record's write go on. -/
def stoppedWaiter : Waiter → Bool
  | .unit _ => false
  | .record _ => false
  | _ => true

/-- The steps, faces, hoists, picks and the collar stop, and every watch of a face or a step is withdrawn. -/
def computeStop (s : State) : State :=
  let s0 := innerDrop (hoistsStop s fun _ => true) stoppedWaiter
  let s1 := { s0 with
    queues := tmap {} queueStopped s.queues, passes := [], collar := [], clusters := [],
    foreman := { s.foreman with lastStart0 := none, lastStart1 := none, lastDispatch := none },
    cols := tmap {} colStopped s.cols,
    stackTbl := tmap {} (fun k => { k with segments := [] }) s.stackTbl }
  let s2 := (s1.faces.filter fun p => p.2.logical.isSome && !p.2.fenced).foldl (fun t p => faceStop t p.1 stBusy) s1
  let s3 := withdraw s2 (fun w => match w.target with
    | .face _ => true
    | .step _ => true
    | _ => false) (fun _ => true)
  (s3.faces.filter fun p => p.2.resetting).foldl (fun t p => faceResetDone t p.1) s3

/-- A compute reset begins. -/
def computeBegin (s : State) : State :=
  let t := computeStop (logLife s s.life.state s.life.state 2)
  { t with life := { t.life with compute := some t.now } }

/-- COMPUTE_RESET (R384). -/
def execComputeReset (p : DictPath) (s : State) : Result :=
  .next (dictRowThen s p 0x2100 5 [1] (fun t => resetReqStatus t 1) computeBegin)

/-- COMPUTE_RESET_DONE: pending microcode is in, the queues are reset, and `reset_state` returns to 0. -/
def computeResetDone (s : State) : State :=
  if s.life.compute.isSome then
    { s with queues := tmap {} queueStart s.queues, trust := { s.trust with ucodePending := false },
             life := { s.life with compute := none } }
  else s

/-- COMPUTE_RESET_DONE (R384). -/
def execComputeResetDone (s : State) : Result := .next (computeResetDone s)

/-! ## Warm reset (R385, R387, R461) -/

/-- A warm reset begins: BRINGUP, then the compute parts stop; the ports go on for up to 1 ms. -/
def warmBegin (s : State) : State :=
  let t := computeStop (lifeTo s lifeBringup 3)
  { t with life := { t.life with running := none, compute := none, restart := none, warm := some t.now } }

/-- WARM_RESET (R385). -/
def execWarmReset (p : DictPath) (s : State) : Result :=
  .next (dictRowThen s p 0x2100 5 [2] (fun t => resetReqStatus t 2) warmBegin)

/-- A column after a warm reset: NORMAL unless fenced or retired; refresh, rate, activation, repair and scrub state run on. -/
def colWarm (c : Col) : Col :=
  { colStopped c with mode := .normal, change := none, segs := [], opsDone := 0, lastStatus := 0, lastSeq := false, alerts := 0,
                      laneTraining := false, laneTrained := false, scrubLaps := 0, scrubLapLast := 0 }

/-- A stack after a warm reset: its objects at their defaults, its rate state, suspects and repairs as they run on (R312). -/
def stackWarm (k : Stack) : Stack :=
  { ({} : Stack) with refRate := k.refRate, coolSince := k.coolSince, tempMax := k.tempMax, wbq := k.wbq, suspects := k.suspects,
                      remapQueue := k.remapQueue,
                      remapJob := k.remapJob.map fun j => { j with path := none, holders := [], behind := [] } }

/-- An input's settings and counters at their defaults; its level stays as it is. -/
def inputReset (i : Nat) (x : InputPin) : InputPin :=
  { level := x.level, stuck := x.stuck, lastEdge := x.lastEdge, since := x.since, changed := x.changed,
    stuckMs := if i = 1 then 60000 else if i = 2 then 10000 else 0 }

def inputsReset (t : Tab InputPin) : Tab InputPin :=
  [0, 1, 2].foldl (fun (u : Tab InputPin) (i : Nat) => tset {} u i (inputReset i (tget {} t i))) []

/-- A mailbox after a warm reset: an access that was pending waits again, a completed one is forgotten (Table 13.6, R387). -/
def boxWarm (b : Mailbox) : Mailbox :=
  if b.pend then { b with taken := false } else {}

/-- CAN side after a warm reset: the waiting messages and the conditions are gone (R461); stored objects and the error list stay, and
mailboxes wait until step 1 ends: one whose response was held joins those that wait (log entry 164). -/
def canWarm (now : Nat) (c : Can) : Can :=
  { c with conds := [], quiet := [], emcyQueue := [], emcyOwed := false, usdo := none, usdoHeld := none, usdoLast := 0, usdoAborts := 0,
           mirrorDropped := 0, emcyDropped := 0, busOffs := 0, telemetry := [],
           boxes := tmap {} boxWarm c.boxes,
           mail := c.mail ++ ((c.boxes.filter fun (p : Nat × Mailbox) => p.2.pend && p.2.taken).map fun (p : Nat × Mailbox) =>
             ⟨p.1, now, 0⟩) }

/-- The feature set that the last bring-up applied stays in force until step 8 of the next (R4). -/
def geoCold (g : Geometry) : Geometry := { features := g.features, portsLicensed := g.portsLicensed, suffix := g.suffix }

/-- Geometry at its defaults; what is fenced and retired stays counted until step 2 reads the fuse map. -/
def geoWarm (g : Geometry) : Geometry := { geoCold g with picksLive := g.picksLive, pagesLive := g.pagesLive }

/-- Firmware, licences and attestation after the headframe has stopped: the staged images are gone, the attestation state stays, a
signature in progress is lost (R387, R398, R400). -/
def trustRestart (t : Trust) : Trust :=
  { t with fwImage := [], fwState := 0, fwStatus := 0, ucodePending := false, licImage := [], licStatus := 0,
           attState := if t.attState = 1 then 0 else t.attState, attReport := if t.attState = 1 then [] else t.attReport,
           attBody := [], nextIdx := t.reservedTo }

/-- The binding of logical faces that D00 keeps (R20). -/
def bindingOf (s : State) : Tab (Option Nat) :=
  if s.faces.any fun p => p.2.logical.isSome then s.faces.filterMap fun p => p.2.logical.map fun l => (p.1, some l)
  else s.oldBinding

/-- Domains after a warm reset: D04 to D09 off, D10 to D14 on again after their reset, the counters of Table 14.7 cleared. -/
def domainsWarm (t : Tab Domain) : Tab Domain :=
  ((t.filter fun (p : Nat × Domain) => !(4 ≤ p.1 && p.1 ≤ 9)).map fun (p : Nat × Domain) =>
    (p.1, { ({} : Domain) with state := if 10 ≤ p.1 && p.1 ≤ 14 && p.2.state ≠ 0 then (1 : Byte) else p.2.state,
                               idleSince := p.2.idleSince })).filter fun (p : Nat × Domain) => p.2 ≠ {}

/-- Power at its defaults but for what the input monitor in D00 holds: samples, conditions, phases, the excursion store (R402, R403). -/
def powerWarm (p : Power) : Power :=
  { domains := domainsWarm p.domains, volts := p.volts, watts := p.watts, over66 := p.over66, over64 := p.over64,
    under54 := p.under54, under48 := p.under48, under40 := p.under40, inBand := p.inBand, highCond := p.highCond,
    lowCond := p.lowCond, phases := p.phases, store := p.store, powerK := p.powerK, calmSamples := p.calmSamples }

/-- Power after a cold reset: every phase again in service; the monitor in D00 goes on, and the counts that begin a cold reset start
anew (log entry 124). -/
def powerCold (p : Power) : Power :=
  { volts := p.volts, watts := p.watts, over64 := p.over64, under54 := p.under54, under40 := p.under40, inBand := p.inBand,
    highCond := p.highCond, lowCond := p.lowCond }

/-- A whole transfer ends with TIMEOUT and no data: its granules leave (R385). -/
def xferTimeout (s : State) (x : Xfer) : State :=
  xferDone { s with xfers := s.xfers.filter fun z => z.id ≠ x.id, waits := s.waits.filter fun w => w.xfer ≠ x.id }
    { x with status := stTimeout }

/-- Requests that the drain has not completed end with TIMEOUT: held signals, forwarded requests, transfers. -/
def drainTimeouts (s : State) : State :=
  let s1 := allPorts.foldl (fun (t : State) (k : PortId) => endForwards (dropHolds t k) k false) s
  s1.xfers.foldl xferTimeout s1

/-- The hub after a warm reset (R385 steps 4 to 6, R387). -/
def warmCleared (s : State) : State :=
  { s with
    xfers := [], waits := [], xlate := [], groupView := 0, ctxs := [(0, { enabled := true })], drain := none,
    cols := tmap {} colWarm s.cols, stackTbl := tmap {} stackWarm s.stackTbl, passes := [], collar := [], collarFree := 0,
    oldBinding := bindingOf s, faces := [], clusters := [], queues := [], foreman := {}, win := {}, tally := {}, ports := [],
    fwds := [], host := { s.host with refused := 0, dropped := 0, aditRefused := 0, aditPage := 0 }, can := canWarm s.now s.can,
    geo := geoWarm s.geo, trust := trustRestart s.trust, power := powerWarm s.power,
    canary := { lastReading := s.canary.lastReading }, inputs := inputsReset s.inputs, fence := {},
    life := { s.life with buRun := 0, buLast := 0, running := none, steps := [], resetCause := 1, warmBoot := true, compute := none,
                          warm := none, restart := none, filled := false, opened := false } }

/-- The drain is over: 1 ms has passed, or nothing is incomplete. -/
def drained (s : State) (since : Nat) : Bool :=
  decide (since + msCycles ≤ s.now) ||
    (s.xfers = [] && s.fwds = [] && allPorts.all fun k => (s.port k).holds = [])

/-- WARM_RESET_DRAIN_END. -/
def warmResetDrainEnd (s : State) : State :=
  match s.life.warm with
  | none => s
  | some a => if drained s a then warmCleared (drainTimeouts s) else s

/-- WARM_RESET_DRAIN_END (R385). -/
def execWarmResetDrainEnd (s : State) : Result := .next (warmResetDrainEnd s)

/-! ## Cold reset, power (R386, R387, R430, R448) -/

/-- CAN side without its headframe: stored objects, node and NMT state. -/
def canCold (c : Can) : Can :=
  { comm := c.stored, stored := c.stored, nodeId := c.nodeId, nmt := c.nmt, canNominal := c.canNominal, canData := c.canData,
    rateNominal := c.rateNominal, rateData := c.rateData, busOff := c.busOff,
    errorPassive := c.errorPassive, hbLast := c.hbLast }

/-- A flash that loses power while an image is written holds no whole image (R390, log entry 43). -/
def flashCold (t : Trust) : Trust := if t.fwState = 5 then { t with flash := [] } else t

/-- What stands in flash, fuses and D00 while every other domain is off; `st` is the life state that the object shows. -/
def coldCleared (s : State) : State :=
  { pending := s.pending, now := s.now, out := s.out, freeTick := s.freeTick, reqNext := s.reqNext,
    can := canCold s.can, log := { saved := s.log.recs.take 256 }, fuse := s.fuse, trust := trustRestart (flashCold s.trust),
    host := { perst := s.host.perst }, inputs := inputsReset s.inputs, geo := geoCold s.geo, power := powerCold s.power,
    life := { state := s.life.state, fastPath := s.life.fastPath, d00At := s.life.d00At, resetCause := s.life.resetCause,
              cold := some s.now } }

/-- A cold reset begins: the copy of the newest 256 records, and every domain but D00 off (R386, R430). The life state changes, and is
recorded, when the 10 ms off are over (R373). -/
def coldBegin (s : State) : State := coldCleared s

/-- COLD_RESET (R386). -/
def execColdReset (p : DictPath) (s : State) : Result :=
  .next (dictRowThen s p 0x2100 5 [3] (fun t => resetReqStatus t 3) coldBegin)

/-- The boot-up message leaves, and the node is Pre-operational (R348, R349, Table 15.10). -/
def bootUp (s : State) : State :=
  { s with can := { s.can with nmt := .preOperational, hbLast := s.now } }.emit (.can (0x700 + s.can.nodeId) [0])

/-- COLD_RESET_OFF_END: after 10 ms off the module is in STANDBY, with its record and its boot-up message, and the CAN rates take
effect (R346, R373, R386, R442). -/
def coldResetOffEnd (s : State) : State :=
  match s.life.cold with
  | none => s
  | some a =>
    if a + 10 * msCycles ≤ s.now then
      bootUp (logLife
        { s with life := { s.life with state := lifeStandby, cold := none, resetCause := 2 },
                 can := { s.can with rateNominal := s.can.canNominal, rateData := s.can.canData } } s.life.state lifeStandby 4)
    else s

/-- COLD_RESET_OFF_END (R386). -/
def execColdResetOffEnd (s : State) : Result := .next (coldResetOffEnd s)

/-- The write of `reset_req` after its response. -/
def resetBegin (s : State) (v : Nat) : State :=
  if v = 1 then computeBegin s else if v = 2 then warmBegin s else coldBegin s

/-- An input without its filter: neither stuck nor spaced; its level is driven from outside (R421). -/
def inputOff (i : Nat) (x : InputPin) : InputPin := { inputReset i x with stuck := false, lastEdge := none, since := 0, changed := none }

/-- The module without input power: flash, fuses and pins that others drive. -/
def powerOff (s : State) : State :=
  let t := coldCleared s
  { t with log := { saved := s.log.saved }, can := { t.can with nmt := .preOperational, busOff := false, errorPassive := false },
           host := { perst := s.host.perst }, power := { domains := [], volts := 0, watts := 0 },
           inputs := [0, 1, 2].foldl (fun (u : Tab InputPin) (i : Nat) => tset {} u i (inputOff i (tget {} t.inputs i))) [],
           life := { state := lifeOff, fastPath := s.life.fastPath } }

/-- POWER_REMOVED (R371, R402): the fault log's ring is lost and nothing is copied (R430). -/
def execPowerRemoved (s : State) : Result := .next (powerOff s)

/-- An identifier that stands at its default follows the node (Table 12.11). -/
def rebase (base old new : Nat) (v : W32) : W32 :=
  if v = BitVec.ofNat 32 (base + old) then BitVec.ofNat 32 (base + new) else v

/-- Stored communication objects of a module that takes a new node ID. -/
def commRebase (c : CommObjs) (old new : Nat) : CommObjs :=
  { c with emcyCob := rebase 0x080 old new c.emcyCob,
           tpdoCob := c.tpdoCob.map fun p => (p.1, rebase (0x180 + 0x100 * p.1) old new p.2) }

/-- D00_START: NODE_ID is sampled, the change is recorded, the boot-up message leaves, and the module is in STANDBY (R345, R348, R448). -/
def d00Start (s : State) (node : BitVec 6) : State :=
  if s.life.state = lifeOff then
    let id := node.toNat + 1
    let c := commRebase s.can.stored s.can.nodeId id
    let t := { s with power := { s.power with domains := [(0, ⟨1, 0, 0, 0⟩)] },
                      can := { s.can with nodeId := id, comm := c, stored := c },
                      life := { s.life with state := lifeStandby, d00At := s.now, resetCause := 0 } }
    bootUp (logLife t lifeOff lifeStandby 0)
  else s

/-- D00_START (R448). -/
def execD00Start (node : BitVec 6) (s : State) : Result := .next (d00Start s node)

end Sys2Proof.Machine
end

