-- ==== Sys2Proof/Machine/Service.lean ====
section
/-! DEFINITION. Fencing, retiring a column, and the fault log's objects (R428 to R440, R48, R26, R29). -/

namespace Sys2Proof.Machine

/-! ## Counts (R29) -/

/-- Put a number into a list of marks once. -/
def mark (ns : List Nat) (n : Nat) : List Nat := if ns.contains n then ns else ns ++ [n]

/-- `picks_live`: picks that are not fenced. -/
def picksLiveOf (s : State) : Nat := 4096 - (s.cols.filter fun p => p.2.fenced || p.2.retired).length

/-- `faces_live`: bound faces that are not fenced. -/
def facesLiveOf (s : State) : Nat := (s.faces.filter fun p => p.2.logical.isSome && !p.2.fenced).length

/-- `pages_live` (R49). -/
def pagesLiveOf (s : State) : Nat := 32768 - 8 * (s.cols.filter fun p => p.2.retired).length

/-- The live counts as the units stand. -/
def recount (s : State) : State :=
  { s with geo := { s.geo with picksLive := BitVec.ofNat 16 (picksLiveOf s), facesLive := BitVec.ofNat 8 (facesLiveOf s),
                               pagesLive := BitVec.ofNat 16 (pagesLiveOf s) } }

/-- The counts of one fence or retirement, and then `generation` (R29). -/
def recountNext (s : State) : State :=
  let t := recount s
  { t with geo := { t.geo with generation := t.geo.generation + 1 } }

/-- Distance of two counts. -/
def countDiff (a b : Nat) : Nat := (a - b) + (b - a)

/-- The counts after several fences at once: `generation` gains 1 for each pick, face or column that they changed by (R29). -/
def recountMany (s : State) : State :=
  let t := recount s
  let n := countDiff s.geo.picksLive.toNat t.geo.picksLive.toNat + countDiff s.geo.facesLive.toNat t.geo.facesLive.toNat +
    countDiff s.geo.pagesLive.toNat t.geo.pagesLive.toNat / 8
  { t with geo := { t.geo with generation := t.geo.generation + BitVec.ofNat 32 n } }

/-! ## Fencing (R432 to R436) -/

/-- Fencing is allowed in MAINTENANCE, SERVICE, DEGRADED and QUIESCED. -/
def fenceState (s : State) : Bool := lifeMaintenance ≤ s.life.state && s.life.state ≤ lifeQuiesced

/-- Status of a write to `face_fence` (Table 15.6). -/
def faceFenceStatus (s : State) (f : Nat) : Byte :=
  if 51 < f then stOob
  else if !fenceState s then stMode
  else if (s.face f).logical.isNone then stFenced
  else if (s.face f).fenced then stOk
  else if s.fence.jobs ≠ [] then stBusy
  else stOk

/-- The fence of a face begins: its task ends FENCED, and it is reset (R434). -/
def faceFenceBegin (s : State) (f : Nat) (cause : Byte) : State :=
  if (s.face f).fenced || faceJob s f then s
  else fenceJob ((faceStop s f stFenced).modFace f fun c => { c with resetting := true }) false f cause

/-- FACE_FENCE (R432). -/
def execFaceFence (p : DictPath) (v : Byte) (s : State) : Result :=
  .next (dictRowThen s p 0x5001 1 [v] (fun t => faceFenceStatus t v.toNat) (fun t => faceFenceBegin t v.toNat 0))

/-- Status of a write to `pick_fence` (Table 15.6). -/
def pickFenceStatus (s : State) (g : Nat) : Byte :=
  if 4095 < g then stOob
  else if !fenceState s then stMode
  else if (s.col g).fenced || (s.col g).retired then stOk
  else if s.fence.jobs ≠ [] then stBusy
  else stOk

/-- The fence of a pick begins (R436). -/
def pickFenceBegin (s : State) (g : Nat) (cause : Byte) : State :=
  if (s.col g).fenced || (s.col g).retired then s else fenceJob (fencePickNow s g) true g cause

/-- PICK_FENCE (R432). -/
def execPickFence (p : DictPath) (v : W16) (s : State) : Result :=
  .next (dictRowThen s p 0x5001 2 (leBytes 2 v.toNat) (fun t => pickFenceStatus t v.toNat) (fun t => pickFenceBegin t v.toNat 0))

/-- A task that a foreman holds came from a TASK with target ANY. -/
def heldAny (s : State) (r : TaskReq) : Bool :=
  match (s.queue r.q).step with
  | none => false
  | some x =>
    match x.ops.find? fun o => o.seq == r.seq with
    | none => false
    | some o => taskTarget (stepDesc x o.index) == 0

/-- A held task of target ANY goes to another face of the cluster. -/
def rebindTask (s : State) (r : TaskReq) (l : Nat) : State :=
  let c := s.cluster (clusterOfLogical r.face)
  let t := s.setCluster (clusterOfLogical r.face)
    { c with tasks := c.tasks.map (fun x => if x = r then { x with face := l } else x), last := some l }
  match (t.queue r.q).step with
  | none => t
  | some x =>
    match x.ops.find? fun o => o.seq == r.seq with
    | none => t
    | some o => putStepOp t r.q { o with members := o.members.map fun m => if m.face = r.face then { m with face := l } else m }

/-- A task held for a face that is now fenced: another live face of the cluster takes it, one in a reset too, where it waits, or it
ends FENCED (R434). -/
def heldFenced (s : State) (r : TaskReq) : State :=
  let ls := (liveFaces s).filter fun l => clusterOfLogical l == clusterOfLogical r.face
  match (if heldAny s r then rotate (s.cluster (clusterOfLogical r.face)).last ls else none) with
  | some l => rebindTask s r l
  | none => taskMemberDone (dropTask s r) r.q r.seq r.face stFenced 0

/-- A face is fenced: every task held for it goes on elsewhere or ends. -/
def faceFencedNow (s : State) (f : Nat) : State :=
  let t := s.modFace f fun c => { c with fenced := true, resetting := false, gated := false, floorRate := false }
  match (t.face f).logical with
  | none => t
  | some l => ((t.cluster (clusterOfLogical l)).tasks.filter fun r => r.face == l).foldl heldFenced t

/-- The fault log record of a fence (Table 15.4). -/
def logFence (s : State) (pick : Bool) (idx : Nat) (cause : Byte) : State :=
  logRec s { event := if pick then 0x04 else 0x05, unit := BitVec.ofNat 16 idx, src := 0,
             info := BitVec.ofNat 64 cause.toNat }

/-- The service record's mark of a fence (R381), and the fence's own reports: record and EMCY. -/
def fenceReport (s : State) (pick : Bool) (idx : Nat) (cause : Byte) : State :=
  let f := if pick then { s.fuse with svcPicks := mark s.fuse.svcPicks idx } else { s.fuse with svcFaces := mark s.fuse.svcFaces idx }
  raiseEmcy (logFence { s with fuse := f } pick idx cause) (if pick then 0x5010 else 0x5020) (if pick then 3 else 4) idx

/-- FENCE_COMPLETE: the counts, the service record, `fence_busy`, `fences_done`, the record, the EMCY, and the life state. -/
def fenceComplete (s : State) : State :=
  match s.fence.jobs with
  | [] => s
  | j :: rest =>
    let s1 := if j.pick then s else faceFencedNow s j.idx
    let s2 := { recountNext s1 with fence := { jobs := rest, done := s1.fence.done + 1 } }
    lifeFollow (fenceReport s2 j.pick j.idx j.cause)

/-- FENCE_COMPLETE (R433). -/
def execFenceComplete (s : State) : Result := .next (fenceComplete s)

/-! ## Retiring a column (R48, R439) -/

/-- R48 refuses the retirement: a valid entry maps one of the column's pages, or a group of the column is striped. -/
def retireBlocked (s : State) (g : Nat) : Bool :=
  (s.xlate.any fun p => entryValid p.2 && (pagesOfCol g).contains (entryPage p.2)) ||
    (groupsOfCol g).any fun n => bitAt s.groupView n

/-- Status of a write to `col_retire`. -/
def colRetireStatus (s : State) (g : Nat) : Byte :=
  if 4095 < g then stOob
  else if (s.col g).retired then stOk
  else if !(s.col g).fenced then stMode
  else if retireBlocked s g then stMode
  else stOk

/-- The column reads RETIRED: its refresh stops, its sweeps and credits are void (R293). -/
def colRetired (s : State) (g : Nat) : State :=
  let k := creditCount (s.col g).segs
  (s.modCol g fun c => { voidAll c with retired := true, refStarted := false, owed := [], trrOwed := [] }).modStack (stackOf g) fun x =>
    { x with creditsVoided := satAdd x.creditsVoided k }

/-- A column is retired and reported: counts, service record, record, EMCY. -/
def retireBegin (s : State) (g : Nat) : State :=
  if (s.col g).retired then s
  else
    let t := recountNext (colRetired s g)
    let u := { t with fuse := { t.fuse with svcRetired := mark t.fuse.svcRetired g } }
    raiseEmcy (logRec u { event := 0x06, unit := BitVec.ofNat 16 g, src := 0,
                          info := BitVec.ofNat 64 u.geo.pagesLive.toNat }) 0x5030 3 g

/-- COL_RETIRE (R439). -/
def execColRetire (p : DictPath) (v : W16) (s : State) : Result :=
  .next (dictRow1 s p 0x5001 3 (leBytes 2 v.toNat) fun t =>
    let st := colRetireStatus t v.toNat
    (if st = stOk then retireBegin t v.toNat else t, st))

/-! ## Objects of the fault log (R428, R431) -/

/-- The 256 bits of a record (Table 15.3). -/
def faultWord (r : FaultRec) : BitVec 256 :=
  BitVec.ofNat 256 (r.info.toNat * 2 ^ 192 + r.whenUs.toNat * 2 ^ 128 + r.tag.toNat * 2 ^ 112 + r.unit.toNat * 2 ^ 96 +
    r.src.toNat * 2 ^ 80 + r.ctx.toNat * 2 ^ 74 + r.status.toNat * 2 ^ 64 + r.rpt.toNat * 2 ^ 48 + r.event.toNat * 2 ^ 40 +
    r.fseq.toNat)

/-- A write to `flog_sel`: a snapshot of the record named, if it is held. -/
def flogSel (s : State) (v : W32) : State × Byte :=
  match s.log.recs.find? fun r => r.fseq == v with
  | none => (s, stOob)
  | some r => ({ s with log := { s.log with sel := v, snap := faultWord r } }, stOk)

/-- FLOG_SEL (R431). -/
def execFlogSel (p : DictPath) (v : W32) (s : State) : Result := .next (dictRow1 s p 0x5000 3 (leBytes 4 v.toNat) fun t => flogSel t v)

/-- A write to `flog_saved_sel`; index 0 is the oldest record of the copy (log entry 39). -/
def flogSavedSel (s : State) (v : W16) : State × Byte :=
  match s.log.saved.reverse[v.toNat]? with
  | none => (s, stOob)
  | some r => ({ s with log := { s.log with savedSel := v, savedSnap := faultWord r } }, stOk)

/-- FLOG_SAVED_SEL (R431). -/
def execFlogSavedSel (p : DictPath) (v : W16) (s : State) : Result := .next (dictRow1 s p 0x5000 0x0B (leBytes 2 v.toNat) fun t => flogSavedSel t v)

/-- A write to `flog_clear`. -/
def flogClear (s : State) (v : Nat) : State × Byte :=
  if v = 1 then ({ s with log := { s.log with oldest := s.log.count, recs := [] } }, stOk) else (s, stOob)

/-- FLOG_CLEAR (R431). -/
def execFlogClear (p : DictPath) (v : Byte) (s : State) : Result := .next (dictRow1 s p 0x5000 9 [v] fun t => flogClear t v.toNat)

end Sys2Proof.Machine
end

