-- ==== Sys2Proof/Machine/Window.lean ====
section
/-! DEFINITION. Step windows and the CADENCE input (R243 to R248, R421, R422). -/

namespace Sys2Proof.Machine

/-- Windows follow CADENCE: aligned, with a length (R422). -/
def cadenceOn (s : State) : Bool := s.win.align && s.win.len ≠ 0

/-- `cad_state` (Table 8.10): 0 OFF, 1 FREE, 2 ALIGNED, 3 FALLBACK. -/
def cadState (s : State) : Nat :=
  if s.win.len = 0 then 0 else if !s.win.align then 1 else if s.win.fallback then 3 else 2

/-- CADENCE is the input number 0; it is stuck (Table 14.6). -/
def cadenceStuck (s : State) : Bool := (s.input 0).stuck

/-- Boundaries fall every L cycles without waiting for an edge: not aligned, in FALLBACK, or stuck. -/
def freeRunning (s : State) : Bool := !s.win.align || s.win.fallback || cadenceStuck s

/-- The expected boundary. -/
def expectedBoundary (s : State) : Nat := s.win.boundary + s.win.len.toNat

/-- A windowed step that started before a boundary runs past it (R248). -/
def overrunSteps (s : State) : State :=
  (List.range 64).foldl (fun t q =>
    match (t.queue q).step with
    | some x =>
      if x.windowed && !x.ovr then
        { modStep t q fun y => { y with ovr := true } with win := { t.win with overruns := satInc t.win.overruns } }
      else t
    | none => t) s

/-- A boundary with a stamp: the number advances, overruns are marked, and windowed steps that are ready start (R243, R245,
R248). -/
def boundaryAt (s : State) (stamp : Nat) : State :=
  let t := overrunSteps s
  startSteps true 8 { t with win := { t.win with number := t.win.number + 1, boundary := stamp } }

/-- WINDOW_BOUNDARY: the boundary of a window that waits for no edge. -/
def windowBoundary (s : State) : State :=
  if s.win.len ≠ 0 && freeRunning s && decide (expectedBoundary s ≤ s.now) then boundaryAt s (expectedBoundary s) else s

/-- WINDOW_BOUNDARY (R243). -/
def execWindowBoundary (s : State) : Result := .next (windowBoundary s)

/-- CADENCE is followed again: ALIGNED (R247). -/
def cadenceAligned (s : State) : State :=
  condEnd { s with win := { s.win with fallback := false, missedInRow := 0 } } 0xFF20 0

/-- CADENCE has failed: FALLBACK and its alarm (R247, Table 12.14). -/
def cadenceFallback (s : State) : State :=
  condStart { s with win := { s.win with fallback := true } } 0xFF20 0 10 s.win.missed.toNat

/-- An accepted edge with the stamp `now`: inside the band it places the boundary; outside it is ignored (R246, R247). In FALLBACK
an edge up to L ÷ 8 after a boundary moves that boundary (log entry 36). -/
def cadenceEdge (s : State) : State :=
  let l := s.win.len.toNat
  let e := expectedBoundary s
  if decide (e ≤ s.now + l / 8) && decide (s.now ≤ e + l / 8) then boundaryAt (cadenceAligned s) s.now
  else if s.win.fallback && decide (s.now ≤ s.win.boundary + l / 8) then
    let t := cadenceAligned s
    { t with win := { t.win with boundary := s.now } }
  else { s with win := { s.win with ignored := satInc s.win.ignored } }

/-- A change of the CADENCE level that the filter qualifies: the spacing of L ÷ 2 between accepted edges, then R246 (R421, R422). -/
def cadenceLevel (s : State) (rising : Bool) : State :=
  let p := s.input 0
  if p.level = rising || s.life.state = 0 then s
  else if tooShort s 0 then glitch s 0
  else
    let q := { p with level := rising, since := s.now, changed := some s.now }
    let t := s.setInput 0 q
    if !rising || !cadenceOn s then t
    else
      let fast := match p.lastEdge with
        | none => false
        | some a => decide (s.now < a + s.win.len.toNat / 2)
      if fast then t.setInput 0 { q with fast := satInc p.fast }
      else
        let u := t.setInput 0 { q with lastEdge := some s.now }
        if p.stuck then u else cadenceEdge u

/-- CADENCE_EDGE (R246). -/
def execCadenceEdge (rising : Bool) (s : State) : Result := .next (cadenceLevel s rising)

/-- CADENCE_MISSED: no edge by E + L ÷ 8; after four in a row, FALLBACK. -/
def cadenceMissed (s : State) : State :=
  let l := s.win.len.toNat
  let e := expectedBoundary s
  if cadenceOn s && !freeRunning s && decide (e + l / 8 ≤ s.now) then
    let n := s.win.missedInRow + 1
    let t := { s with win := { s.win with missed := satInc s.win.missed, missedInRow := n } }
    let u := if n = 4 then cadenceFallback t else t
    boundaryAt u (e + l / 8)
  else s

/-- CADENCE_MISSED (R247). -/
def execCadenceMissed (s : State) : Result := .next (cadenceMissed s)

/-- A windowed step is active. -/
def windowedActive (s : State) : Bool :=
  s.queues.any fun p => match p.2.step with
    | some x => x.windowed
    | none => false

/-- A write to `win_len`: the value, the steps that run, then the first window starts (R245, R249). -/
def winLenWrite (s : State) (v : Nat) : State × Byte :=
  if v ≠ 0 && (decide (v < 8000) || decide (268435448 < v) || v % 8 != 0) then (s, stOob)
  else if windowedActive s then (s, stBusy)
  else
    let t := cadenceAligned s
    ({ t with win := { t.win with len := BitVec.ofNat 32 v, boundary := s.now,
                                  number := if v = 0 then t.win.number else 0 } }, stOk)

/-- WIN_LEN_WRITE (R245). -/
def execWinLenWrite (p : DictPath) (v : W32) (s : State) : Result :=
  .next (dictRow1 s p 0x2340 1 (leBytes 4 v.toNat) fun t => winLenWrite t v.toNat)

/-- A write to `cad_align` (R246). -/
def cadAlignWrite (s : State) (v : Nat) : State × Byte :=
  if 1 < v then (s, stOob)
  else
    let t := if (v = 1) = s.win.align then s else cadenceAligned s
    ({ t with win := { t.win with align := v == 1 } }, stOk)

end Sys2Proof.Machine
end

