-- ==== Sys2Proof/Machine/DictRead.lean ====
section
/-! DEFINITION. The object dictionary: which objects there are, their types and access codes, and what a read of each gives (chapter
12, and the object tables of the other chapters). -/

namespace Sys2Proof.Machine

/-! ## Types and access codes (Tables 12.2 and 12.3) -/

inductive DType where
  | boolean | i16 | u8 | u16 | u32 | u64 | str | dom
  deriving DecidableEq, Repr

inductive DAcc where
  | ro | rw | wo | rwg
  deriving DecidableEq, Repr

/-- Bytes of a fixed-size type; none for strings and domains. -/
def DType.size : DType → Option Nat
  | .boolean => some 1
  | .i16 => some 2
  | .u8 => some 1
  | .u16 => some 2
  | .u32 => some 4
  | .u64 => some 8
  | .str => none
  | .dom => none

/-- An object as it stands: type, access, and its bytes; a WO object holds no bytes of its own. -/
structure DObj where
  ty : DType
  acc : DAcc
  val : List Byte
  deriving DecidableEq, Repr

/-- An object of a fixed-size type. -/
def dnum (ty : DType) (acc : DAcc) (n : Nat) : Option DObj := some ⟨ty, acc, leBytes (ty.size.getD 0) n⟩
def dU8 (n : Nat) : Option DObj := dnum .u8 .ro n
def dU16 (n : Nat) : Option DObj := dnum .u16 .ro n
def dU32 (n : Nat) : Option DObj := dnum .u32 .ro n
def dU64 (n : Nat) : Option DObj := dnum .u64 .ro n
def dBit (acc : DAcc) (b : Bool) : Option DObj := dnum .boolean acc b.toNat

/-- Two's complement of an integer in 16 bits. -/
def int16 (z : Int) : Nat := (z % 65536).toNat

/-- ASCII bytes of a text. -/
def ascii (t : String) : List Byte := t.toList.map fun c => BitVec.ofNat 8 c.toNat
def dStr (bs : List Byte) : Option DObj := some ⟨.str, .ro, bs⟩
def dDom (acc : DAcc) (bs : List Byte) : Option DObj := some ⟨.dom, acc, bs⟩

/-! ## The fuse map (Table 13.5, R380, R381) -/

/-- Marks of a list of numbers as a bit string of n bytes. -/
def markBytes (n : Nat) (ms : List Nat) : List Byte := leBytes n (ms.foldl (fun a m => a ||| 2 ^ m) 0)

/-- A row repair record: Table 10.11 with the spare row in [39:35]. -/
def rowRepBytes (r : RowRep) : List Byte := leBytes 8 ((locator r.col r.die r.row 0).toNat + r.spare * 2 ^ 35)

/-- The bytes of the fuse map. -/
def fuseMapBytes (f : FuseMap) : List Byte :=
  leBytes 8 f.serial.toNat ++ leBytes 2 f.hwRev.toNat ++ leBytes 2 f.actThresh.toNat ++ leBytes 1 f.epoch.toNat ++ leBytes 3 0 ++
  markBytes 8 f.badFaces ++ ((List.range 6).flatMap fun k => leBytes 4 (tget 0 f.badXlanes k).toNat) ++ markBytes 512 f.badPicks ++
  markBytes 8 f.svcFaces ++ markBytes 512 f.svcPicks ++ markBytes 512 f.svcRetired ++
  leBytes 4 f.rowReps.length ++ leBytes 4 f.bundleReps.length ++ leBytes 4 f.svcRemaps.length ++ leBytes 12 0 ++
  (f.rowReps ++ f.svcRemaps).flatMap rowRepBytes ++ f.bundleReps.flatMap fun b => leBytes 4 b.toNat

/-- Faces and picks marked bad by the factory or in service. -/
def badFacesOf (f : FuseMap) : List Nat := f.badFaces ++ f.svcFaces
def badPicksOf (f : FuseMap) : List Nat := f.badPicks ++ f.svcPicks

/-! ## Licences and images as objects show them -/

/-- Fields of a licence body (Table 13.11). -/
def licBody (bs : List Byte) : BitVec 512 := BitVec.ofNat 512 (leNat (bs.take 64))
def licMagic (b : BitVec 512) : Nat := bitsAt b 31 0
def licFmt (b : BitVec 512) : Nat := bitsAt b 47 32
def licSerial (b : BitVec 512) : Nat := bitsAt b 127 64
def licFeatures (b : BitVec 512) : Nat := bitsAt b 159 128
def licId (b : BitVec 512) : Nat := bitsAt b 191 160
def licReserved (b : BitVec 512) : Bool := bitsAt b 511 192 == 0 && bitsAt b 63 48 == 0 && licFeatures b / 16 == 0

/-- `lic_slot` (Table 13.13). -/
def licSlotWord (k : LicSlot) : Nat :=
  if k.data = [] then 0
  else
    let b := licBody k.data
    licId b * 2 ^ 32 + 2 ^ 31 + (if k.passed then 2 ^ 30 else 0) + licFeatures b % 16

/-- Fields of an image header (Table 13.8). -/
def imgHeader (bs : List Byte) : BitVec 512 := BitVec.ofNat 512 (leNat (bs.take 64))
def imgVersion (h : BitVec 512) : Nat := bitsAt h 95 64

/-! ## Temperatures and limits (Table 14.4) -/

/-- Temperature channels. -/
def isTempChan (c : Nat) : Bool := decide (c ≤ 87)

/-- Default high limit of a channel; 0x7FFF for none. Limits of half a unit round inward (log entry 41). -/
def defaultHigh (c : Nat) : Nat :=
  if c ≤ 63 then 950 else if c ≤ 71 then 1000 else if c ≤ 85 then 1050 else if c = 86 then 400 else if c = 87 then 600
  else if c ≤ 105 then 188 else if c = 106 then 6400 else if c = 107 then 3000 else if c ≤ 111 then 115
  else if c ≤ 124 then 78 else if c = 125 then 94 else if c = 126 then 1260 else 84

/-- Default low limit of a channel; 0x8000 for none. -/
def defaultLow (c : Nat) : Nat :=
  if c = 86 then 150 else if c = 106 then 5400 else if c ≤ 107 then 0x8000 else if c ≤ 111 then 105
  else if c ≤ 124 then 72 else if c = 125 then 86 else if c = 126 then 1140 else 76

def chanHigh (s : State) (c : Nat) : W16 := (s.channel c).high.getD (BitVec.ofNat 16 (defaultHigh c))
def chanLow (s : State) (c : Nat) : W16 := (s.channel c).low.getD (BitVec.ofNat 16 (defaultLow c))

/-! ## Power figures (R403, R411) -/

/-- `phases_live`. -/
def phasesLive (p : Power) : Nat := (setBits p.phases).length

/-- `budget_w`: volts are in 10 mV units. -/
def budgetW (p : Power) : Nat :=
  let a := min 1500 (9375 * phasesLive p / 100)
  if p.lowCond then min a (p.volts * 1500 / 5400) else a

/-- `excursion_w`. -/
def excursionW (p : Power) : Nat := min 1800 (1125 * phasesLive p / 10)

/-- Watts on loan. -/
def lentW (p : Power) : Nat := ((p.loans.filter fun l => !l.recalled).map (·.watts)).sum

/-! ## Objects by block -/

/-- Node-dependent and stored objects 0x1000 to 0x1A03 (Table 12.11). -/
def commObj (s : State) (idx sb : Nat) : Option DObj :=
  let c := s.can.comm
  let t := idx % 16
  if idx = 0x1003 then
    if sb = 0 then dnum .u8 .rw s.can.errors.length
    else if sb ≤ 8 then dU32 ((s.can.errors[sb - 1]?).getD 0).toNat else none
  else if idx = 0x1018 then
    if sb = 1 then dU32 0xA1D else if sb = 2 then dU32 0x80512
    else if sb = 3 then dU32 (s.fuse.hwRev.toNat * 65536 + s.trust.fwVersion.toNat % 65536)
    else if sb = 4 then dU32 (s.fuse.serial.toNat % 2 ^ 32) else none
  else if 0x1800 ≤ idx && idx ≤ 0x1803 then
    if sb = 1 then dnum .u32 .rw (tget 0 c.tpdoCob t).toNat
    else if sb = 2 then dnum .u8 .rw (tget 0xFE c.tpdoType t).toNat
    else if sb = 3 then dnum .u16 .rw (tget 0 c.tpdoInhibit t).toNat
    else if sb = 5 then dnum .u16 .rw (tget 0 c.tpdoTimer t).toNat else none
  else if sb ≠ 0 then none
  else if idx = 0x1000 then dU32 0
  else if idx = 0x1001 then dU8 (errorRegister (activeConds s.can)).toNat
  else if idx = 0x1008 then dStr (ascii "Nelladar N8")
  else if idx = 0x100A then dStr (Config.swVersion s.trust.loaded)
  else if idx = 0x1014 then dnum .u32 .rw c.emcyCob.toNat
  else if idx = 0x1015 then dnum .u16 .rw c.emcyInhibit.toNat
  else if idx = 0x1017 then dnum .u16 .rw c.heartbeatMs.toNat
  else none

/-- Types of the telemetry subindices 0x2004:01 to :1C. -/
def teleType (sb : Nat) : DType :=
  if sb ≤ 6 then .u16 else if sb = 7 then .u8 else if sb ≤ 0x11 then .i16 else if sb = 0x12 then .u8 else if sb = 0x13 then .u32
  else if sb = 0x14 then .u16 else if sb ≤ 0x16 then .u8 else .u32

/-- Mapped subindices of a TPDO: the first one and their number (Table 12.13). -/
def tpdoMapped (t : Nat) : Nat × Nat :=
  if t = 0 then (1, 7) else if t = 1 then (8, 10) else if t = 2 then (0x12, 6) else (0x18, 5)

/-- A mapping entry. -/
def tpdoMapWord (t i : Nat) : Nat :=
  let (a, n) := tpdoMapped t
  if i < n then 0x20040000 + (a + i) * 256 + 8 * ((teleType (a + i)).size.getD 0) else 0

/-- Identity, access diagnostics, telemetry, rates, geometry (Tables 12.12, 1.7). -/
def idObj (s : State) (idx sb : Nat) : Option DObj :=
  let c := s.can
  let g := s.geo
  if idx = 0x2000 then
    if sb = 1 then dStr (ascii "Mailawell Semiconductor")
    else if sb = 2 then dStr (ascii (if g.suffix = 1 then "MWN8-512-S" else if g.suffix = 2 then "MWN8-512-X" else "MWN8-512"))
    else if sb = 3 then dU64 s.fuse.serial.toNat
    else if sb = 4 then dU16 s.fuse.hwRev.toNat
    else if sb = 5 then dU32 s.trust.fwVersion.toNat else none
  else if idx = 0x2003 then
    if sb = 1 then dU8 c.usdoLast.toNat else if sb = 2 then dU32 c.usdoAborts.toNat
    else if sb = 3 then dU32 c.mirrorDropped.toNat else if sb = 4 then dU32 c.emcyDropped.toNat
    else if sb = 5 then dU32 c.busOffs.toNat else none
  else if idx = 0x2004 then
    if 1 ≤ sb && sb ≤ 0x1C then dnum (teleType sb) .ro (tget 0 c.telemetry sb).toNat else none
  else if idx = 0x2005 then
    if sb = 1 then dnum .u16 .rwg c.canNominal.toNat else if sb = 2 then dnum .u16 .rwg c.canData.toNat else none
  else if sb = 1 then dU8 8
  else if sb = 2 then dU16 512
  else if sb = 3 then dU16 g.picksLive.toNat
  else if sb = 4 then dU8 4
  else if sb = 5 then dU8 g.facesLive.toNat
  else if sb = 6 then dU32 6144
  else if sb = 7 then dU8 g.portsLicensed.toNat
  else if sb = 8 then dU8 64
  else if sb = 9 then dU16 16384
  else if sb = 10 then dU16 32768
  else if sb = 11 then dU16 g.pagesLive.toNat
  else if sb = 12 then dU32 g.features.toNat
  else if sb = 13 then dU32 g.generation.toNat
  else none

/-- `reset_state` (Table 13.13). -/
def resetState (s : State) : Nat :=
  if s.life.warm.isSome || s.life.cold.isSome then 3 else if s.life.compute.isSome then 2
  else if s.faces.any fun p => p.2.resetting && !faceJob s p.1 then 1 else 0

/-- Block 0x2100 (Tables 13.3 and 13.13). -/
def lifeObj (s : State) (idx sb : Nat) : Option DObj :=
  let l := s.life
  let t := s.trust
  if idx = 0x2100 then
    if sb = 1 then dU8 l.state.toNat
    else if sb = 2 then dnum .u8 .rw l.buRun.toNat
    else if sb = 3 then dU8 l.buLast.toNat
    else if 4 ≤ sb && sb ≤ 6 then dnum .u8 .wo 0
    else if sb = 7 then dU8 (resetState s)
    else if sb = 8 then dU8 l.resetCause.toNat
    else if sb = 9 then dBit .rw l.fastPath
    else if sb = 10 then dU8 (match l.running with | some r => r.step | none => 0)
    else none
  else if 0x2101 ≤ idx && idx ≤ 0x210B then
    let o := tget {} l.steps (idx - 0x2100)
    if sb = 1 then dU8 o.state.toNat else if sb = 2 then dU8 o.status.toNat
    else if sb = 3 then dU32 o.detail.toNat else if sb = 4 then dU32 o.us.toNat else none
  else if idx = 0x2110 then
    if sb = 1 then dDom .ro (fuseMapBytes s.fuse)
    else if sb = 2 then dU64 (leNat (markBytes 8 (badFacesOf s.fuse)))
    else if sb = 3 then dDom .ro (markBytes 512 (badPicksOf s.fuse)) else none
  else if idx = 0x2120 then
    if sb = 1 then dDom .rw t.fwImage
    else if sb = 2 then dnum .u8 .wo 0
    else if sb = 3 then dU8 t.fwState.toNat
    else if sb = 4 then dU8 t.fwStatus.toNat
    else if sb = 5 then dU32 (imgVersion (imgHeader t.fwImage))
    else if sb = 6 then dBit .ro t.ucodePending
    else if sb = 7 then dU8 s.fuse.epoch.toNat else none
  else if idx = 0x2130 then
    if sb = 1 then dDom .rw t.licImage
    else if sb = 2 then dnum .u8 .wo 0
    else if sb = 3 then dU8 t.licStatus.toNat
    else if 4 ≤ sb && sb ≤ 11 then dU64 (licSlotWord (tget {} t.slots (sb - 4))) else none
  else if idx = 0x2140 then
    if sb = 1 then dDom .wo []
    else if sb = 2 then dnum .u8 .wo 0
    else if sb = 3 then dU8 t.attState.toNat
    else if sb = 4 then dDom .ro t.attReport
    else if sb = 5 then dDom .ro t.attPubkey
    else if sb = 6 then dU32 (1048576 - t.nextIdx.toNat)
    else if sb = 7 then dU32 t.nextIdx.toNat else none
  else none

/-- Blocks 0x2200 and 0x2300 (Tables 14.7 and 14.8). -/
def powerObj (s : State) (idx sb : Nat) : Option DObj :=
  let p := s.power
  let c := s.canary
  if idx = 0x2200 then
    if sb = 1 then dU16 (budgetW p) else if sb = 2 then dU16 (excursionW p)
    else if sb = 3 then dU16 (p.store / 100) else if sb = 4 then dU8 (phasesLive p)
    else if sb = 5 then dU8 p.powerK else if sb = 6 then dU32 p.powerCuts.toNat else none
  else if idx = 0x2201 then
    if sb = 1 then dU8 6 else if sb = 2 then dU8 110 else if sb = 3 then dU16 (lentW p)
    else if sb = 4 then dU32 p.recalls.toNat else if sb = 5 then dU8 p.recallUsMax.toNat
    else if sb = 6 then dU32 p.grantLimitedUs.toNat else none
  else if idx = 0x2202 then if sb = 1 then dnum .u16 .rw p.sleepIdleUs.toNat else none
  else if 0x2210 ≤ idx && idx < 0x2210 + 30 then
    let d := s.domain (idx - 0x2210)
    if sb = 1 then dU8 d.state.toNat else if sb = 2 then dU32 d.wakes.toNat else if sb = 3 then dU8 d.wakeUsMax.toNat else none
  else if idx = 0x2300 then
    if sb = 1 then dU32 c.rounds.toNat else if sb = 2 then dnum .u16 .rw c.riseLimit.toNat
    else if sb = 3 then dnum .u64 .rw (c.ignore.toNat % 2 ^ 64) else if sb = 4 then dnum .u64 .rw (c.ignore.toNat / 2 ^ 64)
    else if sb = 5 then dU32 c.brokenRounds.toNat else none
  else if 0x2301 ≤ idx && idx ≤ 0x2304 then
    if sb = 0 || 0x80 < sb then none
    else if idx = 0x2301 then dnum .i16 .ro (int16 (s.channel (sb - 1)).value)
    else if idx = 0x2302 then dnum .i16 .rw (chanHigh s (sb - 1)).toNat
    else if idx = 0x2303 then dnum .i16 .rw (chanLow s (sb - 1)).toNat
    else dU8 (s.channel (sb - 1)).status.toNat
  else if idx = 0x2310 then
    if sb = 1 then dnum .u16 .rw c.graceMs.toNat else if sb = 2 then dU8 c.thrK
    else if sb = 3 then dU8 c.thrState.toNat else if sb = 4 then dnum .u8 .rw c.thrMsix.toNat
    else if sb = 5 then dnum .u8 .rw c.pinK.toNat else if sb = 6 then dU32 c.asks.toNat
    else if sb = 7 then dU32 c.enforcements.toNat else none
  else if 0x2320 ≤ idx && idx ≤ 0x2322 then
    let i := idx - 0x2320
    let x := s.input i
    let l := s.win.len.toNat
    if sb = 1 then dBit .ro x.level else if sb = 2 then dU32 x.glitches.toNat
    else if sb = 3 then dU32 x.fast.toNat else if sb = 4 then dBit .ro x.stuck
    else if sb = 5 then dU32 x.stucks.toNat
    else if sb = 6 then dnum .u16 .rw (if i = 0 then l / 2 / usCycles else x.spacingUs.toNat)
    else if sb = 7 then dnum .u32 .rw (if i = 0 then ceilDiv (4 * l) msCycles else x.stuckMs.toNat) else none
  else none

/-- Windows (Table 8.10). -/
def winObj (s : State) (sb : Nat) : Option DObj :=
  let w := s.win
  if sb = 1 then dnum .u32 .rw w.len.toNat else if sb = 2 then dBit .rw w.align else if sb = 3 then dU32 w.number.toNat
  else if sb = 4 then dU32 w.ignored.toNat else if sb = 5 then dU32 w.missed.toNat else if sb = 6 then dU32 w.overruns.toNat
  else if sb = 7 then dU8 (cadState s) else none

/-- `ports_up`. -/
def portsUp (s : State) : Nat := allPorts.foldl (fun (a : Nat) (k : PortId) => if portRuns (s.port k.val) then a + 2 ^ k.val else a) 0

/-- Ports, forwarding, host port (Table 11.13). -/
def portObj (s : State) (idx sb : Nat) : Option DObj :=
  if idx = 0x2400 then if sb = 1 then dU8 (portsUp s) else none
  else if 0x2410 ≤ idx && idx ≤ 0x2415 then
    let p := s.port (idx - 0x2410)
    if sb = 1 then dU8 p.state.toNat else if sb = 2 then dBit .rw p.enable else if sb = 3 then dU8 p.width.toNat
    else if sb = 4 then dU8 p.spareFor.toNat else if sb = 5 then dU32 p.lanesFailed.toNat else if sb = 6 then dnum .u8 .wo 0
    else if sb = 7 then dnum .u64 .rw p.ctxMask.toNat else if sb = 8 then dU32 p.fecCorrected.toNat
    else if sb = 9 then dU32 p.fecUncorrected.toNat else if sb = 10 then dU32 p.flitReplays.toNat
    else if sb = 11 then dU32 p.retrains.toNat else if sb = 12 then dU32 p.rxMalformed.toNat
    else if sb = 13 then dU32 p.fwdRefused.toNat else if sb = 14 then dU64 p.peerCredits.toNat else none
  else if idx = 0x2440 then if 1 ≤ sb && sb ≤ 6 then dnum .u8 .rw (s.port (sb - 1)).fwd.toNat else none
  else
    let h := s.host
    if sb = 1 then dnum .u16 .rw h.aditPage.toNat else if sb = 2 then dBit .ro (aditOpen s) else if sb = 3 then dU8 h.link.toNat
    else if sb = 4 then dU32 h.refused.toNat else if sb = 5 then dU32 h.dropped.toNat
    else if sb = 6 then dU32 h.aditRefused.toNat else none

/-- Translation and contexts (Table 2.6). -/
def xlateObj (s : State) (idx sb : Nat) : Option DObj :=
  if idx = 0x2501 then if sb = 1 then dnum .u8 .wo 0 else none
  else if idx = 0x2503 then if 1 ≤ sb && sb ≤ 16 then dnum .u32 .rw (bitsAt s.groupView (32 * sb - 1) (32 * sb - 32)) else none
  else if idx < 0x2580 then
    let c := s.ctx (idx - 0x2510)
    if sb = 1 then dBit .rw c.enabled else if sb = 2 then dnum .u16 .rw c.xlateBase.toNat
    else if sb = 3 then dnum .u16 .rw c.xlateCount.toNat else if sb = 4 then dnum .u16 .rw c.tallyBase.toNat
    else if sb = 5 then dnum .u16 .rw c.tallyLimit.toNat else if sb = 6 then dU32 c.xlateFaults.toNat
    else if sb = 7 then dU32 c.protFaults.toNat else if sb = 8 then dU64 c.lastFaultVa.toNat else none
  else dnum .u32 .rw (s.entry ((idx - 0x2580) * 256 + sb)).toNat

/-- Armed watch slots. -/
def watchesArmed (s : State) : Nat := (s.tally.watches.filter fun p => p.2.armed).length

/-- Tally board (Table 9.14). -/
def tallyObj (s : State) (idx sb : Nat) : Option DObj :=
  let t := s.tally
  if idx = 0x2600 then
    if sb = 1 then dnum .u16 .rw t.dbgSel.toNat else if sb = 2 then dU64 (bitsAt t.dbgSnap 63 0)
    else if sb = 3 then dU64 (bitsAt t.dbgSnap 127 64) else none
  else if idx = 0x2601 then
    if sb = 1 then dnum .u16 .rw t.watchSel.toNat
    else if 2 ≤ sb && sb ≤ 5 then dU64 (bitsAt t.watchSnap (64 * sb - 65) (64 * sb - 128)) else none
  else if idx = 0x2602 then
    if sb = 1 then dnum .u8 .rw t.barSel.toNat
    else if 2 ≤ sb && sb ≤ 5 then dU64 (bitsAt t.barSnap (64 * sb - 65) (64 * sb - 128)) else none
  else if idx = 0x2603 then
    if sb = 1 then dU32 t.underFaults.toNat else if sb = 2 then dU32 t.overFaults.toNat else if sb = 3 then dU32 t.rangeFaults.toNat
    else if sb = 4 then dU32 t.overrunFaults.toNat else if sb = 5 then dU16 (watchesArmed s)
    else if sb = 6 then dU32 t.watchRefused.toNat else if sb = 7 then dU32 t.stampTimeouts.toNat
    else if sb = 8 then dU32 t.opsApplied.toNat else if sb = 9 then dU32 t.poolWaits.toNat
    else if sb = 10 then dU32 t.gates.toNat else none
  else if sb = 1 then dnum .u16 .rw t.gateWait.toNat
  else if sb = 2 then dnum .u16 .rw t.watchRemoteMax.toNat
  else none

/-- Code of a refresh rate (Table 10.13). -/
def rateCode : RefRate → Nat
  | .cool => 0
  | .hot => 1
  | .rescue => 2

/-- The block of stack n: index i within 0x3000 to 0x30FF (Tables 4.4 and 10.13). -/
def stackObj (s : State) (n i sb : Nat) : Option DObj :=
  let k := s.stack n
  if i = 0x10 then dnum .u8 .rw (modeCode (s.col (n * 512 + sb)))
  else if i = 0x11 then dnum .u8 .rw (modeCode (s.col (n * 512 + 256 + sb)))
  else if i = 0x12 then if sb = 1 then dnum .u8 .wo 0 else none
  else if i = 0x20 then
    if 1 ≤ sb && sb ≤ 16 then
      dU32 ((List.range 32).foldl (fun a b => if pickLive s (n * 512 + 32 * (sb - 1) + b) then a + 2 ^ b else a) 0)
    else none
  else if i = 0x21 then
    if sb = 1 then dU32 k.claimWaits.toNat else if sb = 2 then dU32 k.claimWaitMax.toNat
    else if sb = 3 then dU32 k.claimTimeouts.toNat else if sb = 4 then dU32 k.directRefusals.toNat
    else if sb = 5 then dU32 k.opsDone.toNat else none
  else if i = 0x01 then
    if sb = 1 || sb = 2 then dU8 12 else if sb = 3 then dU8 24 else if sb = 4 then dU8 36 else if sb = 5 then dU8 10
    else if sb = 6 then dU16 3100 else if sb = 7 then dU16 1550 else if sb = 8 then dU16 775 else none
  else if i = 0x30 then
    if sb = 1 then dU8 (rateCode k.refRate) else if sb = 2 then dnum .u8 .rw k.hotEnter.toNat
    else if sb = 3 then dnum .u8 .rw k.hotExit.toNat else if sb = 4 then dU32 k.refsDone.toNat
    else if sb = 5 then dU32 k.refsWaived.toNat else if sb = 6 then dU32 k.refInsertions.toNat
    else if sb = 7 then dU8 k.owedMax.toNat else if sb = 8 then dU32 k.rescues.toNat
    else if sb = 9 then dU32 k.creditsVoided.toNat else none
  else if i = 0x31 then
    if sb = 1 then dU16 s.fuse.actThresh.toNat else if sb = 2 then dU32 k.rowTrr.toNat else if sb = 3 then dU32 k.segTrr.toNat
    else if sb = 4 then dU16 k.floorMax.toNat else none
  else if i = 0x40 then
    if sb = 1 then dU32 k.ceCount.toNat else if sb = 2 then dU32 k.ueCount.toNat else if sb = 3 then dU64 k.lastCe.toNat
    else if sb = 4 then dU64 k.lastUe.toNat else if sb = 5 then dU32 k.rmwCount.toNat
    else if sb = 6 then dU32 k.wbqDropped.toNat else none
  else if i = 0x41 then
    if sb = 1 then dU32 k.cmdAlerts.toNat else if sb = 2 then dU32 k.cmdReplays.toNat else if sb = 3 then dU32 k.cmdRetrains.toNat
    else if sb = 4 then dU32 k.cmdFailures.toNat else if sb = 5 then dU32 k.linkCrcErrors.toNat
    else if sb = 6 then dU32 k.linkReplays.toNat else if sb = 7 then dU32 k.linkRetrains.toNat else none
  else if i = 0x50 then
    if sb = 1 then dBit .rw k.scrubEnable else if sb = 2 then dU32 (scrubLapLastOf s n) else if sb = 3 then dU32 (scrubLapsOf s n)
    else if sb = 4 then dU32 k.scrubFixed.toNat else if sb = 5 then dU32 k.scrubSkipped.toNat else none
  else if i = 0x60 then
    if sb = 1 then dnum .u16 .rw k.remapSel.toNat
    else if 2 ≤ sb && sb ≤ 0x41 then dU32 ((k.remapSnap[sb - 2]?).getD 0).toNat
    else if sb = 0x42 then dnum .u64 .wo 0
    else if sb = 0x43 then dBit .rw k.autoRemap
    else if sb = 0x44 then dnum .u8 .rw k.ceRemapThresh.toNat
    else if sb = 0x45 then dU32 k.remapsDone.toNat
    else if sb = 0x46 then dU8 (pillarFreeMin s n)
    else if sb = 0x47 then dU8 k.suspects.length else none
  else if sb = 1 then dU8 k.fillState.toNat
  else if sb = 2 then dU32 k.fillCycles.toNat
  else none

/-- `face_state` (Table 6.2); a face in a reset reads RUNNING (log entry 42). -/
def faceState (c : Face) : Nat :=
  if c.logical.isNone then 0 else if c.fenced then 5 else if c.gated then 4
  else if c.resetting then 2
  else match c.task with
    | none => 1
    | some t => match t.wait with
      | .watching _ => 3
      | _ => 2

/-- A face's blocks (Tables 6.2, 3.7, 7.8). -/
def faceObj (s : State) (idx sb : Nat) : Option DObj :=
  let c := s.face ((idx - 0x4000) / 16)
  if idx % 16 = 0 then
    if sb = 1 then dU8 (match c.logical with | some l => l | none => 0xFF) else if sb = 2 then dU8 (faceState c)
    else if sb = 3 then dU32 c.tasksDone.toNat else if sb = 4 then dU8 c.lastStatus.toNat
    else if sb = 5 then dU16 c.lastFailTag.toNat else if sb = 6 then dU32 c.mxBusy.toNat
    else if sb = 7 then dU32 c.vxBusy.toNat else if sb = 8 then dU32 c.sramCe.toNat
    else if sb = 9 then dU32 c.sramUe.toNat else if 10 ≤ sb && sb ≤ 13 then dU8 0
    else if sb = 14 then dnum .u32 .rw c.srSeed.toNat
    else if sb = 15 then dU32 c.srState.toNat else none
  else if sb = 1 then dU32 c.hoistClamps.toNat
  else if sb = 2 then dU32 c.hoistMisaligned.toNat
  else if sb = 3 then dU32 c.hoistStaged.toNat
  else if sb = 4 then dU32 c.hoistTransfers.toNat
  else if sb = 5 then dU8 c.hoistLastStatus.toNat
  else none

/-- Bits of live logical faces lo to lo + n - 1 (R250). -/
def faceLiveBits (s : State) (lo n : Nat) : Nat := (List.range n).foldl (fun a i => if faceLive s (lo + i) then a + 2 ^ i else a) 0

/-- Foremen and queues (Tables 8.11 and 8.12). -/
def queueObj (s : State) (idx sb : Nat) : Option DObj :=
  if idx = 0x4800 then
    if sb = 1 then dU8 (stepsActive s) else if sb = 2 then dU16 (outstanding s).length
    else if sb = 3 then dU32 s.foreman.watchWaits.toNat else none
  else if idx = 0x4801 then
    if sb = 1 then dU32 (faceLiveBits s 0 32) else if sb = 2 then dU32 (faceLiveBits s 32 16) else none
  else if idx = 0x4802 then if 1 ≤ sb && sb ≤ 4 then dU16 (clusterEntries s (sb - 1)) else none
  else
    let q := idx - 0x4810
    let k := s.queue q
    if sb = 1 then dnum .u8 .rw k.context.toNat else if sb = 2 then dBit .rw k.enable else if sb = 3 then dnum .u16 .rw k.depth.toNat
    else if sb = 4 then dnum .u16 .rw k.seq0.toNat else if sb = 5 then dnum .u8 .wo 0 else if sb = 6 then dU8 (queueState s q)
    else if sb = 7 then dU16 k.head else if sb = 8 then dnum .u16 .rw k.staleLimit.toNat
    else if sb = 9 then dnum .u64 .rw k.recAddr.toNat else if sb = 10 then dnum .u8 .rw k.recPort.toNat
    else if sb = 11 then dnum .u16 .rw k.recDepth.toNat else if sb = 12 then dnum .u16 .rw k.recTally.toNat
    else if sb = 13 then dnum .u8 .rw k.recMsix.toNat else if sb = 14 then dnum .u8 .rw k.prio.toNat
    else if sb = 15 then dnum .u16 .rw k.waitLimit.toNat else if sb = 16 then dU32 k.staleRetries.toNat
    else if sb = 17 then dU32 k.staleStalls.toNat else if sb = 18 then dU32 k.dbDropped.toNat
    else if sb = 19 then dU32 k.recDropped.toNat else none

/-- Fault log and service (Tables 15.5 and 15.11). -/
def serviceObj (s : State) (idx sb : Nat) : Option DObj :=
  let l := s.log
  if idx = 0x5000 then
    if sb = 1 then dU32 l.count.toNat else if sb = 2 then dU32 l.oldest.toNat else if sb = 3 then dnum .u32 .rw l.sel.toNat
    else if 4 ≤ sb && sb ≤ 7 then dU64 (bitsAt l.snap (64 * (sb - 4) + 63) (64 * (sb - 4)))
    else if sb = 8 then dU32 l.merged.toNat else if sb = 9 then dnum .u8 .wo 0 else if sb = 10 then dU16 l.saved.length
    else if sb = 11 then dnum .u16 .rw l.savedSel.toNat
    else if 12 ≤ sb && sb ≤ 15 then dU64 (bitsAt l.savedSnap (64 * (sb - 12) + 63) (64 * (sb - 12))) else none
  else if idx = 0x5001 then
    if sb = 1 then dnum .u8 .wo 0 else if sb = 2 || sb = 3 then dnum .u16 .wo 0
    else if sb = 4 then dBit .ro (s.fence.jobs ≠ []) else if sb = 5 then dU32 s.fence.done.toNat else none
  else none

/-! ## The map (Table 12.7, R352) -/

/-- Indices within a stack's block. -/
def stackIndices : List Nat := [0x01, 0x10, 0x11, 0x12, 0x20, 0x21, 0x30, 0x31, 0x40, 0x41, 0x50, 0x60, 0x70]

def isStackIdx (idx : Nat) : Bool := 0x3000 ≤ idx && idx < 0x3800 && stackIndices.contains (idx % 256)
def isFaceIdx (idx : Nat) : Bool := 0x4000 ≤ idx && idx < 0x4340 && idx % 16 < 2
def isXlateIdx (idx : Nat) : Bool :=
  idx == 0x2501 || idx == 0x2503 || (0x2510 ≤ idx && idx ≤ 0x254F) || (0x2580 ≤ idx && idx ≤ 0x25FF)

/-- The index is present (Table 12.7). -/
def idxPresent (idx : Nat) : Bool :=
  [0x1000, 0x1001, 0x1003, 0x1008, 0x100A, 0x1014, 0x1015, 0x1017, 0x1018, 0x1800, 0x1801, 0x1802, 0x1803, 0x1A00, 0x1A01, 0x1A02,
   0x1A03, 0x2000, 0x2003, 0x2004, 0x2005, 0x2010, 0x2340, 0x2400, 0x2440, 0x2480].contains idx ||
  (0x2100 ≤ idx && idx ≤ 0x22FF) || (0x2300 ≤ idx && idx ≤ 0x233F) || (0x2410 ≤ idx && idx ≤ 0x2415) || isXlateIdx idx ||
  (0x2600 ≤ idx && idx ≤ 0x2604) || isStackIdx idx || isFaceIdx idx || (0x4800 ≤ idx && idx ≤ 0x4802) ||
  (0x4810 ≤ idx && idx ≤ 0x484F) || (0x5000 ≤ idx && idx ≤ 0x5FFF)

/-- The object at an index and subindex, without `highest_sub`. -/
def elemAt (s : State) (idx sb : Nat) : Option DObj :=
  if 0x1A00 ≤ idx && idx ≤ 0x1A03 then (if 1 ≤ sb && sb ≤ 11 then dU32 (tpdoMapWord (idx - 0x1A00) (sb - 1)) else none)
  else if idx < 0x2000 then commObj s idx sb
  else if idx ≤ 0x2010 then idObj s idx sb
  else if idx < 0x2200 then lifeObj s idx sb
  else if idx < 0x2340 then powerObj s idx sb
  else if idx = 0x2340 then winObj s sb
  else if idx < 0x2500 then portObj s idx sb
  else if idx < 0x2600 then xlateObj s idx sb
  else if idx < 0x3000 then tallyObj s idx sb
  else if idx < 0x4000 then stackObj s ((idx - 0x3000) / 256) (idx % 256) sb
  else if idx < 0x4800 then faceObj s idx sb
  else if idx < 0x5000 then queueObj s idx sb
  else serviceObj s idx sb

/-- Highest subindex of an index that has more than one; 0 for the others and for the full arrays (R352). -/
def highestSub (idx : Nat) : Nat :=
  if idx = 0x1018 then 4 else if 0x1800 ≤ idx && idx ≤ 0x1803 then 5 else if 0x1A00 ≤ idx && idx ≤ 0x1A03 then 0x0B
  else if idx = 0x2000 || idx = 0x2003 then 5 else if idx = 0x2004 then 0x1C else if idx = 0x2005 then 2
  else if idx = 0x2010 then 0x0D else if idx = 0x2100 then 0x0A else if 0x2101 ≤ idx && idx ≤ 0x210B then 4
  else if idx = 0x2110 then 3 else if idx = 0x2120 then 7 else if idx = 0x2130 then 0x0B else if idx = 0x2140 then 7
  else if idx = 0x2200 || idx = 0x2201 then 6 else if 0x2210 ≤ idx && idx < 0x2210 + 30 then 3
  else if idx = 0x2300 then 5 else if 0x2301 ≤ idx && idx ≤ 0x2304 then 0x80 else if idx = 0x2310 then 7
  else if 0x2320 ≤ idx && idx ≤ 0x2322 then 7 else if idx = 0x2340 then 7
  else if 0x2410 ≤ idx && idx ≤ 0x2415 then 0x0E else if idx = 0x2440 || idx = 0x2480 then 6
  else if idx = 0x2503 then 0x10 else if 0x2510 ≤ idx && idx ≤ 0x254F then 8
  else if idx = 0x2600 then 3 else if idx = 0x2601 || idx = 0x2602 then 5 else if idx = 0x2603 then 0x0A else if idx = 0x2604 then 2
  else if isStackIdx idx then
    let i := idx % 256
    if i = 0x01 then 8 else if i = 0x20 then 0x10 else if i = 0x21 then 5 else if i = 0x30 then 9 else if i = 0x31 then 4
    else if i = 0x40 then 6 else if i = 0x41 then 7 else if i = 0x50 then 5 else if i = 0x60 then 0x47 else if i = 0x70 then 2 else 0
  else if isFaceIdx idx then (if idx % 16 = 0 then 0x0F else 5)
  else if idx = 0x4800 then 3 else if idx = 0x4801 then 2 else if idx = 0x4802 then 4
  else if 0x4810 ≤ idx && idx ≤ 0x484F then 0x13
  else if idx = 0x5000 then 0x0F else if idx = 0x5001 then 5 else 0

/-- The object at a present index, or none where the subindex is absent. -/
def objAt (s : State) (idx sb : Nat) : Option DObj :=
  if sb = 0 && highestSub idx ≠ 0 then dU8 (highestSub idx) else elemAt s idx sb

/-- Bytes that a read of an object gives from an offset, at most n: a WO object of a fixed-size type reads 0 (Table 12.3). -/
def objRead (o : DObj) (off n : Nat) : List Byte :=
  match o.ty.size with
  | some _ => o.val
  | none => (o.val.drop off).take n

end Sys2Proof.Machine
end

