-- ==== Sys2Proof/Machine/Xmss.lean ====
section
/-! DEFINITION. SHAKE256 and the verification of an XMSS signature: parameter set XMSS-SHAKE256_20_256 of NIST SP 800-208, as RFC 8391
defines it (R389, R394, R397, R399). What the two documents state, which the manual names, is PRESUMED (log entry 135). -/

namespace Sys2Proof.Machine

/-! ## SHAKE256 (FIPS 202), for the digests of a report (R399) -/

/-- Rotation of lane x + 5 y. -/
def keccakRot : List Nat :=
  [0, 1, 62, 28, 27, 36, 44, 6, 55, 20, 3, 10, 43, 25, 39, 41, 45, 15, 21, 8, 18, 2, 61, 56, 14]

/-- Round constants. -/
def keccakRc : List W64 :=
  [0x0000000000000001, 0x0000000000008082, 0x800000000000808A, 0x8000000080008000, 0x000000000000808B, 0x0000000080000001,
   0x8000000080008081, 0x8000000000008009, 0x000000000000008A, 0x0000000000000088, 0x0000000080008009, 0x000000008000000A] ++
  [0x000000008000808B, 0x800000000000008B, 0x8000000000008089, 0x8000000000008003, 0x8000000000008002, 0x8000000000000080,
   0x000000000000800A, 0x800000008000000A, 0x8000000080008081, 0x8000000000008080, 0x0000000080000001, 0x8000000080008008]

/-- Lane i of a state. -/
def lane (a : List W64) (i : Nat) : W64 := (a[i]?).getD 0

/-- θ. -/
def keccakTheta (a : List W64) : List W64 :=
  let c := (List.range 5).map fun x => lane a x ^^^ lane a (x + 5) ^^^ lane a (x + 10) ^^^ lane a (x + 15) ^^^ lane a (x + 20)
  (List.range 25).map fun i => lane a i ^^^ lane c ((i + 4) % 5) ^^^ (lane c ((i + 1) % 5)).rotateLeft 1

/-- ρ and π: lane X + 5 Y comes from x = X + 3 Y mod 5, y = X. -/
def keccakRhoPi (a : List W64) : List W64 :=
  (List.range 25).map fun i =>
    let j := (i % 5 + 3 * (i / 5)) % 5 + 5 * (i % 5)
    (lane a j).rotateLeft ((keccakRot[j]?).getD 0)

/-- χ and ι. -/
def keccakChi (rc : W64) (b : List W64) : List W64 :=
  (List.range 25).map fun i =>
    let v := lane b i ^^^ (~~~ (lane b ((i + 1) % 5 + 5 * (i / 5))) &&& lane b ((i + 2) % 5 + 5 * (i / 5)))
    if i = 0 then v ^^^ rc else v

/-- Keccak-f[1600]. -/
def keccakF (a : List W64) : List W64 := keccakRc.foldl (fun s rc => keccakChi rc (keccakRhoPi (keccakTheta s))) a

/-- XOR a block of 136 bytes into the state. -/
def keccakXor (a : List W64) (blk : List Byte) : List W64 :=
  (List.range 25).map fun i => if i < 17 then lane a i ^^^ BitVec.ofNat 64 (leNat ((blk.drop (8 * i)).take 8)) else lane a i

/-- Absorb a message (structural on the count of its blocks): the last block is padded with 0x1F and 0x80. -/
def shakeAbsorb : Nat → List Byte → List W64 → List W64
  | 0, _, a => a
  | n + 1, bs, a =>
    let blk := bs.take 136
    if blk.length < 136 then
      let p := blk ++ 0x1F :: List.replicate (135 - blk.length) 0
      keccakF (keccakXor a (p.set 135 (p.getD 135 0 ||| 0x80)))
    else shakeAbsorb n (bs.drop 136) (keccakF (keccakXor a blk))

/-- SHAKE256 with 256 bits of output. -/
def shake256 (bs : List Byte) : List Byte :=
  ((shakeAbsorb (bs.length / 136 + 1) bs (List.replicate 25 0)).take 4).flatMap fun l => leBytes 8 l.toNat

/-! ## XMSS with n = 32, w = 16, 67 chains, height 20 (RFC 8391)

A node or a chain value is 32 bytes. An address is eight 32-bit words, most significant byte first. -/

/-- Bytes of a signature: index, r, 67 chain values, 20 path nodes (R389). -/
abbrev sigBytes : Nat := 2820

/-- A number as n bytes, most significant first (`toByte`). -/
def toByte (v n : Nat) : List Byte := (leBytes n v).reverse

/-- The number that bytes spell, most significant first. -/
def beNat (bs : List Byte) : Nat := leNat bs.reverse

/-- Bytes XORed in pairs. -/
def xorBytes (a b : List Byte) : List Byte := List.zipWith (· ^^^ ·) a b

/-- Node i of a list of 32-byte nodes. -/
def nodeAt (bs : List Byte) (i : Nat) : List Byte := (bs.drop (32 * i)).take 32

/-- The keyed hash functions: F is 0, H 1, H_msg 2, PRF 3 (section 5.1). -/
def keyedHash (p : Nat) (key m : List Byte) : List Byte := shake256 (toByte p 32 ++ key ++ m)

/-- An address (section 2.5): type, then the four words that the type gives meaning; layer and tree are 0. -/
def hashAddr (type a b c d : Nat) : List Byte :=
  toByte 0 12 ++ toByte type 4 ++ toByte a 4 ++ toByte b 4 ++ toByte c 4 ++ toByte d 4

/-- PRF under the public seed. -/
def prf (seed addr : List Byte) : List Byte := keyedHash 3 seed addr

/-- Algorithm 7, RAND_HASH: two nodes under the address of their parent, whose last word selects key and masks. -/
def randHash (seed : List Byte) (addr : Nat → List Byte) (l r : List Byte) : List Byte :=
  keyedHash 1 (prf seed (addr 0)) (xorBytes l (prf seed (addr 1)) ++ xorBytes r (prf seed (addr 2)))

/-- Algorithm 2: n steps of chain c of one-time key k from a value at step i (structural on n). -/
def otsChain (seed : List Byte) (k c i : Nat) : Nat → List Byte → List Byte
  | 0, x => x
  | n + 1, x =>
    let key := prf seed (hashAddr 0 k c i 0)
    let mask := prf seed (hashAddr 0 k c i 1)
    otsChain seed k c (i + 1) n (keyedHash 0 key (xorBytes x mask))

/-- The base-16 digits of bytes, high digit first. -/
def digits (bs : List Byte) : List Nat := bs.flatMap fun b => [b.toNat / 16, b.toNat % 16]

/-- The 67 digits of a message digest: 64, and 3 of their checksum (section 3.1.5). -/
def otsDigits (m : List Byte) : List Nat :=
  let ds := digits m
  ds ++ (digits (toByte ((ds.map (15 - ·)).sum * 16) 2)).take 3

/-- Algorithm 6: the one-time public key that a signature spells. -/
def otsKey (seed : List Byte) (k : Nat) (m sig : List Byte) : List (List Byte) :=
  (otsDigits m).zipIdx.map fun x => otsChain seed k x.2 x.1 (15 - x.1) (nodeAt sig x.2)

/-- One level of an L-tree: pairs joined, an odd last node taken up (structural on the nodes). -/
def lLevel (seed : List Byte) (k h : Nat) : Nat → List (List Byte) → List (List Byte)
  | i, a :: b :: r => randHash seed (hashAddr 1 k h i) a b :: lLevel seed k h (i + 1) r
  | _, r => r

/-- Algorithm 8: the root of the L-tree of 67 nodes, seven levels. -/
def lTree (seed : List Byte) (k : Nat) (ns : List (List Byte)) : List Byte :=
  ((List.range 7).foldl (fun ms h => lLevel seed k h 0 ms) ns).headD []

/-- Algorithm 13: the root that a leaf and its path of 20 nodes give. -/
def pathRoot (seed : List Byte) (k : Nat) (leaf auth : List Byte) : List Byte :=
  (List.range 20).foldl (fun node h =>
    let a := hashAddr 2 0 h (k / 2 ^ (h + 1))
    if k / 2 ^ h % 2 = 0 then randHash seed a node (nodeAt auth h) else randHash seed a (nodeAt auth h) node) leaf

/-- Algorithm 14: a signature verifies under a public key. -/
def xmssVerifies (root seed m sig : List Byte) : Bool :=
  let k := beNat (sig.take 4)
  let r := (sig.drop 4).take 32
  let d := keyedHash 2 (r ++ root ++ toByte k 32) m
  let leaf := lTree seed k (otsKey seed k d ((sig.drop 36).take (67 * 32)))
  sig.length == sigBytes && pathRoot seed k leaf (sig.drop 2180) == root

/-! ## The keys (R389, R397) -/

/-- Root and public seed of the maker's key in the boot ROM (R389); their values are free (log entry 18). -/
def bootRoot : List Byte := (List.range 32).map Config.bootKey
def bootSeed : List Byte := (List.range 32).map fun i => Config.bootKey (i + 32)

end Sys2Proof.Machine
end

