-- ==== Sys2Proof/Machine/Trust.lean ====
section
/-! DEFINITION. Firmware, licences, attestation (R388 to R400). -/

namespace Sys2Proof.Machine

/-! ## Writes of a DOMAIN (R391) -/

/-- The value after a write at an offset, or none where the write is out of place or too long. -/
def domainWrite (cur : List Byte) (off : Nat) (data : List Byte) (limit : Nat) : Option (List Byte) :=
  if off = 0 then (if data.length ≤ limit then some data else none)
  else if off = cur.length && cur.length + data.length ≤ limit then some (cur ++ data)
  else none

/-- A signature of the maker over a message: it verifies under the key of the boot ROM (R389). -/
def makerSigned (m sig : List Byte) : Bool := xmssVerifies bootRoot bootSeed m sig

/-! ## Image checks (Tables 13.8 to 13.10) -/

def imgMagic (h : BitVec 512) : Nat := bitsAt h 31 0
def imgFmt (h : BitVec 512) : Nat := bitsAt h 47 32
def imgNsect (h : BitVec 512) : Nat := bitsAt h 63 48
def imgLength (h : BitVec 512) : Nat := bitsAt h 127 96
def imgHwMin (h : BitVec 512) : Nat := bitsAt h 143 128
def imgHwMax (h : BitVec 512) : Nat := bitsAt h 159 144
def imgEpoch (h : BitVec 512) : Nat := bitsAt h 167 160

/-- Section entry i: type, first byte, bytes, reserved bits. -/
def imgSection (bs : List Byte) (i : Nat) : Nat × Nat × Nat × Nat :=
  let w : BitVec 128 := BitVec.ofNat 128 (leNat ((bs.drop (64 + 16 * i)).take 16))
  (bitsAt w 71 64, bitsAt w 31 0, bitsAt w 63 32, bitsAt w 127 72)

/-- Two sections share no byte. -/
def sectionsApart (a b : Nat × Nat × Nat × Nat) : Bool :=
  decide (a.2.1 + a.2.2.1 ≤ b.2.1) || decide (b.2.1 + b.2.2.1 ≤ a.2.1)

/-- The three sections: each type once, inside the image before its signature, apart. -/
def sectionsOk (bs : List Byte) (len : Nat) : Bool :=
  let ss := (List.range 3).map (imgSection bs)
  ([1, 2, 3].all fun t => ss.any fun x => x.1 == t) &&
    (ss.all fun x => decide (112 ≤ x.2.1) && decide (x.2.1 + x.2.2.1 ≤ len - sigBytes)) &&
    ((List.range 3).all fun i => (List.range i).all fun j =>
      sectionsApart (imgSection bs i) (imgSection bs j))

/-- The first failing check of Table 13.10: its status and order number; OK and 0 where all pass. -/
def imageCheck (f : FuseMap) (bs : List Byte) : Byte × Nat :=
  let h := imgHeader bs
  let len := imgLength h
  if imgMagic h ≠ 0x52444C4E || imgFmt h ≠ 1 || imgNsect h ≠ 3 || bitsAt h 511 168 ≠ 0 ||
      ((List.range 3).any fun i => (imgSection bs i).2.2.2 ≠ 0) then (stMode, 1)
  else if len < 2932 || 4194304 < len || bs.length ≠ len then (stOob, 2)
  else if !sectionsOk bs len then (stMode, 3)
  else if f.hwRev.toNat < imgHwMin h || imgHwMax h < f.hwRev.toNat then (stMode, 4)
  else if imgEpoch h < f.epoch.toNat then (stProt, 5)
  else if !makerSigned (bs.take (len - sigBytes)) (bs.drop (len - sigBytes)) then (stProt, 6)
  else (stOk, 0)

/-- A TRUST record (Table 15.4): step 7 or 8, or a slot; check order and feature bits. -/
def logTrust (s : State) (unit : Nat) (st : Byte) (order feat : Nat) : State :=
  logRec s { event := 0x0E, status := st, unit := BitVec.ofNat 16 unit, src := 0, info := BitVec.ofNat 64 (feat * 256 + order) }

/-! ## Firmware (R391 to R393) -/

/-- A write to `fw_image`. -/
def fwImageWrite (s : State) (off : Nat) (data : List Byte) : State × Byte :=
  let t := s.trust
  if t.fwState = 2 || t.fwState = 5 then (s, stBusy)
  else
    match domainWrite t.fwImage off data 4194304 with
    | none => (s, stOob)
    | some img => ({ s with trust := { t with fwImage := img, fwState := 1 } }, stOk)

/-- FW_IMAGE_WRITE (R391). -/
def execFwImageWrite (p : DictPath) (off : W32) (data : List Byte) (s : State) : Result :=
  .next (domainRow s p 0x2120 off data fun t o => fwImageWrite t o data)

/-- A command of `fw_cmd` in its states, with its status recorded (R392). -/
def fwCommand (s : State) (allowed : List Byte) (f : Trust → Trust) : State × Byte :=
  let t := s.trust
  if allowed.contains t.fwState then ({ s with trust := { f t with fwStatus := stOk } }, stOk)
  else ({ s with trust := { t with fwStatus := stMode } }, stMode)

/-- VERIFY: the staged image is being verified. -/
def fwVerify (s : State) : State × Byte := fwCommand s [1] fun t => { t with fwState := 2 }

/-- COMMIT: the flash is being erased and programmed. -/
def fwCommit (s : State) : State × Byte := fwCommand s [3] fun t => { t with fwState := 5 }

/-- ACTIVATE: the headframe restarts from the new image. -/
def fwActivate (s : State) : State × Byte :=
  let r := fwCommand s [6] fun t => { t with fwState := 0, fwImage := [], ucodePending := true }
  if r.2 = stOk then ({ r.1 with life := { r.1.life with restart := some s.now } }, stOk) else r

/-- DISCARD: nothing is staged; a written image stays in flash. -/
def fwDiscard (s : State) : State × Byte := fwCommand s [1, 3, 4, 6] fun t => { t with fwState := 0, fwImage := [] }

/-- A write to `fw_cmd`. -/
def fwCmd (s : State) (v : Nat) : State × Byte :=
  if v = 1 then fwVerify s else if v = 2 then fwCommit s else if v = 3 then fwActivate s else if v = 4 then fwDiscard s
  else ({ s with trust := { s.trust with fwStatus := stOob } }, stOob)

/-- VERIFY (R392). -/
def execVerify (p : DictPath) (s : State) : Result := .next (dictRow1 s p 0x2120 2 [1] fwVerify)

/-- COMMIT (R392). -/
def execCommit (p : DictPath) (s : State) : Result := .next (dictRow1 s p 0x2120 2 [2] fwCommit)

/-- ACTIVATE (R392, R393). -/
def execActivate (p : DictPath) (s : State) : Result := .next (dictRow1 s p 0x2120 2 [3] fwActivate)

/-- DISCARD (R392). -/
def execDiscard (p : DictPath) (s : State) : Result := .next (dictRow1 s p 0x2120 2 [4] fwDiscard)

/-- A failing check leaves REJECTED with its status, and a record. -/
def fwRejected (s : State) (st : Byte) (order : Nat) : State :=
  logTrust { s with trust := { s.trust with fwState := 4, fwStatus := st } } 7 st order 0

/-- IMAGE_VERIFIED: VERIFIED or REJECTED. -/
def imageVerified (s : State) : State :=
  if s.trust.fwState = 2 then
    let (st, n) := imageCheck s.fuse s.trust.fwImage
    if st = stOk then { s with trust := { s.trust with fwState := 3 } } else fwRejected s st n
  else s

/-- IMAGE_VERIFIED (R392). -/
def execImageVerified (s : State) : Result := .next (imageVerified s)

/-- FLASH_WRITE_DONE: the image read back passes the checks and is WRITTEN, or is REJECTED. A flash that did not take the image reads
back as no image (log entry 43). -/
def flashWriteDone (s : State) (good : Bool) : State :=
  if s.trust.fwState = 5 then
    let img := if good then s.trust.fwImage else []
    let t := { s with trust := { s.trust with flash := img } }
    let (st, n) := imageCheck s.fuse img
    if st = stOk then { t with trust := { t.trust with fwState := 6 } } else fwRejected t st n
  else s

/-- FLASH_WRITE_DONE (R392). -/
def execFlashWriteDone (good : Bool) (s : State) : Result := .next (flashWriteDone s good)

/-- The image in flash is loaded: its version, the EMCY condition's end, the next index (R390, R398). -/
def imageLoaded (s : State) : State :=
  let t := s.trust
  condEnd { s with trust := { t with loaded := t.flash, fwVersion := BitVec.ofNat 32 (imgVersion (imgHeader t.flash)) } } 0xFF40 0

/-- HEADFRAME_RESTART_DONE: the restart under ACTIVATE ends, with the new image (R393, R398). -/
def headframeRestartDone (s : State) : State :=
  if s.life.restart.isSome then
    let t := { s with life := { s.life with restart := none } }
    imageLoaded { t with trust := { t.trust with nextIdx := t.trust.reservedTo } }
  else s

/-! ## Licences (R394 to R396) -/

/-- A write to `lic_image`. -/
def licImageWrite (s : State) (off : Nat) (data : List Byte) : State × Byte :=
  match domainWrite s.trust.licImage off data 2884 with
  | none => (s, stOob)
  | some img => ({ s with trust := { s.trust with licImage := img } }, stOk)

/-- LIC_IMAGE_WRITE (R391). -/
def execLicImageWrite (p : DictPath) (off : W32) (data : List Byte) (s : State) : Result :=
  .next (domainRow s p 0x2130 off data fun t o => licImageWrite t o data)

/-- Checks of a licence: magic, format and reserved bits; serial number; signature of a licence of full length. The status and the
check's order. -/
def licenceChecks (f : FuseMap) (bs : List Byte) : Byte × Nat :=
  let b := licBody bs
  if licMagic b ≠ 0x43494C4E || licFmt b ≠ 1 || !licReserved b then (stMode, 1)
  else if licSerial b ≠ f.serial.toNat then (stProt, 2)
  else if bs.length ≠ 2884 || !makerSigned (bs.take 64) (bs.drop 64) then (stProt, 3)
  else (stOk, 0)

/-- Licence slot k. -/
def licSlot (t : Trust) (k : Nat) : LicSlot := tget {} t.slots k

/-- Store the licence of `lic_image`, or say why not (R395). -/
def licStore (s : State) : State × Byte :=
  let t := s.trust
  let (st, n) := licenceChecks s.fuse t.licImage
  if st ≠ stOk then (logTrust s 8 st n (licFeatures (licBody t.licImage)), st)
  else if t.slots.any fun k => k.2.data ≠ [] && licId (licBody k.2.data) == licId (licBody t.licImage) then (s, stOk)
  else
    match (List.range 8).find? fun k => (licSlot t k).data = [] with
    | none => (s, stOob)
    | some k =>
      (logTrust { s with trust := { t with slots := tset {} t.slots k { data := t.licImage } } } k stOk 0
        (licFeatures (licBody t.licImage)), stOk)

/-- Empty a slot. -/
def licEmpty (s : State) (k : Nat) : State × Byte :=
  if (licSlot s.trust k).data = [] then (s, stOob)
  else ({ s with trust := { s.trust with slots := tset {} s.trust.slots k {} } }, stOk)

/-- A write to `lic_cmd`, with its status recorded. -/
def licCmd (s : State) (v : Nat) : State × Byte :=
  let (t, st) := if v = 1 then licStore s else if 16 ≤ v && v < 24 then licEmpty s (v - 16) else (s, stOob)
  ({ t with trust := { t.trust with licStatus := st } }, st)

/-- LICENCE_CHECK (R395). -/
def execLicenceCheck (p : DictPath) (s : State) : Result := .next (dictRow1 s p 0x2130 2 [1] fun t => licCmd t 1)

/-- LICENCE_SLOT_EMPTY (R395). -/
def execLicenceSlotEmpty (p : DictPath) (k : Fin 8) (s : State) : Result :=
  .next (dictRow1 s p 0x2130 2 [BitVec.ofNat 8 (16 + k.val)] fun t => licCmd t (16 + k.val))

/-! ## Attestation (R397 to R400) -/

/-- A write to `att_nonce`. -/
def attNonceWrite (s : State) (off : Nat) (data : List Byte) : State × Byte :=
  match domainWrite s.trust.attNonce off data 32 with
  | none => (s, stOob)
  | some n => ({ s with trust := { s.trust with attNonce := n } }, stOk)

/-- ATT_NONCE_WRITE (R391). -/
def execAttNonceWrite (p : DictPath) (off : W32) (data : List Byte) (s : State) : Result :=
  .next (domainRow s p 0x2140 off data fun t o => attNonceWrite t o data)

/-- Indices of the objects that `m_cfg` covers, with their subindices. -/
def cfgIndices : List (Nat × List Nat) :=
  (((List.range 6).map (0x2410 + ·)) ++ [0x2440, 0x2480, 0x2503] ++ (List.range 64).map (0x2510 + ·)).map
    (fun i => (i, (List.range 16).map (· + 1))) ++
  (List.range 128).map (fun i => (0x2580 + i, List.range 256)) ++
  (List.range 64).map (fun q => (0x4810 + q, (List.range 19).map (· + 1)))

/-- Bytes of every RW and RWG object that `m_cfg` covers, in order. -/
def cfgBytes (s : State) : List Byte :=
  cfgIndices.flatMap fun x => x.2.flatMap fun sb =>
    match objAt s x.1 sb with
    | none => []
    | some o => if o.acc = .rw || o.acc = .rwg then o.val else []

/-- Licences that passed the last step 8, in slot order. -/
def passedLicences (t : Trust) : List Byte :=
  (List.range 8).flatMap fun k => if (licSlot t k).passed then (licSlot t k).data else []

/-- Bytes 0 to 191 of a report (Table 13.12). -/
def attBodyBytes (s : State) (idx : W32) : List Byte :=
  let t := s.trust
  leBytes 4 0x5454414E ++ leBytes 2 1 ++ leBytes 1 s.life.state.toNat ++ leBytes 1 t.ucodePending.toNat ++
  leBytes 8 s.fuse.serial.toNat ++ leBytes 4 t.fwVersion.toNat ++ leBytes 4 s.geo.features.toNat ++ leBytes 4 idx.toNat ++
  leBytes 4 s.geo.generation.toNat ++ t.attNonce ++ shake256 t.loaded ++ shake256 (passedLicences t) ++
  shake256 (fuseMapBytes s.fuse) ++ shake256 (cfgBytes s)

/-- Status of a write to `att_cmd` (R400). -/
def attStatus (s : State) (v : Nat) : Byte :=
  let t := s.trust
  if v ≠ 1 then stOob
  else if t.attNonce.length ≠ 32 then stOob
  else if t.attState = 1 then stBusy
  else if 1048576 ≤ t.nextIdx.toNat then stOob
  else stOk

/-- A write to `att_cmd`: signing starts with the next index, for which flash holds a higher bound (R398). -/
def attCmd (s : State) (v : Nat) : State × Byte :=
  let t := s.trust
  let st := attStatus s v
  if st ≠ stOk then (s, st)
  else
    ({ s with trust := { t with attState := 1, attReport := [], attBody := attBodyBytes s t.nextIdx,
                                nextIdx := t.nextIdx + 1,
                                reservedTo := if t.nextIdx = t.reservedTo then t.reservedTo + 64 else t.reservedTo } }, stOk)

/-- ATT_CMD (R400). -/
def execAttCmd (p : DictPath) (v : Byte) (s : State) : Result := .next (dictRow1 s p 0x2140 2 [v] fun t => attCmd t v.toNat)

/-- The signature over a report (R399, RFC 8391): its index, most significant byte first, and 2,816 bytes that only the private key in
D02 gives: free values (log entry 18). -/
def attSignature (idx : Nat) (body : List Byte) : List Byte :=
  toByte idx 4 ++ (List.range (sigBytes - 4)).map fun i => Config.attestationByte idx body (i + 4)

/-- SIGNING_DONE: the report stands with its signature, which carries the index `xidx`. -/
def signingDone (s : State) : State :=
  let t := s.trust
  if t.attState = 1 then
    let idx := leNat ((t.attBody.drop 24).take 4)
    { s with trust := { t with attState := 2, attBody := [], attReport := t.attBody ++ attSignature idx t.attBody } }
  else s

/-- SIGNING_DONE (R399). -/
def execSigningDone (s : State) : Result := .next (signingDone s)

end Sys2Proof.Machine
end

