-- ==== Sys2Proof/Machine/Bringup.lean ====
section
/-! DEFINITION. The bring-up steps (R376 to R379, R4, R19, R20, R312, R390, R396, R407). -/

namespace Sys2Proof.Machine

/-! ## Outcomes of a step (Table 13.3) -/

abbrev stepRunning : Byte := 1
abbrev stepOk : Byte := 2
abbrev stepWarn : Byte := 3
abbrev stepFailed : Byte := 4
abbrev stepSkipped : Byte := 5

/-- What a step's action gives: the module after it, and how it ended. -/
structure StepOut where
  after : State
  state : Byte := stepOk
  status : Byte := stOk
  detail : Nat := 0
  fatal : Bool := false

/-- WARN with a status while something was lost, else OK. -/
def warnIf (t : State) (lost : Bool) (st : Byte) (detail : Nat) : StepOut :=
  if lost then { after := t, state := stepWarn, status := st, detail := detail } else { after := t, detail := detail }

/-- A fatal FAILED with TIMEOUT. -/
def stepFatal (t : State) (detail : Nat) : StepOut :=
  { after := t, state := stepFailed, status := stTimeout, detail := detail, fatal := true }

/-- Limit of a step in µs (Table 13.4). -/
def stepLimit (s : State) (n : Nat) : Nat :=
  if n = 10 then (if s.life.warmBoot then 100 else 2000)
  else ([2000, 1000, 4000, 2000, 6000, 3000, 120000, 20000, 1000, 0, 100][n - 1]?).getD 0

/-! ## Domains (steps 1, 3) -/

/-- A domain turns on. -/
def domainUp (s : State) (d : Nat) : State := s.setDomain d { s.domain d with state := 1 }

/-- Turn domains on in order; one whose power-good does not rise reads FAILED and ends the step (R407). -/
def domainsUp (s : State) (fail : Option (Fin 30)) : List Nat → StepOut
  | [] => { after := s }
  | d :: ds =>
    if fail.any fun x => x.val == d then stepFatal (s.setDomain d { s.domain d with state := 4 }) d
    else domainsUp (domainUp s d) fail ds

/-- Step 1: D01 to D03, and the headframe with its next attestation index (R398). -/
def buStep1 (s : State) (e : BringupEnv) : StepOut :=
  let r := domainsUp s e.domainFail [1, 2, 3]
  if r.state = stepOk then
    { r with after := { r.after with trust := { r.after.trust with nextIdx := r.after.trust.reservedTo } } }
  else r

/-- Order of the domains of step 3 (R407). -/
def step3Order : List Nat := [26, 27, 28, 29, 16, 17, 18, 19, 20, 21, 22, 23, 24, 25, 10, 15, 11, 12, 13, 14]

/-- Physical faces whose binding is not that of the previous bring-up (R20). -/
def reboundFaces (s : State) : List Nat :=
  (s.faces.filter fun p => p.2.logical.isSome && p.2.logical ≠ tget none s.oldBinding p.1).map (·.1)

/-- The SRAM of faces cleared to 0 with valid check bits. -/
def clearSram (s : State) (gone : Nat → Bool) : State :=
  { s with mem := s.mem.filter fun c =>
             !(decide (sramKey 0 0 ≤ c.1) && decide (c.1 < sramKey 52 0) && gone ((c.1 - sramKey 0 0) / 0x800000)),
           sramErr := s.sramErr.filter fun (p : Nat × Nat) => !(gone ((8 * p.1 - sramKey 0 0) / 0x800000)) }

/-- Microseconds from a step's begin to the start of domain i of step 3: 200 for each of D26 to D29, 100 for each other (R407). -/
def domainStart (i : Nat) : Nat := 200 * min (i + 1) 4 + 100 * (i + 1 - 4)

/-- Place of the domain of step 3 whose power-good does not rise. -/
def step3Fails (e : BringupEnv) : Option Nat := e.domainFail.bind fun d => step3Order.findIdx? (· == d.val)

/-- The domains of step 3: where one fails, 500 µs after its start, those that have started by then are on (R407). -/
def step3Domains (s : State) (e : BringupEnv) : StepOut :=
  match step3Fails e with
  | none => domainsUp s none step3Order
  | some i =>
    let on := (step3Order.zipIdx.filter fun x => x.2 ≠ i && decide (domainStart x.2 < domainStart i + 500)).map (·.1)
    let d := step3Order.getD i 0
    let t := on.foldl domainUp s
    stepFatal (t.setDomain d { t.domain d with state := 4 }) d

/-- Step 3: the other domains, and the SRAM of faces bound anew. -/
def buStep3 (s : State) (e : BringupEnv) : StepOut :=
  let r := step3Domains s e
  if r.state = stepOk then
    let fs := reboundFaces r.after
    let t := clearSram r.after fs.contains
    { r with after := { t with oldBinding := bindingOf t } }
  else r

/-! ## The fuse map applied (step 2) -/

/-- The factory's row repairs, and the remap tables from the service's (R308, Table 13.5). -/
def applyRepairs (s : State) : State :=
  let t := s.fuse.rowReps.foldl (fun (t : State) (r : RowRep) => t.modCol r.col fun c =>
    if c.factory.contains ⟨r.die, r.row, r.spare⟩ then c else { c with factory := c.factory ++ [⟨r.die, r.row, r.spare⟩] }) s
  s.fuse.svcRemaps.foldl (fun (t : State) (r : RowRep) => t.modCol r.col fun c =>
    if c.remaps.any fun x => x.die == r.die && x.row == r.row && x.spare == r.spare then c
    else enterRemap c r.die r.row r.spare) t

/-- Good faces of a cluster in ascending order. -/
def goodFaces (f : FuseMap) (c : Nat) : List Nat := ((List.range 13).map (13 * c + ·)).filter fun x => !(badFacesOf f).contains x

/-- Bind the logical faces of every cluster (R19). -/
def bindFaces (s : State) : State :=
  (List.range 4).foldl (fun (t : State) (c : Nat) =>
    (((goodFaces s.fuse c).take 12).zipIdx).foldl (fun (u : State) (x : Nat × Nat) =>
      u.modFace x.1 fun k => { k with logical := some (12 * c + x.2) }) t) s

/-- Clusters with fewer than 12 good faces, as bits. -/
def shortClusters (f : FuseMap) : Nat :=
  (List.range 4).foldl (fun a c => if (goodFaces f c).length < 12 then a + 2 ^ c else a) 0

/-- Picks marked bad are fenced, and columns marked retired are retired. -/
def applyMarks (s : State) : State :=
  let t := { s with cols := tmap {} (fun c => { c with fenced := false, retired := false }) s.cols }
  let u := (badPicksOf s.fuse).foldl (fun (a : State) (g : Nat) => a.modCol g fun c => { c with fenced := true }) t
  s.fuse.svcRetired.foldl (fun (a : State) (g : Nat) => a.modCol g fun c => { c with retired := true, refStarted := false }) u

/-- Step 2. A failed service record is discarded (its marks and remaps count for nothing). -/
def buStep2 (s : State) (e : BringupEnv) : StepOut :=
  if e.fuseBad then { after := s, state := stepFailed, status := stPoison, fatal := true }
  else
    let f := if e.serviceBad then { s.fuse with svcFaces := [], svcPicks := [], svcRetired := [], svcRemaps := [] } else s.fuse
    let t := recountMany (applyMarks (bindFaces (applyRepairs { s with fuse := f })))
    let short := shortClusters f
    if e.serviceBad then { after := t, state := stepWarn, status := stPoison, detail := 2 ^ 31 + short }
    else warnIf t (short ≠ 0) stFenced short

/-! ## Fences and retirements of a bring-up (R437, R439) -/

/-- A pick or face that a step finds bad is fenced at once, and reported. -/
def bringupFence (s : State) (pick : Bool) (idx : Nat) (cause : Byte) : State :=
  let bad := if pick then (s.col idx).fenced || (s.col idx).retired else (s.face idx).logical.isNone || (s.face idx).fenced
  if bad then s
  else
    let t := if pick then fencePickNow s idx else faceFencedNow s idx
    fenceReport { recountNext t with fence := { t.fence with done := t.fence.done + 1 } } pick idx cause

/-- Distinct picks of a list that are not retired. -/
def freshPicks (s : State) (gs : List PickId) : List Nat := ((gs.map (·.val)).eraseDups).filter fun g => !(s.col g).retired

/-! ## Links and lanes (step 4) -/

/-- Step 4: the hub links and every column's command lanes. -/
def buStep4 (s : State) (e : BringupEnv) : StepOut :=
  let t := (List.range 8).foldl (fun (a : State) (n : Nat) => a.modStack n fun k => { k with linkUp := !(bitAt e.linksFail n) }) s
  if e.linksFail ≠ 0 then stepFatal t e.linksFail.toNat
  else
    let gs := freshPicks t e.lanesFail
    let u := gs.foldl (fun (a : State) (g : Nat) => retireBegin (bringupFence a true g 1) g) t
    warnIf u (gs ≠ []) stFenced (gs.length * 65536)

/-! ## The initial fill (step 5, R312) -/

/-- Cycles of the fill: eight pages of 8,192 row steps and the start stagger. -/
abbrev fillTotal : Nat := 8 * (24 + 64 * 8192) + 1575

/-- Cycle of the fill's first row step of a granule: page d of the column, granule q. -/
def fillAt (t0 g d q : Nat) : Nat := t0 + 25 * (pickOf g / 8) + d * (24 + 64 * 8192) + 24 + 64 * q

/-- The sweep credits that the fill leaves in a column whose pick ran it (R291). -/
def fillSegs (t0 g : Nat) : Tab Seg :=
  (List.range 512).map fun k =>
    let t := fillAt t0 g (k / 64) (256 * (k % 32) + (k / 32) % 2)
    (k, { tRun := t, credit := some t })

/-- A column after its fill: state cleared, the refresh of each bank started at its first row (`refFrom`), sweep counts and credits of
a pick that ran. -/
def colFilled (t0 stop g : Nat) (segs : Tab Seg) (c : Col) : Col :=
  let a := fillAt t0 g 0 0
  let c1 := clearPick c
  let c2 := if c.refStarted then c1
    else { c1 with refStarted := true, refFrom := a, refK := 0, refDue := a + pickOf g * trefi c.refRate / 512, scrubLap := a }
  if c.fenced then c2
  else { c2 with segs := segs, segCounts := (List.range 512).map fun k => (k, tget 0 c.segCounts k + 1), lastActive := stop }

/-- Fill every column that is not retired. Columns of one stagger group share their times. -/
def fillMemory (s : State) (t0 : Nat) : State :=
  let groups := (List.range 64).map fun i => fillSegs t0 (8 * i)
  let kept (c : Host.Cell) : Bool := decide (sramKey 0 0 ≤ c.1) || (s.col (c.1 / (16 * 4128 * 2048))).retired
  { s with
    mem := s.mem.filter kept,
    eccDiff := s.eccDiff.filter fun (p : Nat × W32) => (s.col (32 * p.1 / (16 * 4128 * 2048))).retired,
    cols := ((List.range 4096).map fun g =>
      let c := s.col g
      (g, if c.retired then c else colFilled t0 s.now g ((groups[pickOf g / 8]?).getD []) c)).filter
        fun (p : Nat × Col) => p.2 ≠ {},
    stackTbl := (List.range 8).foldl (fun (u : Tab Stack) (n : Nat) =>
      tset {} u n { tget {} u n with fillState := 2, fillCycles := BitVec.ofNat 32 fillTotal, staggerAt := some t0 }) s.stackTbl }

/-- A column whose command path failed during the fill: R296's reports, its fence, and its retirement. -/
def fillFailed (s : State) (g : Nat) : State :=
  let t := if (s.col g).fenced then pathFail s g else fenceComplete (pathFail s g)
  retireBegin (t.modStack (stackOf g) fun k => { k with fillState := 3 }) g

/-- Step 5 is skipped: the warm fast path. -/
def fillSkipped (s : State) : Bool := s.life.warmBoot && s.life.fastPath

/-- Step 5 from a cycle on: the fill, or nothing on the warm fast path. -/
def buStep5 (s : State) (e : BringupEnv) (t0 : Nat) : StepOut :=
  let done (t : State) : State := { t with life := { t.life with filled := true } }
  if fillSkipped s then { after := done s, state := stepSkipped }
  else
    let gs := freshPicks s e.fillFail
    let t := gs.foldl fillFailed (fillMemory s t0)
    warnIf (done t) (gs ≠ []) stFenced gs.length

/-! ## Self-tests (step 6) -/

/-- Step 6: SRAM left at 0; what fails is fenced. -/
def buStep6 (s : State) (e : BringupEnv) : StepOut :=
  if fillSkipped s then { after := s, state := stepSkipped }
  else
    let fs := ((e.facesFail.map (·.val)).eraseDups).filter fun f => (s.face f).logical.isSome && !(s.face f).fenced
    let gs := ((e.picksFail.map (·.val)).eraseDups).filter (pickLive s)
    let t := clearSram s fun _ => true
    let u := fs.foldl (fun (a : State) (f : Nat) => bringupFence a false f 1) t
    let v := gs.foldl (fun (a : State) (g : Nat) => bringupFence a true g 1) u
    warnIf v (fs ≠ [] || gs ≠ []) stFenced (fs.length + 65536 * gs.length)

/-! ## Image and licences (steps 7, 8) -/

/-- Step 7: the image in flash is checked and loaded, or the boot ROM goes on (R390). -/
def buStep7 (s : State) : StepOut :=
  let (st, n) := imageCheck s.fuse s.trust.flash
  if st = stOk then { after := imageLoaded s }
  else
    { after := condStart (logTrust s 7 st n 0) 0xFF40 0 11 0, state := stepFailed, status := st, detail := n }

/-- Bits [3:1] that a stored licence carries. -/
def licGrants (k : LicSlot) : Nat := licFeatures (licBody k.data) &&& 0xE

/-- Step 8: every stored licence is checked again, and the features in force are set (R396, R4). -/
def buStep8 (s : State) : StepOut :=
  let stored := (List.range 8).filter fun k => (licSlot s.trust k).data ≠ []
  let good := stored.filter fun k => (licenceChecks s.fuse (licSlot s.trust k).data).1 == stOk
  let bad := stored.filter fun k => !good.contains k
  let feats := good.foldl (fun a k => a ||| licGrants (licSlot s.trust k)) 1
  let lost := (bad.foldl (fun a k => a ||| licGrants (licSlot s.trust k)) 0) &&& (0xE ^^^ (feats &&& 0xE))
  let slots := stored.foldl (fun (u : Tab LicSlot) (k : Nat) => tset {} u k { tget {} u k with passed := good.contains k }) s.trust.slots
  let t := bad.foldl (fun (a : State) (k : Nat) =>
    let (st, n) := licenceChecks s.fuse (licSlot s.trust k).data
    logTrust a 8 st n (licFeatures (licBody (licSlot s.trust k).data))) { s with trust := { s.trust with slots := slots } }
  let u := ((List.range 4).filter lost.testBit).foldl (fun (a : State) (b : Nat) => condStart a 0xFF41 b 11 b) t
  let v := { u with geo := { u.geo with features := BitVec.ofNat 32 feats, suffix := if feats &&& 0xE = 0xE then 2 else 1,
                                        portsLicensed := if feats.testBit 2 then 6 else 4, generation := u.geo.generation + 1 } }
  warnIf v (bad ≠ []) stLicence (feats + 16 * lost)

/-! ## Ports, and service (steps 9 to 11) -/

/-- Ports that step 9 powers. -/
def portPowered (s : State) (k : PortId) : Bool := portLicensed s k.val && (s.port k.val).enable

/-- Bits of ports that a property holds for. -/
def portBits (p : PortId → Bool) : Nat := allPorts.foldl (fun (a : Nat) (k : PortId) => if p k then a + 2 ^ k.val else a) 0

/-- Step 9: the ports' domains, and the pages of queues and tallies. A port that step 10 has yet to train reads DISABLED, its lanes
idle (DESIGN CHOICE, log entry 165). -/
def buStep9 (s : State) : StepOut :=
  let t := allPorts.foldl (fun (a : State) (k : PortId) =>
    (if portPowered s k then domainUp a (4 + k.val) else a).modPort k.val fun p => { p with state := 1 }) s
  { after := { t with life := { t.life with opened := true } }, detail := portBits (portPowered s) }

/-- How a port's first training ends: three failures, or the lanes lost and the pools of its partner. -/
def trainPort (e : BringupEnv) (s : State) (k : PortId) : State :=
  let t := firstTrain s k
  if e.portsFail.contains k then
    trainingDone (trainingDone (trainingDone t k false 0 0 0 0 0) k false 0 0 0 0 0) k false 0 0 0 0 0
  else
    let bad : BitVec 17 := (e.laneLoss.filter fun (x : PortId × BitVec 17) => x.1 == k).foldl
      (fun (a : BitVec 17) (x : PortId × BitVec 17) => a ||| x.2) 0
    let c : W16 × W16 × W16 := match e.credits.find? fun (x : PortId × W16 × W16 × W16) => x.1 == k with
      | some x => x.2
      | none => (1, 17, 1)
    trainingDone t k true bad c.1 c.2.1 c.2.2 0

/-- Step 10: the powered ports train. -/
def buStep10 (s : State) (e : BringupEnv) : StepOut :=
  let ks := allPorts.filter fun k => (s.domain (4 + k.val)).state == 1 && (s.port k.val).enable
  let t := ks.foldl (trainPort e) s
  let up := portBits fun k => ks.contains k && portRuns (t.port k.val)
  let down := portBits fun k => ks.contains k && (t.port k.val).state == 6
  warnIf t (down ≠ 0) stTimeout (up + 256 * down)

/-- Step 11: `generation` 0, and SERVICE or DEGRADED. -/
def buStep11 (s : State) : StepOut :=
  let t := { s with geo := { s.geo with generation := 0 } }
  { after := lifeTo t (serviceState t), detail := (serviceState t).toNat }

/-- The action of a step that began at a cycle. -/
def buStep (e : BringupEnv) (t0 n : Nat) (s : State) : StepOut :=
  if n = 1 then buStep1 s e else if n = 2 then buStep2 s e else if n = 3 then buStep3 s e else if n = 4 then buStep4 s e
  else if n = 5 then buStep5 s e t0 else if n = 6 then buStep6 s e else if n = 7 then buStep7 s else if n = 8 then buStep8 s
  else if n = 9 then buStep9 s else if n = 10 then buStep10 s e else buStep11 s

/-! ## The run (R376 to R378) -/

/-- Put a step object. -/
def putStep (s : State) (n : Nat) (o : StepObj) : State := { s with life := { s.life with steps := tset {} s.life.steps n o } }

/-- The run ends. -/
def runOver (s : State) : State := { s with life := { s.life with running := none } }

/-- A step exceeds its limit: FAILED with TIMEOUT, which is fatal for steps 1, 3 and 4 (Table 13.4). -/
def stepLate (s : State) (n : Nat) : State :=
  let t := runOver (putStep s n { state := stepFailed, status := stTimeout, us := BitVec.ofNat 32 (stepLimit s n) })
  if n = 1 || n = 3 || n = 4 then lifeFatal t else t

/-- A step ends: its object, `bu_last`, and a fatal failure's life state. -/
def stepOver (n us : Nat) (r : StepOut) : State :=
  let t := putStep r.after n { state := r.state, status := r.status, detail := BitVec.ofNat 32 r.detail, us := BitVec.ofNat 32 us }
  if r.state = stepFailed then (if r.fatal then lifeFatal (runOver t) else runOver t)
  else { t with life := { t.life with buLast := BitVec.ofNat 8 n } }

/-- Step 5 fills memory: `fill_state` reads RUNNING from its begin (R312). -/
def fillBegin (s : State) : State :=
  (List.range 8).foldl (fun (t : State) (n : Nat) => t.modStack n fun k => { k with fillState := 1 }) s

/-- A step starts: RUNNING, with its status, detail and duration cleared (R377). -/
def stepBegin (n last : Nat) (s : State) : State :=
  let t := putStep (if n = 5 && !fillSkipped s then fillBegin s else s) n { state := stepRunning }
  { t with life := { t.life with running := some { step := n, last := last, since := s.now } } }

/-- Microseconds of the fill: 4,196,071 cycles (R312). -/
abbrev fillMicros : Nat := 5246

/-- Microseconds that a step takes: those of the environment, or its limit; step 3 at least the 2,400 of its starts, or to the end
of the 500 in which a domain fails (R407), and the fill its cycles (R312). -/
def stepMicros (s : State) (e : BringupEnv) (n : Nat) : Nat :=
  let d := (e.durations[n - 1]?).map (·.toNat)
  if n = 3 then
    match step3Fails e with
    | some i => domainStart i + 500
    | none => max 2400 (d.getD 2400)
  else if n = 5 && !fillSkipped s then max fillMicros (d.getD fillMicros)
  else d.getD (stepLimit s n)

/-- Run the steps from n up to the last one asked for (structural on the count of steps left). -/
def runSteps (e : BringupEnv) (last : Nat) : Nat → Nat → State → State
  | 0, _, s => runOver s
  | f + 1, n, s =>
    if last < n then runOver s
    else
      let t := stepBegin n last s
      if e.hang.any fun h => h.val == n then t
      else
        let lim := stepLimit s n
        let d := stepMicros s e n
        if lim < d then stepLate { t with now := t.now + lim * usCycles } n
        else
          let r := buStep e s.now n { t with now := t.now + d * usCycles }
          if r.state = stepFailed then stepOver n d r else runSteps e last f (n + 1) (stepOver n d r)

/-- Status of a write to `bu_run` (R376). -/
def buRunStatus (s : State) (n : Nat) : Byte :=
  if n = 0 || 11 < n then stOob
  else if s.life.state ≠ lifeStandby && s.life.state ≠ lifeBringup then stMode
  else if s.life.running.isSome then stBusy
  else stOk

/-- An accepted write to `bu_run`. A run that starts while a warm or cold reset holds the module is ended by that reset before its
first step (R382, log entry 119). -/
def buRunAct (e : BringupEnv) (n : Nat) (s : State) : State :=
  if n ≤ s.life.buLast.toNat || s.life.warm.isSome || s.life.cold.isSome then s
  else
    let s1 := { s with life := { s.life with buRun := BitVec.ofNat 8 n } }
    let t := if s.life.state = lifeStandby then lifeTo s1 lifeBringup else s1
    runSteps e n 11 (s.life.buLast.toNat + 1) t

/-- BU_RUN (R376): the write is confirmed when the run starts. -/
def execBuRun (p : DictPath) (n : Byte) (env : BringupEnv) (s : State) : Result :=
  .next (dictRowThen s p 0x2100 2 [n] (fun t => buRunStatus t n.toNat) (buRunAct env n.toNat))

/-- BRINGUP_STEP_TIMEOUT: the step now running has exceeded its limit. -/
def bringupTimeout (s : State) : State :=
  match s.life.running with
  | none => s
  | some r => if r.since + stepLimit s r.step * usCycles ≤ s.now then stepLate s r.step else s

/-- BRINGUP_STEP_TIMEOUT (R378). -/
def execBringupStepTimeout (s : State) : Result := .next (bringupTimeout s)

end Sys2Proof.Machine
end

