-- ==== Sys2Proof/Machine/Power.lean ====
section
/-! DEFINITION. Input power, the budget ledger, domains and the asynchronous inputs (R402 to R412, R421 to R423). -/

namespace Sys2Proof.Machine

/-- D00 runs. -/
def d00On (s : State) : Bool := s.life.state ≠ lifeOff

/-- A SUPPLY record of the fault log (Table 15.4). -/
def logSupply (s : State) (unit reading : Nat) : State :=
  logRec s { event := 0x0D, unit := BitVec.ofNat 16 unit, src := 0, info := BitVec.ofNat 64 reading }

/-! ## Input voltage (R402) -/

/-- Samples in a row that meet a condition, up to a bound. -/
def countRun (hit : Bool) (n cap : Nat) : Nat := if hit then min (n + 1) cap else 0

/-- The sample's counts: volts in 10 mV units. -/
def voltCounts (p : Power) (v : Nat) : Power :=
  { p with volts := v,
           over66 := countRun (decide (6600 < v)) p.over66 10, over64 := countRun (decide (6400 < v)) p.over64 3,
           under54 := countRun (decide (v < 5400)) p.under54 3, under48 := countRun (decide (v < 4800)) p.under48 100,
           under40 := countRun (decide (v < 4000)) p.under40 3,
           inBand := countRun (decide (5450 ≤ v) && decide (v ≤ 6350)) p.inBand 10 }

/-- `input_v`, the detail of the EMCYs of the input voltage (Table 12.14): the telemetry's copy. -/
def inputV (s : State) : Nat := (tget 0 s.can.telemetry 1).toNat

/-- The conditions above 64 V and below 54 V begin and end. -/
def voltConditions (s : State) : State :=
  let p := s.power
  let hi := if p.inBand = 10 then false else p.highCond || decide (p.over64 = 3)
  let lo := if p.inBand = 10 then false else p.lowCond || decide (p.under54 = 3)
  let t := { s with power := { p with highCond := hi, lowCond := lo } }
  let t1 := if (hi && !p.highCond) || (lo && !p.lowCond) then logSupply t 106 p.volts else t
  let t2 := if hi then condStart t1 0x3110 0 1 (inputV t1) else condEnd t1 0x3110 0
  if lo then condStart t2 0x3120 0 1 (inputV t2) else condEnd t2 0x3120 0

/-! ## The excursion store and the power duty (R408) -/

/-- One sample of P watts. The store counts 0.01 mJ. -/
def storeSample (p : Power) (w : Nat) : Power :=
  let b := budgetW p
  let store := if b < w then p.store - (w - b) else min 300000 (p.store + 30)
  let cut := decide (excursionW p < w) || (decide (store = 0) && decide (b < w))
  let calm := if decide (16 * w ≤ 15 * b) then p.calmSamples + 1 else 0
  let q := { p with watts := w, store := store, wattSum := p.wattSum + w, wattCount := p.wattCount + 1 }
  if cut then
    { q with powerK := max 2 (p.powerK - 1), powerCuts := if 2 < p.powerK then satInc p.powerCuts else p.powerCuts, calmSamples := 0 }
  else if calm = 100 then { q with powerK := min 8 (p.powerK + 1), calmSamples := 0 }
  else { q with calmSamples := calm }

/-- INPUT_SAMPLE: the conditions, then the responses that stop the module, then the ledger. -/
def inputSample (s : State) (v w : Nat) : State :=
  if d00On s then
    let t := voltConditions { s with power := voltCounts s.power v }
    let p := t.power
    if p.under40 = 3 then powerOff t
    else if (p.over66 = 10 || p.under48 = 100) && t.life.cold.isNone then coldBegin t
    else { t with power := storeSample p w }
  else s

/-- INPUT_SAMPLE (R402, R408). -/
def execInputSample (v w : W16) (s : State) : Result := .next (inputSample s v.toNat w.toNat)

/-- PHASE_FAULT: the phase is isolated until a cold reset, and recorded with its current. -/
def phaseFault (s : State) (i : Nat) : State :=
  if d00On s && bitAt s.power.phases i then
    logSupply { s with power := { s.power with phases := setBit s.power.phases i false } } (i + 0x100) (int16 (s.channel (88 + i)).value)
  else s

/-- PHASE_FAULT (R403). -/
def execPhaseFault (i : Fin 18) (s : State) : Result := .next (phaseFault s i.val)

/-! ## Unit duties and loans (R410, R411) -/

/-- One microsecond of a unit with an estimate and a grant. -/
def unitTick (u : LedgerUnit) (grant est : Nat) : LedgerUnit :=
  let calm := if decide (8 * est < 7 * grant) then u.calm + 1 else 0
  let duty := if grant < est then max 2 (u.duty - 1) else if calm = 8 then min 8 (u.duty + 1) else u.duty
  { duty := duty, calm := if calm = 8 then 0 else calm, est := est,
    free := if u.duty < 8 || duty < 8 then 0 else min 8 (u.free + 1) }

/-- Ledger units: eight stacks, then the physical faces. -/
def ledgerUnits : List Nat := List.range 60

/-- Every unit's microsecond. -/
def unitsTick (p : Power) (est : Nat → Nat) : Power :=
  let limited := (ledgerUnits.filter fun u => (tget {} p.units u).duty < 8).length
  { p with grantLimitedUs := satAdd p.grantLimitedUs limited,
           units := ledgerUnits.foldl (fun (t : Tab LedgerUnit) (u : Nat) =>
             tset {} t u (unitTick (tget {} p.units u) (unitGrant p u) (est u))) p.units }

/-- Units that borrow: their duty was below 8/8 in the last 8 µs. -/
def needy (p : Power) : List Nat := ledgerUnits.filter fun u => (tget {} p.units u).free < 8

/-- Watts of a face's share that are on loan or still being recalled. -/
def lentBy (p : Power) (f : Nat) : Nat := ((p.loans.filter fun l => l.lender == f).map (·.watts)).sum

/-- Lend one watt of a face in rotation. -/
def lendWatt (f : Nat) (p : Power) : Power :=
  let us := (needy p).filter fun u => u ≠ 8 + f
  match (us.filter fun u => decide (p.lendNext ≤ u)) ++ us with
  | [] => p
  | u :: _ => { p with loans := p.loans ++ [⟨f, u, 1, false⟩], lendNext := (u + 1) % 60 }

/-- Lend what is left of the share of every gated face. -/
def lendShares (s : State) : State :=
  let fs := (s.faces.filter fun p => p.2.gated).map (·.1)
  { s with power := fs.foldl (fun (p : Power) (f : Nat) => (List.range (6 - lentBy p f)).foldl (fun q _ => lendWatt f q) p) s.power }

/-- UNIT_DUTY_TICK: while the headframe runs (R393). -/
def unitDutyTick (s : State) (stackTbl faces : List Nat) : State :=
  if headframeOn s && s.life.restart.isNone then
    lendShares { s with power := unitsTick s.power fun u => if u < 8 then stackTbl.getD u 0 else faces.getD (u - 8) 0 }
  else s

/-- UNIT_DUTY_TICK (R410). -/
def execUnitDutyTick (stackTbl faces : List Nat) (s : State) : Result := .next (unitDutyTick s stackTbl faces)

/-- RECALL_COMPLETE: every borrower reports an estimate within its grant, or 10 µs have passed since the wake. -/
def recallComplete (s : State) (f : Nat) : State :=
  let c := s.face f
  let p := s.power
  let mine := p.loans.filter fun l => l.lender == f && l.recalled
  if c.floorRate && ((mine.all fun l => decide ((tget {} p.units l.borrower).est ≤ unitGrant p l.borrower)) ||
      decide (c.wokeAt + 10 * usCycles ≤ s.now)) then
    let t := s.setFace f { c with floorRate := false }
    if mine = [] then t
    else
      { t with power := { p with
          loans := p.loans.filter fun l => !(l.lender == f && l.recalled), recalls := p.recalls + 1,
          recallUsMax := BitVec.ofNat 8 (max p.recallUsMax.toNat (min 10 (ceilDiv (s.now - c.wokeAt) usCycles))) } }
  else s

/-- RECALL_COMPLETE (R411). -/
def execRecallComplete (f : FaceId) (s : State) : Result := .next (recallComplete s f.val)

/-! ## Idle and sleep (R404 to R406) -/

/-- WAKE_N holds every domain out of SLEEP (R423). -/
def wakeHeld (s : State) : Bool := (s.input 1).level && !(s.input 1).stuck

/-- A domain has no work: a cluster whose faces hold no task, a base die without pick operations. Others never idle. -/
def domainFree (s : State) (d : Nat) : Bool :=
  if 11 ≤ d && d ≤ 14 then
    ((List.range 13).all fun i => let c := s.face (13 * (d - 11) + i); c.task.isNone && !c.resetting) &&
      (s.cluster (d - 11)).tasks = []
  else if 18 ≤ d && d ≤ 25 then
    s.cols.all fun p => stackOf p.1 ≠ d - 18 || (p.2.window = [] && p.2.seqQ = [] && p.2.dirQ = [])
  else false

/-- DOMAIN_IDLE. -/
def domainIdle (s : State) (d : Nat) : State :=
  let k := s.domain d
  if k.state = 1 && domainFree s d then s.setDomain d { k with state := 2, idleSince := s.now } else s

/-- DOMAIN_IDLE (R405). -/
def execDomainIdle (d : Fin 30) (s : State) : Result := .next (domainIdle s d.val)

/-- DOMAIN_SLEEP. -/
def domainSleep (s : State) (d : Nat) : State :=
  let k := s.domain d
  if k.state = 2 && domainFree s d && s.power.sleepIdleUs ≠ 0 && !wakeHeld s &&
      decide (k.idleSince + s.power.sleepIdleUs.toNat * usCycles ≤ s.now) then
    s.setDomain d { k with state := 3 }
  else s

/-- DOMAIN_SLEEP (R405). -/
def execDomainSleep (d : Fin 30) (s : State) : Result := .next (domainSleep s d.val)

/-- DOMAIN_WAKE (R406). -/
def execDomainWake (d : Fin 30) (s : State) : Result := .next (wakeDomain s d.val)

/-! ## WAKE_N, THROTTLE_N, and stuck inputs (R421 to R423) -/

/-- Spacing of an input in cycles (Table 14.6). -/
def inputSpacing (s : State) (i : Nat) : Nat := if i = 0 then s.win.len.toNat / 2 else (s.input i).spacingUs.toNat * usCycles

/-- Stuck limit of an input in cycles. -/
def inputStuckAfter (s : State) (i : Nat) : Nat := if i = 0 then 4 * s.win.len.toNat else (s.input i).stuckMs.toNat * msCycles

/-- A change of WAKE_N or THROTTLE_N that the filter qualifies (log entry 168). An active edge too soon after the last accepted one
counts as discarded; the level is qualified all the same. -/
def pinChange (s : State) (i : Nat) (active : Bool) : State :=
  let p := s.input i
  if p.level = active || !d00On s then s
  else if tooShort s i then glitch s i
  else
    let q := { p with level := active, since := s.now, changed := some s.now }
    if !active then s.setInput i q
    else if p.lastEdge.any fun a => decide (s.now < a + inputSpacing s i) then s.setInput i { q with fast := satInc p.fast }
    else s.setInput i { q with lastEdge := some s.now }

/-- Every domain in IDLE or SLEEP wakes (R406). -/
def wakeSleepers (s : State) : State :=
  ((s.power.domains.filter fun p => p.2.state == 2 || p.2.state == 3).map (·.1)).foldl wakeDomain s

/-- WAKE_N_CHANGE (R423). -/
def execWakeNChange (active : Bool) (s : State) : Result :=
  let t := pinChange s 1 active
  .next (if wakeHeld t then wakeSleepers t else t)

/-- THROTTLE_N_CHANGE (R423): the pin duty follows the level; its report leaves at the end of the round (R420). -/
def execThrottleNChange (active : Bool) (s : State) : Result := .next (pinChange s 2 active)

/-- INPUT_STUCK: a level held active for longer than the limit. CADENCE counts only while windows follow it (R422). -/
def inputStuck (s : State) (i : Nat) : State :=
  let p := s.input i
  if d00On s && p.level && !p.stuck && decide (p.since + inputStuckAfter s i < s.now) && (i ≠ 0 || cadenceOn s) then
    let t := condStart (s.setInput i { p with stuck := true, stucks := satInc p.stucks }) 0xFF21 i 10 i
    if i = 0 then cadenceFallback t else t
  else s

/-- INPUT_STUCK (R421). -/
def execInputStuck (i : Fin 3) (s : State) : Result := .next (inputStuck s i.val)

/-- INPUT_STUCK_RELEASE: inactive for at least the spacing. -/
def inputRelease (s : State) (i : Nat) : State :=
  let p := s.input i
  if p.stuck && !p.level && decide (p.since + inputSpacing s i ≤ s.now) then condEnd (s.setInput i { p with stuck := false }) 0xFF21 i
  else s

/-- INPUT_STUCK_RELEASE (R421). -/
def execInputStuckRelease (i : Fin 3) (s : State) : Result := .next (inputRelease s i.val)

/-- INPUT_GLITCH (R421). -/
def execInputGlitch (i : Fin 3) (s : State) : Result :=
  .next (if d00On s then glitch s i.val else s)

end Sys2Proof.Machine
end

