-- ==== Sys2Proof/Machine/Canary.lean ====
section
/-! DEFINITION. The canary round, the throttle and the telemetry (R413 to R420, R440, R461, R364). -/

namespace Sys2Proof.Machine

/-! ## Channels (R413 to R416) -/

/-- The domain of a channel (Table 14.4); those of the input and the coolant never turn off with one. -/
def channelDomain (c : Nat) : Option Nat :=
  if c ≤ 63 then some (26 + c / 16) else if c ≤ 71 then some (18 + (c - 64)) else if c ≤ 75 then some (11 + (c - 72))
  else if c = 76 then some 10 else if c = 77 then some 16 else if c = 78 then some 17 else if c = 79 then some 3
  else if c ≤ 85 then some (4 + (c - 80)) else if c ≤ 107 then none else if c ≤ 111 then some (26 + (c - 108))
  else if c ≤ 119 then some (18 + (c - 112)) else if c ≤ 123 then some (11 + (c - 120)) else if c = 124 then some 10
  else if c = 125 then some 16 else none

/-- A channel whose domain is OFF is not checked, and reads 0. -/
def channelOff (s : State) (c : Nat) : Bool :=
  match channelDomain c with
  | none => false
  | some d => (s.domain d).state == 0

/-- A temperature channel is broken in this slot (R414): raw values in 0.1 degrees. -/
def sensorBroken : Sensor → Bool
  | .value v => decide (v < -400) || decide (2000 < v)
  | .openOrShort => true
  | .late => true

/-- The reading of a slot: 150 degrees from a broken sensor; a supply channel that delivers nothing keeps its reading. -/
def slotReading (k : Channel) (c : Nat) (raw : Sensor) : Int :=
  if isTempChan c && sensorBroken raw then 1500
  else match raw with
    | .value v => v
    | _ => k.value

/-- A limit as a number, or none at its sentinel. -/
def limitOf (l sentinel : W16) : Option Int := if l = sentinel then none else some (signed 16 l.toNat)

/-- Status bits of a checked channel (Table 14.8): 0 over, 1 tripped, 2 rising, 3 broken, 4 below low. A rise is exact:
0.1 degrees in 1.024 ms against 0.01 degrees per ms. -/
def channelStatus (s : State) (c : Nat) (k : Channel) (r : Int) (broken : Bool) : Byte :=
  let high := limitOf (chanHigh s c) 0x7FFF
  let low := limitOf (chanLow s c) 0x8000
  let above := broken || high.any fun h => decide (h < r)
  let trip := isTempChan c && (broken || high.any fun h => decide (h + 100 ≤ r))
  let rising := isTempChan c && !broken && k.good && decide ((s.canary.riseLimit.toNat : Int) * 1024 < (r - k.value) * 10000)
  let below := low.any fun l => decide (r < l)
  BitVec.ofNat 8 (above.toNat + 2 * trip.toNat + 4 * rising.toNat + 8 * broken.toNat + 16 * below.toNat)

/-- Begin or end one condition of a channel. -/
def chanCond (c : Nat) (code : W16) (on starts : Bool) (s : State) : State :=
  if on && starts then condStart s code c 2 c else if !on && !starts then condEnd s code c else s

/-- The reports of a channel: EMCY conditions of a temperature channel, a record of a supply channel outside its limits. What begins
is reported before what ends. -/
def channelReport (s : State) (c : Nat) (st : Byte) (r : Int) : State :=
  if isTempChan c then
    [true, false].foldl (fun (t : State) (b : Bool) =>
      chanCond c 0x4220 (bitAt st 2) b (chanCond c 0x4210 (bitAt st 0) b (chanCond c 0x4230 (bitAt st 3) b t))) s
  else if bitAt st 0 || bitAt st 4 then logSupply s c (int16 r)
  else s

/-- The highest of some channels. -/
def highest (s : State) (cs : List Nat) : Int :=
  match cs with
  | [] => 0
  | c :: ds => ds.foldl (fun m d => max m (s.channel d).value) (s.channel c).value

/-- Channels 8n to 8n + 7. -/
def coreChannels (n : Nat) : List Nat := (List.range 8).map (8 * n + ·)

/-- A core-die reading reaches its stack's shaft controller (R289). -/
def coreReading (s : State) (n : Nat) : State :=
  let t := s.modStack n fun k => { k with tempMax := highest s (coreChannels n) }
  coolCount (rateTrigger t n) n

/-- The canary round runs: D01 on, and the headframe not restarting (R413, R414). -/
def canaryRuns (s : State) : Bool := headframeOn s && domainOn s 1 && s.life.restart.isNone

/-- CANARY_SLOT: slot c of the round ends, and its channel is read and checked. -/
def canarySlot (s : State) (c : Nat) (raw : Sensor) : State :=
  if canaryRuns s && s.canary.slot == c then
    let k := s.channel c
    let t := { s with canary := { s.canary with slot := c + 1, lastReading := s.now } }
    if channelOff s c then
      channelReport (t.setChannel c { k with value := 0, prev := 0, prevGood := false, good := false, status := 0 }) c 0 0
    else
      let broken := isTempChan c && sensorBroken raw
      let r := slotReading k c raw
      let st := channelStatus s c k r broken
      let t1 := t.setChannel c { k with value := r, prev := k.value, prevGood := k.good, good := !broken, status := st }
      let t2 := if broken then { t1 with canary := { t1.canary with brokenRounds := satInc t1.canary.brokenRounds } } else t1
      let t3 := channelReport t2 c st r
      if c ≤ 63 then coreReading t3 (c / 8) else t3
  else s

/-- CANARY_SLOT (R413). -/
def execCanarySlot (c : Fin 128) (raw : Sensor) (s : State) : Result := .next (canarySlot s c.val raw)

/-! ## Supply actions (R440, Table 15.8) -/

/-- What a supply channel does after two round ends outside its limits. -/
def supplyBegin (s : State) (c : Nat) : State :=
  if c ≤ 111 then
    [2 * (c - 108), 2 * (c - 108) + 1].foldl (fun (t : State) (n : Nat) =>
      rateTrigger (t.modStack n fun k => { k with supplyHot := true, coolSince := none }) n) s
  else if 120 ≤ c && c ≤ 123 then
    (((List.range 13).map (13 * (c - 120) + ·)).filter fun f => (s.face f).logical.isSome && !(s.face f).fenced).foldl
      (fun (t : State) (f : Nat) => faceFenceBegin t f 2) s
  else lifeFatal s

/-- What ends after two round ends inside them. -/
def supplyEnd (s : State) (c : Nat) : State :=
  if c ≤ 111 then
    [2 * (c - 108), 2 * (c - 108) + 1].foldl (fun (t : State) (n : Nat) =>
      coolCount (t.modStack n fun k => { k with supplyHot := false }) n) s
  else s

/-- One supply channel at a round end. -/
def supplyRound (s : State) (c : Nat) : State :=
  let k := s.channel c
  let out := bitAt k.status 0 || bitAt k.status 4
  let k1 := { k with outRounds := countRun out k.outRounds 2, inRounds := countRun (!out) k.inRounds 2 }
  if !k1.acting && k1.outRounds = 2 then supplyBegin (s.setChannel c { k1 with acting := true }) c
  else if k1.acting && k1.inRounds = 2 then supplyEnd (s.setChannel c { k1 with acting := false }) c
  else s.setChannel c k1

/-- The supply channels with an action. -/
def supplyChannels : List Nat := (List.range 20).map (108 + ·)

/-! ## Conditions that a restart forgot (R461) -/

/-- Conditions that still last are raised again at the end of a round. -/
def conditionsAgain (s : State) : State :=
  let s1 := if s.power.highCond then condStart s 0x3110 0 1 (inputV s) else s
  let s2 := if s1.power.lowCond then condStart s1 0x3120 0 1 (inputV s1) else s1
  let s3 := if s2.can.errorPassive then condStart s2 0x8120 0 6 0 else s2
  let s4 := if s3.host.lost then condStart s3 0xFF03 0 8 0 else s3
  let s5 := if s4.win.fallback then condStart s4 0xFF20 0 10 s4.win.missed.toNat else s4
  [0, 1, 2].foldl (fun (t : State) (i : Nat) => if (t.input i).stuck then condStart t 0xFF21 i 10 i else t) s5

/-! ## The throttle (R419, R420) -/

/-- A duty in percent. -/
def dutyPercent (k : Nat) : Nat := 25 * k / 2

/-- A status bit of some temperature channel that drives the throttle. -/
def someChannel (s : State) (p : Byte → Bool) : Bool :=
  (List.range 88).any fun c => !bitAt s.canary.ignore c && p (s.channel c).status

/-- A cause: over or rising. -/
def throttleCause (s : State) : Bool := someChannel s fun b => bitAt b 0 || bitAt b 2

/-- A tripped channel. -/
def throttleTrip (s : State) : Bool := someChannel s fun b => bitAt b 1

/-- Enter a throttle state with a duty. -/
def thrTo (s : State) (st : Byte) (k : Nat) : State :=
  let c := s.canary
  { s with canary := { c with thrState := st, thrK := k, sinceChange := 0,
                              sinceStep := if k < c.thrK || (st = thrEnforced && c.thrState = thrAsked) then 0 else c.sinceStep,
                              enforcements := if st = thrEnforced && c.thrState ≠ thrEnforced then satInc c.enforcements
                                              else c.enforcements } }

/-- THROTTLE_END and EMCY 0xFF12. -/
def throttleEnded (s : State) : State := raiseEmcy (msgAll s 0x03 []) 0xFF12 9 0

/-- THROTTLE_ASK, its vector and its EMCY. -/
def throttleAsk (s : State) : State :=
  let t := thrTo s thrAsked 8
  let u := { t with canary := { t.canary with asks := satInc t.canary.asks, askedAt := t.now } }
  let v := msgAll u 0x01 (leBytes 4 (87 + 65536 * u.canary.graceMs.toNat))
  let w := if v.canary.thrMsix = 0xFF then v else hostMsix v v.canary.thrMsix.toNat
  condStart w 0xFF10 0 9 87

/-- Table of R419 at a round end; the flag says that THROTTLE_END left. -/
def throttleRound (s0 : State) : State × Bool :=
  let c0 := s0.canary
  let s := { s0 with canary := { c0 with sinceChange := c0.sinceChange + 1, sinceStep := c0.sinceStep + 1 } }
  let c := s.canary
  let cause := throttleCause s
  if c.thrState ≠ thrEnforced && throttleTrip s then (thrTo s thrEnforced 2, false)
  else if c.thrState = thrNone then (if cause then throttleAsk s else s, false)
  else if c.thrState = thrAsked then
    if !cause then (throttleEnded (thrTo s thrNone 8), true)
    else if c.askedAt + c.graceMs.toNat * msCycles ≤ s.now then (thrTo s thrEnforced 7, false)
    else (s, false)
  else if c.thrState = thrEnforced then
    if !cause then (thrTo s thrRecovering c.thrK, false)
    else if 4 ≤ c.sinceStep && 2 < c.thrK then (thrTo s thrEnforced (c.thrK - 1), false)
    else (s, false)
  else if cause then (thrTo s thrEnforced c.thrK, false)
  else if 8 ≤ c.sinceChange then
    (if 8 ≤ c.thrK + 1 then thrTo s thrNone 8 else thrTo s thrRecovering (c.thrK + 1), false)
  else (s, false)

/-- The reports of a changed effective duty, once in a round; the condition of an enforced duty lasts while it is below 8/8, that of
an ask while it stands (R420, Table 12.14). -/
def dutyReport (x : State × Bool) : State :=
  let s := x.1
  let k := effectiveDuty s
  let s1 :=
    if k = s.canary.dutySent then s
    else
      let t := { s with canary := { s.canary with dutySent := k } }
      if k < 8 then
        let u := msgAll t 0x02 (leBytes 4 (dutyPercent k))
        if u.can.conds.contains ⟨0xFF11, 0⟩ then raiseEmcy u 0xFF11 9 (dutyPercent k) else condStart u 0xFF11 0 9 (dutyPercent k)
      else if t.canary.thrState = thrNone && !x.2 then throttleEnded t
      else t
  let s2 := if k = 8 then condEnd s1 0xFF11 0 else s1
  if s2.canary.thrState = thrAsked then s2 else condEnd s2 0xFF10 0

/-! ## The pins that the module drives (R418, R442, R448, R452) -/

/-- Level of ALERT_N: low while `0x1001` is not 0 or `thr_state` is not NONE (R418). -/
def alertN (s : State) : Bool := errorRegister (activeConds s.can) = 0 && s.canary.thrState = thrNone

/-- Level of PWRGD: high while D00 runs (R448, Table 15.10). -/
def pwrgd (s : State) : Bool := d00On s

/-- Level of PRESENT_N: the model is of a mounted module, and the pin is low (Table 15.10). -/
def presentN (_ : State) : Bool := false

/-! ## Telemetry (R364, R417, Table 12.12) -/

/-- The largest rise of the round in 0.01 degrees per ms. -/
def riseMax (s : State) : Int :=
  let rs := (List.range 88).filterMap fun c =>
    let k := s.channel c
    if k.good && k.prevGood then some ((k.value - k.prev) * 10000 / 1024) else none
  match rs with
  | [] => 0
  | r :: t => t.foldl max r

/-- Watts on loan to stack units, and to face units. -/
def loansTo (p : Power) (stackTbl : Bool) : Nat :=
  ((p.loans.filter fun l => !l.recalled && decide (l.borrower < 8) == stackTbl).map (·.watts)).sum

/-- Sum over the stacks of a counter, stopping at its largest value. -/
def stackSum (s : State) (f : Stack → W32) : Nat := min (((List.range 8).map fun n => (f (s.stack n)).toNat).sum) 0xFFFFFFFF

/-- One telemetry value. -/
def teleValue (s : State) (sb : Nat) : Nat :=
  let p := s.power
  if sb = 1 then int16 (s.channel 106).value else if sb = 2 then p.wattSum / max 1 p.wattCount
  else if sb = 3 then 560 + loansTo p true else if sb = 4 then 320 else if sb = 5 then 480 + loansTo p false
  else if sb = 6 then lentW p else if sb = 7 then dutyPercent (effectiveDuty s)
  else if sb = 8 then int16 (highest s ((List.range 14).map (72 + ·)))
  else if sb ≤ 0x10 then int16 (highest s (coreChannels (sb - 9)))
  else if sb = 0x11 then int16 (riseMax s) else if sb = 0x12 then s.life.state.toNat else if sb = 0x13 then s.foreman.stepsDone.toNat
  else if sb = 0x14 then s.geo.picksLive.toNat else if sb = 0x15 then s.geo.facesLive.toNat else if sb = 0x16 then portsUp s
  else if sb = 0x17 then s.win.number.toNat else if sb = 0x18 then stackSum s (·.ceCount) else if sb = 0x19 then stackSum s (·.ueCount)
  else if sb = 0x1A then stackSum s (·.remapsDone)
  else if sb = 0x1B then min ((allPorts.map fun k => (s.port k.val).fecUncorrected.toNat).sum) 0xFFFFFFFF
  else s.log.count.toNat

/-- Copy every telemetry subindex at once. -/
def telemetryCopy (s : State) : State :=
  { s with
    can := { s.can with telemetry := (List.range 0x1C).foldl (fun (t : Tab W32) (i : Nat) =>
      tset 0 t (i + 1) (BitVec.ofNat 32 (teleValue s (i + 1)))) [] },
    power := { s.power with wattSum := 0, wattCount := 0 } }

/-- CANARY_ROUND_END: conditions that still last, supply actions, the throttle and its reports, then the telemetry. -/
def canaryRoundEnd (s : State) : State :=
  if canaryRuns s && s.canary.slot == 128 then
    let s1 := { s with canary := { s.canary with slot := 0, rounds := s.canary.rounds + 1 } }
    telemetryCopy (dutyReport (throttleRound (supplyChannels.foldl supplyRound (conditionsAgain s1))))
  else s

/-- CANARY_ROUND_END (R419). -/
def execCanaryRoundEnd (s : State) : Result := .next (canaryRoundEnd s)

end Sys2Proof.Machine
end

