-- ==== Sys2Proof/Machine/XlateRows.lean ====
section
/-! DEFINITION. Writes of translation, contexts, generators and the tally board's selectors (R38, R42, R44 to R49, R52, R67, R254,
R280). -/

namespace Sys2Proof.Machine

/-! ## Translation entries (R44) -/

/-- The writable bits of an entry (Table 2.4); reserved bits read 0. -/
abbrev entryMask : W32 := 0x8F80FFFF

/-- Status of an entry written by context 0 (Table 2.5). -/
def entryStatus (s : State) (e : W32) : Byte :=
  let pn := entryPage e
  let dram := isDramPage pn
  if !entryValid e then stOk
  else if isHolePage pn then stOob
  else if dram && (s.col (homeCol pn)).retired then stFenced
  else if dram && entryView e ≠ striped s pn then stMode
  else if dram && !entryNc e && pageNotNormal s pn (entryView e) then stMode
  else if !dram && !entryNc e then stProt
  else if entryDirect e && !isAperturePage pn then stProt
  else stOk

/-- A write to a translation entry. -/
def entryWriteObj (s : State) (n : Nat) (v : W32) : State × Byte :=
  let e := v &&& entryMask
  let st := entryStatus s e
  (if st = stOk then { s with xlate := tset 0 s.xlate n e } else s, st)

def entryIdx (n : Nat) : W16 := BitVec.ofNat 16 (0x2580 + n / 256)
def entrySub (n : Nat) : Byte := BitVec.ofNat 8 (n % 256)

/-- XLATE_ENTRY_WRITE (R44). -/
def execXlateEntryWrite (p : DictPath) (n : Fin 32768) (v : W32) (s : State) : Result :=
  .next (dictRow1 s p (entryIdx n.val) (entrySub n.val) (leBytes 4 v.toNat) fun t => entryWriteObj t n.val v)

/-! ## Group views (R38, R49) -/

/-- Columns of a stripe group. -/
def groupCols (n : Nat) : List Nat := (List.range 64).map fun m => (m % 8) * 512 + (n % 64) * 8 + m / 8

/-- A group includes a retired column. -/
def groupRetired (s : State) (n : Nat) : Bool := (groupCols n).any fun g => (s.col g).retired

/-- A valid entry maps a page of a group. -/
def groupMapped (s : State) (n : Nat) : Bool :=
  s.xlate.any fun p => entryValid p.2 && isDramPage (entryPage p.2) && groupOf (entryPage p.2) == n

/-- Status of a write of the 32 view bits of a subindex. -/
def groupViewStatus (s : State) (k : Nat) (v : W32) : Byte :=
  if (List.range 32).any fun i => bitAt v i && groupRetired s (32 * k + i) then stFenced
  else if (List.range 32).any fun i => bitAt v i ≠ bitAt s.groupView (32 * k + i) && groupMapped s (32 * k + i) then stMode
  else stOk

/-- A write to `group_view`. -/
def groupViewObj (s : State) (k : Nat) (v : W32) : State × Byte :=
  let st := groupViewStatus s k v
  (if st = stOk then
     { s with groupView := (List.range 32).foldl (fun (w : BitVec 512) (i : Nat) => setBit w (32 * k + i) (bitAt v i)) s.groupView }
   else s, st)

/-- GROUP_VIEW_WRITE (R38). -/
def execGroupViewWrite (p : DictPath) (k : Fin 16) (v : W32) (s : State) : Result :=
  .next (dictRow1 s p 0x2503 (BitVec.ofNat 8 (k.val + 1)) (leBytes 4 v.toNat) fun t => groupViewObj t k.val v)

/-! ## Contexts (R42, R254) -/

/-- Two windows of entries overlap. -/
def windowsMeet (a b : Ctx) : Bool :=
  decide (a.xlateBase.toNat < b.xlateBase.toNat + b.xlateCount.toNat) && decide (b.xlateBase.toNat < a.xlateBase.toNat + a.xlateCount.toNat) &&
    a.xlateCount ≠ 0 && b.xlateCount ≠ 0

/-- A context may not be enabled: its window leaves the table, or overlaps that of another enabled context. -/
def enableBlocked (s : State) (c : Nat) : Bool :=
  let x := s.ctx c
  decide (32768 < x.xlateBase.toNat + x.xlateCount.toNat) ||
    (List.range 64).any fun d => d ≠ c && (s.ctx d).enabled && windowsMeet x (s.ctx d)

/-- Status of a write to a field of a context. -/
def contextStatus (s : State) (c : Nat) (f : CtxField) (v : Nat) : Byte :=
  match f with
  | .enabled => if 1 < v then stOob else if v = 1 then (if enableBlocked s c then stProt else stOk) else if c = 0 then stProt else stOk
  | .xlateBase => if (s.ctx c).enabled then stMode else if 32767 < v then stOob else stOk
  | .xlateCount => if (s.ctx c).enabled then stMode else if 32768 < v then stOob else stOk
  | .tallyBase => if (s.ctx c).enabled then stMode else if 16383 < v then stOob else stOk
  | .tallyLimit => if (s.ctx c).enabled then stMode else if 4095 < v then stOob else stOk

/-- A context with a field set. -/
def contextSet (x : Ctx) (f : CtxField) (v : W16) : Ctx :=
  match f with
  | .enabled => { x with enabled := v == 1 }
  | .xlateBase => { x with xlateBase := v }
  | .xlateCount => { x with xlateCount := v }
  | .tallyBase => { x with tallyBase := v }
  | .tallyLimit => { x with tallyLimit := v }

/-- A write to a field of a context. -/
def contextObj (s : State) (c : Nat) (f : CtxField) (v : W16) : State × Byte :=
  let st := contextStatus s c f v.toNat
  (if st = stOk then s.setCtx c (contextSet (s.ctx c) f v) else s, st)

/-- Subindex of a field (Table 2.6). -/
def contextSub : CtxField → Byte
  | .enabled => 1
  | .xlateBase => 2
  | .xlateCount => 3
  | .tallyBase => 4
  | .tallyLimit => 5

/-- Bytes of a write to a field: `enabled` is a BOOLEAN, the others are UNSIGNED16. -/
def contextBytes (f : CtxField) (v : W16) : List Byte :=
  match f with
  | .enabled => [BitVec.ofNat 8 (min v.toNat 255)]
  | _ => leBytes 2 v.toNat

/-- CONTEXT_WRITE (R42). -/
def execContextWrite (p : DictPath) (c : CtxId) (f : CtxField) (v : W16) (s : State) : Result :=
  .next (dictRow1 s p (BitVec.ofNat 16 (0x2510 + c.val)) (contextSub f) (contextBytes f v) fun t => contextObj t c.val f v)

/-! ## The drain (R47) -/

/-- A write to `xlate_drain`: a write of 1 is held until every earlier request has completed. -/
def drainWrite (s : State) (p : DictPath) (v : Nat) : State × Option Byte :=
  if s.drain.isSome then (s, some stBusy)
  else if v = 0 then (s, some stOk)
  else if v ≠ 1 then (s, some stOob)
  else ({ s with drain := some { path := p, since := s.now, mark := s.reqNext } }, none)

/-- XLATE_DRAIN (R47). -/
def execXlateDrain (p : DictPath) (v : Byte) (s : State) : Result :=
  .next (dictRow s p 0x2501 1 [v] fun t => drainWrite t p v.toNat)

/-- A request translated and not complete: its number, source code, context and address. -/
structure OpenReq where
  req : Nat
  code : W16
  ctx : BitVec 6
  addr : Nat
  deriving DecidableEq, Repr

/-- The hoist transfers of a face that have been translated (R211). -/
def openHoists (c : Face) : List OpenReq :=
  match c.task with
  | none => []
  | some t =>
    t.ops.filterMap fun o => o.hoist.map fun r =>
      { req := o.req, code := BitVec.ofNat 16 (0x100 + c.logical.getD 0), ctx := t.ctx, addr := (bitsAt r.srcLd 39 0 + r.sx) % 2 ^ 40 }

/-- Requests with a number that are not complete at their destination: transfers, pick operations, passes, hoists, records, signals
held. -/
def openReqs (s : State) : List OpenReq :=
  ((s.xfers.filter fun x => x.left ≠ 0).map fun x => { req := x.id, code := x.code, ctx := x.ctx, addr := x.va.toNat }) ++
  (s.cols.flatMap fun p => p.2.window.map fun o => { req := o.req, code := pickCode p.1, ctx := o.ctx, addr := bitsAt o.record 103 64 }) ++
  (s.passes.map fun x => { req := x.req, code := 0x81, ctx := x.ctx, addr := x.outVa }) ++
  (s.faces.flatMap fun p => openHoists p.2) ++
  (s.queues.flatMap fun p => p.2.records.map fun x =>
    { req := x.id, code := 0x80, ctx := BitVec.ofNat 6 p.2.context.toNat, addr := x.addr.toNat }) ++
  (allPorts.flatMap fun k => (s.port k.val).holds.map fun h =>
    { req := h.req, code := BitVec.ofNat 16 (0x10 + 16 * k.val + h.src.toNat), ctx := h.ctx, addr := 0xD100000000 + h.off.toNat })

/-- Requests translated before a drain write that are not complete. -/
def drainOpen (s : State) (d : Drain) : List OpenReq := (openReqs s).filter fun r => decide (r.req < d.mark)

/-- XLATE_DRAIN_CONFIRMED: the last earlier request has completed. -/
def drainConfirmed (s : State) : State :=
  match s.drain with
  | none => s
  | some d => if drainOpen s d = [] then dictRelease { s with drain := none } d.path 0x2501 1 stOk else s

/-- XLATE_DRAIN_CONFIRMED (R47). -/
def execXlateDrainConfirmed (s : State) : Result := .next (drainConfirmed s)

/-- The oldest of some requests. -/
def oldestReq : List OpenReq → Option OpenReq
  | [] => none
  | r :: rs =>
    match oldestReq rs with
    | none => some r
    | some q => if r.req ≤ q.req then some r else some q

/-- The record of the oldest request that a drain waits for. -/
def logDrain (s : State) (d : Drain) : State :=
  match oldestReq (drainOpen s d) with
  | none => logObject s stTimeout 0x2501 1
  | some r =>
    let unit : W16 := if r.code = 1 then 15 else if 0x10 ≤ r.code.toNat && r.code.toNat < 0x70 then BitVec.ofNat 16 ((r.code.toNat - 16) / 16)
      else r.code
    logRec s { event := 0x01, status := stTimeout, unit := unit, src := r.code, ctx := r.ctx, info := BitVec.ofNat 64 r.addr }

/-- XLATE_DRAIN_TIMEOUT: 10 ms have passed; the requests go on. -/
def drainTimeout (s : State) : State :=
  match s.drain with
  | none => s
  | some d =>
    if decide (d.since + 10 * msCycles ≤ s.now) && drainOpen s d ≠ [] then
      dictRelease (logDrain { s with drain := none } d) d.path 0x2501 1 stTimeout
    else s

/-- XLATE_DRAIN_TIMEOUT (R47). -/
def execXlateDrainTimeout (s : State) : Result := .next (drainTimeout s)

/-! ## Generators (R67) -/

/-- A write to `sr_seed`: stored, 0 as 1, and the generator reloaded. An unbound face takes no write (R21). -/
def srSeedObj (s : State) (f : Nat) (v : W32) : State × Byte :=
  if (s.face f).logical.isNone then (s, stFenced)
  else
    let x : W32 := if v = 0 then 1 else v
    (s.modFace f fun c => { c with srSeed := x, srState := x }, stOk)

/-- SR_SEED_WRITE (R67). -/
def execSrSeedWrite (p : DictPath) (f : FaceId) (v : W32) (s : State) : Result :=
  .next (dictRow1 s p (BitVec.ofNat 16 (0x4000 + 16 * f.val)) 0x0E (leBytes 4 v.toNat) fun t => srSeedObj t f.val v)

/-! ## Selectors of the tally board (R280) -/

/-- A write to `tally_dbg_sel`. -/
def tallySel (s : State) (v : Nat) : State × Byte :=
  if 16383 < v then (s, stOob)
  else ({ s with tally := { s.tally with dbgSel := BitVec.ofNat 16 v, dbgSnap := debugRecord s v } }, stOk)

/-- TALLY_DBG_SEL (R280). -/
def execTallyDbgSel (p : DictPath) (v : W16) (s : State) : Result := .next (dictRow1 s p 0x2600 1 (leBytes 2 v.toNat) fun t => tallySel t v.toNat)

/-- A write to `watch_dbg_sel`. -/
def watchSel (s : State) (v : Nat) : State × Byte :=
  if 4095 < v then (s, stOob)
  else ({ s with tally := { s.tally with watchSel := BitVec.ofNat 16 v, watchSnap := watchRecord s v } }, stOk)

/-- WATCH_DBG_SEL (R280). -/
def execWatchDbgSel (p : DictPath) (v : W16) (s : State) : Result := .next (dictRow1 s p 0x2601 1 (leBytes 2 v.toNat) fun t => watchSel t v.toNat)

/-- A write to `barrier_dbg_sel`; every value of its type is in range. -/
def barrierSel (s : State) (v : Byte) : State × Byte :=
  ({ s with tally := { s.tally with barSel := v, barSnap := barrierRecord s v.toNat } }, stOk)

/-- BARRIER_DBG_SEL (R280). -/
def execBarrierDbgSel (p : DictPath) (v : Byte) (s : State) : Result := .next (dictRow1 s p 0x2602 1 [v] fun t => barrierSel t v)

end Sys2Proof.Machine
end

