-- ==== Sys2Proof/Machine/Dict.lean ====
section
/-! DEFINITION. Dictionary accesses: the checks of Table 12.5, and the writes of every object under its owner's rules (R353 to R358,
R363, R424, R425). -/

namespace Sys2Proof.Machine

/-! ## The checks (Table 12.5) -/

/-- Life states in which an RWG object takes a write. -/
def rwgState (s : State) : Bool := s.life.state = lifeBringup || s.life.state = lifeMaintenance

/-- A length that the object's type takes: of a write, or of a mailbox access. -/
def lengthOk (o : DObj) (wr mail : Bool) (n : Nat) : Bool :=
  (!mail || (decide (1 ≤ n) && decide (n ≤ 4064))) &&
    (match o.ty.size with
     | some k => !(wr || mail) || n == k
     | none => true)

/-- The first of checks 1 to 5 that fails: status and abort code. -/
def dictCheck (s : State) (idx sb : Nat) (wr mail : Bool) (n : Nat) : Option (Byte × W32) :=
  if !idxPresent idx then some (stOob, 0x06020000)
  else
    match objAt s idx sb with
    | none => some (stOob, 0x06090011)
    | some o =>
      if wr && o.acc = .ro then some (stProt, 0x06010002)
      else if !lengthOk o wr mail n then some (stMode, 0x06070010)
      else if wr && o.acc = .rwg && !rwgState s then some (stMode, 0x08000022)
      else none

/-! ## Writes of objects -/

/-- What a write gives: the state, its status (none: held), and what begins after its response. -/
structure WriteOut where
  after : State
  status : Option Byte := some stOk
  later : State → State := id

/-- A write decided at once. -/
def wrote (r : State × Byte) : WriteOut := { after := r.1, status := some r.2 }

/-- A write that may be held. -/
def wroteHeld (r : State × Option Byte) : WriteOut := { after := r.1, status := r.2 }

/-- A write whose effect begins after its response. -/
def wroteThen (s : State) (st : Byte) (f : State → State) : WriteOut := { after := s, status := some st, later := f }

/-- A write within a range. -/
def ranged (s : State) (ok : Bool) (t : State) : State × Byte := if ok then (t, stOk) else (s, stOob)

/-- An identifier may change: with bit 31 clear before and after, bits [28:0] stay (CiA 301). -/
def cobOk (old new : W32) : Bool := bitAt old 31 || bitAt new 31 || bitsAt old 28 0 == bitsAt new 28 0

/-- Communication objects are stored as they are written. -/
def putComm (s : State) (c : CommObjs) : State := { s with can := { s.can with comm := c, stored := c } }

/-- A write of 0 to `error_count` clears the list. -/
def errorCount (s : State) (v : Nat) : State × Byte := ranged s (v == 0) { s with can := { s.can with errors := [] } }

/-- Objects 0x1000 to 0x1A03 (Table 12.11). -/
def commWrite (s : State) (idx sb v : Nat) : State × Byte :=
  let c := s.can.comm
  let t := idx % 16
  if idx = 0x1003 then errorCount s v
  else if idx = 0x1014 then ranged s (cobOk c.emcyCob (BitVec.ofNat 32 v)) (putComm s { c with emcyCob := BitVec.ofNat 32 v })
  else if idx = 0x1015 then (putComm s { c with emcyInhibit := BitVec.ofNat 16 v }, stOk)
  else if idx = 0x1017 then (putComm s { c with heartbeatMs := BitVec.ofNat 16 v }, stOk)
  else if sb = 1 then
    ranged s (cobOk (tget 0 c.tpdoCob t) (BitVec.ofNat 32 v)) (putComm s { c with tpdoCob := tset 0 c.tpdoCob t (BitVec.ofNat 32 v) })
  else if sb = 2 then
    ranged s (v == 0xFE || v == 0xFF) (putComm s { c with tpdoType := tset 0xFE c.tpdoType t (BitVec.ofNat 8 v) })
  else if sb = 3 then (putComm s { c with tpdoInhibit := tset 0 c.tpdoInhibit t (BitVec.ofNat 16 v) }, stOk)
  else (putComm s { c with tpdoTimer := tset 0 c.tpdoTimer t (BitVec.ofNat 16 v) }, stOk)

/-- Bit rates (Table 12.12). -/
def rateWrite (s : State) (sb v : Nat) : State × Byte :=
  if sb = 1 then ranged s (v == 500 || v == 1000) { s with can := { s.can with canNominal := BitVec.ofNat 16 v } }
  else ranged s (v == 2000 || v == 5000) { s with can := { s.can with canData := BitVec.ofNat 16 v } }

/-- Objects 0x2100 to 0x21FF (Table 13.13). -/
def lifeWrite (s : State) (idx sb off : Nat) (data : List Byte) (v : Nat) : WriteOut :=
  if idx = 0x2100 then
    if sb = 2 then wroteThen s (buRunStatus s v) (buRunAct {} v)
    else if sb = 4 then wrote (stateReq s v)
    else if sb = 5 then wroteThen s (resetReqStatus s v) fun t => resetBegin t v
    else if sb = 6 then wroteThen s (faceResetStatus s v) fun t => faceResetBegin t v
    else wrote (ranged s (decide (v ≤ 1)) { s with life := { s.life with fastPath := v == 1 } })
  else if idx = 0x2120 then wrote (if sb = 1 then fwImageWrite s off data else fwCmd s v)
  else if idx = 0x2130 then wrote (if sb = 1 then licImageWrite s off data else licCmd s v)
  else wrote (if sb = 1 then attNonceWrite s off data else attCmd s v)

/-- `chan_ignore`: channels 106 and 107 cannot be ignored (R416). -/
def ignoreWrite (s : State) (sb v : Nat) : State × Byte :=
  let c := s.canary
  let lo := c.ignore.toNat % 2 ^ 64
  let hi := c.ignore.toNat / 2 ^ 64
  if sb = 3 then ({ s with canary := { c with ignore := BitVec.ofNat 128 (hi * 2 ^ 64 + v) } }, stOk)
  else ranged s (!(v.testBit 42) && !(v.testBit 43)) { s with canary := { c with ignore := BitVec.ofNat 128 (v * 2 ^ 64 + lo) } }

/-- A write to an input's settings; those of CADENCE follow `win_len`. -/
def inputWrite (s : State) (i sb v : Nat) : State × Byte :=
  if i = 0 then (s, stProt)
  else if sb = 6 then
    ranged s (decide (1 ≤ v) && decide (v ≤ 10000)) (s.setInput i { s.input i with spacingUs := BitVec.ofNat 16 v })
  else ranged s (decide (10 ≤ v) && decide (v ≤ 3600000)) (s.setInput i { s.input i with stuckMs := BitVec.ofNat 32 v })

/-- Objects 0x2200 to 0x233F (Tables 14.7 and 14.8). -/
def powerWrite (s : State) (idx sb v : Nat) : State × Byte :=
  let c := s.canary
  if idx = 0x2202 then ({ s with power := { s.power with sleepIdleUs := BitVec.ofNat 16 v } }, stOk)
  else if idx = 0x2300 then
    if sb = 2 then ranged s (decide (10 ≤ v) && decide (v ≤ 2000)) { s with canary := { c with riseLimit := BitVec.ofNat 16 v } }
    else ignoreWrite s sb v
  else if idx = 0x2302 then (s.setChannel (sb - 1) { s.channel (sb - 1) with high := some (BitVec.ofNat 16 v) }, stOk)
  else if idx = 0x2303 then (s.setChannel (sb - 1) { s.channel (sb - 1) with low := some (BitVec.ofNat 16 v) }, stOk)
  else if idx = 0x2310 then
    if sb = 1 then ranged s (decide (1 ≤ v) && decide (v ≤ 1000)) { s with canary := { c with graceMs := BitVec.ofNat 16 v } }
    else if sb = 4 then ranged s (decide (v ≤ 63) || v == 0xFF) { s with canary := { c with thrMsix := BitVec.ofNat 8 v } }
    else ranged s (decide (2 ≤ v) && decide (v ≤ 8)) { s with canary := { c with pinK := BitVec.ofNat 8 v } }
  else inputWrite s (idx - 0x2320) sb v

/-- Port of an index or a subindex. -/
def portNo (n : Nat) : PortId := Fin.ofNat 6 n

/-- Objects 0x2340 to 0x2480 (Tables 8.10 and 11.13). -/
def portWrite (s : State) (idx sb v : Nat) : State × Byte :=
  if idx = 0x2340 then (if sb = 1 then winLenWrite s v else cadAlignWrite s v)
  else if idx = 0x2440 then fwdMatrix s (portNo (sb - 1)) v
  else if idx = 0x2480 then aditPageWrite s v
  else
    let k := portNo (idx - 0x2410)
    if sb = 2 then portEnable s k v
    else if sb = 6 then retrainReq s k v
    else (s.modPort k.val fun p => { p with ctxMask := BitVec.ofNat 64 v }, stOk)

/-- Field of a context at a subindex. -/
def contextField (sb : Nat) : CtxField :=
  if sb = 1 then .enabled else if sb = 2 then .xlateBase else if sb = 3 then .xlateCount else if sb = 4 then .tallyBase else .tallyLimit

/-- Objects 0x2500 to 0x25FF (Table 2.6). -/
def xlateWrite (s : State) (p : DictPath) (idx sb v : Nat) : WriteOut :=
  if idx = 0x2501 then wroteHeld (drainWrite s p v)
  else if idx = 0x2503 then wrote (groupViewObj s (sb - 1) (BitVec.ofNat 32 v))
  else if idx < 0x2580 then wrote (contextObj s (idx - 0x2510) (contextField sb) (BitVec.ofNat 16 v))
  else wrote (entryWriteObj s ((idx - 0x2580) * 256 + sb) (BitVec.ofNat 32 v))

/-- Objects 0x2600 to 0x2604 (Table 9.14). -/
def tallyWrite (s : State) (idx sb v : Nat) : State × Byte :=
  if idx = 0x2600 then tallySel s v
  else if idx = 0x2601 then watchSel s v
  else if idx = 0x2602 then barrierSel s (BitVec.ofNat 8 v)
  else if sb = 1 then ({ s with tally := { s.tally with gateWait := BitVec.ofNat 16 v } }, stOk)
  else ranged s (decide (v ≤ 3072)) { s with tally := { s.tally with watchRemoteMax := BitVec.ofNat 16 v } }

/-- `hot_enter` and `hot_exit` (R289): at most 85, and the exit below the entry. -/
def hotWrite (s : State) (n enter exit : Nat) : State × Byte :=
  ranged s (decide (exit < enter) && decide (enter ≤ 85))
    (s.modStack n fun k => { k with hotEnter := BitVec.ofNat 8 enter, hotExit := BitVec.ofNat 8 exit })

/-- Objects of a stack's block: index i within it (Tables 4.4 and 10.13). -/
def stackWrite (s : State) (p : DictPath) (n i sb v : Nat) : WriteOut :=
  let k := s.stack n
  if i = 0x10 then wroteHeld (colModeWrite s p (n * 512 + sb) v)
  else if i = 0x11 then wroteHeld (colModeWrite s p (n * 512 + 256 + sb) v)
  else if i = 0x12 then wroteHeld (stackModeWrite s p n v)
  else if i = 0x30 then wrote (if sb = 2 then hotWrite s n v k.hotExit.toNat else hotWrite s n k.hotEnter.toNat v)
  else if i = 0x50 then wrote (ranged s (decide (v ≤ 1)) (s.setStack n { k with scrubEnable := v == 1 }))
  else if sb = 1 then wrote (remapSelWrite s n v)
  else if sb = 0x42 then wroteHeld (remapReqWrite s p n (BitVec.ofNat 64 v))
  else if sb = 0x43 then wrote (ranged s (decide (v ≤ 1)) (s.setStack n { k with autoRemap := v == 1 }))
  else wrote (ranged s (decide (1 ≤ v) && decide (v ≤ 15)) (s.setStack n { k with ceRemapThresh := BitVec.ofNat 8 v }))

/-- Objects 0x5000 and 0x5001 (Tables 15.5 and 15.11). -/
def serviceWrite (s : State) (idx sb v : Nat) : WriteOut :=
  if idx = 0x5000 then
    wrote (if sb = 3 then flogSel s (BitVec.ofNat 32 v) else if sb = 9 then flogClear s v else flogSavedSel s (BitVec.ofNat 16 v))
  else if sb = 1 then wroteThen s (faceFenceStatus s v) fun t => faceFenceBegin t v 0
  else if sb = 2 then wroteThen s (pickFenceStatus s v) fun t => pickFenceBegin t v 0
  else
    let st := colRetireStatus s v
    wrote (if st = stOk then retireBegin s v else s, st)

/-- A write of an object that takes writes, under its owner's rules. -/
def objWrite (s : State) (p : DictPath) (idx sb off : Nat) (data : List Byte) : WriteOut :=
  let v := leNat data
  if idx < 0x2000 then wrote (commWrite s idx sb v)
  else if idx < 0x2100 then wrote (rateWrite s sb v)
  else if idx < 0x2200 then lifeWrite s idx sb off data v
  else if idx < 0x2340 then wrote (powerWrite s idx sb v)
  else if idx < 0x2500 then wrote (portWrite s idx sb v)
  else if idx < 0x2600 then xlateWrite s p idx sb v
  else if idx < 0x3000 then wrote (tallyWrite s idx sb v)
  else if idx < 0x4000 then stackWrite s p ((idx - 0x3000) / 256) (idx % 256) sb v
  else if idx < 0x4800 then wrote (srSeedObj s ((idx - 0x4000) / 16) (BitVec.ofNat 32 v))
  else if idx < 0x5000 then wrote (queueObject s (idx - 0x4810) sb v)
  else serviceWrite s idx sb v

/-- Serve an opened write: the checks, then the object's rules, then what follows the response. A write that Table 12.5 refuses gets its
status there also in the block of a face that is not bound, whose FENCED (R21) comes with the object's rules (DESIGN CHOICE, log
entry 166). -/
def serveWrite (s : State) (p : DictPath) (idx sb off : Nat) (data : List Byte) (mail : Bool) : State :=
  match dictCheck s idx sb true mail data.length with
  | some (st, a) => dictReply s p st a []
  | none =>
    let r := objWrite s p idx sb off data
    match r.status with
    | none => dictHold r.after p (BitVec.ofNat 16 idx) (BitVec.ofNat 8 sb)
    | some st =>
      let t := dictReply r.after p st (abortOf st) []
      if st = stOk then r.later t else t

/-- The bytes that a read of an object gives, or the failing check. A USDO upload gives the whole object. -/
def readObject (s : State) (idx sb off n : Nat) (mail : Bool) : Byte × W32 × List Byte :=
  match dictCheck s idx sb false mail n with
  | some (st, a) => (st, a, [])
  | none =>
    match objAt s idx sb with
    | none => (stOob, 0x06090011, [])
    | some o => (stOk, 0, objRead o off (if mail then n else o.val.length))

/-- A whole write by any path: a mailbox gives its `mb_doff`. -/
def registerWrite (s : State) (p : DictPath) (idx sb : Nat) (data : List Byte) : State :=
  match dictOpen s p (BitVec.ofNat 16 idx) (BitVec.ofNat 8 sb) true with
  | .drop t => t
  | .wait => mailHold s p (BitVec.ofNat 16 idx) (BitVec.ofNat 8 sb) none data
  | .refuse st a t => dictReply t p st a []
  | .serve t =>
    match p with
    | .mbox m => serveWrite t p idx sb (s.box m.val).doff.toNat data true
    | _ => serveWrite t p idx sb 0 data false

/-- REGISTER_WRITE (R357). -/
def execRegisterWrite (p : DictPath) (idx : W16) (sb : Byte) (data : List Byte) (s : State) : Result :=
  .next (registerWrite s p idx.toNat sb.toNat data)

/-- ERROR_COUNT_WRITE (R363). -/
def execErrorCountWrite (p : DictPath) (v : Byte) (s : State) : Result :=
  .next (dictRow1 s p 0x1003 0 [v] fun t => errorCount t v.toNat)

/-! ## Mailboxes (R359 to R361) -/

/-- Serve the access that a mailbox holds: `len`, index, subindex and `op` of `mb_cmd` (Table 12.9). -/
def serveMailbox (s : State) (m : Fin 16) : State :=
  let b := s.box m.val
  let p : DictPath := .mbox m
  let t := s.setBox m.val { b with taken := true }
  let n := bitsAt b.cmd 47 32
  let idx := bitsAt b.cmd 31 16
  let sb := bitsAt b.cmd 15 8
  let op := bitsAt b.cmd 7 0
  if op = 2 then serveWrite t p idx sb b.doff.toNat (areaBytes b 0 n) true
  else if op = 1 then
    let r := readObject t idx sb b.doff.toNat n true
    dictReply t p r.1 r.2.1 r.2.2
  else dictReply t p stMode 0x08000022 []

/-- Serve the mailboxes that wait, in their order, as long as the headframe serves them (R355, R393). -/
def serveWaiting (s : State) : State :=
  s.can.mail.foldl (fun (t : State) (x : MailWait) =>
    if mailboxServes t then
      (if (t.box x.box).pend && !(t.box x.box).taken then serveMailbox t (Fin.ofNat 16 x.box) else t)
    else { t with can := { t.can with mail := t.can.mail ++ [x] } }) { s with can := { s.can with mail := [] } }

/-- A write of `mb_cmd`: a write while `pend` = 1 is ignored and counted; another waits its turn, which comes at once where the
headframe serves (log entry 164). -/
def mailboxAccess (s : State) (m : Fin 16) (cmd : W64) : State :=
  let b := s.box m.val
  if !headframeOn s then s
  else if b.pend then { s with can := { s.can with mirrorDropped := satInc s.can.mirrorDropped } }
  else
    let t := mailPut (s.setBox m.val (mailCommand b cmd)) m.val 0
    if mailboxServes t then serveWaiting t else t

/-- MAILBOX_READ (R361). -/
def execMailboxRead (m : Fin 16) (cmd : W64) (s : State) : Result := .next (mailboxAccess s m cmd)

/-- MAILBOX_WRITE (R361). -/
def execMailboxWrite (m : Fin 16) (cmd : W64) (s : State) : Result := .next (mailboxAccess s m cmd)

/-- HEADFRAME_RESTART_DONE (R393): the mailboxes that waited are served. -/
def execHeadframeRestartDone (s : State) : Result := .next (serveWaiting (headframeRestartDone s))

/-- One cycle of 1.25 ns with no command: the mailboxes that became ready in it are served, and the cycle counter advances (log entries
1 and 164). -/
def tick (s : State) : State :=
  let t := if s.can.mail ≠ [] && mailboxServes s then serveWaiting s else s
  { t with now := t.now + 1 }

end Sys2Proof.Machine
end

