-- ==== Sys2Proof/Machine/Can.lean ====
section
/-! DEFINITION. The CAN segment: NMT, heartbeat, USDO, TPDOs, EMCY, bus errors (R345 to R350, R364 to R369). -/

namespace Sys2Proof.Machine

/-- The CAN side sends and receives: D00 runs and the controller is not bus-off. -/
def canRuns (s : State) : Bool := d00On s && !s.can.busOff

/-! ## NMT (R348) -/

/-- NMT_START: Operational; the event timers start. -/
def nmtStart (s : State) : State :=
  if canRuns s then
    { s with can := { s.can with nmt := .operational,
                                 tpdoLast := [0, 1, 2, 3].foldl (fun (t : Tab Nat) (i : Nat) => tset 0 t i s.now) s.can.tpdoLast } }
  else s

/-- NMT_START (R348). -/
def execNmtStart (s : State) : Result := .next (nmtStart s)

/-- NMT_STOP (R348). -/
def execNmtStop (s : State) : Result := .next (if canRuns s then { s with can := { s.can with nmt := .stopped } } else s)

/-- NMT_ENTER_PRE_OPERATIONAL (R348). -/
def execNmtEnterPreOperational (s : State) : Result :=
  .next (if canRuns s then { s with can := { s.can with nmt := .preOperational } } else s)

/-- Reset node and reset communication: the stored objects, the boot-up message, Pre-operational, and no USDO transfer. -/
def nmtReset (s : State) : State :=
  if canRuns s then
    { s with can := { s.can with comm := s.can.stored, nmt := .preOperational, usdo := none, usdoHeld := none, hbLast := s.now } }.emit
      (.can (0x700 + s.can.nodeId) [0])
  else s

/-- NMT_RESET_NODE (R348). -/
def execNmtResetNode (s : State) : Result := .next (nmtReset s)

/-- NMT_RESET_COMMUNICATION (R348). -/
def execNmtResetCommunication (s : State) : Result := .next (nmtReset s)

/-! ## Heartbeat (R349) -/

/-- Code of an NMT state (CiA 301). -/
def nmtCode : Nmt → Byte
  | .stopped => 0x04
  | .operational => 0x05
  | .preOperational => 0x7F

/-- HEARTBEAT_TIMER: the period has passed. -/
def heartbeat (s : State) : State :=
  let ms := s.can.comm.heartbeatMs.toNat
  if canRuns s && ms ≠ 0 && decide (s.can.hbLast + ms * msCycles ≤ s.now) then
    { s with can := { s.can with hbLast := s.now } }.emit (.can (0x700 + s.can.nodeId) [nmtCode s.can.nmt])
  else s

/-- HEARTBEAT_TIMER (R349). -/
def execHeartbeatTimer (s : State) : Result := .next (heartbeat s)

/-! ## USDO (R350) -/

/-- A request whose service begins: dropped, refused, or served. -/
def usdoOpen (s : State) (idx : W16) (sb : Byte) (wr : Bool) (f : State → State) : State :=
  match dictOpen s .can idx sb wr with
  | .drop t => t
  | .wait => s
  | .refuse st a t => dictReply t .can st a []
  | .serve t => f t

/-- A later part belongs to the transfer in progress. -/
def usdoGoes (s : State) (upload : Bool) (idx : W16) (sb : Byte) : Option UsdoXfer :=
  s.can.usdo.filter fun x => usdoServes s && d00On s && x.upload == upload && x.idx == idx && x.sb == sb

/-- Hold the transfer in progress. -/
def usdoPut (s : State) (x : UsdoXfer) : State := { s with can := { s.can with usdo := some x } }

/-- The transfer in progress is over. -/
def usdoEnd (s : State) : State := { s with can := { s.can with usdo := none } }

/-- USDO_UPLOAD: a whole read; or a segmented one, whose value is taken at its first part and answered at its last. -/
def usdoUpload (s : State) (idx : W16) (sb : Byte) (part : UsdoPart) : State :=
  match part with
  | .whole => usdoOpen s idx sb false fun t =>
      let r := readObject t idx.toNat sb.toNat 0 0 false
      dictReply t .can r.1 r.2.1 r.2.2
  | .first => usdoOpen s idx sb false fun t =>
      let r := readObject t idx.toNat sb.toNat 0 0 false
      if r.1 = stOk then dictReply (usdoPut t { upload := true, idx := idx, sb := sb, data := r.2.2, since := t.now }) .can stOk 0 []
      else dictReply t .can r.1 r.2.1 []
  | .next =>
    match usdoGoes s true idx sb with
    | none => s
    | some x => dictReply (usdoPut s { x with since := s.now }) .can stOk 0 []
  | .last =>
    match usdoGoes s true idx sb with
    | none => s
    | some x => dictReply (usdoEnd s) .can stOk 0 x.data

/-- USDO_UPLOAD (R350). -/
def execUsdoUpload (idx : W16) (sb : Byte) (part : UsdoPart) (s : State) : Result := .next (usdoUpload s idx sb part)

/-- USDO_DOWNLOAD: a whole write; or a segmented one, gathered and served at its last part. -/
def usdoDownload (s : State) (idx : W16) (sb : Byte) (part : UsdoPart) (data : List Byte) : State :=
  match part with
  | .whole => usdoOpen s idx sb true fun t => serveWrite t .can idx.toNat sb.toNat 0 data false
  | .first => usdoOpen s idx sb true fun t =>
      dictReply (usdoPut t { upload := false, idx := idx, sb := sb, data := data, since := t.now }) .can stOk 0 []
  | .next =>
    match usdoGoes s false idx sb with
    | none => s
    | some x => dictReply (usdoPut s { x with data := x.data ++ data, since := s.now }) .can stOk 0 []
  | .last =>
    match usdoGoes s false idx sb with
    | none => s
    | some x => serveWrite (usdoEnd s) .can idx.toNat sb.toNat 0 (x.data ++ data) false

/-- USDO_DOWNLOAD (R350). -/
def execUsdoDownload (idx : W16) (sb : Byte) (part : UsdoPart) (data : List Byte) (s : State) : Result :=
  .next (usdoDownload s idx sb part data)

/-- USDO_SEGMENT_TIMEOUT: no segment for 1,000 ms. -/
def usdoTimeout (s : State) : State :=
  match s.can.usdo with
  | none => s
  | some x =>
    if x.since + 1000 * msCycles ≤ s.now then
      let t := { usdoEnd s with can := { s.can with usdo := none, usdoAborts := satInc s.can.usdoAborts } }
      if usdoServes s && d00On s then t.emit (.usdo (usdoCob s) 0x05040000 []) else t
    else s

/-- USDO_SEGMENT_TIMEOUT (R350). -/
def execUsdoSegmentTimeout (s : State) : Result := .next (usdoTimeout s)

/-! ## TPDOs (R365, R366) -/

/-- The next CAN FD data length. -/
def fdLength (n : Nat) : Nat :=
  if n ≤ 8 then n else if n ≤ 24 then (n + 3) / 4 * 4 else if n ≤ 32 then 32 else if n ≤ 48 then 48 else 64

/-- Bytes of a TPDO: its mapped telemetry in order, padded with zeros. -/
def tpdoBytes (s : State) (t : Nat) : List Byte :=
  let m := tpdoMapped t
  let bs := (List.range m.2).flatMap fun i => leBytes ((teleType (m.1 + i)).size.getD 0) (tget 0 s.can.telemetry (m.1 + i)).toNat
  bs ++ List.replicate (fdLength bs.length - bs.length) 0

/-- Cycles of a count of 100 µs. -/
def inhibitCycles (v : W16) : Nat := v.toNat * 100 * usCycles

/-- TPDO_EVENT_TIMER: in Operational, with the timer and the inhibit time passed. -/
def tpdoTimer (s : State) (t : Nat) : State :=
  let c := s.can.comm
  let cob := tget 0 c.tpdoCob t
  let ms := (tget 0 c.tpdoTimer t).toNat
  let last := tget 0 s.can.tpdoLast t
  if headframeServes s && canRuns s && s.can.nmt = .operational && !bitAt cob 31 && ms ≠ 0 && decide (last + ms * msCycles ≤ s.now) &&
      decide (last + inhibitCycles (tget 0 c.tpdoInhibit t) ≤ s.now) then
    { s with can := { s.can with tpdoLast := tset 0 s.can.tpdoLast t s.now } }.emit (.can (bitsAt cob 28 0) (tpdoBytes s t))
  else s

/-- TPDO_EVENT_TIMER (R365). -/
def execTpdoEventTimer (t : Fin 4) (s : State) : Result := .next (tpdoTimer s t.val)

/-! ## EMCY (R367 to R369) -/

/-- Bytes of an EMCY message. -/
def emcyBytes (m : Emcy) : List Byte := leBytes 2 m.code.toNat ++ [m.reg, m.unit] ++ leBytes 4 m.detail.toNat

/-- An EMCY 0x8110 takes the place that a message left, where one was dropped. -/
def emcyRoom (s : State) : State :=
  if s.can.emcyOwed then raiseEmcy { s with can := { s.can with emcyOwed := false } } 0x8110 6 s.can.emcyDropped.toNat else s

/-- EMCY_SEND: the inhibit time has passed, and the oldest message leaves. With bit 31 of `emcy_cob_id` set, what waits is discarded. -/
def emcySend (s : State) : State :=
  let c := s.can
  match c.emcyQueue with
  | [] => s
  | m :: rest =>
    if bitAt c.comm.emcyCob 31 then { s with can := { c with emcyQueue := [], emcyOwed := false } }
    else if headframeServes s && canRuns s && c.nmt ≠ .stopped &&
        (match c.emcyLast with
         | none => true
         | some a => decide (a + inhibitCycles c.comm.emcyInhibit ≤ s.now)) then
      emcyRoom ({ s with can := { c with emcyQueue := rest, emcyLast := some s.now } }.emit
        (.can (bitsAt c.comm.emcyCob 28 0) (emcyBytes m)))
    else s

/-- EMCY_SEND (R369). -/
def execEmcySend (s : State) : Result := .next (emcySend s)

/-! ## Bus errors (R364, R367) -/

/-- CAN_ERROR_PASSIVE: EMCY 0x8120 and bit 4 of 0x1001 while the controller is error passive. -/
def errorPassive (s : State) (enter : Bool) : State :=
  if d00On s then
    let t := { s with can := { s.can with errorPassive := enter } }
    if enter then condStart t 0x8120 0 6 0 else condEnd t 0x8120 0
  else s

/-- CAN_ERROR_PASSIVE (R367). -/
def execCanErrorPassive (enter : Bool) (s : State) : Result := .next (errorPassive s enter)

/-- CAN_BUS_OFF (R364). -/
def execCanBusOff (s : State) : Result :=
  .next (if canRuns s then { s with can := { s.can with busOff := true, busOffs := satInc s.can.busOffs } } else s)

/-- CAN_BUS_OFF_RECOVERED: EMCY 0x8140 with `can_bus_off`. -/
def busOffRecovered (s : State) : State :=
  if d00On s && s.can.busOff then raiseEmcy { s with can := { s.can with busOff := false } } 0x8140 6 s.can.busOffs.toNat else s

/-- CAN_BUS_OFF_RECOVERED (R367). -/
def execCanBusOffRecovered (s : State) : Result := .next (busOffRecovered s)

end Sys2Proof.Machine
end

