-- ==== Sys2Proof/Machine/Hoist.lean ====
section
/-! DEFINITION. Layouts and hoists (chapter 07), the start of engine operations (R167, R168), and the delivery of broadcast segments
(R134, R210). -/

namespace Sys2Proof.Machine

/-! ## Layout descriptors (Tables 7.1 and 7.2, R195 to R197) -/

def ldBase (l : BitVec 512) : Nat := bitsAt l 39 0
def ldEtype (l : BitVec 512) : Nat := bitsAt l 43 40
def ldTile (l : BitVec 512) : Nat := bitsAt l 47 46
def ldView (l : BitVec 512) : Bool := bitAt l 48
def ldOobf (l : BitVec 512) : Bool := bitAt l 49
def ldNdim (l : BitVec 512) : Nat := bitsAt l 52 50
def ldExtent (l : BitVec 512) (i : Nat) : Nat := bitsAt l (32 * i + 95) (32 * i + 64)
def ldStride (l : BitVec 512) (i : Nat) : Int := signed 32 (bitsAt l (32 * i + 255) (32 * i + 224))
/-- Extents of the dimensions used; a descriptor holds five (an `ndim` of 6 or 7 fails check 3 of Table 7.5). -/
def ldExtents (l : BitVec 512) : List Nat := (List.range (min 5 (ldNdim l))).map (ldExtent l)
/-- The fields of a descriptor that mean something: reserved bits and the dimensions at or above `ndim` are ignored (R12, R196). -/
def ldFields (l : BitVec 512) : Nat × Nat × Nat × Bool × Bool × Nat × List (Nat × Int) :=
  (ldBase l, ldEtype l, ldTile l, ldView l, ldOobf l, ldNdim l, (List.range (min 5 (ldNdim l))).map fun i => (ldExtent l i, ldStride l i))

/-- Block bytes of an element type; 0 for a reserved code (Table 7.1). -/
def etypeBytes (e : Nat) : Nat :=
  if e = 0 || e = 4 then 128 else if e = 1 || e = 2 then 64 else if e = 3 || e = 5 || e = 6 then 32
  else if e = 7 || e = 8 || e = 12 then 33 else if e = 9 || e = 10 then 25 else if e = 11 then 17 else if e = 13 then 64 else 0

def blockLen (l : BitVec 512) : Nat := etypeBytes (ldEtype l)

/-- An element type whose blocks can be transposed. -/
def transposable (e : Nat) : Bool := e ≤ 6

/-- What coordinate c of dimension i adds to a block's offset, in blocks (R197). -/
def dimOff (l : BitVec 512) (i c : Nat) : Int :=
  if 2 ≤ i || ldTile l = 0 then (c : Int) * ldStride l i
  else if ldTile l = 1 then
    if i = 0 then (c : Int) * ldStride l 0 else ((c / 32 : Nat) : Int) * ldStride l 1 + ((c % 32 : Nat) : Int)
  else if i = 0 then ((c / 8 : Nat) : Int) * ldStride l 0 + ((c % 8 * 32 : Nat) : Int)
  else ((c / 256 : Nat) : Int) * ldStride l 1 + ((c / 32 % 8 * 256 + c % 32 : Nat) : Int)

/-- block_addr of R197. -/
def blockAddr (l : BitVec 512) (xoff : Nat) (cs : List Nat) : Nat :=
  let off := cs.zipIdx.foldl (fun a p => a + dimOff l p.2 p.1) 0
  (((ldBase l + xoff : Nat) : Int) + off * (blockLen l : Int)).emod (2 ^ 40) |>.toNat

/-- Coordinates after which the offset of a dimension starts anew. -/
def dimUnit (l : BitVec 512) (i : Nat) : Nat :=
  if ldTile l = 1 && i = 1 then 32 else if ldTile l = 2 && i = 0 then 8 else if ldTile l = 2 && i = 1 then 256 else 1

/-- Coordinates at which a dimension's offset can be smallest or largest. -/
def dimEnds (l : BitVec 512) (i : Nat) : List Nat :=
  let e := ldExtent l i
  let u := dimUnit l i
  let k := (e - 1) / u * u
  [0, u - 1, k, k - 1, e - 1].filter fun c => decide (c < e)

/-- Footprint of a layout: from its lowest byte to the one after its highest, before the reduction modulo 2^40 (R197). -/
def footprint (l : BitVec 512) (xoff : Nat) : Int × Int :=
  let ends := (List.range (ldNdim l)).map fun i => (dimEnds l i).map (dimOff l i)
  let lo := ends.foldl (fun (a : Int) es => a + es.foldl min (es.headD 0)) 0
  let hi := ends.foldl (fun (a : Int) es => a + es.foldl max (es.headD 0)) 0
  let b : Int := ((ldBase l + xoff : Nat) : Int)
  (b + lo * (blockLen l : Int), b + (hi + 1) * (blockLen l : Int))

/-- A part of a footprint in one virtual page: page, offset, length. -/
structure FootPiece where
  vpage : Nat
  off : Nat
  len : Nat
  deriving DecidableEq, Repr

/-- The pages of a footprint, at most all 65,536 of them. -/
def footPieces (p : Int × Int) : List FootPiece :=
  let a := p.1 / 2 ^ 24
  let n := ((p.2 - 1) / 2 ^ 24 - a + 1).toNat
  (List.range (min n 65536)).map fun (i : Nat) =>
    let q := a + (i : Int)
    let lo := max p.1 (q * 2 ^ 24)
    let hi := min p.2 ((q + 1) * 2 ^ 24)
    ⟨(q.emod 65536).toNat, (lo - q * 2 ^ 24).toNat, (hi - lo).toNat⟩

/-- Coordinates of number n in a box of extents, dimension 0 fastest. -/
def radix : List Nat → Nat → List Nat
  | [], _ => []
  | e :: es, n => n % e :: radix es (n / e)

def product (es : List Nat) : Nat := es.foldl (· * ·) 1

/-! ## HOIST descriptors (Table 7.3) -/

def hoKind (d : BitVec 768) : Nat := bitsAt d 13 12
def hoHid (d : BitVec 768) : Nat := bitsAt d 64 64
def hoXpose (d : BitVec 768) : Bool := bitAt d 65
def hoStaged (d : BitVec 768) : Bool := bitAt d 66
def hoBcast (d : BitVec 768) : Bool := bitAt d 67
def hoFused (d : BitVec 768) : Bool := bitAt d 68
def hoBank (d : BitVec 768) : Nat := bitsAt d 69 69
def hoRnd (d : BitVec 768) : Nat := bitsAt d 71 70
def hoGw (d : BitVec 768) : Nat := bitsAt d 74 72
def hoDx (d : BitVec 768) : Nat := bitsAt d 83 80
def hoSx (d : BitVec 768) : Nat := bitsAt d 87 84
def hoSrc (d : BitVec 768) : Nat := bitsAt d 127 88
def hoDst (d : BitVec 768) : Nat := bitsAt d 167 128
def hoList (d : BitVec 768) : Nat := bitsAt d 207 168
def hoNlist (d : BitVec 768) : Nat := bitsAt d 231 208
def hoStx (d : BitVec 768) : Nat := bitsAt d 235 232
def hoWindow (d : BitVec 768) : Nat := bitsAt d 244 236
def hoLane (d : BitVec 768) : Nat := bitsAt d 247 245
def hoStacks (d : BitVec 768) : Byte := BitVec.ofNat 8 (bitsAt d 255 248)

/-- The indexed and the packed layout of a list transfer (R203). -/
def indexedLd (d : BitVec 768) (r : HoistRun) : BitVec 512 := if hoKind d = 1 then r.srcLd else r.dstLd
def packedLd (d : BitVec 768) (r : HoistRun) : BitVec 512 := if hoKind d = 1 then r.dstLd else r.srcLd

/-- Inner extents of the indexed layout: the unit of an entry; and its blocks. -/
def unitExtents (d : BitVec 768) (r : HoistRun) : List Nat :=
  let l := indexedLd d r
  (List.range (min 5 (ldNdim l - hoGw d))).map (ldExtent l)
def unitBlocks (d : BitVec 768) (r : HoistRun) : Nat := product (unitExtents d r)

/-- Bytes of the coordinate list. -/
def listBytes (d : BitVec 768) : Nat := if hoKind d = 0 then 0 else 4 * hoGw d * hoNlist d

/-! ## Checks 2 and 3 of Table 7.5 -/

/-- A layout's own codes. -/
def ldCodes (l : BitVec 512) : Bool := blockLen l ≠ 0 && ldTile l ≠ 3 && (ldTile l == 0 || 2 ≤ ldNdim l)

/-- A layout's dimensions and extents. -/
def ldRanges (l : BitVec 512) : Bool :=
  1 ≤ ldNdim l && ldNdim l ≤ 5 && (ldExtents l).all fun e => decide (1 ≤ e) && decide (e < 2 ^ 31)

/-- Shapes of a transposition (R201). -/
def xposeShapes (a b : BitVec 512) : Bool :=
  2 ≤ ldNdim a && ldNdim a == ldNdim b && ldExtent a 1 % 32 == 0 && ldExtent b 0 * 32 == ldExtent a 1 &&
  ldExtent b 1 == ldExtent a 0 * 32 && (ldExtents a).drop 2 == (ldExtents b).drop 2

/-- Combinations of a fused store (R208). -/
def fusedCodes (d : BitVec 768) (a b : BitVec 512) : Bool :=
  hoKind d == 0 && !hoBcast d && hoRnd d ≠ 3 && ldEtype a == 0 && ldNdim a == 2 && ldTile a == 0 &&
  1 ≤ ldExtent a 0 && ldExtent a 0 ≤ 2 && 1 ≤ ldExtent a 1 && ldExtent a 1 ≤ 64 && ldEtype b ≠ 13 &&
  (if hoXpose d then xposeShapes a b else ldExtents a == ldExtents b)

/-- Codes and combinations of a transfer (check 2). -/
def hoistCodes (d : BitVec 768) (r : HoistRun) : Bool :=
  let a := r.srcLd
  let b := r.dstLd
  ldCodes a && (hoBcast d || ldCodes b) &&
  (if hoFused d then fusedCodes d a b
   else if hoBcast d then hoKind d == 0 && !hoXpose d
   else if hoKind d = 0 then
     ldEtype a == ldEtype b &&
       (if hoXpose d then transposable (ldEtype a) && xposeShapes a b else ldNdim a == ldNdim b && ldExtents a == ldExtents b)
   else
     !hoXpose d && ldEtype a == ldEtype b && (hoKind d ≠ 3 || ldEtype a ≤ 6) &&
     (hoGw d == 0 || ldNdim (indexedLd d r) < hoGw d ||
      (ldNdim (packedLd d r) == ldNdim (indexedLd d r) - hoGw d + 1 &&
       (List.range (min 5 (ldNdim (indexedLd d r) - hoGw d))).all fun i => ldExtent (packedLd d r) i == ldExtent (indexedLd d r) i)))

/-- An entry names the same unit as the one before it. -/
def isRepeat (r : HoistRun) (i : Nat) : Bool := i ≠ 0 && r.list[i]? == r.list[i - 1]?

/-- Entries before i that are fetched. -/
def fetchesBefore (r : HoistRun) (i : Nat) : Nat := ((List.range i).filter fun j => !isRepeat r j).length

/-- Data bytes of R212: blocks moved, a gathered unit once for each fetch. -/
def dataBytes (d : BitVec 768) (r : HoistRun) : Nat :=
  let n := if hoKind d = 0 then product (ldExtents r.srcLd)
    else if hoKind d = 1 then fetchesBefore r (hoNlist d) * unitBlocks d r
    else hoNlist d * unitBlocks d r
  n * blockLen r.srcLd

/-- Counts and ranges of a transfer (check 3). -/
def hoistRanges (d : BitVec 768) (r : HoistRun) : Bool :=
  ldRanges r.srcLd && (hoBcast d || ldRanges r.dstLd) &&
  (hoKind d == 0 ||
    (1 ≤ hoGw d && hoGw d ≤ 5 && hoGw d ≤ ldNdim (indexedLd d r) && 1 ≤ hoNlist d && hoList d % 4 == 0 &&
     hoNlist d ≤ ldExtent (packedLd d r) (ldNdim (packedLd d r) - 1))) &&
  (!hoStaged d || decide (r.stx + dataBytes d r ≤ sramBytes))

/-! ## Checks 4 to 8 -/

/-- Translate the pages of a footprint: right and kind (check 4). A refusal records the page's first byte: R41 says the faulting
address, and a page is translated as a whole (DESIGN CHOICE, log entry 148). -/
def mapPages (r : Req) (wr : Bool) : List FootPiece → State → State × Byte × List PageMap
  | [], s => (s, stOk, [])
  | p :: ps, s =>
    let c := r.ctx.toNat
    match translate s c (p.vpage * 2 ^ 24) 1 wr false with
    | .fail st => (xlateRefused s (.unit r.code) c (p.vpage * 2 ^ 24) st r.tag, st, [])
    | .pa pa =>
      let pn := pa / 2 ^ 24
      if !isDramPage pn && !isSramPage pn then (placeRefused s (.unit r.code) c (p.vpage * 2 ^ 24) stProt r.tag, stProt, [])
      else
        let (t, st, ms) := mapPages r wr ps s
        (t, st, ⟨p.vpage, pn⟩ :: ms)

/-- Physical page of a virtual page of the transfer. -/
def pageOf (ms : List PageMap) (v : Nat) : Nat :=
  match ms.find? fun m => m.vpage == v with
  | some m => m.ppage
  | none => 0

/-- Module addresses of a piece: first byte and length. -/
def pieceRange (ms : List PageMap) (p : FootPiece) : Nat × Nat := (pageOf ms p.vpage * 2 ^ 24 + p.off, p.len)

/-- A piece touches the SRAM of a face that is not live (check 5). -/
def pieceFenced (s : State) (ms : List PageMap) (p : FootPiece) : Bool :=
  let pn := pageOf ms p.vpage
  isSramPage pn && (List.range 2).any fun h =>
    decide (p.off < (h + 1) * 0x800000) && decide (h * 0x800000 < p.off + p.len) && !faceLive s ((pn - 0xC000) * 2 + h)

/-- A page's view is the one its layout expects (check 6). -/
def pieceView (s : State) (c : Nat) (l : BitVec 512) (ms : List PageMap) (p : FootPiece) : Bool :=
  if isSramPage (pageOf ms p.vpage) then !ldView l
  else entryView (s.entry ((s.ctx c).xlateBase.toNat + p.vpage)) == ldView l

/-- Two sets of module address ranges share a byte. -/
def rangesOverlap (as bs : List (Nat × Nat)) : Bool :=
  as.any fun a => bs.any fun b => decide (a.1 < b.1 + b.2) && decide (b.1 < a.1 + a.2)

/-- Number of moves: blocks, tiles of a transposition, or blocks of the listed units. -/
def moveCount (d : BitVec 768) (r : HoistRun) : Nat :=
  if hoKind d ≠ 0 then hoNlist d * unitBlocks d r
  else if hoXpose d && !hoFused d then product (ldExtents r.dstLd) / 32
  else product (ldExtents (if hoBcast d then r.srcLd else r.dstLd))

/-- First module address of a logical face's SRAM. -/
def sramBase (l : Nat) : Nat := 0xC000000000 + l * 0x800000

/-- How a transfer proceeds, or OVERLAP (Table 7.6): its mode. -/
def overlapMode (d : BitVec 768) (r : HoistRun) (l : Nat) (src dst list_ : List (Nat × Nat)) : Option Nat :=
  let stage := [(sramBase l + r.stx, dataBytes d r)]
  let same := ldFields r.srcLd == ldFields r.dstLd && r.sx % 2 ^ 40 == r.dx % 2 ^ 40
  if rangesOverlap list_ dst then none
  else if hoFused d || hoBcast d || !rangesOverlap src dst then some 0
  else if hoKind d = 0 && same && hoXpose d && ldExtent r.srcLd 1 = 32 * ldExtent r.srcLd 0 then some 1
  else if hoKind d = 0 && same && !hoXpose d then some 0
  else if hoStaged d && decide (dataBytes d r ≤ 0x400000) && !rangesOverlap stage src && !rangesOverlap stage dst then some 2
  else none

/-- Entries of a coordinate list as its words spell them. -/
def listEntries (gw n : Nat) (bs : List Byte) : List (List Int) :=
  let a := bs.toArray
  (List.range n).map fun i => (List.range gw).map fun w =>
    signed 32 (leNat ((List.range 4).map fun k => a.getD (4 * (gw * i + w) + k) 0))

/-- Coordinate after clamping to an extent, and whether it was clamped (R204). -/
def clampCoord (e : Nat) (c : Int) : Nat × Bool :=
  if c < 0 then (0, true) else if (e : Int) ≤ c then (e - 1, true) else (c.toNat, false)

/-- Who a hoist's accesses are made for. -/
def hoistReq (s : State) (f : Nat) (ctx : BitVec 6) (o : EngOp) : Req :=
  ⟨.hoist f (hoHid o.desc), codeFace (faceL s f), ctx, descTag o.desc⟩

/-- The layout descriptors, each one request, and the coordinate list of a transfer as read (check 1 of R211). -/
def hoistFetch (s : State) (q : Req) (d : BitVec 768) : Chk (List PByte) :=
  (cleanOnly (fetchOne s q 0 (hoSrc d) 64)).andThen fun s1 a =>
    (if hoBcast d then .ok s1 [] else cleanOnly (fetchOne s1 q 1 (hoDst d) 64)).andThen fun s2 b =>
      (if listBytes d = 0 then .ok s2 [] else cleanOnly (fetchRange s2 q 2 (hoList d) (listBytes d))).andThen fun s3 c =>
        .ok s3 (a ++ b ++ c)

/-- Module addresses of a coordinate list, as its pages map now. -/
def listRanges (s : State) (c : Nat) (d : BitVec 768) : List (Nat × Nat) :=
  (rangePieces (hoList d) (listBytes d)).filterMap fun p =>
    match translate s c p.1 p.2 false false with
    | .fail _ => none
    | .pa pa => some (pa, p.2)

/-- The parameters that the bytes read give a transfer: its layouts, its bases' offsets and its coordinates before clamping. -/
def hoistRun (o : EngOp) (bs : List PByte) : HoistRun :=
  let d := o.desc
  let src : BitVec 512 := BitVec.ofNat 512 (pbNat (bs.take 64))
  let dst : BitVec 512 := if hoBcast d then src else BitVec.ofNat 512 (pbNat ((bs.drop 64).take 64))
  { srcLd := src, dstLd := dst, sx := (xreg o.xs (hoSx d)).toNat, dx := (xreg o.xs (hoDx d)).toNat,
    stx := (xreg o.xs (hoStx d)).toNat }

/-- The coordinates of the list as R204 clamps them. -/
def hoistCoords (d : BitVec 768) (r : HoistRun) (bs : List PByte) : List (List (Nat × Bool)) :=
  let ix := indexedLd d r
  let lbs := (bs.drop (if hoBcast d then 64 else 128)).map (·.1)
  let raw := if hoKind d = 0 then [] else listEntries (hoGw d) (hoNlist d) lbs
  raw.map fun e => e.zipIdx.map fun p => clampCoord (ldExtent ix (ldNdim ix - hoGw d + p.2)) p.1

/-- The pages of a transfer's footprint, source and then destination (R211). -/
def hoistPages (s : State) (q : Req) (sp dp : List FootPiece) : Chk (List PageMap) :=
  let (s4, st4, ms1) := mapPages q false sp s
  if st4 ≠ stOk then .fail st4 s4
  else
    let (s5, st5, ms2) := mapPages q true dp s4
    if st5 ≠ stOk then .fail st5 s5 else .ok s5 (ms1 ++ ms2)

/-- Cycles of a transfer before its first move (R216). -/
def hoistSetup (d : BitVec 768) (r : HoistRun) (pieces : Nat) : Nat :=
  24 + pieces + (if hoKind d = 0 then 0 else ceilDiv (listBytes d) 256 * (if ldOobf (indexedLd d r) then 2 else 1))

/-- The checks of R211 after the mapping, and what the transfer runs with. -/
def hoistPlace (s : State) (f l : Nat) (ctx : BitVec 6) (d : BitVec 768) (r : HoistRun) (clamped : Nat) (sp dp : List FootPiece)
    (lists : List (Nat × Nat)) (ms : List PageMap) : Chk HoistRun :=
  if (sp ++ dp).any (pieceFenced s ms) then .fail stFenced s
  else if !(sp.all (pieceView s ctx.toNat r.srcLd ms) && dp.all (pieceView s ctx.toNat r.dstLd ms)) then .fail stMode s
  else if ldOobf (indexedLd d r) && clamped ≠ 0 then .fail stOob s
  else
    match overlapMode d r l (sp.map (pieceRange ms)) (dp.map (pieceRange ms)) lists with
    | none => .fail stOverlap s
    | some mode =>
      let t := s.modFace f fun c =>
        { c with hoistClamps := satAdd c.hoistClamps clamped,
                 hoistStaged := if mode = 2 then c.hoistStaged + 1 else c.hoistStaged }
      .ok t { r with pages := ms, total := moveCount d r, mode := mode, spent := hoistSetup d r (sp ++ dp).length }

/-- A transfer's checks in order (R211): what it runs with. -/
def hoistPrepare (s : State) (f : Nat) (ctx : BitVec 6) (o : EngOp) : Chk HoistRun :=
  let l := faceL s f
  let d := o.desc
  let q := hoistReq s f ctx o
  (hoistFetch s q d).andThen fun s3 bs =>
    let r0 := hoistRun o bs
    let cl := hoistCoords d r0 bs
    let r1 := { r0 with list := cl.map fun e => e.map (·.1) }
    let clamped := (cl.flatten.filter fun p => p.2).length
    if !hoistCodes d r1 then .fail stMode s3
    else if !hoistRanges d r1 then .fail stOob s3
    else
      let sp := if hoFused d then [] else footPieces (footprint r1.srcLd r1.sx)
      let dp := if hoBcast d then [] else footPieces (footprint r1.dstLd r1.dx)
      (hoistPages s3 q sp dp).andThen fun s5 ms =>
        hoistPlace s5 f l ctx d r1 clamped sp dp (listRanges s5 ctx.toNat d) ms

/-! ## Footprints in the scoreboard (R167) -/

/-- What an engine operation can touch, for the comparison of R167. -/
inductive EngRes where
  | sram (lo hi : Int)
  | vreg (n : Nat)
  | mask (n : Nat)
  | bank (n : Nat)
  | vinbuf
  | xreg (n : Nat)
  deriving DecidableEq, Repr

/-- Two resources are or share the same thing. -/
def resMeet : EngRes → EngRes → Bool
  | .sram a b, .sram c d => decide (a < d) && decide (c < b)
  | x, y => x == y

/-- A resource and whether it is written. -/
abbrev ResUse := EngRes × Bool

def usesClash (as bs : List ResUse) : Bool :=
  as.any fun a => bs.any fun b => (a.2 || b.2) && resMeet a.1 b.1

/-- The range of a span. -/
def spanUse (r : Span) (wr : Bool) : List ResUse := if r.len = 0 then [] else [(.sram r.lo r.hi, wr)]

/-- A stream's registers or bytes. -/
def streamUse (o : EngOp) (x : ChainStream) (packed wr : Bool) : List ResUse :=
  if x.reg && packed then (List.range (min (ceilDiv (chCap o.desc) 64) 32)).map fun j => (.vreg (packedReg x (64 * j)), wr)
  else if x.reg then (List.range (min (chBeats o.desc) 32)).map fun j => (.vreg (streamReg x j), wr)
  else spanUse (streamSpan o x packed) wr

/-- Uses of a chain. -/
def chainUse (o : EngOp) : List ResUse :=
  let d := o.desc
  let k := chSink d
  ((chUsed d).flatMap fun x => streamUse o (chIn d x) (x == 0 && chExp0 d) false) ++
  (if k = 6 then [] else streamUse o (chOut d) (k == 5) true) ++
  (if k = 4 then [(.vreg (chVacc d), true)] else []) ++
  spanUse (maskSpan o) (chMout d) ++
  (if k = 5 || chExp0 d || chMin d || chMout d then [(.mask (chMk d), chMin d)] else []) ++
  (if (k = 5 || chExp0 d) && chCx d ≠ 0 then [(.xreg (chCx d), true)] else []) ++
  (chStages d).flatMap fun g => if g.sop = 4 then [(.mask g.mreg, true)] else if g.sop = 5 then [(.mask g.mreg, false)] else []

/-- Bytes at a range as they stand, with no access made: what a hoist that has not started will read as its layouts. -/
def peekRange (s : State) (c va n : Nat) : List Byte :=
  (rangePieces va n).flatMap fun p =>
    match translate s c p.1 p.2 false false with
    | .fail _ => List.replicate p.2 0
    | .pa pa =>
      let pn := pa / 2 ^ 24
      if isDramPage pn then
        (granulesOf s pa p.2).flatMap fun g =>
          s.rdBytes (dramKey g.place.col g.place.die (physRow (s.col g.place.col) g.place.die g.place.row) g.place.byte) g.len
      else if isSramPage pn then
        match sramPlace s pa with
        | some (f, o) => s.rdBytes (sramKey f o) p.2
        | none => List.replicate p.2 0
      else s.rdBytes (queueKey (pa % 2 ^ 24)) p.2

/-- The bytes of a virtual range that lie in a logical face's own SRAM. -/
def ownSram (s : State) (c l : Nat) (p : Int × Int) (wr : Bool) : List ResUse :=
  (footPieces p).filterMap fun q =>
    match translate s c (q.vpage * 2 ^ 24) 1 wr false with
    | .fail _ => none
    | .pa pa =>
      let a : Int := ((pa / 2 ^ 24 * 2 ^ 24 + q.off : Nat) : Int) - (sramBase l : Int)
      let lo := max a 0
      let hi := min (a + (q.len : Int)) 0x800000
      if lo < hi && isSramPage (pa / 2 ^ 24) then some (.sram lo hi, wr) else none

/-- Uses of a hoist transfer: its operands, list and descriptors in the face's own SRAM, its staging area, its bank. -/
def hoistUse (s : State) (l : Nat) (ctx : BitVec 6) (o : EngOp) : List ResUse :=
  let d := o.desc
  let c := ctx.toNat
  let r : HoistRun := match o.hoist with
    | some r => r
    | none =>
      { srcLd := BitVec.ofNat 512 (leNat (peekRange s c (hoSrc d) 64)),
        dstLd := BitVec.ofNat 512 (leNat (peekRange s c (hoDst d) 64)),
        sx := (xreg o.xs (hoSx d)).toNat, dx := (xreg o.xs (hoDx d)).toNat, stx := (xreg o.xs (hoStx d)).toNat,
        list := if hoKind d = 1 then (listEntries (hoGw d) (hoNlist d) (peekRange s c (hoList d) (listBytes d))).map fun e =>
          e.map Int.toNat else [] }
  let va (a n : Nat) : Int × Int := ((a : Int), ((a + n : Nat) : Int))
  ownSram s c l (va (hoSrc d) 64) false ++
  (if hoBcast d then [] else ownSram s c l (va (hoDst d) 64) false) ++
  (if listBytes d = 0 then [] else ownSram s c l (va (hoList d) (listBytes d)) false) ++
  (if hoFused d then [(.bank (hoBank d), false)] else ownSram s c l (footprint r.srcLd r.sx) false) ++
  (if hoBcast d then [] else ownSram s c l (footprint r.dstLd r.dx) true) ++
  (if hoStaged d then spanUse ⟨r.stx, dataBytes d r, 0, 1⟩ true else [])

/-- Scalar registers that an operation names as bases: it reads them when it enters (R167). X0 is none. -/
def baseRegs (o : EngOp) : List Nat :=
  let d := o.desc
  let opc := descOpc d
  let field (lo : Nat) : Nat := bitsAt d (lo + 31) (lo + 28)
  let ofStream (x : ChainStream) : List Nat := if x.reg then [] else [x.xb]
  let all :=
    if opc = opcMma then [field 128, field 160]
    else if opc = opcMxv then [field 128, field 160, field 224] ++ (if mxvScaleBytes o = 0 then [] else [field 192])
    else if opc = opcMstore then [field 224]
    else if opc = opcVchain then
      ((chUsed d).flatMap fun k => ofStream (chIn d k)) ++ (if chSink d = 6 then [] else ofStream (chOut d)) ++
        (if chMin d || chMout d then [bitsAt d 351 348] else [])
    else if opc = opcVhred then []
    else if opc = opcPlanesum then [field 192, field 224]
    else [hoSx d, hoDx d] ++ (if hoStaged d then [hoStx d] else [])
  all.filter (· ≠ 0)

/-- Everything an engine operation reads or writes. -/
def engUse (s : State) (l : Nat) (ctx : BitVec 6) (o : EngOp) : List ResUse :=
  let opc := descOpc o.desc
  ((baseRegs o).map fun x => ((.xreg x, false) : ResUse)) ++
  if opc = opcMma then spanUse (mmaA o) false ++ spanUse (mmaB o) false ++ [(.bank (mxBank o), true)]
  else if opc = opcMxv then
    spanUse (mxvW o) false ++ spanUse (mxvS o) false ++ spanUse (mxvX o) false ++ spanUse (mxvY o) true ++ [(.vinbuf, true)]
  else if opc = opcMstore then spanUse (mstoreC o) true ++ [(.bank (mxBank o), false)]
  else if opc = opcVchain then chainUse o
  else if opc = opcVhred then
    [(.vreg (hrVs o.desc), false), (.vreg (hrVd o.desc), true)] ++ (if hrXd o.desc = 0 then [] else [(.xreg (hrXd o.desc), true)])
  else if opc = opcPlanesum then spanUse (psSrc o) false ++ spanUse (psDst o) true
  else hoistUse s l ctx o

/-! ## ENGINE_OPERATION_START (R167, R168) -/

/-- The engine of an operation: 0 matrix, 1 vector, 2 and 3 the hoists. -/
def engineOf (d : BitVec 768) : Nat :=
  let opc := descOpc d
  if opc = opcMma || opc = opcMxv || opc = opcMstore then 0
  else if opc = opcHoist then 2 + hoHid d else 1

/-- The operation draws from the stochastic-rounding generator (R67). -/
def usesSr (d : BitVec 768) : Bool :=
  let opc := descOpc d
  (opc == opcMstore && bitsAt d 12 11 == 2) || (opc == opcHoist && hoFused d && hoRnd d == 2) ||
  (opc == opcVchain && (chStages d).any fun g => g.sop == 8 && g.rnd == 2)

/-- The operation uses the face's transpose tile (R202). -/
def usesTile (d : BitVec 768) : Bool := descOpc d == opcHoist && hoXpose d

/-- What holds an operation back behind an earlier one: its engine, a conflict, an earlier use of the generator. -/
def engHeld (s : State) (l : Nat) (ctx : BitVec 6) (o x : EngOp) : Bool :=
  (engineOf x.desc == engineOf o.desc &&
    !(engineOf o.desc < 2 && match x.started with
      | some a => decide (a + x.busy ≤ s.now)
      | none => false)) ||
  (usesSr o.desc && usesSr x.desc && !x.done) ||
  usesClash (engUse s l ctx x) (engUse s l ctx o)

/-- The face's engines start no operation now: they have no clock (R276), the issue duty closes the cycle (R420), or the face runs at
the floor rate, in which one cycle of four takes starts (R277; which one is DESIGN CHOICE, log entry 158). -/
def startsHeld (s : State) (f : Nat) : Bool :=
  (s.face f).gated || !dutyOpen (dutyOf s (8 + f)) s.now || ((s.face f).floorRate && s.now % 4 ≠ 0)

/-- The operation may start: nothing earlier holds it back, and the transpose tile is free. -/
def engReady (s : State) (f : Nat) (t : FaceTask) (o : EngOp) : Bool :=
  !startsHeld s f &&
  (t.ops.all fun x => o.uid ≤ x.uid || !engHeld s (faceL s f) t.ctx o x) &&
  !(usesTile o.desc && t.ops.any fun x => x.uid ≠ o.uid && x.started.isSome && usesTile x.desc)

/-- Checks of the matrix and vector engines (R168). -/
def engCheck (o : EngOp) : Byte :=
  let opc := descOpc o.desc
  if opc = opcMma then mmaCheck o
  else if opc = opcMxv then mxvCheck o
  else if opc = opcMstore then mstoreCheck o
  else if opc = opcVchain then vchainCheck o
  else if opc = opcVhred then vhredCheck o
  else planesumCheck o

/-- What a face's hoist accessed so far is forgotten. -/
def hoistDrop (s : State) (f : Nat) (d : BitVec 768) : State := innerDrop s fun w => w == .hoist f (hoHid d)

/-- An operation that failed its checks: it has read and written nothing. -/
def engRefused (s : State) (f : Nat) (o : EngOp) (st : Byte) : State :=
  putEngOp (if descOpc o.desc = opcHoist then hoistDrop s f o.desc else s) f
    { o with started := some s.now, done := true, status := st, cost := 1, busy := 1 }

/-- ENGINE_OPERATION_START. -/
def engineStart (s0 : State) (f i : Nat) : State :=
  let s := entered s0 f
  match engOp s f i with
  | none => s
  | some (t, o) =>
    if o.started.isSome || !engReady s f t o then s
    else if descOpc o.desc = opcHoist then
      match hoistPrepare s f t.ctx o with
      | .wait u => u
      | .fail st u => engRefused u f o st
      | .ok u r =>
        let (q, v) := (hoistDrop u f o.desc).newReq
        putEngOp v f { o with started := some v.now, req := q, hoist := some r }
    else
      let st := engCheck o
      if st ≠ stOk then engRefused s f o st
      else
        let (q, v) := s.newReq
        putEngOp v f { o with started := some v.now, req := q, cost := (engCycles o).1, busy := (engCycles o).2 }

/-- ENGINE_OPERATION_START (R167). -/
def execEngineOperationStart (f : FaceId) (i : Fin 16) (s : State) : Result := .next (engineStart s f.val i.val)

/-! ## Moves -/

/-- One move of a transfer: its source and destination blocks; whether it fetches; its first staging block. -/
structure Move where
  srcs : List Nat
  dsts : List Nat
  fetch : Bool := true
  slot : Nat
  deriving DecidableEq, Repr

/-- Move n of a transfer in walk order (R200, R201, R205 to R208). -/
def moveOf (d : BitVec 768) (r : HoistRun) (n : Nat) : Move :=
  let a := r.srcLd
  let b := r.dstLd
  if hoFused d then
    if hoXpose d then
      let w := ldExtent b 0
      ⟨[], [blockAddr b r.dx [n / 32 % w, n / (32 * w) * 32 + n % 32]], true, n⟩
    else ⟨[], [blockAddr b r.dx (radix (ldExtents b) n)], true, n⟩
  else if hoKind d = 0 then
    if hoXpose d then
      let w := ldExtent b 0
      let h := ldExtent b 1 / 32
      let out := radix ((ldExtents b).drop 2) (n / (w * h))
      ⟨(List.range 32).map fun k => blockAddr a r.sx ([n / w % h, n % w * 32 + k] ++ out),
       (List.range 32).map fun k => blockAddr b r.dx ([n % w, n / w % h * 32 + k] ++ out), true, 32 * n⟩
    else
      let c := radix (ldExtents a) n
      ⟨[blockAddr a r.sx c], [blockAddr b r.dx c], true, n⟩
  else
    let u := unitBlocks d r
    let i := n / u
    let inner := radix (unitExtents d r) (n % u)
    let ixc := inner ++ r.list.getD i []
    let pkc := inner ++ [i]
    if hoKind d = 1 then
      ⟨[blockAddr a r.sx ixc], [blockAddr b r.dx pkc], !isRepeat r i,
       (if isRepeat r i then fetchesBefore r i - 1 else fetchesBefore r i) * u + n % u⟩
    else ⟨[blockAddr a r.sx pkc], [blockAddr b r.dx ixc], true, n⟩

/-- A block to be read or written: its address, and its pieces by module address. -/
structure Block where
  va : Nat
  as : List Acc
  deriving DecidableEq, Repr

/-- The block at a virtual address of the transfer's pages. -/
def vaBlock (r : HoistRun) (len : Nat) (wr : Bool) (va : Nat) : Block :=
  ⟨va, (rangePieces va len).map fun p => ⟨pageOf r.pages (p.1 / 2 ^ 24) * 2 ^ 24 + p.1 % 2 ^ 24, p.2, wr⟩⟩

/-- Block n of the staging area of logical face l. -/
def stageBlock (l : Nat) (r : HoistRun) (len : Nat) (wr : Bool) (n : Nat) : Block :=
  ⟨r.stx + n * len, [⟨sramBase l + r.stx + n * len, len, wr⟩]⟩

/-- A stage over a list, its elements numbered from i: all of them begin, and it goes on when all have ended. -/
def chkAll {α β : Type} (f : State → Nat → α → Chk β) : Nat → List α → State → Chk (List β)
  | _, [], s => .ok s []
  | i, a :: as, s =>
    match f s i a with
    | .ok t b => (chkAll f (i + 1) as t).andThen fun u bs => .ok u (b :: bs)
    | .wait t =>
      match chkAll f (i + 1) as t with
      | .ok u _ => .wait u
      | x => x
    | .fail st t => .fail st t

/-- Access i of a hoist to a block: bytes that are not implemented or whose face is fenced fail (R32, R33). -/
def blockAccess (s : State) (q : Req) (i : Nat) (wr : Bool) (b : Block) (data : List PByte) : Chk (Byte × List PByte) :=
  if (innerXfer s q.who i).isSome then innerResult s q.who i
  else
    match b.as.find? fun a => paCheck s a.pa a.len ≠ stOk with
    | some a => .ok s (paCheck s a.pa a.len, [])
    | none => innerAccess s q i b.va wr b.as data

/-- A block of which any byte is poisoned is poisoned as a whole (R213). -/
def markBlock (bs : List PByte) : List PByte := if anyPoison bs then bs.map fun b => (b.1, true) else bs

/-- Read blocks, as accesses from number i on: each with its status; no bytes of a block whose read failed. -/
def readBlocks (s : State) (q : Req) (i : Nat) (bs : List Block) : Chk (List (Byte × List PByte)) :=
  chkAll (fun t j b => (blockAccess t q j false b []).andThen fun u x => .ok u (x.1, if stBad x.1 then [] else markBlock x.2)) i bs s

/-- Write blocks, as accesses from number i on; one without bytes stays unwritten (R213). -/
def writeBlocks (s : State) (q : Req) (i : Nat) (bs : List (Block × List PByte)) : Chk (List Byte) :=
  chkAll (fun t j b => if b.2 = [] then .ok t stOk else (blockAccess t q j true b.1 b.2).andThen fun u x => .ok u x.1) i bs s

/-- The first status of a list that is not OK. -/
def firstBad (sts : List Byte) : Byte := (sts.find? fun st => st ≠ stOk).getD stOk

/-- Transpose 32 blocks of 32 elements of w bytes; a tile of which a block could not be read gives nothing. -/
def transposeTile (w : Nat) (bs : List (List PByte)) : List (List PByte) :=
  if bs.any (· == []) then bs.map fun _ => [] else (List.range 32).map fun k => bs.flatMap fun b => (b.drop (k * w)).take w

/-- d + s, rounded once to a format (R207); a poisoned element gives NaN (R213). -/
def addElem (f : Fmt) (a b : Val) : Nat × Flags := f.convert .rne (a.add b)

/-- Add a block into another, element by element. -/
def addBlock (f : Fmt) (src dst : List PByte) : List Byte × List Flags :=
  let x := src.toArray
  let y := dst.toArray
  let es := (List.range 32).map fun n => addElem f (valAt y f 0 n) (valAt x f 0 n)
  (packElems f.bits (es.map (·.1)), es.map (·.2))

/-- Values of block n of a fused store in destination walk order (R208). -/
def fusedVals (c : Face) (d : BitVec 768) (r : HoistRun) (n : Nat) : List Val :=
  let w := ldExtent r.dstLd 0
  (List.range 32).map fun p =>
    let rc : Nat × Nat :=
      if hoXpose d then (n / 32 % w * 32 + p, n / (32 * w) * 32 + n % 32)
      else (n / w, n % w * 32 + p)
    val32 (tget 0 c.accs (accIx (hoBank d) rc.1 rc.2))

/-- A block touches more 64-byte units than it needs (R216). -/
def misaligned (addr len : Nat) : Bool := decide (ceilDiv len 64 < (addr % 64 + len + 63) / 64)

/-- The transfer is costed by elements: transposing copies and fused stores. -/
def byElements (d : BitVec 768) : Bool := hoFused d || hoXpose d

/-- Started hoist transfer of a face that is not done. -/
def openHoist (s : State) (f hid : Nat) : Option (FaceTask × EngOp × HoistRun) :=
  match (s.face f).task with
  | none => none
  | some t =>
    match t.ops.find? fun o => descOpc o.desc == opcHoist && hoHid o.desc == hid && o.started.isSome && !o.done with
    | none => none
    | some o => o.hoist.map fun r => (t, o, r)

/-- Started hoist transfer of a face whose engines have their clock (R276). -/
def runningHoist (s : State) (f hid : Nat) : Option (FaceTask × EngOp × HoistRun) :=
  if (s.face f).gated then none else openHoist s f hid

/-- Cycles of a phase that has moved everything (Table 7.7). -/
def phaseCost (d : BitVec 768) (r : HoistRun) : Nat :=
  let blocks := product (ldExtents r.dstLd)
  if r.mode = 1 then 2 * blocks
  else if byElements d && r.mode ≠ 2 then blocks
  else if hoKind d = 3 && r.mode ≠ 2 then ceilDiv r.counted 256 + 4 * r.total
  else ceilDiv r.counted 256

/-- Count a move (R216) with the ends of its blocks, and go on: to the next move, from reading to writing, or to the end. -/
def hoistAdvance (s : State) (f : Nat) (o : EngOp) (r : HoistRun) (ends : List (List Nat)) (st : Byte) (fl : List Flags) : State :=
  let len := blockLen r.dstLd
  let plain : Bool := r.mode == 2 || !(byElements o.desc)
  let bad := (ends.filter fun e => e.any fun a => misaligned a len).length
  let s0 := hoistDrop s f o.desc
  let s1 := if bad = 0 then s0 else s0.modFace f fun c => { c with hoistMisaligned := c.hoistMisaligned + BitVec.ofNat 32 bad }
  let r1 : HoistRun := { r with moved := r.moved + 1, counted := r.counted + (if plain then (ends.length + bad) * len else 0) }
  let o1 := { o with status := if o.status = stOk then st else o.status, assay := assayAdd o.assay (countFlags fl).word }
  if r1.moved < r1.total then putEngOp s1 f { o1 with hoist := some r1 }
  else
    let r2 := { r1 with spent := r1.spent + phaseCost o.desc r1, counted := 0 }
    if r1.mode = 2 then putEngOp s1 f { o1 with hoist := some { r2 with mode := 3, moved := 0 } }
    else putEngOp s1 f { o1 with done := true, cost := r2.spent, busy := r2.spent, hoist := some r2 }

/-- The partner of a tile of an in-place transposition: none below the diagonal, whose pairs are done from above. -/
def tilePair (r : HoistRun) (n : Nat) : Nat × Nat := (n / ldExtent r.dstLd 0 % (ldExtent r.dstLd 1 / 32), n % ldExtent r.dstLd 0)

/-- Read blocks, make of them what is to be written, write it: the first status that is not OK, and what was read. -/
def moveBlocks (s : State) (q : Req) (srcs dsts : List Block) (make : List (List PByte) → List (List PByte)) :
    Chk (Byte × List (List PByte)) :=
  (readBlocks s q 0 srcs).andThen fun u rs =>
    let bs := rs.map (·.2)
    (writeBlocks u q 128 (dsts.zip (make bs))).andThen fun v ws => .ok v (firstBad (rs.map (·.1) ++ ws), bs)

/-- A move of an in-place transposition: the diagonal tile, or a pair of tiles. -/
def moveInPlace (s : State) (f : Nat) (t : FaceTask) (o : EngOp) (r : HoistRun) : Chk Unit :=
  let q := hoistReq s f t.ctx o
  let len := blockLen r.dstLd
  let m := moveOf o.desc r r.moved
  let (i, j) := tilePair r r.moved
  if j < i then .ok (hoistAdvance s f o r [] stOk []) ()
  else
    let at_ (wr : Bool) (vas : List Nat) : List Block := vas.map (vaBlock r len wr)
    let other := if i = j then [] else m.dsts
    let back := if i = j then [] else m.srcs
    (moveBlocks s q (at_ false m.srcs ++ at_ false other) (at_ true m.dsts ++ at_ true back) fun bs =>
        transposeTile (len / 32) (bs.take 32) ++ transposeTile (len / 32) (bs.drop 32)).andThen fun u x =>
      .ok (hoistAdvance u f o r ((m.dsts ++ back).map fun a => [a]) x.1 []) ()

/-- A move that reads into the staging area. -/
def moveStage (s : State) (f : Nat) (t : FaceTask) (o : EngOp) (r : HoistRun) : Chk Unit :=
  let len := blockLen r.srcLd
  let m := moveOf o.desc r r.moved
  if !m.fetch then .ok (hoistAdvance s f o r [] stOk []) ()
  else
    let n := m.srcs.length
    (moveBlocks s (hoistReq s f t.ctx o) (m.srcs.map (vaBlock r len false))
        ((List.range n).map fun k => stageBlock (faceL s f) r len true (m.slot + k)) id).andThen fun u x =>
      let lost := (x.2.zipIdx.filter fun p => p.1 == []).map fun p => m.slot + p.2
      .ok (hoistAdvance u f o { r with lost := r.lost ++ lost }
        (m.srcs.zipIdx.map fun p => [p.1, r.stx + (m.slot + p.2) * len]) x.1 []) ()

/-- The source blocks of a move, in memory or in the staging area; those lost on their way there are not read again. -/
def sourceBlocks (s : State) (f : Nat) (r : HoistRun) (m : Move) : List Block :=
  let len := blockLen r.srcLd
  if r.mode = 3 then
    (List.range m.srcs.length).map fun k =>
      if r.lost.contains (m.slot + k) then ⟨0, []⟩ else stageBlock (faceL s f) r len false (m.slot + k)
  else m.srcs.map (vaBlock r len false)

/-- The ends of the blocks that a move reads and writes (R216): in a tile, the k-th of each side (log entry 150). -/
def moveEnds (r : HoistRun) (m : Move) : List (List Nat) :=
  if r.mode = 3 then m.dsts.zipIdx.map fun p => [p.1, r.stx + (m.slot + p.2) * blockLen r.dstLd]
  else if m.srcs = [] || !m.fetch then m.dsts.map fun v => [v]
  else (m.srcs.zip m.dsts).map fun p => [p.1, p.2]

/-- A move of a COPY, GATHER or SCATTER to the destination. A repeated entry of a GATHER writes from the copy held (R205). -/
def movePlain (s : State) (f : Nat) (t : FaceTask) (o : EngOp) (r : HoistRun) : Chk Unit :=
  let d := o.desc
  let len := blockLen r.dstLd
  let m := moveOf d r r.moved
  let b := if hoKind d = 1 then r.moved % unitBlocks d r else 0
  let again := !m.fetch && r.mode ≠ 3
  let held := tget [] r.held b
  let change (bs : List (List PByte)) : List (List PByte) :=
    if again then [held] else if hoXpose d then transposeTile (len / 32) bs else bs
  (moveBlocks s (hoistReq s f t.ctx o) (if again then [] else sourceBlocks s f r m) (m.dsts.map (vaBlock r len true)) change).andThen
    fun u x =>
      let r1 := if hoKind d = 1 && !again then { r with held := tset [] r.held b (x.2.headD []) } else r
      .ok (hoistAdvance u f o r1 (if again && held = [] then [] else moveEnds r m) x.1 []) ()

/-- A move of a fused store: a block of the bank, converted. One whose write fails draws nothing and counts nothing: R66 does not say
whether it was converted (DESIGN CHOICE, log entry 149). -/
def moveFused (s : State) (f : Nat) (t : FaceTask) (o : EngOp) (r : HoistRun) : Chk Unit :=
  let d := o.desc
  let len := blockLen r.dstLd
  let m := moveOf d r r.moved
  let c := s.face f
  let (modes, sr) := roundings (hoRnd d) 32 c.srState
  let g : FaceFmt := (faceFmt (ldEtype r.dstLd)).getD ⟨.fp32, false⟩
  let (bs, fl) := storeElems g (fusedVals c d r r.moved) modes
  (writeBlocks s (hoistReq s f t.ctx o) 128 (m.dsts.map fun v => (vaBlock r len true v, cleanBytes bs))).andThen fun u ws =>
    let bad := ws.any stBad
    let v := if bad then u else u.modFace f fun k => { k with srState := sr }
    .ok (hoistAdvance v f o r (moveEnds r m) (firstBad ws) (if bad then [] else fl)) ()

/-- A move of a SCATTER_ADD: consecutive repeats of an entry are added in the hoist's buffer, and a block is written once after the
last of them (R207). A request that fails leaves the block of the whole run unwritten (DESIGN CHOICE, log entry 151). -/
def moveAdd (s : State) (f : Nat) (t : FaceTask) (o : EngOp) (r0 : HoistRun) : Chk Unit :=
  let d := o.desc
  let q := hoistReq s f t.ctx o
  let len := blockLen r0.dstLd
  let n := unitBlocks d r0
  let again := isRepeat r0 (r0.moved / n)
  let more := decide (r0.moved / n + 1 < hoNlist d) && isRepeat r0 (r0.moved / n + 1)
  let r := if !again && r0.moved % n = 0 then { r0 with held := [], dropped := [] } else r0
  let m := moveOf d r r.moved
  let va := m.dsts.headD 0
  let held := tget [] r.held va
  if r.dropped.contains va then .ok (hoistAdvance s f o r [] stOk []) ()
  else
    (readBlocks s q 0 (sourceBlocks s f r m)).andThen fun u src =>
      (if held = [] then readBlocks u q 64 (m.dsts.map (vaBlock r len false)) else .ok u [(stOk, held)]).andThen fun v old =>
        let sts := (src ++ old).map (·.1)
        let x := (src.headD (stOk, [])).2
        let y := (old.headD (stOk, [])).2
        if x = [] || y = [] then .ok (hoistAdvance v f o { r with dropped := va :: r.dropped } [] (firstBad sts) []) ()
        else
          let (bytes, fl) := addBlock (plainFmt (ldEtype r.dstLd)) x y
          let out := cleanBytes bytes
          let r1 := if again || more then { r with held := tset [] r.held va out } else r
          (if more then .ok v [] else writeBlocks v q 128 [(vaBlock r len true va, out)]).andThen fun w ws =>
            .ok (hoistAdvance w f o r1 (if again then [] else moveEnds r m) (firstBad (sts ++ ws)) fl) ()

/-- One move of a transfer; another can follow at once unless it waits. -/
def hoistMove (s : State) (f : Nat) (t : FaceTask) (o : EngOp) (r : HoistRun) : Chk Unit :=
  if r.mode = 1 then moveInPlace s f t o r
  else if r.mode = 2 then moveStage s f t o r
  else if hoFused o.desc then moveFused s f t o r
  else if hoKind o.desc = 3 then moveAdd s f t o r
  else movePlain s f t o r

/-- Up to n moves of a hoist's transfer of a kind. -/
def hoistMoves (f hid : Nat) (ok : BitVec 768 → Bool) : Nat → State → State
  | 0, s => s
  | n + 1, s =>
    match runningHoist s f hid with
    | none => s
    | some (t, o, r) =>
      if !ok o.desc then s
      else
        match hoistMove s f t o r with
        | .ok u _ => hoistMoves f hid ok n u
        | .wait u => u
        | .fail _ u => u

/-- A COPY that is neither a fused store nor a broadcast. -/
def isCopy (d : BitVec 768) : Bool := hoKind d == 0 && !hoFused d && !hoBcast d

/-- HOIST_COPY (R200, R201): up to so many blocks or tiles. -/
def execHoistCopy (f : FaceId) (hid : Fin 2) (blocks : W32) (s : State) : Result :=
  .next (hoistMoves f.val hid.val isCopy blocks.toNat s)

/-- HOIST_GATHER (R203 to R205). -/
def execHoistGather (f : FaceId) (hid : Fin 2) (blocks : W32) (s : State) : Result :=
  .next (hoistMoves f.val hid.val (fun d => hoKind d == 1) blocks.toNat s)

/-- HOIST_SCATTER (R206). -/
def execHoistScatter (f : FaceId) (hid : Fin 2) (blocks : W32) (s : State) : Result :=
  .next (hoistMoves f.val hid.val (fun d => hoKind d == 2) blocks.toNat s)

/-- HOIST_SCATTER_ADD (R207). -/
def execHoistScatterAdd (f : FaceId) (hid : Fin 2) (blocks : W32) (s : State) : Result :=
  .next (hoistMoves f.val hid.val (fun d => hoKind d == 3) blocks.toNat s)

/-- HOIST_FUSED_STORE (R208). -/
def execHoistFusedStore (f : FaceId) (hid : Fin 2) (blocks : W32) (s : State) : Result :=
  .next (hoistMoves f.val hid.val (fun d => hoFused d) blocks.toNat s)

/-! ## Broadcast (R209, R210) -/

/-- The segment of blocks read in walk order: for MX types the elements of each run of dimension 0, then their scale bytes. -/
def segmentOf (l : BitVec 512) (bs : List (List PByte)) : List PByte :=
  let len := blockLen l
  if len = 33 || len = 25 || len = 17 then
    let w := ldExtent l 0
    (List.range (bs.length / w)).flatMap fun k =>
      let rn := (bs.drop (k * w)).take w
      (rn.flatMap fun b => b.take (len - 1)) ++ rn.flatMap fun b => b.drop (len - 1)
  else bs.flatten

/-- HOIST_BROADCAST: read the source and send it to the stacks addressed. A block that could not be read goes poisoned in its place
(R213, log entry 152). -/
def hoistBroadcast (s : State) (f hid : Nat) : State :=
  match runningHoist s f hid with
  | none => s
  | some (t, o, r) =>
    let d := o.desc
    let len := blockLen r.srcLd
    if !hoBcast d || r.moved ≠ 0 then s
    else
      let vas := (List.range r.total).map fun n => blockAddr r.srcLd r.sx (radix (ldExtents r.srcLd) n)
      match readBlocks s (hoistReq s f t.ctx o) 0 (vas.map (vaBlock r len false)) with
      | .wait u => u
      | .fail _ u => u
      | .ok u rs =>
        let v := hoistDrop u f d
        let blocks := rs.map fun x => if x.2 = [] then List.replicate len ((0, true) : PByte) else x.2
        let seg := segmentOf r.srcLd blocks
        let bad := (vas.filter fun a => misaligned a len).length
        let spent := r.spent + ceilDiv ((vas.length + bad) * len) 256
        let w := v.modFace f fun c => { c with hoistMisaligned := c.hoistMisaligned + BitVec.ofNat 32 bad }
        let ns := setBits (hoStacks d)
        let sg : Segment :=
          { lane := hoLane d, window := hoWindow d, data := seg.map (·.1),
            poison := (seg.zipIdx.filter fun p => p.1.2).map (·.2), face := f, hid := hid, sent := w.now }
        let x := ns.foldl (fun (z : State) n => z.modStack n fun k => { k with segments := k.segments ++ [sg] }) w
        putEngOp x f { o with done := ns == [], cost := spent, busy := spent, status := firstBad (rs.map (·.1)),
                              hoist := some { r with moved := r.total, spent := spent, pendingStacks := ns } }

/-- HOIST_BROADCAST (R209). -/
def execHoistBroadcast (f : FaceId) (hid : Fin 2) (s : State) : Result := .next (hoistBroadcast s f.val hid.val)

/-- A PLOAD that takes a lane and window from the broadcast path. -/
def loadsFrom (lane window : Nat) (o : PickOp) : Bool :=
  recOp o.record == opPload && recFn o.record == 0 && !o.done && recSrcVa o.record == window * 8 + lane

/-- The pass of an operation. -/
def passOfOp (o : PickOp) : Option Nat :=
  match o.owner with
  | .pass p _ => some p
  | .slot _ => none

/-- An operation takes a segment: one of its pass for the same sending, or any hoist's that it has not one of yet (R134, R210). -/
def takesSegment (seg : Segment) (o : PickOp) : Bool :=
  loadsFrom seg.lane seg.window o &&
    match seg.pass with
    | some p => passOfOp o == some p && o.turn == seg.turn
    | none => o.segment.isNone

/-- Operations of a list that a segment is for. -/
def segTargets (seg : Segment) (os : List PickOp) : List PickOp := os.filter (takesSegment seg)

/-- A segment of the same pass and lane goes first: a lower window of the same turn, or an earlier turn of the window (R134, log
entry 146). -/
def goesBefore (x seg : Segment) : Bool :=
  x.pass == seg.pass && x.lane == seg.lane &&
    ((x.turn == seg.turn && decide (x.window < seg.window)) || (x.window == seg.window && decide (x.turn < seg.turn)))

/-- A segment may be delivered: those of a pass in increasing window order on a lane, once every pick that the pass gave a matching
PLOAD has started it (R134); those of a hoist once a pick holds one admitted (R210). -/
def segReady (s : State) (n : Nat) (seg : Segment) : Bool :=
  let cols := colsOf n
  match seg.pass with
  | some _ =>
    !((s.stack n).segments.any fun x => goesBefore x seg) &&
    cols.all fun g => (segTargets seg ((s.col g).window ++ (s.col g).seqQ)).all fun o => o.started.isSome
  | none => cols.any fun g => segTargets seg (s.col g).window ≠ []

/-- The bytes of a segment. -/
def segBytes (seg : Segment) : List PByte := seg.data.zipIdx.map fun p => (p.1, seg.poison.contains p.2)

/-- A segment reaches an operation: its slots if it has started, or until then its hand. -/
def takeSegment (s : State) (g : Nat) (o : PickOp) (bs : List PByte) : State :=
  if o.started.isSome then loadSlots s g o bs (loadCost s o) else putOp s g { o with segment := some bs }

/-- A stack has delivered a hoist's segment; the transfer ends with the last of them. -/
def segDelivered (s : State) (n : Nat) (seg : Segment) : State :=
  if seg.pass.isSome then s
  else
    match openHoist s seg.face seg.hid with
    | none => s
    | some (_, o, r) =>
      let ps := r.pendingStacks.filter fun k => k ≠ n
      putEngOp s seg.face { o with done := ps == [], hoist := some { r with pendingStacks := ps } }

/-- SEGMENT_DELIVERY: the first segment of a lane and window that may be delivered goes to every pick that holds a matching PLOAD.
Another pass's segment that waits for its picks is not sent yet and holds nothing up (R134). -/
def segmentDelivery (s : State) (n lane window : Nat) : State :=
  match (s.stack n).segments.find? fun x => x.lane == lane && x.window == window && segReady s n x with
  | none => s
  | some seg =>
    if !(s.stack n).linkUp then s
    else
      let s1 := s.modStack n fun k => { k with segments := k.segments.erase seg }
      let s2 := (colsOf n).foldl (fun (t : State) g =>
        (segTargets seg (t.col g).window).foldl (fun (u : State) o => takeSegment u g o (segBytes seg)) t) s1
      segDelivered s2 n seg

/-- SEGMENT_DELIVERY (R134, R210). -/
def execSegmentDelivery (n : StackId) (lane : BitVec 3) (window : BitVec 9) (s : State) : Result :=
  .next (segmentDelivery s n.val lane.toNat window.toNat)

/-- SEGMENT_TIMEOUT: no stack has delivered the segment within 10 ms. -/
def segmentTimeout (s : State) (f hid : Nat) : State :=
  match openHoist s f hid with
  | none => s
  | some (_, o, r) =>
    let ns := setBits (hoStacks o.desc)
    let old (x : Segment) : Bool := x.pass == none && x.face == f && x.hid == hid
    if hoBcast o.desc && r.moved ≠ 0 && r.pendingStacks == ns &&
       (ns.any fun n => (s.stack n).segments.any fun x => old x && decide (x.sent + 10 * msCycles ≤ s.now)) then
      let t := ns.foldl (fun (u : State) n => u.modStack n fun k => { k with segments := k.segments.filter fun x => !old x }) s
      putEngOp t f { o with done := true, status := stTimeout, hoist := some { r with pendingStacks := [] } }
    else s

/-- SEGMENT_TIMEOUT (R210). -/
def execSegmentTimeout (f : FaceId) (hid : Fin 2) (s : State) : Result := .next (segmentTimeout s f.val hid.val)

/-- HOIST_TRANSFER_DONE: the transfer's writes are acknowledged; its counters move and it leaves the scoreboard. -/
def hoistDone (s : State) (f hid : Nat) : State :=
  match (s.face f).task with
  | none => s
  | some t =>
    match t.ops.findIdx? fun o => descOpc o.desc == opcHoist && hoHid o.desc == hid && o.started.isSome with
    | none => s
    | some i => engineDone s f i

/-- HOIST_TRANSFER_DONE (R214, R217). -/
def execHoistTransferDone (f : FaceId) (hid : Fin 2) (s : State) : Result := .next (hoistDone s f.val hid.val)

end Sys2Proof.Machine
end

