-- ==== Sys2Proof/Machine/Lode.lean ====
section
/-! DEFINITION. Lode passes, cache passes and the reductions at the hub (chapter 05; R235 to R237 of chapter 08). -/

namespace Sys2Proof.Machine

/-! ## Descriptors -/

/-- A lode descriptor (Table 5.1). -/
structure LodeDesc where
  kind : Nat
  wfmt : Nat
  kparts : Nat
  runRows : Nat
  tag : Nat
  nRows : Nat
  k : Nat
  kchunk : Nat
  kstride : Nat
  rowsPerGroup : Nat
  groups : Nat
  mapVa : Nat
  deriving DecidableEq, Repr

def lodeDesc (d : BitVec 512) : LodeDesc :=
  { kind := bitsAt d 1 0, wfmt := bitsAt d 7 4, kparts := bitsAt d 17 8, runRows := bitsAt d 27 18, tag := bitsAt d 63 32,
    nRows := bitsAt d 95 64, k := bitsAt d 119 96, kchunk := bitsAt d 151 128, kstride := bitsAt d 183 160,
    rowsPerGroup := bitsAt d 215 192, groups := bitsAt d 239 224, mapVa := bitsAt d 295 256 }

/-- A slab map or cache map entry (Table 5.2). -/
structure SlabEnt where
  valid : Bool
  frag : Bool
  pick : Nat
  va : Nat
  deriving DecidableEq, Repr

def slabEnt (w : W64) : SlabEnt := ⟨bitAt w 63, bitAt w 62, bitsAt w 51 40, bitsAt w 39 0⟩

/-- A fragment record (Table 5.6). -/
structure Frag where
  rows : Nat
  first : Nat
  pick : Nat
  va : Nat
  deriving DecidableEq, Repr

def fragRec (w : BitVec 128) : Frag := ⟨bitsAt w 119 96, bitsAt w 87 64, bitsAt w 51 40, bitsAt w 39 0⟩

/-- A cache descriptor (Table 5.7). -/
structure CacheDesc where
  cfmt : Nat
  tag : Nat
  heads : Nat
  hdim : Nat
  layers : Nat
  tCap : Nat
  blocks : Nat
  layerBytes : Nat
  cmapVa : Nat
  deriving DecidableEq, Repr

def cacheDesc (d : BitVec 512) : CacheDesc :=
  { cfmt := bitsAt d 3 0, tag := bitsAt d 63 32, heads := bitsAt d 71 64, hdim := bitsAt d 87 80, layers := bitsAt d 103 96,
    tCap := bitsAt d 127 112, blocks := bitsAt d 159 128, layerBytes := bitsAt d 191 160, cmapVa := bitsAt d 231 192 }

/-- Cut bytes into words of n bytes. -/
def wordsOfBytes (n : Nat) (bs : List PByte) : List Nat :=
  (List.range (bs.length / n)).map fun i => pbNat ((bs.drop (n * i)).take n)

/-- The parameters of a pass (Table 5.3, R236). -/
structure PassParams where
  descVa : Nat
  inVa : Nat
  outVa : Nat
  partVa : Nat
  smask : Byte
  afmt : Nat
  ofmt : Nat
  exact : Bool
  cluster : Nat
  layer : Nat := 0
  deriving DecidableEq, Repr

/-- Layout code of a pass: the smallest of 1, 2, 4, 8 slots above the highest bit of the mask (R136). -/
def layoutCode (m : Byte) : Nat :=
  let h := Nat.log2 m.toNat
  if h = 0 then 0 else if h = 1 then 1 else if h < 4 then 2 else 3

/-! ## Expansion (R138) -/

/-- An operation of a pass before it is issued. -/
structure RawOp where
  col : Nat
  group : Nat
  row0 : Nat
  rows : Nat
  load : Bool
  record : BitVec 512
  deriving DecidableEq, Repr

/-- A run of a slab (R130): its first slab row, its rows, its first granule's address, its data and scale granules. -/
structure RunPlace where
  first : Nat
  rows : Nat
  va : Nat
  data : Nat
  scale : Nat
  deriving DecidableEq, Repr

/-- The runs of a slab in order: n of them, from a row and an address on. Run 0 starts at the slab's address; a further run that would
pass the end of its page starts the next one (R130). -/
def runsFrom (w : WFmt) (kstride runRows rows : Nat) : Nat → Nat → Nat → List RunPlace
  | 0, _, _ => []
  | n + 1, first, va =>
    let r := min runRows (rows - first)
    let nd := ceilDiv (r * kstride) w.e
    let ns := scaleRows w nd
    let size := (nd + ns) * 2048
    let a := if 0 < first && decide (2 ^ 24 < va % 2 ^ 24 + size) then (va / 2 ^ 24 + 1) * 2 ^ 24 else va
    ⟨first, r, a % 2 ^ 40, nd, ns⟩ :: runsFrom w kstride runRows rows n (first + r) (a + size)

def slabRuns (w : WFmt) (kstride runRows rows va : Nat) : List RunPlace :=
  runsFrom w kstride runRows rows (ceilDiv rows runRows) 0 va

/-- What a slab's operations do with their results. -/
inductive SlabRole where
  /-- PMV, outputs drained to out_va. -/
  | direct
  /-- PMVK and a PFOLD in a role; role 2 drains into a plane. -/
  | chain (role : Nat) (plane : Nat)
  /-- PMVK drained into a plane. -/
  | plane (q : Nat)
  deriving DecidableEq, Repr

/-- What every operation of a pass carries. -/
def passFields (p : PassParams) (wfmt op : Nat) : PickFields :=
  { op := op, exact := p.exact, wfmt := wfmt, afmt := p.afmt, ofmt := p.ofmt, slots := p.smask }

/-- Drains of outputs of a run to out_va: one for each selected slot. -/
def outDrains (p : PassParams) (wfmt nRows base rows row0 : Nat) : List (BitVec 512) :=
  (selected p.smask).zipIdx.map fun x =>
    mkRecord { passFields p wfmt opPdrain with
      resBase := base + x.2 * rows, nout := rows,
      dstVa := (p.outVa + (x.1 * nRows + row0) * (ofmtOf p.ofmt).bytes) % 2 ^ 40 }

/-- Bytes of a partial slot in a plane (R144). -/
def partSize (exact : Bool) : Nat := if exact then 136 else 8

/-- Address of the partial of a slot and row in a plane. -/
def planeVa (partVa nRows : Nat) (exact : Bool) (q slot row : Nat) : Nat :=
  (partVa + (q * 8 * nRows + slot * nRows + row) * partSize exact) % 2 ^ 40

/-- Drains of partials of a run into a plane: one for each selected slot. -/
def planeDrains (p : PassParams) (wfmt nRows q base rows row0 : Nat) : List (BitVec 512) :=
  (selected p.smask).zipIdx.map fun x =>
    mkRecord { passFields p wfmt opPdrain with
      fn := 2, resBase := base + x.2 * rows, nout := rows,
      slots := if p.exact then BitVec.ofNat 8 ((2 ^ rows - 1) * 2 ^ (x.2 * rows)) else p.smask,
      dstVa := planeVa p.partVa nRows p.exact q x.1 row0 }

/-- The PFOLD of a run. -/
def foldRec (p : PassParams) (wfmt role base rows : Nat) : BitVec 512 :=
  let a := (selected p.smask).length
  mkRecord { passFields p wfmt opPfold with
    fn := role, resBase := base, nout := a * rows,
    slots := if p.exact then BitVec.ofNat 8 (2 ^ (a * rows) - 1) else p.smask }

/-- The records of one run in the order of issue. -/
def runRecs (p : PassParams) (wfmt nRows kstride part base row0 : Nat) (role : SlabRole) (r : RunPlace) : List (BitVec 512) :=
  let mv (op : Nat) := mkRecord { passFields p wfmt op with
    srcVa := (r.va + r.scale * 2048) % 2 ^ 40, auxVa := r.va, k := part, kstride := kstride, nout := r.rows, resBase := base }
  match role with
  | .direct => mv opPmv :: outDrains p wfmt nRows base r.rows row0
  | .chain role q => [mv opPmvk, foldRec p wfmt role base r.rows] ++
      (if role = 3 then outDrains p wfmt nRows base r.rows row0
       else if role = 2 then planeDrains p wfmt nRows q base r.rows row0 else [])
  | .plane q => mv opPmvk :: planeDrains p wfmt nRows q base r.rows row0

/-- The broadcast PLOAD of a pass. -/
def loadRec (p : PassParams) (wfmt lane window part : Nat) : BitVec 512 :=
  mkRecord { passFields p wfmt opPload with srcVa := lane + 8 * window, k := part, imm := layoutCode p.smask }

/-- Runs alternate between the halves of the entries where they fit twice (R138). -/
def doubled (p : PassParams) (L : LodeDesc) : Bool :=
  decide ((selected p.smask).length * L.runRows ≤ 256) && !(p.exact && L.kind == 1)

/-- The operations of one slab or fragment: rows from slab row `first` on, whose row 0 is matrix row `grow`. -/
def slabOps (p : PassParams) (L : LodeDesc) (w : WFmt) (col group lane window part grow first rows va : Nat) (role : SlabRole) :
    List RawOp :=
  let load : RawOp := ⟨col, group, grow + first, rows, true, loadRec p L.wfmt lane window part⟩
  load :: (slabRuns w L.kstride L.runRows rows va).zipIdx.flatMap fun x =>
    let base := if doubled p L then 256 * (x.2 % 2) else 0
    (runRecs p L.wfmt L.nRows L.kstride part base (grow + first + x.1.first) role x.1).map fun rec =>
      ⟨col, group, grow + first + x.1.first, x.1.rows, false, rec⟩

/-! ## Groups: segments, roles and planes (R131, R138, R144) -/

/-- Entries of a group. -/
def groupEnts (L : LodeDesc) (es : Array SlabEnt) (g : Nat) : List SlabEnt :=
  (List.range L.kparts).map fun j => (es[g * L.kparts + j]?).getD ⟨false, false, 0, 0⟩

/-- Part j starts a partial: a fragmented part, or the first part of a segment. -/
def startsPartial (es : List SlabEnt) (j : Nat) : Bool :=
  match es[j]? with
  | none => false
  | some e => e.frag || j == 0 || ((es[j - 1]?).any fun f => f.frag)

/-- Partials of a group at the hub, and the plane of part j. -/
def partialCount (es : List SlabEnt) : Nat := ((List.range es.length).filter (startsPartial es)).length
def planeOf (es : List SlabEnt) (j : Nat) : Nat := ((List.range (j + 1)).filter (startsPartial es)).length - 1

/-- The role of a part that is no fragment (fold_role of R138). -/
def partRole (es : List SlabEnt) (j : Nat) : SlabRole :=
  let lo := startsPartial es j
  let hi := match es[j + 1]? with
    | none => true
    | some e => e.frag
  let whole := es.all fun e => !e.frag
  if lo && hi then (if whole then .direct else .plane (planeOf es j))
  else if lo then .chain 0 0
  else if hi then .chain (if whole then 3 else 2) (planeOf es j)
  else .chain 1 0

/-- Consecutive live picks of one stack in ascending index, fenced and retired ones skipped (R131, check 8). -/
def consecutive (s : State) : List SlabEnt → Bool
  | a :: b :: t =>
    (a.frag || b.frag || (decide (a.pick < b.pick) &&
      (List.range (b.pick - a.pick - 1)).all fun i => !(pickLive s (a.pick + 1 + i)))) && consecutive s (b :: t)
  | _ => true

/-- The ring's wrap is not crossed: no part after P511 lies on a pick of lower index, across a fragment either (R131, log entry 75). -/
def noWrap : List SlabEnt → Bool
  | [] => true
  | a :: t => (a.frag || pickOf a.pick ≠ 511 || t.all fun b => b.frag || pickOf b.pick == 511) && noWrap t

def oneStack (es : List SlabEnt) : Bool :=
  let ps := (es.filter fun e => !e.frag).map fun e => stackOf e.pick
  ps.all fun n => n == ps.headD 0

/-- Rows of a group, and its first matrix row. -/
def groupRows (L : LodeDesc) (g : Nat) : Nat := min ((g + 1) * L.rowsPerGroup) L.nRows - g * L.rowsPerGroup

/-- A fragment list of R147: its fragments cover the rows without gap or overlap, in increasing order. -/
def fragsCover (rows : Nat) : Nat → List Frag → Bool
  | at_, [] => at_ == rows
  | at_, f :: fs => decide (1 ≤ f.rows) && f.first == at_ && fragsCover rows (at_ + f.rows) fs

/-- Elements of part j. -/
def partLen (L : LodeDesc) (j : Nat) : Nat := min ((j + 1) * L.kchunk) L.k - j * L.kchunk

/-- Lane and window of part j at a pick (R135). -/
def laneWindow (L : LodeDesc) (j pick : Nat) : Nat × Nat := if L.kind = 1 then (j % 8, j) else (pickOf pick % 8, 0)

/-- Every operation of a lode pass: the slabs in increasing order, then the fragments behind them (R138, R148). -/
def lodeOps (p : PassParams) (L : LodeDesc) (w : WFmt) (es : Array SlabEnt) (fs : List (Nat × List Frag)) : List RawOp :=
  let one (i : Nat) (e : SlabEnt) : List RawOp :=
    if e.frag then []
    else
      let j := i % L.kparts
      let g := i / L.kparts
      let (lane, win) := laneWindow L j e.pick
      let role := if L.kind = 0 then .direct else partRole (groupEnts L es g) j
      slabOps p L w e.pick g lane win (partLen L j) (g * L.rowsPerGroup) 0 (groupRows L g) e.va role
  let frag (x : Nat × List Frag) : List RawOp :=
    let j := x.1 % L.kparts
    let g := x.1 / L.kparts
    let role : SlabRole := if L.kind = 0 then .direct else .plane (planeOf (groupEnts L es g) j)
    x.2.flatMap fun f =>
      let (lane, win) := laneWindow L j f.pick
      slabOps p L w f.pick g lane win (partLen L j) (g * L.rowsPerGroup) f.first f.rows f.va role
  (es.toList.zipIdx.flatMap fun x => one x.2 x.1) ++ fs.flatMap frag

/-- Rows that the hub reduces, with how many partials they have. -/
def lodeHub (L : LodeDesc) (es : Array SlabEnt) : List HubRows :=
  if L.kind = 0 then []
  else
    (List.range L.groups).filterMap fun g =>
      let ge := groupEnts L es g
      if (ge.any fun e => e.frag) && 0 < groupRows L g then some ⟨g * L.rowsPerGroup, groupRows L g, partialCount ge⟩ else none

/-! ## What a pass is to do -/

/-- A broadcast segment that a pass sends: stack, lane, window, which sending of these it is, bytes. -/
structure SegPlan where
  stack : Nat
  lane : Nat
  window : Nat
  turn : Nat
  bytes : List PByte
  deriving DecidableEq, Repr

/-- A checked and expanded pass. -/
structure Plan where
  kind : PassKind
  nRows : Nat
  ops : List RawOp
  hub : List HubRows
  segs : List SegPlan
  tag : W16
  deriving DecidableEq, Repr

/-- A broadcast PLOAD of a pass at a pick, by its address. -/
def isBroadcast (o : RawOp) : Bool := o.load && recFn o.record == 0

/-- How many earlier broadcast PLOADs of the pass at the same pick name the lane and window of operation i (log entry 146). -/
def loadTurn (ops : List RawOp) (i : Nat) : Nat :=
  match ops[i]? with
  | none => 0
  | some o => ((ops.take i).filter fun x => isBroadcast x && x.col == o.col && recSrcVa x.record == recSrcVa o.record).length

/-- Each operation with its turn; only holders of several slabs of one window have turns above 0. -/
def withTurns (ops : List RawOp) : List (RawOp × Nat) :=
  ops.zipIdx.map fun x => (x.1, if isBroadcast x.1 then loadTurn ops x.2 else 0)

/-- A broadcast segment to send, by stack, lane, window and turn. -/
structure SegKey where
  stack : Nat
  lane : Nat
  window : Nat
  turn : Nat
  deriving DecidableEq, Repr

/-- The segments that the broadcast PLOADs of a pass ask for, each once. -/
def broadcastKeys (ops : List RawOp) : List SegKey :=
  (((withTurns ops).filter fun x => isBroadcast x.1).map fun x =>
    ⟨stackOf x.1.col, recSrcVa x.1.record % 8, recSrcVa x.1.record / 8, x.2⟩).eraseDups

/-- The segments with their bytes, by window. -/
def segPlans (ops : List RawOp) (bytes : Nat → List PByte) : List SegPlan :=
  (broadcastKeys ops).map fun k => ⟨k.stack, k.lane, k.window, k.turn, bytes k.window⟩

/-- Window bytes of a lode pass out of the activations at act_va (R134, R135). A KSPLIT window whose first element is no multiple of 32
takes its scale bytes from block ⌊first ÷ 32⌋ of the slot on: no check of Table 5.4 excludes it, and no rule states them (DESIGN
CHOICE, log entry 147). -/
def lodeSegment (p : PassParams) (L : LodeDesc) (act : Array PByte) (window : Nat) : List PByte :=
  let b := (afmtOf p.afmt).bytes
  let per := loadPart L.k p.afmt
  let lo := if L.kind = 1 then window * L.kchunk else 0
  let n := if L.kind = 1 then partLen L window else L.k
  (List.range (selected p.smask).length).flatMap fun a =>
    (List.range (n * b)).map (fun i => act.getD (a * per + lo * b + i) (0, false)) ++
    (if p.afmt = 3 then (List.range (ceilDiv n 32)).map fun i => act.getD (a * per + L.k * b + lo / 32 + i) (0, false) else [])

/-- A LICENCE refusal is logged with the feature (R5). -/
def logLicence (s : State) (code : W16) (ctx : BitVec 6) (tag : Nat) : State :=
  logRefused s (.unit code) ctx stLicence 2 (BitVec.ofNat 16 tag)

/-- Check 3 of Table 5.4. -/
def exactCheck (s : State) (p : PassParams) (ctx : BitVec 6) (tag : Nat) : Chk Unit :=
  if p.exact && !licensed s 1 then .fail stLicence (logLicence s codeForeman ctx tag) else .ok s ()

/-- Check 4 of Table 5.4 for a lode. -/
def lodeCheck4 (p : PassParams) (L : LodeDesc) : Bool :=
  let a := (selected p.smask).length
  p.smask ≠ 0 && L.nRows ≠ 0 && L.k ≠ 0 && L.groups ≠ 0 && L.rowsPerGroup ≠ 0 && L.kparts ≠ 0 && L.runRows ≠ 0 &&
    (L.kind ≠ 0 || (L.kparts == 1 && L.kchunk == L.k)) && decide (L.groups * L.kparts ≤ 4096) &&
    decide (L.kchunk * (L.kparts - 1) < L.k) && decide (L.k ≤ L.kchunk * L.kparts) &&
    decide (min L.kchunk L.k ≤ slotCapacity (layoutCode p.smask) p.afmt) && decide (a * L.runRows ≤ 512) &&
    (!(p.exact && L.kind == 1) || decide (a * L.runRows ≤ 8)) && L.mapVa % 8 == 0

/-- Check 5: the bytes read translate and lie in face SRAM or DRAM pages. -/
def inputCheck (s : State) (r : Req) (rs : List (Nat × Nat)) : Chk Unit :=
  let (t, st, as) := mapRanges s r.code r.tag r.ctx.toNat (rs.map fun x => (x.1, x.2, false))
  if st ≠ stOk then .fail st t
  else
    match as.find? fun a => isQueuePage (a.pa / 2 ^ 24) with
    | some _ => .fail stProt (placeRefused t (.unit r.code) r.ctx.toNat ((rs.headD (0, 0)).1) stProt r.tag)
    | none => .ok t ()

/-- Who the shaft sequencer of stack n is to its reads for an operation of a step. -/
def seqReq (n : Nat) (o : StepOp) (ctx : BitVec 6) (tag : W16) : Req := ⟨opWaiter o, codeSequencer n, ctx, tag⟩

/-- The eight shaft sequencers make a read in turn, each with its own code and as access 8 k + n (R127); what S0 read stands. The first
that fails gives the status (log entry 29). -/
def eachSequencer (s : State) (o : StepOp) (ctx : BitVec 6) (tag : W16) (k : Nat) (f : State → Req → Nat → Chk (List PByte)) :
    Chk (List PByte) :=
  (List.range 8).foldl (fun (x : Chk (List PByte)) n =>
    x.andThen fun t bs =>
      match f t (seqReq n o ctx tag) (8 * k + n) with
      | .ok u cs => .ok u (if n = 0 then cs else bs)
      | .wait u => .wait u
      | .fail st u => .fail st u) (.ok s [])

/-- Check 7: the fragment lists, in the order of the map, as accesses k on; a header with no legal count is kept without records. -/
def fetchFrags (o : StepOp) (ctx : BitVec 6) (tag : W16) : Nat → List (Nat × Nat) → State → Chk (List (Nat × Option (List Frag)))
  | _, [], s => .ok s []
  | k, (i, va) :: rest, s =>
    (eachSequencer s o ctx tag k fun t r j => cleanOnly (fetchOne t r j va 8)).andThen fun t h =>
      let n := pbNat h
      if n = 0 || 64 < n then (fetchFrags o ctx tag (k + 2) rest t).andThen fun u fs => .ok u ((i, none) :: fs)
      else
        (eachSequencer t o ctx tag (k + 1) fun t r j => cleanOnly (fetchRange t r j (va + 8) (16 * n))).andThen fun u bs =>
          (fetchFrags o ctx tag (k + 2) rest u).andThen fun v fs =>
            .ok v ((i, some ((wordsOfBytes 16 bs).map fun w => fragRec (BitVec.ofNat 128 w))) :: fs)

/-- Checks 8 to 10 of Table 5.4 for a lode. -/
def lodeMapCheck (s : State) (L : LodeDesc) (es : Array SlabEnt) (fs : List (Nat × Option (List Frag))) : Byte :=
  let ok8 := (es.toList.all fun e => e.valid) &&
    (fs.all fun x => match x.2 with
      | none => false
      | some l => fragsCover (groupRows L (x.1 / L.kparts)) 0 l) &&
    (L.kind == 0 || (List.range L.groups).all fun g =>
      let ge := groupEnts L es g
      oneStack ge && consecutive s ge && noWrap ge)
  let named := (es.toList.filter fun e => !e.frag).map (·.pick) ++ fs.flatMap fun x => (x.2.getD []).map (·.pick)
  if !ok8 then stMode
  else if named.any fun g => !(pickLive s g) then stFenced
  else if named.any fun g => (s.col g).mode ≠ .pick then stMode
  else stOk

/-- The tag that a pass's records carry: its descriptor's, or where that is 0 its operation's (Tables 5.1, 5.7, 8.5, 15.3). -/
def passTag (desc : Nat) (op : W16) : W16 := if desc % 65536 = 0 then op else BitVec.ofNat 16 desc

/-- Check a lode pass and expand it (R137, R138). -/
def lodePlan (s : State) (o : StepOp) (ctx : BitVec 6) (tag0 : W16) (p : PassParams) : Chk Plan :=
  (eachSequencer s o ctx tag0 0 fun t r j => cleanOnly (fetchOne t r j p.descVa 64)).andThen fun s1 d =>
    let L := lodeDesc (BitVec.ofNat 512 (pbNat d))
    let tag := passTag L.tag tag0
    match wfmtOf L.wfmt with
    | none => .fail stMode s1
    | some w =>
      (Chk.guard s1 (decide (L.kind ≤ 1) && decide (p.ofmt ≤ 2)) stMode).andThen fun s1 _ =>
      (exactCheck s1 p ctx tag.toNat).andThen fun s2 _ =>
      (Chk.guard s2 (lodeCheck4 p L) stOob).andThen fun s2 _ =>
      (inputCheck s2 (seqReq 0 o ctx tag) [(p.inVa, (selected p.smask).length * loadPart L.k p.afmt)]).andThen fun s3 _ =>
      (eachSequencer s3 o ctx tag 1 fun t r j => cleanOnly (fetchRange t r j L.mapVa (8 * (L.groups * L.kparts)))).andThen fun s4 m =>
        let es : Array SlabEnt := ((wordsOfBytes 8 m).map fun x => slabEnt (BitVec.ofNat 64 x)).toArray
        let lists := es.toList.zipIdx.filterMap fun x => if x.1.valid && x.1.frag then some (x.2, x.1.va) else none
        (Chk.guard s4 (lists.all fun x => x.2 % 8 == 0) stOob).andThen fun s4 _ =>
        (fetchFrags o ctx tag 3 lists s4).andThen fun s5 fs =>
          let st := lodeMapCheck s5 L es fs
          if st ≠ stOk then .fail st s5
          else
            let ops := lodeOps p L w es (fs.map fun x => (x.1, x.2.getD []))
            let n := ((ops.head?).map fun x => stackOf x.col).getD 0
            (fetchRange s5 (seqReq n o ctx tag) 16 p.inVa ((selected p.smask).length * loadPart L.k p.afmt)).andThen fun s6 act =>
              let a := act.toArray
              .ok s6 { kind := .lode, nRows := L.nRows, ops := ops, hub := lodeHub L es, tag := tag,
                       segs := segPlans ops (lodeSegment p L a) }

/-! ## Cache passes (R150 to R154) -/

/-- Picks of a head in each stack. -/
def headPicks (c : CacheDesc) : Nat := 512 / c.heads

/-- Pick-local blocks that pick u of a head holds in stack n (R151). -/
def localBlocks (c : CacheDesc) (n u : Nat) : Nat := ceilDiv (c.blocks - (8 * u + n)) (8 * headPicks c)

/-- Checks 2 and 4 of Table 5.4 for a cache pass. A value run has 64 rows, so an exact value pass fails its limit of 8
(log entry 31). -/
def cacheCheck2 (c : CacheDesc) (kind : PassKind) (p : PassParams) : Bool :=
  (c.cfmt == 5 || c.cfmt == 6) && (if kind = .score then p.ofmt == 3 else decide (p.ofmt ≤ 2))
def cacheCheck4 (c : CacheDesc) (kind : PassKind) (p : PassParams) : Bool :=
  let a := (selected p.smask).length
  let most := localBlocks c 0 0
  p.smask ≠ 0 && [1, 2, 4, 8, 16, 32, 64].contains c.heads && c.hdim == 128 && c.layers ≠ 0 && decide (p.layer < c.layers) &&
    c.tCap ≠ 0 && c.tCap % 64 == 0 && c.layerBytes % 2048 == 0 && c.cmapVa % 8 == 0 && decide (most * 32 ≤ c.tCap) &&
    (kind == .score || (decide (most * 32 ≤ slotCapacity (layoutCode p.smask) 3) && !(p.exact && decide (8 < a * 64)))) &&
    decide (a * 64 ≤ 512)

/-- A share of a head: head, stack, pick of the head, and the map entry of the pick that holds it. -/
structure Share where
  head : Nat
  stack : Nat
  u : Nat
  home : Nat
  ent : SlabEnt
  blocks : Nat
  deriving DecidableEq, Repr

/-- The shares that hold blocks, by head, stack and pick. -/
def shares (c : CacheDesc) (es : Array SlabEnt) : List Share :=
  (List.range c.heads).flatMap fun h => (List.range 8).flatMap fun n => (List.range (headPicks c)).filterMap fun u =>
    let g := n * 512 + headPicks c * h + u
    let b := localBlocks c n u
    if b = 0 then none else some ⟨h, n, u, g, (es[g]?).getD ⟨false, false, 0, 0⟩, b⟩

/-- Block number of pick-local block t of a share. -/
def blockNo (c : CacheDesc) (x : Share) (t : Nat) : Nat := 8 * (headPicks c * t + x.u) + x.stack

/-- Base of a layer in a pick's region, and its runs (Table 5.8). -/
def keyRunVa (c : CacheDesc) (p : PassParams) (x : Share) (k : Nat) : Nat := x.ent.va + p.layer * c.layerBytes + k * 5 * 2048
def valueData (c : CacheDesc) : Nat := 64 * c.tCap / 2048
def valueRunVa (c : CacheDesc) (p : PassParams) (x : Share) (v : Nat) : Nat :=
  x.ent.va + p.layer * c.layerBytes + (c.tCap / 64) * 5 * 2048 + v * (valueData c + ceilDiv (valueData c) 32) * 2048

/-- Address of a slot's block of scores or probabilities (R153). -/
def scoreVa (c : CacheDesc) (base h slot b : Nat) : Nat := (base + ((h * 8 + slot) * c.blocks + b) * 33) % 2 ^ 40

/-- The operations of a share in a score pass. -/
def scoreOps (p : PassParams) (c : CacheDesc) (x : Share) : List RawOp :=
  let row0 := x.home * 65536
  let q := { p with afmt := 3 }
  let load : RawOp := ⟨x.ent.pick, x.home, row0, 32 * x.blocks, true, loadRec q c.cfmt (x.head % 8) x.head 128⟩
  load :: (List.range (ceilDiv (32 * x.blocks) 64)).flatMap fun k =>
    let rows := min 64 (32 * x.blocks - 64 * k)
    let va := keyRunVa c p x k
    let mv := mkRecord { passFields q c.cfmt opPmv with
      srcVa := (va + 2048) % 2 ^ 40, auxVa := va % 2 ^ 40, k := 128, kstride := 128, nout := rows }
    let drains := (selected p.smask).zipIdx.flatMap fun y => (List.range (rows / 32)).map fun i =>
      mkRecord { passFields q c.cfmt opPdrain with
        resBase := y.2 * rows + 32 * i, nout := 32, dstVa := scoreVa c p.outVa x.head y.1 (blockNo c x (2 * k + i)) }
    (mv :: drains).map fun r => ⟨x.ent.pick, x.home, row0 + 64 * k, rows, false, r⟩

/-- A share on its own pick takes part in the chain of its head and stack; a substitute's does not (R154). -/
def onChain (x : Share) : Bool := x.ent.pick == x.home

/-- The partials of a head, each by its first block: the chains of the stacks and the substitutes, in order of K (R144). -/
def headPartials (c : CacheDesc) (xs : List Share) (h : Nat) : List Nat :=
  let mine := xs.filter fun x => x.head == h
  let chains := (List.range 8).filterMap fun n => (mine.find? fun x => x.stack == n && onChain x).map fun x => blockNo c x 0
  let subs := (mine.filter fun x => !(onChain x)).map fun x => blockNo c x 0
  (List.range c.blocks).filter fun b => chains.contains b || subs.contains b

/-- Role of a share: its place in the chain of its head and stack, or a plane of its own. -/
def shareRole (c : CacheDesc) (xs : List Share) (x : Share) : SlabRole :=
  let idx (b : Nat) : Nat := (headPartials c xs x.head).idxOf b
  if onChain x then
    let ch := xs.filter fun y => y.head == x.head && y.stack == x.stack && onChain y
    let first := (ch.head?).getD x
    let last := (ch.getLast?).getD x
    let q := idx (blockNo c first 0)
    if ch.length = 1 then .plane q
    else if x = first then .chain 0 q
    else if x = last then .chain 2 q
    else .chain 1 q
  else .plane (idx (blockNo c x 0))

/-- The operations of a share in a value pass. -/
def valueOps (p : PassParams) (c : CacheDesc) (xs : List Share) (x : Share) : List RawOp :=
  let q := { p with afmt := 3 }
  let nRows := c.heads * 128
  let loads : List RawOp := (selected p.smask).flatMap fun slot => (List.range x.blocks).map fun t =>
    let f : PickFields := { passFields q c.cfmt opPload with
      fn := 2, slots := BitVec.ofNat 8 (2 ^ slot), srcVa := scoreVa c p.inVa x.head slot (blockNo c x t), k := 32, voff := 32 * t,
      imm := layoutCode p.smask }
    ⟨x.ent.pick, x.head, x.head * 128, 128, true, mkRecord f⟩
  let nd := valueData c
  loads ++ (List.range 2).flatMap fun v =>
    let place : RunPlace := ⟨64 * v, 64, valueRunVa c p x v % 2 ^ 40, nd, ceilDiv nd 32⟩
    (runRecs q c.cfmt nRows c.tCap (32 * x.blocks) 0 (x.head * 128 + 64 * v) (shareRole c xs x) place).map fun r =>
      ⟨x.ent.pick, x.head, x.head * 128 + 64 * v, 64, false, r⟩

/-- The ranges that a cache pass reads at in_va. -/
def cacheInput (p : PassParams) (c : CacheDesc) (kind : PassKind) : List (Nat × Nat) :=
  if kind = .score then (selected p.smask).map fun x => (p.inVa + x * c.heads * 132, c.heads * 132)
  else if c.blocks = 0 then []
  else (List.range c.heads).flatMap fun h => (selected p.smask).map fun x => (scoreVa c p.inVa h x 0, c.blocks * 33)

/-- Read the queries of every head for the selected slots, as accesses k on. -/
def fetchQueries (r : Req) : Nat → List (Nat × Nat) → State → Chk (List PByte)
  | _, [], s => .ok s []
  | k, (va, n) :: rest, s =>
    (fetchRange s r k va n).andThen fun t bs => (fetchQueries r (k + 1) rest t).andThen fun u more => .ok u (bs ++ more)

/-- A query in block-inline form, four blocks of 32 elements and their scale byte (R236), as a segment carries it: the 128 elements,
then the four scale bytes (R107, R134). -/
def querySegment (a : Array PByte) (at_ : Nat) : List PByte :=
  (List.range 132).map fun j =>
    let i := if j < 128 then j / 32 * 33 + j % 32 else (j - 128) * 33 + 32
    a.getD (at_ + i) (0, false)

/-- Check a cache pass and expand it (R153, R154, R236). -/
def cachePlan (s : State) (o : StepOp) (ctx : BitVec 6) (tag0 : W16) (kind : PassKind) (p : PassParams) : Chk Plan :=
  (eachSequencer s o ctx tag0 0 fun t r j => cleanOnly (fetchOne t r j p.descVa 64)).andThen fun s1 d =>
    let c := cacheDesc (BitVec.ofNat 512 (pbNat d))
    let tag := passTag c.tag tag0
    (Chk.guard s1 (cacheCheck2 c kind p) stMode).andThen fun s1 _ =>
    (exactCheck s1 p ctx tag.toNat).andThen fun s2 _ =>
    (Chk.guard s2 (cacheCheck4 c kind p) stOob).andThen fun s2 _ =>
    (inputCheck s2 (seqReq 0 o ctx tag) (cacheInput p c kind)).andThen fun s3 _ =>
    (eachSequencer s3 o ctx tag 1 fun t r j => cleanOnly (fetchRange t r j c.cmapVa 32768)).andThen fun s4 m =>
      let es : Array SlabEnt := ((wordsOfBytes 8 m).map fun x => slabEnt (BitVec.ofNat 64 x)).toArray
      let named := es.toList.map (·.pick)
      (Chk.guard s4 (es.toList.all fun e => e.valid) stMode).andThen fun s4 _ =>
      (Chk.guard s4 (named.all fun g => pickLive s4 g) stFenced).andThen fun s4 _ =>
      (Chk.guard s4 (named.all fun g => (s4.col g).mode == .pick) stMode).andThen fun s4 _ =>
        let xs := shares c es
        if kind = .score then
          let n := ((xs.head?).map fun x => stackOf x.ent.pick).getD 0
          (fetchQueries (seqReq n o ctx tag) 16 (cacheInput p c kind) s4).andThen fun s5 bs =>
            let a := bs.toArray
            let ops := xs.flatMap (scoreOps p c)
            let seg (h : Nat) : List PByte := (List.range (selected p.smask).length).flatMap fun i =>
              querySegment a ((i * c.heads + h) * 132)
            .ok s5 { kind := kind, nRows := 0, ops := ops, hub := [], tag := tag, segs := segPlans ops seg }
        else
          .ok s4 { kind := kind, nRows := c.heads * 128, ops := xs.flatMap (valueOps p c xs), segs := [], tag := tag,
                   hub := if c.blocks = 0 then [] else
                     (List.range c.heads).map fun h => ⟨h * 128, 128, (headPartials c xs h).length⟩ }

/-! ## Starting a pass -/

/-- Put the operations of a pass into the sequencer streams of their picks; the base dies wake for them (R406). -/
def issueOps (s : State) (pid : Nat) (ctx : BitVec 6) (tag : W16) (ops : List RawOp) : State :=
  (withTurns ops).zipIdx.foldl (fun t x =>
    let (u, t1) := (wakeDomain t (18 + stackOf x.1.1.col)).newReq
    t1.modCol x.1.1.col fun c =>
      { c with seqQ := c.seqQ ++ [{ uid := u, record := x.1.1.record, ctx := ctx, tag := tag, owner := .pass pid x.2,
                                    turn := x.1.2 }] }) s

/-- Hold the segments of a pass for their stacks. -/
def holdSegments (s : State) (pid : Nat) (gs : List SegPlan) : State :=
  gs.foldl (fun t g => t.modStack g.stack fun k =>
    { k with segments := k.segments ++ [{ lane := g.lane, window := g.window, turn := g.turn, data := g.bytes.map (·.1),
                                          poison := (g.bytes.zipIdx.filter fun x => x.1.2).map (·.2), pass := some pid }] }) s

/-- Start a checked pass: its operations are issued and its book opened. -/
def startPass (s : State) (q : Nat) (ctx : BitVec 6) (o : StepOp) (p : PassParams) (x : Plan) : State :=
  let (pid, s1) := s.newReq
  let pass : Pass :=
    { id := pid, q := q, seq := o.seq, kind := x.kind, ctx := ctx, req := pid, exact := p.exact, ofmt := BitVec.ofNat 2 p.ofmt,
      smask := p.smask, cluster := p.cluster, nRows := x.nRows, outVa := p.outVa, partVa := p.partVa,
      planes := x.hub.foldl (fun m h => max m h.parts) 0, hubRows := x.hub, started := s.now, order := o.order, tag := x.tag,
      ops := x.ops.zipIdx.map fun y => { idx := y.2, col := y.1.col, group := y.1.group, row0 := y.1.row0, rows := y.1.rows,
                                         load := y.1.load } }
  let s3 := { opDrop s1 o with passes := s1.passes ++ [pass] }
  putStepOp (holdSegments (issueOps s3 pid ctx x.tag x.ops) pid x.segs) q { o with begun := true }

/-- Passes are expanded in the order of their dispatch (R140): no pass dispatched earlier is still to start. -/
def passTurn (s : State) (order : Nat) : Bool :=
  !(s.queues.any fun p => match p.2.step with
    | none => false
    | some x => x.ops.any fun o => !o.begun && !o.done && decide (o.order < order) &&
        [sopLode, sopScore, sopValue].contains (hdrOp (stepDesc x o.index)))

/-- What comes of a plan: the pass starts, waits to be read, or ends refused. -/
def planResult (q : Nat) (ctx : BitVec 6) (o : StepOp) (p : PassParams) : Chk Plan → State
  | .ok t x => startPass t q ctx o p x
  | .wait t => t
  | .fail st t => stepOpDone (opDrop t o) q o.seq st 0

/-- Parameters of a LODE (R235). -/
def lodeParams (d : BitVec 512) (mask : Byte) : PassParams :=
  { descVa := bitsAt d 167 128, inVa := bitsAt d 207 168, outVa := bitsAt d 247 208, partVa := bitsAt d 287 248, smask := mask,
    afmt := bitsAt d 297 296, ofmt := bitsAt d 299 298, exact := bitAt d 300, cluster := bitsAt d 302 301 }

/-- The slot mask of a LODE: direct, or the byte at smask_va that the foreman read at its dispatch (R235). -/
def lodeMask (s : State) (x : StepRun) (o : StepOp) (d : BitVec 512) : Chk Byte :=
  if bitAt d 303 then (maskRead s x o d).andThen fun t bs => .ok t (BitVec.ofNat 8 (pbNat bs))
  else .ok s (BitVec.ofNat 8 (bitsAt d 295 288))

/-- LODE (R136, R235). -/
def lodeStart (s : State) (q : Nat) : State :=
  match nextStepOp s q sopLode with
  | none => s
  | some (x, o, d) =>
    if passTurn s o.order then
      match lodeMask s x o d with
      | .wait t => t
      | .fail st t => stepOpDone (opDrop t o) q o.seq st 0
      | .ok t m =>
        if m = 0 && bitAt d 303 then stepOpDone (opDrop t o) q o.seq stOk 0
        else planResult q x.ctx o (lodeParams d m) (lodePlan t o x.ctx (hdrTag d) (lodeParams d m))
    else s

/-- LODE (R136). -/
def execLode (q : QueueId) (s : State) : Result := .next (lodeStart s q.val)

/-- Parameters of a SCORE or VALUE (R236). -/
def cacheParams (d : BitVec 512) : PassParams :=
  { descVa := bitsAt d 167 128, inVa := bitsAt d 207 168, outVa := bitsAt d 247 208, partVa := bitsAt d 287 248,
    smask := BitVec.ofNat 8 (bitsAt d 295 288), layer := bitsAt d 303 296, exact := bitAt d 304, ofmt := bitsAt d 306 305,
    cluster := bitsAt d 308 307, afmt := 3 }

/-- SCORE and VALUE (R153, R154). -/
def cacheStart (s : State) (q : Nat) (op : Nat) (kind : PassKind) : State :=
  match nextStepOp s q op with
  | none => s
  | some (x, o, d) =>
    if passTurn s o.order then
      planResult q x.ctx o (cacheParams d) (cachePlan s o x.ctx (hdrTag d) kind (cacheParams d))
    else s

/-- SCORE (R153). -/
def execScore (q : QueueId) (s : State) : Result := .next (cacheStart s q.val sopScore .score)

/-- VALUE (R154). -/
def execValuePass (q : QueueId) (s : State) : Result := .next (cacheStart s q.val sopValue .value)

/-! ## Reductions (R144 to R146) -/

/-- Every operation of a pass has completed. -/
def passOpsDone (p : Pass) : Bool := p.ops.all fun x => x.done

/-- A row that some operation failed on, other than by POISON, keeps its outputs (R139, R149). -/
def rowFailed (p : Pass) (r : Nat) : Bool :=
  p.ops.any fun x => x.status ≠ stOk && x.status ≠ stPoison && decide (x.row0 ≤ r) && decide (r < x.row0 + x.rows)

/-- Slots and rows that the hub reduces. -/
def hubItems (p : Pass) : List (Nat × Nat) :=
  (p.hubRows.flatMap fun h => (List.range h.rows).map (h.row0 + ·)).flatMap fun r =>
    if rowFailed p r then [] else (selected p.smask).map fun x => (x, r)

/-- The partials of an item, and its output, as ranges. -/
def itemReads (p : Pass) (x : Nat × Nat) : List (Nat × Nat) :=
  (List.range p.planes).map fun q => (planeVa p.partVa p.nRows p.exact q x.1 x.2, partSize p.exact)
def itemOut (p : Pass) (x : Nat × Nat) : Nat × Nat :=
  let b := (ofmtOf p.ofmt.toNat).bytes
  ((p.outVa + (x.1 * p.nRows + x.2) * b) % 2 ^ 40, b)

/-- The value of an item from the bytes of its partials, its hist bit, and the words read. Poisoned partials give NaN. -/
def reduceFast (parts : List (List PByte)) : Val × Bool × Nat :=
  let vs := parts.map fun b => if anyPoison b then (Val.nan, false) else wordFast (BitVec.ofNat 64 (pbNat b))
  match vs with
  | [] => (.zero, false, 0)
  | v :: t =>
    let r := t.foldl foldAdd v
    (r.1, r.2, parts.length)

/-- Header and payload words of an exact partial in a 136-byte slot. -/
def slotWords (b : List PByte) : List Nat :=
  let ws := wordsOfBytes 8 b
  ws.take (1 + ws.headD 0 % 32)

def reduceExact (parts : List (List PByte)) : Val × Bool × Nat :=
  let xs := parts.map fun b => if anyPoison b then ({ flags := 1 } : Exact) else exactOf (slotWords b)
  ((xs.foldl Exact.add {}).value, false, (parts.map fun b => (slotWords b).length).sum)

/-- One output of a reduction: the ranges of its partials, and its place. -/
structure RedItem where
  reads : List (Nat × Nat)
  out : Nat
  deriving DecidableEq, Repr

/-- What the partials of one output give: its bytes, assay word and partial words, or the status with which it stays unwritten. -/
inductive RedVal where
  | value (bytes : List Byte) (assay : W64) (words : Nat)
  | refused (status : Byte)
  deriving DecidableEq, Repr

/-- A stage of a reduction: its state, where it stands, and whether it waits. -/
abbrev RedStage := State × Reduction × Bool

/-- Add a status to a reduction's. -/
def redStatus (x : Reduction) (st : Byte) : Reduction := { x with status := worstStatus x.status st }

/-- Write a filler: −0, or the zero partial (R144). -/
def fillOne (r : Req) (exact : Bool) (a : RedStage) (va : Nat) : RedStage :=
  if a.2.2 then a
  else
    match storeRange a.1 r 0 va (cleanBytes (leBytes 8 (if exact then 0 else 0x80000000))) with
    | .wait t => (t, a.2.1, true)
    | .fail st t => (t, redStatus { a.2.1 with filled := a.2.1.filled + 1 } st, false)
    | .ok t st => (innerDrop t fun w => w == r.who, redStatus { a.2.1 with filled := a.2.1.filled + 1 } st, false)

/-- Read the partials of one output and reduce them; a failing read leaves the output unwritten. -/
def readOne (r : Req) (value : List PByte → RedVal) (a : RedStage) (x : RedItem) : RedStage :=
  if a.2.2 then a
  else
    let y := { a.2.1 with read := a.2.1.read + 1 }
    match pieceAccess a.1 r 0 ((x.reads.headD (0, 0)).1) false (x.reads.flatMap fun p => rangePieces p.1 p.2) [] with
    | .wait t => (t, a.2.1, true)
    | .fail st t => (t, redStatus y st, false)
    | .ok t (st, bs) =>
      let u := innerDrop t fun w => w == r.who
      if stBad st then (u, redStatus y st, false)
      else
        match value bs with
        | .value out fl n =>
          (u, { redStatus y (if anyPoison bs then stPoison else stOk) with outs := y.outs ++ [⟨x.out, out, fl⟩], words := y.words + n },
            false)
        | .refused e => (u, redStatus y e, false)

/-- Write one output; its flags count with it. -/
def writeOne (r : Req) (a : RedStage) (o : RedOut) : RedStage :=
  if a.2.2 then a
  else
    let rest := { a.2.1 with outs := a.2.1.outs.drop 1 }
    match storeRange a.1 r 0 o.va (cleanBytes o.bytes) with
    | .wait t => (t, a.2.1, true)
    | .fail st t => (t, redStatus rest st, false)
    | .ok t st =>
      (innerDrop t fun w => w == r.who, redStatus { rest with assay := if stBad st then rest.assay else assayAdd rest.assay o.assay } st,
        false)

/-- Go on with a reduction: fillers, then partials; its cycles start when all are read, and at their end its outputs are written (R145,
R146, R384). The second part says that it is over. -/
def reduceRun (s : State) (x : Reduction) (fillReq r : Req) (exact : Bool) (fills : List Nat) (items : List RedItem)
    (value : List PByte → RedVal) (cost : Nat → Nat) : State × Reduction × Bool :=
  match x.endAt with
  | none =>
    let a := (fills.drop x.filled).foldl (fillOne fillReq exact) (s, x, false)
    let b := (items.drop x.read).foldl (readOne r value) a
    if b.2.2 then (b.1, b.2.1, false) else (b.1, { b.2.1 with endAt := some (s.now + cost b.2.1.words) }, false)
  | some e =>
    if s.now < e then (s, x, false)
    else
      let a := x.outs.foldl (writeOne r) (s, x, false)
      (a.1, a.2.1, !a.2.2)

/-- The bytes, flags and words of an output value in a format. -/
def redValue (f : Fmt) (v : Val) (hist : Bool) (words : Nat) : RedVal :=
  let (c, fl) := f.convert .rne v
  .value (leBytes f.bytes c) (countFlags [{ fl with ovf := fl.ovf || hist }]).word words

/-- The items of a pass at the hub. -/
def passItems (p : Pass) : List RedItem := (hubItems p).map fun x => ⟨itemReads p x, (itemOut p x).1⟩

/-- What the partials of an item of a pass give. -/
def passValue (p : Pass) (bs : List PByte) : RedVal :=
  let z := partSize p.exact
  let parts := (List.range p.planes).map fun q => (bs.drop (q * z)).take z
  let (v, hist, words) := if p.exact then reduceExact parts else reduceFast parts
  redValue (ofmtOf p.ofmt.toNat) v hist words

/-- Addresses of the fillers of rows with fewer partials than planes (R144); rows that failed get none (R139). -/
def passFillers (p : Pass) : List Nat :=
  p.hubRows.flatMap fun h => (List.range (p.planes - h.parts)).flatMap fun i => (selected p.smask).flatMap fun slot =>
    ((List.range h.rows).filter fun r => !(rowFailed p (h.row0 + r))).map fun r =>
      planeVa p.partVa p.nRows p.exact (h.parts + i) slot (h.row0 + r)

/-- Reduce a pass at the hub, as far as it goes now: the state, and the cycle at which its cycles end. -/
def reducePass (s : State) (code : W16) (p : Pass) (cost : Nat → Nat) : State × Nat :=
  let n := ((p.ops.head?).map fun x => stackOf x.col).getD 0
  let (t, x, fin) := reduceRun s (p.red.getD {}) ⟨.pass p.id, codeSequencer n, p.ctx, p.tag⟩ ⟨.pass p.id, code, p.ctx, p.tag⟩ p.exact
    (passFillers p) (passItems p) (passValue p) cost
  (t.modPass p.id fun y =>
    if fin then { y with red := none, reduced := true, status := worstStatus y.status x.status, assay := assayAdd y.assay x.assay }
    else { y with red := some x }, x.endAt.getD s.now)

/-- A pass of a queue that waits for its reduction. -/
def toReduce (exact : Bool) (p : Pass) : Bool :=
  passOpsDone p && p.hubRows ≠ [] && !p.reduced && p.exact == exact

/-- FAST_HUB_REDUCTION by a live face of the pass's cluster, at 64 partials per cycle (R145): it reads, and when its cycles have passed
it writes. -/
def fastHubReduction (s : State) (q f : Nat) : State :=
  match (s.face f).logical with
  | none => s
  | some l =>
    match s.passes.find? fun p => p.q == q && toReduce false p && p.cluster == clusterOf f with
    | none => s
    | some p => if faceLive s l then (reducePass s (codeFace l) p fun n => ceilDiv n 64).1 else s

/-- FAST_HUB_REDUCTION (R145). -/
def execFastHubReduction (q : QueueId) (f : FaceId) (s : State) : Result := .next (fastHubReduction s q.val f.val)

/-! ## Merges (R146, R237) -/

/-- MERGE: the operation joins the collar's queue, after the licence check (R5). -/
def mergeStart (s : State) (q : Nat) : State :=
  match nextStepOp s q sopMerge with
  | none => s
  | some (x, o, d) =>
    if licensed s 1 then
      let t := putStepOp s q { o with begun := true }
      { t with collar := t.collar ++ [{ order := o.order, q := q, seq := o.seq }] }
    else stepOpDone (logLicence s codeForeman x.ctx (hdrTag d).toNat) q o.seq stLicence 0

/-- MERGE (R237). -/
def execMergeOp (q : QueueId) (s : State) : Result := .next (mergeStart s q.val)

/-- Ranges of output r of a merge: its partials and its place. -/
def mergeReads (d : BitVec 512) (r : Nat) : List (Nat × Nat) :=
  (List.range (bitsAt d 239 224)).map fun q => ((bitsAt d 167 128 + (q * bitsAt d 223 208 + r) * 136) % 2 ^ 40, 136)
def mergeOut (d : BitVec 512) (r : Nat) : Nat × Nat :=
  let b := (ofmtOf (bitsAt d 241 240)).bytes
  ((bitsAt d 207 168 + r * b) % 2 ^ 40, b)

/-- What the partials of an output of a merge give; a header whose n exceeds 16 gives MODE and leaves it unwritten. -/
def mergeValue (d : BitVec 512) (bs : List PByte) : RedVal :=
  let parts := (List.range (bitsAt d 239 224)).map fun q => (bs.drop (q * 136)).take 136
  if parts.any fun b => !(anyPoison b) && decide (16 < pbNat (b.take 1) % 32) then .refused stMode
  else
    let (v, _, words) := reduceExact parts
    redValue (ofmtOf (bitsAt d 241 240)) v false words

/-- The step and the operation that a collar job names. -/
def collarOp (s : State) (j : CollarJob) : Option (StepRun × StepOp × BitVec 512) :=
  match (s.queue j.q).step with
  | none => none
  | some x => (x.ops.find? fun o => o.seq == j.seq && o.order == j.order).map fun o => (x, o, stepDesc x o.index)

/-- Serve a merge as far as it goes now. n or nparts out of range gives OOB. -/
def serveMerge (s : State) (j : CollarJob) : State :=
  let mine (k : CollarJob) : Bool := k.order == j.order && k.q == j.q && k.seq == j.seq
  let out (t : State) : State := { t with collar := t.collar.filter fun k => !(mine k) }
  match collarOp s j with
  | none => out s
  | some (x, o, d) =>
    let n := bitsAt d 223 208
    if n = 0 || bitsAt d 239 224 = 0 || 4096 < bitsAt d 239 224 then stepOpDone (out s) j.q j.seq stOob 0
    else
      let r : Req := ⟨opWaiter o, codeCollar, x.ctx, hdrTag d⟩
      let items := (List.range n).map fun i => { reads := mergeReads d i, out := (mergeOut d i).1 : RedItem }
      let (t, y, fin) := reduceRun s (j.red.getD {}) r r true [] items (mergeValue d) fun w => 32 + ceilDiv w 8
      if fin then stepOpDone (out t) j.q j.seq y.status y.assay
      else { t with collar := t.collar.map fun k => if mine k then { k with red := some y } else k, collarFree := y.endAt.getD s.now }

/-- COLLAR_REDUCTION: the collar goes on with the reduction that it serves, or takes of those that are ready the one dispatched first
(R146). -/
def collarReduction (s : State) : State :=
  if s.now < s.collarFree then s
  else
    let ps := s.passes.filter (toReduce true)
    let begun := ((ps.filter fun p => p.red.isSome).map (·.order)) ++ (s.collar.filter fun j => j.red.isSome).map (·.order)
    let orders := if begun = [] then (ps.map (·.order)) ++ s.collar.map (·.order) else begun
    match orders with
    | [] => s
    | a :: t =>
      let m := t.foldl min a
      match ps.find? fun p => p.order == m with
      | some p =>
        let (u, free) := reducePass s codeCollar p fun n => 32 + ceilDiv n 8
        { u with collarFree := free }
      | none =>
        match s.collar.find? fun j => j.order == m with
        | some j => serveMerge s j
        | none => s

/-- COLLAR_REDUCTION (R146). -/
def execCollarReduction (s : State) : Result := .next (collarReduction s)

/-! ## Completion (R139, R149) -/

/-- The failing operation of a pass that gives its status: the lowest pick, and there the earliest. -/
def passStatus (p : Pass) : Byte :=
  if p.fenced || p.ops.any fun x => x.status == stFenced then stFenced
  else
    let bad := p.ops.filter fun x => x.status ≠ stOk
    match bad with
    | [] => p.status
    | x :: xs => (xs.foldl (fun m y => if y.col < m.col || (y.col == m.col && decide (y.idx < m.idx)) then y else m) x).status

/-- The reduction of a pass is over, or needs none. A fast one on a cluster with no live face ends FENCED (log entry 32). -/
def passReduced (s : State) (p : Pass) : Option Byte :=
  if p.hubRows = [] then some stOk
  else
    if p.reduced then some stOk
    else if !p.exact && !((List.range 12).any fun i => faceLive s (12 * p.cluster + i)) then some stFenced
    else none

/-- PASS_COMPLETION: the oldest pass of the queue whose operations and reduction have ended (R139). -/
def passCompletion (s : State) (q : Nat) : State :=
  match s.passes.find? fun p => p.q == q && passOpsDone p && (passReduced s p).isSome with
  | none => s
  | some p =>
    let st := if passReduced s p = some stFenced then stFenced else passStatus p
    let t := innerDrop { s with passes := s.passes.filter fun x => x.id ≠ p.id } fun w => w == .pass p.id
    let u := (List.range 8).foldl (fun t n =>
      if (t.stack n).segments.any fun g => g.pass == some p.id then
        t.modStack n fun k => { k with segments := k.segments.filter fun g => g.pass ≠ some p.id }
      else t) t
    stepOpDone u q p.seq st p.assay

/-- PASS_COMPLETION (R139). -/
def execPassCompletion (q : QueueId) (s : State) : Result := .next (passCompletion s q.val)

end Sys2Proof.Machine
end

