-- ==== Sys2Proof/Machine/Dispatch.lean ====
section
/-! DEFINITION. The dispatch: one arm per command, each a direct call of its meaning. -/

namespace Sys2Proof.Machine

/-- What a command does (the rules of spec/ stand at its meaning). -/
def exec (i : Instr) (s : State) : Host.Outcome State Fault Refusal :=
  match i with
  | .registerWrite p idx sb data => Sys2Proof.Machine.execRegisterWrite p idx sb data s
  | .xlateEntryWrite p n v => Sys2Proof.Machine.execXlateEntryWrite p n v s
  | .groupViewWrite p k v => Sys2Proof.Machine.execGroupViewWrite p k v s
  | .contextWrite p c f v => Sys2Proof.Machine.execContextWrite p c f v s
  | .xlateDrain p v => Sys2Proof.Machine.execXlateDrain p v s
  | .xlateDrainConfirmed => Sys2Proof.Machine.execXlateDrainConfirmed s
  | .xlateDrainTimeout => Sys2Proof.Machine.execXlateDrainTimeout s
  | .srSeedWrite p f v => Sys2Proof.Machine.execSrSeedWrite p f v s
  | .colModePick p g => Sys2Proof.Machine.execColModePick p g s
  | .pickModeReached g => Sys2Proof.Machine.execPickModeReached g s
  | .colModeNormal p g => Sys2Proof.Machine.execColModeNormal p g s
  | .normalModeReached g => Sys2Proof.Machine.execNormalModeReached g s
  | .colModeTimeout g => Sys2Proof.Machine.execColModeTimeout g s
  | .stackMode p n v => Sys2Proof.Machine.execStackMode p n v s
  | .directCommandWrite o c g off data => Sys2Proof.Machine.execDirectCommandWrite o c g off data s
  | .apertureRead o c g off len => Sys2Proof.Machine.execApertureRead o c g off len s
  | .pickAdmission g => Sys2Proof.Machine.execPickAdmission g s
  | .pickOperationStart g idx => Sys2Proof.Machine.execPickOperationStart g idx s
  | .pickOperationCompletion g idx => Sys2Proof.Machine.execPickOperationCompletion g idx s
  | .pcopy g idx rows => Sys2Proof.Machine.execPcopy g idx rows s
  | .pinit g idx rows => Sys2Proof.Machine.execPinit g idx rows s
  | .plogic g idx rows => Sys2Proof.Machine.execPlogic g idx rows s
  | .pload g idx => Sys2Proof.Machine.execPload g idx s
  | .pmv g idx => Sys2Proof.Machine.execPmv g idx s
  | .pmvk g idx => Sys2Proof.Machine.execPmvk g idx s
  | .pfold g idx => Sys2Proof.Machine.execPfold g idx s
  | .pdrain g idx => Sys2Proof.Machine.execPdrain g idx s
  | .pfence g idx => Sys2Proof.Machine.execPfence g idx s
  | .pickDataTimeout g idx => Sys2Proof.Machine.execPickDataTimeout g idx s
  | .rowStepBoundary g => Sys2Proof.Machine.execRowStepBoundary g s
  | .ordinaryRequest o c wr nc va len data => Sys2Proof.Machine.execOrdinaryRequest o c wr nc va len data s
  | .claimWaitEnd g => Sys2Proof.Machine.execClaimWaitEnd g s
  | .claimWaitTimeout g => Sys2Proof.Machine.execClaimWaitTimeout g s
  | .segmentDelivery n lane window => Sys2Proof.Machine.execSegmentDelivery n lane window s
  | .segmentTimeout f hid => Sys2Proof.Machine.execSegmentTimeout f hid s
  | .lode q => Sys2Proof.Machine.execLode q s
  | .score q => Sys2Proof.Machine.execScore q s
  | .valuePass q => Sys2Proof.Machine.execValuePass q s
  | .mergeOp q => Sys2Proof.Machine.execMergeOp q s
  | .passCompletion q => Sys2Proof.Machine.execPassCompletion q s
  | .fastHubReduction q f => Sys2Proof.Machine.execFastHubReduction q f s
  | .collarReduction => Sys2Proof.Machine.execCollarReduction s
  | .taskStart f => Sys2Proof.Machine.execTaskStart f s
  | .faceEnd f => Sys2Proof.Machine.execFaceEnd f s
  | .setx f => Sys2Proof.Machine.execSetx f s
  | .setvl f => Sys2Proof.Machine.execSetvl f s
  | .loopOpen f => Sys2Proof.Machine.execLoopOpen f s
  | .endl f => Sys2Proof.Machine.execEndl f s
  | .br f => Sys2Proof.Machine.execBr f s
  | .waitt f => Sys2Proof.Machine.execWaitt f s
  | .waittTimeout f => Sys2Proof.Machine.execWaittTimeout f s
  | .seqTally f => Sys2Proof.Machine.execSeqTally f s
  | .seqFence f => Sys2Proof.Machine.execSeqFence f s
  | .engineOperationStart f idx => Sys2Proof.Machine.execEngineOperationStart f idx s
  | .engineOperationDone f idx => Sys2Proof.Machine.execEngineOperationDone f idx s
  | .taskCompletion f => Sys2Proof.Machine.execTaskCompletion f s
  | .mma f idx => Sys2Proof.Machine.execMma f idx s
  | .mxv f idx => Sys2Proof.Machine.execMxv f idx s
  | .mstore f idx => Sys2Proof.Machine.execMstore f idx s
  | .vchain f idx => Sys2Proof.Machine.execVchain f idx s
  | .vhred f idx => Sys2Proof.Machine.execVhred f idx s
  | .planesum f idx => Sys2Proof.Machine.execPlanesum f idx s
  | .sramWriteBack f => Sys2Proof.Machine.execSramWriteBack f s
  | .hoistCopy f hid blocks => Sys2Proof.Machine.execHoistCopy f hid blocks s
  | .hoistGather f hid blocks => Sys2Proof.Machine.execHoistGather f hid blocks s
  | .hoistScatter f hid blocks => Sys2Proof.Machine.execHoistScatter f hid blocks s
  | .hoistScatterAdd f hid blocks => Sys2Proof.Machine.execHoistScatterAdd f hid blocks s
  | .hoistFusedStore f hid blocks => Sys2Proof.Machine.execHoistFusedStore f hid blocks s
  | .hoistBroadcast f hid => Sys2Proof.Machine.execHoistBroadcast f hid s
  | .hoistTransferDone f hid => Sys2Proof.Machine.execHoistTransferDone f hid s
  | .doorbellWrite o q off data => Sys2Proof.Machine.execDoorbellWrite o q off data s
  | .slotReread q => Sys2Proof.Machine.execSlotReread q s
  | .slotStaleStall q => Sys2Proof.Machine.execSlotStaleStall q s
  | .qResume p q => Sys2Proof.Machine.execQResume p q s
  | .qReset p q => Sys2Proof.Machine.execQReset p q s
  | .qAbort p q => Sys2Proof.Machine.execQAbort p q s
  | .qEnableWrite p q v => Sys2Proof.Machine.execQEnableWrite p q v s
  | .stepStart => Sys2Proof.Machine.execStepStart s
  | .operationDispatch => Sys2Proof.Machine.execOperationDispatch s
  | .operationCompletion q => Sys2Proof.Machine.execOperationCompletion q s
  | .stepEnd q => Sys2Proof.Machine.execStepEnd q s
  | .emit q => Sys2Proof.Machine.execEmit q s
  | .jump q => Sys2Proof.Machine.execJump q s
  | .setn q => Sys2Proof.Machine.execSetn q s
  | .signal q => Sys2Proof.Machine.execSignal q s
  | .waitw q => Sys2Proof.Machine.execWaitw q s
  | .task q => Sys2Proof.Machine.execTask q s
  | .waitLimitExpiry q => Sys2Proof.Machine.execWaitLimitExpiry q s
  | .stepCompletion q => Sys2Proof.Machine.execStepCompletion q s
  | .recordAcknowledged q => Sys2Proof.Machine.execRecordAcknowledged q s
  | .recordWaitTimeout q => Sys2Proof.Machine.execRecordWaitTimeout q s
  | .winLenWrite p v => Sys2Proof.Machine.execWinLenWrite p v s
  | .windowBoundary => Sys2Proof.Machine.execWindowBoundary s
  | .cadenceEdge rising => Sys2Proof.Machine.execCadenceEdge rising s
  | .cadenceMissed => Sys2Proof.Machine.execCadenceMissed s
  | .tallyAdd o c t n => Sys2Proof.Machine.execTallyAdd o c t n s
  | .tallySub o c t n => Sys2Proof.Machine.execTallySub o c t n s
  | .tallyArrive o c t sel => Sys2Proof.Machine.execTallyArrive o c t sel s
  | .tallySet o c t n => Sys2Proof.Machine.execTallySet o c t n s
  | .tallyWatch o c t thr cons cookie msix haddr => Sys2Proof.Machine.execTallyWatch o c t thr cons cookie msix haddr s
  | .tallyUnwatch o c t cookie => Sys2Proof.Machine.execTallyUnwatch o c t cookie s
  | .barinit o c t mask => Sys2Proof.Machine.execBarinit o c t mask s
  | .barfree o c t => Sys2Proof.Machine.execBarfree o c t s
  | .watchArmOnFree => Sys2Proof.Machine.execWatchArmOnFree s
  | .sigStampMet k src => Sys2Proof.Machine.execSigStampMet k src s
  | .stampTimeout k src => Sys2Proof.Machine.execStampTimeout k src s
  | .faceGate f => Sys2Proof.Machine.execFaceGate f s
  | .tallyDbgSel p v => Sys2Proof.Machine.execTallyDbgSel p v s
  | .watchDbgSel p v => Sys2Proof.Machine.execWatchDbgSel p v s
  | .barrierDbgSel p v => Sys2Proof.Machine.execBarrierDbgSel p v s
  | .refreshIntervalDue g => Sys2Proof.Machine.execRefreshIntervalDue g s
  | .owedRefreshInsertion g => Sys2Proof.Machine.execOwedRefreshInsertion g s
  | .targetedRefresh g => Sys2Proof.Machine.execTargetedRefresh g s
  | .commandParityAlert g => Sys2Proof.Machine.execCommandParityAlert g s
  | .shaftLinkFrame n down seq ftype payload crc => Sys2Proof.Machine.execShaftLinkFrame n down seq ftype payload crc s
  | .stackRequestTimeout n => Sys2Proof.Machine.execStackRequestTimeout n s
  | .writeBackEntry g => Sys2Proof.Machine.execWriteBackEntry g s
  | .scrubStep g => Sys2Proof.Machine.execScrubStep g s
  | .remapReq p n loc => Sys2Proof.Machine.execRemapReq p n loc s
  | .remapCopy n => Sys2Proof.Machine.execRemapCopy n s
  | .remapClaimTimeout n => Sys2Proof.Machine.execRemapClaimTimeout n s
  | .remapSel p n v => Sys2Proof.Machine.execRemapSel p n v s
  | .flitReceived k corrected badLanes flit => Sys2Proof.Machine.execFlitReceived k corrected badLanes flit s
  | .nak k aseq => Sys2Proof.Machine.execNak k aseq s
  | .portRetrain k => Sys2Proof.Machine.execPortRetrain k s
  | .portTrainingDone k good bad c1 c2 c3 peerSeq => Sys2Proof.Machine.execPortTrainingDone k good bad c1 c2 c3 peerSeq s
  | .retrainReq p k v => Sys2Proof.Machine.execRetrainReq p k v s
  | .portEnable p k v => Sys2Proof.Machine.execPortEnable p k v s
  | .rd k hdr => Sys2Proof.Machine.execRd k hdr s
  | .wr k hdr data => Sys2Proof.Machine.execWr k hdr data s
  | .sig k hdr data => Sys2Proof.Machine.execSig k hdr data s
  | .rsp k hdr data => Sys2Proof.Machine.execRsp k hdr data s
  | .echo k hdr data => Sys2Proof.Machine.execEcho k hdr data s
  | .hostRead off len tag => Sys2Proof.Machine.execHostRead off len tag s
  | .hostWrite off data => Sys2Proof.Machine.execHostWrite off data s
  | .aditAccess wr off len data tag => Sys2Proof.Machine.execAditAccess wr off len data tag s
  | .msixUnmask v => Sys2Proof.Machine.execMsixUnmask v s
  | .hostPortReset k => Sys2Proof.Machine.execHostPortReset k s
  | .nmtStart => Sys2Proof.Machine.execNmtStart s
  | .nmtStop => Sys2Proof.Machine.execNmtStop s
  | .nmtEnterPreOperational => Sys2Proof.Machine.execNmtEnterPreOperational s
  | .nmtResetNode => Sys2Proof.Machine.execNmtResetNode s
  | .nmtResetCommunication => Sys2Proof.Machine.execNmtResetCommunication s
  | .heartbeatTimer => Sys2Proof.Machine.execHeartbeatTimer s
  | .usdoUpload idx sb part => Sys2Proof.Machine.execUsdoUpload idx sb part s
  | .usdoDownload idx sb part data => Sys2Proof.Machine.execUsdoDownload idx sb part data s
  | .usdoSegmentTimeout => Sys2Proof.Machine.execUsdoSegmentTimeout s
  | .tpdoEventTimer t => Sys2Proof.Machine.execTpdoEventTimer t s
  | .emcySend => Sys2Proof.Machine.execEmcySend s
  | .errorCountWrite p v => Sys2Proof.Machine.execErrorCountWrite p v s
  | .mailboxRead m cmd => Sys2Proof.Machine.execMailboxRead m cmd s
  | .mailboxWrite m cmd => Sys2Proof.Machine.execMailboxWrite m cmd s
  | .buRun p n env => Sys2Proof.Machine.execBuRun p n env s
  | .bringupStepTimeout => Sys2Proof.Machine.execBringupStepTimeout s
  | .quiesceRequest p => Sys2Proof.Machine.execQuiesceRequest p s
  | .serviceRequest p => Sys2Proof.Machine.execServiceRequest p s
  | .maintenanceRequest p => Sys2Proof.Machine.execMaintenanceRequest p s
  | .faceReset p v => Sys2Proof.Machine.execFaceReset p v s
  | .computeReset p => Sys2Proof.Machine.execComputeReset p s
  | .warmReset p => Sys2Proof.Machine.execWarmReset p s
  | .warmResetDrainEnd => Sys2Proof.Machine.execWarmResetDrainEnd s
  | .coldReset p => Sys2Proof.Machine.execColdReset p s
  | .coldResetOffEnd => Sys2Proof.Machine.execColdResetOffEnd s
  | .fwImageWrite p off data => Sys2Proof.Machine.execFwImageWrite p off data s
  | .verify p => Sys2Proof.Machine.execVerify p s
  | .imageVerified => Sys2Proof.Machine.execImageVerified s
  | .commit p => Sys2Proof.Machine.execCommit p s
  | .flashWriteDone good => Sys2Proof.Machine.execFlashWriteDone good s
  | .activate p => Sys2Proof.Machine.execActivate p s
  | .headframeRestartDone => Sys2Proof.Machine.execHeadframeRestartDone s
  | .discard p => Sys2Proof.Machine.execDiscard p s
  | .licImageWrite p off data => Sys2Proof.Machine.execLicImageWrite p off data s
  | .licenceCheck p => Sys2Proof.Machine.execLicenceCheck p s
  | .licenceSlotEmpty p k => Sys2Proof.Machine.execLicenceSlotEmpty p k s
  | .attNonceWrite p off data => Sys2Proof.Machine.execAttNonceWrite p off data s
  | .attCmd p v => Sys2Proof.Machine.execAttCmd p v s
  | .signingDone => Sys2Proof.Machine.execSigningDone s
  | .d00Start node => Sys2Proof.Machine.execD00Start node s
  | .powerRemoved => Sys2Proof.Machine.execPowerRemoved s
  | .inputSample v w => Sys2Proof.Machine.execInputSample v w s
  | .phaseFault idx => Sys2Proof.Machine.execPhaseFault idx s
  | .unitDutyTick stackTbl faces => Sys2Proof.Machine.execUnitDutyTick stackTbl faces s
  | .recallComplete f => Sys2Proof.Machine.execRecallComplete f s
  | .canarySlot c raw => Sys2Proof.Machine.execCanarySlot c raw s
  | .canaryRoundEnd => Sys2Proof.Machine.execCanaryRoundEnd s
  | .domainIdle d => Sys2Proof.Machine.execDomainIdle d s
  | .domainSleep d => Sys2Proof.Machine.execDomainSleep d s
  | .domainWake d => Sys2Proof.Machine.execDomainWake d s
  | .wakeNChange active => Sys2Proof.Machine.execWakeNChange active s
  | .throttleNChange active => Sys2Proof.Machine.execThrottleNChange active s
  | .inputStuck idx => Sys2Proof.Machine.execInputStuck idx s
  | .faceFence p v => Sys2Proof.Machine.execFaceFence p v s
  | .pickFence p v => Sys2Proof.Machine.execPickFence p v s
  | .fenceComplete => Sys2Proof.Machine.execFenceComplete s
  | .colRetire p v => Sys2Proof.Machine.execColRetire p v s
  | .flogSel p v => Sys2Proof.Machine.execFlogSel p v s
  | .flogSavedSel p v => Sys2Proof.Machine.execFlogSavedSel p v s
  | .flogClear p v => Sys2Proof.Machine.execFlogClear p v s
  | .hostLinkUp full => Sys2Proof.Machine.execHostLinkUp full s
  | .shaftLinkRetrained n => Sys2Proof.Machine.execShaftLinkRetrained n s
  | .commandLaneRetrained g => Sys2Proof.Machine.execCommandLaneRetrained g s
  | .laneLossOfLock k lane => Sys2Proof.Machine.execLaneLossOfLock k lane s
  | .inputGlitch idx => Sys2Proof.Machine.execInputGlitch idx s
  | .inputStuckRelease idx => Sys2Proof.Machine.execInputStuckRelease idx s
  | .canErrorPassive enter => Sys2Proof.Machine.execCanErrorPassive enter s
  | .canBusOff => Sys2Proof.Machine.execCanBusOff s
  | .canBusOffRecovered => Sys2Proof.Machine.execCanBusOffRecovered s
  | .computeResetDone => Sys2Proof.Machine.execComputeResetDone s
  | .faceResetDone f => Sys2Proof.Machine.execFaceResetDone f s

end Sys2Proof.Machine
end

