-- ==== Sys2Proof/Safety.lean ====
section
/-! DEFINITION. What counts as a safe run: every step answers a next state (R13: no condition leaves the behaviour open). -/

namespace Sys2Proof

/-- A step that goes on. -/
def stepSafe (s : Machine.State) : Prop := ∃ t, Machine.step s = .next t

end Sys2Proof
end

