-- ==== Sys2Proof/Certificates/Slice0/Obligations.lean ====
section
/-! DEFINITION. The statements for the provers: what the commands of the block do, row by row, and what every step keeps.

A command's result is written as the state it leaves, by the named operations of the machine over the state before (`tset`, `setCol`,
`setFace` …), whose own laws are the statements about tables and memory; so each equation is the command's frame as well: what it
does not name is unchanged. A dictionary write is stated for every path that serves it (`Opens`), and its answer is `dictReply`. -/

namespace Sys2Proof.Claims

open Sys2Proof.Machine

/-- A dictionary write over a path is served; the state once the access is open. -/
def Opens (s u : State) (p : DictPath) (idx : W16) (sb : Byte) : Prop := dictOpen s p idx sb true = .serve u

/-- The command goes on to a state. -/
def Gives (c : Instr) (s t : State) : Prop := exec c s = .next t

/-- The command is a dictionary write over path p that is answered with a status and leaves, beside the answer, a state. -/
def Answers (c : Instr) (s v : State) (p : DictPath) (st : Byte) : Prop := exec c s = .next (dictReply v p st (abortOf st) [])

/-- An operation is the head of the stream whose turn it is at a pick, or of the other when the first has nothing to admit. -/
def OnTurn (s : State) (g : Nat) (o : PickOp) (seq : Bool) : Prop :=
  (if seq then (s.col g).seqQ else (s.col g).dirQ).head? = some o ∧ (seq = (s.col g).lastSeq → admitHead s g (!seq) = none)

/-- Control descriptor d of a code stands at the sequencer's place in the running task t of a face, and may act now. -/
def Turn (s : State) (f : FaceId) (t : FaceTask) (d : BitVec 256) (opc : Nat) : Prop :=
  (s.face f.val).task = some t ∧ current (s.face f.val) t = d ∧ descOpc d = opc ∧ issuing t s.now = true ∧
    (descSerial d = true → t.ops = [])

/-- Operation i in a face's scoreboard is of a code, its cycles have passed and its work takes effect now (log entry 157). -/
def Runs (s : State) (f : FaceId) (i : Fin 16) (t : FaceTask) (o : EngOp) (opc : Nat) : Prop :=
  (s.face f.val).task = some t ∧ t.ops[i.val]? = some o ∧ engDue s f.val o = true ∧ o.done = false ∧ descOpc o.desc = opc ∧
    (s.face f.val).gated = false

/-- Operation d of a code stands ready at the head of a queue's step x (the three conditions of R231). -/
def AtHead (s : State) (q : QueueId) (x : StepRun) (d : BitVec 512) (op : Nat) : Prop :=
  (s.queue q.val).step = some x ∧ headDesc x = d ∧ hdrOp d = op ∧ headReady s x = true ∧ (x.wait = .idle ∨ x.wait = .met)

/-- A hoist's block of some bytes at a virtual address lies in one page, in the implemented SRAM of physical face p, at offset a. -/
def InSram (s : State) (r : HoistRun) (va len p a : Nat) : Prop :=
  let pa := pageOf r.pages (va / 2 ^ 24) * 2 ^ 24 + va % 2 ^ 24
  0 < len ∧ va < 2 ^ 40 ∧ va % 2 ^ 24 + len ≤ 2 ^ 24 ∧ isSramPage (pa / 2 ^ 24) = true ∧ paCheck s pa len = stOk ∧
    sramPlace s pa = some (p, a)

/-- What follows a tally operation's effect: the last-signaller record, the count or the fault, the answer (R257, R259, R427). -/
def signedOff (u : State) (o : Origin) (c : CtxId) (r : TallyRef) (t : Nat) (top : BitVec 4) (n : W32) (st : Byte) : State :=
  answer (tallyFault (tallySigned u (codeOf o) c.val t top n st) (codeOf o) c.val t st n) o c.val false st [] (0x1000000 + tallyOffset r)

end Sys2Proof.Claims

open Sys2Proof Sys2Proof.Machine Sys2Proof.Claims

/-! ## The block and its queue -/

/-- A step of the block runs the command at the front of the queue on the state with the queue's rest. With no command waiting one cycle
of 1.25 ns passes (log entries 1 and 164: the model's choice); only the accesses that wait in mailboxes are served in it, so nothing
else changes where none waits or the headframe serves no mailbox. -/
def Obligations.StepRunsTheFrontCommand : Prop :=
  (∀ (c : Instr) (rest : List Instr) (s : State), step { s with pending := c :: rest } = exec c { s with pending := rest }) ∧
  (∀ s : State, s.pending = [] →
    step s = .next (tick s) ∧ (tick s).now = s.now + 1 ∧
    (s.can.mail = [] ∨ mailboxServes s = false → tick s = { s with now := s.now + 1 }))

/-- No command stops the block, and none touches the queue of those that wait: the queue is first in, first out. -/
def Obligations.CommandsAlwaysGoOnAndLeaveTheQueue : Prop :=
  ∀ (c : Instr) (s : State), ∃ t, exec c s = .next t ∧ t.pending = s.pending

/-- Memory keeps its canonical form, addresses rising and no byte listed that reads 0, through every step. -/
def Obligations.EveryStepKeepsMemoryCanonical : Prop :=
  ∀ s t : State, memWf s.mem = true → step s = .next t → memWf t.mem = true

/-- Memory by byte: a write of bytes reads back, leaves every byte outside its range and everything but memory alone, and keeps the
canonical form. A sparse table likewise reads back what is written, at every index keeps the others, and keeps its canonical form. -/
def Obligations.MemoryAndTablesReadBack : Prop :=
  (∀ (s : State) (k : Nat) (bs : List Byte),
    (memWf s.mem = true → memWf (s.wrBytes k bs).mem = true ∧ (s.wrBytes k bs).rdBytes k bs.length = bs) ∧
    (∀ j, j < k ∨ k + bs.length ≤ j → (s.wrBytes k bs).rdByte j = s.rdByte j) ∧
    { s.wrBytes k bs with mem := s.mem } = s) ∧
  (∀ (t : Tab W32) (d v : W32) (i j : Nat),
    (j ≠ i → tget d (tset d t i v) j = tget d t j) ∧
    (tabWf d t = true → tget d (tset d t i v) i = v ∧ tabWf d (tset d t i v) = true))

/-! ## The dictionary (chapter 12) -/

/-- Who serves a dictionary write, and how it is answered: CAN serves it while the headframe runs, except in Stopped or bus-off, ends
the transfer in progress, answers with identifier 0x580 + node (Table 12.1), and counts a refusal in the abort diagnostics; a mailbox
whose command waits drops it and counts, and keeps it while mailboxes are not served; another writer than context 0 is refused PROT. -/
def Obligations.DictionaryPathsServeAndAnswer : Prop :=
  ∀ (s : State) (idx : W16) (sb : Byte) (data : List Byte) (st : Byte) (ab : W32),
    (s.can.nmt ≠ .stopped → s.can.busOff = false → s.life.state ≠ 0 → headframeServes s = true → Opens s (usdoNew s) .can idx sb) ∧
    (usdoNew s).can.usdo = none ∧ (usdoNew s).can.usdoHeld = none ∧
    (∀ m : Fin 16, headframeOn s = true → (s.box m.val).pend = true →
      dictOpen s (.mbox m) idx sb true = .drop { s with can := { s.can with mirrorDropped := satInc s.can.mirrorDropped } }) ∧
    (∀ m : Fin 16, headframeOn s = true → (s.box m.val).pend = false → mailboxServes s = false →
      dictOpen s (.mbox m) idx sb true = .wait) ∧
    (headframeServes s = true → Opens s s (.other 0) idx sb) ∧
    (∀ c : CtxId, c.val ≠ 0 → headframeServes s = true → dictOpen s (.other c) idx sb true = .refuse stProt 0x06010000 s) ∧
    dictReply s .can stOk 0 data = s.emit (.usdo (0x580 + s.can.nodeId) 0 data) ∧
    (st ≠ stOk → dictReply s .can st ab [] =
      ({ s with can := { s.can with usdoLast := st,
                                    usdoAborts := satInc s.can.usdoAborts } }).emit (.usdo (0x580 + s.can.nodeId) ab [])) ∧
    (∀ m : Fin 16, ((dictReply s (.mbox m) st ab []).can.boxes) = tset {} s.can.boxes m.val
      { s.box m.val with pend := false, taken := false, done := true, status := st, abort := ab, rlen := 0 }) ∧
    (∀ c : CtxId, dictReply s (.other c) st ab [] = s.emit (.dictRsp (.other c) st ab))

/-- REGISTER_WRITE: a write that passes the checks takes effect under its object's rules and is answered OK; one that fails a check
changes nothing but the path's answer. A write to `sr_seed` of a bound face stores the value, 0 as 1, and reloads the generator; an
unbound face refuses it FENCED. -/
def Obligations.RegisterWriteTakesEffectOrIsRefused : Prop :=
  (∀ (p : DictPath) (idx : W16) (sb : Byte) (data : List Byte) (s u : State), Opens s u p idx sb → (∀ m, p ≠ .mbox m) →
    (∀ st ab, dictCheck u idx.toNat sb.toNat true false data.length = some (st, ab) →
      Gives (.registerWrite p idx sb data) s (dictReply u p st ab [])) ∧
    (dictCheck u idx.toNat sb.toNat true false data.length = none →
      (objWrite u p idx.toNat sb.toNat 0 data).status = some stOk →
      Gives (.registerWrite p idx sb data) s
        ((objWrite u p idx.toNat sb.toNat 0 data).later (dictReply (objWrite u p idx.toNat sb.toNat 0 data).after p stOk 0 []))) ∧
    (∀ v : W16, idx = 0x1017 → sb = 0 → data = leBytes 2 v.toNat →
      Gives (.registerWrite p idx sb data) s
        (dictReply (putComm u { u.can.comm with heartbeatMs := v }) p stOk 0 []))) ∧
  (∀ (p : DictPath) (f : FaceId) (v : W32) (s u : State), Opens s u p (BitVec.ofNat 16 (0x4000 + 16 * f.val)) 0x0E →
    ((u.face f.val).logical.isSome = true →
      Answers (.srSeedWrite p f v) s
        (u.setFace f.val { u.face f.val with srSeed := if v = 0 then 1 else v, srState := if v = 0 then 1 else v }) p stOk) ∧
    ((u.face f.val).logical = none → Answers (.srSeedWrite p f v) s u p stFenced))

/-- A write to a translation entry is accepted or refused as Table 2.5 states (R44): accepted, the entry takes the value with its
reserved bits 0; refused, the entry keeps its previous value; a write with `valid` 0 is accepted. A write of `group_view` bits of
groups that no valid entry maps and no retired column belongs to sets exactly the 32 bits of the subindex (R38, R49); a bit changed
of a mapped group refuses the whole write with MODE. -/
def Obligations.TranslationWrites : Prop :=
  (∀ (p : DictPath) (n : Fin 32768) (v : W32) (s u : State), Opens s u p (entryIdx n.val) (entrySub n.val) →
    (entryStatus u (v &&& 0x8F80FFFF) = stOk →
      Answers (.xlateEntryWrite p n v) s { u with xlate := tset 0 u.xlate n.val (v &&& 0x8F80FFFF) } p stOk) ∧
    (entryStatus u (v &&& 0x8F80FFFF) ≠ stOk →
      Answers (.xlateEntryWrite p n v) s u p (entryStatus u (v &&& 0x8F80FFFF))) ∧
    (v.getLsbD 31 = false → entryStatus u (v &&& 0x8F80FFFF) = stOk)) ∧
  (∀ (p : DictPath) (k : Fin 16) (v : W32) (s u : State), Opens s u p 0x2503 (BitVec.ofNat 8 (k.val + 1)) →
    ((∀ i < 32, groupRetired u (32 * k.val + i) = false) →
      ((∀ i < 32, groupMapped u (32 * k.val + i) = true → v.getLsbD i = u.groupView.getLsbD (32 * k.val + i)) →
        ∃ w : BitVec 512, Answers (.groupViewWrite p k v) s { u with groupView := w } p stOk ∧
          ∀ j, j < 512 → w.getLsbD j = if j / 32 = k.val then v.getLsbD (j % 32) else u.groupView.getLsbD j) ∧
      ((∃ i < 32, groupMapped u (32 * k.val + i) = true ∧ v.getLsbD i ≠ u.groupView.getLsbD (32 * k.val + i)) →
        Answers (.groupViewWrite p k v) s u p stMode)))

/-- Writes to a context object under R42: the window of an enabled context is fixed, its fields have their ranges, it may not be
enabled over the table's end or over another enabled window, and context 0 stays enabled; every other write sets its field. -/
def Obligations.ContextWrites : Prop :=
  ∀ (p : DictPath) (c : CtxId) (v : W16) (s u : State),
    (∀ f, f = .xlateBase ∨ f = .xlateCount → Opens s u p (BitVec.ofNat 16 (0x2510 + c.val)) (contextSub f) →
      ((u.ctx c.val).enabled = true → Answers (.contextWrite p c f v) s u p stMode) ∧
      ((u.ctx c.val).enabled = false → (if f = .xlateBase then 32767 else 32768) < v.toNat →
        Answers (.contextWrite p c f v) s u p stOob) ∧
      ((u.ctx c.val).enabled = false → v.toNat ≤ (if f = .xlateBase then 32767 else 32768) →
        Answers (.contextWrite p c f v) s (u.setCtx c.val (contextSet (u.ctx c.val) f v)) p stOk)) ∧
    (Opens s u p (BitVec.ofNat 16 (0x2510 + c.val)) 1 →
      (v = 1 → 32768 < (u.ctx c.val).xlateBase.toNat + (u.ctx c.val).xlateCount.toNat →
        Answers (.contextWrite p c .enabled v) s u p stProt) ∧
      (v = 1 → (∃ d < 64, d ≠ c.val ∧ (u.ctx d).enabled = true ∧ windowsMeet (u.ctx c.val) (u.ctx d) = true) →
        Answers (.contextWrite p c .enabled v) s u p stProt) ∧
      (v = 1 → (u.ctx c.val).xlateBase.toNat + (u.ctx c.val).xlateCount.toNat ≤ 32768 →
        (∀ d < 64, d ≠ c.val → (u.ctx d).enabled = true → windowsMeet (u.ctx c.val) (u.ctx d) = false) →
        Answers (.contextWrite p c .enabled v) s (u.setCtx c.val { u.ctx c.val with enabled := true }) p stOk) ∧
      (v = 0 → c.val = 0 → Answers (.contextWrite p c .enabled v) s u p stProt) ∧
      (v = 0 → c.val ≠ 0 → Answers (.contextWrite p c .enabled v) s (u.setCtx c.val { u.ctx c.val with enabled := false }) p stOk))

/-- `xlate_drain` (R47): 1 holds the write, 0 is OK, any other value is OOB; the write is confirmed once no request translated before
it is open, and ends with TIMEOUT after 10 ms, when the requests go on and the fault log records the oldest of them. -/
def Obligations.TranslationDrain : Prop :=
  ∀ (p : DictPath) (v : Byte) (s u : State),
    (Opens s u p 0x2501 1 → u.drain = none →
      (v = 1 → Gives (.xlateDrain p v) s
        (dictHold { u with drain := some { path := p, since := u.now, mark := u.reqNext } } p 0x2501 1)) ∧
      (v = 0 → Answers (.xlateDrain p v) s u p stOk) ∧
      (2 ≤ v.toNat → Answers (.xlateDrain p v) s u p stOob)) ∧
    (∀ d, s.drain = some d → drainOpen s d = [] →
      Gives .xlateDrainConfirmed s (dictRelease { s with drain := none } d.path 0x2501 1 stOk)) ∧
    (∀ d, s.drain = some d → d.since + 8000000 ≤ s.now → drainOpen s d ≠ [] →
      Gives .xlateDrainTimeout s (dictRelease (logDrain { s with drain := none } d) d.path 0x2501 1 stTimeout)) ∧
    (∀ d, s.drain = some d → drainOpen s d ≠ [] → Gives .xlateDrainConfirmed s s) ∧
    (∀ d, drainOpen (logDrain s d) d = drainOpen s d) ∧
    (∀ d, drainOpen s d ≠ [] → headframeOn s = true → s.log.recs = [] →
      ∃ r ∈ drainOpen s d, (∀ x ∈ drainOpen s d, r.req ≤ x.req) ∧ ∃ l, (logDrain s d).log.recs = [l] ∧ l.event = 1 ∧
        l.status = stTimeout ∧ l.src = r.code ∧ l.ctx = r.ctx ∧ l.info = BitVec.ofNat 64 r.addr)

/-! ## Reset and the two views of memory -/

/-- What reset leaves (Table 13.2, and the Default columns of Tables 2.6, 4.4, 8.10, 8.12, 9.12, 9.13, 10.13, 11.13 and 12.11): the life
state is STANDBY, no command waits, memory lists nothing and is canonical, no translation is valid and every group is bank-local, only
context 0 is enabled, every column is NORMAL, every queue is disabled with its defaults, every tally is ordinary with value 0 and
source 0xFFFF, no watch is armed, every port is OFF, the log is empty, and the limits of the ledger and the node stand. -/
def Obligations.ResetLeaves : Prop :=
  let s := State.reset
  s.life.state = 1 ∧ s.pending = [] ∧ memWf s.mem = true ∧ s.mem = [] ∧
  (∀ n < 32768, tget 0 s.xlate n = 0) ∧ s.groupView = 0 ∧ s.drain = none ∧
  (∀ c : CtxId, (s.ctx c.val).enabled = decide (c.val = 0) ∧ (s.ctx c.val).xlateBase = 0 ∧ (s.ctx c.val).xlateCount = 0 ∧
    (s.ctx c.val).tallyBase = 0 ∧ (s.ctx c.val).tallyLimit = 0) ∧
  (∀ g : PickId, (s.col g.val).mode = .normal ∧ (s.col g.val).window = [] ∧ (s.col g.val).opsDone = 0 ∧
    (s.col g.val).fenced = false ∧ (s.col g.val).retired = false) ∧
  (∀ n : StackId, (s.stack n.val).hotEnter = 82 ∧ (s.stack n.val).hotExit = 80 ∧ (s.stack n.val).scrubEnable = true ∧
    (s.stack n.val).claimWaits = 0) ∧
  (∀ q : QueueId, (s.queue q.val).enable = false ∧ (s.queue q.val).depth = 512 ∧ (s.queue q.val).staleLimit = 64 ∧
    (s.queue q.val).recDepth = 512 ∧ (s.queue q.val).recTally = 0xFFFF ∧ (s.queue q.val).recMsix = 0xFF ∧
    (s.queue q.val).step = none ∧ (s.queue q.val).waitLimit = 0) ∧
  (∀ t < 16384, (s.cell t).value = 0 ∧ (s.cell t).barrier = false ∧ (s.cell t).watches = [] ∧ (s.cell t).signaller.src = 0xFFFF) ∧
  (∀ i < 4096, (tget {} s.tally.watches i).armed = false) ∧
  (∀ k : PortId, (s.port k).state = 0 ∧ (s.port k).enable = true ∧ (s.port k).spareFor = 0xFF ∧
    (s.port k).ctxMask = 0xFFFFFFFFFFFFFFFE) ∧
  s.win.len = 0 ∧ s.win.number = 0 ∧ s.log.recs = [] ∧ s.fence.jobs = [] ∧ s.fence.done = 0 ∧
  s.can.nmt = .preOperational ∧ s.can.comm.heartbeatMs = 100 ∧ s.power.sleepIdleUs = 200 ∧ s.canary.riseLimit = 200 ∧
  s.canary.graceMs = 25 ∧ s.canary.pinK = 4

/-- The two views of memory: in the bank-local view (R35) and in the striped view (R36) byte offset o of page PN lies at the column,
die, row and byte that these rules compute; every place exists, and under any group views two addresses never share a place. -/
def Obligations.EveryDramByteHasItsOwnPlace : Prop :=
  ∀ (s : State) (pa : Nat), pa < 2 ^ 39 →
    let pn := pa >>> 24
    let o := pa &&& 0xFFFFFF
    let d := (pn >>> 12) &&& 7
    (s.groupView.getLsbD (pn >>> 6) = false →
      let q := o >>> 11
      placeOf s pa = ⟨(pn &&& 7) * 512 + ((pn >>> 3) &&& 0x1FF), 2 * d + (q &&& 1), q >>> 1, o &&& 0x7FF⟩) ∧
    (s.groupView.getLsbD (pn >>> 6) = true →
      let a := (pn &&& 0x3F) * 2 ^ 24 + o
      let r := a >>> 11
      let m := r &&& 0x3F
      let t := r >>> 6
      placeOf s pa = ⟨(m &&& 7) * 512 + (((pn >>> 6) &&& 0x3F) * 8 + (m >>> 3)), 2 * d + (t &&& 1), t >>> 1, a &&& 0x7FF⟩) ∧
    ((placeOf s pa).col < 4096 ∧ (placeOf s pa).die < 16 ∧ (placeOf s pa).row < 4096 ∧ (placeOf s pa).byte < 2048) ∧
    (∀ pb < 2 ^ 39, placeOf s pa = placeOf s pb → pa = pb)

/-! ## Column modes and apertures (chapter 04) -/

/-- COL_MODE_PICK (R90, R91): the first matching row of Table 4.6; accepted, the column reads TO_PICK and the write is held until
every earlier request has completed, when the pick is cleared and the column reads PICK. -/
def Obligations.ColumnEntersPickMode : Prop :=
  ∀ (p : DictPath) (g : PickId) (s u : State),
    (Opens s u p (colModeIdx g.val) (colModeSub g.val) →
      (modeHeld u g.val = true → Answers (.colModePick p g) s u p stBusy) ∧
      (modeHeld u g.val = false → computeBusy u = false → (u.col g.val).fenced = true → Answers (.colModePick p g) s u p stFenced) ∧
      (modeHeld u g.val = false → computeBusy u = false → pickLive u g.val = true →
        ((u.col g.val).mode = .pick → Answers (.colModePick p g) s u p stOk) ∧
        ((u.col g.val).mode = .normal → cachedMapping u g.val = true → Answers (.colModePick p g) s u p stMode) ∧
        ((u.col g.val).mode = .normal → cachedMapping u g.val = false →
          Gives (.colModePick p g) s (dictHold (u.setCol g.val { u.col g.val with
            mode := .toPick, change := some ⟨u.now, u.reqNext, false, p⟩ }) p (colModeIdx g.val) (colModeSub g.val))))) ∧
    (∀ ch, (s.col g.val).change = some ch → ch.byStack = false → (s.col g.val).mode = .toPick → earlierDone s g.val ch = true →
      Gives (.pickModeReached g) s (dictRelease (s.setCol g.val (voidCol { clearPick (s.col g.val) with
        mode := .pick, change := none, lastSeq := false })) ch.path (colModeIdx g.val) (colModeSub g.val) stOk)) ∧
    (∀ ch, (s.col g.val).change = some ch → ch.byStack = false → (s.col g.val).mode = .toPick → earlierDone s g.val ch = false →
      ch.since + 8000000 ≤ s.now →
      Gives (.colModeTimeout g) s (dictRelease (logObject (s.setCol g.val { s.col g.val with mode := .normal, change := none })
        stTimeout (colModeIdx g.val) (colModeSub g.val)) ch.path (colModeIdx g.val) (colModeSub g.val) stTimeout))

/-- COL_MODE_NORMAL (R90, R93): operations that wait for admission end with MODE and the column reads TO_NORMAL; once the admitted
operations have completed the pick is cleared and the column reads NORMAL; after 10 ms it returns to PICK with TIMEOUT. -/
def Obligations.ColumnLeavesPickMode : Prop :=
  ∀ (p : DictPath) (g : PickId) (s u : State),
    (Opens s u p (colModeIdx g.val) (colModeSub g.val) → modeHeld u g.val = false → computeBusy u = false →
      pickLive u g.val = true → (u.col g.val).mode = .pick →
      Gives (.colModeNormal p g) s (dictHold (startToNormal u g.val p false) p (colModeIdx g.val) (colModeSub g.val)) ∧
      ((u.col g.val).seqQ = [] → tabWf ({} : Col) u.cols = true →
        ∀ o, (u.col g.val).dirQ = [o] → startToNormal u g.val p false =
          pickEnd (u.setCol g.val { u.col g.val with mode := .toNormal, change := some ⟨u.now, u.reqNext, false, p⟩ }) g.val o stMode)) ∧
    (∀ ch, (s.col g.val).change = some ch → ch.byStack = false → (s.col g.val).mode = .toNormal → (s.col g.val).window = [] →
      Gives (.normalModeReached g) s (dictRelease (s.setCol g.val (voidCol { clearPick (s.col g.val) with
        mode := .normal, change := none })) ch.path (colModeIdx g.val) (colModeSub g.val) stOk)) ∧
    (∀ ch, (s.col g.val).change = some ch → ch.byStack = false → (s.col g.val).mode = .toNormal → (s.col g.val).window ≠ [] →
      ch.since + 8000000 ≤ s.now →
      Gives (.colModeTimeout g) s (dictRelease (s.setCol g.val { s.col g.val with mode := .pick, change := none })
        ch.path (colModeIdx g.val) (colModeSub g.val) stTimeout))

/-- STACK_MODE (R92): with 1, a live NORMAL column that a cacheable entry maps refuses the whole write with MODE, and no column
changes; with every live column already in the mode it is OK at once; otherwise exactly the live columns in the other mode start to
change, and the write is held. -/
def Obligations.StackModeStartsEveryColumn : Prop :=
  ∀ (p : DictPath) (n : StackId) (s u : State), Opens s u p (stackModeIdx n.val) 1 → (u.stack n.val).change = none →
    (u.cols.any fun x => stackOf x.1 == n.val && x.2.change.isSome) = false → computeBusy u = false →
    let live := (colsOf n.val).filter fun g => pickLive u g
    ((∃ g ∈ live, (u.col g).mode = .normal ∧ cachedMapping u g = true) → Answers (.stackMode p n 1) s u p stMode) ∧
    ((∀ g ∈ live, (u.col g).mode = .pick) → Answers (.stackMode p n 1) s u p stOk) ∧
    ((∀ g ∈ live, (u.col g).mode = .normal ∧ cachedMapping u g = false) → live ≠ [] →
      Gives (.stackMode p n 1) s (dictHold (live.foldl (fun t g => startToPick t g p true)
        (u.modStack n.val fun k => { k with change := some (true, p, false) })) p (stackModeIdx n.val) 1)) ∧
    ((∀ g ∈ live, (u.col g).mode = .normal) → Answers (.stackMode p n 0) s u p stOk) ∧
    ((∀ g ∈ live, (u.col g).mode = .pick) → live ≠ [] →
      Gives (.stackMode p n 0) s (dictHold (live.foldl (fun t g => startToNormal t g p true)
        (u.modStack n.val fun k => { k with change := some (false, p, false) })) p (stackModeIdx n.val) 1)) ∧
    (∀ v : Byte, 2 ≤ v.toNat → Answers (.stackMode p n v) s u p stOob)

/-- A direct command (R96): a 64 B write of an aligned, empty or finished slot of a live pick in PICK mode, by a context with the
pick-direct right, is queued and the slot reads QUEUED; a slot queued or running is BUSY; without the right the write is refused and
counted. A read of the status word or of a slot's status is answered at any time; entries, buffer, scales and accumulators are BUSY
while the pick has an admitted operation or a compute reset runs (R95, R98, R99); a read changes nothing. -/
def Obligations.ApertureWritesAndReads : Prop :=
  (∀ (o : Origin) (c : CtxId) (g : PickId) (k : Nat) (data : List Byte) (s : State), k < 16 → data.length = 64 →
    let r := apertureVa s c.val g.val (64 * k) true
    let va := r.2.1
    (apertureRight r.1 c.val va 64 true r.2.2 = stOk → computeBusy s = false → pickLive s g.val = true → (s.col g.val).mode = .pick →
      ((tget ({} : SlotRec) (s.col g.val).slots k).state ≠ 1 → (tget ({} : SlotRec) (s.col g.val).slots k).state ≠ 2 →
        let w := wakeDomain s (18 + stackOf g.val)
        Gives (.directCommandWrite o c g (BitVec.ofNat 24 (64 * k)) data) s
          (answerWrite ({ w with reqNext := s.reqNext + 1 }.setCol g.val { s.col g.val with
              slots := tset {} (s.col g.val).slots k
                { state := 1, seq := recSeq (BitVec.ofNat 512 (leNat data)), record := BitVec.ofNat 512 (leNat data) },
              dirQ := (s.col g.val).dirQ ++ [({ uid := s.reqNext, record := BitVec.ofNat 512 (leNat data),
                                                 ctx := BitVec.ofNat 6 c.val, owner := .slot k } : PickOp)] })
            o c.val stOk va)) ∧
      ((tget ({} : SlotRec) (s.col g.val).slots k).state = 2 →
        Gives (.directCommandWrite o c g (BitVec.ofNat 24 (64 * k)) data) s (answerWrite s o c.val stBusy va))) ∧
    (apertureRight r.1 c.val va 64 true r.2.2 = stProt →
      Gives (.directCommandWrite o c g (BitVec.ofNat 24 (64 * k)) data) s (answerWrite
        (xlateRefused s o c.val va stProt) o c.val stProt va))) ∧
  (∀ (o : Origin) (c : CtxId) (g : PickId) (s : State),
    let va (off : Nat) : Nat := (apertureVa s c.val g.val off false).2.1
    let right (off len : Nat) : Prop :=
      apertureRight (apertureVa s c.val g.val off false).1 c.val (va off) len false (apertureVa s c.val g.val off false).2.2 = stOk
    (right 0x100000 8 →
      Gives (.apertureRead o c g 0x100000 8) s (answer s o c.val true stOk (leBytes 8 (statusWord (s.col g.val))) (va 0x100000))) ∧
    (∀ k < 512, right (0x200000 + 8 * k) 8 → (s.col g.val).window = [] → computeBusy s = false →
      Gives (.apertureRead o c g (BitVec.ofNat 24 (0x200000 + 8 * k)) 8) s
        (answer s o c.val true stOk (leBytes 8 (tget 0 (s.col g.val).entries k).toNat) (va (0x200000 + 8 * k)))) ∧
    (∀ k < 512, right (0x200000 + 8 * k) 8 → (s.col g.val).window ≠ [] →
      Gives (.apertureRead o c g (BitVec.ofNat 24 (0x200000 + 8 * k)) 8) s
        (answer s o c.val true stBusy [] (va (0x200000 + 8 * k)))))

/-! ## Pick operations: admission, start, completion (chapter 04) -/

/-- PICK_ADMISSION (R101, R103, R122): while the window of five has room (and, of a sequencer operation, its stack holds fewer than
1,024), the head of the stream whose turn it is completes with the first failing check; passing all, a direct record whose claims
conflict with the sequencer's ends with CLAIM and counts; without conflict the operation enters the window with a request number, and
leaves its stream. With the window full nothing is admitted or checked. -/
def Obligations.PickAdmissionFollowsTheChecks : Prop :=
  ∀ (g : PickId) (s t : State) (o o' : PickOp) (seq : Bool) (st : Byte), domainOn s (18 + stackOf g.val) = true →
    (5 ≤ (s.col g.val).window.length → Gives (.pickAdmission g) s s) ∧
    ((s.col g.val).window.length < 5 → (seq = true → seqOutstanding s (stackOf g.val) < 1024) →
      OnTurn s g.val o seq → admissionChecks s g.val o = (t, o', st) →
      (st ≠ stOk → Gives (.pickAdmission g) s (pickEnd t g.val o st)) ∧
      (st = stOk →
        claimsConflict o'.claims (((t.col g.val).window.filter fun x => isDirect x == seq).flatMap (·.claims)) = true → seq = false →
        Gives (.pickAdmission g) s
          (pickEnd (t.modStack (stackOf g.val) fun k => { k with directRefusals := satInc k.directRefusals }) g.val o stClaim)) ∧
      (st = stOk →
        claimsConflict o'.claims (((t.col g.val).window.filter fun x => isDirect x == seq).flatMap (·.claims)) = false →
        Gives (.pickAdmission g) s
          ({ t with reqNext := t.reqNext + 1 }.setCol g.val { t.col g.val with
            window := (t.col g.val).window ++ [{ o' with req := t.reqNext, waitsFor := fenceWaits (s.col g.val) o' }],
            lastSeq := seq,
            seqQ := if seq then (t.col g.val).seqQ.drop 1 else (t.col g.val).seqQ,
            dirQ := if seq then (t.col g.val).dirQ else (t.col g.val).dirQ.drop 1,
            slots := match o'.owner with
              | .slot n => tset {} (t.col g.val).slots n { tget ({} : SlotRec) (t.col g.val).slots n with state := 2 }
              | .pass _ _ => (t.col g.val).slots })))

/-- An admitted operation starts when every earlier one has started and those that share a resource with it have completed (R104); the
issue duty holds back one that uses the column port (R420); it then takes its cycles (R117) and, done, completes after them: the
pick's count and last status, and the stack's count, move, its claims go, and a direct record's slot reads DONE with its status, assay
and cycles (R97). A failing check at start ends it MODE. -/
def Obligations.PickOperationsStartAndComplete : Prop :=
  ∀ (g : PickId) (i : Fin 5) (s : State) (o : PickOp), (s.col g.val).window[i.val]? = some o →
    (canStart s g.val i.val = true → startCheck (s.col g.val) o = true → o.claims = [] →
      Gives (.pickOperationStart g i) s
        (putOp s g.val { o with started := some s.now, lastData := s.now, cost := opCost (s.col g.val) o, stepAt := s.now + 24 })) ∧
    (canStart s g.val i.val = true → startCheck (s.col g.val) o = true → o.claims ≠ [] →
      Gives (.pickOperationStart g i) s
        (putOp ((if stackIdle s (stackOf g.val) then s.modStack (stackOf g.val) fun k => { k with staggerAt := some s.now } else s).modCol
            g.val fun c => { c with portAt := some s.now })
          g.val { o with started := some s.now, lastData := s.now, cost := opCost (s.col g.val) o, stepAt := s.now + 24 })) ∧
    (canStart s g.val i.val = false → Gives (.pickOperationStart g i) s s) ∧
    (o.claims ≠ [] → dutyOpen (dutyOf s (stackOf g.val)) s.now = false → canStart s g.val i.val = false) ∧
    (canStart s g.val i.val = true → startCheck (s.col g.val) o = false →
      Gives (.pickOperationStart g i) s (pickEnd s g.val o stMode)) ∧
    (∀ a k, o.started = some a → o.done = true → a + o.cost + o.delay ≤ s.now → o.owner = .slot k → recNotify o.record = false →
      Gives (.pickOperationCompletion g i) s
        ((pickGone s g.val o o.status).modCol g.val fun c => { c with slots := tset {} c.slots k { tget ({} : SlotRec) c.slots k with
          state := 3, status := o.status, assay := o.assay, cycles := satAdd 0 (s.now - a) } })) ∧
    (∀ a, o.started = some a → (o.done = false ∨ s.now < a + o.cost + o.delay) → Gives (.pickOperationCompletion g i) s s) ∧
    (∀ st, tabWf ({} : Col) s.cols = true → ((pickGone s g.val o st).col g.val).opsDone = (s.col g.val).opsDone + 1 ∧
      ((pickGone s g.val o st).col g.val).lastStatus = st ∧
      o ∉ ((pickGone s g.val o st).col g.val).window)

/-- PCOPY, PINIT and PLOGIC (R106) take their next rows in increasing order; each row step writes 2,048 bytes: the source row, the
pattern 256 times, or the bytewise function of the two rows, NOT of the first alone. The work is done after the last row, and several
rows in one command are the single rows, one after another. Requests whose claim waits have ended are served
before the row step (R124). -/
def Obligations.PickRowOperations : Prop :=
  (∀ (g : PickId) (i : Fin 5) (s : State) (o : PickOp), o.rows < recSrcN o.record →
    let s1 := claimWaitEnd s g.val
    let a := rowRead s1 g.val o o.srcPa o.rows
    let b := rowRead a.1 g.val a.2.1 o.auxPa o.rows
    let two := (a.2.2.zip b.2.2).map fun x => (logicByte (recFn o.record) x.1.1 x.2.1, x.1.2 || x.2.2)
    let next (w : State × PickOp) (bad : Bool) : State :=
      putOp w.1 g.val { poisonStatus { w.2 with rows := o.rows + 1 } bad with done := decide (o.rows + 1 = recSrcN o.record) }
    (runningOp s1 g.val i.val opPcopy = some o →
      Gives (.pcopy g i 1) s (next (rowWrite a.1 g.val a.2.1 o.dstPa o.rows a.2.2) (anyPoison a.2.2))) ∧
    (runningOp s1 g.val i.val opPinit = some o →
      Gives (.pinit g i 1) s (next (rowWrite s1 g.val o o.dstPa o.rows
        (cleanBytes ((List.replicate 256 (leBytes 8 (recImm o.record))).flatten))) false)) ∧
    (runningOp s1 g.val i.val opPlogic = some o → recFn o.record < 4 →
      Gives (.plogic g i 1) s (next (rowWrite b.1 g.val b.2.1 o.dstPa o.rows two) (anyPoison two))) ∧
    (runningOp s1 g.val i.val opPlogic = some o → recFn o.record = 4 →
      Gives (.plogic g i 1) s (next (rowWrite a.1 g.val a.2.1 o.dstPa o.rows (a.2.2.map fun x => (~~~ x.1, x.2))) (anyPoison a.2.2))) ∧
    (∀ x y : Byte, logicByte 0 x y = x &&& y ∧ logicByte 1 x y = x ||| y ∧ logicByte 2 x y = x ^^^ y ∧
      logicByte 3 x y = x &&& ~~~ y ∧ logicByte 4 x y = ~~~ x)) ∧
  (∀ (s : State) (g i op n : Nat) (f : Nat → State × PickOp → Nat → State × PickOp) (o : PickOp),
    runningOp (claimWaitEnd s g) g i op = some o → n + o.rows ≤ recSrcN o.record →
    runRows s g i op n f =
      let e := ((List.range n).map (o.rows + ·)).foldl (f g) (claimWaitEnd s g, o)
      putOp e.1 g { e.2 with done := decide (e.2.rows = recSrcN o.record) })

/-- PLOAD (R107, R116, R134): from the broadcast it makes the slots ready and takes the segment that it holds, or waits for one; from
the column it reads the rows and loads the selected slots; from the hub likewise once its access is complete, and a failed access ends
it with that status. A poisoned source loads and ends POISON. -/
def Obligations.PickLoads : Prop :=
  ∀ (g : PickId) (i : Fin 5) (s : State) (o : PickOp),
    let s1 := claimWaitEnd s g.val
    let ready := s1.setCol g.val (loadPrep (s1.col g.val) o.record)
    runningOp s1 g.val i.val opPload = some o →
    (recFn o.record = 0 → o.segment = none → Gives (.pload g i) s ready) ∧
    (∀ bs, recFn o.record = 0 → o.segment = some bs →
      Gives (.pload g i) s (loadSlots ready g.val { o with segment := none } bs (loadCost ready o))) ∧
    (recFn o.record = 1 →
      let e := readRows s1 g.val o o.srcPa (ceilDiv (loadBytes o.record) 2048)
      Gives (.pload g i) s (loadSlots e.1 g.val (poisonStatus e.2.1 (anyPoison e.2.2)) e.2.2 o.cost)) ∧
    (∀ t st bs, recFn o.record = 2 →
      innerAccess s1 (pickReq g.val o) 0 (recSrcVa o.record) false [⟨o.srcPa, loadBytes o.record, false⟩] [] = .ok t (st, bs) →
      let u := innerDrop t fun w => w == .pick o.uid
      (st = stOk ∨ st = stPoison → Gives (.pload g i) s (loadSlots u g.val o bs (loadCost u o))) ∧
      (st ≠ stOk → st ≠ stPoison → Gives (.pload g i) s (putOp u g.val { o with done := true, status := st })))

/-- PMV and PMVK complete (R108 to R111): a running operation with a weight format of Table 4.2 reads its weight rows; each selected
slot's dot products, continued from its partials with `acc`, become output entries of a PMV or partials of a PMVK; partials of earlier
operations over the same entries no longer stand; its work is then done, with POISON where a byte that it used is poisoned. -/
def Obligations.PickDotProducts : Prop :=
  ∀ (g : PickId) (i : Fin 5) (s : State) (o : PickOp) (w : WFmt), wfmtOf (recWfmt o.record) = some w →
    let s1 := claimWaitEnd s g.val
    let e := readStream s1 g.val o w
    let x := e.2.2
    let c := e.1.col g.val
    let r := if recExact o.record then exactMv c x o.record else fastMv c x o.record
    let ps := dropPartials c.partials (entryRange o.record) (usesAccRes o.record)
    let bad := (x.rows.any fun y => y.any fun b => b.2) || (x.scales.any fun y => y.any fun b => b.2) ||
      (selected (recSlots o.record)).any fun y => slotBad c y (recVoff o.record) (recK o.record)
    let ended : PickOp := poisonStatus { e.2.1 with done := true, assay := (countFlags r.2).word } bad
    (runningOp s1 g.val i.val opPmv = some o →
      exec (.pmv g i) s = .next (putOp (e.1.setCol g.val { r.1 with partials := ps }) g.val ended)) ∧
    (runningOp s1 g.val i.val opPmvk = some o →
      exec (.pmvk g i) s = .next (putOp (e.1.setCol g.val { r.1 with partials := ps ++ [partialsOf o] }) g.val ended))

/-- PFOLD (R112): role 0 sends its partials to the next live pick, marked at the last word; roles 1 and 2 add what came to their own
and pass the sums on or keep them as partials; role 3 turns the sums into outputs. With no live pick to send to it ends FENCED, and
words that do not match end it MODE. Role 0 takes 8 + words cycles (R141). Behind an earlier fold in its direction it does nothing
yet (R142). -/
def Obligations.PickFolds : Prop :=
  ∀ (g : PickId) (i : Fin 5) (s : State) (o : PickOp), runningOp s g.val i.val opPfold = some o →
    (foldBehind (s.col g.val) i.val o = true → Gives (.pfold g i) s s) ∧
    (foldBehind (s.col g.val) i.val o = false →
    let r := o.record
    let own := if recExact r then FoldSum.exact (foldExact (s.col g.val) r) else FoldSum.fast (foldFast (s.col g.val) r)
    let ws := foldWords r own
    (recFn r ≤ 1 → nextLive s g.val (recDown r) = none →
      Gives (.pfold g i) s (putOp s g.val { o with status := stFenced, done := true })) ∧
    (∀ q a, recFn r = 0 → nextLive s g.val (recDown r) = some q → o.started = some a →
      Gives (.pfold g i) s (putOp (foldSend s g.val q (a + 8 + ws.length) (recDown r) ws) g.val
        { o with cost := 8 + ws.length, done := true })) ∧
    (∀ came rest a, 1 ≤ recFn r → recFn r ≤ 3 → (recFn r = 1 → (nextLive s g.val (recDown r)).isSome = true) →
      takeFold (recDown r) (s.col g.val).inbox = some (came, rest) → o.started = some a →
      let sum := foldSum (s.col g.val) r came
      let o1 := { o with cost := max (8 + came.length) (came.foldl (fun (m : Nat) (w : LinkWord) => max m w.at_) 0 + 4 - a),
                         lastData := s.now }
      let t := s.setCol g.val { s.col g.val with inbox := rest }
      (sum = .mismatch → Gives (.pfold g i) s (putOp t g.val { o1 with status := stMode, done := true })) ∧
      (∀ q, sum ≠ .mismatch → recFn r = 1 → nextLive s g.val (recDown r) = some q →
        Gives (.pfold g i) s (putOp (foldSend t g.val q (a + o1.cost) (recDown r) (foldWords r sum)) g.val { o1 with done := true })) ∧
      (sum ≠ .mismatch → recFn r = 2 →
        Gives (.pfold g i) s (putOp (t.modCol g.val fun k => foldKeep k r sum) g.val { o1 with done := true })) ∧
      (sum ≠ .mismatch → recFn r = 3 →
        Gives (.pfold g i) s (putOp (t.setCol g.val (foldOut (t.col g.val) r sum).1) g.val
          { o1 with assay := (countFlags (foldOut (t.col g.val) r sum).2).word, done := true }))))

/-- PDRAIN and PFENCE (R113, R114): a drain to the hub takes 16 cycles and one for each 8 bytes written, writes its pieces in order
within them (R139), and ends with the status of its writes; one into the column writes whole rows; a fence is done once none of the
operations that it waits for is in the window; a broadcast load or a receiving fold that has had no data for 10 ms ends TIMEOUT
(R115). -/
def Obligations.PickDrainsAndFences : Prop :=
  ∀ (g : PickId) (i : Fin 5) (s : State) (o : PickOp),
    let s1 := claimWaitEnd s g.val
    let ps := drainPieces (s1.col g.val) o.record
    let cost := 16 + ceilDiv (ps.map fun p => p.2.length).sum 8
    (∀ a, runningOp s1 g.val i.val opPdrain = some o → recFn o.record ≠ 1 → o.started = some a →
      (s.now < a + cost → Gives (.pdrain g i) s s1) ∧
      (∀ t st bs, a + cost ≤ s.now →
        innerAccess s1 (pickReq g.val o) 0 (recDstVa o.record) true (ps.map fun p => ⟨o.dstPa + p.1, p.2.length, true⟩)
          (cleanBytes (ps.flatMap (·.2))) = .ok t (st, bs) →
        Gives (.pdrain g i) s (putOp (innerDrop t fun w => w == .pick o.uid) g.val
          { o with done := true, status := if st = stOk then o.status else st, cost := cost }))) ∧
    (runningOp s1 g.val i.val opPdrain = some o → recFn o.record = 1 →
      let bs := ps.flatMap (·.2)
      let e := (List.range (ceilDiv bs.length 2048)).foldl (fun (p : State × PickOp) j =>
        rowWrite p.1 g.val p.2 p.2.dstPa j (cleanBytes (sliceBytes bs (2048 * j) 2048))) (s1, o)
      Gives (.pdrain g i) s (putOp e.1 g.val { e.2 with done := true })) ∧
    (runningOp s g.val i.val opPfence = some o →
      ((∀ x ∈ (s.col g.val).window, x.uid ∉ o.waitsFor) → Gives (.pfence g i) s (putOp s g.val { o with done := true })) ∧
      ((∃ x ∈ (s.col g.val).window, x.uid ∈ o.waitsFor) → Gives (.pfence g i) s s)) ∧
    (∀ a, (s.col g.val).window[i.val]? = some o → o.started = some a → o.done = false →
      ((recOp o.record = opPload ∧ recFn o.record = 0) ∨ (recOp o.record = opPfold ∧ recFn o.record ≠ 0)) →
      o.lastData + 8000000 ≤ s.now → Gives (.pickDataTimeout g i) s (pickEnd s g.val o stTimeout))

/-! ## Ordinary requests (chapters 02, 04, 10) -/

/-- ORDINARY_REQUEST (R40, R41, R284): a length of 0 or above 4,096 is MODE; a request that translation refuses is answered with its
status, counted and logged; one that reaches DRAM becomes a transfer, whose single granule is served at once when no claim, no
earlier request of its codewords, no running operation and no link failure holds it: the bytes are answered. -/
def Obligations.OrdinaryRequestsAreTranslatedAndServed : Prop :=
  ∀ (s : State) (o : Origin) (c : CtxId) (nc : Bool) (va : Addr) (len : BitVec 13) (data : List Byte),
    (len = 0 ∨ 4096 < len.toNat →
      Gives (.ordinaryRequest o c false nc va len []) s (answer s o c.val true stMode [] va.toNat)) ∧
    (∀ st, 1 ≤ len.toNat → len.toNat ≤ 4096 → s.life.warm = none →
      translate s c.val va.toNat len.toNat false (!nc) = .fail st →
      Gives (.ordinaryRequest o c false nc va len []) s
        (answer (xlateRefused s o c.val va.toNat st) o c.val true st [] va.toNat)) ∧
    (∀ pa, 1 ≤ data.length → data.length ≤ 4096 → s.life.warm = none →
      translate s c.val va.toNat data.length true (!nc) = .pa pa → isDramPage (pa / 2 ^ 24) = true →
      Gives (.ordinaryRequest o c true nc va len data) s
        (startXfer s (ownerOf o) (codeOf o) (BitVec.ofNat 6 c.val) true (BitVec.ofNat 64 va.toNat) pa data.length data)) ∧
    (∀ pa code (x : Gran), 1 ≤ len.toNat → len.toNat ≤ 4096 → s.life.warm = none →
      translate s c.val va.toNat len.toNat false (!nc) = .pa pa → isDramPage (pa / 2 ^ 24) = true →
      granulesOf s pa len.toNat = [x] → x.base = 0 → x.len = len.toNat →
      let p := x.place
      (s.col p.col).pathFailed = false → claimHolders s p.col p.die p.row false = [] → portBusy s p.col = false →
      colStalled s p.col = false → (s.stack (stackOf p.col)).linkUp = true → (placesTaken s (stackOf p.col)).length < 512 →
      (∀ w ∈ s.waits, w.held = true → stackOf w.col ≠ stackOf p.col) →
      (∀ w ∈ s.waits, ¬ (w.col = p.col ∧ w.die = p.die ∧ w.row = p.row ∧ shareCw w.off w.len p.byte x.len = true)) →
      (∀ z ∈ s.xfers, z.id ≠ s.reqNext) →
      let bs := (dramRead (actRow s p.col p.die p.row) p.col p.die p.row p.byte x.len code (BitVec.ofNat 6 c.val)).2
      ∃ t, Gives (.ordinaryRequest (.unit code) c false nc va len []) s t ∧
        t.out.getLast? = some (.unitRsp code (if anyPoison bs then stPoison else stOk) (hidePoison bs)) ∧ t.xfers = s.xfers)

/-- Waits on claims (R124): once its claims and the earlier requests to its codewords are gone, a waiting granule is served and its wait
recorded; a request that has waited 10 ms ends TIMEOUT with no data, and counts; nothing else changes while it waits. A row-step
boundary (R125, R284, R285): refresh work that is due first, then the requests whose claim waits ended, then up to eight others, the
oldest first but that one of a bank's open row goes ahead for at most 16 codewords in a row; each delays the operation that uses the
column port by 24 cycles, one for each codeword and 12 for each codeword that a write changes in part. -/
def Obligations.ClaimWaitsAndRowSteps : Prop :=
  (∀ (s : State) (g : PickId),
    (∀ r, (s.waits.filter fun w => w.col == g.val && claimWaits w) = [r] → waitOver s r = true →
      Gives (.claimWaitEnd g) s (crossbarIn (serveWait (claimWaited s g.val (s.now - r.arrived)) r) (stackOf g.val))) ∧
    ((∀ r ∈ s.waits, r.col = g.val → waitOver s r = false) → (∀ r ∈ s.waits, r.held = true → stackOf r.col ≠ stackOf g.val) →
      Gives (.claimWaitEnd g) s s) ∧
    (∀ r, s.waits.find? (fun w => w.col == g.val && claimWaits w && decide (w.arrived + 8000000 ≤ s.now)) = some r →
      Gives (.claimWaitTimeout g) s (crossbarIn (requestTimeout ((claimWaited s g.val (s.now - r.arrived)).modStack (stackOf g.val)
        fun k => { k with claimTimeouts := satInc k.claimTimeouts }) r) (stackOf g.val))) ∧
    (∀ r x c, (s.waits.filter fun w => sameRequest w r) = [r] → s.xfers.find? (fun z => z.id == r.xfer) = some x → x.left = 1 →
      x.status = stOk → x.owner = .unit c →
      (requestTimeout s r).out = s.out ++ [.unitRsp c stTimeout []] ∧ ∀ z ∈ (requestTimeout s r).waits, sameRequest z r = false)) ∧
  (∀ (s : State) (g : PickId),
    (let s1 := if insertionDue s g.val then insertOwed s g.val else s
     let s2 := (s1.col g.val).trrOwed.foldl (fun t _ => targetedRefresh t g.val) s1
     (colStalled s2 g.val = true → Gives (.rowStepBoundary g) s s2) ∧
     (colStalled s2 g.val = false →
       Gives (.rowStepBoundary g) s
         (crossbarIn (claimWaitEnd (serveOthers g.val 8 [] (claimWaitEnd s2 g.val)) g.val) (stackOf g.val)))) ∧
    ((∀ r ∈ s.waits, r.col = g.val → r.held = true ∨ claimWaits r = true) → ∀ n o, serveOthers g.val n o s = s) ∧
    (∀ r rest n, (s.waits.filter fun r => r.col == g.val && !r.held && !claimWaits r) = r :: rest →
      serveOthers g.val (n + 1) [] s = serveOthers g.val n (tset (4096, 0) [] r.die (r.row, 0)) (serveWait s r)) ∧
    (∀ o o' r rest x, pickGran o (r :: rest) = some (x, o') → x = r ∨
      (x ∈ rest ∧ x.die = r.die ∧ x.row = (tget (4096, 0) o r.die).1 ∧
        (tget (4096, 0) o r.die).2 + (cwsOf x.off x.len).length ≤ 16)) ∧
    (∀ r : GranReq, r.wr = false → granCost r = 24 + (cwsOf r.off r.len).length) ∧
    (∀ r : GranReq, r.wr = true → r.off % 32 = 0 → r.len % 32 = 0 → granCost r = 24 + r.len / 32))

/-! ## Refresh (chapter 10) -/

/-- Interval k of a column that is due (R287, R288, R292): with no die busy, row k of all 16 dies (that the fill has reached, R312) is
refreshed or waived under its credit, and the pointer moves on by one interval of the column's rate; before its time, or before
refresh has started, nothing changes. Owed refreshes (R288) are performed as one insertion of 4 + 36 n cycles when eight are owed or
the port is free; a targeted refresh (R295) leaves the due list and counts, and on a busy die delays the running operation. -/
def Obligations.RefreshKeepsTime : Prop :=
  (∀ (s : State) (g : PickId),
    ((s.col g.val).refStarted = true → (s.col g.val).retired = false → (s.col g.val).refDue ≤ s.now →
      busyDies (columnRate s g.val) g.val = [] →
      Gives (.refreshIntervalDue g) s
        (nextInterval (((List.range 16).filter (dieRefreshed (s.col g.val) (s.col g.val).refDue)).foldl
          (refreshDie g.val (s.col g.val).refK (s.col g.val).refDue) (columnRate s g.val)) g.val)) ∧
    (∀ (c : Col) (due : Nat), c.refFrom + 3670248 ≤ due → (List.range 16).filter (dieRefreshed c due) = List.range 16) ∧
    ((s.col g.val).refStarted = false ∨ (s.col g.val).retired = true ∨ s.now < (s.col g.val).refDue →
      Gives (.refreshIntervalDue g) s s) ∧
    (tabWf ({} : Col) s.cols = true → (s.col g.val).refK ≠ 4095 →
      ((nextInterval s g.val).col g.val).refK = (s.col g.val).refK + 1 - (((s.col g.val).refK + 1) / 4096) * 4096 ∧
      ((nextInterval s g.val).col g.val).refDue = (s.col g.val).refDue + trefi (s.col g.val).refRate) ∧
    trefi .cool = 3100 ∧ trefi .hot = 1550 ∧ trefi .rescue = 775) ∧
  (∀ (s : State) (g : PickId),
    (insertionDue s g.val = false → Gives (.owedRefreshInsertion g) s s) ∧
    ((s.col g.val).owed ≠ [] → (8 ≤ (s.col g.val).owed.length ∨ portBusy s g.val = false) →
      Gives (.owedRefreshInsertion g) s
        (delayOp ((((s.col g.val).owed.foldl (fun u o => o.dies.foldl (refreshDie g.val o.row o.due) u) s).modCol g.val
          fun c => { c with owed := [] }).modStack (stackOf g.val) fun x => { x with refInsertions := x.refInsertions + 1 })
          g.val (4 + 36 * (s.col g.val).owed.length))) ∧
    (∀ die row rest, (s.col g.val).trrOwed = (die, row, false) :: rest → (busyDies s g.val).contains die = false →
      Gives (.targetedRefresh g) s
        ((s.modCol g.val fun c => { c with trrOwed := rest }).modStack (stackOf g.val) fun k => { k with rowTrr := satInc k.rowTrr })) ∧
    (∀ die row rest, (s.col g.val).trrOwed = (die, row, false) :: rest → (busyDies s g.val).contains die = true →
      Gives (.targetedRefresh g) s
        (((delayOp s g.val 148).modCol g.val fun c => { c with trrOwed := rest }).modStack (stackOf g.val)
          fun k => { k with rowTrr := satInc k.rowTrr })) ∧
    (∀ die seg rest, (s.col g.val).trrOwed = (die, seg, true) :: rest → (busyDies s g.val).contains die = false →
      Gives (.targetedRefresh g) s
        ((s.modCol g.val fun c => { c with trrOwed := rest }).modStack (stackOf g.val) fun k => { k with segTrr := satInc k.segTrr })))

/-! ## Command paths and hub links (chapter 10) -/

/-- A command parity alert (R296) counts and replays the window; the fourth of one window starts lane training; trained, the commands
are replayed once more, and what the column held meanwhile goes on; a further alert of that window fails the path, which then takes no
more alerts. -/
def Obligations.CommandPathAlerts : Prop :=
  ∀ (s : State) (g : PickId), (s.col g.val).pathFailed = false →
    let n := stackOf g.val
    let s1 := s.modStack n fun k => { k with cmdAlerts := satInc k.cmdAlerts }
    ((s.col g.val).laneTraining = false → (s.col g.val).alerts = 0 →
      Gives (.commandParityAlert g) s
        ((s1.setCol g.val { s.col g.val with alerts := 1, alertAt := s.now, laneTrained := false }).modStack n
          fun k => { k with cmdReplays := satInc k.cmdReplays })) ∧
    ((s.col g.val).laneTraining = false → (s.col g.val).alerts = 3 → s.now ≤ (s.col g.val).alertAt + replayWindow →
      (s.col g.val).laneTrained = false →
      Gives (.commandParityAlert g) s
        ((s1.setCol g.val { s.col g.val with alerts := 0, laneTraining := true }).modStack n
          fun k => { k with cmdRetrains := satInc k.cmdRetrains })) ∧
    ((s.col g.val).laneTraining = true →
      Gives (.commandLaneRetrained g) s
        (serveFree ((s.setCol g.val { s.col g.val with laneTraining := false, laneTrained := true, alerts := 1,
                                                       alertAt := s.now }).modStack
          n fun k => { k with cmdReplays := satInc k.cmdReplays }) g.val)) ∧
    ((s.col g.val).laneTraining = true → colStalled s g.val = true) ∧
    ((s.col g.val).laneTraining = false → (s.col g.val).alerts ≠ 0 → s.now ≤ (s.col g.val).alertAt + replayWindow →
      (s.col g.val).laneTrained = true → Gives (.commandParityAlert g) s (pathFail s1 g.val))

/-- The hub link (R297): a good frame with the expected number is delivered once and the number moves on; one that fails its CRC
counts, and the sender replays from the expected number; after four replays of one frame the link goes down and retrains; retrained,
it runs again and the requests held for its stack go on in arrival order. A request that has waited 10 ms for a link that is down
ends TIMEOUT. -/
def Obligations.HubLinkFramesAndRecovery : Prop :=
  (∀ (s : State) (n : StackId) (ftype : Byte) (payload : List Byte) (crc : W32) (seq : Byte), (s.stack n.val).linkUp = true →
    (payload.length = 64 → crc32 ([seq, ftype] ++ payload) = crc → seq = (s.stack n.val).seqDown →
      Gives (.shaftLinkFrame n true seq ftype payload crc) s
        (s.setStack n.val { s.stack n.val with framesDown := frameKept (s.stack n.val).framesDown (seq, ftype, payload),
                                               seqDown := seq + 1, replayDown := 0, dropDown := false })) ∧
    (payload.length = 64 → crc32 ([seq, ftype] ++ payload) = crc → seq = (s.stack n.val).seqUp →
      Gives (.shaftLinkFrame n false seq ftype payload crc) s
        (s.setStack n.val { s.stack n.val with framesUp := frameKept (s.stack n.val).framesUp (seq, ftype, payload),
                                               seqUp := seq + 1, replayUp := 0, dropUp := false })) ∧
    (crc32 ([seq, ftype] ++ payload) ≠ crc → (s.stack n.val).dropDown = false →
      Gives (.shaftLinkFrame n true seq ftype payload crc) s
        (linkNak (s.setStack n.val { s.stack n.val with linkCrcErrors := satInc (s.stack n.val).linkCrcErrors }) n.val true)) ∧
    ((s.stack n.val).replayDown < 4 → (linkNak s n.val true).out =
      s.out ++ [.shaftNak n.val (s.stack n.val).seqDown,
        .shaftReplay n.val (s.stack n.val).seqDown (framesFrom (s.stack n.val).framesDown (s.stack n.val).seqDown)]) ∧
    (4 ≤ (s.stack n.val).replayDown → linkNak s n.val true =
      logShaftLink (s.setStack n.val
        { s.stack n.val with
          linkUp := false, linkDownAt := s.now, linkRetrains := satInc (s.stack n.val).linkRetrains,
          replayDown := 0, replayUp := 0, dropDown := false, dropUp := false }) n.val 5)) ∧
  (∀ (s : State) (n : StackId), (s.stack n.val).linkUp = false →
    ((s.stack n.val).linkRetrains ≠ 0 → s.waits = [] →
      Gives (.shaftLinkRetrained n) s (logShaftLink (s.setStack n.val { s.stack n.val with linkUp := true }) n.val 3)) ∧
    ((s.stack n.val).linkRetrains ≠ 0 →
      Gives (.shaftLinkRetrained n) s
        (crossbarIn (logShaftLink (s.modStack n.val fun k => { k with linkUp := true }) n.val 3) n.val)) ∧
    (∀ r, s.waits.find? (fun w => stackOf w.col == n.val && w.held &&
        decide (max w.arrived (s.stack n.val).linkDownAt + 8000000 ≤ s.now)) = some r →
      Gives (.stackRequestTimeout n) s (requestTimeout s r)))

/-! ## Scrubbing and row repair (chapter 10) -/

/-- Write-back and scrub (R302, R305): in idle cycles of the column its oldest entry leaves the queue
and a correctable codeword is written back corrected; a scrub step reads the next row, or skips and counts a claimed one, and moves
on through the 16 dies of a row, then to the next row. -/
def Obligations.WriteBackAndScrub : Prop :=
  ∀ (s : State) (g : PickId), colIdle s g.val = true →
    (∀ l, wbqHead s g.val = some l →
      let t := actRow (s.modStack (stackOf g.val) fun k => { k with wbq := k.wbq.filter fun x => x ≠ l }) g.val (locDie l) (locRow l)
      (cwState t g.val (locDie l) (locRow l) (locCw l) = .clean → Gives (.writeBackEntry g) s t) ∧
      (∀ p e, cwState t g.val (locDie l) (locRow l) (locCw l) = .fix p e →
        Gives (.writeBackEntry g) s (cwFix t g.val (locDie l) (locRow l) (locCw l) p e))) ∧
    ((s.stack (stackOf g.val)).scrubEnable = true → (s.col g.val).refStarted = true → (s.col g.val).retired = false →
      wbqHead s g.val = none →
      let c := s.col g.val
      (rowClaimed s g.val c.scrubDie c.scrubRow = true →
        Gives (.scrubStep g) s
          (scrubAdvance (s.modStack (stackOf g.val) fun k => { k with scrubSkipped := satInc k.scrubSkipped }) g.val)) ∧
      (rowClaimed s g.val c.scrubDie c.scrubRow = false →
        Gives (.scrubStep g) s (scrubAdvance
          ((List.range 64).foldl (scrubCw g.val c.scrubDie c.scrubRow) (actRow s g.val c.scrubDie c.scrubRow)) g.val))) ∧
    ((s.stack (stackOf g.val)).scrubEnable = false → Gives (.scrubStep g) s s) ∧
    (∀ c : Col, tabWf ({} : Col) s.cols = true → s.col g.val = c → c.scrubDie < 15 →
      ((scrubAdvance s g.val).col g.val) = { c with scrubDie := c.scrubDie + 1 })

/-- REMAP_REQ (Table 10.10, R309, R356): while a write is held BUSY; reserved bits or another stack are OOB, a retired column FENCED,
a remap in progress BUSY, no room OOB with a record; otherwise the remap starts and the write is held. -/
def Obligations.RemapRequests : Prop :=
  ∀ (p : DictPath) (n : StackId) (l : W64) (s u : State), Opens s u p (remapIdx n.val) 0x42 →
    (remapHeld u n.val = true → Answers (.remapReq p n l) s u p stBusy) ∧
    (remapHeld u n.val = false → (bitsAt l 63 35 ≠ 0 ∨ bitsAt l 33 31 ≠ n.val ∨ bitAt l 34 = true) →
      Answers (.remapReq p n l) s u p stOob) ∧
    (remapHeld u n.val = false → bitsAt l 63 35 = 0 → bitsAt l 33 31 = n.val → bitAt l 34 = false →
      ((u.col (locCol l)).retired = true → Answers (.remapReq p n l) s u p stFenced) ∧
      ((u.col (locCol l)).retired = false → (u.stack n.val).remapJob.isSome = true → Answers (.remapReq p n l) s u p stBusy) ∧
      ((u.col (locCol l)).retired = false → (u.stack n.val).remapJob = none → remapRoom u (locCol l) (locDie l) (locRow l) = false →
        Answers (.remapReq p n l) s (logRemap u l stOob 0) p stOob) ∧
      ((u.col (locCol l)).retired = false → (u.stack n.val).remapJob = none → remapRoom u (locCol l) (locDie l) (locRow l) = true →
        Gives (.remapReq p n l) s (dictHold (remapStart u (l &&& ~~~ 0x3F) (some p)) p (remapIdx n.val) 0x42)))

/-- A remap in progress (R308): its claim is granted when what it waits for is gone; 200 cycles later the row's 64 codewords are
copied to the lowest free pillar row and the mapping stands; not granted within 10 ms it ends TIMEOUT (R309). `remap_sel` takes a
snapshot of a column's table (R313). -/
def Obligations.RemapsProceed : Prop :=
  ∀ (s : State) (n : StackId) (j : RemapJob),
    ((s.stack n.val).remapJob = some j →
      (j.granted = none → j.holders = [] → j.behind = [] →
        Gives (.remapCopy n) s (s.modStack n.val fun k => { k with remapJob := some { j with granted := some s.now } })) ∧
      (∀ a, j.granted = some a → s.now < a + 200 → Gives (.remapCopy n) s s) ∧
      (∀ a, j.granted = some a → a + 200 ≤ s.now → Gives (.remapCopy n) s (remapDo s n.val j)) ∧
      (j.granted = none → j.since + 8000000 ≤ s.now →
        Gives (.remapClaimTimeout n) s (remapEnd s n.val j stTimeout))) ∧
    (∀ (c : Col) (die row spare : Nat), (∀ r ∈ c.remaps, ¬ (r.die = die ∧ r.row = row)) →
      (enterRemap c die row spare).remaps = c.remaps ++ [⟨die, row, spare⟩] ∧
        physRow (enterRemap c die row spare) die row = 4096 + spare) ∧
    (∀ (p : DictPath) (v : W16) (u : State), Opens s u p (remapIdx n.val) 1 →
      (v.toNat ≤ 511 → Answers (.remapSel p n v) s
        (u.setStack n.val { u.stack n.val with remapSel := v,
                                               remapSnap := (u.col (n.val * 512 + v.toNat)).remaps.map remapWord }) p stOk) ∧
      (511 < v.toNat → Answers (.remapSel p n v) s u p stOob))

/-! ## The face sequencer (chapter 06) -/

/-- SETX writes the sum, product or left shift of X[xa] and `imm`, modulo 2³², to X[xd], and no other register; X0 stays 0. SETVL
sets VL to X[xa] + `imm`; a value of 0 or above 64 leaves VL, and the task completes with OOB (R162). Each takes a cycle (R167), and
nothing else changes. -/
def Obligations.SetxAndSetvlFollowTheirRule : Prop :=
  ∀ (s : State) (f : FaceId) (t : FaceTask) (d : BitVec 256),
    tabWf ({} : Face) s.faces = true → tabWf (0 : W32) (s.face f.val).xregs = true →
    let c := s.face f.val
    let a := xreg c.xregs (ctlXa d)
    let past : FaceTask := { t with pc := t.pc + 1, seqAt := s.now + 1 }
    (Turn s f t d 0x02 → xFree t (ctlXa d) = true → xFree t (ctlXd d) = true →
      ∀ v : W32, (ctlCond d = 0 ∧ v = a + ctlImm d ∨ ctlCond d = 1 ∧ v = a * ctlImm d ∨
          ctlCond d = 2 ∧ v = a <<< ((ctlImm d).toNat % 32)) →
        ∃ xs, Gives (.setx f) s (s.setFace f.val { c with xregs := xs, task := some past }) ∧
          ∀ x < 16, xreg xs x = if x = ctlXd d ∧ x ≠ 0 then v else xreg c.xregs x) ∧
    (Turn s f t d 0x03 → xFree t (ctlXa d) = true →
      (1 ≤ (a + ctlImm d).toNat → (a + ctlImm d).toNat ≤ 64 →
        Gives (.setvl f) s (s.setFace f.val { c with vl := (a + ctlImm d).toNat, task := some past })) ∧
      ((a + ctlImm d).toNat = 0 ∨ 64 < (a + ctlImm d).toNat →
        ∃ u, Gives (.setvl f) s u ∧ (u.face f.val).vl = c.vl ∧
          (t.ops = [] → ∃ w, Gives (.taskCompletion f) u w ∧ (w.face f.val).task = none ∧ (w.face f.val).lastStatus = 0x04 ∧
            (w.face f.val).vl = c.vl)))

/-- LOOP and ENDL (R163): a count of 0 skips the body; otherwise an iteration begins with X[xd] = its index and, in a strip, VL the
smaller of 64 and what is left; ENDL goes back to the body's first descriptor until the count, or ⌈n ÷ 64⌉ for a strip, is used up,
and takes 2 cycles when it does (R167). BR (R164) transfers to its own index + `target` in 2 cycles when its condition over X[xa], a
mask's lanes below VL or a tally holds, and goes on in 1 cycle when it does not; a pending write of the register holds it. TALLY
applies its operation once (R166), and a fault fails the task. -/
def Obligations.LoopsBranchesAndTallies : Prop :=
  (∀ (s : State) (f : FaceId) (t : FaceTask) (d : BitVec 256),
    let c := s.face f.val
    let n := (xreg c.xregs (ctlXa d) + ctlImm d).toNat
    (Turn s f t d 0x04 → xFree t (ctlXa d) = true → xFree t (ctlXd d) = true →
      (n = 0 → ctlCond d ≤ 1 → Gives (.loopOpen f) s (goTo s f.val (skipLoop (c.program.drop (t.pc + 1)) (t.pc + 1) 0 1))) ∧
      (n ≠ 0 → ctlCond d ≤ 1 →
        let l : LoopFrame := { start := t.pc + 1, left := if ctlCond d = 1 then ceilDiv n 64 else n, iter := 0,
                               strip := ctlCond d == 1, elems := n, xd := ctlXd d }
        let c1 : Face := { c with xregs := setX c.xregs (ctlXd d) 0, vl := if ctlCond d = 1 then min 64 n else c.vl }
        Gives (.loopOpen f) s (modTask (s.setFace f.val c1) f.val fun t =>
          { t with pc := t.pc + 1, loops := l :: t.loops, seqAt := s.now + 1 }))) ∧
    (Turn s f t d 0x05 →
      ∀ l rest, t.loops = l :: rest →
        (l.left ≤ 1 → Gives (.endl f) s (modTask s f.val fun t => { t with pc := t.pc + 1, loops := rest, seqAt := s.now + 1 })) ∧
        (1 < l.left → xFree t l.xd = true →
          let l' : LoopFrame := { l with left := l.left - 1, iter := l.iter + 1, elems := l.elems - 64 }
          let c1 : Face := { c with xregs := setX c.xregs l.xd (l.iter + 1), vl := if l.strip then min 64 (l.elems - 64) else c.vl }
          Gives (.endl f) s (modTask (s.setFace f.val c1) f.val fun t =>
            { t with pc := l.start, loops := l' :: rest, seqAt := s.now + 2 })))) ∧
  (∀ (s : State) (f : FaceId) (t : FaceTask) (d : BitVec 256),
    let c := s.face f.val
    let a := xreg c.xregs (ctlXa d)
    (Turn s f t d 0x06 →
      (∀ k, brTarget c.program.length t.pc d = some k →
        (ctlCond d = 0 → Gives (.br f) s (goTo s f.val k 2)) ∧
        (xFree t (ctlXa d) = true →
          (ctlCond d = 1 ∧ a = ctlImm d ∨ ctlCond d = 2 ∧ a ≠ ctlImm d ∨ ctlCond d = 3 ∧ a.toNat < (ctlImm d).toNat ∨
            ctlCond d = 4 ∧ (ctlImm d).toNat ≤ a.toNat) → Gives (.br f) s (goTo s f.val k 2)) ∧
        (mFree t (ctlMk d) = true →
          (ctlCond d = 5 ∧ (∃ i < c.vl, bitAt (tget 0 c.masks (ctlMk d)) i = true) ∨
            ctlCond d = 6 ∧ (∀ i < c.vl, bitAt (tget 0 c.masks (ctlMk d)) i = true) ∨
            ctlCond d = 7 ∧ (∀ i < c.vl, bitAt (tget 0 c.masks (ctlMk d)) i = false)) → Gives (.br f) s (goTo s f.val k 2)) ∧
        (∀ v, tallyOf s t.ctx.toNat (.virt (ctlVtally d)) = some v →
          (ctlCond d = 8 ∧ (ctlImm d).toNat ≤ (s.cell v).value.toNat ∨ ctlCond d = 9 ∧ (s.cell v).value.toNat < (ctlImm d).toNat) →
          Gives (.br f) s (goTo s f.val k 2))) ∧
      (xFree t (ctlXa d) = true →
        (ctlCond d = 1 ∧ a ≠ ctlImm d ∨ ctlCond d = 2 ∧ a = ctlImm d ∨ ctlCond d = 3 ∧ (ctlImm d).toNat ≤ a.toNat ∨
          ctlCond d = 4 ∧ a.toNat < (ctlImm d).toNat) → Gives (.br f) s (goTo s f.val (t.pc + 1))) ∧
      (xFree t (ctlXa d) = false → 1 ≤ ctlCond d → ctlCond d ≤ 4 → Gives (.br f) s s)) ∧
    (Turn s f t d 0x08 → ∀ u st,
      tallyOp s (codeFace (faceL s f.val)) t.ctx.toNat (.virt (ctlVtally d))
        (if ctlCond d = 0 then topAdd else if ctlCond d = 1 then topSub else topArrive) (ctlImm d) = (u, st) → ctlCond d ≤ 2 →
      let w := withTag (descTag d) s u
      (st = stOk → Gives (.seqTally f) s (goTo w f.val (t.pc + 1))) ∧
      (st ≠ stOk → Gives (.seqTally f) s
        (taskFail { w with reqNext := w.reqNext + 1 } f.val w.reqNext st (descTag d)))))

/-- FENCE waits for every earlier engine operation; END ends the issue; the task then completes with OK, or with the status of its
first failing descriptor, once the scoreboard is empty (R166, R169). WAITT (R165): a watch that fires at once lets the sequencer go
on; an armed one makes it wait, and issue nothing, until it fires; once `tmo` µs have passed the watch is withdrawn and the task
fails with TIMEOUT. -/
def Obligations.TasksWaitFenceAndComplete : Prop :=
  (∀ (s : State) (f : FaceId) (t : FaceTask) (d : BitVec 256),
    (Turn s f t d 0x09 → (t.ops = [] → Gives (.seqFence f) s (goTo s f.val (t.pc + 1))) ∧
      (t.ops ≠ [] → Gives (.seqFence f) s s)) ∧
    (Turn s f t d 0x01 → Gives (.faceEnd f) s (modTask s f.val fun t => { t with ending := true, seqAt := s.now + 1 })) ∧
    (let c := s.face f.val
     c.task = some t → t.wait = .none → t.ops = [] →
     (t.ending = true → t.fail = none → t.seqAt ≤ s.now →
       let c1 : Face := { c with tasksDone := c.tasksDone + 1, lastStatus := stOk, task := none }
       Gives (.taskCompletion f) s (taskMemberDone (s.setFace f.val c1) t.q t.seq (faceL s f.val) stOk t.assay)) ∧
     (∀ u st tag, t.fail = some (u, st, tag) →
       let c1 : Face := { c with tasksDone := c.tasksDone + 1, lastStatus := st, lastFailTag := tag, task := none }
       Gives (.taskCompletion f) s (taskMemberDone (s.setFace f.val c1) t.q t.seq (faceL s f.val) st t.assay)))) ∧
  (∀ (s : State) (f : FaceId) (t : FaceTask) (d : BitVec 256),
    (Turn s f t d 0x07 → ctlCond d ≤ 1 → ∀ u o,
      innerWatch s (.face (faceL s f.val)) t.ctx.toNat (ctlVtally d) (ctlImm d) (ctlCond d == 1) = (u, o) →
      let w := withTag (descTag d) s u
      (o = .fired → Gives (.waitt f) s (goTo w f.val (t.pc + 1))) ∧
      (o = .armed ∨ o = .queued → Gives (.waitt f) s
        (modTask w f.val fun t => { t with wait := .watching s.now, seqAt := s.now + 1 })) ∧
      (∀ st, o = .fail st → Gives (.waitt f) s (taskFail { w with reqNext := w.reqNext + 1 } f.val w.reqNext st (descTag d)))) ∧
    (∀ a, (s.face f.val).task = some t → current (s.face f.val) t = d → descOpc d = 0x07 → t.wait = .watching a →
      (ctlTmo d = 0 → Gives (.waittTimeout f) s s) ∧
      (s.now < a + ctlTmo d * 800 → Gives (.waittTimeout f) s s) ∧
      (ctlTmo d ≠ 0 → a + ctlTmo d * 800 ≤ s.now →
        let u := faceWake (withdrawTarget s (.face (faceL s f.val))) f.val
        Gives (.waittTimeout f) s (taskFail { u with reqNext := u.reqNext + 1 } f.val u.reqNext 0x0C (descTag d)))))

/-- TASK_START (R158, R159): an idle bound face of a cluster that is ON takes its next task; a count outside 1 to 512 or a context
without the right to its SRAM refuses it; with its program in the buffer it runs at once, with X8 to X15 the eight argument words,
the other registers 0 and VL 64. -/
def Obligations.TasksStart : Prop :=
  ∀ (s : State) (f : FaceId) (l : Nat) (r : TaskReq),
    let c := s.face f.val
    c.logical = some l → c.task = none → c.fenced = false → c.resetting = false → domainOn s (11 + clusterOf f.val) = true →
    heldTask s l = some r →
    (sramRight s r.ctx.toNat (0xC000 + l / 2) = false → Gives (.taskStart f) s (refuseTask s f.val r stProt)) ∧
    (sramRight s r.ctx.toNat (0xC000 + l / 2) = true → r.ndesc = 0 ∨ 512 < r.ndesc →
      Gives (.taskStart f) s (refuseTask s f.val r stOob)) ∧
    (sramRight s r.ctx.toNat (0xC000 + l / 2) = true → r.reload = false → c.progVa = r.progVa → c.program.length = r.ndesc →
      1 ≤ r.ndesc → r.ndesc ≤ 512 → badDescriptor c.program = none →
      let t : FaceTask := { q := r.q, seq := r.seq, ctx := r.ctx, started := s.now, seqAt := s.now }
      Gives (.taskStart f) s (dropTask (s.setFace f.val { taskRegs c r with task := some t }) r)) ∧
    (taskRegs c r).vl = 64 ∧
    (r.args.length = 8 → ∀ x < 16, xreg (taskRegs c r).xregs x = if 8 ≤ x then r.args.getD (x - 8) 0 else 0)

/-- An engine operation starts when nothing earlier holds it back: a code that is not defined ends it with MODE, else a range that is
exceeded with OOB, with nothing read or written (R168); otherwise it runs. None starts on a gated face (R276), in a cycle that the
issue duty closes (R420), or outside one cycle of four at the floor rate (R277). Its cycles passed, it leaves the scoreboard (R169),
which never holds more than 16 operations (R167). -/
def Obligations.EngineOperationsStartAndEnd : Prop :=
  (∀ (s : State) (f : FaceId) (i : Fin 16) (t : FaceTask) (o : EngOp), entered s f.val = s → (s.face f.val).task = some t →
    t.ops[i.val]? = some o →
    (o.started = none → engReady s f.val t o = true → descOpc o.desc ≠ 0x30 →
      (engCheck o = stOk → Gives (.engineOperationStart f i) s
        (putEngOp { s with reqNext := s.reqNext + 1 } f.val
          { o with started := some s.now, req := s.reqNext, cost := (engCycles o).1, busy := (engCycles o).2 })) ∧
      (engCheck o ≠ stOk → Gives (.engineOperationStart f i) s
        (putEngOp s f.val { o with started := some s.now, done := true, status := engCheck o, cost := 1, busy := 1 }))) ∧
    (o.started = none → engReady s f.val t o = false → Gives (.engineOperationStart f i) s s) ∧
    ((s.face f.val).gated = true ∨ dutyOpen (dutyOf s (8 + f.val)) s.now = false ∨ ((s.face f.val).floorRate = true ∧ s.now % 4 ≠ 0) →
      engReady s f.val t o = false) ∧
    (o.done = false ∨ engDue s f.val o = false ∨ (s.face f.val).gated = true → Gives (.engineOperationDone f i) s s) ∧
    (o.done = true → engDue s f.val o = true → (s.face f.val).gated = false → o.xout = none → descOpc o.desc ≠ 0x30 →
      let u := modTask s f.val fun t => { t with ops := t.ops.filter fun x => x.uid ≠ o.uid, seqAt := max t.seqAt s.now,
                                                 assay := assayAdd t.assay o.assay }
      (o.status = stOk → Gives (.engineOperationDone f i) s u) ∧
      (o.status ≠ stOk → Gives (.engineOperationDone f i) s (taskFail u f.val o.uid o.status (descTag o.desc))))) ∧
  (∀ (s : State) (f : Nat) (t : FaceTask), tabWf ({} : Face) s.faces = true →
    (∀ t0, (s.face f).task = some t0 → t0.ops.length ≤ 16) → ((entered s f).face f).task = some t → t.ops.length ≤ 16)

/-! ## The engines of a face (chapter 06) -/

/-- MMA (R171): accumulator (r, c) of the bank, r below M and c below N, takes the sum of its products over k, from 0 with `init` or
from its old value; every other accumulator and the SRAM are unchanged, after 16 + K cycles for 16-bit inputs, 16 + ⌈K ÷ 2⌉ for 8-bit.
VCHAIN of one INT32 ADD stage (R180): each lane below VL of the output register takes the sum with `imm0`, saturated. VHRED (R186):
MAX of INT32 gives the greatest lane below VL, in lane 0 of the destination. -/
def Obligations.EnginesComputeTheirResults : Prop :=
  ∀ (s : State) (f : FaceId) (i : Fin 16) (t : FaceTask) (o : EngOp),
    tabWf ({} : Face) s.faces = true → s.sramErr = [] →
    let c := s.face f.val
    (Runs s f i t o 0x10 → mmaCheck o = stOk → tabWf (0 : W32) c.accs = true →
      let a := (readSpan s f.val t.ctx (mmaA o)).2
      let b := (readSpan s f.val t.ctx (mmaB o)).2
      let cell (r n : Nat) : Val × Bool :=
        mmaCell (mxK o) (mxInputBits (mxAfmt o) == 16)
          (fun k => (valAt a (plainFmt (mxAfmt o)) (k * (mmaA o).len) r).mul (valAt b (plainFmt (mxBfmt o)) (k * (mmaB o).len) n))
          (if mxInit o then .zero else val32 (tget 0 c.accs (mxBank o * 4096 + r * 64 + n)))
      engCycles o = (16 + (if mxInputBits (mxAfmt o) = 16 then mxK o else ceilDiv (mxK o) 2),
        16 + (if mxInputBits (mxAfmt o) = 16 then mxK o else ceilDiv (mxK o) 2)) ∧
      ∃ accs fl, Gives (.mma f i) s (mxEnd s (s.setFace f.val { c with accs := accs }) f.val o stOk fl) ∧
        (∀ r < mxM o, ∀ n < mxN o, tget 0 accs (mxBank o * 4096 + r * 64 + n) = code32 (cell r n).1) ∧
        (∀ k, (∀ r < mxM o, ∀ n < mxN o, k ≠ mxBank o * 4096 + r * 64 + n) → tget 0 accs k = tget 0 c.accs k)) ∧
    (∀ g : Stage, Runs s f i t o 0x20 → chStages o.desc = [g] → chNstage o.desc = 1 → chBeats o.desc = 1 → chSink o.desc = 0 →
      chExp0 o.desc = false → chMin o.desc = false → chMout o.desc = false →
      g.sop = 1 → g.sa = 0 → g.sb = 4 → g.na = false → g.int = true →
      (chIn o.desc 0).reg = true → (chIn o.desc 0).fmt = 4 → (chOut o.desc).reg = true → (chOut o.desc).fmt = 4 →
      o.vl ≤ 64 → tabWf (0 : W32) c.vregs = true →
      engCycles o = (11, 1) ∧
      ∃ vregs fl, Gives (.vchain f i) s (vxEnd s (s.setFace f.val { c with vregs := vregs }) f.val { o with xout := none } stOk fl) ∧
        ∀ k, tget 0 vregs k =
          if (chOut o.desc).off % 32 * 64 ≤ k ∧ k < (chOut o.desc).off % 32 * 64 + o.vl then
            BitVec.ofInt 32 (max (-2 ^ 31) (min (2 ^ 31 - 1)
              ((vlane c ((chIn o.desc 0).off % 32) (k - (chOut o.desc).off % 32 * 64)).toInt + (chImm o.desc 0).toInt)))
          else tget 0 c.vregs k) ∧
    (Runs s f i t o 0x21 → hrFn o.desc = 1 → hrInt o.desc = true → hrXd o.desc = 0 → 1 ≤ o.vl → o.vl ≤ 64 →
      engCycles o = (14, 6) ∧
      ∃ v : W32, Gives (.vhred f i) s
          (vxEnd s (s.setFace f.val { c with vregs := tset 0 c.vregs (hrVd o.desc * 64) v }) f.val o stOk [{}]) ∧
        (∃ n < o.vl, v = vlane c (hrVs o.desc) n) ∧ ∀ n < o.vl, (vlane c (hrVs o.desc) n).toInt ≤ v.toInt)

/-- MXV of one vector (R172, R173), MSTORE of one row (R174) and PLANESUM (R187) write their results, in the formats that they name,
from the first byte of their destination; a word of SRAM found correctable is written back (R192). -/
def Obligations.EnginesStoreTheirResults : Prop :=
  ∀ (s : State) (f : FaceId) (i : Fin 16) (t : FaceTask) (o : EngOp), s.sramErr = [] →
    let c := s.face f.val
    (Runs s f i t o 0x11 → mxvCheck o = stOk → mxM o = 1 → mxvScaleBytes o = 0 →
      let x := (readSpan s f.val t.ctx (mxvX o)).2
      let w := (readSpan s f.val t.ctx (mxvW o)).2
      let y (r : Nat) : Nat × Flags :=
        let p := fastDot 32 (mxK o) (fun e => (valAt w (plainFmt (mxAfmt o)) 0 (mxvElem (mxN o) (mxK o) r e)).mul
          (valAt x (plainFmt (mxBfmt o)) 0 e)) (fun _ => .one) (.zero, false)
        let q := (ofmtOf (mxOfmt o)).convert .rne p.1
        (q.1, { q.2 with ovf := q.2.ovf || p.2 })
      let ys := (List.range (mxN o)).map y
      let c1 : Face := { c with vinbuf := (x.toList.zipIdx).foldl (fun t b => tset 0 t b.2 b.1.1) c.vinbuf }
      let u := engWrite (s.setFace f.val c1) f.val t.ctx (mxvY o).first (packElems (8 * mxvOutBytes o) (ys.map (·.1)))
      Gives (.mxv f i) s (mxEnd s u.1 f.val o u.2 (ys.map (·.2))) ∧
      (engCycles o).1 = 8 + ceilDiv (mxvVecBytes o) 2048 + max (ceilDiv (mxvWeightBytes o) 2048) (ceilDiv (mxN o * mxK o) 4096)) ∧
    (∀ g, Runs s f i t o 0x12 → faceFmt (mxBfmt o) = some g → mxM o = 1 →
      let m := roundings (mxRnd o) (mxN o) c.srState
      let r := storeElems g ((List.range (mxN o)).map fun j => val32 (tget 0 c.accs (mxBank o * 4096 + j))) m.1
      let u := engWrite (s.setFace f.val { c with srState := m.2 }) f.val t.ctx (mstoreC o).first r.1
      Gives (.mstore f i) s (mxEnd s u.1 f.val o u.2 r.2) ∧ (engCycles o).1 = 16 + ceilDiv (faceBytes g (mxN o)) 1024) ∧
    (Runs s f i t o 0x22 →
      let a := (readSpan s f.val t.ctx (psSrc o)).2
      let es := (List.range (psN o)).map fun j =>
        let x := planeSum a (psN o) (psPlanes o) j
        let q := (ofmtOf (psOfmt o)).convert .rne x.1
        ((q.1, { q.2 with ovf := q.2.ovf || x.2 }) : Nat × Flags)
      let u := engWrite s f.val t.ctx (psDst o).first (packElems (ofmtOf (psOfmt o)).bits (es.map (·.1)))
      Gives (.planesum f i) s (vxEnd s u.1 f.val o u.2 (es.map (·.2))) ∧
      engCycles o = (16 + psPlanes o * ceilDiv (psN o) 64, 16 + psPlanes o * ceilDiv (psN o) 64)) ∧
    (∀ (e : Tab Nat) w rest, c.writeBacks = w :: rest →
      let s1 : State := { s with sramErr := e }
      let u := s1.setFace f.val { c with writeBacks := rest }
      (tget 0 e w = 1 → Gives (.sramWriteBack f) s1 { u with sramErr := tset 0 e w 0 }) ∧
      (tget 0 e w ≠ 1 → Gives (.sramWriteBack f) s1 u))

/-! ## Hoists (chapter 07) -/

/-- A hoist's transfer moves its blocks in walk order (R200, R205 to R208). A COPY, a GATHER of an entry that it fetches and a SCATTER
of a block that lies in face SRAM complete the move: the destination block reads as the source block did and every other byte of
memory is unchanged. A SCATTER_ADD of an entry that is not repeated writes the sums of the two blocks (R207), a fused store the block
of the bank in the destination's format (R208), and leave every other byte. A broadcast puts its bytes into the segments of the stacks
addressed (R209, R210). The address of a block of a layout without tiles is its base and offset plus the strides times the
coordinates, in blocks, modulo 2⁴⁰ (R197). A transfer whose writes are acknowledged counts, keeps its status, and leaves the scoreboard
(R214, R217); a failed one fails its task. -/
def Obligations.HoistsMoveBlocksAndEnd : Prop :=
  (∀ (s : State) (f : FaceId) (hid : Fin 2) (t : FaceTask) (o : EngOp) (r : HoistRun) (x y p a q b k : Nat),
    runningHoist s f.val hid.val = some (t, o, r) → memWf s.mem = true → s.sramErr = [] →
    (∀ i, innerXfer s (.hoist f.val hid.val) i = none) →
    let d := o.desc
    let n := blockLen r.dstLd
    let src := sramKey p a
    let dst := sramKey q b
    let only (u : State) : Prop := ∀ j, j < dst ∨ dst + n ≤ j → u.rdByte j = s.rdByte j
    (r.mode = 0 → hoXpose d = false → hoFused d = false → hoBcast d = false → blockLen r.srcLd = n →
      moveOf d r r.moved = ⟨[x], [y], true, k⟩ → InSram s r x n p a → InSram s r y n q b →
      (hoKind d = 0 → ∃ u, exec (.hoistCopy f hid 1) s = .next u ∧ u.rdBytes dst n = s.rdBytes src n ∧ only u) ∧
      (hoKind d = 1 → ∃ u, exec (.hoistGather f hid 1) s = .next u ∧ u.rdBytes dst n = s.rdBytes src n ∧ only u) ∧
      (hoKind d = 2 → ∃ u, exec (.hoistScatter f hid 1) s = .next u ∧ u.rdBytes dst n = s.rdBytes src n ∧ only u) ∧
      (hoKind d = 3 → ldEtype r.dstLd ≤ 6 → isRepeat r (r.moved / unitBlocks d r) = false →
        isRepeat r (r.moved / unitBlocks d r + 1) = false → r.held = [] → r.dropped = [] →
        ∃ u, exec (.hoistScatterAdd f hid 1) s = .next u ∧
          u.rdBytes dst n = (addBlock (plainFmt (ldEtype r.dstLd)) (cleanBytes (s.rdBytes src n)) (cleanBytes (s.rdBytes dst n))).1 ∧
          only u)) ∧
    (r.mode = 0 → hoFused d = true → hoKind d = 0 → ∀ g, faceFmt (ldEtype r.dstLd) = some g → moveOf d r r.moved = ⟨[], [y], true, k⟩ →
      InSram s r y n q b →
      let m := roundings (hoRnd d) 32 (s.face f.val).srState
      ∃ u, exec (.hoistFusedStore f hid 1) s = .next u ∧
        u.rdBytes dst n = (storeElems g (fusedVals (s.face f.val) d r r.moved) m.1).1 ∧ only u ∧
        (tabWf ({} : Face) s.faces = true → (u.face f.val).srState = m.2)) ∧
    (isCopy d = false → ∀ n, Gives (.hoistCopy f hid n) s s) ∧
    (hoKind d ≠ 3 → ∀ n, Gives (.hoistScatterAdd f hid n) s s) ∧
    (∀ n : StackId, hoBcast d = true → r.moved = 0 → r.total = 1 → setBits (hoStacks d) = [n.val] →
      x = blockAddr r.srcLd r.sx (radix (ldExtents r.srcLd) 0) → ldEtype r.srcLd ≤ 6 → InSram s r x (blockLen r.srcLd) p a →
      tabWf ({} : Stack) s.stackTbl = true →
      ∃ u g, exec (.hoistBroadcast f hid) s = .next u ∧ (u.stack n.val).segments = (s.stack n.val).segments ++ [g] ∧
        g.data = s.rdBytes src (blockLen r.srcLd) ∧ g.poison = [] ∧ g.lane = hoLane d ∧ g.window = hoWindow d ∧ u.mem = s.mem) ∧
    (∀ (l : BitVec 512) (xo c0 c1 : Nat), ldTile l = 0 →
      (blockAddr l xo [c0, c1] : Int) =
        ((ldBase l + xo : Nat) + ((c0 : Int) * ldStride l 0 + c1 * ldStride l 1) * blockLen l).emod (2 ^ 40))) ∧
  (∀ (s : State) (f : FaceId) (hid : Fin 2) (t : FaceTask) (o : EngOp), entered s f.val = s →
    (s.face f.val).task = some t → t.ops = [o] → descOpc o.desc = 0x30 → hoHid o.desc = hid.val → o.started.isSome = true →
    (o.done = true → engDue s f.val o = true → (s.face f.val).gated = false → o.xout = none →
      let u := (modTask s f.val fun t => { t with ops := [], seqAt := max t.seqAt s.now, assay := assayAdd t.assay o.assay }).modFace
        f.val fun c => { c with hoistTransfers := c.hoistTransfers + 1, hoistLastStatus := o.status }
      (o.status = stOk → Gives (.hoistTransferDone f hid) s u) ∧
      (o.status ≠ stOk → Gives (.hoistTransferDone f hid) s (taskFail u f.val o.uid o.status (descTag o.desc)))) ∧
    (o.done = false ∨ engDue s f.val o = false ∨ (s.face f.val).gated = true → Gives (.hoistTransferDone f hid) s s))

/-! ## Passes, segments and reductions (chapter 05) -/

/-- LODE, SCORE and VALUE (R136, R140, R153, R154, R235, R236): a pass that an earlier one does not hold back is checked and expanded;
it starts, waits, or ends with the failing check's status; an indirect LODE whose mask is 0 completes with OK and selects nothing. A
pass that starts enters the book with its operations. MERGE joins the collar's queue, or ends with LICENCE where the feature is not
licensed (R237). -/
def Obligations.PassesStart : Prop :=
  ∀ (s : State) (q : QueueId) (x : StepRun) (o : StepOp) (d : BitVec 512),
    (nextStepOp s q.val 0x11 = some (x, o, d) →
      (passTurn s o.order = false → exec (.lode q) s = .next s) ∧
      (passTurn s o.order = true → ∀ u m, lodeMask s x o d = .ok u m →
        let p := lodeParams d m
        (m = 0 → bitAt d 303 = true → exec (.lode q) s = .next (stepOpDone (opDrop u o) q.val o.seq stOk 0)) ∧
        (m ≠ 0 ∨ bitAt d 303 = false →
          (∀ v pl, lodePlan u o x.ctx (hdrTag d) p = .ok v pl → exec (.lode q) s = .next (startPass v q.val x.ctx o p pl)) ∧
          (∀ v st, lodePlan u o x.ctx (hdrTag d) p = .fail st v →
            exec (.lode q) s = .next (stepOpDone (opDrop v o) q.val o.seq st 0)) ∧
          (∀ v, lodePlan u o x.ctx (hdrTag d) p = .wait v → exec (.lode q) s = .next v))) ∧
      (bitAt d 303 = false → lodeMask s x o d = .ok s (BitVec.ofNat 8 (bitsAt d 295 288)))) ∧
    (passTurn s o.order = true →
      let p := cacheParams d
      (nextStepOp s q.val 0x12 = some (x, o, d) →
        (∀ u pl, cachePlan s o x.ctx (hdrTag d) .score p = .ok u pl → exec (.score q) s = .next (startPass u q.val x.ctx o p pl)) ∧
        (∀ u st, cachePlan s o x.ctx (hdrTag d) .score p = .fail st u →
          exec (.score q) s = .next (stepOpDone (opDrop u o) q.val o.seq st 0))) ∧
      (nextStepOp s q.val 0x13 = some (x, o, d) →
        (∀ u pl, cachePlan s o x.ctx (hdrTag d) .value p = .ok u pl → exec (.valuePass q) s = .next (startPass u q.val x.ctx o p pl)) ∧
        (∀ u st, cachePlan s o x.ctx (hdrTag d) .value p = .fail st u →
          exec (.valuePass q) s = .next (stepOpDone (opDrop u o) q.val o.seq st 0)))) ∧
    (∀ (u : State) (c : BitVec 6) (p : PassParams) (pl : Plan), ∃ z, (startPass u q.val c o p pl).passes = u.passes ++ [z] ∧
      z.id = u.reqNext ∧ z.q = q.val ∧ z.seq = o.seq ∧ z.ctx = c ∧ z.outVa = p.outVa ∧ z.smask = p.smask ∧
      z.ops.map (·.col) = pl.ops.map (·.col) ∧ z.hubRows = pl.hub) ∧
    (nextStepOp s q.val 0x14 = some (x, o, d) →
      (licensed s 1 = true → exec (.mergeOp q) s = .next { putStepOp s q.val { o with begun := true } with
        collar := s.collar ++ [{ order := o.order, q := q.val, seq := o.seq }] }) ∧
      (licensed s 1 = false →
        exec (.mergeOp q) s = .next (stepOpDone (logLicence s codeForeman x.ctx (hdrTag d).toNat) q.val o.seq stLicence 0)))

/-- Segments (R134, R210): the first segment of a lane and window that may be delivered goes to every pick of the stack that holds
a matching PLOAD, and leaves; with none, or a link that is down, nothing changes. A hoist's segment that no stack has delivered within
10 ms is discarded, and the transfer ends with TIMEOUT. -/
def Obligations.SegmentsAreDelivered : Prop :=
  ∀ (s : State) (n : StackId) (lane : BitVec 3) (window : BitVec 9),
    (let here := (s.stack n.val).segments.find? fun x => x.lane == lane.toNat && x.window == window.toNat && segReady s n.val x
     (here = none → Gives (.segmentDelivery n lane window) s s) ∧
     ((s.stack n.val).linkUp = false → Gives (.segmentDelivery n lane window) s s) ∧
     (∀ g, here = some g → (s.stack n.val).linkUp = true →
       let u := (colsOf n.val).foldl (fun (t : State) c =>
         (segTargets g (t.col c).window).foldl (fun (u : State) o => takeSegment u c o (segBytes g)) t)
         (s.modStack n.val fun k => { k with segments := k.segments.erase g })
       Gives (.segmentDelivery n lane window) s (segDelivered u n.val g) ∧ (g.pass.isSome = true → segDelivered u n.val g = u))) ∧
    (∀ (u : State) (g : Nat) (o : PickOp) (bs : List PByte),
      (o.started.isSome = true → takeSegment u g o bs = loadSlots u g o bs (loadCost u o)) ∧
      (o.started = none → takeSegment u g o bs = putOp u g { o with segment := some bs })) ∧
    (∀ (f : FaceId) (hid : Fin 2) t o r, openHoist s f.val hid.val = some (t, o, r) → hoBcast o.desc = true → r.moved ≠ 0 →
      setBits (hoStacks o.desc) = [n.val] → r.pendingStacks = [n.val] →
      ∀ g ∈ (s.stack n.val).segments, g.pass = none → g.face = f.val → g.hid = hid.val → g.sent + 8000000 ≤ s.now →
      Gives (.segmentTimeout f hid) s (putEngOp (s.modStack n.val fun k =>
          { k with segments := k.segments.filter fun x => !(x.pass == none && x.face == f.val && x.hid == hid.val) }) f.val
        { o with done := true, status := stTimeout, hoist := some { r with pendingStacks := [] } }))

/-- Reductions (R145, R146): a live face of its cluster reduces a fast pass, the collar the exact pass or merge that was dispatched
first. With every partial read its cycles start: one for each 64 partials of a fast one, 32 and one for each eight words of another;
until they have passed nothing is written; then its outputs are written and it is over. A merge of no outputs or partials is OOB. A
pass completes (R139, R149) when its operations have completed and its reduction is over: with FENCED if it or an operation met a
fence, else with the status of its lowest failing pick, else with its own; what it held for its stacks is dropped. -/
def Obligations.ReductionsAndPassCompletion : Prop :=
  (∀ (s : State) (q : QueueId) (f : FaceId),
    ((s.face f.val).logical = none → Gives (.fastHubReduction q f) s s) ∧
    (∀ l p y, (s.face f.val).logical = some l → faceLive s l = true →
      s.passes.find? (fun p => p.q == q.val && toReduce false p && p.cluster == clusterOf f.val) = some p → p.red = some y →
      let r : Req := ⟨.pass p.id, codeFace l, p.ctx, p.tag⟩
      (y.endAt = none → (passFillers p).length ≤ y.filled → (passItems p).length ≤ y.read →
        exec (.fastHubReduction q f) s = .next (s.modPass p.id fun z =>
          { z with red := some { y with endAt := some (s.now + ceilDiv y.words 64) } })) ∧
      (∀ e, y.endAt = some e → s.now < e →
        exec (.fastHubReduction q f) s = .next (s.modPass p.id fun z => { z with red := some y })) ∧
      (∀ e w t st, y.endAt = some e → e ≤ s.now → y.outs = [w] → storeRange s r 0 w.va (cleanBytes w.bytes) = .ok t st →
        exec (.fastHubReduction q f) s = .next ((innerDrop t fun k => k == r.who).modPass p.id fun z =>
          { z with red := none, reduced := true, status := worstStatus z.status (worstStatus y.status st),
                   assay := assayAdd z.assay (if stBad st then y.assay else assayAdd y.assay w.assay) })) ∧
      (∀ e, y.endAt = some e → e ≤ s.now → y.outs = [] →
        exec (.fastHubReduction q f) s = .next (s.modPass p.id fun z =>
          { z with red := none, reduced := true, status := worstStatus z.status y.status, assay := assayAdd z.assay y.assay }))) ∧
    (s.now < s.collarFree → Gives .collarReduction s s) ∧
    (∀ j x o d, s.collarFree ≤ s.now → s.passes = [] → s.collar = [j] → collarOp s j = some (x, o, d) →
      (bitsAt d 223 208 = 0 ∨ bitsAt d 239 224 = 0 ∨ 4096 < bitsAt d 239 224 →
        exec .collarReduction s = .next (stepOpDone { s with collar := [] } j.q j.seq stOob 0)) ∧
      (1 ≤ bitsAt d 223 208 → 1 ≤ bitsAt d 239 224 → bitsAt d 239 224 ≤ 4096 → ∀ y, j.red = some y →
        (y.endAt = none → bitsAt d 223 208 ≤ y.read →
          let e := s.now + (32 + ceilDiv y.words 8)
          exec .collarReduction s = .next { s with
            collar := [{ j with red := some { y with endAt := some e } }], collarFree := e }) ∧
        (∀ e w t st, y.endAt = some e → e ≤ s.now → y.outs = [w] → t.collar = s.collar →
          storeRange s ⟨opWaiter o, codeCollar, x.ctx, hdrTag d⟩ 0 w.va (cleanBytes w.bytes) = .ok t st →
          exec .collarReduction s = .next (stepOpDone { (innerDrop t fun k => k == opWaiter o) with collar := [] } j.q j.seq
            (worstStatus y.status st) (if stBad st then y.assay else assayAdd y.assay w.assay))))) ∧
    (∀ j p x o d, s.collarFree ≤ s.now → s.passes = [p] → toReduce true p = true → s.collar = [j] → p.order < j.order →
      p.red = none → j.red = none → collarOp s j = some (x, o, d) →
      let r := reducePass s codeCollar p fun n => 32 + ceilDiv n 8
      Gives .collarReduction s { r.1 with collarFree := r.2 })) ∧
  (∀ (s : State) (q : QueueId) (p : Pass), s.passes = [p] → p.q = q.val →
    (passOpsDone p = false ∨ passReduced s p = none → Gives (.passCompletion q) s s) ∧
    (passOpsDone p = true → passReduced s p = some stOk → (∀ n < 8, (s.stack n).segments = []) →
      Gives (.passCompletion q) s
        (stepOpDone (innerDrop { s with passes := [] } fun w => w == .pass p.id) q.val p.seq (passStatus p) p.assay)) ∧
    (p.fenced = true ∨ (∃ x ∈ p.ops, x.status = stFenced) → passStatus p = stFenced) ∧
    (p.fenced = false → (∀ x ∈ p.ops, x.status = stOk) → passStatus p = p.status) ∧
    (∀ x ∈ p.ops, p.fenced = false → x.status ≠ stOk → (∀ y ∈ p.ops, y.status ≠ stFenced) →
      (∀ y ∈ p.ops, y.status ≠ stOk → x.col < y.col ∨ x = y) → passStatus p = x.status))

/-! ## Queues and steps (chapter 08) -/

/-- A doorbell (R222, R224, R226, R379): the first check that fails drops and counts it; accepted, it names the last slot written,
and the head slot is checked at once, unless it has already failed: one that passes frees its place and waits to start, one that fails is
read again each µs, each re-read counted, until `stale_limit`, when the queue stalls with a record. -/
def Obligations.DoorbellsNameSlots : Prop :=
  ∀ (s : State) (q : QueueId) (off : BitVec 6) (data : List Byte) (tag : BitVec 10),
    let k := s.queue q.val
    let bs := slotBytes s q.val k.head
    let d := BitVec.ofNat 1024 (leNat bs)
    let h := (k.head + 1) % k.depth.toNat
    let taken (x : Queue) : Queue :=
      { x with head := h, eseq := k.eseq + 1, ephase := if h = 0 then !k.ephase else k.ephase, stale := none, target := none,
               accepted := k.accepted ++ [{ slot := d, index := k.head, stamp := s.now }] }
    let dropped (st : Byte) : Prop := doorbellStatus s q.val off data = st ∧
      Gives (.doorbellWrite (.host tag) q off data) s (s.setQueue q.val { k with dbDropped := satInc k.dbDropped })
    (s.life.opened = false → dropped stMode) ∧
    (s.life.opened = true → off ≠ 0 ∨ data.length ≠ 4 → dropped stOob) ∧
    (s.life.opened = true → off = 0 → data.length = 4 →
      (computeBusy s = true → dropped stBusy) ∧
      (computeBusy s = false → k.enable = false → dropped stMode) ∧
      (computeBusy s = false → k.enable = true → k.depth.toNat ≤ leNat data % 512 → dropped stOob) ∧
      (computeBusy s = false → k.enable = true → leNat data % 512 = k.head → k.head < k.depth.toNat → 2 ≤ k.depth.toNat →
        k.stalled = false → tabWf ({} : Queue) s.queues = true →
        (k.stale = none → slotGood k bs = true → acceptCheck d = none →
          Gives (.doorbellWrite (.host tag) q off data) s (s.setQueue q.val (taken k))) ∧
        (k.stale = none → slotGood k bs = false →
          Gives (.doorbellWrite (.host tag) q off data) s
            (s.setQueue q.val { k with target := some k.head, stale := some (s.now, s.now) })) ∧
        (k.stale.isSome = true →
          Gives (.doorbellWrite (.host tag) q off data) s (s.setQueue q.val { k with target := some k.head })))) ∧
    (∀ a b, k.stale = some (a, b) → k.enable = true → k.stalled = false → computeBusy s = false →
      tabWf ({} : Queue) s.queues = true → k.target = some k.head → k.head < k.depth.toNat → 2 ≤ k.depth.toNat →
      let n := (s.now - b) / 800
      let k1 : Queue := { k with staleRetries := satAdd k.staleRetries n, stale := some (a, b + n * 800) }
      (s.now < b + 800 → Gives (.slotReread q) s s) ∧
      (b + 800 ≤ s.now →
        (slotGood k bs = false → Gives (.slotReread q) s (s.setQueue q.val k1)) ∧
        (slotGood k bs = true → acceptCheck d = none → Gives (.slotReread q) s (s.setQueue q.val (taken k1)))) ∧
      (s.now < a + k.staleLimit.toNat * 800 → Gives (.slotStaleStall q) s s) ∧
      (a + k.staleLimit.toNat * 800 ≤ s.now →
        (b + 800 ≤ s.now → slotGood k bs = true → acceptCheck d = none →
          Gives (.slotStaleStall q) s (s.setQueue q.val (taken k1))) ∧
        (s.now < b + 800 ∨ slotGood k bs = false →
          let tries := if s.now < b + 800 then k.staleRetries else k1.staleRetries
          let t := s.setQueue q.val { k with staleRetries := tries, stalled := true, stale := none,
                                             staleStalls := satInc k.staleStalls }
          let r : FaultRec := { event := 0x0A, status := stStale, unit := BitVec.ofNat 16 q.val, src := codeQueueEngine,
                                ctx := BitVec.ofNat 6 k.context.toNat, info := BitVec.ofNat 64 k.eseq.toNat }
          Gives (.slotStaleStall q) s
            (putRecord (logRec t r) q.val { kind := 2, slot := k.head, seq := k.eseq, status := stStale }))))

/-- Queue control (Table 8.3, R219, R223): enabling starts the ring anew and disabling discards what has not started, unless a step
is active; RESET does the same and zeroes the record count; RESUME lets a STALLED queue check its head again; ABORT ends the active
step with TIMEOUT at the first operation not dispatched. -/
def Obligations.QueueControl : Prop :=
  ∀ (p : DictPath) (q : QueueId) (v : Byte) (s u : State),
    let k := u.queue q.val
    (Opens s u p (queueIdx q) 2 →
      (1 < v.toNat → Answers (.qEnableWrite p q v) s u p stOob) ∧
      (v = 1 → k.enable = true → Answers (.qEnableWrite p q v) s u p stOk) ∧
      (v = 1 → k.enable = false →
        let k1 : Queue := { k with enable := true, head := 0, ephase := true, eseq := k.seq0, target := none, stalled := false,
                                   stale := none, accepted := [], recCount := 0 }
        Answers (.qEnableWrite p q v) s (u.setQueue q.val k1) p stOk) ∧
      (v = 0 → k.step.isSome = true → Answers (.qEnableWrite p q v) s u p stBusy) ∧
      (v = 0 → k.step = none →
        let k1 : Queue := { k with enable := false, target := none, stalled := false, stale := none, accepted := [] }
        Answers (.qEnableWrite p q v) s (u.setQueue q.val k1) p stOk)) ∧
    (Opens s u p (queueIdx q) 5 →
      (k.stalled = false → Answers (.qResume p q) s u p stOk) ∧
      (k.stalled = true →
        Answers (.qResume p q) s (checkSlots q.val 512 (u.setQueue q.val { k with stalled := false, stale := none })) p stOk) ∧
      (k.step.isSome = true → Answers (.qReset p q) s u p stBusy) ∧
      (k.step = none →
        let k1 : Queue := { k with head := 0, ephase := true, eseq := k.seq0, target := none, stalled := false, stale := none,
                                   accepted := [], recCount := 0 }
        Answers (.qReset p q) s (u.setQueue q.val k1) p stOk) ∧
      (k.step = none → Answers (.qAbort p q) s u p stOk) ∧
      (∀ x, k.step = some x → x.ended = none → x.fail = none →
        let x1 : StepRun := { x with fail := some (0, stTimeout, x.head), stopped := true, wait := .idle }
        Answers (.qAbort p q) s (withdrawTarget (u.setQueue q.val { k with step := some x1 }) (.step q.val)) p stOk))

/-- Steps and their operations (R231, R234, R238 to R241): the oldest accepted slot of an eligible queue becomes its active step, up
to eight; a head that meets the three conditions is dispatched, the steps in rotation; an operation that has ended leaves with its
signal and assay word; a TASK is given to its live faces, or ends with FENCED; a head that has waited `wait_limit` ms stops the step
with TIMEOUT; a step that ended or stopped, with nothing outstanding, completes with its DONE record. -/
def Obligations.StepsRun : Prop :=
  ∀ (s : State) (q : QueueId),
    let k := s.queue q.val
    ((List.range 64).foldl loadStep s = s → stepsMayStart s = true → stepsActive s < 8 → nextStart s false = some q.val →
      Gives .stepStart s (startStep s q.val)) ∧
    ((List.range 64).foldl loadStep s = s → (stepsMayStart s = false ∨ 8 ≤ stepsActive s) → Gives .stepStart s s) ∧
    (headsSettled s = s →
      (nextDispatch s = some q.val →
        Gives .operationDispatch s (dispatchHead s q.val)) ∧
      ((∀ n < 64, dispatchable s n = false) → Gives .operationDispatch s s)) ∧
    (∀ x, k.step = some x →
      (∀ o, x.ops.find? (fun o => o.done) = some o → hdrSig (stepDesc x o.index) = false →
        let u := modStep s q.val fun y =>
          { y with ops := y.ops.filter fun z => z.seq ≠ o.seq, assay := assayAdd y.assay o.assay }
        (o.status = stOk → Gives (.operationCompletion q) s u) ∧
        (o.status ≠ stOk → Gives (.operationCompletion q) s (stepStop u q.val o.seq o.status o.index))) ∧
      ((∀ st, x.wait ≠ .failed st) → stepRuns x = true → hdrWait (headDesc x) = true → k.waitLimit ≠ 0 →
        (x.headAt + k.waitLimit.toNat * 800000 ≤ s.now →
          Gives (.waitLimitExpiry q) s (stepStop s q.val (x.seqNext + 1) stTimeout x.head)) ∧
        (s.now < x.headAt + k.waitLimit.toNat * 800000 → Gives (.waitLimitExpiry q) s s)) ∧
      (x.ops = [] → x.fail = none → ∀ ts, x.ended = some ts →
        let t := innerDrop (s.setQueue q.val { k with step := none, prevDone := s.now }) fun w => w == .queue q.val
        let r : RecInfo := { kind := 0, slot := x.index, seq := slotSeq x.slot, status := stOk, cycles := s.now - x.started,
                             assay := x.assay, tokens := ts, ovr := x.ovr }
        Gives (.stepCompletion q) s
          (putRecord { t with foreman := { t.foreman with stepsDone := t.foreman.stepsDone + 1 } } q.val r))) ∧
    (∀ x o d, nextStepOp s q.val 0x10 = some (x, o, d) →
      (taskTarget d = 1 →
        (48 ≤ taskFace d → Gives (.task q) s (stepOpDone s q.val o.seq stMode 0)) ∧
        (taskFace d < 48 → faceLive s (taskFace d) = false → Gives (.task q) s (stepOpDone s q.val o.seq stFenced 0)) ∧
        (taskFace d < 48 → faceLive s (taskFace d) = true →
          Gives (.task q) s (giveTask (putStepOp s q.val { o with begun := true, members := [{ face := taskFace d }] })
            q.val x o d (taskArgs x d) (taskFace d)))) ∧
      (taskTarget d ≠ 1 → gangFaces s d = [] → Gives (.task q) s (stepOpDone s q.val o.seq stFenced 0)) ∧
      (taskTarget d = 0 → gangFaces s d ≠ [] →
        let n := taskCluster d
        let c := s.cluster n
        (rotate c.last ((gangFaces s d).filter (bindable s)) = none → Gives (.task q) s s) ∧
        (∀ l, rotate c.last ((gangFaces s d).filter (bindable s)) = some l →
          Gives (.task q) s (giveTask (putStepOp (s.setCluster n { c with last := some l }) q.val
            { o with begun := true, members := [{ face := l }] }) q.val x o d (taskArgs x d) l))) ∧
      (2 ≤ taskTarget d → ∀ l, gangFaces s d = [l] →
        let args := taskArgs x d
        Gives (.task q) s (giveTask (putStepOp s q.val { o with begun := true, members := [{ face := l }] }) q.val x o d
          (if bitAt d 190 then args.take 6 ++ [1, 0] else args) l))) ∧
    (∀ last qs, (∀ a ∈ qs, ∃ b, rotate last qs = some b ∧ b ∈ qs) ∧ rotate last [] = none)

/-- The control operations at a step's head (R233, R245): SETN sets a counter, JUMP goes to its index + offset always, while its
counter, lowered by 1, is not 0, or on a tally, SIGNAL applies its tally operation, WAITW waits for the first boundary after its
arrival at the head, EMIT writes a
record with its tokens, and END, once every earlier operation has completed, ends the dispatch with its tokens. -/
def Obligations.HeadOperationsAct : Prop :=
  ∀ (s : State) (q : QueueId) (x : StepRun) (d : BitVec 512),
    (AtHead s q x d 0x04 → Gives (.setn q) s
      (headDone (modStep s q.val fun y => { y with counters := tset 0 y.counters (sopNidx d) (sopImm d) }) q.val x d stOk
        (x.head + 1))) ∧
    (AtHead s q x d 0x03 →
      let far := (jumpTarget x.head d).toNat
      (sopCond d = 0 → Gives (.jump q) s (headDone s q.val x d stOk far)) ∧
      (sopCond d = 3 →
        let n := tget 0 x.counters (sopNidx d) - 1
        Gives (.jump q) s (headDone (modStep s q.val fun y => { y with counters := tset 0 y.counters (sopNidx d) n }) q.val x d stOk
          (if n = 0 then x.head + 1 else far))) ∧
      (∀ t, tallyOf s x.ctx.toNat (.virt (sopCtally d)) = some t →
        (sopCond d = 1 → Gives (.jump q) s
          (headDone s q.val x d stOk (if (sopImm d).toNat ≤ (s.cell t).value.toNat then far else x.head + 1))) ∧
        (sopCond d = 2 → Gives (.jump q) s
          (headDone s q.val x d stOk (if (s.cell t).value.toNat < (sopImm d).toNat then far else x.head + 1)))) ∧
      (sopCond d = 1 ∨ sopCond d = 2 → tallyOf s x.ctx.toNat (.virt (sopCtally d)) = none → Gives (.jump q) s
        (headDone (withTag (hdrTag d) s (tallyRangeFault s codeForeman x.ctx.toNat (.virt (sopCtally d)))) q.val x d stTallyRange
          (x.head + 1)))) ∧
    (AtHead s q x d 0x05 → sopCond d ≤ 2 → ∀ t st,
      tallyOp s codeForeman x.ctx.toNat (.virt (sopCtally d))
        (if sopCond d = 0 then topAdd else if sopCond d = 1 then topSub else topArrive) (sopImm d) = (t, st) →
      Gives (.signal q) s (headDone (withTag (hdrTag d) s t) q.val x d st (x.head + 1))) ∧
    (AtHead s q x d 0x06 →
      (s.win.len = 0 ∨ x.headAt < s.win.boundary → Gives (.waitw q) s (headDone s q.val x d stOk (x.head + 1))) ∧
      (s.win.len ≠ 0 → s.win.boundary ≤ x.headAt → Gives (.waitw q) s s)) ∧
    (AtHead s q x d 0x02 → sopTokVa d = 0 →
      let r : RecInfo := { kind := 1, slot := x.index, seq := slotSeq x.slot, status := stOk, cycles := s.now - x.started,
                           assay := x.assay, ovr := x.ovr }
      Gives (.emit q) s (headDone (putRecord s q.val r) q.val x d stOk (x.head + 1))) ∧
    (AtHead s q x d 0x01 →
      (x.ops ≠ [] → Gives (.stepEnd q) s s) ∧
      (x.ops = [] → sopTokVa d = 0 → hdrSig d = false → Gives (.stepEnd q) s
        (modStep s q.val fun y => { y with seqNext := x.seqNext + 1, ended := some [] }))) ∧
    (∀ t : State,
      (hdrSig d = false → headDone t q.val x d stOk (x.head + 1) =
        setHead (modStep t q.val fun y => { y with seqNext := x.seqNext + 1 }) q.val (x.head + 1)) ∧
      (hdrSig d = true → ∀ u, tallyOp t codeForeman x.ctx.toNat (.virt (hdrStally d)) topAdd 1 = (u, stOk) →
        headDone t q.val x d stOk (x.head + 1) =
          setHead (modStep (withTag (hdrTag d) t u) q.val fun y => { y with seqNext := x.seqNext + 1 }) q.val (x.head + 1)))

/-- Records and windows: an acknowledged record leaves with its tally and vector (R227); one whose port has been unusable for more
than 10 ms is dropped and counted (R229). A write to `win_len` outside its values is OOB, and BUSY while a windowed step is active;
else the window 0 starts (R245). Boundaries fall L cycles apart (R243), at an edge inside the band of L ÷ 8 (R246); after four missed
edges in a row the windows run in FALLBACK (R247). -/
def Obligations.RecordsAndWindows : Prop :=
  ∀ (s : State) (q : QueueId),
    let k := s.queue q.val
    (∀ x, k.records = [x] → x.sent = true → x.acked = true → k.recTally = 0xFFFF → k.recMsix = 0xFF →
      Gives (.recordAcknowledged q) s (s.setQueue q.val { k with records := [] })) ∧
    (∀ x n, k.records = [x] → x.sent = false → x.port = .partner n → (s.port n).state = 5 →
      (x.since + 8000000 < s.now → Gives (.recordWaitTimeout q) s (recDrop s q.val x stOk)) ∧
      (s.now ≤ x.since + 8000000 → Gives (.recordWaitTimeout q) s s)) ∧
    (∀ p (v : W32) (u : State), Opens s u p 0x2340 1 →
      (v ≠ 0 → (v.toNat < 8000 ∨ 268435448 < v.toNat ∨ v.toNat % 8 ≠ 0) → Answers (.winLenWrite p v) s u p stOob) ∧
      (8000 ≤ v.toNat → v.toNat ≤ 268435448 → v.toNat % 8 = 0 →
        (windowedActive u = true → Answers (.winLenWrite p v) s u p stBusy) ∧
        (windowedActive u = false →
          let t := cadenceAligned u
          Answers (.winLenWrite p v) s { t with win := { t.win with len := v, boundary := u.now, number := 0 } } p stOk))) ∧
    (let e := s.win.boundary + s.win.len.toNat
     let band := s.win.len.toNat / 8
     (s.win.len ≠ 0 → s.win.align = false → e ≤ s.now → Gives .windowBoundary s (boundaryAt s e)) ∧
     (s.now < e → Gives .windowBoundary s s) ∧
     (s.win.len ≠ 0 → s.win.align = true → s.win.fallback = false → cadenceStuck s = false →
       (s.now < e + band → Gives .cadenceMissed s s) ∧
       (e + band ≤ s.now → s.win.missedInRow ≠ 3 →
         let w : Window := { s.win with missed := satInc s.win.missed, missedInRow := s.win.missedInRow + 1 }
         Gives .cadenceMissed s (boundaryAt { s with win := w } (e + band))) ∧
       (e + band ≤ s.now → s.win.missedInRow = 3 →
         let w : Window := { s.win with missed := satInc s.win.missed, missedInRow := 4 }
         Gives .cadenceMissed s (boundaryAt (cadenceFallback { s with win := w }) (e + band))) ∧
       (s.life.state ≠ 0 → (s.input 0).level = false → tooShort s 0 = false → (s.input 0).lastEdge = none →
         (s.input 0).stuck = false →
         let i : InputPin := { s.input 0 with level := true, since := s.now, changed := some s.now }
         let u := (s.setInput 0 i).setInput 0 { i with lastEdge := some s.now }
         (e ≤ s.now + band → s.now ≤ e + band → Gives (.cadenceEdge true) s (boundaryAt (cadenceAligned u) s.now)) ∧
         (s.now + band < e → Gives (.cadenceEdge true) s { u with win := { u.win with ignored := satInc u.win.ignored } }))))

/-! ## The tally board (chapter 09) -/

/-- ADD, SUB, SET and ARRIVE (R252, R256, R257, R259, R260, R269): before step 9, or for a physical tally of another context than 0,
the request is refused; a tally outside the window counts TALLY_RANGE; a sum above 0x7FFFFFFF, a difference below 0, a SET of another
context, a barrier, a second arrival with the next round's pending, each has its status and changes no value; otherwise the value is
the sum, the difference or n, and the arrival that completes the mask releases the round, once. -/
def Obligations.TallyOperations : Prop :=
  ∀ (s : State) (o : Origin) (c : CtxId) (r : TallyRef) (n : W32),
    (tallyGate s o c.val r ≠ stOk →
      Gives (.tallyAdd o c r n) s (answer s o c.val false (tallyGate s o c.val r) [] (0x1000000 + tallyOffset r))) ∧
    (tallyGate s o c.val r = stOk → tallyOf s c.val r = none →
      Gives (.tallySub o c r n) s
        (answer (tallyRangeFault s (codeOf o) c.val r) o c.val false stTallyRange [] (0x1000000 + tallyOffset r))) ∧
    (∀ t, tallyGate s o c.val r = stOk → tallyOf s c.val r = some t →
      let x := s.cell t
      (x.barrier = true →
        Gives (.tallyAdd o c r n) s (signedOff s o c r t 1 n stMode) ∧ Gives (.tallySub o c r n) s (signedOff s o c r t 2 n stMode)) ∧
      (c.val ≠ 0 → Gives (.tallySet o c r n) s (signedOff s o c r t 4 n stProt)) ∧
      (x.barrier = false →
        (0x7FFFFFFF < x.value.toNat + n.toNat → Gives (.tallyAdd o c r n) s (signedOff s o c r t 1 n stTallyOver)) ∧
        (x.value.toNat < n.toNat → Gives (.tallySub o c r n) s (signedOff s o c r t 2 n stTallyUnder)) ∧
        (c.val = 0 → 0x7FFFFFFF < n.toNat → Gives (.tallySet o c r n) s (signedOff s o c r t 4 n stOob)) ∧
        (x.watches = [] →
          (x.value.toNat + n.toNat ≤ 0x7FFFFFFF →
            Gives (.tallyAdd o c r n) s (signedOff (s.setCell t { x with value := x.value + n }) o c r t 1 n stOk)) ∧
          (n.toNat ≤ x.value.toNat →
            Gives (.tallySub o c r n) s (signedOff (s.setCell t { x with value := x.value - n }) o c r t 2 n stOk)) ∧
          (c.val = 0 → n.toNat ≤ 0x7FFFFFFF →
            Gives (.tallySet o c r n) s (signedOff (s.setCell t { x with value := n }) o c r t 4 n stOk)))) ∧
      (barrierOf s t = none → Gives (.tallyArrive o c r n) s (signedOff s o c r t 3 n stMode)) ∧
      (∀ i b p, barrierOf s t = some (i, b) → participant n (codeOf o) b.mask = some p →
        (bitAt b.cur p = true → bitAt b.nxt p = true → Gives (.tallyArrive o c r n) s (signedOff s o c r t 3 n stOverrun)) ∧
        (bitAt b.cur p = false → setBit b.cur p true ≠ b.mask →
          let b1 : Barrier := { b with cur := setBit b.cur p true }
          let s1 : State := { s with tally := { s.tally with barriers := tset {} s.tally.barriers i b1 } }
          Gives (.tallyArrive o c r n) s (signedOff s1 o c r t 3 n stOk)) ∧
        (bitAt b.cur p = false → setBit b.cur p true = b.mask → b.nxt ≠ b.mask → x.watches = [] → x.value.toNat < 2 ^ 31 →
          let b1 : Barrier := { b with cur := b.nxt, nxt := 0 }
          let s1 : State := { s with tally := { s.tally with barriers := tset {} s.tally.barriers i b1 } }
          Gives (.tallyArrive o c r n) s
            (signedOff (s1.setCell t { x with value := BitVec.ofNat 32 ((x.value.toNat + 1) % 2 ^ 31) }) o c r t 3 n stOk))))

/-- Watches and barriers (R262, R263, R266, R267): a partner's watch takes a slot and stands at the end of its tally's list, or is
refused with BUSY where its share is used up; one that holds fires at the next walk, and a consuming one subtracts its threshold;
UNWATCH takes it back; BARINIT binds an idle tally of value 0 to a free record and BARFREE frees it; a registration that waits takes
the slot that becomes free. -/
def Obligations.WatchesAndBarriers : Prop :=
  ∀ (s : State) (k : PortId) (src : BitVec 4) (tag : BitVec 10) (c : CtxId) (r : TallyRef) (t : Nat),
    let o : Origin := .partner k src tag
    tallyGate s o c.val r = stOk → tallyOf s c.val r = some t →
    let x := s.cell t
    let off := 0x1000000 + tallyOffset r
    (∀ thr cons cookie, x.barrier = false →
      (0x7FFFFFFF < thr.toNat → Gives (.tallyWatch o c r thr cons cookie 0 0) s (answer s o c.val false stOob [] off)) ∧
      (thr.toNat ≤ 0x7FFFFFFF → s.tally.watchRemoteMax.toNat ≤ remoteArmed s →
        Gives (.tallyWatch o c r thr cons cookie 0 0) s
          (answer { s with tally := { s.tally with watchRefused := satInc s.tally.watchRefused } } o c.val false stBusy [] off)) ∧
      (∀ i, thr.toNat ≤ 0x7FFFFFFF → remoteArmed s < s.tally.watchRemoteMax.toNat → freeSlot s = some i →
        x.value.toNat < thr.toNat → tabWf ({} : TallyCell) s.tally.cells = true →
        let w : Watch := { armed := true, target := .partner k src, cons := cons, thr := thr, tally := t, cookie := cookie,
                           ctx := BitVec.ofNat 6 c.val }
        Gives (.tallyWatch o c r thr cons cookie 0 0) s
          (answer (armWatch { s with tally := { s.tally with opsApplied := s.tally.opsApplied + 1 } } i w) o c.val false stOk [] off))) ∧
    (∀ i, x.watches = [i] → x.barrier = false →
      let w := tget {} s.tally.watches i
      w.armed = true → w.thr.toNat ≤ x.value.toNat →
      let v := if w.cons then x.value - w.thr else x.value
      walkWatches s t [i] = deliver (freeWatch (s.setCell t { x with value := v, watches := [] }) i) w v stOk) ∧
    (∀ cookie, ∃ u, Gives (.tallyUnwatch o c r cookie) s (answer u o c.val false stOk [] off) ∧
      u.tally.opsApplied = s.tally.opsApplied + 1) ∧
    (∀ mask,
      (x.barrier = true ∨ x.value ≠ 0 ∨ x.watches ≠ [] →
        Gives (.barinit o c r mask) s (answer (tallySigned s (codeOf o) c.val t 7 0 stMode) o c.val false stMode [] off)) ∧
      (x.barrier = false → x.value = 0 → x.watches = [] → mask = 0 →
        Gives (.barinit o c r mask) s (answer (tallySigned s (codeOf o) c.val t 7 0 stOob) o c.val false stOob [] off)) ∧
      (∀ i, x.barrier = false → x.value = 0 → x.watches = [] → mask ≠ 0 →
        (List.range 256).find? (fun i => !(tget {} s.tally.barriers i).used) = some i →
        let s1 : State := { s with tally := { s.tally with barriers := tset {} s.tally.barriers i ⟨true, t, mask, 0, 0⟩ } }
        Gives (.barinit o c r mask) s
          (answer (tallySigned (s1.setCell t { x with barrier := true,
                                                      value := 0 }) (codeOf o) c.val t 7 0 stOk) o c.val false stOk [] off))) ∧
    (∀ i b, x.barrier = true → x.watches = [] → barrierOf s t = some (i, b) →
      let s1 : State := { s with tally := { s.tally with barriers := tset {} s.tally.barriers i {} } }
      Gives (.barfree o c r) s
        (answer (tallySigned (s1.setCell t { x with barrier := false,
                                                    value := 0 }) (codeOf o) c.val t 8 0 stOk) o c.val false stOk [] off)) ∧
    (∀ q rest i, s.tally.waiting = q :: rest → freeSlot s = some i → (s.cell q.tally).barrier = false → q.barrier = false →
      q.thr.toNat ≤ 0x7FFFFFFF → (s.cell q.tally).value.toNat < q.thr.toNat → tabWf ({} : TallyCell) s.tally.cells = true →
      let w : Watch := { armed := true, target := q.target, cons := q.cons, thr := q.thr, tally := q.tally, ctx := q.ctx }
      Gives .watchArmOnFree s
        (armWatch { s with tally := { s.tally with waiting := rest, opsApplied := s.tally.opsApplied + 1 } } i w)) ∧
    (freeSlot s = none → Gives .watchArmOnFree s s)

/-- Held signals, gated faces and debug records: a held signal is applied in the order of its source once its stamp is met (R271), and
ends with TIMEOUT after 10 ms (R272); a face whose WAITT has waited `gate_wait` µs gates (R276); the debug selects copy the record of
a tally, watch or barrier that exists, else OOB (R280). -/
def Obligations.SignalsGatesAndDebugRecords : Prop :=
  ∀ (s : State) (k : PortId) (src : BitVec 4),
    (firstHold (s.port k) src = none → Gives (.sigStampMet k src) s s) ∧
    (∀ h, firstHold (s.port k) src = some h →
      (stampMet (s.port k) h = false → Gives (.sigStampMet k src) s s) ∧
      (stampMet (s.port k) h = true →
        Gives (.sigStampMet k src) s (applySig (unhold s k h) k h)) ∧
      (tabWf ({} : Port) s.ports = true → ((unhold s k h).port k).holds = (s.port k).holds.erase h)) ∧
    (∀ h, (s.port k).holds = [h] → h.src = src →
      (s.now < h.since + 8000000 → Gives (.stampTimeout k src) s s) ∧
      (h.since + 8000000 ≤ s.now →
        let t := unhold (logStamp s k h) k h
        Gives (.stampTimeout k src) s
          (portRsp { t with tally := { t.tally with stampTimeouts := satInc t.tally.stampTimeouts } } k src h.tag
            h.ctx.toNat stTimeout []))) ∧
    (∀ (f : FaceId) t a, (s.face f.val).task = some t → t.wait = .watching a → (s.face f.val).gated = false →
      (s.tally.gateWait = 0 → Gives (.faceGate f) s s) ∧
      (s.now < a + s.tally.gateWait.toNat * 800 → Gives (.faceGate f) s s) ∧
      (s.tally.gateWait ≠ 0 → a + s.tally.gateWait.toNat * 800 ≤ s.now →
        let u := s.setFace f.val { s.face f.val with gated := true, wokeAt := s.now }
        Gives (.faceGate f) s { u with tally := { s.tally with gates := satInc s.tally.gates } })) ∧
    (∀ (p : DictPath) (v : W16) (b : Byte) (u : State),
      (Opens s u p 0x2600 1 → v.toNat < 16384 →
        Answers (.tallyDbgSel p v) s { u with tally := { u.tally with dbgSel := v, dbgSnap := debugRecord u v.toNat } } p stOk) ∧
      (Opens s u p 0x2600 1 → 16384 ≤ v.toNat → Answers (.tallyDbgSel p v) s u p stOob) ∧
      (Opens s u p 0x2601 1 → v.toNat < 4096 →
        Answers (.watchDbgSel p v) s { u with tally := { u.tally with watchSel := v, watchSnap := watchRecord u v.toNat } } p stOk) ∧
      (Opens s u p 0x2601 1 → 4096 ≤ v.toNat → Answers (.watchDbgSel p v) s u p stOob) ∧
      (Opens s u p 0x2602 1 →
        Answers (.barrierDbgSel p b) s { u with tally := { u.tally with barSel := b, barSnap := barrierRecord u b.toNat } } p stOk))

/-! ## Ports and the host (chapter 11) -/

/-- Links of the ports (R316, R318, R333, R334, R336): flits on a port that does not run are ignored; a bad one counts, and the
receiver asks for a replay; a NAK lets go what it acknowledges and the rest is sent again, or the port retrains after the fourth
send; training ends in a width, or after three failures in DOWN; a lane that loses lock is failed and the port retrains. -/
def Obligations.PortLinks : Prop :=
  ∀ (s : State) (k : PortId),
    let p := s.port k
    (portRuns p = false →
      (∀ n bad flit, Gives (.flitReceived k n bad flit) s s) ∧ Gives (.portRetrain k) s s ∧
      (∀ a, Gives (.nak k a) s s)) ∧
    (portRuns p = true →
      (∀ n flit, flit.length ≠ 256 ∨ crc32 (flit.take 252) ≠ BitVec.ofNat 32 (leNat (flit.drop 252)) →
        tabWf ({} : Port) s.ports = true →
        let nak := buildFlit { p with fecCorrected := satAdd p.fecCorrected n.toNat } 2 0 []
        Gives (.flitReceived k n [] flit) s ((s.setPort k { nak.2 with discarding := true }).emit (.flit k nak.1))) ∧
      (∀ a, (∃ u ∈ (ackFlits p a).unacked, 4 ≤ u.sends) → Gives (.nak k a) s (retrain (s.setPort k (ackFlits p a)) k)) ∧
      (∀ a, (∀ u ∈ (ackFlits p a).unacked, u.sends < 4) →
        Gives (.nak k a) s (portFlush (resend (s.setPort k (ackFlits p a)) k false) k)) ∧
      (let p1 : Port := { p with state := 5, retrains := satInc p.retrains, tries := 0, firstTraining := false }
       Gives (.portRetrain k) s (endForwards (dropHolds (s.setPort k p1) k) k false)) ∧
      (∀ lane : Fin 17, bitAt p.lanesFailed lane.val = false →
        Gives (.laneLossOfLock k lane) s
          (logPort (retrain (s.setPort k { p with lanesFailed := setBit p.lanesFailed lane.val true }) k) k)) ∧
      (∀ lane : Fin 17, bitAt p.lanesFailed lane.val = true → Gives (.laneLossOfLock k lane) s s) ∧
      (∀ good bad c1 c2 c3 a, Gives (.portTrainingDone k good bad c1 c2 c3 a) s s)) ∧
    (p.state = 2 ∨ p.state = 5 → ∀ bad c1 c2 c3 a,
      (p.tries < 2 → Gives (.portTrainingDone k false bad c1 c2 c3 a) s
        (s.setPort k { p with tries := p.tries + 1, lanesFailed := p.lanesFailed ||| bad })) ∧
      (2 ≤ p.tries → Gives (.portTrainingDone k false bad c1 c2 c3 a) s
        (portDown (s.setPort k { p with lanesFailed := p.lanesFailed ||| bad }) k)) ∧
      (Gives (.portTrainingDone k true bad c1 c2 c3 a) s (trained s k bad c1 c2 c3 a)) ∧
      (c1 = 0 ∨ c2.toNat < 17 ∨ c3 = 0 → trained s k bad c1 c2 c3 a =
        portDown (s.setPort k { p with lanesFailed := p.lanesFailed ||| bad ||| tget 0 s.fuse.badXlanes k.val }) k) ∧
      (∀ sp, let lanes := p.lanesFailed ||| bad ||| tget 0 s.fuse.badXlanes k.val
        chooseWidth lanes = (16, sp) → 1 ≤ c1.toNat → 17 ≤ c2.toNat → 1 ≤ c3.toNat → p.firstTraining = true → p.txWait = [] →
        s.xfers = [] → s.fwds = [] → tabWf ({} : Port) s.ports = true →
        let p1 : Port := { p with
          lanesFailed := lanes, width := 16, spareFor := BitVec.ofNat 8 sp, tries := 0, fence := [], state := 3,
          peerCredits := BitVec.ofNat 64 (c1.toNat * 2 ^ 32 + c2.toNat * 2 ^ 16 + c3.toNat), credit1 := c1.toNat,
          credit2 := c2.toNat, credit3 := c3.toNat, rxSeq := 0, txSeq := 0, txBuf := [], unacked := [], rxBuf := [],
          discarding := false, ackOwed := false, owed := {}, held := {}, c2Wait := 0 }
        let t := (s.setPort k p1).emit (.training k lanes [32, 384, 128, 32] 0xFFF)
        Gives (.portTrainingDone k true bad c1 c2 c3 a) s (condEnd (condEnd t 0xFF01 k.val) 0xFF02 k.val))) ∧
    (∀ (x : Port) ty q body, body.length ≤ 244 →
      let b := (buildFlit x ty q body).1
      b.length = 256 ∧ leNat (b.drop 252) = (crc32 (b.take 252)).toNat) ∧
    (chooseWidth 0 = (16, 0xFF) ∧ (∀ l < 16, chooseWidth (BitVec.ofNat 17 (2 ^ l)) = (16, l)) ∧ (chooseWidth 0x10001).1 = 8) ∧
    (∀ (d : DictPath) (v : Byte) (u : State), Opens s u d (portIdx k) 6 →
      (v ≠ 1 → v ≠ 2 → Answers (.retrainReq d k v) s u d stOob) ∧
      (v = 1 → portRuns (u.port k) = true → Answers (.retrainReq d k v) s (retrain u k) d stOk) ∧
      (v = 1 → (u.port k).state = 6 → Answers (.retrainReq d k v) s (firstTrain u k) d stOk) ∧
      (v = 2 → tabWf ({} : Port) u.ports = true → portRuns (u.port k) = true →
        Answers (.retrainReq d k v) s (retrain (u.setPort k { u.port k with lanesFailed := 0, laneErrs := [] }) k) d stOk)) ∧
    (∀ (d : DictPath) (v : Byte) (u : State), Opens s u d (portIdx k) 2 →
      (1 < v.toNat → Answers (.portEnable d k v) s u d stOob) ∧
      (v = 1 → portLicensed u k.val = false → Answers (.portEnable d k v) s (logRefused u (.unit 0) 0 stLicence 4) d stLicence) ∧
      (v = 1 → portLicensed u k.val = true →
        let w := u.setPort k { u.port k with enable := true }
        let on (t : State) : State := firstTrain (t.setDomain (4 + k.val) { t.domain (4 + k.val) with state := 1 }) k
        ((u.port k).state = 0 → u.life.opened = false → Answers (.portEnable d k v) s w d stOk) ∧
        ((u.port k).state = 1 ∨ (u.port k).state = 6 → Answers (.portEnable d k v) s (on w) d stOk) ∧
        (portRuns (u.port k) = true → Answers (.portEnable d k v) s (on (portStop (retrain w k) k 1)) d stOk)) ∧
      (v = 0 →
        let w := u.setPort k { u.port k with enable := false }
        ((u.port k).state = 0 ∨ (u.port k).state = 1 → Answers (.portEnable d k v) s w d stOk) ∧
        ((u.port k).state ≠ 0 → (u.port k).state ≠ 1 →
          Answers (.portEnable d k v) s (condEnd (portStop (retrain w k) k 1) 0xFF01 k.val) d stOk)))

/-- Packets (Table 11.6, R271, R320, R322 to R324, R331, R335): a packet's credits go back as it is taken in. A RD, WR or SIG that
the module is asked is checked in order and acts; a request of the partner goes to the request's own rules; an RSP completes the
forwarded request that it answers and is otherwise discarded; an ECHO is returned; what the checks refuse has no other effect than
its status and its count. -/
def Obligations.PortPackets : Prop :=
  ∀ (s : State) (k : PortId) (h : BitVec 256) (data : List Byte), tabWf ({} : Port) s.ports = true →
    let p := s.port k
    let o : Origin := .partner k (hdrSrc h) (hdrRtag h)
    let b := poolBack s k h data.length
    let out (t : State) : State := portFlush t k
    (portRuns p = false → Gives (.rd k h) s s ∧ Gives (.wr k h data) s s ∧ Gives (.sig k h data) s s ∧
      Gives (.rsp k h data) s s ∧ Gives (.echo k h data) s s) ∧
    (portRuns p = true →
      (b = s.setPort k { p with
        owed := poolAdd p.owed (bitsAt h 9 8) (bitsAt h 27 24 ≠ 15) (ceilDiv (32 + data.length) 256) }) ∧
      (data = [] → hdrType h ≠ 0x01 ∨ hdrOk h 0 = false → Gives (.rd k h) s (out (refusePacket b k h stMode))) ∧
      (hdrType h ≠ 0x02 ∨ hdrOk h data.length = false → Gives (.wr k h data) s (out (refusePacket b k h stMode))) ∧
      (hdrType h ≠ 0x20 ∨ hdrOk h data.length = false → Gives (.sig k h data) s (out (refusePacket b k h stMode))) ∧
      (hdrOk h data.length = true → s.life.warm = none → hdrOrg h ≠ k.val ∨ ctxAllowed p (hdrCtx h) = false →
        (hdrType h = 0x01 → data = [] → Gives (.rd k h) s (out (refusePacket b k h stProt))) ∧
        (hdrType h = 0x02 → Gives (.wr k h data) s (out (refusePacket b k h stProt))) ∧
        (hdrType h = 0x20 → Gives (.sig k h data) s (out (refusePacket b k h stProt)))) ∧
      (hdrOk h data.length = true → s.life.warm = none → hdrOrg h = k.val → ctxAllowed p (hdrCtx h) = true → hdrDst h = 15 →
        (2 ^ 40 ≤ hdrAddr h → hdrType h = 0x02 → Gives (.wr k h data) s (out (refusePacket b k h stOob))) ∧
        (hdrAddr h < 2 ^ 40 →
          (hdrType h = 0x02 →
            Gives (.wr k h data) s (out (request b o (hdrCtx h) true (hdrNc h) (hdrAddr h) data.length data))) ∧
          (hdrType h = 0x01 → data = [] →
            Gives (.rd k h) s (out (request b o (hdrCtx h) false (hdrNc h) (hdrAddr h) (hdrStamp h).toNat []))) ∧
          (hdrType h = 0x20 →
            (∀ st, translate s (hdrCtx h) (hdrAddr h) data.length true (!hdrNc h) = .fail st → Gives (.sig k h data) s
              (out (answer (xlateRefused b o (hdrCtx h) (hdrAddr h) st) o (hdrCtx h) false st [] (hdrAddr h)))) ∧
            (∀ pa, translate s (hdrCtx h) (hdrAddr h) data.length true (!hdrNc h) = .pa pa → isTallyPage (pa / 2 ^ 24) = true →
              (opRegion (pa % 2 ^ 24)).isSome = true →
              let x : Hold := { src := hdrSrc h, tag := hdrRtag h, ctx := BitVec.ofNat 6 (hdrCtx h), stamp := hdrStamp h,
                                off := BitVec.ofNat 24 (pa % 2 ^ 24), data := data, since := s.now }
              (firstHold p (hdrSrc h) = none → stampMet p x = true → Gives (.sig k h data) s (out (applySig b k x))) ∧
              (firstHold p (hdrSrc h) ≠ none ∨ stampMet p x = false →
                Gives (.sig k h data) s (out (poolKeep (b.newReq.2.modPort k fun y =>
                  { y with holds := y.holds ++ [{ x with req := b.newReq.1 }] }) k 1 data.length))))))) ∧
      (hdrType h ≠ 0x10 ∨ hdrOk h data.length = false → Gives (.rsp k h data) s (out (malformed b k))) ∧
      (hdrType h = 0x10 → hdrOk h data.length = true →
        (answered s k h = none → Gives (.rsp k h data) s (out b)) ∧
        (∀ f j, answered s k h = some f → f.origin = some j → f.wr = false → Gives (.rsp k h data) s
          (out (portRsp { b with fwds := s.fwds.erase f } j f.src f.tag f.ctx.toNat (hdrStatus h) data)))) ∧
      (msgOk p k h data.length = true → hdrMcode h = 5 → Gives (.echo k h data) s (out (portMsg b k 5 data))) ∧
      (msgOk p k h data.length = false ∨ hdrMcode h ≠ 5 → Gives (.echo k h data) s (out (malformed b k))))

/-- The host port (R338 to R343, R451): nothing passes while the link is down or PERST_N low, or through a BAR without a base; a BAR0
access of a bad length is an Unsupported Request and counts, one below 0x300_0000 goes to its page, and one above to the MSI-X table;
a vector that is unmasked while pending is sent; the adit window is MODE while it is closed; a reset of the port clears its
configuration, so that no BAR serves, and masks every vector. -/
def Obligations.HostPortServes : Prop :=
  ∀ (s : State) (off : BitVec 26) (len : BitVec 13) (tag : BitVec 10) (data : List Byte),
    let c := s.host.cfg
    (hostUp s = false → Gives (.hostRead off len tag) s s ∧ Gives (.hostWrite off data) s s ∧
      (∀ v, Gives (.msixUnmask v) s s) ∧ (∀ wr o, Gives (.aditAccess wr o len data tag) s s)) ∧
    (c.bar0 = none → Gives (.hostRead off len tag) s s ∧ Gives (.hostWrite off data) s s) ∧
    (c.bar2 = none → ∀ wr o, Gives (.aditAccess wr o len data tag) s s) ∧
    (hostUp s = true → c.bar0.isSome = true →
      (len.toNat = 0 ∨ 4096 < len.toNat →
        Gives (.hostRead off len tag) s ((hostRefused s stOob off.toNat).emit (.hostCpl tag .unsupported []))) ∧
      (1 ≤ len.toNat → len.toNat ≤ 4096 → off.toNat < 0x3000000 → off.toNat % 2 ^ 24 + len.toNat ≤ 2 ^ 24 →
        Gives (.hostRead off len tag) s (pageRequest s (.host tag) 0 false off.toNat (bar0Addr off.toNat) len.toNat [])) ∧
      (len.toNat = 8 → off.toNat = 0x3001000 →
        Gives (.hostRead off len tag) s (s.emit (.hostCpl tag .good (sliceBytes (leBytes 8 s.host.msixPending.toNat) 0 8)))) ∧
      (data = [] ∨ 4096 < data.length → Gives (.hostWrite off data) s (hostRefused s stOob off.toNat)) ∧
      (data ≠ [] → data.length ≤ 4096 → off.toNat < 0x3000000 → off.toNat % 2 ^ 24 + data.length ≤ 2 ^ 24 →
        Gives (.hostWrite off data) s (pageRequest s (.host 0) 0 true off.toNat (bar0Addr off.toNat) data.length data))) ∧
    (hostUp s = true →
      (∀ v : Fin 64,
        let e := setBit (tget msixReset s.host.msixTable v.val) 96 false
        let u : State := { s with host := { s.host with msixTable := tset msixReset s.host.msixTable v.val e } }
        (bitAt s.host.msixPending v.val = false ∨ c.msixEnable = false → Gives (.msixUnmask (some v)) s u) ∧
        (bitAt s.host.msixPending v.val = true → c.msixEnable = true → tabWf msixReset s.host.msixTable = true →
          Gives (.msixUnmask (some v)) s
            (hostMsix { u with host := { u.host with msixPending := setBit s.host.msixPending v.val false } } v.val)))) ∧
    (hostUp s = true → c.bar2.isSome = true →
      (∀ o, aditOpen s = false → Gives (.aditAccess true o len data tag) s
        (hostRefused { s with host := { s.host with aditRefused := satInc s.host.aditRefused } } stMode o.toNat)) ∧
      (∀ o : BitVec 24, aditOpen s = true → 1 ≤ len.toNat → len.toNat ≤ 4096 → o.toNat + len.toNat ≤ 2 ^ 24 →
        (s.col (homeCol s.host.aditPage.toNat)).retired = false →
        Gives (.aditAccess false o len [] tag) s (startXfer s (.host tag) 1 0 false (BitVec.ofNat 64 o.toNat)
          (s.host.aditPage.toNat * 2 ^ 24 + o.toNat) len.toNat []))) ∧
    (domainOn s 3 = true → ∀ full,
      let d : HostConfig := { c with bar0 := c.bar0.or (some (Config.barBase s.newFree.1)),
                                     bar2 := c.bar2.or (some (Config.barBase s.newFree.2.newFree.1)), busMaster := true }
      let h : HostPort := { s.host with link := if full then 1 else 2, perst := false, cfg := d, lost := false }
      Gives (.hostLinkUp full) s (condEnd { s.newFree.2.newFree.2 with host := h } 0xFF03 0)) ∧
    (domainOn s 3 = false → ∀ full, Gives (.hostLinkUp full) s s) ∧
    (let h : HostPort := { s.host with msixTable := [], msixPending := 0, cfg := {} }
     let t : State := { s with host := h }
     Gives (.hostPortReset .conventional) s t ∧
     Gives (.hostRead off len tag) t t ∧ Gives (.hostWrite off data) t t ∧
     (s.host.link = 0 → Gives (.hostPortReset .linkDown) s { s with host := { h with link := 0 } }) ∧
     (s.host.link = 0 → Gives (.hostPortReset .perstLow) s { s with host := { h with link := 0, perst := true } }) ∧
     (s.host.link ≠ 0 → Gives (.hostPortReset .perstLow) s
       (condStart { s with host := { h with link := 0, perst := true, lost := true } } 0xFF03 0 8 0)) ∧
     (∀ v < 64, msixMasked t v = true))

/-! ## The CAN segment and the mailboxes (chapter 12) -/

/-- NMT, heartbeat, TPDOs, EMCY and bus errors (R348, R349, R364, R365, R367, R369): an NMT command sets its state, or sends the
boot-up message and enters Pre-operational with the stored objects; a heartbeat, a TPDO or an EMCY leaves when its period or inhibit
time has passed and its state allows it; bus-off silences the node until it has recovered. -/
def Obligations.CanNodeRuns : Prop :=
  ∀ s : State, d00On s = true →
    (s.can.busOff = false →
      Gives .nmtStart s { s with can := { s.can with
        nmt := .operational, tpdoLast := tset 0 (tset 0 (tset 0 (tset 0 s.can.tpdoLast 0 s.now) 1 s.now) 2 s.now) 3 s.now } } ∧
      Gives .nmtStop s { s with can := { s.can with nmt := .stopped } } ∧
      Gives .nmtEnterPreOperational s { s with can := { s.can with nmt := .preOperational } } ∧
      (let c : Can := { s.can with comm := s.can.stored, nmt := .preOperational, usdo := none, usdoHeld := none, hbLast := s.now }
       let t := { s with can := c }.emit (.can (0x700 + s.can.nodeId) [0])
       Gives .nmtResetNode s t ∧ Gives .nmtResetCommunication s t) ∧
      (let ms := s.can.comm.heartbeatMs.toNat
       (ms = 0 ∨ s.now < s.can.hbLast + ms * 800000 → Gives .heartbeatTimer s s) ∧
       (ms ≠ 0 → s.can.hbLast + ms * 800000 ≤ s.now → Gives .heartbeatTimer s
         ({ s with can := { s.can with hbLast := s.now } }.emit (.can (0x700 + s.can.nodeId)
           [match s.can.nmt with | .stopped => 0x04 | .operational => 0x05 | .preOperational => 0x7F])))) ∧
      Gives .canBusOff s { s with can := { s.can with busOff := true, busOffs := satInc s.can.busOffs } } ∧
      Gives .canBusOffRecovered s s) ∧
    (s.can.busOff = true →
      Gives .nmtStart s s ∧ Gives .nmtStop s s ∧ Gives .nmtResetNode s s ∧ Gives .heartbeatTimer s s ∧ Gives .canBusOff s s ∧
      Gives .canBusOffRecovered s (raiseEmcy { s with can := { s.can with busOff := false } } 0x8140 6 s.can.busOffs.toNat)) ∧
    Gives (.canErrorPassive true) s (condStart { s with can := { s.can with errorPassive := true } } 0x8120 0 6 0) ∧
    Gives (.canErrorPassive false) s (condEnd { s with can := { s.can with errorPassive := false } } 0x8120 0) ∧
    (∀ t : Fin 4,
      let c := s.can.comm
      (s.can.nmt ≠ .operational ∨ bitAt (tget 0 c.tpdoCob t.val) 31 = true ∨ tget 0 c.tpdoTimer t.val = 0 →
        Gives (.tpdoEventTimer t) s s) ∧
      (s.can.nmt = .operational → bitAt (tget 0 c.tpdoCob t.val) 31 = false → tget 0 c.tpdoTimer t.val ≠ 0 → s.can.busOff = false →
        headframeServes s = true → tget 0 s.can.tpdoLast t.val + (tget 0 c.tpdoTimer t.val).toNat * 800000 ≤ s.now →
        tget 0 s.can.tpdoLast t.val + inhibitCycles (tget 0 c.tpdoInhibit t.val) ≤ s.now →
        Gives (.tpdoEventTimer t) s ({ s with can := { s.can with tpdoLast := tset 0 s.can.tpdoLast t.val s.now } }.emit
          (.can (bitsAt (tget 0 c.tpdoCob t.val) 28 0) (tpdoBytes s t.val))))) ∧
    (s.can.emcyQueue = [] → Gives .emcySend s s) ∧
    (∀ m rest, s.can.emcyQueue = m :: rest → bitAt s.can.comm.emcyCob 31 = false → headframeServes s = true → s.can.busOff = false →
      s.can.nmt ≠ .stopped → s.can.emcyLast = none → s.can.emcyOwed = false →
      Gives .emcySend s ({ s with can := { s.can with emcyQueue := rest, emcyLast := some s.now } }.emit
        (.can (bitsAt s.can.comm.emcyCob 28 0) (leBytes 2 m.code.toNat ++ [m.reg, m.unit] ++ leBytes 4 m.detail.toNat))))

/-- USDO and the mailboxes (R350, R354, R355, R359 to R361, R363): a whole upload answers with the object's bytes or the failing check;
a segmented transfer is gathered and served at its last part, and ends after 1,000 ms without one or when another begins; a write of
0 clears the error list; a mailbox takes its command once, waits its turn and is served, at once where the headframe serves and no
other waits, and a second command while it is pending is ignored and counted. -/
def Obligations.UsdoAndMailboxesServe : Prop :=
  ∀ (s : State) (idx : W16) (sb : Byte) (data : List Byte),
    let cob := 0x580 + s.can.nodeId
    (Opens s s .can idx sb → s.can.usdo = none → s.can.usdoHeld = none →
      (let r := readObject s idx.toNat sb.toNat 0 0 false
       dictOpen s .can idx sb false = .serve s → Gives (.usdoUpload idx sb .whole) s (dictReply s .can r.1 r.2.1 r.2.2)) ∧
      Gives (.usdoDownload idx sb .whole data) s (serveWrite s .can idx.toNat sb.toNat 0 data false) ∧
      (let x : UsdoXfer := { upload := false, idx := idx, sb := sb, data := data, since := s.now }
       Gives (.usdoDownload idx sb .first data) s ({ s with can := { s.can with usdo := some x } }.emit (.usdo cob 0 [])))) ∧
    (s.can.usdo.isSome = true → usdoServes s = true → s.life.state ≠ 0 → headframeServes s = true →
      Opens s { s with can := { s.can with usdo := none, usdoHeld := none, usdoAborts := satInc s.can.usdoAborts } } .can idx sb) ∧
    (∀ x, s.can.usdo = some x → usdoServes s = true → d00On s = true → x.idx = idx → x.sb = sb →
      (x.upload = false →
        (let y : UsdoXfer := { x with data := x.data ++ data, since := s.now }
         Gives (.usdoDownload idx sb .next data) s ({ s with can := { s.can with usdo := some y } }.emit (.usdo cob 0 []))) ∧
        Gives (.usdoDownload idx sb .last data) s
          (serveWrite { s with can := { s.can with usdo := none } } .can idx.toNat sb.toNat 0 (x.data ++ data) false)) ∧
      (x.upload = true →
        Gives (.usdoUpload idx sb .last) s ({ s with can := { s.can with usdo := none } }.emit (.usdo cob 0 x.data)))) ∧
    (∀ x, s.can.usdo = some x →
      (s.now < x.since + 800000000 → Gives .usdoSegmentTimeout s s) ∧
      (x.since + 800000000 ≤ s.now → usdoServes s = true → d00On s = true →
        Gives .usdoSegmentTimeout s
          ({ s with can := { s.can with usdo := none, usdoAborts := satInc s.can.usdoAborts } }.emit
            (.usdo cob 0x05040000 [])))) ∧
    (∀ (p : DictPath) (v : Byte) (u : State), Opens s u p 0x1003 0 →
      (v = 0 → Answers (.errorCountWrite p v) s { u with can := { u.can with errors := [] } } p stOk) ∧
      (v ≠ 0 → Answers (.errorCountWrite p v) s u p stOob)) ∧
    (∀ (m : Fin 16) (cmd : W64), headframeOn s = true →
      ((s.box m.val).pend = true →
        let t : State := { s with can := { s.can with mirrorDropped := satInc s.can.mirrorDropped } }
        Gives (.mailboxRead m cmd) s t ∧ Gives (.mailboxWrite m cmd) s t) ∧
      ((s.box m.val).pend = false → tabWf ({} : Mailbox) s.can.boxes = true →
        let b := mailCommand (s.box m.val) cmd
        (mailboxServes s = false →
          let t := mailPut (s.setBox m.val b) m.val 0
          Gives (.mailboxRead m cmd) s t ∧ Gives (.mailboxWrite m cmd) s t) ∧
        (mailboxServes s = true → s.can.mail = [] →
          let t := s.setBox m.val { b with taken := true }
          (bitsAt cmd 7 0 = 1 →
            let r := readObject t (bitsAt cmd 31 16) (bitsAt cmd 15 8) b.doff.toNat (bitsAt cmd 47 32) true
            Gives (.mailboxRead m cmd) s (dictReply t (.mbox m) r.1 r.2.1 r.2.2)) ∧
          (bitsAt cmd 7 0 = 2 →
            Gives (.mailboxWrite m cmd) s (serveWrite t (.mbox m) (bitsAt cmd 31 16) (bitsAt cmd 15 8) b.doff.toNat
              (areaBytes b 0 (bitsAt cmd 47 32)) true)))))

/-! ## Life states, resets, trust (chapter 13) -/

/-- Life states and bring-up (Tables 13.1, 13.2 and 13.4, R371, R376, R378): a state request is OK only from its states and sets its
state; `bu_run` is OOB outside 1 to 11, MODE outside STANDBY and BRINGUP, BUSY while a run is in progress, and otherwise runs the steps
that have not completed, none while a warm or cold reset holds the module (log entry 119); a step that exceeds its limit fails with
TIMEOUT. -/
def Obligations.LifeStatesAndBringup : Prop :=
  ∀ (s : State) (p : DictPath) (n : Byte) (env : BringupEnv) (u : State),
    (Opens s u p 0x2100 4 →
      let st := u.life.state
      (st = 3 ∨ st = 4 ∨ st = 5 → Answers (.quiesceRequest p) s (lifeTo u 6) p stOk) ∧
      (st ≠ 3 → st ≠ 4 → st ≠ 5 → Answers (.quiesceRequest p) s u p stMode) ∧
      (st = 6 ∨ st = 3 → Answers (.serviceRequest p) s (lifeTo u (serviceState u)) p stOk) ∧
      (st ≠ 6 → st ≠ 3 → Answers (.serviceRequest p) s u p stMode) ∧
      (st = 6 → stepsActive u = 0 → Answers (.maintenanceRequest p) s (lifeTo u 3) p stOk) ∧
      (st = 6 → stepsActive u ≠ 0 → Answers (.maintenanceRequest p) s u p stBusy) ∧
      (st ≠ 6 → Answers (.maintenanceRequest p) s u p stMode)) ∧
    (Opens s u p 0x2100 2 →
      (n = 0 ∨ 11 < n.toNat → Answers (.buRun p n env) s u p stOob) ∧
      (1 ≤ n.toNat → n.toNat ≤ 11 → u.life.state ≠ 1 → u.life.state ≠ 2 → Answers (.buRun p n env) s u p stMode) ∧
      (1 ≤ n.toNat → n.toNat ≤ 11 → u.life.state = 1 ∨ u.life.state = 2 →
        (u.life.running.isSome = true → Answers (.buRun p n env) s u p stBusy) ∧
        (u.life.running = none →
          let v := dictReply u p stOk 0 []
          Gives (.buRun p n env) s (buRunAct env n.toNat v) ∧
          (n.toNat ≤ v.life.buLast.toNat ∨ v.life.warm.isSome = true ∨ v.life.cold.isSome = true →
            Gives (.buRun p n env) s v)))) ∧
    (∀ r, s.life.running = some r →
      (s.now < r.since + stepLimit s r.step * 800 → Gives .bringupStepTimeout s s) ∧
      (r.since + stepLimit s r.step * 800 ≤ s.now →
        let t := runOver (putStep s r.step { state := stepFailed, status := stTimeout, us := BitVec.ofNat 32 (stepLimit s r.step) })
        (r.step ≠ 1 → r.step ≠ 3 → r.step ≠ 4 → Gives .bringupStepTimeout s t) ∧
        (r.step = 1 ∨ r.step = 3 ∨ r.step = 4 → Gives .bringupStepTimeout s (lifeFatal t))))

/-- Resets (Table 13.7, R382 to R386, R448): a face or compute reset begins only in its states, and none while a reset of the same or
a higher rank is in progress; a compute reset ends with its queues started anew, a warm reset's drain after 1 ms, a cold one's OFF
after 10 ms in STANDBY with its record and its boot-up message; without input power everything but flash, fuses and pins is gone, and
D00 starts in STANDBY. -/
def Obligations.ResetsRun : Prop :=
  ∀ (s : State) (p : DictPath) (f : FaceId) (u : State),
    (Opens s u p 0x2100 6 → let v := BitVec.ofNat 8 f.val
      (lightResetState u = false → Answers (.faceReset p v) s u p stMode) ∧
      (lightResetState u = true →
        ((u.face f.val).logical = none ∨ (u.face f.val).fenced = true → Answers (.faceReset p v) s u p stFenced) ∧
        ((u.face f.val).logical.isSome = true → (u.face f.val).fenced = false →
          (1 ≤ resetRank u → Answers (.faceReset p v) s u p stBusy) ∧
          (resetRank u = 0 → u.life.running = none →
            Gives (.faceReset p v) s (faceResetBegin (dictReply u p stOk 0 []) f.val))))) ∧
    (Opens s u p 0x2100 5 →
      (lightResetState u = false → Answers (.computeReset p) s u p stMode) ∧
      (lightResetState u = true → 2 ≤ resetRank u → Answers (.computeReset p) s u p stBusy) ∧
      (lightResetState u = true → resetRank u ≤ 1 → u.life.running = none →
        Gives (.computeReset p) s (computeBegin (dictReply u p stOk 0 []))) ∧
      (u.life.state ≠ 0 → u.life.state ≠ 1 → u.trust.fwState ≠ 5 →
        (3 ≤ resetRank u → Answers (.warmReset p) s u p stBusy) ∧
        (resetRank u ≤ 2 → Gives (.warmReset p) s (warmBegin (dictReply u p stOk 0 []))) ∧
        (resetRank u ≤ 3 → Gives (.coldReset p) s (coldBegin (dictReply u p stOk 0 []))))) ∧
    (s.life.state = 1 → usdoServes s = true →
      Answers (.warmReset .can) s (usdoNew s) .can stMode ∧ Answers (.coldReset .can) s (usdoNew s) .can stMode) ∧
    ((s.face f.val).resetting = true → faceJob s f.val = false →
      Gives (.faceResetDone f) s (s.setFace f.val { s.face f.val with resetting := false })) ∧
    ((s.face f.val).resetting = false → Gives (.faceResetDone f) s s) ∧
    (s.life.compute.isSome = true →
      Gives .computeResetDone s { s with
        queues := tmap {} queueStart s.queues, trust := { s.trust with ucodePending := false },
        life := { s.life with compute := none } }) ∧
    (s.life.compute = none → Gives .computeResetDone s s) ∧
    (∀ a, s.life.warm = some a →
      (a + 800000 ≤ s.now → Gives .warmResetDrainEnd s (warmCleared (drainTimeouts s))) ∧
      (s.now < a + 800000 → s.xfers ≠ [] → Gives .warmResetDrainEnd s s)) ∧
    (∀ a, s.life.cold = some a →
      (s.now < a + 8000000 → Gives .coldResetOffEnd s s) ∧
      (a + 8000000 ≤ s.now →
        let l : Life := { s.life with state := 1, cold := none, resetCause := 2 }
        let c : Can := { s.can with rateNominal := s.can.canNominal, rateData := s.can.canData }
        Gives .coldResetOffEnd s (bootUp (logLife { s with life := l, can := c } s.life.state 1 4)))) ∧
    (∃ t, Gives .powerRemoved s t ∧ t.life.state = 0 ∧ t.fuse = s.fuse ∧ t.log.saved = s.log.saved ∧ t.log.recs = [] ∧
      t.xlate = [] ∧ t.tally = {} ∧ t.queues = [] ∧ t.ports = [] ∧ t.ctxs = State.reset.ctxs) ∧
    (s.life.state = 0 → ∀ node : BitVec 6, ∃ t, Gives (.d00Start node) s t ∧ t.life.state = 1 ∧ t.can.nodeId = node.toNat + 1 ∧
      t.can.nmt = .preOperational ∧ t.out = s.out ++ [.can (0x701 + node.toNat) [0]]) ∧
    (s.life.state ≠ 0 → ∀ node, Gives (.d00Start node) s s)

/-- Firmware, licences and attestation (R391 to R400): an image is written from its start or at its end, at most to its limit; each
firmware command has its states and otherwise answers MODE; a verified image can be committed and a written one activated; a licence
passes its checks in order, and takes the first empty slot; an attestation needs a nonce of 32 bytes and takes the next index, with
which its signature begins. Through a mailbox an image comes in parts of 1 to 4,064 bytes; a USDO download brings it from its first
byte. -/
def Obligations.FirmwareLicencesAttestation : Prop :=
  ∀ (s : State) (p : DictPath) (off : W32) (data : List Byte) (u : State),
    let t := u.trust
    let o := domainOff p off.toNat
    (∀ m, domainOff .can m = 0 ∧ (∀ b, domainOff (.mbox b) m = m)) ∧
    (∀ m, p = .mbox m → data = [] ∨ 4064 < data.length →
      let refused (c : Instr) : Prop := exec c s = .next (dictReply u p stMode 0x06070010 [])
      (Opens s u p 0x2120 1 → refused (.fwImageWrite p off data)) ∧ (Opens s u p 0x2130 1 → refused (.licImageWrite p off data)) ∧
      (Opens s u p 0x2140 1 → refused (.attNonceWrite p off data))) ∧
    (Opens s u p 0x2120 1 → mailLen p data.length = true →
      (t.fwState = 2 ∨ t.fwState = 5 → Answers (.fwImageWrite p off data) s u p stBusy) ∧
      (t.fwState ≠ 2 → t.fwState ≠ 5 →
        (o = 0 → data.length ≤ 4194304 →
          Answers (.fwImageWrite p off data) s { u with trust := { t with fwImage := data, fwState := 1 } } p stOk) ∧
        (o = t.fwImage.length → o ≠ 0 → t.fwImage.length + data.length ≤ 4194304 →
          Answers (.fwImageWrite p off data) s { u with trust := { t with fwImage := t.fwImage ++ data, fwState := 1 } } p stOk) ∧
        (o ≠ 0 → o ≠ t.fwImage.length → Answers (.fwImageWrite p off data) s u p stOob))) ∧
    (Opens s u p 0x2120 2 →
      (t.fwState = 1 → Answers (.verify p) s { u with trust := { t with fwState := 2, fwStatus := stOk } } p stOk) ∧
      (t.fwState ≠ 1 → Answers (.verify p) s { u with trust := { t with fwStatus := stMode } } p stMode) ∧
      (t.fwState = 3 → Answers (.commit p) s { u with trust := { t with fwState := 5, fwStatus := stOk } } p stOk) ∧
      (t.fwState ≠ 3 → Answers (.commit p) s { u with trust := { t with fwStatus := stMode } } p stMode) ∧
      (t.fwState = 6 →
        let t1 : Trust := { t with fwState := 0, fwImage := [], ucodePending := true, fwStatus := stOk }
        Answers (.activate p) s { u with trust := t1, life := { u.life with restart := some u.now } } p stOk) ∧
      (t.fwState ≠ 6 → Answers (.activate p) s { u with trust := { t with fwStatus := stMode } } p stMode) ∧
      (t.fwState = 1 ∨ t.fwState = 3 ∨ t.fwState = 4 ∨ t.fwState = 6 →
        Answers (.discard p) s { u with trust := { t with fwState := 0, fwImage := [], fwStatus := stOk } } p stOk)) ∧
    (let r := imageCheck s.fuse s.trust.fwImage;
      (s.trust.fwState = 2 → Gives .imageVerified s
        (if r.1 = stOk then { s with trust := { s.trust with fwState := 3 } } else fwRejected s r.1 r.2)) ∧
      (s.trust.fwState = 5 → Gives (.flashWriteDone true) s
        (if r.1 = stOk then { s with trust := { s.trust with flash := s.trust.fwImage, fwState := 6 } }
         else fwRejected { s with trust := { s.trust with flash := s.trust.fwImage } } r.1 r.2))) ∧
    (s.can.mail = [] → s.life.restart = none → Gives .headframeRestartDone s s) ∧
    (∀ a, s.can.mail = [] → s.life.restart = some a →
      let t1 : Trust := { s.trust with nextIdx := s.trust.reservedTo, loaded := s.trust.flash,
                                       fwVersion := BitVec.ofNat 32 (imgVersion (imgHeader s.trust.flash)) }
      Gives .headframeRestartDone s (condEnd { s with life := { s.life with restart := none }, trust := t1 } 0xFF40 0)) ∧
    (Opens s u p 0x2130 1 → mailLen p data.length = true →
      (o = 0 → data.length ≤ 2884 → Answers (.licImageWrite p off data) s { u with trust := { t with licImage := data } } p stOk) ∧
      (o = t.licImage.length → o ≠ 0 → t.licImage.length + data.length ≤ 2884 →
        Answers (.licImageWrite p off data) s { u with trust := { t with licImage := t.licImage ++ data } } p stOk) ∧
      (o = 0 → 2884 < data.length → Answers (.licImageWrite p off data) s u p stOob)) ∧
    (Opens s u p 0x2130 2 →
      (∀ k : Fin 8, (licSlot t k.val).data = [] →
        Answers (.licenceSlotEmpty p k) s { u with trust := { t with licStatus := stOob } } p stOob) ∧
      (∀ k : Fin 8, (licSlot t k.val).data ≠ [] →
        Answers (.licenceSlotEmpty p k) s { u with trust := { t with slots := tset {} t.slots k.val {}, licStatus := stOk } } p stOk) ∧
      (let r := licenceChecks u.fuse t.licImage
       let feat := licFeatures (licBody t.licImage)
       let stored := logTrust { u with trust := { t with slots := tset {} t.slots 0 { data := t.licImage } } } 0 stOk 0 feat
       t.slots = [] →
        let v := if r.1 = stOk then stored else logTrust u 8 r.1 r.2 feat
        Answers (.licenceCheck p) s { v with trust := { v.trust with licStatus := r.1 } } p r.1)) ∧
    (Opens s u p 0x2140 1 → mailLen p data.length = true → o = 0 → data.length ≤ 32 →
      Answers (.attNonceWrite p off data) s { u with trust := { t with attNonce := data } } p stOk) ∧
    (Opens s u p 0x2140 2 →
      (t.attNonce.length ≠ 32 → Answers (.attCmd p 1) s u p stOob) ∧
      (t.attNonce.length = 32 → t.attState = 1 → Answers (.attCmd p 1) s u p stBusy) ∧
      (t.attNonce.length = 32 → t.attState ≠ 1 → t.nextIdx.toNat < 1048576 →
        let t1 : Trust := { t with attState := 1, attReport := [], attBody := attBodyBytes u t.nextIdx,
                                   nextIdx := t.nextIdx + 1,
                                   reservedTo := if t.nextIdx = t.reservedTo then t.reservedTo + 64 else t.reservedTo }
        Answers (.attCmd p 1) s { u with trust := t1 } p stOk)) ∧
    (s.trust.attState = 1 → ∃ v sig, Gives .signingDone s v ∧ v.trust.attState = 2 ∧ sig.length = 2820 ∧
      sig.take 4 = toByte (leNat ((s.trust.attBody.drop 24).take 4)) 4 ∧ v.trust.attReport = s.trust.attBody ++ sig)

/-! ## Power, heat, inputs (chapter 14) -/

/-- Input power and the pins (R402, R403, R406, R418, R421, R423, R448): three samples below 40 V switch the module off; a phase that
faults is isolated and recorded; a change of WAKE_N or THROTTLE_N is qualified unless it is shorter than the filter, an edge too soon
is counted, a level held longer than its limit is stuck until it has been inactive for the spacing; an idle domain without work reads
IDLE, then SLEEP, and wakes; PWRGD is high while D00 runs, and ALERT_N is low while an error or a throttle state stands. -/
def Obligations.PowerInputsAndDomains : Prop :=
  ∀ (s : State), d00On s = true →
    (∀ v w : W16,
      let t := voltConditions { s with power := voltCounts s.power v.toNat }
      (v.toNat < 4000 → 2 ≤ s.power.under40 → Gives (.inputSample v w) s (powerOff t)) ∧
      (4800 ≤ v.toNat → v.toNat ≤ 6600 → Gives (.inputSample v w) s { t with power := storeSample t.power w.toNat })) ∧
    (∀ i : Fin 18,
      (bitAt s.power.phases i.val = false → Gives (.phaseFault i) s s) ∧
      (bitAt s.power.phases i.val = true → Gives (.phaseFault i) s (logSupply
        { s with power := { s.power with phases := setBit s.power.phases i.val false } } (i.val + 0x100)
        (int16 (s.channel (88 + i.val)).value)))) ∧
    (let q := s.input 2
      let at_ (active : Bool) : InputPin := { q with level := active, since := s.now, changed := some s.now }
      (∀ b, q.level = b → Gives (.throttleNChange b) s s) ∧
      (∀ b, q.level = !b → tooShort s 2 = true →
        Gives (.throttleNChange b) s (s.setInput 2 { q with glitches := satInc q.glitches })) ∧
      (tooShort s 2 = false →
        (q.level = true → Gives (.throttleNChange false) s (s.setInput 2 (at_ false))) ∧
        (q.level = false → q.lastEdge = none →
          Gives (.throttleNChange true) s (s.setInput 2 { at_ true with lastEdge := some s.now })) ∧
        (∀ a, q.level = false → q.lastEdge = some a →
          (s.now < a + q.spacingUs.toNat * 800 →
            Gives (.throttleNChange true) s (s.setInput 2 { at_ true with fast := satInc q.fast })) ∧
          (a + q.spacingUs.toNat * 800 ≤ s.now →
            Gives (.throttleNChange true) s (s.setInput 2 { at_ true with lastEdge := some s.now }))))) ∧
    (tabWf ({} : InputPin) s.inputs = true → tooShort s 1 = false →
      let q := s.input 1
      let at_ (active : Bool) : InputPin := { q with level := active, since := s.now, changed := some s.now }
      (q.level = true → Gives (.wakeNChange false) s (s.setInput 1 (at_ false))) ∧
      (q.level = false → q.stuck = false → q.lastEdge = none →
        Gives (.wakeNChange true) s (wakeSleepers (s.setInput 1 { at_ true with lastEdge := some s.now })))) ∧
    (∀ i : Fin 3, let q := s.input i.val
      (q.level = false ∨ q.stuck = true → Gives (.inputStuck i) s s) ∧
      (i ≠ 0 → q.level = true → q.stuck = false → q.since + q.stuckMs.toNat * 800000 < s.now →
        Gives (.inputStuck i) s
          (condStart (s.setInput i.val { q with stuck := true, stucks := satInc q.stucks }) 0xFF21 i.val 10 i.val)) ∧
      (i ≠ 0 → q.stuck = true → q.level = false → q.since + q.spacingUs.toNat * 800 ≤ s.now →
        Gives (.inputStuckRelease i) s (condEnd (s.setInput i.val { q with stuck := false }) 0xFF21 i.val)) ∧
      (q.stuck = false → Gives (.inputStuckRelease i) s s) ∧
      Gives (.inputGlitch i) s (s.setInput i.val { q with glitches := satInc q.glitches })) ∧
    (∀ d : Fin 30, let k := s.domain d.val
      (k.state = 1 → domainFree s d.val = true →
        Gives (.domainIdle d) s (s.setDomain d.val { k with state := 2, idleSince := s.now })) ∧
      (k.state ≠ 1 → Gives (.domainIdle d) s s) ∧
      (k.state = 2 → domainFree s d.val = true → s.power.sleepIdleUs ≠ 0 → wakeHeld s = false →
        k.idleSince + s.power.sleepIdleUs.toNat * 800 ≤ s.now → Gives (.domainSleep d) s (s.setDomain d.val { k with state := 3 })) ∧
      (wakeHeld s = true ∨ domainFree s d.val = false → Gives (.domainSleep d) s s) ∧
      (k.state ≠ 2 → k.state ≠ 3 → Gives (.domainWake d) s s) ∧
      (k.state = 2 ∨ k.state = 3 → ∃ us, us ≤ (if k.state = 2 then 1 else 20) ∧ Gives (.domainWake d) s
        ({ s with freeTick := s.freeTick + 1 }.setDomain d.val
          { k with state := 1, wakes := k.wakes + 1, wakeUsMax := BitVec.ofNat 8 (max k.wakeUsMax.toNat us) }))) ∧
    (pwrgd s = true ∧ presentN s = false ∧
      (alertN s = false ↔ errorRegister (activeConds s.can) ≠ 0 ∨ s.canary.thrState ≠ thrNone))

/-- Duties, loans and the canary (R408 to R414, R419, R420): a unit above its grant loses an eighth of duty each µs, down to 2, and
gains one after eight µs below seven eighths of it; a face that wakes has its share back once every borrower is within its grant, or
after 10 µs; the slots of a round come in order, a round ends after slot 127, and a rise or an excess asks before it enforces. -/
def Obligations.DutiesAndCanary : Prop :=
  ∀ (s : State),
    (headframeOn s = true → s.life.restart = none → ∀ st fs, (∀ f, (s.face f).gated = false) →
      (s.faces.filter fun x => x.2.gated) = [] →
      Gives (.unitDutyTick st fs) s
        { s with power := unitsTick s.power fun u => if u < 8 then st.getD u 0 else fs.getD (u - 8) 0 }) ∧
    (headframeOn s = false → ∀ st fs, Gives (.unitDutyTick st fs) s s) ∧
    (∀ (u : LedgerUnit) g e, (g < e → (unitTick u g e).duty = max 2 (u.duty - 1)) ∧
      (e ≤ g → 7 * g ≤ 8 * e → (unitTick u g e).duty = u.duty) ∧
      (8 * e < 7 * g → u.calm = 7 → (unitTick u g e).duty = min 8 (u.duty + 1))) ∧
    (∀ f : FaceId, let c := s.face f.val
      (c.floorRate = false → Gives (.recallComplete f) s s) ∧
      (c.floorRate = true → (s.power.loans.filter fun l => l.lender == f.val && l.recalled) = [] →
        Gives (.recallComplete f) s (s.setFace f.val { c with floorRate := false })) ∧
      (c.floorRate = true → c.wokeAt + 8000 ≤ s.now → ∃ t, Gives (.recallComplete f) s t ∧
        (∀ l ∈ t.power.loans, ¬ (l.lender = f.val ∧ l.recalled = true)))) ∧
    (∀ (c : Fin 128) raw,
      (s.canary.slot ≠ c.val → Gives (.canarySlot c raw) s s) ∧
      (canaryRuns s = true → s.canary.slot = c.val → ∃ t, Gives (.canarySlot c raw) s t ∧ t.canary.slot = c.val + 1)) ∧
    (s.canary.slot ≠ 128 → Gives .canaryRoundEnd s s) ∧
    (canaryRuns s = true → s.canary.slot = 128 →
      let c : Canary := { s.canary with slot := 0, rounds := s.canary.rounds + 1 }
      let t := supplyChannels.foldl supplyRound (conditionsAgain { s with canary := c })
      Gives .canaryRoundEnd s (telemetryCopy (dutyReport (throttleRound t)))) ∧
    (∀ u : State, let x := throttleRound u
      (u.canary.thrState = thrNone → throttleCause u = false → throttleTrip u = false → x.1.canary.thrState = thrNone ∧ x.2 = false) ∧
      (u.canary.thrState ≠ thrEnforced → throttleTrip u = true → x.1.canary.thrState = thrEnforced ∧ x.1.canary.thrK = 2))

/-! ## Fencing and the fault log (chapter 15) -/

/-- Fences, retirement and the log's objects (Table 15.6, R428, R431 to R433, R439): a fence is OOB for no unit, MODE outside its states,
OK where the unit is fenced, BUSY while another runs, and else begins after its response; its end counts it and moves `generation`; a
column is retired once its pick is fenced and nothing maps it; `flog_sel` copies a record that is held, and `flog_clear` empties the
log. -/
def Obligations.FencesAndFaultLog : Prop :=
  ∀ (s : State) (p : DictPath) (g : PickId) (f : FaceId) (u : State),
    (Opens s u p 0x5001 1 → let v := BitVec.ofNat 8 f.val
      (fenceState u = false → Answers (.faceFence p v) s u p stMode) ∧
      (fenceState u = true →
        ((u.face f.val).logical = none → Answers (.faceFence p v) s u p stFenced) ∧
        ((u.face f.val).logical.isSome = true → (u.face f.val).fenced = false →
          (u.fence.jobs ≠ [] → Answers (.faceFence p v) s u p stBusy) ∧
          (u.fence.jobs = [] → Gives (.faceFence p v) s (faceFenceBegin (dictReply u p stOk 0 []) f.val 0))))) ∧
    (Opens s u p 0x5001 1 → ∀ v : Byte, 51 < v.toNat → Answers (.faceFence p v) s u p stOob) ∧
    (Opens s u p 0x5001 2 → let v := BitVec.ofNat 16 g.val
      (fenceState u = false → Answers (.pickFence p v) s u p stMode) ∧
      (fenceState u = true → (u.col g.val).fenced = false → (u.col g.val).retired = false →
        (u.fence.jobs ≠ [] → Answers (.pickFence p v) s u p stBusy) ∧
        (u.fence.jobs = [] → Gives (.pickFence p v) s (pickFenceBegin (dictReply u p stOk 0 []) g.val 0)))) ∧
    (s.fence.jobs = [] → Gives .fenceComplete s s) ∧
    (∀ j rest, s.fence.jobs = j :: rest → j.pick = true →
      ∃ t, Gives .fenceComplete s t ∧ t.geo.generation = s.geo.generation + 1 ∧ t.fence.done = s.fence.done + 1 ∧
        t.fence.jobs = rest ∧ j.idx ∈ t.fuse.svcPicks) ∧
    (Opens s u p 0x5001 3 → let v := BitVec.ofNat 16 g.val
      ((u.col g.val).retired = true → Answers (.colRetire p v) s u p stOk) ∧
      ((u.col g.val).retired = false → (u.col g.val).fenced = false ∨ retireBlocked u g.val = true →
        Answers (.colRetire p v) s u p stMode) ∧
      ((u.col g.val).retired = false → (u.col g.val).fenced = true → retireBlocked u g.val = false →
        Answers (.colRetire p v) s (retireBegin u g.val) p stOk ∧
        (tabWf ({} : Col) u.cols = true → ((retireBegin u g.val).col g.val).retired = true))) ∧
    (Opens s u p 0x5000 3 → ∀ v : W32,
      ((∀ r ∈ u.log.recs, r.fseq ≠ v) → Answers (.flogSel p v) s u p stOob) ∧
      (∀ r, u.log.recs.find? (fun x => x.fseq == v) = some r →
        Answers (.flogSel p v) s { u with log := { u.log with sel := v, snap := faultWord r } } p stOk)) ∧
    (Opens s u p 0x5000 0x0B → ∀ v : W16,
      (u.log.saved.length ≤ v.toNat → Answers (.flogSavedSel p v) s u p stOob) ∧
      (∀ r, u.log.saved.reverse[v.toNat]? = some r →
        Answers (.flogSavedSel p v) s { u with log := { u.log with savedSel := v, savedSnap := faultWord r } } p stOk)) ∧
    (Opens s u p 0x5000 9 →
      Answers (.flogClear p 1) s { u with log := { u.log with oldest := u.log.count, recs := [] } } p stOk ∧
      (∀ v : Byte, v ≠ 1 → Answers (.flogClear p v) s u p stOob))
end

