-- ==== Sys2Proof/Laws/Table.lean ====
section
/-! SUPPORT. Laws of the sparse tables and of memory: read after write, and the canonical form. -/

namespace Sys2Proof.Machine

section tables
variable {α : Type} [DecidableEq α] {d : α}

theorem tabWf_cons {t : Tab α} {i : Nat} {v : α} :
    tabWf d ((i, v) :: t) = true ↔ v ≠ d ∧ (∀ p ∈ t, i < p.1) ∧ tabWf d t = true := by
  induction t generalizing i v with
  | nil => simp [tabWf]
  | cons p t ih =>
    obtain ⟨j, w⟩ := p
    simp only [tabWf, Bool.and_eq_true, decide_eq_true_eq, List.forall_mem_cons]
    constructor
    · rintro ⟨⟨h, hv⟩, hw⟩
      exact ⟨hv, ⟨h, fun p hp => Nat.lt_trans h ((ih.1 hw).2.1 p hp)⟩, hw⟩
    · rintro ⟨hv, ⟨h, -⟩, hw⟩
      exact ⟨⟨h, hv⟩, hw⟩

omit [DecidableEq α] in
/-- Below every listed index a table holds its default. -/
theorem tget_below {t : Tab α} {k : Nat} (h : ∀ p ∈ t, k < p.1) : tget d t k = d := by
  induction t with
  | nil => rfl
  | cons p t ih =>
    rw [List.forall_mem_cons] at h
    simp only [tget, if_neg (Nat.ne_of_lt h.1), ih h.2]

/-- A write leaves every other index alone, on every table. -/
theorem tget_tset_ne (t : Tab α) {i k : Nat} (v : α) (h : k ≠ i) : tget d (tset d t i v) k = tget d t k := by
  induction t with
  | nil => by_cases hv : v = d <;> simp [tset, tget, hv, h]
  | cons p t ih =>
    obtain ⟨j, w⟩ := p
    simp only [tset]
    split
    · split <;> simp [tget, h]
    · split
      · next hij => subst hij; split <;> simp [tget, h]
      · simp [tget, ih]

/-- Read after write, on a table in canonical form. -/
theorem tget_tset_same {t : Tab α} (hw : tabWf d t = true) (i : Nat) (v : α) : tget d (tset d t i v) i = v := by
  induction t with
  | nil => by_cases hv : v = d <;> simp [tset, tget, hv]
  | cons p t ih =>
    obtain ⟨j, w⟩ := p
    have hc := tabWf_cons.1 hw
    simp only [tset]
    split
    · next hij =>
      split
      · next hv =>
        subst hv
        simp only [tget, if_neg (Nat.ne_of_lt hij)]
        exact tget_below fun p hp => Nat.lt_trans hij (hc.2.1 p hp)
      · simp [tget]
    · split
      · next hij =>
        subst hij
        split
        · next hv => subst hv; exact tget_below hc.2.1
        · simp [tget]
      · next h1 h2 => simp [tget, h2, ih hc.2.2]

/-- Indices of a written table: the written one and those listed before. -/
theorem mem_tset {t : Tab α} {i : Nat} {v : α} {p : Nat × α} (h : p ∈ tset d t i v) : p.1 = i ∨ p ∈ t := by
  induction t with
  | nil =>
    by_cases hv : v = d
    · simp [tset, hv] at h
    · simp only [tset, hv, if_false, List.mem_singleton] at h; exact .inl (h ▸ rfl)
  | cons q t ih =>
    obtain ⟨j, w⟩ := q
    simp only [tset] at h
    split at h
    · split at h
      · exact .inr h
      · rcases List.mem_cons.1 h with rfl | h
        · exact .inl rfl
        · exact .inr h
    · split at h
      · split at h
        · exact .inr (List.mem_cons_of_mem _ h)
        · rcases List.mem_cons.1 h with rfl | h
          · exact .inl rfl
          · exact .inr (List.mem_cons_of_mem _ h)
      · rcases List.mem_cons.1 h with rfl | h
        · exact .inr (List.mem_cons_self ..)
        · exact (ih h).imp id (List.mem_cons_of_mem _)

/-- A write keeps the canonical form. -/
theorem tabWf_tset {t : Tab α} (hw : tabWf d t = true) (i : Nat) (v : α) : tabWf d (tset d t i v) = true := by
  induction t with
  | nil => by_cases hv : v = d <;> simp [tset, tabWf, hv]
  | cons p t ih =>
    obtain ⟨j, w⟩ := p
    have hc := tabWf_cons.1 hw
    simp only [tset]
    split
    · next hij =>
      split
      · exact hw
      · next hv =>
        refine tabWf_cons.2 ⟨hv, ?_, hw⟩
        rw [List.forall_mem_cons]
        exact ⟨hij, fun p hp => Nat.lt_trans hij (hc.2.1 p hp)⟩
    · split
      · next hij =>
        subst hij
        split
        · exact hc.2.2
        · next hv => exact tabWf_cons.2 ⟨hv, hc.2.1, hc.2.2⟩
      · next h1 h2 =>
        refine tabWf_cons.2 ⟨hc.1, fun p hp => ?_, ih hc.2.2⟩
        rcases mem_tset hp with h | h
        · omega
        · exact hc.2.1 p h

/-- Leaving entries out keeps the canonical form. -/
theorem tabWf_filter {t : Tab α} (hw : tabWf d t = true) (p : Nat × α → Bool) : tabWf d (t.filter p) = true := by
  induction t with
  | nil => rfl
  | cons q t ih =>
    obtain ⟨j, w⟩ := q
    have hc := tabWf_cons.1 hw
    simp only [List.filter_cons]
    split
    · exact tabWf_cons.2 ⟨hc.1, fun p hp => hc.2.1 p ((List.mem_filter.1 hp).1), ih hc.2.2⟩
    · exact ih hc.2.2

end tables

/-! ## Memory -/

/-- A byte write keeps memory in canonical form. -/
theorem memWf_wrByte {s : State} (h : memWf s.mem = true) (k : Nat) (b : Byte) : memWf (s.wrByte k b).mem = true :=
  tabWf_tset h k b

/-- A write of bytes keeps memory in canonical form. -/
theorem memWf_wrBytes {s : State} (h : memWf s.mem = true) (k : Nat) (bs : List Byte) : memWf (s.wrBytes k bs).mem = true := by
  induction bs generalizing s k with
  | nil => exact h
  | cons b bs ih => exact ih (memWf_wrByte h k b) (k + 1)

/-- A byte written reads back. -/
theorem rdByte_wrByte_same {s : State} (h : memWf s.mem = true) (k : Nat) (b : Byte) : (s.wrByte k b).rdByte k = b :=
  tget_tset_same h k b

/-- A byte write leaves every other byte alone. -/
theorem rdByte_wrByte_ne (s : State) {j k : Nat} (b : Byte) (h : j ≠ k) : (s.wrByte k b).rdByte j = s.rdByte j :=
  tget_tset_ne s.mem b h

/-- A write of bytes leaves every byte outside its range alone. -/
theorem rdByte_wrBytes_out (s : State) {j k : Nat} (bs : List Byte) (h : j < k ∨ k + bs.length ≤ j) :
    (s.wrBytes k bs).rdByte j = s.rdByte j := by
  induction bs generalizing s k with
  | nil => rfl
  | cons b bs ih =>
    simp only [List.length_cons] at h
    rw [State.wrBytes, ih, rdByte_wrByte_ne] <;> omega

/-- Bytes written read back. -/
theorem rdByte_wrBytes_in {s : State} (hw : memWf s.mem = true) {i k : Nat} (bs : List Byte) (h : i < bs.length) :
    (s.wrBytes k bs).rdByte (k + i) = bs[i] := by
  induction bs generalizing s k i with
  | nil => simp at h
  | cons b bs ih =>
    cases i with
    | zero =>
      rw [State.wrBytes, rdByte_wrBytes_out _ _ (by omega)]
      exact rdByte_wrByte_same hw k b
    | succ i =>
      have h' : i < bs.length := by simpa using h
      have := ih (memWf_wrByte hw k b) (k := k + 1) h'
      rw [State.wrBytes, show k + (i + 1) = k + 1 + i by omega, this]
      rfl

/-- A write of bytes changes nothing but memory. -/
theorem wrBytes_frame (s : State) (k : Nat) (bs : List Byte) (m : List Host.Cell) : { s.wrBytes k bs with mem := m } = { s with mem := m } := by
  induction bs generalizing s k with
  | nil => rfl
  | cons b bs ih => rw [State.wrBytes, ih]; rfl

end Sys2Proof.Machine
end

