-- ==== Sys2Proof/Laws/Kept.lean ====
section
/-! SUPPORT. What every shared operation keeps: the queue of waiting commands and the canonical form of memory. The lemmas of
Kept*.lean say it once for each operation that takes a state to a state; a proof about a command cites them and unfolds nothing. -/

namespace Sys2Proof.Machine

/-- The queue of waiting commands is p, and memory is in canonical form. -/
def Kept (qp : List Instr) (s : State) : Prop := s.pending = qp ∧ memWf s.mem = true

theorem kept_mk {qp : List Instr} {m : List Host.Cell} {l : List Instr} (now : _) (out : _) (freeTick : _) (reqNext : _)
    (eccDiff : _) (sramErr : _) (xfers : _) (waits : _) (xlate : _) (groupView : _) (ctxs : _) (drain : _) (cols : _)
    (stackTbl : _) (passes : _) (collar : _) (collarFree : _) (faces : _) (clusters : _) (queues : _) (foreman : _) (win : _)
    (tally : _) (ports : _) (fwds : _) (host : _) (can : _) (log : _) (life : _) (fuse : _) (trust : _) (geo : _) (power : _)
    (canary : _) (inputs : _) (fence : _) (oldBinding : _) :
    Kept qp ⟨l, now, out, freeTick, reqNext, m, eccDiff, sramErr, xfers, waits, xlate, groupView, ctxs, drain, cols, stackTbl,
    passes, collar, collarFree, faces, clusters, queues, foreman, win, tally, ports, fwds, host, can, log, life, fuse, trust,
    geo, power, canary, inputs, fence, oldBinding⟩ ↔ l = qp ∧ memWf m = true := Iff.rfl

theorem kept_of {qp : List Instr} {s : State} (h : Kept qp s) : s.pending = qp ∧ memWf s.mem = true := h

theorem kept_fst {qp : List Instr} {α : Type} {x : State × α} {s : State} {a : α} (h : Kept qp x.1) (e : x =
    (s, a)) : Kept qp s := by
  subst e; exact h

theorem kept_ite {qp : List Instr} {c : Prop} [Decidable c] {s t : State} (h : c → Kept qp s) (k : ¬ c → Kept qp t) :
    Kept qp (if c then s else t) := by
  split
  · exact h ‹_›
  · exact k ‹_›

theorem kept_ite2 {qp : List Instr} {α : Type} {c : Prop} [Decidable c] {s t : State × α} (h : c → Kept qp s.1)
    (k : ¬ c → Kept qp t.1) : Kept qp (if c then s else t).1 := by
  split
  · exact h ‹_›
  · exact k ‹_›

theorem kept_foldl {qp : List Instr} {α : Type} {f : State → α → State} {l : List α} {s : State} (h : Kept qp s)
    (hf : ∀ t x, Kept qp t → Kept qp (f t x)) : Kept qp (l.foldl f s) := by
  induction l generalizing s with
  | nil => exact h
  | cons a l ih => exact ih (hf s a h)

theorem kept_foldl2 {qp : List Instr} {α β : Type} {f : State × β → α → State × β} {l : List α} {s : State × β} (h : Kept qp s.1)
    (hf : ∀ t x, Kept qp t.1 → Kept qp (f t x).1) : Kept qp (l.foldl f s).1 := by
  induction l generalizing s with
  | nil => exact h
  | cons a l ih => exact ih (hf s a h)

/-- An opened access keeps both, however it was decided. -/
def KeptD (qp : List Instr) : Opened → Prop
  | .serve s => Kept qp s
  | .drop s => Kept qp s
  | .wait => True
  | .refuse _ _ s => Kept qp s

/-- The state of a checked step, however it ended. -/
def Chk.st {α : Type} : Chk α → State
  | .ok s _ => s
  | .wait s => s
  | .fail _ s => s

theorem st_ok {α : Type} (s : State) (a : α) : (Chk.ok s a).st = s := rfl

theorem st_cwait {α : Type} (s : State) : (Chk.wait s : Chk α).st = s := rfl

theorem st_cfail {α : Type} (e : Byte) (s : State) : (Chk.fail e s : Chk α).st = s := rfl

theorem keptD_serve {qp : List Instr} (s : State) : KeptD qp (.serve s) ↔ Kept qp s := Iff.rfl

theorem keptD_drop {qp : List Instr} (s : State) : KeptD qp (.drop s) ↔ Kept qp s := Iff.rfl

theorem keptD_wait {qp : List Instr} : KeptD qp .wait ↔ True := Iff.rfl

theorem keptD_refuse {qp : List Instr} (e : Byte) (a : W32) (s : State) : KeptD qp (.refuse e a s) ↔ Kept qp s := Iff.rfl

/-- A write keeps both, at once and when its held part ends. -/
def KeptW (qp : List Instr) (w : WriteOut) : Prop := Kept qp w.after ∧ ∀ t, Kept qp t → Kept qp (w.later t)

theorem keptW_mk {qp : List Instr} {s : State} {st : Option Byte} {f : State → State} :
    KeptW qp ⟨s, st, f⟩ ↔ Kept qp s ∧ ∀ t, Kept qp t → Kept qp (f t) := Iff.rfl

theorem opened_drop {qp : List Instr} {x : Opened} {s : State} (h : KeptD qp x) (e : x = .drop s) : Kept qp s := by subst e; exact h

theorem opened_serve {qp : List Instr} {x : Opened} {s : State} (h : KeptD qp x) (e : x = .serve s) : Kept qp s := by
  subst e; exact h

theorem opened_refuse {qp : List Instr} {x : Opened} {s : State} {st : Byte} {a : W32} (h : KeptD qp x) (e : x = .refuse st a s) :
    Kept qp s := by subst e; exact h

theorem chk_ok {qp : List Instr} {α : Type} {x : Chk α} {s : State} {a : α} (h : Kept qp x.st) (e : x = .ok s a) : Kept qp s := by
  subst e; exact h

theorem chk_wait {qp : List Instr} {α : Type} {x : Chk α} {s : State} (h : Kept qp x.st) (e : x = .wait s) : Kept qp s := by
  subst e; exact h

theorem chk_fail {qp : List Instr} {α : Type} {x : Chk α} {s : State} {st : Byte} (h : Kept qp x.st) (e : x = .fail st s) :
    Kept qp s := by subst e; exact h

theorem chk_andThen {qp : List Instr} {α β : Type} {x : Chk α} {f : State → α → Chk β} (h : Kept qp x.st)
    (k : ∀ s a, Kept qp s → Kept qp (f s a).st) : Kept qp (x.andThen f).st := by
  cases x with
  | ok s a => exact k s a h
  | wait s => exact h
  | fail st s => exact h

theorem newReq_kept {qp : List Instr} {s t : State} {n : Nat} (h : Kept qp s) (e : s.newReq = (n, t)) : Kept qp t := by
  cases e; exact h

theorem newFree_kept {qp : List Instr} {s t : State} {n : Nat} (h : Kept qp s) (e : s.newFree = (n, t)) : Kept qp t := by
  cases e; exact h

theorem kept_iteD {qp : List Instr} {c : Prop} [Decidable c] {s t : Opened} (h : c → KeptD qp s)
    (k : ¬ c → KeptD qp t) : KeptD qp (if c then s else t) := by
  split
  · exact h ‹_›
  · exact k ‹_›

theorem kept_iteC {qp : List Instr} {α : Type} {c : Prop} [Decidable c] {s t : Chk α} (h : c → Kept qp s.st)
    (k : ¬ c → Kept qp t.st) : Kept qp (if c then s else t).st := by
  split
  · exact h ‹_›
  · exact k ‹_›

theorem kept_iteU {qp : List Instr} {c : Prop} [Decidable c] {s t : StepOut} (h : c → Kept qp s.after)
    (k : ¬ c → Kept qp t.after) : Kept qp (if c then s else t).after := by
  split
  · exact h ‹_›
  · exact k ‹_›

theorem kept_iteW {qp : List Instr} {c : Prop} [Decidable c] {s t : WriteOut} (h : c → KeptW qp s)
    (k : ¬ c → KeptW qp t) : KeptW qp (if c then s else t) := by
  split
  · exact h ‹_›
  · exact k ‹_›

theorem WriteOut.after_kept {qp : List Instr} {w : WriteOut} (h : KeptW qp w) : Kept qp w.after := h.1

theorem WriteOut.later_kept {qp : List Instr} {w : WriteOut} {s : State} (h : KeptW qp w) (k : Kept qp s) : Kept qp
    (w.later s) := h.2 s k


end Sys2Proof.Machine
end

