-- ==== Sys2Proof/Laws/KeptCore.lean ====
section
/-! SUPPORT. What the operations of tables, messages, the tally board, memory and access paths keep (`Kept`). -/

namespace Sys2Proof.Machine

set_option linter.unusedSimpArgs false

theorem State.setCol_kept {qp : List Instr} {s : State} (g : Nat) (c : Col) (h0 : Kept qp s) :
    Kept qp (State.setCol s g c) := h0

theorem State.modCol_kept {qp : List Instr} {s : State} (g : Nat) (f : Col → Col) (h0 : Kept qp s) :
    Kept qp (State.modCol s g f) := h0

theorem State.setStack_kept {qp : List Instr} {s : State} (n : Nat) (k : Stack) (h0 : Kept qp s) :
    Kept qp (State.setStack s n k) := h0

theorem State.modStack_kept {qp : List Instr} {s : State} (n : Nat) (f : Stack → Stack) (h0 : Kept qp s) :
    Kept qp (State.modStack s n f) := h0

theorem State.setFace_kept {qp : List Instr} {s : State} (f : Nat) (c : Face) (h0 : Kept qp s) :
    Kept qp (State.setFace s f c) := h0

theorem State.modFace_kept {qp : List Instr} {s : State} (f : Nat) (k : Face → Face) (h0 : Kept qp s) :
    Kept qp (State.modFace s f k) := h0

theorem State.setCluster_kept {qp : List Instr} {s : State} (c : Nat) (k : Cluster) (h0 : Kept qp s) :
    Kept qp (State.setCluster s c k) := h0

theorem State.setQueue_kept {qp : List Instr} {s : State} (q : Nat) (k : Queue) (h0 : Kept qp s) :
    Kept qp (State.setQueue s q k) := h0

theorem State.modQueue_kept {qp : List Instr} {s : State} (q : Nat) (f : Queue → Queue) (h0 : Kept qp s) :
    Kept qp (State.modQueue s q f) := h0

theorem State.setPort_kept {qp : List Instr} {s : State} (k : Nat) (p : Port) (h0 : Kept qp s) :
    Kept qp (State.setPort s k p) := h0

theorem State.modPort_kept {qp : List Instr} {s : State} (k : Nat) (f : Port → Port) (h0 : Kept qp s) :
    Kept qp (State.modPort s k f) := h0

theorem State.setCtx_kept {qp : List Instr} {s : State} (c : Nat) (k : Ctx) (h0 : Kept qp s) :
    Kept qp (State.setCtx s c k) := h0

theorem State.setBox_kept {qp : List Instr} {s : State} (m : Nat) (b : Mailbox) (h0 : Kept qp s) :
    Kept qp (State.setBox s m b) := h0

theorem State.setDomain_kept {qp : List Instr} {s : State} (d : Nat) (k : Domain) (h0 : Kept qp s) :
    Kept qp (State.setDomain s d k) := h0

theorem State.setChannel_kept {qp : List Instr} {s : State} (c : Nat) (k : Channel) (h0 : Kept qp s) :
    Kept qp (State.setChannel s c k) := h0

theorem State.setInput_kept {qp : List Instr} {s : State} (i : Nat) (k : InputPin) (h0 : Kept qp s) :
    Kept qp (State.setInput s i k) := h0

theorem State.setCell_kept {qp : List Instr} {s : State} (t : Nat) (k : TallyCell) (h0 : Kept qp s) :
    Kept qp (State.setCell s t k) := h0

theorem State.emit_kept {qp : List Instr} {s : State} (o : Out) (h0 : Kept qp s) :
    Kept qp (State.emit s o) := h0

theorem State.emits_kept {qp : List Instr} {s : State} (os : List Out) (h0 : Kept qp s) :
    Kept qp (State.emits s os) := h0

theorem wakeDomain_kept {qp : List Instr} {s : State} (d : Nat) (h0 : Kept qp s) :
    Kept qp (wakeDomain s d) := by
  unfold wakeDomain
  repeat' first
    | (with_reducible first | intro _ | apply kept_ite)
    | apply_assumption

theorem glitch_kept {qp : List Instr} {s : State} (i : Nat) (h0 : Kept qp s) :
    Kept qp (glitch s i) := h0

theorem logPut_kept {qp : List Instr} {s : State} (r : FaultRec) (h0 : Kept qp s) :
    Kept qp (logPut s r) := by
  unfold logPut
  repeat' first
    | (with_reducible first | assumption | apply kept_of)
    | simp only [kept_mk]
    | split

theorem logRec_kept {qp : List Instr} {s : State} (r : FaultRec) (h0 : Kept qp s) :
    Kept qp (logRec s r) := by
  unfold logRec
  repeat' with_reducible first | assumption | intro _ | apply kept_ite | apply logPut_kept

theorem logRefused_kept {qp : List Instr} {s : State} (o : Origin) (ctx : BitVec 6) (status : Byte) (info : Nat)
    (tag : optParam W16 0) (h0 : Kept qp s) :
    Kept qp (logRefused s o ctx status info tag) := by
  unfold logRefused
  repeat' with_reducible first | assumption | apply logRec_kept

theorem withTag_kept {qp : List Instr} (tag : W16) {before : State} {after : State} (h2 : Kept qp after) :
    Kept qp (withTag tag before after) := by
  unfold withTag
  repeat' first
    | (with_reducible first | assumption | intro _ | apply kept_ite | apply kept_of)
    | simp only [kept_mk]

theorem raiseEmcy_kept {qp : List Instr} {s : State} (code : W16) (unit : Byte) (detail : Nat) (h0 : Kept qp s) :
    Kept qp (raiseEmcy s code unit detail) := by
  unfold raiseEmcy
  repeat' first
    | (with_reducible first | assumption | intro _ | apply kept_ite | apply kept_of)
    | simp only [kept_mk]
    | with_reducible apply logRec_kept

theorem condStart_kept {qp : List Instr} {s : State} (code : W16) (key : Nat) (unit : Byte) (detail : Nat) (h0 : Kept qp s) :
    Kept qp (condStart s code key unit detail) := by
  unfold condStart
  repeat' first
    | (with_reducible first | assumption | intro _ | apply kept_ite | apply kept_of)
    | simp only [kept_mk]
    | with_reducible apply raiseEmcy_kept

theorem condEnd_kept {qp : List Instr} {s : State} (code : W16) (key : Nat) (h0 : Kept qp s) :
    Kept qp (condEnd s code key) := by
  unfold condEnd
  repeat' first
    | (with_reducible first | assumption | intro _ | apply kept_ite | apply kept_of)
    | simp only [kept_mk]
    | with_reducible apply raiseEmcy_kept

theorem State.wrByte_kept {qp : List Instr} {s : State} (k : Nat) (b : Byte) (h0 : Kept qp s) :
    Kept qp (State.wrByte s k b) := by
  exact ⟨h0.1, memWf_wrByte h0.2 _ _⟩

theorem State.wrBytes_kept {qp : List Instr} {s : State} (k : Nat) (x2 : List Byte) (h0 : Kept qp s) :
    Kept qp (State.wrBytes s k x2) := by
  revert h0
  fun_induction State.wrBytes s k x2
  all_goals intro h0
  repeat' first
    | with_reducible apply State.wrByte_kept
    | apply_assumption

theorem poolBack_kept {qp : List Instr} {s : State} (k : PortId) (h : BitVec 256) (n : Nat) (h0 : Kept qp s) :
    Kept qp (poolBack s k h n) := h0

theorem poolKeep_kept {qp : List Instr} {s : State} (k : PortId) (cls : Nat) (n : Nat) (h0 : Kept qp s) :
    Kept qp (poolKeep s k cls n) := h0

theorem poolLeave_kept {qp : List Instr} {s : State} (k : PortId) (cls : Nat) (n : Nat) (h0 : Kept qp s) :
    Kept qp (poolLeave s k cls n) := h0

theorem portIdle_kept {qp : List Instr} (k : PortId) (x1 : Nat) {x2 : State} (h2 : Kept qp x2) :
    Kept qp (portIdle k x1 x2) := by
  revert h2
  fun_induction portIdle k x1 x2
  all_goals intro h2
  repeat' apply_assumption

theorem cutFlits_kept {qp : List Instr} (k : PortId) (x1 : Nat) {x2 : State} (h2 : Kept qp x2) :
    Kept qp (cutFlits k x1 x2) := by
  revert h2
  fun_induction cutFlits k x1 x2
  all_goals intro h2
  repeat' apply_assumption

theorem startPacket_kept {qp : List Instr} {s : State} (k : PortId) (x : TxPkt) (h0 : Kept qp s) :
    Kept qp (startPacket s k x) := by
  unfold startPacket
  repeat' first
    | (with_reducible first | assumption | apply cutFlits_kept | apply State.emit_kept | apply State.setPort_kept
                            | apply portIdle_kept | apply poolLeave_kept)
    | split

theorem portDrain_kept {qp : List Instr} (k : PortId) (x1 : Nat) {x2 : State} (h2 : Kept qp x2) :
    Kept qp (portDrain k x1 x2) := by
  revert h2
  fun_induction portDrain k x1 x2
  all_goals intro h2
  repeat' first
    | with_reducible apply startPacket_kept
    | apply_assumption

theorem portFlush_kept {qp : List Instr} {s : State} (k : PortId) (h0 : Kept qp s) :
    Kept qp (portFlush s k) := by
  unfold portFlush
  repeat' with_reducible first | assumption | apply portIdle_kept | apply portDrain_kept

theorem portSend_kept {qp : List Instr} {s : State} (k : PortId) (hdr : BitVec 256) (data : List Byte) (pool : optParam
    (Option PortId) none) (h0 : Kept qp s) :
    Kept qp (portSend s k hdr data pool) := by
  unfold portSend
  repeat' with_reducible first | assumption | intro _ | apply kept_ite | apply portFlush_kept | apply State.setPort_kept

theorem portMsg_kept {qp : List Instr} {s : State} (k : PortId) (mcode : Nat) (data : List Byte) (h0 : Kept qp s) :
    Kept qp (portMsg s k mcode data) := by
  unfold portMsg
  repeat' with_reducible first | assumption | apply portSend_kept

theorem msgAll_kept {qp : List Instr} {s : State} (mcode : Nat) (data : List Byte) (h0 : Kept qp s) :
    Kept qp (msgAll s mcode data) := by
  unfold msgAll
  repeat' with_reducible first | assumption | intro _ | apply kept_foldl | apply kept_ite | apply portMsg_kept

theorem portRsp_kept {qp : List Instr} {s : State} (k : PortId) (src : BitVec 4) (tag : BitVec 10) (ctx : Nat) (status : Byte)
    (data : List Byte) (org : optParam Nat ↑k) (h0 : Kept qp s) :
    Kept qp (portRsp s k src tag ctx status data org) := by
  unfold portRsp
  repeat' with_reducible first | assumption | apply portSend_kept

theorem portNotice_kept {qp : List Instr} {s : State} (k : PortId) (src : BitVec 4) (ctx : Nat) (word : W64) (h0 : Kept qp s) :
    Kept qp (portNotice s k src ctx word) := by
  unfold portNotice
  repeat' with_reducible first | assumption | apply portSend_kept

theorem fenceCount_kept {qp : List Instr} {s : State} (k : PortId) (src : BitVec 4) (h0 : Kept qp s) :
    Kept qp (fenceCount s k src) := h0

theorem hostSend_kept {qp : List Instr} {s : State} (addr : W64) (data : List Byte) (h0 : Kept qp s) :
    Kept qp (hostSend s addr data) := by
  unfold hostSend
  repeat' first
    | (with_reducible first | assumption | intro _ | apply kept_ite | apply kept_of)
    | simp only [kept_mk]
    | with_reducible apply State.emit_kept

theorem hostMsix_kept {qp : List Instr} {s : State} (v : Nat) (h0 : Kept qp s) :
    Kept qp (hostMsix s v) := by
  unfold hostMsix
  repeat' first
    | (with_reducible first | assumption | intro _ | apply kept_ite | apply kept_of)
    | simp only [kept_mk]
    | with_reducible apply State.emit_kept

theorem hostRefused_kept {qp : List Instr} {s : State} (status : Byte) (info : Nat) (h0 : Kept qp s) :
    Kept qp (hostRefused s status info) := by
  unfold hostRefused
  repeat' first
    | (with_reducible first | assumption | apply kept_of)
    | simp only [kept_mk]
    | with_reducible apply logRefused_kept

theorem answer_kept {qp : List Instr} {s : State} (o : Origin) (c : Nat) (rd : Bool) (status : Byte) (data : List Byte)
    (info : Nat) (h0 : Kept qp s) :
    Kept qp (answer s o c rd status data info) := by
  unfold answer
  repeat' first
    | (with_reducible first | assumption | apply portRsp_kept | apply hostRefused_kept | apply State.emit_kept)
    | split

theorem answerWrite_kept {qp : List Instr} {s : State} (o : Origin) (c : Nat) (status : Byte) (info : Nat) (h0 : Kept qp s) :
    Kept qp (answerWrite s o c status info) := by
  unfold answerWrite
  repeat' first
    | (with_reducible first | assumption | apply answer_kept | apply fenceCount_kept)
    | split

theorem logTally_kept {qp : List Instr} {s : State} (code : W16) (c : Nat) (st : Byte) (unit : W16) (info : Nat) (h0 : Kept qp s) :
    Kept qp (logTally s code c st unit info) := by
  unfold logTally
  repeat' with_reducible first | assumption | apply logRec_kept

theorem tallyRangeFault_kept {qp : List Instr} {s : State} (code : W16) (c : Nat) (r : TallyRef) (h0 : Kept qp s) :
    Kept qp (tallyRangeFault s code c r) := by
  unfold tallyRangeFault
  repeat' first
    | (with_reducible first | assumption | apply kept_of)
    | simp only [kept_mk]
    | with_reducible apply logTally_kept

theorem tallyFault_kept {qp : List Instr} {s : State} (code : W16) (c : Nat) (t : Nat) (st : Byte) (amount : W32) (h0 : Kept qp s) :
    Kept qp (tallyFault s code c t st amount) := by
  unfold tallyFault
  repeat' first
    | (with_reducible first | assumption | intro _ | apply kept_ite | apply kept_of)
    | simp only [kept_mk]
    | with_reducible apply logTally_kept

theorem faceWake_kept {qp : List Instr} {s : State} (f : Nat) (h0 : Kept qp s) :
    Kept qp (faceWake s f) := by
  unfold faceWake
  repeat' first
    | (with_reducible first | assumption | intro _ | apply kept_ite | apply kept_of)
    | simp only [kept_mk]
    | with_reducible apply State.setFace_kept

theorem faceResume_kept {qp : List Instr} {s : State} (l : Nat) (h0 : Kept qp s) :
    Kept qp (faceResume s l) := by
  unfold faceResume
  repeat' first
    | (with_reducible first | assumption | apply faceWake_kept | apply State.modFace_kept)
    | split

theorem faceWaitFail_kept {qp : List Instr} {s : State} (l : Nat) (st : Byte) (h0 : Kept qp s) :
    Kept qp (faceWaitFail s l st) := by
  unfold faceWaitFail
  repeat' first
    | (with_reducible first | assumption | apply State.modFace_kept)
    | split

theorem stepWait_kept {qp : List Instr} {s : State} (q : Nat) (w : HeadWait) (h0 : Kept qp s) :
    Kept qp (stepWait s q w) := by
  unfold stepWait
  repeat' first
    | (with_reducible first | assumption | apply State.modQueue_kept)
    | split

theorem deliver_kept {qp : List Instr} {s : State} (w : Watch) (value : W32) (st : Byte) (h0 : Kept qp s) :
    Kept qp (deliver s w value st) := by
  unfold deliver
  repeat' first
    | (with_reducible first | assumption | apply faceResume_kept | apply stepWait_kept | apply hostSend_kept
                            | apply hostMsix_kept | apply portNotice_kept)
    | split

theorem freeWatch_kept {qp : List Instr} {s : State} (i : Nat) (h0 : Kept qp s) :
    Kept qp (freeWatch s i) := h0

theorem fireWatch_kept {qp : List Instr} {s : State} (t : Nat) (i : Nat) (h0 : Kept qp s) :
    Kept qp (fireWatch s t i) := by
  unfold fireWatch
  repeat' with_reducible first | assumption | apply State.setCell_kept | apply deliver_kept | apply freeWatch_kept

theorem walkWatches_kept {qp : List Instr} {s : State} (t : Nat) (x2 : List Nat) (h0 : Kept qp s) :
    Kept qp (walkWatches s t x2) := by
  revert h0
  fun_induction walkWatches s t x2
  all_goals intro h0
  repeat' first
    | with_reducible apply fireWatch_kept
    | apply_assumption

theorem tallyPut_kept {qp : List Instr} {s : State} (t : Nat) (v : W32) (h0 : Kept qp s) :
    Kept qp (tallyPut s t v) := by
  unfold tallyPut
  repeat' with_reducible first | assumption | apply walkWatches_kept | apply State.setCell_kept

theorem tallyEffect_kept {qp : List Instr} {s : State} (code : W16) (c : Nat) (t : Nat) (top : BitVec 4) (n : W32)
    (h0 : Kept qp s) :
    Kept qp (tallyEffect s code c t top n).1 := by
  unfold tallyEffect
  repeat' first
    | (with_reducible first | assumption | apply kept_of)
    | simp only [kept_mk]
    | with_reducible apply tallyPut_kept
    | split

theorem tallySigned_kept {qp : List Instr} {s : State} (code : W16) (c : Nat) (t : Nat) (top : BitVec 4) (n : W32) (st : Byte)
    (h0 : Kept qp s) :
    Kept qp (tallySigned s code c t top n st) := by
  unfold tallySigned
  repeat' first
    | (with_reducible first | assumption | intro _ | apply kept_ite | apply kept_of)
    | simp only [kept_mk]
    | with_reducible apply State.setCell_kept

theorem tallyOp_kept {qp : List Instr} {s : State} (code : W16) (c : Nat) (r : TallyRef) (top : BitVec 4) (n : W32)
    (h0 : Kept qp s) :
    Kept qp (tallyOp s code c r top n).1 := by
  unfold tallyOp
  repeat' first
    | (with_reducible first | assumption | apply tallyRangeFault_kept | apply tallyEffect_kept | apply tallyFault_kept
                            | apply tallySigned_kept)
    | split

theorem armWatch_kept {qp : List Instr} {s : State} (i : Nat) (w : Watch) (h0 : Kept qp s) :
    Kept qp (armWatch s i w) := h0

theorem watchNow_kept {qp : List Instr} {s : State} (t : Nat) (thr : W32) (cons : Bool) (h0 : Kept qp s) :
    Kept qp (watchNow s t thr cons) := by
  unfold watchNow
  repeat' with_reducible first | assumption | intro _ | apply kept_ite | apply State.setCell_kept

theorem innerWatch_kept {qp : List Instr} {s : State} (target : WatchTarget) (c : Nat) (v : W16) (thr : W32) (cons : Bool)
    (h0 : Kept qp s) :
    Kept qp (innerWatch s target c v thr cons).1 := by
  unfold innerWatch
  repeat' first
    | (with_reducible first | assumption | apply kept_of)
    | simp only [kept_mk]
    | (with_reducible first | apply tallyRangeFault_kept | apply watchNow_kept | apply armWatch_kept)
    | split

theorem remoteWatch_kept {qp : List Instr} {s : State} (target : WatchTarget) (c : Nat) (r : TallyRef) (thr : W32) (cons : Bool)
    (cookie : W16) (h0 : Kept qp s) :
    Kept qp (remoteWatch s target c r thr cons cookie).1 := by
  unfold remoteWatch
  repeat' first
    | (with_reducible first | assumption | apply kept_of)
    | simp only [kept_mk]
    | (with_reducible first | apply tallyRangeFault_kept | apply deliver_kept | apply armWatch_kept | apply fireWatch_kept)
    | split

theorem withdraw_kept {qp : List Instr} {s : State} (p : Watch → Bool) (pw : WatchReq → Bool) (h0 : Kept qp s) :
    Kept qp (withdraw s p pw) := by
  unfold withdraw
  repeat' first
    | (with_reducible first | assumption | intro _ | apply kept_foldl | apply kept_of)
    | simp only [kept_mk]
    | (with_reducible first | apply freeWatch_kept | apply State.setCell_kept)

theorem withdrawTarget_kept {qp : List Instr} {s : State} (x : WatchTarget) (h0 : Kept qp s) :
    Kept qp (withdrawTarget s x) := by
  unfold withdrawTarget
  repeat' with_reducible first | assumption | apply withdraw_kept

theorem unwatch_kept {qp : List Instr} {s : State} (target : WatchTarget) (c : Nat) (r : TallyRef) (cookie : W16) (h0 : Kept qp s) :
    Kept qp (unwatch s target c r cookie).1 := by
  unfold unwatch
  repeat' first
    | (with_reducible first | assumption | apply kept_of)
    | simp only [kept_mk]
    | (with_reducible first | apply tallyRangeFault_kept | apply withdraw_kept)
    | split

theorem barinitEffect_kept {qp : List Instr} {s : State} (t : Nat) (mask : W64) (h0 : Kept qp s) :
    Kept qp (barinitEffect s t mask).1 := by
  unfold barinitEffect
  repeat' first
    | (with_reducible first | assumption | apply kept_of)
    | simp only [kept_mk]
    | with_reducible apply State.setCell_kept
    | split

theorem barfreeEffect_kept {qp : List Instr} {s : State} (t : Nat) (h0 : Kept qp s) :
    Kept qp (barfreeEffect s t).1 := by
  unfold barfreeEffect
  repeat' first
    | (with_reducible first | assumption | apply kept_of)
    | simp only [kept_mk]
    | with_reducible apply State.setCell_kept
    | split

theorem barOp_kept {qp : List Instr} {s : State} (code : W16) (c : Nat) (r : TallyRef) (top : BitVec 4) (mask : W64)
    (h0 : Kept qp s) :
    Kept qp (barOp s code c r top mask).1 := by
  unfold barOp
  repeat' first
    | (with_reducible first | assumption | apply tallyRangeFault_kept | apply barinitEffect_kept | apply barfreeEffect_kept
                            | apply tallySigned_kept)
    | split

theorem tallyCommand_kept {qp : List Instr} {s : State} (o : Origin) (c : CtxId) (r : TallyRef) (f : State → State × Byte)
    (h0 : Kept qp s) (h4 : ∀ y0, Kept qp y0 → Kept qp (f y0).1) :
    Kept qp (tallyCommand s o c r f) := by
  unfold tallyCommand
  repeat' first
    | (with_reducible first | intro _ | apply kept_ite2 | apply answer_kept)
    | apply_assumption

theorem armOldest_kept {qp : List Instr} {s : State} (h0 : Kept qp s) :
    Kept qp (armOldest s) := by
  unfold armOldest
  repeat' first
    | (with_reducible first | assumption | apply kept_of)
    | simp only [kept_mk]
    | (with_reducible first | apply faceWaitFail_kept | apply stepWait_kept | apply armWatch_kept | apply fireWatch_kept)
    | split

theorem faceGate_kept {qp : List Instr} {s : State} (f : Nat) (h0 : Kept qp s) :
    Kept qp (faceGate s f) := by
  unfold faceGate
  repeat' first
    | (with_reducible first | assumption | apply kept_of)
    | simp only [kept_mk]
    | with_reducible apply State.setFace_kept
    | split

theorem xlateRefused_kept {qp : List Instr} {s : State} (o : Origin) (c : Nat) (va : Nat) (st : Byte) (tag : optParam W16 0)
    (h0 : Kept qp s) :
    Kept qp (xlateRefused s o c va st tag) := by
  unfold xlateRefused
  repeat' with_reducible first | assumption | apply logRefused_kept | apply State.setCtx_kept

theorem holeRefused_kept {qp : List Instr} {s : State} (o : Origin) (c : Nat) (va : Nat) (tag : optParam W16 0) (h0 : Kept qp s) :
    Kept qp (holeRefused s o c va tag) := by
  unfold holeRefused
  repeat' with_reducible first | assumption | apply logRefused_kept

theorem placeRefused_kept {qp : List Instr} {s : State} (o : Origin) (c : Nat) (va : Nat) (st : Byte) (tag : optParam W16 0)
    (h0 : Kept qp s) :
    Kept qp (placeRefused s o c va st tag) := by
  unfold placeRefused
  repeat' with_reducible first | assumption | intro _ | apply kept_ite | apply xlateRefused_kept | apply holeRefused_kept

theorem logRemap_kept {qp : List Instr} {s : State} (l : W64) (status : Byte) (spare : Nat) (h0 : Kept qp s) :
    Kept qp (logRemap s l status spare) := by
  unfold logRemap
  repeat' with_reducible first | assumption | apply logRec_kept

theorem remapStart_kept {qp : List Instr} {s : State} (l : W64) (path : Option DictPath) (h0 : Kept qp s) :
    Kept qp (remapStart s l path) := h0

theorem remapAuto_kept {qp : List Instr} {s : State} (l : W64) (h0 : Kept qp s) :
    Kept qp (remapAuto s l) := by
  unfold remapAuto
  repeat' with_reducible first | assumption | intro _ | apply kept_ite | apply logRemap_kept | apply State.modStack_kept
                               | apply remapStart_kept

theorem ceFound_kept {qp : List Instr} {s : State} (g : Nat) (die : Nat) (row : Nat) (cw : Nat) (h0 : Kept qp s) :
    Kept qp (ceFound s g die row cw) := by
  unfold ceFound
  repeat' with_reducible first | assumption | intro _ | apply kept_ite | apply State.setStack_kept | apply remapAuto_kept

theorem ueFound_kept {qp : List Instr} {s : State} (g : Nat) (die : Nat) (row : Nat) (cw : Nat) (code : W16) (ctx : BitVec 6)
    (h0 : Kept qp s) :
    Kept qp (ueFound s g die row cw code ctx) := by
  unfold ueFound
  repeat' with_reducible first | assumption | apply State.modStack_kept | apply logRec_kept | apply raiseEmcy_kept

theorem actCount_kept {qp : List Instr} {s : State} (g : Nat) (die : Nat) (row : Nat) (i : Nat) (cnt : Nat) (floor : Nat)
    (h0 : Kept qp s) :
    Kept qp (actCount s g die row i cnt floor) := h0

theorem actRow_kept {qp : List Instr} {s : State} (g : Nat) (die : Nat) (row : Nat) (h0 : Kept qp s) :
    Kept qp (actRow s g die row) := by
  unfold actRow
  try dsimp only
  repeat' first
    | (with_reducible first | assumption | apply actCount_kept)
    | split

theorem rowStepAct_kept {qp : List Instr} (at_ : Nat) {s : State} (g : Nat) (die : Nat) (row : Nat) (h1 : Kept qp s) :
    Kept qp (rowStepAct at_ s g die row) := by
  unfold rowStepAct
  repeat' with_reducible first | assumption | intro _ | apply kept_ite | apply State.setCol_kept | apply actRow_kept

theorem readCw_kept {qp : List Instr} {s : State} (g : Nat) (die : Nat) (row : Nat) (cw : Nat) (code : W16) (ctx : BitVec 6)
    (h0 : Kept qp s) :
    Kept qp (readCw s g die row cw code ctx).1 := by
  unfold readCw
  try dsimp only
  repeat' first
    | (with_reducible first | assumption | apply ceFound_kept | apply ueFound_kept)
    | split

theorem writeCw_kept {qp : List Instr} {s : State} (g : Nat) (die : Nat) (row : Nat) (cw : Nat) (bs : List Byte) (poison : Bool)
    (h0 : Kept qp s) :
    Kept qp (writeCw s g die row cw bs poison) := by
  unfold writeCw
  repeat' first
    | (with_reducible first | assumption | apply kept_of)
    | simp only [kept_mk]
    | with_reducible apply State.wrBytes_kept

theorem readRowCws_kept {qp : List Instr} {s : State} (g : Nat) (die : Nat) (row : Nat) (code : W16) (ctx : BitVec 6)
    (x6 : List Nat) (h0 : Kept qp s) :
    Kept qp (readRowCws s g die row code ctx x6).1 := by
  revert h0
  fun_induction readRowCws s g die row code ctx x6
  all_goals intro h0
  repeat' first
    | (with_reducible first | apply readCw_kept | refine kept_fst ?_ (by assumption))
    | apply_assumption

theorem dramRead_kept {qp : List Instr} {s : State} (g : Nat) (die : Nat) (row : Nat) (off : Nat) (n : Nat) (code : W16)
    (ctx : BitVec 6) (h0 : Kept qp s) :
    Kept qp (dramRead s g die row off n code ctx).1 := by
  unfold dramRead
  repeat' with_reducible first | assumption | apply readRowCws_kept

theorem writeRowCw_kept {qp : List Instr} {s : State} (g : Nat) (die : Nat) (row : Nat) (off : Nat) (bs : List PByte)
    (code : W16) (ctx : BitVec 6) (cw : Nat) (h0 : Kept qp s) :
    Kept qp (writeRowCw s g die row off bs code ctx cw).1 := by
  unfold writeRowCw
  repeat' with_reducible first | assumption | intro _ | apply kept_ite2 | apply writeCw_kept | apply readCw_kept
                               | apply State.modStack_kept

theorem dramWrite_kept {qp : List Instr} {s : State} (g : Nat) (die : Nat) (row : Nat) (off : Nat) (bs : List PByte)
    (code : W16) (ctx : BitVec 6) (h0 : Kept qp s) :
    Kept qp (dramWrite s g die row off bs code ctx).1 := by
  unfold dramWrite
  repeat' with_reducible first | assumption | intro _ | apply kept_foldl2 | apply writeRowCw_kept

theorem readSramWord_kept {qp : List Instr} {s : State} (f : Nat) (o : Nat) (code : W16) (ctx : BitVec 6) (h0 : Kept qp s) :
    Kept qp (readSramWord s f o code ctx).1 := by
  unfold readSramWord
  try dsimp only
  repeat' first
    | with_reducible apply logRec_kept
    | split
    | apply_assumption

theorem writeSramWord_kept {qp : List Instr} {s : State} (f : Nat) (o : Nat) (bs : List Byte) (poison : Bool) (h0 : Kept qp s) :
    Kept qp (writeSramWord s f o bs poison) := by
  unfold writeSramWord
  repeat' first
    | (with_reducible first | assumption | apply kept_of)
    | simp only [kept_mk]
    | with_reducible apply State.wrBytes_kept

theorem readSramWords_kept {qp : List Instr} {s : State} (f : Nat) (code : W16) (ctx : BitVec 6) (x4 : List Nat) (h0 : Kept qp s) :
    Kept qp (readSramWords s f code ctx x4).1 := by
  revert h0
  fun_induction readSramWords s f code ctx x4
  all_goals intro h0
  repeat' first
    | (with_reducible first | apply readSramWord_kept | refine kept_fst ?_ (by assumption))
    | apply_assumption

theorem sramRead_kept {qp : List Instr} {s : State} (f : Nat) (off : Nat) (n : Nat) (code : W16) (ctx : BitVec 6) (h0 : Kept qp s) :
    Kept qp (sramRead s f off n code ctx).1 := by
  unfold sramRead
  repeat' with_reducible first | assumption | apply readSramWords_kept

theorem writeSramPart_kept {qp : List Instr} {s : State} (f : Nat) (off : Nat) (bs : List PByte) (code : W16) (ctx : BitVec 6)
    (o : Nat) (h0 : Kept qp s) :
    Kept qp (writeSramPart s f off bs code ctx o).1 := by
  unfold writeSramPart
  try dsimp only
  repeat' first
    | (with_reducible first | assumption | apply writeSramWord_kept | apply readSramWord_kept)
    | split

theorem sramWrite_kept {qp : List Instr} {s : State} (f : Nat) (off : Nat) (bs : List PByte) (code : W16) (ctx : BitVec 6)
    (h0 : Kept qp s) :
    Kept qp (sramWrite s f off bs code ctx).1 := by
  unfold sramWrite
  repeat' with_reducible first | assumption | intro _ | apply kept_foldl2 | apply writeSramPart_kept

theorem paRead_kept {qp : List Instr} {s : State} (pa : Nat) (n : Nat) (code : W16) (ctx : BitVec 6) (h0 : Kept qp s) :
    Kept qp (paRead s pa n code ctx).1 := by
  unfold paRead
  repeat' first
    | (with_reducible first | assumption | apply sramRead_kept | apply wakeDomain_kept)
    | split

theorem paWrite_kept {qp : List Instr} {s : State} (pa : Nat) (bs : List PByte) (code : W16) (ctx : BitVec 6) (h0 : Kept qp s) :
    Kept qp (paWrite s pa bs code ctx).1 := by
  unfold paWrite
  repeat' first
    | (with_reducible first | assumption | apply sramWrite_kept | apply wakeDomain_kept | apply State.wrBytes_kept)
    | split

theorem claimWaited_kept {qp : List Instr} {s : State} (g : Nat) (waited : Nat) (h0 : Kept qp s) :
    Kept qp (claimWaited s g waited) := h0

theorem xferDone_kept {qp : List Instr} {s : State} (x : Xfer) (h0 : Kept qp s) :
    Kept qp (xferDone s x) := by
  unfold xferDone
  repeat' first
    | (with_reducible first | assumption | apply fenceCount_kept | apply portRsp_kept | apply answer_kept | apply State.emit_kept)
    | split

theorem granDone_kept {qp : List Instr} {s : State} (id : Nat) (base : Nat) (st : Byte) (bs : List PByte) (h0 : Kept qp s) :
    Kept qp (granDone s id base st bs) := by
  unfold granDone
  repeat' first
    | (with_reducible first | assumption | apply kept_of)
    | simp only [kept_mk]
    | with_reducible apply xferDone_kept
    | split

theorem serveGran_kept {qp : List Instr} {s : State} (r : GranReq) (h0 : Kept qp s) :
    Kept qp (serveGran s r) := by
  unfold serveGran
  repeat' first
    | (with_reducible first | assumption | apply granDone_kept | apply actRow_kept | apply dramWrite_kept | apply withTag_kept
                            | apply dramRead_kept)
    | split

theorem ctrlGran_kept {qp : List Instr} {s : State} (r : GranReq) (h0 : Kept qp s) :
    Kept qp (ctrlGran s r) := by
  unfold ctrlGran
  repeat' first
    | (with_reducible first | assumption | intro _ | apply kept_ite | apply kept_of)
    | simp only [kept_mk]
    | (with_reducible first | apply serveGran_kept | apply State.modStack_kept)

theorem arriveGran_kept {qp : List Instr} {s : State} (r : GranReq) (h0 : Kept qp s) :
    Kept qp (arriveGran s r) := by
  unfold arriveGran
  repeat' first
    | (with_reducible first | assumption | intro _ | apply kept_ite | apply kept_of)
    | simp only [kept_mk]
    | with_reducible apply ctrlGran_kept

theorem crossbarIn_kept {qp : List Instr} {s : State} (n : Nat) (h0 : Kept qp s) :
    Kept qp (crossbarIn s n) := by
  unfold crossbarIn
  repeat' first
    | (with_reducible first | assumption | intro _ | apply kept_foldl | apply kept_ite | apply kept_of)
    | simp only [kept_mk]
    | with_reducible apply ctrlGran_kept

theorem sendGrans_kept {qp : List Instr} {s : State} (x : Xfer) (gs : List Gran) (data : List PByte) (h0 : Kept qp s) :
    Kept qp (sendGrans s x gs data) := by
  unfold sendGrans
  repeat' first
    | (with_reducible first | intro _ | apply kept_foldl | apply arriveGran_kept)
    | apply_assumption

theorem startXfer_kept {qp : List Instr} {s : State} (owner : XferOwner) (code : W16) (ctx : BitVec 6) (wr : Bool) (va : W64)
    (pa : Nat) (n : Nat) (data : List Byte) (h0 : Kept qp s) :
    Kept qp (startXfer s owner code ctx wr va pa n data) := by
  unfold startXfer
  repeat' first
    | with_reducible apply sendGrans_kept
    | apply_assumption

theorem delayOp_kept {qp : List Instr} {s : State} (g : Nat) (n : Nat) (h0 : Kept qp s) :
    Kept qp (delayOp s g n) := h0

theorem serveWait_kept {qp : List Instr} {s : State} (r : GranReq) (h0 : Kept qp s) :
    Kept qp (serveWait s r) := by
  unfold serveWait
  repeat' first
    | (with_reducible first | assumption | apply kept_of)
    | simp only [kept_mk]
    | (with_reducible first | apply serveGran_kept | apply delayOp_kept)

theorem claimWaitEnd_kept {qp : List Instr} {s : State} (g : Nat) (h0 : Kept qp s) :
    Kept qp (claimWaitEnd s g) := by
  unfold claimWaitEnd
  repeat' with_reducible first | assumption | intro _ | apply kept_foldl | apply kept_ite | apply serveWait_kept
                               | apply claimWaited_kept

theorem serveOthers_kept {qp : List Instr} (g : Nat) (x1 : Nat) (x2 : Tab (Nat × Nat)) {x3 : State} (h3 : Kept qp x3) :
    Kept qp (serveOthers g x1 x2 x3) := by
  revert h3
  fun_induction serveOthers g x1 x2 x3
  all_goals intro h3
  repeat' first
    | with_reducible apply serveWait_kept
    | apply_assumption

theorem serveColumn_kept {qp : List Instr} {s : State} (g : Nat) (limit : Nat) (h0 : Kept qp s) :
    Kept qp (serveColumn s g limit) := by
  unfold serveColumn
  repeat' with_reducible first | assumption | intro _ | apply kept_ite | apply crossbarIn_kept | apply claimWaitEnd_kept
                               | apply serveOthers_kept

theorem serveFree_kept {qp : List Instr} {s : State} (g : Nat) (h0 : Kept qp s) :
    Kept qp (serveFree s g) := by
  unfold serveFree
  repeat' with_reducible first | assumption | intro _ | apply kept_ite | apply serveColumn_kept

theorem requestTimeout_kept {qp : List Instr} {s : State} (r : GranReq) (h0 : Kept qp s) :
    Kept qp (requestTimeout s r) := by
  unfold requestTimeout
  repeat' first
    | (with_reducible first | assumption | intro _ | apply kept_foldl | apply kept_of)
    | simp only [kept_mk]
    | with_reducible apply granDone_kept

theorem Chk.andThen_kept {qp : List Instr} {α : Type} {β : Type} {x : Chk α} (f : State → α → Chk β) (h2 : Kept qp x.st)
    (h3 : ∀ y0 y1, Kept qp y0 → Kept qp (f y0 y1).st) :
    Kept qp (Chk.andThen x f).st := by
  unfold Chk.andThen
  repeat' first
    | split
    | apply_assumption

theorem Chk.guard_kept {qp : List Instr} {s : State} (b : Bool) (st : Byte) (h0 : Kept qp s) :
    Kept qp (Chk.guard s b st).st := by
  unfold Chk.guard
  repeat' first
    | (with_reducible first | assumption | intro _ | apply kept_iteC)
    | simp only [st_ok, st_cwait, st_cfail, keptD_serve, keptD_drop, keptD_wait, keptD_refuse, keptW_mk, id_eq]

theorem innerDrop_kept {qp : List Instr} {s : State} (p : Waiter → Bool) (h0 : Kept qp s) :
    Kept qp (innerDrop s p) := h0

theorem localPieces_kept {qp : List Instr} {s : State} (r : Req) (base : Nat) (data : List PByte) (acc : List PByte) (st : Byte)
    (x6 : List Acc) (h0 : Kept qp s) :
    Kept qp (localPieces s r base data acc st x6).1 := by
  have h : ∀ (as : List Acc) (s : State) (base : Nat) (acc : List PByte) (st : Byte), Kept qp s →
      Kept qp (localPieces s r base data acc st as).1 := by
    intro as
    induction as with
    | nil => exact fun _ _ _ _ h => h
    | cons a as ih =>
      intro s base acc st h
      rw [localPieces]
      split
      · exact ih _ _ _ _ h
      · split
        · exact ih _ _ _ _ (paWrite_kept _ _ _ _ h)
        · exact ih _ _ _ _ (paRead_kept _ _ _ _ h)
  exact h _ _ _ _ _ h0

theorem innerBegin_kept {qp : List Instr} {s : State} (r : Req) (i : Nat) (va : Nat) (wr : Bool) (as : List Acc)
    (data : List PByte) (h0 : Kept qp s) :
    Kept qp (innerBegin s r i va wr as data) := by
  unfold innerBegin
  repeat' first
    | (with_reducible first | apply localPieces_kept | apply sendGrans_kept | apply withTag_kept)
    | apply_assumption

theorem innerResult_kept {qp : List Instr} {s : State} (who : Waiter) (i : Nat) (h0 : Kept qp s) :
    Kept qp (innerResult s who i).st := by
  unfold innerResult
  repeat' first
    | with_reducible assumption
    | simp only [st_ok, st_cwait, st_cfail, keptD_serve, keptD_drop, keptD_wait, keptD_refuse, keptW_mk, id_eq]
    | split

theorem innerAccess_kept {qp : List Instr} {s : State} (r : Req) (i : Nat) (va : Nat) (wr : Bool) (as : List Acc)
    (data : List PByte) (h0 : Kept qp s) :
    Kept qp (innerAccess s r i va wr as data).st := by
  unfold innerAccess
  repeat' first
    | (with_reducible first | assumption | apply innerResult_kept | apply innerBegin_kept)
    | split

theorem mailPut_kept {qp : List Instr} {s : State} (m : Nat) (via : Nat) (h0 : Kept qp s) :
    Kept qp (mailPut s m via) := h0

theorem mailHold_kept {qp : List Instr} {s : State} (p : DictPath) (idx : W16) (sb : Byte) (off : Option W64) (w : List Byte)
    (h0 : Kept qp s) :
    Kept qp (mailHold s p idx sb off w) := by
  unfold mailHold
  repeat' first
    | (with_reducible first | assumption | apply mailPut_kept | apply State.setBox_kept)
    | split

theorem usdoNew_kept {qp : List Instr} {s : State} (h0 : Kept qp s) :
    Kept qp (usdoNew s) := by
  unfold usdoNew
  repeat' first
    | (with_reducible first | assumption | intro _ | apply kept_ite | apply kept_of)
    | simp only [kept_mk]

theorem dictReply_kept {qp : List Instr} {s : State} (p : DictPath) (st : Byte) (abort : W32) (data : List Byte) (h0 : Kept qp s) :
    Kept qp (dictReply s p st abort data) := by
  unfold dictReply
  repeat' first
    | (with_reducible first | assumption | apply kept_of)
    | simp only [kept_mk]
    | (with_reducible first | apply State.emit_kept | apply State.setBox_kept)
    | split

theorem dictRelease_kept {qp : List Instr} {s : State} (p : DictPath) (idx : W16) (sb : Byte) (st : Byte) (h0 : Kept qp s) :
    Kept qp (dictRelease s p idx sb st) := by
  unfold dictRelease
  repeat' first
    | (with_reducible first | assumption | apply kept_of)
    | simp only [kept_mk]
    | with_reducible apply dictReply_kept
    | split

theorem logObject_kept {qp : List Instr} {s : State} (st : Byte) (idx : W16) (sb : Byte) (h0 : Kept qp s) :
    Kept qp (logObject s st idx sb) := by
  unfold logObject
  repeat' with_reducible first | assumption | apply logRec_kept

theorem dictOpen_kept {qp : List Instr} {s : State} (p : DictPath) (idx : W16) (sb : Byte) (wr : Bool) (h0 : Kept qp s) :
    KeptD qp (dictOpen s p idx sb wr) := by
  unfold dictOpen
  repeat' first
    | (with_reducible first | assumption | apply kept_of)
    | simp only [st_ok, st_cwait, st_cfail, keptD_serve, keptD_drop, keptD_wait, keptD_refuse, keptW_mk, id_eq]
    | simp only [kept_mk]
    | (with_reducible first | apply usdoNew_kept | apply State.setBox_kept)
    | split

theorem dictHold_kept {qp : List Instr} {s : State} (p : DictPath) (idx : W16) (sb : Byte) (h0 : Kept qp s) :
    Kept qp (dictHold s p idx sb) := by
  unfold dictHold
  repeat' first
    | (with_reducible first | assumption | apply kept_of)
    | simp only [kept_mk]
    | split

theorem dictFinish_kept {qp : List Instr} (p : DictPath) (idx : W16) (sb : Byte) {r : State × Option Byte} (h3 : Kept qp r.1) :
    Kept qp (dictFinish p idx sb r) := by
  unfold dictFinish
  repeat' first
    | (with_reducible first | assumption | apply dictReply_kept | apply dictHold_kept)
    | split

theorem dictRow_kept {qp : List Instr} {s : State} (p : DictPath) (idx : W16) (sb : Byte) (w : List Byte)
    (f : State → State × Option Byte) (h0 : Kept qp s) (h5 : ∀ y0, Kept qp y0 → Kept qp (f y0).1) :
    Kept qp (dictRow s p idx sb w f) := by
  unfold dictRow
  repeat' first
    | (with_reducible first | apply dictOpen_kept | apply mailHold_kept | apply dictReply_kept | apply dictFinish_kept)
    | split
    | (with_reducible first | refine opened_drop ?_ (by assumption) | refine opened_refuse ?_ (by assumption)
                            | refine opened_serve ?_ (by assumption))
    | apply_assumption

theorem dictRow1_kept {qp : List Instr} {s : State} (p : DictPath) (idx : W16) (sb : Byte) (w : List Byte)
    (f : State → State × Byte) (h0 : Kept qp s) (h5 : ∀ y0, Kept qp y0 → Kept qp (f y0).1) :
    Kept qp (dictRow1 s p idx sb w f) := by
  unfold dictRow1
  repeat' with_reducible first | assumption | apply dictRow_kept

theorem dictRowThen_kept {qp : List Instr} {s : State} (p : DictPath) (idx : W16) (sb : Byte) (w : List Byte)
    (check : State → Byte) (act : State → State) (h0 : Kept qp s) (h6 : ∀ y0, Kept qp y0 → Kept qp (act y0)) :
    Kept qp (dictRowThen s p idx sb w check act) := by
  unfold dictRowThen
  try dsimp only
  repeat' first
    | (with_reducible first | apply dictOpen_kept | apply mailHold_kept | apply dictReply_kept)
    | split
    | (with_reducible first | refine opened_drop ?_ (by assumption) | refine opened_refuse ?_ (by assumption)
                            | refine opened_serve ?_ (by assumption))
    | apply_assumption

theorem domainRow_kept {qp : List Instr} {s : State} (p : DictPath) (idx : W16) (off : W32) (w : List Byte)
    (f : State → Nat → State × Byte) (h0 : Kept qp s) (h5 : ∀ y0 y1, Kept qp y0 → Kept qp (f y0 y1).1) :
    Kept qp (domainRow s p idx off w f) := by
  unfold domainRow
  repeat' first
    | (with_reducible first | apply dictOpen_kept | apply mailHold_kept | apply dictReply_kept | apply dictFinish_kept)
    | split
    | (with_reducible first | refine opened_drop ?_ (by assumption) | refine opened_refuse ?_ (by assumption)
                            | refine opened_serve ?_ (by assumption))
    | apply_assumption

end Sys2Proof.Machine
end

