-- ==== Sys2Proof/Laws/KeptPick.lean ====
section
/-! SUPPORT. What the operations of picks, units of the module, queues, requests and column modes keep (`Kept`). -/

namespace Sys2Proof.Machine

set_option linter.unusedSimpArgs false

theorem State.modPass_kept {qp : List Instr} {s : State} (id : Nat) (f : Pass → Pass) (h0 : Kept qp s) :
    Kept qp (State.modPass s id f) := h0

theorem pickGone_kept {qp : List Instr} {s : State} (g : Nat) (o : PickOp) (st : Byte) (h0 : Kept qp s) :
    Kept qp (pickGone s g o st) := h0

theorem slotDone_kept {qp : List Instr} {s : State} (g : Nat) (k : Nat) (o : PickOp) (st : Byte) (h0 : Kept qp s) :
    Kept qp (slotDone s g k o st) := by
  unfold slotDone
  repeat' first
    | (with_reducible first | assumption | apply tallyOp_kept | apply State.modCol_kept)
    | split

theorem passOpDone_kept {qp : List Instr} {s : State} (pid : Nat) (idx : Nat) (o : PickOp) (st : Byte) (h0 : Kept qp s) :
    Kept qp (passOpDone s pid idx o st) := h0

theorem pickEnd1_kept {qp : List Instr} {s : State} (g : Nat) (o : PickOp) (st : Byte) (h0 : Kept qp s) :
    Kept qp (pickEnd1 s g o st) := by
  unfold pickEnd1
  repeat' first
    | (with_reducible first | assumption | apply pickGone_kept | apply slotDone_kept | apply passOpDone_kept)
    | split

theorem passOpEnd_kept {qp : List Instr} {s : State} (pid : Nat) (x : PassOp) (st : Byte) (h0 : Kept qp s) :
    Kept qp (passOpEnd s pid x st) := by
  unfold passOpEnd
  repeat' first
    | (with_reducible first | assumption | apply pickEnd1_kept)
    | split

theorem passFail_kept {qp : List Instr} {s : State} (pid : Nat) (idx : Nat) (st : Byte) (h0 : Kept qp s) :
    Kept qp (passFail s pid idx st) := by
  unfold passFail
  repeat' first
    | (with_reducible first | assumption | intro _ | apply kept_foldl | apply passOpEnd_kept)
    | split

theorem pickEnd_kept {qp : List Instr} {s : State} (g : Nat) (o : PickOp) (st : Byte) (h0 : Kept qp s) :
    Kept qp (pickEnd s g o st) := by
  unfold pickEnd
  repeat' first
    | (with_reducible first | assumption | apply pickEnd1_kept | apply passFail_kept)
    | split

theorem colOperand_kept {qp : List Instr} {s : State} (g : Nat) (c : Nat) (va : Nat) (wr : Bool) (tag : W16) (h0 : Kept qp s) :
    Kept qp (colOperand s g c va wr tag).1 := by
  unfold colOperand
  try dsimp only
  repeat' first
    | (with_reducible first | assumption | apply xlateRefused_kept | apply placeRefused_kept)
    | split

theorem hubOperand_kept {qp : List Instr} {s : State} (code : W16) (c : Nat) (va : Nat) (n : Nat) (wr : Bool) (tag : W16)
    (h0 : Kept qp s) :
    Kept qp (hubOperand s code c va n wr tag).1 := by
  unfold hubOperand
  try dsimp only
  repeat' first
    | (with_reducible first | assumption | apply xlateRefused_kept | apply placeRefused_kept)
    | split

theorem takeOperands_kept {qp : List Instr} (g : Nat) (x1 : List Operand) {x2 : State × PickOp} (h2 : Kept qp x2.1) :
    Kept qp (takeOperands g x1 x2).1 := by
  revert h2
  fun_induction takeOperands g x1 x2
  all_goals intro h2
  repeat' first
    | (with_reducible first | apply colOperand_kept | apply hubOperand_kept | refine kept_fst ?_ (by assumption))
    | apply_assumption

theorem admissionChecks_kept {qp : List Instr} {s : State} (g : Nat) (o : PickOp) (h0 : Kept qp s) :
    Kept qp (admissionChecks s g o).1 := by
  unfold admissionChecks
  try dsimp only
  repeat' first
    | (with_reducible first | assumption | apply logRefused_kept | apply takeOperands_kept)
    | split

theorem admitHead_kept {qp : List Instr} {s : State} (g : Nat) (seq : Bool) (h0 : Kept qp s) :
    ∀ t, (admitHead s g seq) = some t → Kept qp t := by
  intro t e
  unfold admitHead at e
  dsimp only at e
  split at e
  · cases e
  · split at e
    · cases e
    · split at e
      · exact Option.some.inj e ▸ pickEnd_kept _ _ _ (admissionChecks_kept _ _ h0)
      · split at e
        · split at e
          · cases e
          · exact Option.some.inj e ▸ pickEnd_kept _ _ _ (State.modStack_kept _ _ (admissionChecks_kept _ _ h0))
        · exact Option.some.inj e ▸ State.modCol_kept _ _ (admissionChecks_kept _ _ h0)

theorem pickAdmission_kept {qp : List Instr} {s : State} (g : Nat) (h0 : Kept qp s) :
    Kept qp (pickAdmission s g) := by
  unfold pickAdmission
  dsimp only
  split
  · split
    · exact admitHead_kept _ _ h0 _ ‹_›
    · cases e : admitHead s g (!!(s.col g).lastSeq) with
      | none => exact h0
      | some t => exact admitHead_kept _ _ h0 _ e
  · exact h0

theorem putOp_kept {qp : List Instr} {s : State} (g : Nat) (o : PickOp) (h0 : Kept qp s) :
    Kept qp (putOp s g o) := h0

theorem pickStart_kept {qp : List Instr} {s : State} (g : Nat) (i : Nat) (h0 : Kept qp s) :
    Kept qp (pickStart s g i) := by
  unfold pickStart
  try dsimp only
  repeat' first
    | (with_reducible first | assumption | apply State.modCol_kept | apply State.modStack_kept | apply putOp_kept
                            | apply pickEnd_kept)
    | split

theorem pickCompletion_kept {qp : List Instr} {s : State} (g : Nat) (i : Nat) (h0 : Kept qp s) :
    Kept qp (pickCompletion s g i) := by
  unfold pickCompletion
  repeat' first
    | (with_reducible first | assumption | apply pickEnd_kept)
    | split

theorem apertureWrite_kept {qp : List Instr} {s : State} (g : Nat) (off : Nat) (data : List Byte) (ctx : BitVec 6)
    (h0 : Kept qp s) :
    Kept qp (apertureWrite s g off data ctx).1 := by
  unfold apertureWrite
  dsimp only
  repeat' split
  all_goals first
    | exact h0
    | exact State.modCol_kept _ _ (wakeDomain_kept _ h0)

theorem mapPieces_kept {qp : List Instr} {s : State} (code : W16) (tag : W16) (c : Nat) (wr : Bool) (x5 : List (Nat × Nat))
    (h0 : Kept qp s) :
    Kept qp (mapPieces s code tag c wr x5).1 := by
  revert h0
  fun_induction mapPieces s code tag c wr x5
  all_goals intro h0
  repeat' first
    | (with_reducible first | apply xlateRefused_kept | apply placeRefused_kept | refine kept_fst ?_ (by assumption))
    | apply_assumption

theorem mapRange_kept {qp : List Instr} {s : State} (code : W16) (tag : W16) (c : Nat) (va : Nat) (len : Nat) (wr : Bool)
    (h0 : Kept qp s) :
    Kept qp (mapRange s code tag c va len wr).1 := by
  unfold mapRange
  repeat' with_reducible first | assumption | apply mapPieces_kept

theorem mapRanges_kept {qp : List Instr} {s : State} (code : W16) (tag : W16) (c : Nat) (x4 : List (Nat × Nat × Bool))
    (h0 : Kept qp s) :
    Kept qp (mapRanges s code tag c x4).1 := by
  revert h0
  fun_induction mapRanges s code tag c x4
  all_goals intro h0
  repeat' first
    | (with_reducible first | apply mapRange_kept | refine kept_fst ?_ (by assumption))
    | apply_assumption

theorem pieceAccess_kept {qp : List Instr} {s : State} (r : Req) (i : Nat) (va : Nat) (wr : Bool) (ps : List (Nat × Nat))
    (data : List PByte) (h0 : Kept qp s) :
    Kept qp (pieceAccess s r i va wr ps data).st := by
  unfold pieceAccess
  repeat' first
    | (with_reducible first | assumption | intro _ | apply kept_iteC)
    | simp only [st_ok, st_cwait, st_cfail, keptD_serve, keptD_drop, keptD_wait, keptD_refuse, keptW_mk, id_eq]
    | (with_reducible first | apply innerResult_kept | apply mapPieces_kept | apply innerAccess_kept)

theorem accessBytes_kept {qp : List Instr} {x : Chk (Byte × List PByte)} (h0 : Kept qp x.st) :
    Kept qp (accessBytes x).st := by
  unfold accessBytes
  repeat' first
    | (with_reducible first | assumption | intro _ | apply kept_iteC | apply chk_andThen)
    | simp only [st_ok, st_cwait, st_cfail, keptD_serve, keptD_drop, keptD_wait, keptD_refuse, keptW_mk, id_eq]

theorem fetchRange_kept {qp : List Instr} {s : State} (r : Req) (i : Nat) (va : Nat) (len : Nat) (h0 : Kept qp s) :
    Kept qp (fetchRange s r i va len).st := by
  unfold fetchRange
  repeat' with_reducible first | assumption | apply accessBytes_kept | apply pieceAccess_kept

theorem fetchOne_kept {qp : List Instr} {s : State} (r : Req) (i : Nat) (va : Nat) (len : Nat) (h0 : Kept qp s) :
    Kept qp (fetchOne s r i va len).st := by
  unfold fetchOne
  repeat' with_reducible first | assumption | apply accessBytes_kept | apply pieceAccess_kept

theorem cleanOnly_kept {qp : List Instr} {x : Chk (List PByte)} (h0 : Kept qp x.st) :
    Kept qp (cleanOnly x).st := by
  unfold cleanOnly
  repeat' first
    | (with_reducible first | assumption | intro _ | apply kept_iteC | apply chk_andThen)
    | simp only [st_ok, st_cwait, st_cfail, keptD_serve, keptD_drop, keptD_wait, keptD_refuse, keptW_mk, id_eq]

theorem storeRange_kept {qp : List Instr} {s : State} (r : Req) (i : Nat) (va : Nat) (bs : List PByte) (h0 : Kept qp s) :
    Kept qp (storeRange s r i va bs).st := by
  unfold storeRange
  repeat' first
    | (with_reducible first | assumption | intro _ | apply chk_andThen)
    | simp only [st_ok, st_cwait, st_cfail, keptD_serve, keptD_drop, keptD_wait, keptD_refuse, keptW_mk, id_eq]
    | with_reducible apply pieceAccess_kept

theorem putStepOp_kept {qp : List Instr} {s : State} (q : Nat) (o : StepOp) (h0 : Kept qp s) :
    Kept qp (putStepOp s q o) := by
  unfold putStepOp
  repeat' first
    | (with_reducible first | assumption | apply State.modQueue_kept)
    | split

theorem stepOpDone_kept {qp : List Instr} {s : State} (q : Nat) (seq : Nat) (st : Byte) (assay : W64) (h0 : Kept qp s) :
    Kept qp (stepOpDone s q seq st assay) := by
  unfold stepOpDone
  repeat' first
    | (with_reducible first | assumption | apply putStepOp_kept)
    | split

theorem opDrop_kept {qp : List Instr} {s : State} (o : StepOp) (h0 : Kept qp s) :
    Kept qp (opDrop s o) := h0

theorem maskRead_kept {qp : List Instr} {s : State} (x : StepRun) (o : StepOp) (d : BitVec 512) (h0 : Kept qp s) :
    Kept qp (maskRead s x o d).st := by
  unfold maskRead
  repeat' with_reducible first | assumption | apply cleanOnly_kept | apply fetchOne_kept

theorem recDrop_kept {qp : List Instr} {s : State} (q : Nat) (x : RecFlight) (st : Byte) (h0 : Kept qp s) :
    Kept qp (recDrop s q x st) := by
  unfold recDrop
  repeat' with_reducible first | assumption | apply State.modQueue_kept | apply logRec_kept

theorem recSent_kept {qp : List Instr} {s : State} (q : Nat) (x : RecFlight) (acked : Bool) (h0 : Kept qp s) :
    Kept qp (recSent s q x acked) := h0

theorem recSend_kept {qp : List Instr} {s : State} (q : Nat) (x : RecFlight) (h0 : Kept qp s) :
    Kept qp (recSend s q x) := by
  unfold recSend
  repeat' first
    | (with_reducible first | assumption | apply kept_of)
    | simp only [kept_mk]
    | (with_reducible first | apply recDrop_kept | apply storeRange_kept | apply innerDrop_kept | apply recSent_kept
                            | apply hostSend_kept | apply portSend_kept)
    | split
    | (with_reducible first | refine chk_ok ?_ (by assumption) | refine chk_wait ?_ (by assumption)
                            | refine chk_fail ?_ (by assumption))

theorem putRecord_kept {qp : List Instr} {s : State} (q : Nat) (x : RecInfo) (h0 : Kept qp s) :
    Kept qp (putRecord s q x) := by
  unfold putRecord
  repeat' first
    | with_reducible apply recSend_kept
    | apply_assumption

theorem recordAcknowledged_kept {qp : List Instr} {s : State} (q : Nat) (h0 : Kept qp s) :
    Kept qp (recordAcknowledged s q) := by
  unfold recordAcknowledged
  try dsimp only
  repeat' first
    | (with_reducible first | assumption | apply recSend_kept | apply State.setQueue_kept | apply tallyOp_kept
                            | apply hostMsix_kept)
    | split

theorem recordWaitTimeout_kept {qp : List Instr} {s : State} (q : Nat) (h0 : Kept qp s) :
    Kept qp (recordWaitTimeout s q) := by
  unfold recordWaitTimeout
  repeat' first
    | (with_reducible first | assumption | apply recDrop_kept)
    | split

theorem acceptSlot_kept {qp : List Instr} {s : State} (q : Nat) (d : BitVec 1024) (h0 : Kept qp s) :
    Kept qp (acceptSlot s q d) := by
  unfold acceptSlot
  repeat' first
    | (with_reducible first | assumption | apply putRecord_kept | apply State.setQueue_kept)
    | split

theorem checkSlots_kept {qp : List Instr} (q : Nat) (x1 : Nat) {x2 : State} (h2 : Kept qp x2) :
    Kept qp (checkSlots q x1 x2) := by
  revert h2
  fun_induction checkSlots q x1 x2
  all_goals intro h2
  repeat' first
    | with_reducible apply acceptSlot_kept
    | apply_assumption

theorem doorbell_kept {qp : List Instr} {s : State} (q : Nat) (off : BitVec 6) (data : List Byte) (h0 : Kept qp s) :
    Kept qp (doorbell s q off data).1 := by
  unfold doorbell
  try dsimp only
  repeat' first
    | (with_reducible first | assumption | apply State.modQueue_kept | apply checkSlots_kept)
    | split

theorem answerDoorbell_kept {qp : List Instr} {s : State} (o : Origin) (q : Nat) (st : Byte) (h0 : Kept qp s) :
    Kept qp (answerDoorbell s o q st) := by
  unfold answerDoorbell
  repeat' first
    | (with_reducible first | assumption | apply portRsp_kept | apply fenceCount_kept | apply State.emit_kept)
    | split

theorem rereadSlot_kept {qp : List Instr} {s : State} (q : Nat) (first : Nat) (last : Nat) (h0 : Kept qp s) :
    Kept qp (rereadSlot s q first last) := by
  unfold rereadSlot
  repeat' with_reducible first | assumption | apply checkSlots_kept | apply State.modQueue_kept

theorem slotReread_kept {qp : List Instr} {s : State} (q : Nat) (h0 : Kept qp s) :
    Kept qp (slotReread s q) := by
  unfold slotReread
  try dsimp only
  repeat' first
    | (with_reducible first | assumption | apply rereadSlot_kept)
    | split

theorem stallQueue_kept {qp : List Instr} {s : State} (q : Nat) (h0 : Kept qp s) :
    Kept qp (stallQueue s q) := by
  unfold stallQueue
  repeat' with_reducible first | assumption | apply State.setQueue_kept | apply logRec_kept | apply putRecord_kept

theorem slotStaleStall_kept {qp : List Instr} {s : State} (q : Nat) (h0 : Kept qp s) :
    Kept qp (slotStaleStall s q) := by
  unfold slotStaleStall
  try dsimp only
  repeat' first
    | (with_reducible first | assumption | apply rereadSlot_kept | apply stallQueue_kept)
    | split

theorem queueResume_kept {qp : List Instr} {s : State} (q : Nat) (h0 : Kept qp s) :
    Kept qp (queueResume s q).1 := by
  unfold queueResume
  try dsimp only
  repeat' first
    | (with_reducible first | assumption | apply checkSlots_kept | apply State.setQueue_kept)
    | split

theorem queueReset_kept {qp : List Instr} {s : State} (q : Nat) (h0 : Kept qp s) :
    Kept qp (queueReset s q).1 := by
  unfold queueReset
  try dsimp only
  repeat' first
    | (with_reducible first | assumption | apply State.setQueue_kept)
    | split

theorem stepStop_kept {qp : List Instr} {s : State} (q : Nat) (num : Nat) (st : Byte) (at_ : Nat) (h0 : Kept qp s) :
    Kept qp (stepStop s q num st at_) := by
  unfold stepStop
  repeat' first
    | (with_reducible first | assumption | apply State.modQueue_kept | apply withdrawTarget_kept)
    | split

theorem queueAbort_kept {qp : List Instr} {s : State} (q : Nat) (h0 : Kept qp s) :
    Kept qp (queueAbort s q).1 := by
  unfold queueAbort
  repeat' first
    | (with_reducible first | assumption | apply stepStop_kept)
    | split

theorem queueCtl_kept {qp : List Instr} {s : State} (q : Nat) (v : Nat) (h0 : Kept qp s) :
    Kept qp (queueCtl s q v).1 := by
  unfold queueCtl
  repeat' first
    | (with_reducible first | assumption | apply queueResume_kept | apply queueReset_kept | apply queueAbort_kept)
    | split

theorem queueEnable_kept {qp : List Instr} {s : State} (q : Nat) (v : Nat) (h0 : Kept qp s) :
    Kept qp (queueEnable s q v).1 := by
  unfold queueEnable
  try dsimp only
  repeat' first
    | (with_reducible first | assumption | apply State.setQueue_kept)
    | split

theorem queueWrite_kept {qp : List Instr} {s : State} (p : DictPath) (q : QueueId) (sb : Byte) (v : Byte)
    (f : State → State × Byte) (h0 : Kept qp s) (h5 : ∀ y0, Kept qp y0 → Kept qp (f y0).1) :
    Kept qp (queueWrite s p q sb v f) := by
  unfold queueWrite
  repeat' with_reducible first | assumption | apply dictRow1_kept

theorem queueObject_kept {qp : List Instr} {s : State} (q : Nat) (sb : Nat) (v : Nat) (h0 : Kept qp s) :
    Kept qp (queueObject s q sb v).1 := by
  unfold queueObject
  repeat' with_reducible first | assumption | intro _ | apply kept_ite2 | apply State.setQueue_kept | apply queueEnable_kept
                               | apply queueCtl_kept

theorem mirrorWrite_kept {qp : List Instr} {s : State} (o : Origin) (off : Nat) (data : List Byte) (h0 : Kept qp s) :
    Kept qp (mirrorWrite s o off data).1 := by
  unfold mirrorWrite
  repeat' first
    | (with_reducible first | assumption | intro _ | apply kept_ite | apply kept_ite2 | apply kept_of)
    | simp only [kept_mk]
    | (with_reducible first | apply State.setBox_kept | apply mailPut_kept)

theorem tallyRecord_kept {qp : List Instr} {s : State} (o : Origin) (c : Nat) (r : TallyRef) (w0 : W64) (w1 : W64)
    (h0 : Kept qp s) :
    Kept qp (tallyRecord s o c r w0 w1).1 := by
  unfold tallyRecord
  try dsimp only
  repeat' first
    | (with_reducible first | assumption | apply tallyOp_kept | apply remoteWatch_kept | apply unwatch_kept | apply barOp_kept)
    | split

theorem tallyPageWrite_kept {qp : List Instr} {s : State} (o : Origin) (c : Nat) (off : Nat) (data : List Byte) (h0 : Kept qp s) :
    Kept qp (tallyPageWrite s o c off data).1 := by
  unfold tallyPageWrite
  repeat' first
    | (with_reducible first | assumption | apply tallyRecord_kept)
    | split

theorem tallyPageRead_kept {qp : List Instr} {s : State} (o : Origin) (c : Nat) (off : Nat) (n : Nat) (h0 : Kept qp s) :
    Kept qp (tallyPageRead s o c off n).1 := by
  unfold tallyPageRead
  repeat' first
    | (with_reducible first | assumption | apply tallyRangeFault_kept)
    | split

theorem queuePageWrite_kept {qp : List Instr} {s : State} (off : Nat) (data : List Byte) (h0 : Kept qp s) :
    Kept qp (queuePageWrite s off data).1 := by
  unfold queuePageWrite
  repeat' first
    | (with_reducible first | assumption | apply doorbell_kept | apply State.wrBytes_kept)
    | split

theorem pageRefused_kept {qp : List Instr} {s : State} (o : Origin) (c : Nat) (va : Nat) (st : Byte) (h0 : Kept qp s) :
    Kept qp (pageRefused s o c va st) := by
  unfold pageRefused
  repeat' first
    | (with_reducible first | assumption | apply placeRefused_kept)
    | split

theorem pageWrite_kept {qp : List Instr} {s : State} (o : Origin) (c : Nat) (pa : Nat) (data : List Byte) (h0 : Kept qp s) :
    Kept qp (pageWrite s o c pa data).1 := by
  unfold pageWrite
  try dsimp only
  repeat' first
    | (with_reducible first | assumption | apply tallyPageWrite_kept | apply queuePageWrite_kept | apply mirrorWrite_kept
                            | apply apertureWrite_kept | apply paWrite_kept)
    | split

theorem pageRead_kept {qp : List Instr} {s : State} (o : Origin) (c : Nat) (pa : Nat) (n : Nat) (h0 : Kept qp s) :
    Kept qp (pageRead s o c pa n).1 := by
  unfold pageRead
  try dsimp only
  repeat' first
    | (with_reducible first | assumption | apply tallyPageRead_kept | apply paRead_kept)
    | split

theorem pageRequest_kept {qp : List Instr} {s : State} (o : Origin) (c : Nat) (wr : Bool) (va : Nat) (pa : Nat) (n : Nat)
    (data : List Byte) (h0 : Kept qp s) :
    Kept qp (pageRequest s o c wr va pa n data) := by
  unfold pageRequest
  repeat' with_reducible first | assumption | intro _ | apply kept_ite | apply startXfer_kept | apply pageWrite_kept
                               | apply answerWrite_kept | apply pageRefused_kept | apply pageRead_kept | apply answer_kept

theorem refuseRequest_kept {qp : List Instr} {s : State} (o : Origin) (c : Nat) (wr : Bool) (st : Byte) (va : Nat)
    (h0 : Kept qp s) :
    Kept qp (refuseRequest s o c wr st va) := by
  unfold refuseRequest
  repeat' with_reducible first | assumption | intro _ | apply kept_ite | apply answerWrite_kept | apply answer_kept

theorem request_kept {qp : List Instr} {s : State} (o : Origin) (c : Nat) (wr : Bool) (nc : Bool) (va : Nat) (n : Nat)
    (data : List Byte) (h0 : Kept qp s) :
    Kept qp (request s o c wr nc va n data) := by
  unfold request
  repeat' first
    | (with_reducible first | assumption | apply refuseRequest_kept | apply xlateRefused_kept | apply pageRequest_kept)
    | split

theorem ordinaryRequest_kept {qp : List Instr} {s : State} (o : Origin) (c : Nat) (wr : Bool) (nc : Bool) (va : Nat) (n : Nat)
    (data : List Byte) (h0 : Kept qp s) :
    Kept qp (ordinaryRequest s o c wr nc va n data) := by
  unfold ordinaryRequest
  repeat' with_reducible first | assumption | intro _ | apply kept_ite | apply refuseRequest_kept | apply request_kept

theorem apertureVa_kept {qp : List Instr} {s : State} (c : Nat) (g : Nat) (off : Nat) (wr : Bool) (h0 : Kept qp s) :
    Kept qp (apertureVa s c g off wr).1 := by
  unfold apertureVa
  try dsimp only
  repeat' first
    | split
    | apply_assumption

theorem directWrite_kept {qp : List Instr} {s : State} (o : Origin) (c : Nat) (g : Nat) (off : Nat) (data : List Byte)
    (h0 : Kept qp s) :
    Kept qp (directWrite s o c g off data) := by
  unfold directWrite
  repeat' with_reducible first | assumption | intro _ | apply kept_ite | apply apertureVa_kept | apply answerWrite_kept
                               | apply xlateRefused_kept | apply apertureWrite_kept | apply pageRefused_kept

theorem apertureReadBy_kept {qp : List Instr} {s : State} (o : Origin) (c : Nat) (g : Nat) (off : Nat) (len : Nat)
    (h0 : Kept qp s) :
    Kept qp (apertureReadBy s o c g off len) := by
  unfold apertureReadBy
  repeat' with_reducible first | assumption | intro _ | apply kept_ite | apply apertureVa_kept | apply answer_kept
                               | apply xlateRefused_kept | apply pageRefused_kept

theorem startToPick_kept {qp : List Instr} {s : State} (g : Nat) (p : DictPath) (byStack : Bool) (h0 : Kept qp s) :
    Kept qp (startToPick s g p byStack) := h0

theorem startToNormal_kept {qp : List Instr} {s : State} (g : Nat) (p : DictPath) (byStack : Bool) (h0 : Kept qp s) :
    Kept qp (startToNormal s g p byStack) := by
  unfold startToNormal
  repeat' with_reducible first | assumption | intro _ | apply kept_foldl | apply kept_ite | apply State.modCol_kept
                               | apply pickEnd_kept

theorem colModeWrite_kept {qp : List Instr} {s : State} (p : DictPath) (g : Nat) (v : Nat) (h0 : Kept qp s) :
    Kept qp (colModeWrite s p g v).1 := by
  unfold colModeWrite
  try dsimp only
  repeat' first
    | (with_reducible first | assumption | apply startToPick_kept | apply startToNormal_kept)
    | split

theorem changeEnds_kept {qp : List Instr} {s : State} (g : Nat) (ch : ModeChange) (st : Byte) (h0 : Kept qp s) :
    Kept qp (changeEnds s g ch st) := by
  unfold changeEnds
  try dsimp only
  repeat' first
    | (with_reducible first | assumption | apply State.modStack_kept | apply dictRelease_kept)
    | split

theorem pickModeReached_kept {qp : List Instr} {s : State} (g : Nat) (h0 : Kept qp s) :
    Kept qp (pickModeReached s g) := by
  unfold pickModeReached
  try dsimp only
  repeat' first
    | (with_reducible first | assumption | apply changeEnds_kept | apply State.setCol_kept)
    | split

theorem normalModeReached_kept {qp : List Instr} {s : State} (g : Nat) (h0 : Kept qp s) :
    Kept qp (normalModeReached s g) := by
  unfold normalModeReached
  try dsimp only
  repeat' first
    | (with_reducible first | assumption | apply changeEnds_kept | apply State.setCol_kept)
    | split

theorem colModeTimeout_kept {qp : List Instr} {s : State} (g : Nat) (h0 : Kept qp s) :
    Kept qp (colModeTimeout s g) := by
  unfold colModeTimeout
  try dsimp only
  repeat' first
    | (with_reducible first | assumption | apply State.setCol_kept | apply logObject_kept | apply changeEnds_kept)
    | split

theorem stackModeWrite_kept {qp : List Instr} {s : State} (p : DictPath) (n : Nat) (v : Nat) (h0 : Kept qp s) :
    Kept qp (stackModeWrite s p n v).1 := by
  unfold stackModeWrite
  repeat' with_reducible first | assumption | intro _ | apply kept_foldl | apply kept_ite | apply kept_ite2
                               | apply State.modStack_kept | apply startToPick_kept | apply startToNormal_kept

end Sys2Proof.Machine
end

