-- ==== Sys2Proof/Laws/KeptShaft.lean ====
section
/-! SUPPORT. What the operations of shaft controllers and ports keep (`Kept`). -/

namespace Sys2Proof.Machine

set_option linter.unusedSimpArgs false

theorem fenceJob_kept {qp : List Instr} {s : State} (pick : Bool) (idx : Nat) (cause : Byte) (h0 : Kept qp s) :
    Kept qp (fenceJob s pick idx cause) := h0

theorem endAllOps_kept {qp : List Instr} {s : State} (g : Nat) (st : Byte) (h0 : Kept qp s) :
    Kept qp (endAllOps s g st) := by
  unfold endAllOps
  repeat' with_reducible first | assumption | intro _ | apply kept_foldl | apply kept_ite | apply pickEnd_kept

theorem passesFenced_kept {qp : List Instr} {s : State} (g : Nat) (h0 : Kept qp s) :
    Kept qp (passesFenced s g) := by
  unfold passesFenced
  repeat' with_reducible first | assumption | intro _ | apply kept_foldl | apply passOpEnd_kept | apply State.modPass_kept

theorem fencePickNow_kept {qp : List Instr} {s : State} (g : Nat) (h0 : Kept qp s) :
    Kept qp (fencePickNow s g) := by
  unfold fencePickNow
  try dsimp only
  repeat' first
    | (with_reducible first | assumption | apply passesFenced_kept | apply endAllOps_kept | apply State.setCol_kept
                            | apply changeEnds_kept)
    | split

theorem claimWaitTimeout_kept {qp : List Instr} {s : State} (g : Nat) (h0 : Kept qp s) :
    Kept qp (claimWaitTimeout s g) := by
  unfold claimWaitTimeout
  repeat' first
    | (with_reducible first | assumption | apply crossbarIn_kept | apply requestTimeout_kept | apply State.modStack_kept
                            | apply claimWaited_kept)
    | split

theorem voidStack_kept {qp : List Instr} {s : State} (n : Nat) (h0 : Kept qp s) :
    Kept qp (voidStack s n) := by
  unfold voidStack
  repeat' with_reducible first | assumption | intro _ | apply kept_foldl | apply State.modStack_kept | apply State.modCol_kept

theorem rateTrigger_kept {qp : List Instr} {s : State} (n : Nat) (h0 : Kept qp s) :
    Kept qp (rateTrigger s n) := by
  unfold rateTrigger
  repeat' with_reducible first | assumption | intro _ | apply kept_ite | apply State.modStack_kept | apply voidStack_kept

theorem coolCount_kept {qp : List Instr} {s : State} (n : Nat) (h0 : Kept qp s) :
    Kept qp (coolCount s n) := h0

theorem columnRate_kept {qp : List Instr} {s : State} (g : Nat) (h0 : Kept qp s) :
    Kept qp (columnRate s g) := by
  unfold columnRate
  repeat' with_reducible first | assumption | intro _ | apply kept_ite | apply rateTrigger_kept | apply State.modStack_kept
                               | apply voidStack_kept | apply State.modCol_kept

theorem refreshDie_kept {qp : List Instr} (g : Nat) (k : Nat) (due : Nat) {s : State} (die : Nat) (h3 : Kept qp s) :
    Kept qp (refreshDie g k due s die) := by
  unfold refreshDie
  repeat' with_reducible first | assumption | apply State.modStack_kept | apply State.setCol_kept

theorem creditChecked_kept {qp : List Instr} (g : Nat) (k : Nat) (due : Nat) {s : State} (die : Nat) (h3 : Kept qp s) :
    Kept qp (creditChecked g k due s die) := by
  unfold creditChecked
  repeat' with_reducible first | assumption | apply State.modCol_kept

theorem insertOwed_kept {qp : List Instr} {s : State} (g : Nat) (h0 : Kept qp s) :
    Kept qp (insertOwed s g) := by
  unfold insertOwed
  repeat' with_reducible first | assumption | intro _ | apply kept_foldl | apply kept_ite | apply refreshDie_kept
                               | apply delayOp_kept | apply State.modStack_kept | apply State.modCol_kept

theorem nextInterval_kept {qp : List Instr} {s : State} (g : Nat) (h0 : Kept qp s) :
    Kept qp (nextInterval s g) := by
  unfold nextInterval
  repeat' with_reducible first | assumption | intro _ | apply kept_ite | apply State.setCol_kept | apply State.modStack_kept

theorem refreshDue_kept {qp : List Instr} {s : State} (g : Nat) (h0 : Kept qp s) :
    Kept qp (refreshDue s g) := by
  unfold refreshDue
  repeat' with_reducible first | assumption | intro _ | apply kept_foldl | apply kept_ite | apply columnRate_kept
                               | apply creditChecked_kept | apply refreshDie_kept | apply insertOwed_kept
                               | apply State.modCol_kept | apply State.modStack_kept | apply nextInterval_kept

theorem targetedRefresh_kept {qp : List Instr} {s : State} (g : Nat) (h0 : Kept qp s) :
    Kept qp (targetedRefresh s g) := by
  unfold targetedRefresh
  repeat' first
    | (with_reducible first | assumption | apply delayOp_kept | apply State.modStack_kept | apply State.modCol_kept)
    | split

theorem rowStepBoundary_kept {qp : List Instr} {s : State} (g : Nat) (h0 : Kept qp s) :
    Kept qp (rowStepBoundary s g) := by
  unfold rowStepBoundary
  repeat' with_reducible first | assumption | intro _ | apply kept_foldl | apply kept_ite | apply insertOwed_kept
                               | apply targetedRefresh_kept | apply serveColumn_kept

theorem poisonWaits_kept {qp : List Instr} {s : State} (g : Nat) (h0 : Kept qp s) :
    Kept qp (poisonWaits s g) := by
  unfold poisonWaits
  repeat' first
    | (with_reducible first | assumption | intro _ | apply kept_foldl | apply kept_of)
    | simp only [kept_mk]
    | (with_reducible first | apply granDone_kept | apply crossbarIn_kept)

theorem pathFail_kept {qp : List Instr} {s : State} (g : Nat) (h0 : Kept qp s) :
    Kept qp (pathFail s g) := by
  unfold pathFail
  repeat' with_reducible first | assumption | intro _ | apply kept_foldl | apply kept_ite | apply State.setCol_kept
                               | apply poisonWaits_kept | apply pickEnd_kept | apply State.modStack_kept | apply raiseEmcy_kept
                               | apply logRec_kept | apply fenceJob_kept | apply fencePickNow_kept

theorem parityAlert_kept {qp : List Instr} {s : State} (g : Nat) (h0 : Kept qp s) :
    Kept qp (parityAlert s g) := by
  unfold parityAlert
  repeat' with_reducible first | assumption | intro _ | apply kept_ite | apply State.modStack_kept | apply pathFail_kept
                               | apply State.setCol_kept

theorem laneRetrained_kept {qp : List Instr} {s : State} (g : Nat) (h0 : Kept qp s) :
    Kept qp (laneRetrained s g) := by
  unfold laneRetrained
  repeat' with_reducible first | assumption | intro _ | apply kept_ite | apply serveFree_kept | apply State.modStack_kept
                               | apply State.setCol_kept

theorem logShaftLink_kept {qp : List Instr} {s : State} (n : Nat) (state : Nat) (h0 : Kept qp s) :
    Kept qp (logShaftLink s n state) := by
  unfold logShaftLink
  repeat' with_reducible first | assumption | apply logRec_kept

theorem linkNak_kept {qp : List Instr} {s : State} (n : Nat) (down : Bool) (h0 : Kept qp s) :
    Kept qp (linkNak s n down) := by
  unfold linkNak
  repeat' with_reducible first | assumption | intro _ | apply kept_ite | apply logShaftLink_kept | apply State.setStack_kept
                               | apply State.emit_kept

theorem linkFrame_kept {qp : List Instr} {s : State} (n : Nat) (down : Bool) (seq : Byte) (ftype : Byte) (payload : List Byte)
    (crc : W32) (h0 : Kept qp s) :
    Kept qp (linkFrame s n down seq ftype payload crc) := by
  unfold linkFrame
  repeat' with_reducible first | assumption | intro _ | apply kept_ite | apply State.setStack_kept | apply linkNak_kept

theorem shaftLinkRetrained_kept {qp : List Instr} {s : State} (n : Nat) (h0 : Kept qp s) :
    Kept qp (shaftLinkRetrained s n) := by
  unfold shaftLinkRetrained
  repeat' with_reducible first | assumption | intro _ | apply kept_ite | apply crossbarIn_kept | apply logShaftLink_kept
                               | apply State.modStack_kept

theorem stackRequestTimeout_kept {qp : List Instr} {s : State} (n : Nat) (h0 : Kept qp s) :
    Kept qp (stackRequestTimeout s n) := by
  unfold stackRequestTimeout
  try dsimp only
  repeat' first
    | (with_reducible first | assumption | apply requestTimeout_kept)
    | split

theorem cwFix_kept {qp : List Instr} {s : State} (g : Nat) (die : Nat) (row : Nat) (cw : Nat) (l : Nat) (e : Byte)
    (h0 : Kept qp s) :
    Kept qp (cwFix s g die row cw l e) := by
  unfold cwFix
  repeat' with_reducible first | assumption | apply State.modStack_kept | apply writeCw_kept

theorem writeBackEntry_kept {qp : List Instr} {s : State} (g : Nat) (h0 : Kept qp s) :
    Kept qp (writeBackEntry s g) := by
  unfold writeBackEntry
  try dsimp only
  repeat' first
    | (with_reducible first | assumption | apply actRow_kept | apply State.modStack_kept | apply cwFix_kept
                            | apply remapAuto_kept | apply ueFound_kept)
    | split

theorem scrubAdvance_kept {qp : List Instr} {s : State} (g : Nat) (h0 : Kept qp s) :
    Kept qp (scrubAdvance s g) := h0

theorem scrubCw_kept {qp : List Instr} (g : Nat) (die : Nat) (row : Nat) {s : State} (cw : Nat) (h3 : Kept qp s) :
    Kept qp (scrubCw g die row s cw) := by
  unfold scrubCw
  try dsimp only
  repeat' first
    | (with_reducible first | assumption | apply cwFix_kept | apply State.setStack_kept | apply remapAuto_kept | apply ueFound_kept)
    | split

theorem scrubStep_kept {qp : List Instr} {s : State} (g : Nat) (h0 : Kept qp s) :
    Kept qp (scrubStep s g) := by
  unfold scrubStep
  repeat' with_reducible first | assumption | intro _ | apply kept_foldl | apply kept_ite | apply scrubAdvance_kept
                               | apply State.modStack_kept | apply scrubCw_kept | apply actRow_kept

theorem remapEnd_kept {qp : List Instr} {s : State} (n : Nat) (j : RemapJob) (st : Byte) (h0 : Kept qp s) :
    Kept qp (remapEnd s n j st) := by
  unfold remapEnd
  try dsimp only
  repeat' first
    | (with_reducible first | assumption | apply State.modStack_kept | apply dictRelease_kept | apply remapAuto_kept)
    | split

theorem remapReqWrite_kept {qp : List Instr} {s : State} (p : DictPath) (n : Nat) (l : W64) (h0 : Kept qp s) :
    Kept qp (remapReqWrite s p n l).1 := by
  unfold remapReqWrite
  repeat' first
    | (with_reducible first | assumption | apply logRemap_kept | apply remapStart_kept)
    | split

theorem copyCw_kept {qp : List Instr} (g : Nat) (die : Nat) (row : Nat) (spare : Nat) {s : State} (cw : Nat) (h4 : Kept qp s) :
    Kept qp (copyCw g die row spare s cw) := by
  unfold copyCw
  repeat' first
    | (with_reducible first | assumption | apply kept_of)
    | simp only [kept_mk]
    | (with_reducible first | apply readCw_kept | apply State.wrBytes_kept)

theorem remapDo_kept {qp : List Instr} {s : State} (n : Nat) (j : RemapJob) (h0 : Kept qp s) :
    Kept qp (remapDo s n j) := by
  unfold remapDo
  repeat' first
    | (with_reducible first | assumption | apply kept_foldl | apply kept_of)
    | simp only [kept_mk]
    | (with_reducible first | apply remapEnd_kept | apply logRemap_kept | apply copyCw_kept | apply actRow_kept
                            | apply State.modStack_kept | apply State.setCol_kept)
    | split

theorem remapCopy_kept {qp : List Instr} {s : State} (n : Nat) (h0 : Kept qp s) :
    Kept qp (remapCopy s n) := by
  unfold remapCopy
  repeat' first
    | (with_reducible first | assumption | apply remapDo_kept | apply State.modStack_kept)
    | split

theorem remapClaimTimeout_kept {qp : List Instr} {s : State} (n : Nat) (h0 : Kept qp s) :
    Kept qp (remapClaimTimeout s n) := by
  unfold remapClaimTimeout
  repeat' first
    | (with_reducible first | assumption | apply remapEnd_kept | apply logRemap_kept)
    | split

theorem remapSelWrite_kept {qp : List Instr} {s : State} (n : Nat) (v : Nat) (h0 : Kept qp s) :
    Kept qp (remapSelWrite s n v).1 := by
  unfold remapSelWrite
  repeat' first
    | (with_reducible first | assumption | apply State.modStack_kept)
    | split

theorem malformed_kept {qp : List Instr} {s : State} (k : PortId) (h0 : Kept qp s) :
    Kept qp (malformed s k) := h0

theorem applySig_kept {qp : List Instr} {s : State} (k : PortId) (h : Hold) (h0 : Kept qp s) :
    Kept qp (applySig s k h) := by
  unfold applySig
  repeat' with_reducible first | assumption | apply tallyPageWrite_kept | apply portRsp_kept

theorem unhold_kept {qp : List Instr} {s : State} (k : PortId) (h : Hold) (h0 : Kept qp s) :
    Kept qp (unhold s k h) := h0

theorem timeoutSig_kept {qp : List Instr} {s : State} (k : PortId) (h : Hold) (h0 : Kept qp s) :
    Kept qp (timeoutSig s k h) := by
  unfold timeoutSig
  repeat' first
    | (with_reducible first | assumption | apply kept_of)
    | simp only [kept_mk]
    | (with_reducible first | apply unhold_kept | apply portRsp_kept)

theorem arriveSig_kept {qp : List Instr} {s : State} (k : PortId) (h : Hold) (h0 : Kept qp s) :
    Kept qp (arriveSig s k h) := by
  unfold arriveSig
  repeat' first
    | (with_reducible first | intro _ | apply kept_ite | apply applySig_kept)
    | apply_assumption

theorem sigStampMet_kept {qp : List Instr} {s : State} (k : PortId) (src : BitVec 4) (h0 : Kept qp s) :
    Kept qp (sigStampMet s k src) := by
  unfold sigStampMet
  try dsimp only
  repeat' first
    | (with_reducible first | assumption | apply applySig_kept | apply unhold_kept)
    | split

theorem logStamp_kept {qp : List Instr} {s : State} (k : PortId) (h : Hold) (h0 : Kept qp s) :
    Kept qp (logStamp s k h) := by
  unfold logStamp
  repeat' with_reducible first | assumption | apply logTally_kept

theorem stampTimeout_kept {qp : List Instr} {s : State} (k : PortId) (src : BitVec 4) (h0 : Kept qp s) :
    Kept qp (stampTimeout s k src) := by
  unfold stampTimeout
  try dsimp only
  repeat' first
    | (with_reducible first | assumption | apply timeoutSig_kept | apply logStamp_kept)
    | split

theorem dropHolds_kept {qp : List Instr} {s : State} (k : PortId) (h0 : Kept qp s) :
    Kept qp (dropHolds s k) := by
  unfold dropHolds
  repeat' with_reducible first | assumption | intro _ | apply kept_foldl | apply timeoutSig_kept

theorem fwdDone_kept {qp : List Instr} {s : State} (f : FwdReq) (st : Byte) (data : List Byte) (h0 : Kept qp s) :
    Kept qp (fwdDone s f st data) := by
  unfold fwdDone
  repeat' first
    | (with_reducible first | assumption | apply fenceCount_kept | apply portRsp_kept)
    | split

theorem refusePacket_kept {qp : List Instr} {s : State} (k : PortId) (h : BitVec 256) (st : Byte) (h0 : Kept qp s) :
    Kept qp (refusePacket s k h st) := by
  unfold refusePacket
  repeat' with_reducible first | assumption | intro _ | apply kept_ite | apply portRsp_kept | apply fenceCount_kept

theorem forward_kept {qp : List Instr} {s : State} (k : PortId) (h : BitVec 256) (data : List Byte) (h0 : Kept qp s) :
    Kept qp (forward s k h data) := by
  unfold forward
  repeat' first
    | (with_reducible first | assumption | apply kept_of)
    | simp only [kept_mk]
    | (with_reducible first | apply refusePacket_kept | apply State.setPort_kept | apply portSend_kept | apply poolKeep_kept)
    | split

theorem requestPacket_kept {qp : List Instr} {s : State} (k : PortId) (t : Nat) (h : BitVec 256) (data : List Byte) {f : State}
    (h0 : Kept qp s) (h5 : Kept qp f) :
    Kept qp (requestPacket s k t h data f) := by
  unfold requestPacket
  repeat' with_reducible first | assumption | intro _ | apply kept_ite | apply refusePacket_kept | apply forward_kept

theorem rdPacket_kept {qp : List Instr} {s : State} (k : PortId) (h : BitVec 256) (h0 : Kept qp s) :
    Kept qp (rdPacket s k h) := by
  unfold rdPacket
  repeat' with_reducible first | assumption | apply requestPacket_kept | apply request_kept

theorem wrPacket_kept {qp : List Instr} {s : State} (k : PortId) (h : BitVec 256) (data : List Byte) (h0 : Kept qp s) :
    Kept qp (wrPacket s k h data) := by
  unfold wrPacket
  repeat' with_reducible first | assumption | apply requestPacket_kept | apply request_kept

theorem sigPacket_kept {qp : List Instr} {s : State} (k : PortId) (h : BitVec 256) (data : List Byte) (h0 : Kept qp s) :
    Kept qp (sigPacket s k h data) := by
  unfold sigPacket
  repeat' first
    | (with_reducible first | assumption | apply requestPacket_kept | apply answer_kept | apply xlateRefused_kept
                            | apply arriveSig_kept | apply holeRefused_kept)
    | split

theorem recAnswered_kept {qp : List Instr} {s : State} (f : FwdReq) (st : Byte) (h0 : Kept qp s) :
    Kept qp (recAnswered s f st) := by
  unfold recAnswered
  repeat' first
    | (with_reducible first | assumption | apply recSent_kept | apply recDrop_kept)
    | split

theorem rspPacket_kept {qp : List Instr} {s : State} (k : PortId) (h : BitVec 256) (data : List Byte) (h0 : Kept qp s) :
    Kept qp (rspPacket s k h data) := by
  unfold rspPacket
  repeat' first
    | (with_reducible first | assumption | apply kept_of)
    | simp only [kept_mk]
    | (with_reducible first | apply malformed_kept | apply recAnswered_kept | apply fwdDone_kept)
    | split

theorem echoPacket_kept {qp : List Instr} {s : State} (k : PortId) (h : BitVec 256) (data : List Byte) (h0 : Kept qp s) :
    Kept qp (echoPacket s k h data) := by
  unfold echoPacket
  repeat' with_reducible first | assumption | intro _ | apply kept_ite | apply portMsg_kept | apply malformed_kept

theorem packetIn_kept {qp : List Instr} {s : State} (k : PortId) (h : BitVec 256) (data : List Byte) (h0 : Kept qp s) :
    Kept qp (packetIn s k h data) := by
  unfold packetIn
  repeat' with_reducible first | assumption | intro _ | apply kept_ite | apply rdPacket_kept | apply wrPacket_kept
                               | apply sigPacket_kept | apply rspPacket_kept | apply echoPacket_kept | apply malformed_kept
                               | apply refusePacket_kept

theorem onPort_kept {qp : List Instr} {s : State} (k : PortId) (h : BitVec 256) (n : Nat) (f : State → State) (h0 : Kept qp s)
    (h4 : ∀ y0, Kept qp y0 → Kept qp (f y0)) :
    Kept qp (onPort s k h n f) := by
  unfold onPort
  repeat' first
    | (with_reducible first | intro _ | apply kept_ite | apply portFlush_kept)
    | apply_assumption

theorem logPort_kept {qp : List Instr} {s : State} (k : PortId) (h0 : Kept qp s) :
    Kept qp (logPort s k) := by
  unfold logPort
  repeat' with_reducible first | assumption | apply logRec_kept

theorem endForwards_kept {qp : List Instr} {s : State} (k : PortId) (records : Bool) (h0 : Kept qp s) :
    Kept qp (endForwards s k records) := by
  unfold endForwards
  repeat' first
    | (with_reducible first | assumption | intro _ | apply kept_foldl | apply kept_ite | apply kept_of)
    | simp only [kept_mk]
    | (with_reducible first | apply recAnswered_kept | apply fwdDone_kept)

theorem retrain_kept {qp : List Instr} {s : State} (k : PortId) (h0 : Kept qp s) :
    Kept qp (retrain s k) := by
  unfold retrain
  repeat' with_reducible first | assumption | intro _ | apply kept_ite | apply State.setPort_kept | apply endForwards_kept
                               | apply dropHolds_kept

theorem dropPacket_kept {qp : List Instr} {s : State} (x : TxPkt) (h0 : Kept qp s) :
    Kept qp (dropPacket s x) := by
  unfold dropPacket
  repeat' first
    | (with_reducible first | assumption | apply portIdle_kept | apply poolLeave_kept)
    | split

theorem forgetFrom_kept {qp : List Instr} {s : State} (k : PortId) (h0 : Kept qp s) :
    Kept qp (forgetFrom s k) := h0

theorem portStop_kept {qp : List Instr} {s : State} (k : PortId) (state : Byte) (h0 : Kept qp s) :
    Kept qp (portStop s k state) := by
  unfold portStop
  repeat' with_reducible first | assumption | apply kept_foldl | apply State.setPort_kept | apply condEnd_kept
                               | apply endForwards_kept | apply forgetFrom_kept | apply dropPacket_kept

theorem portDown_kept {qp : List Instr} {s : State} (k : PortId) (h0 : Kept qp s) :
    Kept qp (portDown s k) := by
  unfold portDown
  repeat' with_reducible first | assumption | apply logPort_kept | apply portStop_kept | apply condStart_kept

theorem firstTrain_kept {qp : List Instr} {s : State} (k : PortId) (h0 : Kept qp s) :
    Kept qp (firstTrain s k) := by
  unfold firstTrain
  repeat' with_reducible first | assumption | apply condEnd_kept | apply State.modPort_kept

theorem laneFailed_kept {qp : List Instr} {s : State} (k : PortId) (lane : Nat) (h0 : Kept qp s) :
    Kept qp (laneFailed s k lane) := by
  unfold laneFailed
  repeat' with_reducible first | assumption | intro _ | apply kept_ite | apply State.setPort_kept | apply logPort_kept
                               | apply retrain_kept

theorem resend_kept {qp : List Instr} {s : State} (k : PortId) (fresh : Bool) (h0 : Kept qp s) :
    Kept qp (resend s k fresh) := h0

theorem trained_kept {qp : List Instr} {s : State} (k : PortId) (bad : BitVec 17) (c1 : W16) (c2 : W16) (c3 : W16)
    (peerSeq : BitVec 12) (h0 : Kept qp s) :
    Kept qp (trained s k bad c1 c2 c3 peerSeq) := by
  unfold trained
  repeat' first
    | (with_reducible first | assumption | intro _ | apply kept_ite | apply kept_of)
    | simp only [kept_mk]
    | (with_reducible first | apply portDown_kept | apply State.setPort_kept | apply State.emit_kept | apply condEnd_kept
                            | apply condStart_kept | apply portFlush_kept | apply resend_kept)

theorem trainingDone_kept {qp : List Instr} {s : State} (k : PortId) (good : Bool) (bad : BitVec 17) (c1 : W16) (c2 : W16)
    (c3 : W16) (peerSeq : BitVec 12) (h0 : Kept qp s) :
    Kept qp (trainingDone s k good bad c1 c2 c3 peerSeq) := by
  unfold trainingDone
  repeat' with_reducible first | assumption | intro _ | apply kept_ite | apply trained_kept | apply State.setPort_kept
                               | apply portDown_kept

theorem retrainReq_kept {qp : List Instr} {s : State} (k : PortId) (v : Nat) (h0 : Kept qp s) :
    Kept qp (retrainReq s k v).1 := by
  unfold retrainReq
  try dsimp only
  repeat' first
    | (with_reducible first | assumption | apply State.modPort_kept | apply retrain_kept | apply firstTrain_kept)
    | split

theorem portEnable_kept {qp : List Instr} {s : State} (k : PortId) (v : Nat) (h0 : Kept qp s) :
    Kept qp (portEnable s k v).1 := by
  unfold portEnable
  try dsimp only
  repeat' first
    | (with_reducible first | assumption | apply State.setPort_kept | apply condEnd_kept | apply portStop_kept
                            | apply retrain_kept | apply logRefused_kept | apply firstTrain_kept | apply State.setDomain_kept)
    | split

theorem fwdMatrix_kept {qp : List Instr} {s : State} (k : PortId) (v : Nat) (h0 : Kept qp s) :
    Kept qp (fwdMatrix s k v).1 := by
  unfold fwdMatrix
  repeat' first
    | (with_reducible first | assumption | apply logRefused_kept | apply State.modPort_kept)
    | split

theorem takePackets_kept {qp : List Instr} (k : PortId) (x1 : Nat) {x2 : State} (h2 : Kept qp x2) :
    Kept qp (takePackets k x1 x2) := by
  revert h2
  fun_induction takePackets k x1 x2
  all_goals intro h2
  repeat' first
    | with_reducible apply packetIn_kept
    | apply_assumption

theorem nakIn_kept {qp : List Instr} {s : State} (k : PortId) (aseq : BitVec 12) (h0 : Kept qp s) :
    Kept qp (nakIn s k aseq) := by
  unfold nakIn
  repeat' with_reducible first | assumption | intro _ | apply kept_ite | apply State.setPort_kept | apply retrain_kept
                               | apply portFlush_kept | apply resend_kept

theorem sendNak_kept {qp : List Instr} {s : State} (k : PortId) (h0 : Kept qp s) :
    Kept qp (sendNak s k) := h0

theorem laneErrors_kept {qp : List Instr} {s : State} (k : PortId) (lanes : List (Fin 17)) (h0 : Kept qp s) :
    Kept qp (laneErrors s k lanes) := by
  unfold laneErrors
  repeat' with_reducible first | assumption | intro _ | apply kept_foldl | apply kept_ite | apply State.setPort_kept
                               | apply laneFailed_kept

theorem flitHeader_kept {qp : List Instr} {s : State} (k : PortId) (f : Nat) (h0 : Kept qp s) :
    Kept qp (flitHeader s k f) := h0

theorem goodFlit_kept {qp : List Instr} {s : State} (k : PortId) (flit : List Byte) (h0 : Kept qp s) :
    Kept qp (goodFlit s k flit) := by
  unfold goodFlit
  repeat' with_reducible first | assumption | intro _ | apply kept_ite | apply State.modPort_kept | apply flitHeader_kept
                               | apply portFlush_kept | apply takePackets_kept | apply sendNak_kept | apply nakIn_kept

theorem flitIn_kept {qp : List Instr} {s : State} (k : PortId) (corrected : W16) (bad : List (Fin 17)) (flit : List Byte)
    (h0 : Kept qp s) :
    Kept qp (flitIn s k corrected bad flit) := by
  unfold flitIn
  repeat' with_reducible first | assumption | intro _ | apply kept_ite | apply laneErrors_kept | apply State.setPort_kept
                               | apply goodFlit_kept | apply sendNak_kept

theorem sendPending_kept {qp : List Instr} {s : State} (v : Nat) (h0 : Kept qp s) :
    Kept qp (sendPending s v) := by
  unfold sendPending
  repeat' first
    | (with_reducible first | assumption | intro _ | apply kept_ite | apply kept_of)
    | simp only [kept_mk]
    | with_reducible apply hostMsix_kept

theorem msixWrite_kept {qp : List Instr} {s : State} (v : Nat) (e : BitVec 128) (h0 : Kept qp s) :
    Kept qp (msixWrite s v e) := by
  unfold msixWrite
  repeat' first
    | (with_reducible first | assumption | apply kept_of)
    | simp only [kept_mk]
    | with_reducible apply sendPending_kept

theorem msixUnmask_kept {qp : List Instr} {s : State} (x1 : Option (Fin 64)) (h0 : Kept qp s) :
    Kept qp (msixUnmask s x1) := by
  unfold msixUnmask
  repeat' first
    | (with_reducible first | assumption | apply kept_foldl | apply kept_of)
    | simp only [kept_mk]
    | (with_reducible first | apply msixWrite_kept | apply sendPending_kept)
    | split

theorem msixRegionWrite_kept {qp : List Instr} {s : State} (off : Nat) (data : List Byte) (h0 : Kept qp s) :
    Kept qp (msixRegionWrite s off data).1 := by
  unfold msixRegionWrite
  try dsimp only
  repeat' first
    | (with_reducible first | assumption | apply msixWrite_kept)
    | split

theorem hostRead_kept {qp : List Instr} {s : State} (off : Nat) (n : Nat) (tag : BitVec 10) (h0 : Kept qp s) :
    Kept qp (hostRead s off n tag) := by
  unfold hostRead
  repeat' with_reducible first | assumption | intro _ | apply kept_ite | apply answer_kept | apply pageRequest_kept

theorem hostWrite_kept {qp : List Instr} {s : State} (off : Nat) (data : List Byte) (h0 : Kept qp s) :
    Kept qp (hostWrite s off data) := by
  unfold hostWrite
  repeat' with_reducible first | assumption | intro _ | apply kept_ite | apply answer_kept | apply pageRequest_kept
                               | apply msixRegionWrite_kept

theorem aditAccess_kept {qp : List Instr} {s : State} (wr : Bool) (off : Nat) (n : Nat) (data : List Byte) (tag : BitVec 10)
    (h0 : Kept qp s) :
    Kept qp (aditAccess s wr off n data tag) := by
  unfold aditAccess
  repeat' first
    | (with_reducible first | assumption | intro _ | apply kept_ite | apply kept_of)
    | simp only [kept_mk]
    | (with_reducible first | apply answer_kept | apply startXfer_kept)

theorem aditPageWrite_kept {qp : List Instr} {s : State} (v : Nat) (h0 : Kept qp s) :
    Kept qp (aditPageWrite s v).1 := by
  unfold aditPageWrite
  repeat' first
    | (with_reducible first | assumption | intro _ | apply kept_ite2 | apply kept_of)
    | simp only [kept_mk]

theorem hostLinkUp_kept {qp : List Instr} {s : State} (full : Bool) (h0 : Kept qp s) :
    Kept qp (hostLinkUp s full) := by
  unfold hostLinkUp
  repeat' first
    | (with_reducible first | intro _ | apply kept_ite | apply condEnd_kept)
    | apply_assumption

theorem hostPortReset_kept {qp : List Instr} {s : State} (k : HostReset) (h0 : Kept qp s) :
    Kept qp (hostPortReset s k) := by
  unfold hostPortReset
  repeat' first
    | (with_reducible first | assumption | apply kept_of)
    | simp only [kept_mk]
    | with_reducible apply condStart_kept
    | split

end Sys2Proof.Machine
end

