-- ==== Sys2Proof/Laws/KeptFace.lean ====
section
/-! SUPPORT. What the operations of engines, faces, foremen, life states and resets keep (`Kept`). -/

namespace Sys2Proof.Machine

set_option linter.unusedSimpArgs false

theorem taskMemberDone_kept {qp : List Instr} {s : State} (q : Nat) (seq : Nat) (l : Nat) (st : Byte) (assay : W64)
    (h0 : Kept qp s) :
    Kept qp (taskMemberDone s q seq l st assay) := by
  unfold taskMemberDone
  try dsimp only
  repeat' first
    | (with_reducible first | assumption | apply putStepOp_kept | apply stepOpDone_kept)
    | split

theorem modTask_kept {qp : List Instr} {s : State} (f : Nat) (g : FaceTask → FaceTask) (h0 : Kept qp s) :
    Kept qp (modTask s f g) := h0

theorem taskFail_kept {qp : List Instr} {s : State} (f : Nat) (uid : Nat) (st : Byte) (tag : W16) (h0 : Kept qp s) :
    Kept qp (taskFail s f uid st tag) := by
  unfold taskFail
  repeat' with_reducible first | assumption | intro _ | apply kept_ite | apply modTask_kept | apply faceWake_kept
                               | apply withdrawTarget_kept

theorem dropTask_kept {qp : List Instr} {s : State} (r : TaskReq) (h0 : Kept qp s) :
    Kept qp (dropTask s r) := h0

theorem refuseTask_kept {qp : List Instr} {s : State} (f : Nat) (r : TaskReq) (st : Byte) (tag : optParam (Option W16) none)
    (h0 : Kept qp s) :
    Kept qp (refuseTask s f r st tag) := by
  unfold refuseTask
  repeat' with_reducible first | assumption | apply taskMemberDone_kept | apply dropTask_kept | apply State.modFace_kept

theorem runTask_kept {qp : List Instr} {s : State} (f : Nat) (r : TaskReq) (load : Nat) (h0 : Kept qp s) :
    Kept qp (runTask s f r load) := by
  unfold runTask
  repeat' first
    | (with_reducible first | assumption | apply refuseTask_kept | apply logRefused_kept | apply dropTask_kept
                            | apply State.modFace_kept)
    | split

theorem taskStart_kept {qp : List Instr} {s : State} (f : Nat) (h0 : Kept qp s) :
    Kept qp (taskStart s f) := by
  unfold taskStart
  try dsimp only
  repeat' first
    | (with_reducible first | assumption | apply refuseTask_kept | apply cleanOnly_kept | apply fetchRange_kept
                            | apply innerDrop_kept | apply runTask_kept | apply State.modFace_kept)
    | split
    | (with_reducible first | refine chk_ok ?_ (by assumption) | refine chk_wait ?_ (by assumption)
                            | refine chk_fail ?_ (by assumption))

theorem seqEnter_kept {qp : List Instr} (f : Nat) (x1 : Nat) {x2 : State} (h2 : Kept qp x2) :
    Kept qp (seqEnter f x1 x2) := by
  revert h2
  fun_induction seqEnter f x1 x2
  all_goals intro h2
  repeat' first
    | (with_reducible first | apply taskFail_kept | apply modTask_kept | refine newReq_kept ?_ (by assumption))
    | apply_assumption

theorem entered_kept {qp : List Instr} {s : State} (f : Nat) (h0 : Kept qp s) :
    Kept qp (entered s f) := by
  unfold entered
  repeat' with_reducible first | assumption | apply seqEnter_kept

theorem controlFail_kept {qp : List Instr} {s : State} (f : Nat) (d : BitVec 256) (st : Byte) (h0 : Kept qp s) :
    Kept qp (controlFail s f d st) := by
  unfold controlFail
  repeat' first
    | (with_reducible first | assumption | apply kept_of)
    | simp only [kept_mk]
    | with_reducible apply taskFail_kept

theorem goTo_kept {qp : List Instr} {s : State} (f : Nat) (pc : Nat) (cycles : optParam Nat 1) (h0 : Kept qp s) :
    Kept qp (goTo s f pc cycles) := h0

theorem setx_kept {qp : List Instr} {s0 : State} (f : Nat) (h0 : Kept qp s0) :
    Kept qp (setx s0 f) := by
  unfold setx
  try dsimp only
  repeat' first
    | (with_reducible first | assumption | apply entered_kept | apply goTo_kept | apply State.setFace_kept | apply controlFail_kept)
    | split

theorem setvl_kept {qp : List Instr} {s0 : State} (f : Nat) (h0 : Kept qp s0) :
    Kept qp (setvl s0 f) := by
  unfold setvl
  try dsimp only
  repeat' first
    | (with_reducible first | assumption | apply entered_kept | apply controlFail_kept | apply goTo_kept | apply State.modFace_kept)
    | split

theorem loopOpen_kept {qp : List Instr} {s0 : State} (f : Nat) (h0 : Kept qp s0) :
    Kept qp (loopOpen s0 f) := by
  unfold loopOpen
  try dsimp only
  repeat' first
    | (with_reducible first | assumption | apply entered_kept | apply controlFail_kept | apply goTo_kept | apply modTask_kept
                            | apply State.setFace_kept)
    | split

theorem endl_kept {qp : List Instr} {s0 : State} (f : Nat) (h0 : Kept qp s0) :
    Kept qp (endl s0 f) := by
  unfold endl
  try dsimp only
  repeat' first
    | (with_reducible first | assumption | apply entered_kept | apply goTo_kept | apply modTask_kept | apply State.setFace_kept)
    | split

theorem brCond_kept {qp : List Instr} {s : State} (c : Face) (t : FaceTask) (l : Nat) (d : BitVec 256) (h0 : Kept qp s) :
    Kept qp (brCond s c t l d).1 := by
  unfold brCond
  try dsimp only
  repeat' first
    | (with_reducible first | assumption | apply tallyRangeFault_kept)
    | split

theorem branch_kept {qp : List Instr} {s0 : State} (f : Nat) (h0 : Kept qp s0) :
    Kept qp (branch s0 f) := by
  unfold branch
  try dsimp only
  repeat' first
    | (with_reducible first | assumption | apply entered_kept | apply brCond_kept | apply withTag_kept | apply controlFail_kept
                            | apply goTo_kept)
    | split
    | with_reducible refine kept_fst ?_ (by assumption)

theorem waitt_kept {qp : List Instr} {s0 : State} (f : Nat) (h0 : Kept qp s0) :
    Kept qp (waitt s0 f) := by
  unfold waitt
  try dsimp only
  repeat' first
    | (with_reducible first | assumption | apply entered_kept | apply controlFail_kept | apply innerWatch_kept
                            | apply withTag_kept | apply goTo_kept | apply modTask_kept)
    | split
    | with_reducible refine kept_fst ?_ (by assumption)

theorem waittTimeout_kept {qp : List Instr} {s : State} (f : Nat) (h0 : Kept qp s) :
    Kept qp (waittTimeout s f) := by
  unfold waittTimeout
  try dsimp only
  repeat' first
    | (with_reducible first | assumption | apply controlFail_kept | apply faceWake_kept | apply withdrawTarget_kept)
    | split

theorem seqTally_kept {qp : List Instr} {s0 : State} (f : Nat) (h0 : Kept qp s0) :
    Kept qp (seqTally s0 f) := by
  unfold seqTally
  try dsimp only
  repeat' first
    | (with_reducible first | assumption | apply entered_kept | apply controlFail_kept | apply tallyOp_kept
                            | apply withTag_kept | apply goTo_kept)
    | split

theorem seqFence_kept {qp : List Instr} {s0 : State} (f : Nat) (h0 : Kept qp s0) :
    Kept qp (seqFence s0 f) := by
  unfold seqFence
  try dsimp only
  repeat' first
    | (with_reducible first | assumption | apply entered_kept | apply goTo_kept)
    | split

theorem faceEnd_kept {qp : List Instr} {s0 : State} (f : Nat) (h0 : Kept qp s0) :
    Kept qp (faceEnd s0 f) := by
  unfold faceEnd
  try dsimp only
  repeat' first
    | (with_reducible first | assumption | apply entered_kept | apply modTask_kept)
    | split

theorem taskCompletion_kept {qp : List Instr} {s0 : State} (f : Nat) (h0 : Kept qp s0) :
    Kept qp (taskCompletion s0 f) := by
  unfold taskCompletion
  try dsimp only
  repeat' first
    | (with_reducible first | assumption | apply entered_kept | apply taskMemberDone_kept | apply State.setFace_kept)
    | split

theorem putEngOp_kept {qp : List Instr} {s : State} (f : Nat) (o : EngOp) (h0 : Kept qp s) :
    Kept qp (putEngOp s f o) := h0

theorem engineDone_kept {qp : List Instr} {s00 : State} (f : Nat) (i : Nat) (h0 : Kept qp s00) :
    Kept qp (engineDone s00 f i) := by
  unfold engineDone
  try dsimp only
  repeat' first
    | (with_reducible first | assumption | apply entered_kept | apply State.modFace_kept | apply modTask_kept | apply taskFail_kept)
    | split

theorem sramWriteBack_kept {qp : List Instr} {s : State} (f : Nat) (h0 : Kept qp s) :
    Kept qp (sramWriteBack s f) := by
  unfold sramWriteBack
  repeat' first
    | (with_reducible first | assumption | apply kept_of)
    | simp only [kept_mk]
    | with_reducible apply State.modFace_kept
    | split

theorem readSpan_kept {qp : List Instr} {s : State} (f : Nat) (ctx : BitVec 6) (r : Span) (h0 : Kept qp s) :
    Kept qp (readSpan s f ctx r).1 := by
  unfold readSpan
  repeat' with_reducible first | assumption | intro _ | apply kept_foldl2 | apply sramRead_kept

theorem engWrite_kept {qp : List Instr} {s : State} (f : Nat) (ctx : BitVec 6) (o : Nat) (bs : List Byte) (h0 : Kept qp s) :
    Kept qp (engWrite s f ctx o bs).1 := by
  unfold engWrite
  repeat' with_reducible first | assumption | apply sramWrite_kept

theorem engEnd_kept {qp : List Instr} {s : State} (f : Nat) (o : EngOp) (st : Byte) (fl : List Flags) (h0 : Kept qp s) :
    Kept qp (engEnd s f o st fl) := h0

theorem mxBusyFor_kept {qp : List Instr} {s : State} (f : Nat) (n : Nat) (h0 : Kept qp s) :
    Kept qp (mxBusyFor s f n) := h0

theorem vxBusyFor_kept {qp : List Instr} {s : State} (f : Nat) (n : Nat) (h0 : Kept qp s) :
    Kept qp (vxBusyFor s f n) := h0

theorem mxEnd_kept {qp : List Instr} {before : State} {s : State} (f : Nat) (o : EngOp) (st : Byte) (fl : List Flags)
    (h1 : Kept qp s) :
    Kept qp (mxEnd before s f o st fl) := by
  unfold mxEnd
  repeat' with_reducible first | assumption | apply engEnd_kept | apply mxBusyFor_kept | apply withTag_kept

theorem vxEnd_kept {qp : List Instr} {before : State} {s : State} (f : Nat) (o : EngOp) (st : Byte) (fl : List Flags)
    (h1 : Kept qp s) :
    Kept qp (vxEnd before s f o st fl) := by
  unfold vxEnd
  repeat' with_reducible first | assumption | apply engEnd_kept | apply vxBusyFor_kept | apply withTag_kept

theorem mma_kept {qp : List Instr} {s : State} (f : Nat) (i : Nat) (h0 : Kept qp s) :
    Kept qp (mma s f i) := by
  unfold mma
  repeat' first
    | (with_reducible first | assumption | apply readSpan_kept | apply State.modFace_kept | apply mxEnd_kept)
    | split

theorem mxvRows_kept {qp : List Instr} {s : State} (f : Nat) (ctx : BitVec 6) (o : EngOp) (rows : Nat) (h0 : Kept qp s) :
    Kept qp (mxvRows s f ctx o rows).1 := by
  unfold mxvRows
  repeat' with_reducible first | assumption | intro _ | apply kept_foldl2 | apply kept_ite2 | apply readSpan_kept
                               | apply State.modFace_kept | apply engWrite_kept

theorem mxv_kept {qp : List Instr} {s : State} (f : Nat) (i : Nat) (h0 : Kept qp s) :
    Kept qp (mxv s f i) := by
  unfold mxv
  repeat' first
    | (with_reducible first | assumption | apply mxvRows_kept | apply mxEnd_kept)
    | split

theorem mstoreRow_kept {qp : List Instr} (f : Nat) (ctx : BitVec 6) (o : EngOp) (g : FaceFmt) {a : State × Byte × List Flags}
    (r : Nat) (h4 : Kept qp a.1) :
    Kept qp (mstoreRow f ctx o g a r).1 := by
  unfold mstoreRow
  repeat' with_reducible first | assumption | apply engWrite_kept | apply State.setFace_kept

theorem mstore_kept {qp : List Instr} {s : State} (f : Nat) (i : Nat) (h0 : Kept qp s) :
    Kept qp (mstore s f i) := by
  unfold mstore
  repeat' first
    | (with_reducible first | assumption | apply kept_foldl2 | apply mstoreRow_kept | apply mxEnd_kept)
    | split

theorem readBeat_kept {qp : List Instr} {s : State} (f : Nat) (ctx : BitVec 6) (o : EngOp) (x : ChainStream) (j : Nat)
    (h0 : Kept qp s) :
    Kept qp (readBeat s f ctx o x j).1 := by
  unfold readBeat
  repeat' first
    | (with_reducible first | assumption | apply readSpan_kept)
    | split

theorem packedIn_kept {qp : List Instr} {s : State} (f : Nat) (ctx : BitVec 6) (o : EngOp) (x : ChainStream) (g : FaceFmt)
    (used : Nat) (n : Nat) (h0 : Kept qp s) :
    Kept qp (packedIn s f ctx o x g used n).1 := by
  unfold packedIn
  repeat' first
    | (with_reducible first | assumption | apply readSpan_kept)
    | split

theorem readExpand_kept {qp : List Instr} {s : State} (f : Nat) (ctx : BitVec 6) (o : EngOp) (used : Nat) (h0 : Kept qp s) :
    Kept qp (readExpand s f ctx o used).1 := by
  unfold readExpand
  try dsimp only
  repeat' first
    | (with_reducible first | assumption | apply packedIn_kept)
    | split

theorem writeBeat_kept {qp : List Instr} {s : State} (f : Nat) (ctx : BitVec 6) (o : EngOp) (x : ChainStream) (j : Nat)
    (codes : List Nat) (scales : List Byte) (h0 : Kept qp s) :
    Kept qp (writeBeat s f ctx o x j codes scales).1 := by
  unfold writeBeat
  repeat' first
    | (with_reducible first | assumption | intro _ | apply kept_foldl2 | apply State.modFace_kept | apply engWrite_kept)
    | split

theorem packElem_kept {qp : List Instr} {s : State} (f : Nat) (ctx : BitVec 6) (o : EngOp) (code : Nat) (r : ChainRun)
    (h0 : Kept qp s) :
    Kept qp (packElem s f ctx o code r).1 := by
  unfold packElem
  try dsimp only
  repeat' first
    | (with_reducible first | assumption | apply State.modFace_kept | apply engWrite_kept)
    | split

theorem compressBeat_kept {qp : List Instr} {s : State} (f : Nat) (ctx : BitVec 6) (o : EngOp) (codes : List Nat) (r : ChainRun)
    (h0 : Kept qp s) :
    Kept qp (compressBeat s f ctx o codes r).1 := by
  unfold compressBeat
  repeat' with_reducible first | assumption | intro _ | apply kept_foldl2 | apply kept_ite2 | apply packElem_kept

theorem freeScales_kept {qp : List Instr} (x0 : Nat) {x1 : State} (h1 : Kept qp x1) :
    Kept qp (freeScales x0 x1).1 := by
  revert h1
  fun_induction freeScales x0 x1
  all_goals intro h1
  repeat' first
    | (with_reducible first | refine kept_fst ?_ (by assumption) | refine newFree_kept ?_ (by assumption))
    | apply_assumption

theorem compressEnd_kept {qp : List Instr} {s : State} (f : Nat) (ctx : BitVec 6) (o : EngOp) (r : ChainRun) (h0 : Kept qp s) :
    Kept qp (compressEnd s f ctx o r).1 := by
  unfold compressEnd
  try dsimp only
  repeat' first
    | (with_reducible first | assumption | intro _ | apply kept_foldl2 | apply freeScales_kept | apply engWrite_kept)
    | split

theorem sinkBeat_kept {qp : List Instr} {s : State} (f : Nat) (ctx : BitVec 6) (o : EngOp) (j : Nat) (b : Beat) (r : ChainRun)
    (h0 : Kept qp s) :
    Kept qp (sinkBeat s f ctx o j b r).1 := by
  unfold sinkBeat
  try dsimp only
  repeat' first
    | (with_reducible first | assumption | apply State.setFace_kept | apply writeBeat_kept | apply compressBeat_kept)
    | split

theorem readInputs_kept {qp : List Instr} (f : Nat) (ctx : BitVec 6) (o : EngOp) (j : Nat) {a : State × ChainRun}
    (h4 : Kept qp a.1) :
    Kept qp (readInputs f ctx o j a).1 := by
  unfold readInputs
  repeat' with_reducible first | assumption | intro _ | apply kept_foldl2 | apply kept_ite2 | apply readExpand_kept
                               | apply readBeat_kept

theorem chainBeat_kept {qp : List Instr} (f : Nat) (ctx : BitVec 6) (o : EngOp) {a : State × ChainRun} (j : Nat)
    (h3 : Kept qp a.1) :
    Kept qp (chainBeat f ctx o a j).1 := by
  unfold chainBeat
  try dsimp only
  repeat' first
    | (with_reducible first | assumption | apply readSpan_kept | apply State.modFace_kept | apply readInputs_kept
                            | apply sinkBeat_kept | apply engWrite_kept)
    | split

theorem vchainBeats_kept {qp : List Instr} {s : State} (f : Nat) (ctx : BitVec 6) (o : EngOp) (n : Nat) (h0 : Kept qp s) :
    Kept qp (vchainBeats s f ctx o n).1 := by
  unfold vchainBeats
  repeat' with_reducible first | assumption | intro _ | apply kept_foldl2 | apply kept_ite2 | apply chainBeat_kept
                               | apply compressEnd_kept

theorem vchain_kept {qp : List Instr} {s : State} (f : Nat) (i : Nat) (h0 : Kept qp s) :
    Kept qp (vchain s f i) := by
  unfold vchain
  repeat' first
    | (with_reducible first | assumption | apply vchainBeats_kept | apply vxEnd_kept)
    | split

theorem vhred_kept {qp : List Instr} {s : State} (f : Nat) (i : Nat) (h0 : Kept qp s) :
    Kept qp (vhred s f i) := by
  unfold vhred
  repeat' first
    | (with_reducible first | assumption | apply vxEnd_kept | apply State.setFace_kept)
    | split

theorem planesumOuts_kept {qp : List Instr} {s : State} (f : Nat) (ctx : BitVec 6) (o : EngOp) (n : Nat) (h0 : Kept qp s) :
    Kept qp (planesumOuts s f ctx o n).1 := by
  unfold planesumOuts
  repeat' with_reducible first | assumption | apply readSpan_kept | apply engWrite_kept

theorem planesum_kept {qp : List Instr} {s : State} (f : Nat) (i : Nat) (h0 : Kept qp s) :
    Kept qp (planesum s f i) := by
  unfold planesum
  repeat' first
    | (with_reducible first | assumption | apply planesumOuts_kept | apply vxEnd_kept)
    | split

theorem engStopped_kept {qp : List Instr} {s : State} (f : Nat) (ctx : BitVec 6) (o : EngOp) (start : Nat) (h0 : Kept qp s) :
    Kept qp (engStopped s f ctx o start) := by
  unfold engStopped
  try dsimp only
  repeat' first
    | (with_reducible first | assumption | apply kept_foldl2 | apply vchainBeats_kept | apply mxvRows_kept
                            | apply mstoreRow_kept | apply planesumOuts_kept | apply withTag_kept | apply mxBusyFor_kept
                            | apply vxBusyFor_kept)
    | split

theorem modStep_kept {qp : List Instr} {s : State} (q : Nat) (f : StepRun → StepRun) (h0 : Kept qp s) :
    Kept qp (modStep s q f) := h0

theorem setHead_kept {qp : List Instr} {s : State} (q : Nat) (h : Nat) (h0 : Kept qp s) :
    Kept qp (setHead s q h) := by
  unfold setHead
  repeat' first
    | (with_reducible first | assumption | apply kept_of)
    | simp only [kept_mk]
    | (with_reducible first | apply modStep_kept | apply innerWatch_kept | apply withTag_kept | apply stepWait_kept
                            | apply stepStop_kept)
    | split
    | with_reducible refine kept_fst ?_ (by assumption)

theorem stepDrop_kept {qp : List Instr} {s : State} (q : Nat) (h0 : Kept qp s) :
    Kept qp (stepDrop s q) := h0

theorem loadStep_kept {qp : List Instr} {s : State} (q : Nat) (h0 : Kept qp s) :
    Kept qp (loadStep s q) := by
  unfold loadStep
  try dsimp only
  repeat' first
    | (with_reducible first | assumption | apply cleanOnly_kept | apply fetchRange_kept | apply stepStop_kept
                            | apply stepDrop_kept | apply setHead_kept | apply modStep_kept)
    | split
    | (with_reducible first | refine chk_ok ?_ (by assumption) | refine chk_wait ?_ (by assumption)
                            | refine chk_fail ?_ (by assumption))

theorem startStep_kept {qp : List Instr} {s : State} (q : Nat) (h0 : Kept qp s) :
    Kept qp (startStep s q) := by
  unfold startStep
  repeat' first
    | (with_reducible first | assumption | apply kept_of)
    | simp only [kept_mk]
    | (with_reducible first | apply State.setQueue_kept | apply loadStep_kept)
    | split

theorem startSteps_kept {qp : List Instr} (boundary : Bool) (x1 : Nat) {x2 : State} (h2 : Kept qp x2) :
    Kept qp (startSteps boundary x1 x2) := by
  revert h2
  fun_induction startSteps boundary x1 x2
  all_goals intro h2
  repeat' first
    | with_reducible apply startStep_kept
    | apply_assumption

theorem stepStart_kept {qp : List Instr} {s : State} (h0 : Kept qp s) :
    Kept qp (stepStart s) := by
  unfold stepStart
  repeat' with_reducible first | assumption | apply kept_foldl | apply startSteps_kept | apply loadStep_kept

theorem headSettle_kept {qp : List Instr} {s : State} (q : Nat) (h0 : Kept qp s) :
    Kept qp (headSettle s q) := by
  unfold headSettle
  repeat' first
    | (with_reducible first | assumption | apply stepStop_kept)
    | split

theorem opSignal_kept {qp : List Instr} {s : State} (x : StepRun) (d : BitVec 512) (st : Byte) (h0 : Kept qp s) :
    Kept qp (opSignal s x d st).1 := by
  unfold opSignal
  repeat' first
    | (with_reducible first | assumption | apply tallyOp_kept | apply withTag_kept)
    | split

theorem headDone_kept {qp : List Instr} {s : State} (q : Nat) (x : StepRun) (d : BitVec 512) (st : Byte) (next : Nat)
    (h0 : Kept qp s) :
    Kept qp (headDone s q x d st next) := by
  unfold headDone
  repeat' with_reducible first | assumption | intro _ | apply kept_ite | apply opSignal_kept | apply modStep_kept
                               | apply setHead_kept | apply stepStop_kept

theorem setn_kept {qp : List Instr} {s0 : State} (q : Nat) (h0 : Kept qp s0) :
    Kept qp (setn s0 q) := by
  unfold setn
  try dsimp only
  repeat' first
    | (with_reducible first | assumption | apply headSettle_kept | apply headDone_kept | apply modStep_kept)
    | split

theorem jump_kept {qp : List Instr} {s0 : State} (q : Nat) (h0 : Kept qp s0) :
    Kept qp (jump s0 q) := by
  unfold jump
  try dsimp only
  repeat' first
    | (with_reducible first | assumption | apply headSettle_kept | apply headDone_kept | apply modStep_kept
                            | apply withTag_kept | apply tallyRangeFault_kept)
    | split

theorem signalOp_kept {qp : List Instr} {s0 : State} (q : Nat) (h0 : Kept qp s0) :
    Kept qp (signalOp s0 q) := by
  unfold signalOp
  try dsimp only
  repeat' first
    | (with_reducible first | assumption | apply headSettle_kept | apply tallyOp_kept | apply headDone_kept | apply withTag_kept)
    | split

theorem waitw_kept {qp : List Instr} {s0 : State} (q : Nat) (h0 : Kept qp s0) :
    Kept qp (waitw s0 q) := by
  unfold waitw
  try dsimp only
  repeat' first
    | (with_reducible first | assumption | apply headSettle_kept | apply headDone_kept)
    | split

theorem readTokens_kept {qp : List Instr} {s : State} (q : Nat) (x : StepRun) (va : Nat) (h0 : Kept qp s) :
    Kept qp (readTokens s q x va).st := by
  unfold readTokens
  repeat' first
    | with_reducible assumption
    | simp only [st_ok, st_cwait, st_cfail, keptD_serve, keptD_drop, keptD_wait, keptD_refuse, keptW_mk, id_eq]
    | (with_reducible first | apply cleanOnly_kept | apply fetchRange_kept | apply stepDrop_kept)
    | split
    | (with_reducible first | refine chk_ok ?_ (by assumption) | refine chk_wait ?_ (by assumption)
                            | refine chk_fail ?_ (by assumption))

theorem emitOp_kept {qp : List Instr} {s0 : State} (q : Nat) (h0 : Kept qp s0) :
    Kept qp (emitOp s0 q) := by
  unfold emitOp
  try dsimp only
  repeat' first
    | (with_reducible first | assumption | apply headSettle_kept | apply readTokens_kept | apply headDone_kept
                            | apply putRecord_kept | apply withTag_kept)
    | split
    | (with_reducible first | refine chk_ok ?_ (by assumption) | refine chk_wait ?_ (by assumption)
                            | refine chk_fail ?_ (by assumption))

theorem stepEnd_kept {qp : List Instr} {s0 : State} (q : Nat) (h0 : Kept qp s0) :
    Kept qp (stepEnd s0 q) := by
  unfold stepEnd
  try dsimp only
  repeat' first
    | (with_reducible first | assumption | apply headSettle_kept | apply readTokens_kept | apply opSignal_kept
                            | apply withTag_kept | apply modStep_kept | apply stepStop_kept)
    | split
    | (with_reducible first | refine chk_ok ?_ (by assumption) | refine chk_wait ?_ (by assumption)
                            | refine chk_fail ?_ (by assumption))

theorem maskBegin_kept {qp : List Instr} {s : State} (q : Nat) (x : StepRun) (o : StepOp) (d : BitVec 512) (h0 : Kept qp s) :
    Kept qp (maskBegin s q x o d) := by
  unfold maskBegin
  repeat' first
    | (with_reducible first | assumption | apply maskRead_kept | apply stepOpDone_kept | apply opDrop_kept)
    | split
    | (with_reducible first | refine chk_ok ?_ (by assumption) | refine chk_wait ?_ (by assumption)
                            | refine chk_fail ?_ (by assumption))

theorem dispatchHead_kept {qp : List Instr} {s : State} (q : Nat) (h0 : Kept qp s) :
    Kept qp (dispatchHead s q) := by
  unfold dispatchHead
  repeat' first
    | (with_reducible first | apply setHead_kept | apply maskBegin_kept)
    | split
    | apply_assumption

theorem headsSettled_kept {qp : List Instr} {s : State} (h0 : Kept qp s) :
    Kept qp (headsSettled s) := by
  unfold headsSettled
  repeat' with_reducible first | assumption | apply kept_foldl | apply headSettle_kept

theorem dispatchNext_kept {qp : List Instr} {s : State} (h0 : Kept qp s) :
    Kept qp (dispatchNext s) := by
  unfold dispatchNext
  repeat' first
    | (with_reducible first | assumption | apply dispatchHead_kept)
    | split

theorem operationDispatch_kept {qp : List Instr} {s0 : State} (h0 : Kept qp s0) :
    Kept qp (operationDispatch s0) := by
  unfold operationDispatch
  repeat' with_reducible first | assumption | apply dispatchNext_kept | apply headsSettled_kept

theorem waitLimitExpiry_kept {qp : List Instr} {s0 : State} (q : Nat) (h0 : Kept qp s0) :
    Kept qp (waitLimitExpiry s0 q) := by
  unfold waitLimitExpiry
  try dsimp only
  repeat' first
    | (with_reducible first | assumption | apply headSettle_kept | apply stepStop_kept)
    | split

theorem giveTask_kept {qp : List Instr} {s : State} (q : Nat) (x : StepRun) (o : StepOp) (d : BitVec 512) (args : List W32)
    (l : Nat) (h0 : Kept qp s) :
    Kept qp (giveTask s q x o d args l) := by
  unfold giveTask
  repeat' with_reducible first | assumption | apply State.setCluster_kept | apply wakeDomain_kept

theorem bindTask_kept {qp : List Instr} {s : State} (q : Nat) (x : StepRun) (o : StepOp) (d : BitVec 512) (ls : List Nat)
    (h0 : Kept qp s) :
    Kept qp (bindTask s q x o d ls) := by
  unfold bindTask
  repeat' with_reducible first | assumption | intro _ | apply kept_foldl | apply putStepOp_kept | apply giveTask_kept

theorem taskOp_kept {qp : List Instr} {s : State} (q : Nat) (h0 : Kept qp s) :
    Kept qp (taskOp s q) := by
  unfold taskOp
  try dsimp only
  repeat' first
    | (with_reducible first | assumption | apply stepOpDone_kept | apply bindTask_kept | apply State.setCluster_kept)
    | split

theorem operationCompletion_kept {qp : List Instr} {s : State} (q : Nat) (h0 : Kept qp s) :
    Kept qp (operationCompletion s q) := by
  unfold operationCompletion
  try dsimp only
  repeat' first
    | (with_reducible first | assumption | apply opSignal_kept | apply modStep_kept | apply stepStop_kept)
    | split

theorem stepCompletion_kept {qp : List Instr} {s : State} (q : Nat) (h0 : Kept qp s) :
    Kept qp (stepCompletion s q) := by
  unfold stepCompletion
  repeat' first
    | (with_reducible first | assumption | apply kept_of)
    | simp only [kept_mk]
    | (with_reducible first | apply stepDrop_kept | apply State.setQueue_kept | apply putRecord_kept)
    | split

theorem abortAll_kept {qp : List Instr} {s : State} (h0 : Kept qp s) :
    Kept qp (abortAll s) := by
  unfold abortAll
  repeat' with_reducible first | assumption | apply kept_foldl | apply queueAbort_kept

theorem logLife_kept {qp : List Instr} {s : State} (old : Byte) (new : Byte) (kind : Nat) (h0 : Kept qp s) :
    Kept qp (logLife s old new kind) := by
  unfold logLife
  repeat' with_reducible first | assumption | apply logPut_kept

theorem lifeTo_kept {qp : List Instr} {s : State} (new : Byte) (kind : optParam Nat 0) (h0 : Kept qp s) :
    Kept qp (lifeTo s new kind) := by
  unfold lifeTo
  repeat' first
    | (with_reducible first | assumption | intro _ | apply kept_ite | apply kept_of)
    | simp only [kept_mk]
    | (with_reducible first | apply logLife_kept | apply msgAll_kept | apply abortAll_kept)

theorem lifeFollow_kept {qp : List Instr} {s : State} (h0 : Kept qp s) :
    Kept qp (lifeFollow s) := by
  unfold lifeFollow
  repeat' with_reducible first | assumption | intro _ | apply kept_ite | apply lifeTo_kept

theorem lifeFatal_kept {qp : List Instr} {s : State} (h0 : Kept qp s) :
    Kept qp (lifeFatal s) := by
  unfold lifeFatal
  repeat' with_reducible first | assumption | intro _ | apply kept_ite | apply lifeTo_kept

theorem stateReq_kept {qp : List Instr} {s : State} (v : Nat) (h0 : Kept qp s) :
    Kept qp (stateReq s v).1 := by
  unfold stateReq
  try dsimp only
  repeat' first
    | (with_reducible first | assumption | apply lifeTo_kept)
    | split

theorem enginesStop_kept {qp : List Instr} {s : State} (f : Nat) (t : FaceTask) (h0 : Kept qp s) :
    Kept qp (enginesStop s f t) := by
  unfold enginesStop
  repeat' first
    | (with_reducible first | assumption | intro _ | apply kept_foldl | apply engStopped_kept)
    | split

theorem hoistsStop_kept {qp : List Instr} {s : State} (p : Nat → Bool) (h0 : Kept qp s) :
    Kept qp (hoistsStop s p) := h0

theorem faceStop_kept {qp : List Instr} {s : State} (f : Nat) (st : Byte) (h0 : Kept qp s) :
    Kept qp (faceStop s f st) := by
  unfold faceStop
  repeat' first
    | (with_reducible first | assumption | apply kept_of)
    | simp only [kept_mk]
    | (with_reducible first | apply wakeDomain_kept | apply enginesStop_kept | apply taskMemberDone_kept
                            | apply State.setFace_kept | apply withdrawTarget_kept | apply State.modFace_kept
                            | apply faceWake_kept | apply innerDrop_kept | apply hoistsStop_kept)
    | split

theorem faceResetBegin_kept {qp : List Instr} {s : State} (f : Nat) (h0 : Kept qp s) :
    Kept qp (faceResetBegin s f) := by
  unfold faceResetBegin
  repeat' with_reducible first | assumption | apply State.modFace_kept | apply faceStop_kept | apply logLife_kept

theorem faceResetDone_kept {qp : List Instr} {s : State} (f : Nat) (h0 : Kept qp s) :
    Kept qp (faceResetDone s f) := by
  unfold faceResetDone
  repeat' with_reducible first | assumption | intro _ | apply kept_ite | apply State.modFace_kept

theorem computeStop_kept {qp : List Instr} {s : State} (h0 : Kept qp s) :
    Kept qp (computeStop s) := by
  unfold computeStop
  repeat' first
    | (with_reducible first | assumption | intro _ | apply kept_foldl | apply kept_of)
    | simp only [kept_mk]
    | (with_reducible first | apply innerDrop_kept | apply hoistsStop_kept | apply faceStop_kept | apply withdraw_kept
                            | apply faceResetDone_kept)

theorem computeBegin_kept {qp : List Instr} {s : State} (h0 : Kept qp s) :
    Kept qp (computeBegin s) := by
  unfold computeBegin
  repeat' first
    | (with_reducible first | assumption | apply kept_of)
    | simp only [kept_mk]
    | (with_reducible first | apply computeStop_kept | apply logLife_kept)

theorem computeResetDone_kept {qp : List Instr} {s : State} (h0 : Kept qp s) :
    Kept qp (computeResetDone s) := by
  unfold computeResetDone
  repeat' first
    | (with_reducible first | assumption | intro _ | apply kept_ite | apply kept_of)
    | simp only [kept_mk]

theorem warmBegin_kept {qp : List Instr} {s : State} (h0 : Kept qp s) :
    Kept qp (warmBegin s) := by
  unfold warmBegin
  repeat' first
    | (with_reducible first | assumption | apply kept_of)
    | simp only [kept_mk]
    | (with_reducible first | apply computeStop_kept | apply lifeTo_kept)

theorem xferTimeout_kept {qp : List Instr} {s : State} (x : Xfer) (h0 : Kept qp s) :
    Kept qp (xferTimeout s x) := by
  unfold xferTimeout
  repeat' first
    | (with_reducible first | assumption | apply kept_of)
    | simp only [kept_mk]
    | with_reducible apply xferDone_kept

theorem drainTimeouts_kept {qp : List Instr} {s : State} (h0 : Kept qp s) :
    Kept qp (drainTimeouts s) := by
  unfold drainTimeouts
  repeat' with_reducible first | assumption | intro _ | apply kept_foldl | apply endForwards_kept | apply dropHolds_kept
                               | apply xferTimeout_kept

theorem warmCleared_kept {qp : List Instr} {s : State} (h0 : Kept qp s) :
    Kept qp (warmCleared s) := h0

theorem warmResetDrainEnd_kept {qp : List Instr} {s : State} (h0 : Kept qp s) :
    Kept qp (warmResetDrainEnd s) := by
  unfold warmResetDrainEnd
  repeat' first
    | (with_reducible first | assumption | apply warmCleared_kept | apply drainTimeouts_kept)
    | split

theorem coldCleared_kept {qp : List Instr} {s : State} (h0 : Kept qp s) :
    Kept qp (coldCleared s) := by
  exact ⟨h0.1, rfl⟩

theorem coldBegin_kept {qp : List Instr} {s : State} (h0 : Kept qp s) :
    Kept qp (coldBegin s) := by
  unfold coldBegin
  repeat' with_reducible first | assumption | apply coldCleared_kept

theorem bootUp_kept {qp : List Instr} {s : State} (h0 : Kept qp s) :
    Kept qp (bootUp s) := h0

theorem coldResetOffEnd_kept {qp : List Instr} {s : State} (h0 : Kept qp s) :
    Kept qp (coldResetOffEnd s) := by
  unfold coldResetOffEnd
  repeat' first
    | (with_reducible first | assumption | apply kept_of)
    | simp only [kept_mk]
    | (with_reducible first | apply bootUp_kept | apply logLife_kept)
    | split

theorem resetBegin_kept {qp : List Instr} {s : State} (v : Nat) (h0 : Kept qp s) :
    Kept qp (resetBegin s v) := by
  unfold resetBegin
  repeat' with_reducible first | assumption | intro _ | apply kept_ite | apply computeBegin_kept | apply warmBegin_kept
                               | apply coldBegin_kept

theorem powerOff_kept {qp : List Instr} {s : State} (h0 : Kept qp s) :
    Kept qp (powerOff s) := by
  unfold powerOff
  repeat' first
    | (with_reducible first | assumption | apply kept_of)
    | simp only [kept_mk]
    | with_reducible apply coldCleared_kept

theorem d00Start_kept {qp : List Instr} {s : State} (node : BitVec 6) (h0 : Kept qp s) :
    Kept qp (d00Start s node) := by
  unfold d00Start
  repeat' first
    | (with_reducible first | assumption | intro _ | apply kept_ite | apply kept_of)
    | simp only [kept_mk]
    | (with_reducible first | apply bootUp_kept | apply logLife_kept)

end Sys2Proof.Machine
end

