-- ==== Sys2Proof/Laws/KeptLife.lean ====
section
/-! SUPPORT. What the operations of service, windows, trust and bring-up keep (`Kept`). -/

namespace Sys2Proof.Machine

set_option linter.unusedSimpArgs false

theorem recount_kept {qp : List Instr} {s : State} (h0 : Kept qp s) :
    Kept qp (recount s) := h0

theorem recountNext_kept {qp : List Instr} {s : State} (h0 : Kept qp s) :
    Kept qp (recountNext s) := h0

theorem recountMany_kept {qp : List Instr} {s : State} (h0 : Kept qp s) :
    Kept qp (recountMany s) := h0

theorem faceFenceBegin_kept {qp : List Instr} {s : State} (f : Nat) (cause : Byte) (h0 : Kept qp s) :
    Kept qp (faceFenceBegin s f cause) := by
  unfold faceFenceBegin
  repeat' with_reducible first | assumption | intro _ | apply kept_ite | apply fenceJob_kept | apply State.modFace_kept
                               | apply faceStop_kept

theorem pickFenceBegin_kept {qp : List Instr} {s : State} (g : Nat) (cause : Byte) (h0 : Kept qp s) :
    Kept qp (pickFenceBegin s g cause) := by
  unfold pickFenceBegin
  repeat' with_reducible first | assumption | intro _ | apply kept_ite | apply fenceJob_kept | apply fencePickNow_kept

theorem rebindTask_kept {qp : List Instr} {s : State} (r : TaskReq) (l : Nat) (h0 : Kept qp s) :
    Kept qp (rebindTask s r l) := by
  unfold rebindTask
  try dsimp only
  repeat' first
    | (with_reducible first | assumption | apply State.setCluster_kept | apply putStepOp_kept)
    | split

theorem heldFenced_kept {qp : List Instr} {s : State} (r : TaskReq) (h0 : Kept qp s) :
    Kept qp (heldFenced s r) := by
  unfold heldFenced
  try dsimp only
  repeat' first
    | (with_reducible first | assumption | apply rebindTask_kept | apply taskMemberDone_kept | apply dropTask_kept)
    | split

theorem faceFencedNow_kept {qp : List Instr} {s : State} (f : Nat) (h0 : Kept qp s) :
    Kept qp (faceFencedNow s f) := by
  unfold faceFencedNow
  try dsimp only
  repeat' first
    | (with_reducible first | assumption | apply kept_foldl | apply State.modFace_kept | apply heldFenced_kept)
    | split

theorem logFence_kept {qp : List Instr} {s : State} (pick : Bool) (idx : Nat) (cause : Byte) (h0 : Kept qp s) :
    Kept qp (logFence s pick idx cause) := by
  unfold logFence
  repeat' with_reducible first | assumption | apply logRec_kept

theorem fenceReport_kept {qp : List Instr} {s : State} (pick : Bool) (idx : Nat) (cause : Byte) (h0 : Kept qp s) :
    Kept qp (fenceReport s pick idx cause) := by
  unfold fenceReport
  repeat' first
    | (with_reducible first | assumption | apply kept_of)
    | simp only [kept_mk]
    | (with_reducible first | apply raiseEmcy_kept | apply logFence_kept)

theorem fenceComplete_kept {qp : List Instr} {s : State} (h0 : Kept qp s) :
    Kept qp (fenceComplete s) := by
  unfold fenceComplete
  repeat' first
    | (with_reducible first | assumption | apply kept_of)
    | simp only [kept_mk]
    | (with_reducible first | apply faceFencedNow_kept | apply recountNext_kept | apply lifeFollow_kept | apply fenceReport_kept)
    | split

theorem colRetired_kept {qp : List Instr} {s : State} (g : Nat) (h0 : Kept qp s) :
    Kept qp (colRetired s g) := h0

theorem retireBegin_kept {qp : List Instr} {s : State} (g : Nat) (h0 : Kept qp s) :
    Kept qp (retireBegin s g) := by
  unfold retireBegin
  repeat' first
    | (with_reducible first | assumption | intro _ | apply kept_ite | apply kept_of)
    | simp only [kept_mk]
    | (with_reducible first | apply recountNext_kept | apply colRetired_kept | apply raiseEmcy_kept | apply logRec_kept)

theorem flogSel_kept {qp : List Instr} {s : State} (v : W32) (h0 : Kept qp s) :
    Kept qp (flogSel s v).1 := by
  unfold flogSel
  repeat' first
    | (with_reducible first | assumption | apply kept_of)
    | simp only [kept_mk]
    | split

theorem flogSavedSel_kept {qp : List Instr} {s : State} (v : W16) (h0 : Kept qp s) :
    Kept qp (flogSavedSel s v).1 := by
  unfold flogSavedSel
  repeat' first
    | (with_reducible first | assumption | apply kept_of)
    | simp only [kept_mk]
    | split

theorem flogClear_kept {qp : List Instr} {s : State} (v : Nat) (h0 : Kept qp s) :
    Kept qp (flogClear s v).1 := by
  unfold flogClear
  repeat' first
    | (with_reducible first | assumption | intro _ | apply kept_ite2 | apply kept_of)
    | simp only [kept_mk]

theorem overrunSteps_kept {qp : List Instr} {s : State} (h0 : Kept qp s) :
    Kept qp (overrunSteps s) := by
  unfold overrunSteps
  repeat' first
    | (with_reducible first | assumption | intro _ | apply kept_foldl | apply kept_of)
    | simp only [kept_mk]
    | with_reducible apply modStep_kept
    | split

theorem boundaryAt_kept {qp : List Instr} {s : State} (stamp : Nat) (h0 : Kept qp s) :
    Kept qp (boundaryAt s stamp) := by
  unfold boundaryAt
  repeat' first
    | (with_reducible first | assumption | apply kept_of)
    | simp only [kept_mk]
    | (with_reducible first | apply overrunSteps_kept | apply startSteps_kept)

theorem windowBoundary_kept {qp : List Instr} {s : State} (h0 : Kept qp s) :
    Kept qp (windowBoundary s) := by
  unfold windowBoundary
  repeat' with_reducible first | assumption | intro _ | apply kept_ite | apply boundaryAt_kept

theorem cadenceAligned_kept {qp : List Instr} {s : State} (h0 : Kept qp s) :
    Kept qp (cadenceAligned s) := by
  unfold cadenceAligned
  repeat' first
    | (with_reducible first | assumption | apply kept_of)
    | simp only [kept_mk]
    | with_reducible apply condEnd_kept

theorem cadenceFallback_kept {qp : List Instr} {s : State} (h0 : Kept qp s) :
    Kept qp (cadenceFallback s) := by
  unfold cadenceFallback
  repeat' first
    | (with_reducible first | assumption | apply kept_of)
    | simp only [kept_mk]
    | with_reducible apply condStart_kept

theorem cadenceEdge_kept {qp : List Instr} {s : State} (h0 : Kept qp s) :
    Kept qp (cadenceEdge s) := by
  unfold cadenceEdge
  repeat' first
    | (with_reducible first | assumption | intro _ | apply kept_ite | apply kept_of)
    | simp only [kept_mk]
    | (with_reducible first | apply boundaryAt_kept | apply cadenceAligned_kept)

theorem cadenceLevel_kept {qp : List Instr} {s : State} (rising : Bool) (h0 : Kept qp s) :
    Kept qp (cadenceLevel s rising) := by
  unfold cadenceLevel
  repeat' with_reducible first | assumption | intro _ | apply kept_ite | apply glitch_kept | apply State.setInput_kept
                               | apply cadenceEdge_kept

theorem cadenceMissed_kept {qp : List Instr} {s : State} (h0 : Kept qp s) :
    Kept qp (cadenceMissed s) := by
  unfold cadenceMissed
  repeat' first
    | (with_reducible first | assumption | intro _ | apply kept_ite | apply kept_of)
    | simp only [kept_mk]
    | (with_reducible first | apply cadenceFallback_kept | apply boundaryAt_kept)

theorem winLenWrite_kept {qp : List Instr} {s : State} (v : Nat) (h0 : Kept qp s) :
    Kept qp (winLenWrite s v).1 := by
  unfold winLenWrite
  repeat' first
    | (with_reducible first | assumption | intro _ | apply kept_ite2 | apply kept_of)
    | simp only [kept_mk]
    | with_reducible apply cadenceAligned_kept

theorem cadAlignWrite_kept {qp : List Instr} {s : State} (v : Nat) (h0 : Kept qp s) :
    Kept qp (cadAlignWrite s v).1 := by
  unfold cadAlignWrite
  repeat' first
    | (with_reducible first | assumption | intro _ | apply kept_ite | apply kept_ite2 | apply kept_of)
    | simp only [kept_mk]
    | with_reducible apply cadenceAligned_kept

theorem logTrust_kept {qp : List Instr} {s : State} (unit : Nat) (st : Byte) (order : Nat) (feat : Nat) (h0 : Kept qp s) :
    Kept qp (logTrust s unit st order feat) := by
  unfold logTrust
  repeat' with_reducible first | assumption | apply logRec_kept

theorem fwImageWrite_kept {qp : List Instr} {s : State} (off : Nat) (data : List Byte) (h0 : Kept qp s) :
    Kept qp (fwImageWrite s off data).1 := by
  unfold fwImageWrite
  repeat' first
    | (with_reducible first | assumption | apply kept_of)
    | simp only [kept_mk]
    | split

theorem fwCommand_kept {qp : List Instr} {s : State} (allowed : List Byte) (f : Trust → Trust) (h0 : Kept qp s) :
    Kept qp (fwCommand s allowed f).1 := by
  unfold fwCommand
  repeat' first
    | (with_reducible first | assumption | intro _ | apply kept_ite2 | apply kept_of)
    | simp only [kept_mk]

theorem fwVerify_kept {qp : List Instr} {s : State} (h0 : Kept qp s) :
    Kept qp (fwVerify s).1 := by
  unfold fwVerify
  repeat' with_reducible first | assumption | apply fwCommand_kept

theorem fwCommit_kept {qp : List Instr} {s : State} (h0 : Kept qp s) :
    Kept qp (fwCommit s).1 := by
  unfold fwCommit
  repeat' with_reducible first | assumption | apply fwCommand_kept

theorem fwActivate_kept {qp : List Instr} {s : State} (h0 : Kept qp s) :
    Kept qp (fwActivate s).1 := by
  unfold fwActivate
  repeat' first
    | (with_reducible first | assumption | intro _ | apply kept_ite2 | apply kept_of)
    | simp only [kept_mk]
    | with_reducible apply fwCommand_kept

theorem fwDiscard_kept {qp : List Instr} {s : State} (h0 : Kept qp s) :
    Kept qp (fwDiscard s).1 := by
  unfold fwDiscard
  repeat' with_reducible first | assumption | apply fwCommand_kept

theorem fwCmd_kept {qp : List Instr} {s : State} (v : Nat) (h0 : Kept qp s) :
    Kept qp (fwCmd s v).1 := by
  unfold fwCmd
  repeat' first
    | (with_reducible first | assumption | intro _ | apply kept_ite2 | apply kept_of)
    | simp only [kept_mk]
    | (with_reducible first | apply fwVerify_kept | apply fwCommit_kept | apply fwActivate_kept | apply fwDiscard_kept)

theorem fwRejected_kept {qp : List Instr} {s : State} (st : Byte) (order : Nat) (h0 : Kept qp s) :
    Kept qp (fwRejected s st order) := by
  unfold fwRejected
  repeat' first
    | (with_reducible first | assumption | apply kept_of)
    | simp only [kept_mk]
    | with_reducible apply logTrust_kept

theorem imageVerified_kept {qp : List Instr} {s : State} (h0 : Kept qp s) :
    Kept qp (imageVerified s) := by
  unfold imageVerified
  repeat' first
    | (with_reducible first | assumption | intro _ | apply kept_ite | apply kept_of)
    | simp only [kept_mk]
    | with_reducible apply fwRejected_kept

theorem flashWriteDone_kept {qp : List Instr} {s : State} (good : Bool) (h0 : Kept qp s) :
    Kept qp (flashWriteDone s good) := by
  unfold flashWriteDone
  repeat' first
    | (with_reducible first | assumption | intro _ | apply kept_ite | apply kept_of)
    | simp only [kept_mk]
    | with_reducible apply fwRejected_kept

theorem imageLoaded_kept {qp : List Instr} {s : State} (h0 : Kept qp s) :
    Kept qp (imageLoaded s) := by
  unfold imageLoaded
  repeat' first
    | (with_reducible first | assumption | apply kept_of)
    | simp only [kept_mk]
    | with_reducible apply condEnd_kept

theorem headframeRestartDone_kept {qp : List Instr} {s : State} (h0 : Kept qp s) :
    Kept qp (headframeRestartDone s) := by
  unfold headframeRestartDone
  repeat' first
    | (with_reducible first | assumption | intro _ | apply kept_ite | apply kept_of)
    | simp only [kept_mk]
    | with_reducible apply imageLoaded_kept

theorem licImageWrite_kept {qp : List Instr} {s : State} (off : Nat) (data : List Byte) (h0 : Kept qp s) :
    Kept qp (licImageWrite s off data).1 := by
  unfold licImageWrite
  repeat' first
    | (with_reducible first | assumption | apply kept_of)
    | simp only [kept_mk]
    | split

theorem licStore_kept {qp : List Instr} {s : State} (h0 : Kept qp s) :
    Kept qp (licStore s).1 := by
  unfold licStore
  repeat' first
    | (with_reducible first | assumption | apply kept_of)
    | simp only [kept_mk]
    | with_reducible apply logTrust_kept
    | split

theorem licEmpty_kept {qp : List Instr} {s : State} (k : Nat) (h0 : Kept qp s) :
    Kept qp (licEmpty s k).1 := by
  unfold licEmpty
  repeat' first
    | (with_reducible first | assumption | intro _ | apply kept_ite2 | apply kept_of)
    | simp only [kept_mk]

theorem licCmd_kept {qp : List Instr} {s : State} (v : Nat) (h0 : Kept qp s) :
    Kept qp (licCmd s v).1 := by
  unfold licCmd
  repeat' first
    | (with_reducible first | assumption | intro _ | apply kept_ite2 | apply kept_of)
    | simp only [kept_mk]
    | (with_reducible first | apply licStore_kept | apply licEmpty_kept)

theorem attNonceWrite_kept {qp : List Instr} {s : State} (off : Nat) (data : List Byte) (h0 : Kept qp s) :
    Kept qp (attNonceWrite s off data).1 := by
  unfold attNonceWrite
  repeat' first
    | (with_reducible first | assumption | apply kept_of)
    | simp only [kept_mk]
    | split

theorem attCmd_kept {qp : List Instr} {s : State} (v : Nat) (h0 : Kept qp s) :
    Kept qp (attCmd s v).1 := by
  unfold attCmd
  repeat' first
    | (with_reducible first | assumption | intro _ | apply kept_ite2 | apply kept_of)
    | simp only [kept_mk]

theorem signingDone_kept {qp : List Instr} {s : State} (h0 : Kept qp s) :
    Kept qp (signingDone s) := by
  unfold signingDone
  repeat' first
    | (with_reducible first | assumption | intro _ | apply kept_ite | apply kept_of)
    | simp only [kept_mk]

theorem warnIf_kept {qp : List Instr} {t : State} (lost : Bool) (st : Byte) (detail : Nat) (h0 : Kept qp t) :
    Kept qp (warnIf t lost st detail).after := by
  unfold warnIf
  repeat' first
    | with_reducible assumption
    | split

theorem stepFatal_kept {qp : List Instr} {t : State} (detail : Nat) (h0 : Kept qp t) :
    Kept qp (stepFatal t detail).after := by
  unfold stepFatal
  repeat' with_reducible assumption

theorem domainUp_kept {qp : List Instr} {s : State} (d : Nat) (h0 : Kept qp s) :
    Kept qp (domainUp s d) := h0

theorem domainsUp_kept {qp : List Instr} {s : State} (fail : Option (Fin 30)) (x2 : List Nat) (h0 : Kept qp s) :
    Kept qp (domainsUp s fail x2).after := by
  revert h0
  fun_induction domainsUp s fail x2
  all_goals intro h0
  repeat' apply_assumption

theorem buStep1_kept {qp : List Instr} {s : State} (e : BringupEnv) (h0 : Kept qp s) :
    Kept qp (buStep1 s e).after := by
  unfold buStep1
  repeat' first
    | (with_reducible first | assumption | intro _ | apply kept_iteU | apply kept_of)
    | simp only [kept_mk]
    | with_reducible apply domainsUp_kept

theorem clearSram_kept {qp : List Instr} {s : State} (gone : Nat → Bool) (h0 : Kept qp s) :
    Kept qp (clearSram s gone) := by
  exact ⟨h0.1, tabWf_filter h0.2 _⟩

theorem step3Domains_kept {qp : List Instr} {s : State} (e : BringupEnv) (h0 : Kept qp s) :
    Kept qp (step3Domains s e).after := by
  unfold step3Domains
  repeat' first
    | (with_reducible first | assumption | apply kept_foldl | apply domainsUp_kept | apply domainUp_kept | apply stepFatal_kept
                            | apply State.setDomain_kept)
    | split

theorem buStep3_kept {qp : List Instr} {s : State} (e : BringupEnv) (h0 : Kept qp s) :
    Kept qp (buStep3 s e).after := by
  unfold buStep3
  repeat' first
    | (with_reducible first | assumption | intro _ | apply kept_iteU | apply kept_of)
    | simp only [kept_mk]
    | (with_reducible first | apply step3Domains_kept | apply clearSram_kept)

theorem applyRepairs_kept {qp : List Instr} {s : State} (h0 : Kept qp s) :
    Kept qp (applyRepairs s) := by
  unfold applyRepairs
  repeat' with_reducible first | assumption | intro _ | apply kept_foldl | apply State.modCol_kept

theorem bindFaces_kept {qp : List Instr} {s : State} (h0 : Kept qp s) :
    Kept qp (bindFaces s) := by
  unfold bindFaces
  repeat' with_reducible first | assumption | intro _ | apply kept_foldl | apply State.modFace_kept

theorem applyMarks_kept {qp : List Instr} {s : State} (h0 : Kept qp s) :
    Kept qp (applyMarks s) := by
  unfold applyMarks
  repeat' first
    | (with_reducible first | assumption | intro _ | apply kept_foldl | apply kept_of)
    | simp only [kept_mk]
    | with_reducible apply State.modCol_kept

theorem buStep2_kept {qp : List Instr} {s : State} (e : BringupEnv) (h0 : Kept qp s) :
    Kept qp (buStep2 s e).after := by
  unfold buStep2
  repeat' first
    | (with_reducible first | assumption | intro _ | apply kept_iteU | apply kept_of)
    | simp only [kept_mk]
    | (with_reducible first | apply recountMany_kept | apply applyMarks_kept | apply bindFaces_kept | apply applyRepairs_kept
                            | apply warnIf_kept)

theorem bringupFence_kept {qp : List Instr} {s : State} (pick : Bool) (idx : Nat) (cause : Byte) (h0 : Kept qp s) :
    Kept qp (bringupFence s pick idx cause) := by
  unfold bringupFence
  repeat' first
    | (with_reducible first | assumption | intro _ | apply kept_ite | apply kept_of)
    | simp only [kept_mk]
    | (with_reducible first | apply fencePickNow_kept | apply faceFencedNow_kept | apply fenceReport_kept | apply recountNext_kept)

theorem buStep4_kept {qp : List Instr} {s : State} (e : BringupEnv) (h0 : Kept qp s) :
    Kept qp (buStep4 s e).after := by
  unfold buStep4
  repeat' with_reducible first | assumption | intro _ | apply kept_foldl | apply kept_iteU | apply State.modStack_kept
                               | apply stepFatal_kept | apply retireBegin_kept | apply bringupFence_kept | apply warnIf_kept

theorem fillMemory_kept {qp : List Instr} {s : State} (t0 : Nat) (h0 : Kept qp s) :
    Kept qp (fillMemory s t0) := by
  exact ⟨h0.1, tabWf_filter h0.2 _⟩

theorem fillFailed_kept {qp : List Instr} {s : State} (g : Nat) (h0 : Kept qp s) :
    Kept qp (fillFailed s g) := by
  unfold fillFailed
  repeat' with_reducible first | assumption | intro _ | apply kept_ite | apply pathFail_kept | apply fenceComplete_kept
                               | apply retireBegin_kept | apply State.modStack_kept

theorem buStep5_kept {qp : List Instr} {s : State} (e : BringupEnv) (t0 : Nat) (h0 : Kept qp s) :
    Kept qp (buStep5 s e t0).after := by
  unfold buStep5
  repeat' first
    | (with_reducible first | assumption | intro _ | apply kept_foldl | apply kept_iteU | apply kept_of)
    | simp only [kept_mk]
    | (with_reducible first | apply fillFailed_kept | apply fillMemory_kept | apply warnIf_kept)

theorem buStep6_kept {qp : List Instr} {s : State} (e : BringupEnv) (h0 : Kept qp s) :
    Kept qp (buStep6 s e).after := by
  unfold buStep6
  repeat' with_reducible first | assumption | intro _ | apply kept_foldl | apply kept_iteU | apply clearSram_kept
                               | apply bringupFence_kept | apply warnIf_kept

theorem buStep7_kept {qp : List Instr} {s : State} (h0 : Kept qp s) :
    Kept qp (buStep7 s).after := by
  unfold buStep7
  repeat' first
    | (with_reducible first | assumption | apply imageLoaded_kept | apply condStart_kept | apply logTrust_kept)
    | split

theorem buStep8_kept {qp : List Instr} {s : State} (h0 : Kept qp s) :
    Kept qp (buStep8 s).after := by
  unfold buStep8
  repeat' first
    | (with_reducible first | assumption | intro _ | apply kept_foldl | apply kept_of)
    | simp only [kept_mk]
    | (with_reducible first | apply logTrust_kept | apply condStart_kept | apply warnIf_kept)

theorem buStep9_kept {qp : List Instr} {s : State} (h0 : Kept qp s) :
    Kept qp (buStep9 s).after := by
  unfold buStep9
  repeat' first
    | (with_reducible first | assumption | intro _ | apply kept_foldl | apply kept_ite | apply kept_of)
    | simp only [kept_mk]
    | (with_reducible first | apply domainUp_kept | apply State.modPort_kept)

theorem trainPort_kept {qp : List Instr} (e : BringupEnv) {s : State} (k : PortId) (h1 : Kept qp s) :
    Kept qp (trainPort e s k) := by
  unfold trainPort
  repeat' with_reducible first | assumption | intro _ | apply kept_ite | apply firstTrain_kept | apply trainingDone_kept

theorem buStep10_kept {qp : List Instr} {s : State} (e : BringupEnv) (h0 : Kept qp s) :
    Kept qp (buStep10 s e).after := by
  unfold buStep10
  repeat' with_reducible first | assumption | apply kept_foldl | apply trainPort_kept | apply warnIf_kept

theorem buStep11_kept {qp : List Instr} {s : State} (h0 : Kept qp s) :
    Kept qp (buStep11 s).after := by
  unfold buStep11
  repeat' first
    | (with_reducible first | assumption | apply kept_of)
    | simp only [kept_mk]
    | with_reducible apply lifeTo_kept

theorem buStep_kept {qp : List Instr} (e : BringupEnv) (t0 : Nat) (n : Nat) {s : State} (h3 : Kept qp s) :
    Kept qp (buStep e t0 n s).after := by
  unfold buStep
  repeat' first
    | (with_reducible first | assumption | apply buStep1_kept | apply buStep2_kept | apply buStep3_kept | apply buStep4_kept
                            | apply buStep5_kept | apply buStep6_kept | apply buStep7_kept | apply buStep8_kept
                            | apply buStep9_kept | apply buStep10_kept | apply buStep11_kept)
    | split

theorem putStep_kept {qp : List Instr} {s : State} (n : Nat) (o : StepObj) (h0 : Kept qp s) :
    Kept qp (putStep s n o) := h0

theorem runOver_kept {qp : List Instr} {s : State} (h0 : Kept qp s) :
    Kept qp (runOver s) := h0

theorem stepLate_kept {qp : List Instr} {s : State} (n : Nat) (h0 : Kept qp s) :
    Kept qp (stepLate s n) := by
  unfold stepLate
  repeat' with_reducible first | assumption | intro _ | apply kept_ite | apply runOver_kept | apply putStep_kept
                               | apply lifeFatal_kept

theorem stepOver_kept {qp : List Instr} (n : Nat) (us : Nat) {r : StepOut} (h2 : Kept qp r.after) :
    Kept qp (stepOver n us r) := by
  unfold stepOver
  repeat' first
    | (with_reducible first | assumption | intro _ | apply kept_ite | apply kept_of)
    | simp only [kept_mk]
    | (with_reducible first | apply putStep_kept | apply lifeFatal_kept | apply runOver_kept)

theorem fillBegin_kept {qp : List Instr} {s : State} (h0 : Kept qp s) :
    Kept qp (fillBegin s) := by
  unfold fillBegin
  repeat' with_reducible first | assumption | intro _ | apply kept_foldl | apply State.modStack_kept

theorem stepBegin_kept {qp : List Instr} (n : Nat) (last : Nat) {s : State} (h2 : Kept qp s) :
    Kept qp (stepBegin n last s) := by
  unfold stepBegin
  repeat' first
    | (with_reducible first | assumption | intro _ | apply kept_ite | apply kept_of)
    | simp only [kept_mk]
    | (with_reducible first | apply putStep_kept | apply fillBegin_kept)

theorem runSteps_kept {qp : List Instr} (e : BringupEnv) (last : Nat) (x2 : Nat) (x3 : Nat) {x4 : State} (h4 : Kept qp x4) :
    Kept qp (runSteps e last x2 x3 x4) := by
  revert h4
  fun_induction runSteps e last x2 x3 x4
  all_goals intro h4
  repeat' first
    | with_reducible apply kept_of
    | simp only [kept_mk]
    | (with_reducible first | apply stepBegin_kept | apply stepLate_kept | apply buStep_kept | apply stepOver_kept)
    | apply_assumption

theorem buRunAct_kept {qp : List Instr} (e : BringupEnv) (n : Nat) {s : State} (h2 : Kept qp s) :
    Kept qp (buRunAct e n s) := by
  unfold buRunAct
  repeat' first
    | (with_reducible first | assumption | intro _ | apply kept_ite | apply kept_of)
    | simp only [kept_mk]
    | (with_reducible first | apply lifeTo_kept | apply runSteps_kept)

theorem bringupTimeout_kept {qp : List Instr} {s : State} (h0 : Kept qp s) :
    Kept qp (bringupTimeout s) := by
  unfold bringupTimeout
  repeat' first
    | (with_reducible first | assumption | apply stepLate_kept)
    | split

end Sys2Proof.Machine
end

