-- ==== Sys2Proof/Laws/KeptPower.lean ====
section
/-! SUPPORT. What the operations of power, the canary round, translation rows, the dictionary and CAN keep (`Kept`). -/

namespace Sys2Proof.Machine

set_option linter.unusedSimpArgs false

theorem logSupply_kept {qp : List Instr} {s : State} (unit : Nat) (reading : Nat) (h0 : Kept qp s) :
    Kept qp (logSupply s unit reading) := by
  unfold logSupply
  repeat' with_reducible first | assumption | apply logRec_kept

theorem voltConditions_kept {qp : List Instr} {s : State} (h0 : Kept qp s) :
    Kept qp (voltConditions s) := by
  unfold voltConditions
  repeat' first
    | (with_reducible first | assumption | intro _ | apply kept_ite | apply kept_of)
    | simp only [kept_mk]
    | (with_reducible first | apply logSupply_kept | apply condStart_kept | apply condEnd_kept)

theorem inputSample_kept {qp : List Instr} {s : State} (v : Nat) (w : Nat) (h0 : Kept qp s) :
    Kept qp (inputSample s v w) := by
  unfold inputSample
  repeat' first
    | (with_reducible first | assumption | intro _ | apply kept_ite | apply kept_of)
    | simp only [kept_mk]
    | (with_reducible first | apply voltConditions_kept | apply powerOff_kept | apply coldBegin_kept)

theorem phaseFault_kept {qp : List Instr} {s : State} (i : Nat) (h0 : Kept qp s) :
    Kept qp (phaseFault s i) := by
  unfold phaseFault
  repeat' first
    | (with_reducible first | assumption | intro _ | apply kept_ite | apply kept_of)
    | simp only [kept_mk]
    | with_reducible apply logSupply_kept

theorem lendShares_kept {qp : List Instr} {s : State} (h0 : Kept qp s) :
    Kept qp (lendShares s) := h0

theorem unitDutyTick_kept {qp : List Instr} {s : State} (stackTbl : List Nat) (faces : List Nat) (h0 : Kept qp s) :
    Kept qp (unitDutyTick s stackTbl faces) := by
  unfold unitDutyTick
  repeat' first
    | (with_reducible first | assumption | intro _ | apply kept_ite | apply kept_of)
    | simp only [kept_mk]
    | with_reducible apply lendShares_kept

theorem recallComplete_kept {qp : List Instr} {s : State} (f : Nat) (h0 : Kept qp s) :
    Kept qp (recallComplete s f) := by
  unfold recallComplete
  repeat' first
    | (with_reducible first | assumption | intro _ | apply kept_ite | apply kept_of)
    | simp only [kept_mk]
    | with_reducible apply State.setFace_kept

theorem domainIdle_kept {qp : List Instr} {s : State} (d : Nat) (h0 : Kept qp s) :
    Kept qp (domainIdle s d) := by
  unfold domainIdle
  repeat' with_reducible first | assumption | intro _ | apply kept_ite | apply State.setDomain_kept

theorem domainSleep_kept {qp : List Instr} {s : State} (d : Nat) (h0 : Kept qp s) :
    Kept qp (domainSleep s d) := by
  unfold domainSleep
  repeat' with_reducible first | assumption | intro _ | apply kept_ite | apply State.setDomain_kept

theorem pinChange_kept {qp : List Instr} {s : State} (i : Nat) (active : Bool) (h0 : Kept qp s) :
    Kept qp (pinChange s i active) := by
  unfold pinChange
  repeat' with_reducible first | assumption | intro _ | apply kept_ite | apply glitch_kept | apply State.setInput_kept

theorem wakeSleepers_kept {qp : List Instr} {s : State} (h0 : Kept qp s) :
    Kept qp (wakeSleepers s) := by
  unfold wakeSleepers
  repeat' with_reducible first | assumption | apply kept_foldl | apply wakeDomain_kept

theorem inputStuck_kept {qp : List Instr} {s : State} (i : Nat) (h0 : Kept qp s) :
    Kept qp (inputStuck s i) := by
  unfold inputStuck
  repeat' with_reducible first | assumption | intro _ | apply kept_ite | apply condStart_kept | apply State.setInput_kept
                               | apply cadenceFallback_kept

theorem inputRelease_kept {qp : List Instr} {s : State} (i : Nat) (h0 : Kept qp s) :
    Kept qp (inputRelease s i) := by
  unfold inputRelease
  repeat' with_reducible first | assumption | intro _ | apply kept_ite | apply condEnd_kept | apply State.setInput_kept

theorem chanCond_kept {qp : List Instr} (c : Nat) (code : W16) (on : Bool) (starts : Bool) {s : State} (h4 : Kept qp s) :
    Kept qp (chanCond c code on starts s) := by
  unfold chanCond
  repeat' with_reducible first | assumption | intro _ | apply kept_ite | apply condStart_kept | apply condEnd_kept

theorem channelReport_kept {qp : List Instr} {s : State} (c : Nat) (st : Byte) (r : Int) (h0 : Kept qp s) :
    Kept qp (channelReport s c st r) := by
  unfold channelReport
  repeat' with_reducible first | assumption | intro _ | apply kept_foldl | apply kept_ite | apply chanCond_kept
                               | apply logSupply_kept

theorem coreReading_kept {qp : List Instr} {s : State} (n : Nat) (h0 : Kept qp s) :
    Kept qp (coreReading s n) := by
  unfold coreReading
  repeat' with_reducible first | assumption | apply State.modStack_kept | apply coolCount_kept | apply rateTrigger_kept

theorem canarySlot_kept {qp : List Instr} {s : State} (c : Nat) (raw : Sensor) (h0 : Kept qp s) :
    Kept qp (canarySlot s c raw) := by
  unfold canarySlot
  repeat' first
    | (with_reducible first | assumption | intro _ | apply kept_ite | apply kept_of)
    | simp only [kept_mk]
    | (with_reducible first | apply channelReport_kept | apply State.setChannel_kept | apply coreReading_kept)

theorem supplyBegin_kept {qp : List Instr} {s : State} (c : Nat) (h0 : Kept qp s) :
    Kept qp (supplyBegin s c) := by
  unfold supplyBegin
  repeat' with_reducible first | assumption | intro _ | apply kept_foldl | apply kept_ite | apply rateTrigger_kept
                               | apply State.modStack_kept | apply faceFenceBegin_kept | apply lifeFatal_kept

theorem supplyEnd_kept {qp : List Instr} {s : State} (c : Nat) (h0 : Kept qp s) :
    Kept qp (supplyEnd s c) := by
  unfold supplyEnd
  repeat' with_reducible first | assumption | intro _ | apply kept_foldl | apply kept_ite | apply coolCount_kept
                               | apply State.modStack_kept

theorem supplyRound_kept {qp : List Instr} {s : State} (c : Nat) (h0 : Kept qp s) :
    Kept qp (supplyRound s c) := by
  unfold supplyRound
  repeat' with_reducible first | assumption | intro _ | apply kept_ite | apply supplyBegin_kept | apply State.setChannel_kept
                               | apply supplyEnd_kept

theorem conditionsAgain_kept {qp : List Instr} {s : State} (h0 : Kept qp s) :
    Kept qp (conditionsAgain s) := by
  unfold conditionsAgain
  repeat' with_reducible first | assumption | intro _ | apply kept_foldl | apply kept_ite | apply condStart_kept

theorem thrTo_kept {qp : List Instr} {s : State} (st : Byte) (k : Nat) (h0 : Kept qp s) :
    Kept qp (thrTo s st k) := h0

theorem throttleEnded_kept {qp : List Instr} {s : State} (h0 : Kept qp s) :
    Kept qp (throttleEnded s) := by
  unfold throttleEnded
  repeat' with_reducible first | assumption | apply raiseEmcy_kept | apply msgAll_kept

theorem throttleAsk_kept {qp : List Instr} {s : State} (h0 : Kept qp s) :
    Kept qp (throttleAsk s) := by
  unfold throttleAsk
  repeat' first
    | (with_reducible first | assumption | intro _ | apply kept_ite | apply kept_of)
    | simp only [kept_mk]
    | (with_reducible first | apply thrTo_kept | apply msgAll_kept | apply hostMsix_kept | apply condStart_kept)

theorem throttleRound_kept {qp : List Instr} {s0 : State} (h0 : Kept qp s0) :
    Kept qp (throttleRound s0).1 := by
  unfold throttleRound
  repeat' first
    | (with_reducible first | assumption | intro _ | apply kept_ite | apply kept_ite2 | apply kept_of)
    | simp only [kept_mk]
    | (with_reducible first | apply thrTo_kept | apply throttleAsk_kept | apply throttleEnded_kept)

theorem dutyReport_kept {qp : List Instr} {x : State × Bool} (h0 : Kept qp x.1) :
    Kept qp (dutyReport x) := by
  unfold dutyReport
  repeat' first
    | (with_reducible first | assumption | intro _ | apply kept_ite | apply kept_of)
    | simp only [kept_mk]
    | (with_reducible first | apply msgAll_kept | apply raiseEmcy_kept | apply condStart_kept | apply throttleEnded_kept
                            | apply condEnd_kept)

theorem telemetryCopy_kept {qp : List Instr} {s : State} (h0 : Kept qp s) :
    Kept qp (telemetryCopy s) := by
  unfold telemetryCopy
  repeat' first
    | (with_reducible first | assumption | apply kept_of)
    | simp only [kept_mk]

theorem canaryRoundEnd_kept {qp : List Instr} {s : State} (h0 : Kept qp s) :
    Kept qp (canaryRoundEnd s) := by
  unfold canaryRoundEnd
  repeat' first
    | (with_reducible first | assumption | intro _ | apply kept_foldl | apply kept_ite | apply kept_of)
    | simp only [kept_mk]
    | (with_reducible first | apply telemetryCopy_kept | apply dutyReport_kept | apply throttleRound_kept
                            | apply supplyRound_kept | apply conditionsAgain_kept)

theorem entryWriteObj_kept {qp : List Instr} {s : State} (n : Nat) (v : W32) (h0 : Kept qp s) :
    Kept qp (entryWriteObj s n v).1 := by
  unfold entryWriteObj
  repeat' first
    | (with_reducible first | assumption | intro _ | apply kept_ite | apply kept_of)
    | simp only [kept_mk]

theorem groupViewObj_kept {qp : List Instr} {s : State} (k : Nat) (v : W32) (h0 : Kept qp s) :
    Kept qp (groupViewObj s k v).1 := by
  unfold groupViewObj
  repeat' first
    | (with_reducible first | assumption | intro _ | apply kept_ite | apply kept_of)
    | simp only [kept_mk]

theorem contextObj_kept {qp : List Instr} {s : State} (c : Nat) (f : CtxField) (v : W16) (h0 : Kept qp s) :
    Kept qp (contextObj s c f v).1 := by
  unfold contextObj
  repeat' with_reducible first | assumption | intro _ | apply kept_ite | apply State.setCtx_kept

theorem drainWrite_kept {qp : List Instr} {s : State} (p : DictPath) (v : Nat) (h0 : Kept qp s) :
    Kept qp (drainWrite s p v).1 := by
  unfold drainWrite
  repeat' first
    | (with_reducible first | assumption | intro _ | apply kept_ite2 | apply kept_of)
    | simp only [kept_mk]

theorem drainConfirmed_kept {qp : List Instr} {s : State} (h0 : Kept qp s) :
    Kept qp (drainConfirmed s) := by
  unfold drainConfirmed
  repeat' first
    | (with_reducible first | assumption | apply kept_of)
    | simp only [kept_mk]
    | with_reducible apply dictRelease_kept
    | split

theorem logDrain_kept {qp : List Instr} {s : State} (d : Drain) (h0 : Kept qp s) :
    Kept qp (logDrain s d) := by
  unfold logDrain
  repeat' first
    | (with_reducible first | assumption | apply logObject_kept | apply logRec_kept)
    | split

theorem drainTimeout_kept {qp : List Instr} {s : State} (h0 : Kept qp s) :
    Kept qp (drainTimeout s) := by
  unfold drainTimeout
  repeat' first
    | (with_reducible first | assumption | apply kept_of)
    | simp only [kept_mk]
    | (with_reducible first | apply dictRelease_kept | apply logDrain_kept)
    | split

theorem srSeedObj_kept {qp : List Instr} {s : State} (f : Nat) (v : W32) (h0 : Kept qp s) :
    Kept qp (srSeedObj s f v).1 := by
  unfold srSeedObj
  repeat' first
    | (with_reducible first | assumption | apply State.modFace_kept)
    | split

theorem tallySel_kept {qp : List Instr} {s : State} (v : Nat) (h0 : Kept qp s) :
    Kept qp (tallySel s v).1 := by
  unfold tallySel
  repeat' first
    | (with_reducible first | assumption | intro _ | apply kept_ite2 | apply kept_of)
    | simp only [kept_mk]

theorem watchSel_kept {qp : List Instr} {s : State} (v : Nat) (h0 : Kept qp s) :
    Kept qp (watchSel s v).1 := by
  unfold watchSel
  repeat' first
    | (with_reducible first | assumption | intro _ | apply kept_ite2 | apply kept_of)
    | simp only [kept_mk]

theorem barrierSel_kept {qp : List Instr} {s : State} (v : Byte) (h0 : Kept qp s) :
    Kept qp (barrierSel s v).1 := h0

theorem wrote_kept {qp : List Instr} {r : State × Byte} (h0 : Kept qp r.1) :
    KeptW qp (wrote r) := by
  unfold wrote
  repeat' first
    | (with_reducible first | assumption | intro _)
    | simp only [st_ok, st_cwait, st_cfail, keptD_serve, keptD_drop, keptD_wait, keptD_refuse, keptW_mk, id_eq]
    | with_reducible apply And.intro

theorem wroteHeld_kept {qp : List Instr} {r : State × Option Byte} (h0 : Kept qp r.1) :
    KeptW qp (wroteHeld r) := by
  unfold wroteHeld
  repeat' first
    | (with_reducible first | assumption | intro _)
    | simp only [st_ok, st_cwait, st_cfail, keptD_serve, keptD_drop, keptD_wait, keptD_refuse, keptW_mk, id_eq]
    | with_reducible apply And.intro

theorem wroteThen_kept {qp : List Instr} {s : State} (st : Byte) (f : State → State) (h0 : Kept qp s)
    (h2 : ∀ y0, Kept qp y0 → Kept qp (f y0)) :
    KeptW qp (wroteThen s st f) := by
  unfold wroteThen
  repeat' first
    | with_reducible assumption
    | simp only [st_ok, st_cwait, st_cfail, keptD_serve, keptD_drop, keptD_wait, keptD_refuse, keptW_mk, id_eq]
    | with_reducible apply And.intro

theorem ranged_kept {qp : List Instr} {s : State} (ok : Bool) {t : State} (h0 : Kept qp s) (h2 : Kept qp t) :
    Kept qp (ranged s ok t).1 := by
  unfold ranged
  repeat' first
    | with_reducible assumption
    | split

theorem putComm_kept {qp : List Instr} {s : State} (c : CommObjs) (h0 : Kept qp s) :
    Kept qp (putComm s c) := h0

theorem errorCount_kept {qp : List Instr} {s : State} (v : Nat) (h0 : Kept qp s) :
    Kept qp (errorCount s v).1 := by
  unfold errorCount
  repeat' first
    | (with_reducible first | assumption | apply kept_of)
    | simp only [kept_mk]
    | with_reducible apply ranged_kept

theorem commWrite_kept {qp : List Instr} {s : State} (idx : Nat) (sb : Nat) (v : Nat) (h0 : Kept qp s) :
    Kept qp (commWrite s idx sb v).1 := by
  unfold commWrite
  repeat' first
    | (with_reducible first | assumption | apply errorCount_kept | apply ranged_kept | apply putComm_kept)
    | split

theorem rateWrite_kept {qp : List Instr} {s : State} (sb : Nat) (v : Nat) (h0 : Kept qp s) :
    Kept qp (rateWrite s sb v).1 := by
  unfold rateWrite
  repeat' first
    | (with_reducible first | assumption | intro _ | apply kept_ite2 | apply kept_of)
    | simp only [kept_mk]
    | with_reducible apply ranged_kept

theorem lifeWrite_kept {qp : List Instr} {s : State} (idx : Nat) (sb : Nat) (off : Nat) (data : List Byte) (v : Nat)
    (h0 : Kept qp s) :
    KeptW qp (lifeWrite s idx sb off data v) := by
  unfold lifeWrite
  repeat' first
    | (with_reducible first | assumption | intro _ | apply kept_ite2 | apply kept_iteW | apply kept_of)
    | simp only [kept_mk]
    | (with_reducible first | apply wroteThen_kept | apply buRunAct_kept | apply wrote_kept | apply stateReq_kept
                            | apply resetBegin_kept | apply faceResetBegin_kept | apply ranged_kept | apply fwImageWrite_kept
                            | apply fwCmd_kept | apply licImageWrite_kept | apply licCmd_kept | apply attNonceWrite_kept
                            | apply attCmd_kept)

theorem ignoreWrite_kept {qp : List Instr} {s : State} (sb : Nat) (v : Nat) (h0 : Kept qp s) :
    Kept qp (ignoreWrite s sb v).1 := by
  unfold ignoreWrite
  repeat' first
    | (with_reducible first | assumption | intro _ | apply kept_ite2 | apply kept_of)
    | simp only [kept_mk]
    | with_reducible apply ranged_kept

theorem inputWrite_kept {qp : List Instr} {s : State} (i : Nat) (sb : Nat) (v : Nat) (h0 : Kept qp s) :
    Kept qp (inputWrite s i sb v).1 := by
  unfold inputWrite
  repeat' first
    | (with_reducible first | assumption | apply ranged_kept | apply State.setInput_kept)
    | split

theorem powerWrite_kept {qp : List Instr} {s : State} (idx : Nat) (sb : Nat) (v : Nat) (h0 : Kept qp s) :
    Kept qp (powerWrite s idx sb v).1 := by
  unfold powerWrite
  repeat' first
    | (with_reducible first | assumption | intro _ | apply kept_ite2 | apply kept_of)
    | simp only [kept_mk]
    | (with_reducible first | apply ranged_kept | apply ignoreWrite_kept | apply State.setChannel_kept | apply inputWrite_kept)

theorem portWrite_kept {qp : List Instr} {s : State} (idx : Nat) (sb : Nat) (v : Nat) (h0 : Kept qp s) :
    Kept qp (portWrite s idx sb v).1 := by
  unfold portWrite
  repeat' first
    | (with_reducible first | assumption | apply winLenWrite_kept | apply cadAlignWrite_kept | apply fwdMatrix_kept
                            | apply aditPageWrite_kept | apply portEnable_kept | apply retrainReq_kept | apply State.modPort_kept)
    | split

theorem xlateWrite_kept {qp : List Instr} {s : State} (p : DictPath) (idx : Nat) (sb : Nat) (v : Nat) (h0 : Kept qp s) :
    KeptW qp (xlateWrite s p idx sb v) := by
  unfold xlateWrite
  repeat' first
    | (with_reducible first | assumption | apply wroteHeld_kept | apply drainWrite_kept | apply wrote_kept
                            | apply groupViewObj_kept | apply contextObj_kept | apply entryWriteObj_kept)
    | split

theorem tallyWrite_kept {qp : List Instr} {s : State} (idx : Nat) (sb : Nat) (v : Nat) (h0 : Kept qp s) :
    Kept qp (tallyWrite s idx sb v).1 := by
  unfold tallyWrite
  repeat' first
    | (with_reducible first | assumption | intro _ | apply kept_ite2 | apply kept_of)
    | simp only [kept_mk]
    | (with_reducible first | apply tallySel_kept | apply watchSel_kept | apply barrierSel_kept | apply ranged_kept)

theorem hotWrite_kept {qp : List Instr} {s : State} (n : Nat) (enter : Nat) (exit : Nat) (h0 : Kept qp s) :
    Kept qp (hotWrite s n enter exit).1 := by
  unfold hotWrite
  repeat' with_reducible first | assumption | apply ranged_kept | apply State.modStack_kept

theorem stackWrite_kept {qp : List Instr} {s : State} (p : DictPath) (n : Nat) (i : Nat) (sb : Nat) (v : Nat) (h0 : Kept qp s) :
    KeptW qp (stackWrite s p n i sb v) := by
  unfold stackWrite
  repeat' first
    | (with_reducible first | assumption | apply wroteHeld_kept | apply colModeWrite_kept | apply stackModeWrite_kept
                            | apply wrote_kept | apply hotWrite_kept | apply ranged_kept | apply State.setStack_kept
                            | apply remapSelWrite_kept | apply remapReqWrite_kept)
    | split

theorem serviceWrite_kept {qp : List Instr} {s : State} (idx : Nat) (sb : Nat) (v : Nat) (h0 : Kept qp s) :
    KeptW qp (serviceWrite s idx sb v) := by
  unfold serviceWrite
  repeat' first
    | (with_reducible first | assumption | intro _ | apply wrote_kept | apply flogSel_kept | apply flogClear_kept
                            | apply flogSavedSel_kept | apply wroteThen_kept | apply faceFenceBegin_kept
                            | apply pickFenceBegin_kept | apply retireBegin_kept)
    | split

theorem objWrite_kept {qp : List Instr} {s : State} (p : DictPath) (idx : Nat) (sb : Nat) (off : Nat) (data : List Byte)
    (h0 : Kept qp s) :
    KeptW qp (objWrite s p idx sb off data) := by
  unfold objWrite
  repeat' first
    | (with_reducible first | assumption | apply wrote_kept | apply commWrite_kept | apply rateWrite_kept
                            | apply lifeWrite_kept | apply powerWrite_kept | apply portWrite_kept | apply xlateWrite_kept
                            | apply tallyWrite_kept | apply stackWrite_kept | apply srSeedObj_kept | apply queueObject_kept
                            | apply serviceWrite_kept)
    | split

theorem serveWrite_kept {qp : List Instr} {s : State} (p : DictPath) (idx : Nat) (sb : Nat) (off : Nat) (data : List Byte)
    (mail : Bool) (h0 : Kept qp s) :
    Kept qp (serveWrite s p idx sb off data mail) := by
  unfold serveWrite
  try dsimp only
  repeat' first
    | (with_reducible first | assumption | apply dictReply_kept | apply objWrite_kept | apply dictHold_kept
                            | apply WriteOut.after_kept | apply WriteOut.later_kept)
    | split

theorem registerWrite_kept {qp : List Instr} {s : State} (p : DictPath) (idx : Nat) (sb : Nat) (data : List Byte) (h0 : Kept qp s) :
    Kept qp (registerWrite s p idx sb data) := by
  unfold registerWrite
  repeat' first
    | (with_reducible first | assumption | apply dictOpen_kept | apply mailHold_kept | apply dictReply_kept | apply serveWrite_kept)
    | split
    | (with_reducible first | refine opened_drop ?_ (by assumption) | refine opened_refuse ?_ (by assumption)
                            | refine opened_serve ?_ (by assumption))

theorem serveMailbox_kept {qp : List Instr} {s : State} (m : Fin 16) (h0 : Kept qp s) :
    Kept qp (serveMailbox s m) := by
  unfold serveMailbox
  repeat' with_reducible first | assumption | intro _ | apply kept_ite | apply State.setBox_kept | apply serveWrite_kept
                               | apply dictReply_kept

theorem serveWaiting_kept {qp : List Instr} {s : State} (h0 : Kept qp s) :
    Kept qp (serveWaiting s) := by
  unfold serveWaiting
  repeat' first
    | (with_reducible first | assumption | intro _ | apply kept_foldl | apply kept_ite | apply kept_of)
    | simp only [kept_mk]
    | with_reducible apply serveMailbox_kept

theorem mailboxAccess_kept {qp : List Instr} {s : State} (m : Fin 16) (cmd : W64) (h0 : Kept qp s) :
    Kept qp (mailboxAccess s m cmd) := by
  unfold mailboxAccess
  repeat' first
    | (with_reducible first | assumption | intro _ | apply kept_ite | apply kept_of)
    | simp only [kept_mk]
    | (with_reducible first | apply mailPut_kept | apply State.setBox_kept | apply serveWaiting_kept)

theorem tick_kept {qp : List Instr} {s : State} (h0 : Kept qp s) :
    Kept qp (tick s) := by
  unfold tick
  repeat' first
    | (with_reducible first | assumption | intro _ | apply kept_ite | apply kept_of)
    | simp only [kept_mk]
    | with_reducible apply serveWaiting_kept

theorem nmtStart_kept {qp : List Instr} {s : State} (h0 : Kept qp s) :
    Kept qp (nmtStart s) := by
  unfold nmtStart
  repeat' first
    | (with_reducible first | assumption | intro _ | apply kept_ite | apply kept_of)
    | simp only [kept_mk]

theorem nmtReset_kept {qp : List Instr} {s : State} (h0 : Kept qp s) :
    Kept qp (nmtReset s) := by
  unfold nmtReset
  repeat' first
    | (with_reducible first | assumption | intro _ | apply kept_ite | apply kept_of)
    | simp only [kept_mk]
    | with_reducible apply State.emit_kept

theorem heartbeat_kept {qp : List Instr} {s : State} (h0 : Kept qp s) :
    Kept qp (heartbeat s) := by
  unfold heartbeat
  repeat' first
    | (with_reducible first | assumption | intro _ | apply kept_ite | apply kept_of)
    | simp only [kept_mk]
    | with_reducible apply State.emit_kept

theorem usdoOpen_kept {qp : List Instr} {s : State} (idx : W16) (sb : Byte) (wr : Bool) (f : State → State) (h0 : Kept qp s)
    (h4 : ∀ y0, Kept qp y0 → Kept qp (f y0)) :
    Kept qp (usdoOpen s idx sb wr f) := by
  unfold usdoOpen
  repeat' first
    | (with_reducible first | apply dictOpen_kept | apply dictReply_kept | apply usdoNew_kept)
    | split
    | (with_reducible first | refine opened_drop ?_ (by assumption) | refine opened_refuse ?_ (by assumption)
                            | refine opened_serve ?_ (by assumption))
    | apply_assumption

theorem usdoPut_kept {qp : List Instr} {s : State} (x : UsdoXfer) (h0 : Kept qp s) :
    Kept qp (usdoPut s x) := h0

theorem usdoEnd_kept {qp : List Instr} {s : State} (h0 : Kept qp s) :
    Kept qp (usdoEnd s) := h0

theorem usdoUpload_kept {qp : List Instr} {s : State} (idx : W16) (sb : Byte) (part : UsdoPart) (h0 : Kept qp s) :
    Kept qp (usdoUpload s idx sb part) := by
  unfold usdoUpload
  try dsimp only
  repeat' first
    | (with_reducible first | assumption | intro _ | apply usdoOpen_kept | apply dictReply_kept | apply usdoPut_kept
                            | apply usdoEnd_kept)
    | split

theorem usdoDownload_kept {qp : List Instr} {s : State} (idx : W16) (sb : Byte) (part : UsdoPart) (data : List Byte)
    (h0 : Kept qp s) :
    Kept qp (usdoDownload s idx sb part data) := by
  unfold usdoDownload
  repeat' first
    | (with_reducible first | assumption | intro _ | apply usdoOpen_kept | apply serveWrite_kept | apply dictReply_kept
                            | apply usdoPut_kept | apply usdoEnd_kept)
    | split

theorem usdoTimeout_kept {qp : List Instr} {s : State} (h0 : Kept qp s) :
    Kept qp (usdoTimeout s) := by
  unfold usdoTimeout
  repeat' first
    | (with_reducible first | assumption | apply kept_of)
    | simp only [kept_mk]
    | (with_reducible first | apply usdoEnd_kept | apply State.emit_kept)
    | split

theorem tpdoTimer_kept {qp : List Instr} {s : State} (t : Nat) (h0 : Kept qp s) :
    Kept qp (tpdoTimer s t) := by
  unfold tpdoTimer
  repeat' first
    | (with_reducible first | assumption | intro _ | apply kept_ite | apply kept_of)
    | simp only [kept_mk]
    | with_reducible apply State.emit_kept

theorem emcyRoom_kept {qp : List Instr} {s : State} (h0 : Kept qp s) :
    Kept qp (emcyRoom s) := by
  unfold emcyRoom
  repeat' first
    | (with_reducible first | assumption | intro _ | apply kept_ite | apply kept_of)
    | simp only [kept_mk]
    | with_reducible apply raiseEmcy_kept

theorem emcySend_kept {qp : List Instr} {s : State} (h0 : Kept qp s) :
    Kept qp (emcySend s) := by
  unfold emcySend
  repeat' first
    | (with_reducible first | assumption | apply kept_of)
    | simp only [kept_mk]
    | (with_reducible first | apply emcyRoom_kept | apply State.emit_kept)
    | split

theorem errorPassive_kept {qp : List Instr} {s : State} (enter : Bool) (h0 : Kept qp s) :
    Kept qp (errorPassive s enter) := by
  unfold errorPassive
  repeat' first
    | (with_reducible first | assumption | intro _ | apply kept_ite | apply kept_of)
    | simp only [kept_mk]
    | (with_reducible first | apply condStart_kept | apply condEnd_kept)

theorem busOffRecovered_kept {qp : List Instr} {s : State} (h0 : Kept qp s) :
    Kept qp (busOffRecovered s) := by
  unfold busOffRecovered
  repeat' first
    | (with_reducible first | assumption | intro _ | apply kept_ite | apply kept_of)
    | simp only [kept_mk]
    | with_reducible apply raiseEmcy_kept

end Sys2Proof.Machine
end

