-- ==== Sys2Proof/Laws/KeptRun.lean ====
section
/-! SUPPORT. What the operations of pick operations, hoists and passes keep (`Kept`). -/

namespace Sys2Proof.Machine

set_option linter.unusedSimpArgs false

theorem rowRead_kept {qp : List Instr} {s : State} (g : Nat) (o : PickOp) (pa : Nat) (i : Nat) (h0 : Kept qp s) :
    Kept qp (rowRead s g o pa i).1 := by
  unfold rowRead
  repeat' with_reducible first | assumption | apply rowStepAct_kept | apply dramRead_kept | apply withTag_kept

theorem rowWrite_kept {qp : List Instr} {s : State} (g : Nat) (o : PickOp) (pa : Nat) (i : Nat) (bs : List PByte) (h0 : Kept qp s) :
    Kept qp (rowWrite s g o pa i bs).1 := by
  unfold rowWrite
  repeat' with_reducible first | assumption | apply dramWrite_kept | apply rowStepAct_kept

theorem copyRow_kept {qp : List Instr} (g : Nat) {p : State × PickOp} (i : Nat) (h1 : Kept qp p.1) :
    Kept qp (copyRow g p i).1 := by
  unfold copyRow
  repeat' with_reducible first | assumption | apply rowRead_kept | apply rowWrite_kept

theorem initRow_kept {qp : List Instr} (g : Nat) {p : State × PickOp} (i : Nat) (h1 : Kept qp p.1) :
    Kept qp (initRow g p i).1 := by
  unfold initRow
  repeat' with_reducible first | assumption | apply rowWrite_kept

theorem logicRow_kept {qp : List Instr} (g : Nat) {p : State × PickOp} (i : Nat) (h1 : Kept qp p.1) :
    Kept qp (logicRow g p i).1 := by
  unfold logicRow
  repeat' first
    | (with_reducible first | assumption | apply rowRead_kept | apply rowWrite_kept)
    | split

theorem portOp_kept {qp : List Instr} {s : State} (g : Nat) (i : Nat) (op : Nat) (h0 : Kept qp s) :
    ∀ t x, (portOp s g i op) = some (t, x) → Kept qp t := by
  intro t o e
  unfold portOp at e
  obtain ⟨x, -, e⟩ := Option.map_eq_some_iff.1 e
  cases e
  exact claimWaitEnd_kept _ h0

theorem runRows_kept {qp : List Instr} {s : State} (g : Nat) (i : Nat) (op : Nat) (n : Nat)
    (f : Nat → State × PickOp → Nat → State × PickOp) (h0 : Kept qp s) (h5 : ∀ y0 y1 y2, Kept qp y1.1 → Kept qp (f y0 y1 y2).1) :
    Kept qp (runRows s g i op n f) := by
  unfold runRows
  repeat' first
    | (with_reducible first | apply kept_foldl2 | refine portOp_kept _ _ _ ?_ _ _ (by assumption) | apply putOp_kept)
    | split
    | apply_assumption

theorem loadSlots_kept {qp : List Instr} {s : State} (g : Nat) (o : PickOp) (bs : List PByte) (cost : Nat) (h0 : Kept qp s) :
    Kept qp (loadSlots s g o bs cost) := h0

theorem readRows_kept {qp : List Instr} {s : State} (g : Nat) (o : PickOp) (pa : Nat) (n : Nat) (h0 : Kept qp s) :
    Kept qp (readRows s g o pa n).1 := by
  unfold readRows
  repeat' with_reducible first | assumption | intro _ | apply kept_foldl2 | apply rowRead_kept

theorem pload_kept {qp : List Instr} {s : State} (g : Nat) (i : Nat) (h0 : Kept qp s) :
    Kept qp (pload s g i) := by
  unfold pload
  split
  · exact h0
  · have h1 := portOp_kept _ _ _ h0 _ _ ‹_›
    dsimp only
    split
    · split
      · exact loadSlots_kept _ _ _ _ (State.modCol_kept _ _ h1)
      · exact State.modCol_kept _ _ h1
    · split
      · exact loadSlots_kept _ _ _ _ (readRows_kept _ _ _ _ h1)
      · have h2 := fun r i va wr as data => innerAccess_kept (qp := qp) r i va wr as data h1
        split
        · exact chk_wait (h2 _ _ _ _ _ _) ‹_›
        · exact putOp_kept _ _ (chk_fail (h2 _ _ _ _ _ _) ‹_›)
        · have h3 := fun p => innerDrop_kept (qp := qp) p (chk_ok (h2 _ _ _ _ _ _) ‹_›)
          split
          · exact putOp_kept _ _ (h3 _)
          · exact loadSlots_kept _ _ _ _ (h3 _)

theorem readRun_kept {qp : List Instr} (g : Nat) (first : Nat) (n : Nat) {p : State × PickOp × Stream} (h3 : Kept qp p.1) :
    Kept qp (readRun g first n p).1 := by
  unfold readRun
  repeat' with_reducible first | assumption | intro _ | apply kept_foldl2 | apply rowRead_kept

theorem readStream_kept {qp : List Instr} {s : State} (g : Nat) (o : PickOp) (w : WFmt) (h0 : Kept qp s) :
    Kept qp (readStream s g o w).1 := by
  unfold readStream
  repeat' with_reducible first | assumption | intro _ | apply kept_foldl2 | apply kept_ite2 | apply readRun_kept
                               | apply rowRead_kept

theorem matVec_kept {qp : List Instr} {s : State} (g : Nat) (i : Nat) (op : Nat) (h0 : Kept qp s) :
    Kept qp (matVec s g i op) := by
  unfold matVec
  try dsimp only
  repeat' first
    | (with_reducible first | assumption | refine portOp_kept _ _ _ ?_ _ _ (by assumption) | apply readStream_kept
                            | apply putOp_kept | apply State.setCol_kept)
    | split

theorem foldSend_kept {qp : List Instr} {s : State} (g : Nat) (q : Nat) (leaves : Nat) (down : Bool) (ws : List LinkWord)
    (h0 : Kept qp s) :
    Kept qp (foldSend s g q leaves down ws) := h0

theorem pfold_kept {qp : List Instr} {s : State} (g : Nat) (i : Nat) (h0 : Kept qp s) :
    Kept qp (pfold s g i) := by
  unfold pfold
  try dsimp only
  repeat' first
    | (with_reducible first | assumption | apply putOp_kept | apply foldSend_kept | apply State.setCol_kept
                            | apply State.modCol_kept)
    | split

theorem pdrain_kept {qp : List Instr} {s : State} (g : Nat) (i : Nat) (h0 : Kept qp s) :
    Kept qp (pdrain s g i) := by
  unfold pdrain
  split
  · exact h0
  · have h1 := portOp_kept _ _ _ h0 _ _ ‹_›
    dsimp only
    split
    · exact putOp_kept _ _ (kept_foldl2 h1 fun _ _ h => rowWrite_kept _ _ _ _ _ h)
    · split
      · exact h1
      · have h2 := fun r i va wr as data => innerAccess_kept (qp := qp) r i va wr as data h1
        split
        · exact chk_wait (h2 _ _ _ _ _ _) ‹_›
        · exact putOp_kept _ _ (chk_fail (h2 _ _ _ _ _ _) ‹_›)
        · exact putOp_kept _ _ (innerDrop_kept _ (chk_ok (h2 _ _ _ _ _ _) ‹_›))

theorem pfence_kept {qp : List Instr} {s : State} (g : Nat) (i : Nat) (h0 : Kept qp s) :
    Kept qp (pfence s g i) := by
  unfold pfence
  repeat' first
    | (with_reducible first | assumption | apply putOp_kept)
    | split

theorem pickDataTimeout_kept {qp : List Instr} {s : State} (g : Nat) (i : Nat) (h0 : Kept qp s) :
    Kept qp (pickDataTimeout s g i) := by
  unfold pickDataTimeout
  try dsimp only
  repeat' first
    | (with_reducible first | assumption | apply pickEnd_kept)
    | split

theorem mapPages_kept {qp : List Instr} (r : Req) (wr : Bool) (x2 : List FootPiece) {x3 : State} (h3 : Kept qp x3) :
    Kept qp (mapPages r wr x2 x3).1 := by
  revert h3
  fun_induction mapPages r wr x2 x3
  all_goals intro h3
  repeat' first
    | (with_reducible first | apply xlateRefused_kept | apply placeRefused_kept | refine kept_fst ?_ (by assumption))
    | apply_assumption

theorem hoistFetch_kept {qp : List Instr} {s : State} (q : Req) (d : BitVec 768) (h0 : Kept qp s) :
    Kept qp (hoistFetch s q d).st := by
  unfold hoistFetch
  repeat' first
    | (with_reducible first | assumption | intro _ | apply kept_iteC | apply chk_andThen)
    | simp only [st_ok, st_cwait, st_cfail, keptD_serve, keptD_drop, keptD_wait, keptD_refuse, keptW_mk, id_eq]
    | (with_reducible first | apply cleanOnly_kept | apply fetchOne_kept | apply fetchRange_kept)

theorem hoistPages_kept {qp : List Instr} {s : State} (q : Req) (sp : List FootPiece) (dp : List FootPiece) (h0 : Kept qp s) :
    Kept qp (hoistPages s q sp dp).st := by
  unfold hoistPages
  repeat' first
    | (with_reducible first | assumption | intro _ | apply kept_iteC)
    | simp only [st_ok, st_cwait, st_cfail, keptD_serve, keptD_drop, keptD_wait, keptD_refuse, keptW_mk, id_eq]
    | with_reducible apply mapPages_kept

theorem hoistPlace_kept {qp : List Instr} {s : State} (f : Nat) (l : Nat) (ctx : BitVec 6) (d : BitVec 768) (r : HoistRun)
    (clamped : Nat) (sp : List FootPiece) (dp : List FootPiece) (lists : List (Nat × Nat)) (ms : List PageMap) (h0 : Kept qp s) :
    Kept qp (hoistPlace s f l ctx d r clamped sp dp lists ms).st := by
  unfold hoistPlace
  repeat' first
    | with_reducible assumption
    | simp only [st_ok, st_cwait, st_cfail, keptD_serve, keptD_drop, keptD_wait, keptD_refuse, keptW_mk, id_eq]
    | with_reducible apply State.modFace_kept
    | split

theorem hoistPrepare_kept {qp : List Instr} {s : State} (f : Nat) (ctx : BitVec 6) (o : EngOp) (h0 : Kept qp s) :
    Kept qp (hoistPrepare s f ctx o).st := by
  unfold hoistPrepare
  repeat' first
    | (with_reducible first | assumption | intro _ | apply kept_iteC | apply chk_andThen)
    | simp only [st_ok, st_cwait, st_cfail, keptD_serve, keptD_drop, keptD_wait, keptD_refuse, keptW_mk, id_eq]
    | (with_reducible first | apply hoistFetch_kept | apply hoistPages_kept | apply hoistPlace_kept)

theorem hoistDrop_kept {qp : List Instr} {s : State} (f : Nat) (d : BitVec 768) (h0 : Kept qp s) :
    Kept qp (hoistDrop s f d) := h0

theorem engRefused_kept {qp : List Instr} {s : State} (f : Nat) (o : EngOp) (st : Byte) (h0 : Kept qp s) :
    Kept qp (engRefused s f o st) := by
  unfold engRefused
  repeat' with_reducible first | assumption | intro _ | apply kept_ite | apply putEngOp_kept | apply hoistDrop_kept

theorem engineStart_kept {qp : List Instr} {s0 : State} (f : Nat) (i : Nat) (h0 : Kept qp s0) :
    Kept qp (engineStart s0 f i) := by
  unfold engineStart
  dsimp only
  split
  · exact entered_kept _ h0
  · split
    · exact entered_kept _ h0
    · split
      · have hp := fun a b c => hoistPrepare_kept (qp := qp) (s := entered s0 f) a b c (entered_kept _ h0)
        split
        · rename_i e
          exact chk_wait (hp _ _ _) e
        · rename_i e
          exact engRefused_kept _ _ _ (chk_fail (hp _ _ _) e)
        · rename_i e
          have hk := chk_ok (hp _ _ _) e
          exact putEngOp_kept _ _ ⟨hk.1, hk.2⟩
      · split
        · exact engRefused_kept _ _ _ (entered_kept _ h0)
        · have hk := entered_kept (qp := qp) f h0
          exact putEngOp_kept _ _ ⟨hk.1, hk.2⟩

theorem chkAll_kept {qp : List Instr} {α : Type} {β : Type} (f : State → Nat → α → Chk β) (x3 : Nat) (x4 : List α) {x5 : State}
    (h2 : ∀ y0 y1 y2, Kept qp y0 → Kept qp (f y0 y1 y2).st) (h5 : Kept qp x5) :
    Kept qp (chkAll f x3 x4 x5).st := by
  revert h2 h5
  fun_induction chkAll f x3 x4 x5
  all_goals intro h2 h5
  repeat' first
    | (with_reducible first | intro _ | apply chk_andThen)
    | simp only [st_ok, st_cwait, st_cfail, keptD_serve, keptD_drop, keptD_wait, keptD_refuse, keptW_mk, id_eq]
    | (with_reducible first | refine chk_ok ?_ (by assumption) | refine chk_wait ?_ (by assumption)
                            | refine chk_fail ?_ (by assumption))
    | apply_assumption

theorem blockAccess_kept {qp : List Instr} {s : State} (q : Req) (i : Nat) (wr : Bool) (b : Block) (data : List PByte)
    (h0 : Kept qp s) :
    Kept qp (blockAccess s q i wr b data).st := by
  unfold blockAccess
  repeat' first
    | with_reducible assumption
    | simp only [st_ok, st_cwait, st_cfail, keptD_serve, keptD_drop, keptD_wait, keptD_refuse, keptW_mk, id_eq]
    | (with_reducible first | apply innerResult_kept | apply innerAccess_kept)
    | split

theorem readBlocks_kept {qp : List Instr} {s : State} (q : Req) (i : Nat) (bs : List Block) (h0 : Kept qp s) :
    Kept qp (readBlocks s q i bs).st := by
  unfold readBlocks
  repeat' first
    | (with_reducible first | assumption | intro _ | apply chk_andThen)
    | simp only [st_ok, st_cwait, st_cfail, keptD_serve, keptD_drop, keptD_wait, keptD_refuse, keptW_mk, id_eq]
    | (with_reducible first | apply chkAll_kept | apply blockAccess_kept)

theorem writeBlocks_kept {qp : List Instr} {s : State} (q : Req) (i : Nat) (bs : List (Block × List PByte)) (h0 : Kept qp s) :
    Kept qp (writeBlocks s q i bs).st := by
  unfold writeBlocks
  repeat' first
    | (with_reducible first | assumption | intro _ | apply kept_iteC | apply chk_andThen)
    | simp only [st_ok, st_cwait, st_cfail, keptD_serve, keptD_drop, keptD_wait, keptD_refuse, keptW_mk, id_eq]
    | (with_reducible first | apply chkAll_kept | apply blockAccess_kept)

theorem hoistAdvance_kept {qp : List Instr} {s : State} (f : Nat) (o : EngOp) (r : HoistRun) (ends : List (List Nat))
    (st : Byte) (fl : List Flags) (h0 : Kept qp s) :
    Kept qp (hoistAdvance s f o r ends st fl) := by
  unfold hoistAdvance
  repeat' with_reducible first | assumption | intro _ | apply kept_ite | apply hoistDrop_kept | apply State.modFace_kept
                               | apply putEngOp_kept

theorem moveBlocks_kept {qp : List Instr} {s : State} (q : Req) (srcs : List Block) (dsts : List Block) (make : List
    (List PByte) → List (List PByte)) (h0 : Kept qp s) :
    Kept qp (moveBlocks s q srcs dsts make).st := by
  unfold moveBlocks
  repeat' first
    | (with_reducible first | assumption | intro _ | apply chk_andThen)
    | simp only [st_ok, st_cwait, st_cfail, keptD_serve, keptD_drop, keptD_wait, keptD_refuse, keptW_mk, id_eq]
    | (with_reducible first | apply readBlocks_kept | apply writeBlocks_kept)

theorem moveInPlace_kept {qp : List Instr} {s : State} (f : Nat) (t : FaceTask) (o : EngOp) (r : HoistRun) (h0 : Kept qp s) :
    Kept qp (moveInPlace s f t o r).st := by
  unfold moveInPlace
  repeat' first
    | (with_reducible first | assumption | intro _ | apply kept_iteC | apply chk_andThen)
    | simp only [st_ok, st_cwait, st_cfail, keptD_serve, keptD_drop, keptD_wait, keptD_refuse, keptW_mk, id_eq]
    | (with_reducible first | apply hoistAdvance_kept | apply moveBlocks_kept)

theorem moveStage_kept {qp : List Instr} {s : State} (f : Nat) (t : FaceTask) (o : EngOp) (r : HoistRun) (h0 : Kept qp s) :
    Kept qp (moveStage s f t o r).st := by
  unfold moveStage
  repeat' first
    | (with_reducible first | assumption | intro _ | apply kept_iteC | apply chk_andThen)
    | simp only [st_ok, st_cwait, st_cfail, keptD_serve, keptD_drop, keptD_wait, keptD_refuse, keptW_mk, id_eq]
    | (with_reducible first | apply hoistAdvance_kept | apply moveBlocks_kept)

theorem movePlain_kept {qp : List Instr} {s : State} (f : Nat) (t : FaceTask) (o : EngOp) (r : HoistRun) (h0 : Kept qp s) :
    Kept qp (movePlain s f t o r).st := by
  unfold movePlain
  repeat' first
    | (with_reducible first | assumption | intro _ | apply chk_andThen)
    | simp only [st_ok, st_cwait, st_cfail, keptD_serve, keptD_drop, keptD_wait, keptD_refuse, keptW_mk, id_eq]
    | (with_reducible first | apply moveBlocks_kept | apply hoistAdvance_kept)

theorem moveFused_kept {qp : List Instr} {s : State} (f : Nat) (t : FaceTask) (o : EngOp) (r : HoistRun) (h0 : Kept qp s) :
    Kept qp (moveFused s f t o r).st := by
  unfold moveFused
  repeat' first
    | (with_reducible first | assumption | intro _ | apply kept_ite | apply chk_andThen)
    | simp only [st_ok, st_cwait, st_cfail, keptD_serve, keptD_drop, keptD_wait, keptD_refuse, keptW_mk, id_eq]
    | (with_reducible first | apply writeBlocks_kept | apply State.modFace_kept | apply hoistAdvance_kept)

theorem moveAdd_kept {qp : List Instr} {s : State} (f : Nat) (t : FaceTask) (o : EngOp) (r0 : HoistRun) (h0 : Kept qp s) :
    Kept qp (moveAdd s f t o r0).st := by
  unfold moveAdd
  repeat' first
    | (with_reducible first | assumption | intro _ | apply kept_iteC | apply chk_andThen)
    | simp only [st_ok, st_cwait, st_cfail, keptD_serve, keptD_drop, keptD_wait, keptD_refuse, keptW_mk, id_eq]
    | (with_reducible first | apply hoistAdvance_kept | apply readBlocks_kept | apply writeBlocks_kept)

theorem hoistMove_kept {qp : List Instr} {s : State} (f : Nat) (t : FaceTask) (o : EngOp) (r : HoistRun) (h0 : Kept qp s) :
    Kept qp (hoistMove s f t o r).st := by
  unfold hoistMove
  repeat' first
    | (with_reducible first | assumption | apply moveInPlace_kept | apply moveStage_kept | apply moveFused_kept
                            | apply moveAdd_kept | apply movePlain_kept)
    | split

theorem hoistMoves_kept {qp : List Instr} (f : Nat) (hid : Nat) (ok : BitVec 768 → Bool) (x3 : Nat) {x4 : State} (h4 : Kept qp x4) :
    Kept qp (hoistMoves f hid ok x3 x4) := by
  revert h4
  fun_induction hoistMoves f hid ok x3 x4
  all_goals intro h4
  repeat' first
    | (with_reducible first | apply hoistMove_kept | refine chk_ok ?_ (by assumption) | refine chk_wait ?_ (by assumption)
                            | refine chk_fail ?_ (by assumption))
    | apply_assumption

theorem hoistBroadcast_kept {qp : List Instr} {s : State} (f : Nat) (hid : Nat) (h0 : Kept qp s) :
    Kept qp (hoistBroadcast s f hid) := by
  unfold hoistBroadcast
  try dsimp only
  repeat' first
    | (with_reducible first | assumption | intro _ | apply kept_foldl | apply readBlocks_kept | apply hoistDrop_kept
                            | apply State.modFace_kept | apply State.modStack_kept | apply putEngOp_kept)
    | split
    | (with_reducible first | refine chk_ok ?_ (by assumption) | refine chk_wait ?_ (by assumption)
                            | refine chk_fail ?_ (by assumption))

theorem takeSegment_kept {qp : List Instr} {s : State} (g : Nat) (o : PickOp) (bs : List PByte) (h0 : Kept qp s) :
    Kept qp (takeSegment s g o bs) := by
  unfold takeSegment
  repeat' with_reducible first | assumption | intro _ | apply kept_ite | apply loadSlots_kept | apply putOp_kept

theorem segDelivered_kept {qp : List Instr} {s : State} (n : Nat) (seg : Segment) (h0 : Kept qp s) :
    Kept qp (segDelivered s n seg) := by
  unfold segDelivered
  repeat' first
    | (with_reducible first | assumption | apply putEngOp_kept)
    | split

theorem segmentDelivery_kept {qp : List Instr} {s : State} (n : Nat) (lane : Nat) (window : Nat) (h0 : Kept qp s) :
    Kept qp (segmentDelivery s n lane window) := by
  unfold segmentDelivery
  repeat' first
    | (with_reducible first | assumption | intro _ | apply kept_foldl | apply State.modStack_kept | apply takeSegment_kept
                            | apply segDelivered_kept)
    | split

theorem segmentTimeout_kept {qp : List Instr} {s : State} (f : Nat) (hid : Nat) (h0 : Kept qp s) :
    Kept qp (segmentTimeout s f hid) := by
  unfold segmentTimeout
  try dsimp only
  repeat' first
    | (with_reducible first | assumption | intro _ | apply kept_foldl | apply State.modStack_kept | apply putEngOp_kept)
    | split

theorem hoistDone_kept {qp : List Instr} {s : State} (f : Nat) (hid : Nat) (h0 : Kept qp s) :
    Kept qp (hoistDone s f hid) := by
  unfold hoistDone
  repeat' first
    | (with_reducible first | assumption | apply engineDone_kept)
    | split

theorem logLicence_kept {qp : List Instr} {s : State} (code : W16) (ctx : BitVec 6) (tag : Nat) (h0 : Kept qp s) :
    Kept qp (logLicence s code ctx tag) := by
  unfold logLicence
  repeat' with_reducible first | assumption | apply logRefused_kept

theorem exactCheck_kept {qp : List Instr} {s : State} (p : PassParams) (ctx : BitVec 6) (tag : Nat) (h0 : Kept qp s) :
    Kept qp (exactCheck s p ctx tag).st := by
  unfold exactCheck
  repeat' first
    | (with_reducible first | assumption | intro _ | apply kept_iteC)
    | simp only [st_ok, st_cwait, st_cfail, keptD_serve, keptD_drop, keptD_wait, keptD_refuse, keptW_mk, id_eq]
    | with_reducible apply logLicence_kept

theorem inputCheck_kept {qp : List Instr} {s : State} (r : Req) (rs : List (Nat × Nat)) (h0 : Kept qp s) :
    Kept qp (inputCheck s r rs).st := by
  unfold inputCheck
  repeat' first
    | with_reducible assumption
    | simp only [st_ok, st_cwait, st_cfail, keptD_serve, keptD_drop, keptD_wait, keptD_refuse, keptW_mk, id_eq]
    | (with_reducible first | apply mapRanges_kept | apply placeRefused_kept)
    | split

theorem eachSequencer_kept {qp : List Instr} {s : State} (o : StepOp) (ctx : BitVec 6) (tag : W16) (k : Nat)
    (f : State → Req → Nat → Chk (List PByte)) (h0 : Kept qp s) (h5 : ∀ y0 y1 y2, Kept qp y0 → Kept qp (f y0 y1 y2).st) :
    Kept qp (eachSequencer s o ctx tag k f).st := by
  unfold eachSequencer
  have h : ∀ (l : List Nat) (x : Chk (List PByte)), Kept qp x.st → Kept qp (l.foldl (fun (x : Chk (List PByte)) n =>
      x.andThen fun t bs =>
        match f t (seqReq n o ctx tag) (8 * k + n) with
        | .ok u cs => .ok u (if n = 0 then cs else bs)
        | .wait u => .wait u
        | .fail st u => .fail st u) x).st := by
    intro l
    induction l with
    | nil => exact fun _ h => h
    | cons n l ih =>
      intro x hx
      refine ih _ (chk_andThen hx fun t bs ht => ?_)
      have hf := h5 t (seqReq n o ctx tag) (8 * k + n) ht
      split
      · exact chk_ok hf ‹_›
      · exact chk_wait hf ‹_›
      · exact chk_fail hf ‹_›
  exact h _ _ h0

theorem fetchFrags_kept {qp : List Instr} (o : StepOp) (ctx : BitVec 6) (tag : W16) (x3 : Nat) (x4 : List (Nat × Nat))
    {x5 : State} (h5 : Kept qp x5) :
    Kept qp (fetchFrags o ctx tag x3 x4 x5).st := by
  revert h5
  fun_induction fetchFrags o ctx tag x3 x4 x5
  all_goals intro h5
  repeat' first
    | (with_reducible first | intro _ | apply kept_iteC | apply chk_andThen | apply eachSequencer_kept | apply cleanOnly_kept
                            | apply fetchOne_kept | apply fetchRange_kept)
    | apply_assumption

theorem lodePlan_kept {qp : List Instr} {s : State} (o : StepOp) (ctx : BitVec 6) (tag0 : W16) (p : PassParams) (h0 : Kept qp s) :
    Kept qp (lodePlan s o ctx tag0 p).st := by
  unfold lodePlan
  repeat' first
    | (with_reducible first | assumption | intro _ | apply chk_andThen)
    | simp only [st_ok, st_cwait, st_cfail, keptD_serve, keptD_drop, keptD_wait, keptD_refuse, keptW_mk, id_eq]
    | (with_reducible first | apply eachSequencer_kept | apply cleanOnly_kept | apply fetchOne_kept | apply Chk.guard_kept
                            | apply exactCheck_kept | apply inputCheck_kept | apply fetchRange_kept | apply fetchFrags_kept)
    | split

theorem fetchQueries_kept {qp : List Instr} (r : Req) (x1 : Nat) (x2 : List (Nat × Nat)) {x3 : State} (h3 : Kept qp x3) :
    Kept qp (fetchQueries r x1 x2 x3).st := by
  revert h3
  fun_induction fetchQueries r x1 x2 x3
  all_goals intro h3
  repeat' first
    | (with_reducible first | intro _ | apply chk_andThen | apply fetchRange_kept)
    | apply_assumption

theorem cachePlan_kept {qp : List Instr} {s : State} (o : StepOp) (ctx : BitVec 6) (tag0 : W16) (kind : PassKind)
    (p : PassParams) (h0 : Kept qp s) :
    Kept qp (cachePlan s o ctx tag0 kind p).st := by
  unfold cachePlan
  repeat' first
    | (with_reducible first | assumption | intro _ | apply kept_iteC | apply chk_andThen)
    | simp only [st_ok, st_cwait, st_cfail, keptD_serve, keptD_drop, keptD_wait, keptD_refuse, keptW_mk, id_eq]
    | (with_reducible first | apply eachSequencer_kept | apply cleanOnly_kept | apply fetchOne_kept | apply Chk.guard_kept
                            | apply exactCheck_kept | apply inputCheck_kept | apply fetchRange_kept | apply fetchQueries_kept)

theorem issueOps_kept {qp : List Instr} {s : State} (pid : Nat) (ctx : BitVec 6) (tag : W16) (ops : List RawOp) (h0 : Kept qp s) :
    Kept qp (issueOps s pid ctx tag ops) := by
  unfold issueOps
  exact kept_foldl h0 fun t x h => State.modCol_kept _ _ (wakeDomain_kept _ h)

theorem holdSegments_kept {qp : List Instr} {s : State} (pid : Nat) (gs : List SegPlan) (h0 : Kept qp s) :
    Kept qp (holdSegments s pid gs) := by
  unfold holdSegments
  repeat' with_reducible first | assumption | intro _ | apply kept_foldl | apply State.modStack_kept

theorem startPass_kept {qp : List Instr} {s : State} (q : Nat) (ctx : BitVec 6) (o : StepOp) (p : PassParams) (x : Plan)
    (h0 : Kept qp s) :
    Kept qp (startPass s q ctx o p x) := by
  unfold startPass
  repeat' first
    | with_reducible apply kept_of
    | simp only [kept_mk]
    | (with_reducible first | apply writeFillers_kept | apply putStepOp_kept | apply holdSegments_kept | apply issueOps_kept)
    | apply_assumption

theorem planResult_kept {qp : List Instr} (q : Nat) (ctx : BitVec 6) (o : StepOp) (p : PassParams) {x4 : Chk Plan}
    (h4 : Kept qp x4.st) :
    Kept qp (planResult q ctx o p x4) := by
  unfold planResult
  repeat' first
    | (with_reducible first | apply startPass_kept | apply stepOpDone_kept)
    | split
    | apply_assumption

theorem lodeMask_kept {qp : List Instr} {s : State} (x : StepRun) (o : StepOp) (d : BitVec 512) (h0 : Kept qp s) :
    Kept qp (lodeMask s x o d).st := by
  unfold lodeMask
  repeat' first
    | (with_reducible first | assumption | intro _ | apply kept_iteC | apply chk_andThen)
    | simp only [st_ok, st_cwait, st_cfail, keptD_serve, keptD_drop, keptD_wait, keptD_refuse, keptW_mk, id_eq]
    | with_reducible apply maskRead_kept

theorem lodeStart_kept {qp : List Instr} {s : State} (q : Nat) (h0 : Kept qp s) :
    Kept qp (lodeStart s q) := by
  unfold lodeStart
  repeat' first
    | (with_reducible first | assumption | apply lodeMask_kept | apply stepOpDone_kept | apply opDrop_kept
                            | apply planResult_kept | apply lodePlan_kept)
    | split
    | (with_reducible first | refine chk_ok ?_ (by assumption) | refine chk_wait ?_ (by assumption)
                            | refine chk_fail ?_ (by assumption))

theorem cacheStart_kept {qp : List Instr} {s : State} (q : Nat) (op : Nat) (kind : PassKind) (h0 : Kept qp s) :
    Kept qp (cacheStart s q op kind) := by
  unfold cacheStart
  repeat' first
    | (with_reducible first | assumption | apply withTag_kept | apply planResult_kept | apply cachePlan_kept)
    | split

theorem fillOne_kept {qp : List Instr} (r : Req) (exact : Bool) {a : RedStage} (va : Nat) (h2 : Kept qp a.1) :
    Kept qp (fillOne r exact a va).1 := by
  unfold fillOne
  repeat' first
    | (with_reducible first | assumption | apply storeRange_kept | apply innerDrop_kept)
    | split
    | (with_reducible first | refine chk_ok ?_ (by assumption) | refine chk_wait ?_ (by assumption)
                            | refine chk_fail ?_ (by assumption))

theorem readOne_kept {qp : List Instr} (r : Req) (value : List PByte → RedVal) {a : RedStage} (x : RedItem) (h2 : Kept qp a.1) :
    Kept qp (readOne r value a x).1 := by
  unfold readOne
  repeat' first
    | (with_reducible first | assumption | apply pieceAccess_kept | apply innerDrop_kept)
    | split
    | (with_reducible first | refine chk_ok ?_ (by assumption) | refine chk_wait ?_ (by assumption)
                            | refine chk_fail ?_ (by assumption))

theorem writeOne_kept {qp : List Instr} (r : Req) {a : RedStage} (o : RedOut) (h1 : Kept qp a.1) :
    Kept qp (writeOne r a o).1 := by
  unfold writeOne
  repeat' first
    | (with_reducible first | assumption | apply storeRange_kept | apply innerDrop_kept)
    | split
    | (with_reducible first | refine chk_ok ?_ (by assumption) | refine chk_wait ?_ (by assumption)
                            | refine chk_fail ?_ (by assumption))

theorem reduceRun_kept {qp : List Instr} {s : State} (x : Reduction) (fillReq : Req) (r : Req) (exact : Bool) (fills : List Nat)
    (items : List RedItem) (value : List PByte → RedVal) (cost : Nat → Nat) (h0 : Kept qp s) :
    Kept qp (reduceRun s x fillReq r exact fills items value cost).1 := by
  unfold reduceRun
  try dsimp only
  repeat' first
    | (with_reducible first | assumption | apply kept_foldl2 | apply fillOne_kept | apply readOne_kept | apply writeOne_kept)
    | split

theorem reducePass_kept {qp : List Instr} {s : State} (code : W16) (p : Pass) (cost : Nat → Nat) (h0 : Kept qp s) :
    Kept qp (reducePass s code p cost).1 := by
  unfold reducePass
  repeat' with_reducible first | assumption | apply reduceRun_kept | apply State.modPass_kept

theorem fastHubReduction_kept {qp : List Instr} {s : State} (q : Nat) (f : Nat) (h0 : Kept qp s) :
    Kept qp (fastHubReduction s q f) := by
  unfold fastHubReduction
  repeat' first
    | (with_reducible first | assumption | apply reducePass_kept)
    | split

theorem mergeStart_kept {qp : List Instr} {s : State} (q : Nat) (h0 : Kept qp s) :
    Kept qp (mergeStart s q) := by
  unfold mergeStart
  repeat' first
    | (with_reducible first | assumption | apply kept_of)
    | simp only [kept_mk]
    | (with_reducible first | apply putStepOp_kept | apply stepOpDone_kept | apply logLicence_kept)
    | split

theorem serveMerge_kept {qp : List Instr} {s : State} (j : CollarJob) (h0 : Kept qp s) :
    Kept qp (serveMerge s j) := by
  unfold serveMerge
  repeat' first
    | (with_reducible first | assumption | apply kept_of)
    | simp only [kept_mk]
    | (with_reducible first | apply stepOpDone_kept | apply reduceRun_kept)
    | split

theorem collarReduction_kept {qp : List Instr} {s : State} (h0 : Kept qp s) :
    Kept qp (collarReduction s) := by
  unfold collarReduction
  repeat' first
    | (with_reducible first | assumption | apply kept_of)
    | simp only [kept_mk]
    | (with_reducible first | apply reducePass_kept | apply serveMerge_kept)
    | split

theorem passCompletion_kept {qp : List Instr} {s : State} (q : Nat) (h0 : Kept qp s) :
    Kept qp (passCompletion s q) := by
  unfold passCompletion
  repeat' first
    | (with_reducible first | assumption | intro _ | apply kept_foldl | apply kept_of)
    | simp only [kept_mk]
    | (with_reducible first | apply innerDrop_kept | apply State.modStack_kept | apply stepOpDone_kept)
    | split

end Sys2Proof.Machine
end

