-- ==== Sys2Proof/Laws/State.lean ====
section
/-! SUPPORT. What each update of the state leaves alone: one lemma per field per update. -/

namespace Sys2Proof.Machine

section setCol
variable (s : State) (g : Nat) (c : Col)
@[simp] theorem State.setCol_pending : (s.setCol g c).pending = s.pending := rfl
@[simp] theorem State.setCol_now : (s.setCol g c).now = s.now := rfl
@[simp] theorem State.setCol_out : (s.setCol g c).out = s.out := rfl
@[simp] theorem State.setCol_freeTick : (s.setCol g c).freeTick = s.freeTick := rfl
@[simp] theorem State.setCol_reqNext : (s.setCol g c).reqNext = s.reqNext := rfl
@[simp] theorem State.setCol_mem : (s.setCol g c).mem = s.mem := rfl
@[simp] theorem State.setCol_eccDiff : (s.setCol g c).eccDiff = s.eccDiff := rfl
@[simp] theorem State.setCol_sramErr : (s.setCol g c).sramErr = s.sramErr := rfl
@[simp] theorem State.setCol_xfers : (s.setCol g c).xfers = s.xfers := rfl
@[simp] theorem State.setCol_waits : (s.setCol g c).waits = s.waits := rfl
@[simp] theorem State.setCol_xlate : (s.setCol g c).xlate = s.xlate := rfl
@[simp] theorem State.setCol_groupView : (s.setCol g c).groupView = s.groupView := rfl
@[simp] theorem State.setCol_ctxs : (s.setCol g c).ctxs = s.ctxs := rfl
@[simp] theorem State.setCol_drain : (s.setCol g c).drain = s.drain := rfl
@[simp] theorem State.setCol_stackTbl : (s.setCol g c).stackTbl = s.stackTbl := rfl
@[simp] theorem State.setCol_passes : (s.setCol g c).passes = s.passes := rfl
@[simp] theorem State.setCol_collar : (s.setCol g c).collar = s.collar := rfl
@[simp] theorem State.setCol_collarFree : (s.setCol g c).collarFree = s.collarFree := rfl
@[simp] theorem State.setCol_faces : (s.setCol g c).faces = s.faces := rfl
@[simp] theorem State.setCol_clusters : (s.setCol g c).clusters = s.clusters := rfl
@[simp] theorem State.setCol_queues : (s.setCol g c).queues = s.queues := rfl
@[simp] theorem State.setCol_foreman : (s.setCol g c).foreman = s.foreman := rfl
@[simp] theorem State.setCol_win : (s.setCol g c).win = s.win := rfl
@[simp] theorem State.setCol_tally : (s.setCol g c).tally = s.tally := rfl
@[simp] theorem State.setCol_ports : (s.setCol g c).ports = s.ports := rfl
@[simp] theorem State.setCol_fwds : (s.setCol g c).fwds = s.fwds := rfl
@[simp] theorem State.setCol_host : (s.setCol g c).host = s.host := rfl
@[simp] theorem State.setCol_can : (s.setCol g c).can = s.can := rfl
@[simp] theorem State.setCol_log : (s.setCol g c).log = s.log := rfl
@[simp] theorem State.setCol_life : (s.setCol g c).life = s.life := rfl
@[simp] theorem State.setCol_fuse : (s.setCol g c).fuse = s.fuse := rfl
@[simp] theorem State.setCol_trust : (s.setCol g c).trust = s.trust := rfl
@[simp] theorem State.setCol_geo : (s.setCol g c).geo = s.geo := rfl
@[simp] theorem State.setCol_power : (s.setCol g c).power = s.power := rfl
@[simp] theorem State.setCol_canary : (s.setCol g c).canary = s.canary := rfl
@[simp] theorem State.setCol_inputs : (s.setCol g c).inputs = s.inputs := rfl
@[simp] theorem State.setCol_fence : (s.setCol g c).fence = s.fence := rfl
@[simp] theorem State.setCol_oldBinding : (s.setCol g c).oldBinding = s.oldBinding := rfl
end setCol

section modCol
variable (s : State) (g : Nat) (f : Col → Col)
@[simp] theorem State.modCol_pending : (s.modCol g f).pending = s.pending := rfl
@[simp] theorem State.modCol_now : (s.modCol g f).now = s.now := rfl
@[simp] theorem State.modCol_out : (s.modCol g f).out = s.out := rfl
@[simp] theorem State.modCol_freeTick : (s.modCol g f).freeTick = s.freeTick := rfl
@[simp] theorem State.modCol_reqNext : (s.modCol g f).reqNext = s.reqNext := rfl
@[simp] theorem State.modCol_mem : (s.modCol g f).mem = s.mem := rfl
@[simp] theorem State.modCol_eccDiff : (s.modCol g f).eccDiff = s.eccDiff := rfl
@[simp] theorem State.modCol_sramErr : (s.modCol g f).sramErr = s.sramErr := rfl
@[simp] theorem State.modCol_xfers : (s.modCol g f).xfers = s.xfers := rfl
@[simp] theorem State.modCol_waits : (s.modCol g f).waits = s.waits := rfl
@[simp] theorem State.modCol_xlate : (s.modCol g f).xlate = s.xlate := rfl
@[simp] theorem State.modCol_groupView : (s.modCol g f).groupView = s.groupView := rfl
@[simp] theorem State.modCol_ctxs : (s.modCol g f).ctxs = s.ctxs := rfl
@[simp] theorem State.modCol_drain : (s.modCol g f).drain = s.drain := rfl
@[simp] theorem State.modCol_stackTbl : (s.modCol g f).stackTbl = s.stackTbl := rfl
@[simp] theorem State.modCol_passes : (s.modCol g f).passes = s.passes := rfl
@[simp] theorem State.modCol_collar : (s.modCol g f).collar = s.collar := rfl
@[simp] theorem State.modCol_collarFree : (s.modCol g f).collarFree = s.collarFree := rfl
@[simp] theorem State.modCol_faces : (s.modCol g f).faces = s.faces := rfl
@[simp] theorem State.modCol_clusters : (s.modCol g f).clusters = s.clusters := rfl
@[simp] theorem State.modCol_queues : (s.modCol g f).queues = s.queues := rfl
@[simp] theorem State.modCol_foreman : (s.modCol g f).foreman = s.foreman := rfl
@[simp] theorem State.modCol_win : (s.modCol g f).win = s.win := rfl
@[simp] theorem State.modCol_tally : (s.modCol g f).tally = s.tally := rfl
@[simp] theorem State.modCol_ports : (s.modCol g f).ports = s.ports := rfl
@[simp] theorem State.modCol_fwds : (s.modCol g f).fwds = s.fwds := rfl
@[simp] theorem State.modCol_host : (s.modCol g f).host = s.host := rfl
@[simp] theorem State.modCol_can : (s.modCol g f).can = s.can := rfl
@[simp] theorem State.modCol_log : (s.modCol g f).log = s.log := rfl
@[simp] theorem State.modCol_life : (s.modCol g f).life = s.life := rfl
@[simp] theorem State.modCol_fuse : (s.modCol g f).fuse = s.fuse := rfl
@[simp] theorem State.modCol_trust : (s.modCol g f).trust = s.trust := rfl
@[simp] theorem State.modCol_geo : (s.modCol g f).geo = s.geo := rfl
@[simp] theorem State.modCol_power : (s.modCol g f).power = s.power := rfl
@[simp] theorem State.modCol_canary : (s.modCol g f).canary = s.canary := rfl
@[simp] theorem State.modCol_inputs : (s.modCol g f).inputs = s.inputs := rfl
@[simp] theorem State.modCol_fence : (s.modCol g f).fence = s.fence := rfl
@[simp] theorem State.modCol_oldBinding : (s.modCol g f).oldBinding = s.oldBinding := rfl
end modCol

section setStack
variable (s : State) (n : Nat) (k : Stack)
@[simp] theorem State.setStack_pending : (s.setStack n k).pending = s.pending := rfl
@[simp] theorem State.setStack_now : (s.setStack n k).now = s.now := rfl
@[simp] theorem State.setStack_out : (s.setStack n k).out = s.out := rfl
@[simp] theorem State.setStack_freeTick : (s.setStack n k).freeTick = s.freeTick := rfl
@[simp] theorem State.setStack_reqNext : (s.setStack n k).reqNext = s.reqNext := rfl
@[simp] theorem State.setStack_mem : (s.setStack n k).mem = s.mem := rfl
@[simp] theorem State.setStack_eccDiff : (s.setStack n k).eccDiff = s.eccDiff := rfl
@[simp] theorem State.setStack_sramErr : (s.setStack n k).sramErr = s.sramErr := rfl
@[simp] theorem State.setStack_xfers : (s.setStack n k).xfers = s.xfers := rfl
@[simp] theorem State.setStack_waits : (s.setStack n k).waits = s.waits := rfl
@[simp] theorem State.setStack_xlate : (s.setStack n k).xlate = s.xlate := rfl
@[simp] theorem State.setStack_groupView : (s.setStack n k).groupView = s.groupView := rfl
@[simp] theorem State.setStack_ctxs : (s.setStack n k).ctxs = s.ctxs := rfl
@[simp] theorem State.setStack_drain : (s.setStack n k).drain = s.drain := rfl
@[simp] theorem State.setStack_cols : (s.setStack n k).cols = s.cols := rfl
@[simp] theorem State.setStack_passes : (s.setStack n k).passes = s.passes := rfl
@[simp] theorem State.setStack_collar : (s.setStack n k).collar = s.collar := rfl
@[simp] theorem State.setStack_collarFree : (s.setStack n k).collarFree = s.collarFree := rfl
@[simp] theorem State.setStack_faces : (s.setStack n k).faces = s.faces := rfl
@[simp] theorem State.setStack_clusters : (s.setStack n k).clusters = s.clusters := rfl
@[simp] theorem State.setStack_queues : (s.setStack n k).queues = s.queues := rfl
@[simp] theorem State.setStack_foreman : (s.setStack n k).foreman = s.foreman := rfl
@[simp] theorem State.setStack_win : (s.setStack n k).win = s.win := rfl
@[simp] theorem State.setStack_tally : (s.setStack n k).tally = s.tally := rfl
@[simp] theorem State.setStack_ports : (s.setStack n k).ports = s.ports := rfl
@[simp] theorem State.setStack_fwds : (s.setStack n k).fwds = s.fwds := rfl
@[simp] theorem State.setStack_host : (s.setStack n k).host = s.host := rfl
@[simp] theorem State.setStack_can : (s.setStack n k).can = s.can := rfl
@[simp] theorem State.setStack_log : (s.setStack n k).log = s.log := rfl
@[simp] theorem State.setStack_life : (s.setStack n k).life = s.life := rfl
@[simp] theorem State.setStack_fuse : (s.setStack n k).fuse = s.fuse := rfl
@[simp] theorem State.setStack_trust : (s.setStack n k).trust = s.trust := rfl
@[simp] theorem State.setStack_geo : (s.setStack n k).geo = s.geo := rfl
@[simp] theorem State.setStack_power : (s.setStack n k).power = s.power := rfl
@[simp] theorem State.setStack_canary : (s.setStack n k).canary = s.canary := rfl
@[simp] theorem State.setStack_inputs : (s.setStack n k).inputs = s.inputs := rfl
@[simp] theorem State.setStack_fence : (s.setStack n k).fence = s.fence := rfl
@[simp] theorem State.setStack_oldBinding : (s.setStack n k).oldBinding = s.oldBinding := rfl
end setStack

section modStack
variable (s : State) (n : Nat) (f : Stack → Stack)
@[simp] theorem State.modStack_pending : (s.modStack n f).pending = s.pending := rfl
@[simp] theorem State.modStack_now : (s.modStack n f).now = s.now := rfl
@[simp] theorem State.modStack_out : (s.modStack n f).out = s.out := rfl
@[simp] theorem State.modStack_freeTick : (s.modStack n f).freeTick = s.freeTick := rfl
@[simp] theorem State.modStack_reqNext : (s.modStack n f).reqNext = s.reqNext := rfl
@[simp] theorem State.modStack_mem : (s.modStack n f).mem = s.mem := rfl
@[simp] theorem State.modStack_eccDiff : (s.modStack n f).eccDiff = s.eccDiff := rfl
@[simp] theorem State.modStack_sramErr : (s.modStack n f).sramErr = s.sramErr := rfl
@[simp] theorem State.modStack_xfers : (s.modStack n f).xfers = s.xfers := rfl
@[simp] theorem State.modStack_waits : (s.modStack n f).waits = s.waits := rfl
@[simp] theorem State.modStack_xlate : (s.modStack n f).xlate = s.xlate := rfl
@[simp] theorem State.modStack_groupView : (s.modStack n f).groupView = s.groupView := rfl
@[simp] theorem State.modStack_ctxs : (s.modStack n f).ctxs = s.ctxs := rfl
@[simp] theorem State.modStack_drain : (s.modStack n f).drain = s.drain := rfl
@[simp] theorem State.modStack_cols : (s.modStack n f).cols = s.cols := rfl
@[simp] theorem State.modStack_passes : (s.modStack n f).passes = s.passes := rfl
@[simp] theorem State.modStack_collar : (s.modStack n f).collar = s.collar := rfl
@[simp] theorem State.modStack_collarFree : (s.modStack n f).collarFree = s.collarFree := rfl
@[simp] theorem State.modStack_faces : (s.modStack n f).faces = s.faces := rfl
@[simp] theorem State.modStack_clusters : (s.modStack n f).clusters = s.clusters := rfl
@[simp] theorem State.modStack_queues : (s.modStack n f).queues = s.queues := rfl
@[simp] theorem State.modStack_foreman : (s.modStack n f).foreman = s.foreman := rfl
@[simp] theorem State.modStack_win : (s.modStack n f).win = s.win := rfl
@[simp] theorem State.modStack_tally : (s.modStack n f).tally = s.tally := rfl
@[simp] theorem State.modStack_ports : (s.modStack n f).ports = s.ports := rfl
@[simp] theorem State.modStack_fwds : (s.modStack n f).fwds = s.fwds := rfl
@[simp] theorem State.modStack_host : (s.modStack n f).host = s.host := rfl
@[simp] theorem State.modStack_can : (s.modStack n f).can = s.can := rfl
@[simp] theorem State.modStack_log : (s.modStack n f).log = s.log := rfl
@[simp] theorem State.modStack_life : (s.modStack n f).life = s.life := rfl
@[simp] theorem State.modStack_fuse : (s.modStack n f).fuse = s.fuse := rfl
@[simp] theorem State.modStack_trust : (s.modStack n f).trust = s.trust := rfl
@[simp] theorem State.modStack_geo : (s.modStack n f).geo = s.geo := rfl
@[simp] theorem State.modStack_power : (s.modStack n f).power = s.power := rfl
@[simp] theorem State.modStack_canary : (s.modStack n f).canary = s.canary := rfl
@[simp] theorem State.modStack_inputs : (s.modStack n f).inputs = s.inputs := rfl
@[simp] theorem State.modStack_fence : (s.modStack n f).fence = s.fence := rfl
@[simp] theorem State.modStack_oldBinding : (s.modStack n f).oldBinding = s.oldBinding := rfl
end modStack

section setFace
variable (s : State) (f : Nat) (c : Face)
@[simp] theorem State.setFace_pending : (s.setFace f c).pending = s.pending := rfl
@[simp] theorem State.setFace_now : (s.setFace f c).now = s.now := rfl
@[simp] theorem State.setFace_out : (s.setFace f c).out = s.out := rfl
@[simp] theorem State.setFace_freeTick : (s.setFace f c).freeTick = s.freeTick := rfl
@[simp] theorem State.setFace_reqNext : (s.setFace f c).reqNext = s.reqNext := rfl
@[simp] theorem State.setFace_mem : (s.setFace f c).mem = s.mem := rfl
@[simp] theorem State.setFace_eccDiff : (s.setFace f c).eccDiff = s.eccDiff := rfl
@[simp] theorem State.setFace_sramErr : (s.setFace f c).sramErr = s.sramErr := rfl
@[simp] theorem State.setFace_xfers : (s.setFace f c).xfers = s.xfers := rfl
@[simp] theorem State.setFace_waits : (s.setFace f c).waits = s.waits := rfl
@[simp] theorem State.setFace_xlate : (s.setFace f c).xlate = s.xlate := rfl
@[simp] theorem State.setFace_groupView : (s.setFace f c).groupView = s.groupView := rfl
@[simp] theorem State.setFace_ctxs : (s.setFace f c).ctxs = s.ctxs := rfl
@[simp] theorem State.setFace_drain : (s.setFace f c).drain = s.drain := rfl
@[simp] theorem State.setFace_cols : (s.setFace f c).cols = s.cols := rfl
@[simp] theorem State.setFace_stackTbl : (s.setFace f c).stackTbl = s.stackTbl := rfl
@[simp] theorem State.setFace_passes : (s.setFace f c).passes = s.passes := rfl
@[simp] theorem State.setFace_collar : (s.setFace f c).collar = s.collar := rfl
@[simp] theorem State.setFace_collarFree : (s.setFace f c).collarFree = s.collarFree := rfl
@[simp] theorem State.setFace_clusters : (s.setFace f c).clusters = s.clusters := rfl
@[simp] theorem State.setFace_queues : (s.setFace f c).queues = s.queues := rfl
@[simp] theorem State.setFace_foreman : (s.setFace f c).foreman = s.foreman := rfl
@[simp] theorem State.setFace_win : (s.setFace f c).win = s.win := rfl
@[simp] theorem State.setFace_tally : (s.setFace f c).tally = s.tally := rfl
@[simp] theorem State.setFace_ports : (s.setFace f c).ports = s.ports := rfl
@[simp] theorem State.setFace_fwds : (s.setFace f c).fwds = s.fwds := rfl
@[simp] theorem State.setFace_host : (s.setFace f c).host = s.host := rfl
@[simp] theorem State.setFace_can : (s.setFace f c).can = s.can := rfl
@[simp] theorem State.setFace_log : (s.setFace f c).log = s.log := rfl
@[simp] theorem State.setFace_life : (s.setFace f c).life = s.life := rfl
@[simp] theorem State.setFace_fuse : (s.setFace f c).fuse = s.fuse := rfl
@[simp] theorem State.setFace_trust : (s.setFace f c).trust = s.trust := rfl
@[simp] theorem State.setFace_geo : (s.setFace f c).geo = s.geo := rfl
@[simp] theorem State.setFace_power : (s.setFace f c).power = s.power := rfl
@[simp] theorem State.setFace_canary : (s.setFace f c).canary = s.canary := rfl
@[simp] theorem State.setFace_inputs : (s.setFace f c).inputs = s.inputs := rfl
@[simp] theorem State.setFace_fence : (s.setFace f c).fence = s.fence := rfl
@[simp] theorem State.setFace_oldBinding : (s.setFace f c).oldBinding = s.oldBinding := rfl
end setFace

section modFace
variable (s : State) (f : Nat) (k : Face → Face)
@[simp] theorem State.modFace_pending : (s.modFace f k).pending = s.pending := rfl
@[simp] theorem State.modFace_now : (s.modFace f k).now = s.now := rfl
@[simp] theorem State.modFace_out : (s.modFace f k).out = s.out := rfl
@[simp] theorem State.modFace_freeTick : (s.modFace f k).freeTick = s.freeTick := rfl
@[simp] theorem State.modFace_reqNext : (s.modFace f k).reqNext = s.reqNext := rfl
@[simp] theorem State.modFace_mem : (s.modFace f k).mem = s.mem := rfl
@[simp] theorem State.modFace_eccDiff : (s.modFace f k).eccDiff = s.eccDiff := rfl
@[simp] theorem State.modFace_sramErr : (s.modFace f k).sramErr = s.sramErr := rfl
@[simp] theorem State.modFace_xfers : (s.modFace f k).xfers = s.xfers := rfl
@[simp] theorem State.modFace_waits : (s.modFace f k).waits = s.waits := rfl
@[simp] theorem State.modFace_xlate : (s.modFace f k).xlate = s.xlate := rfl
@[simp] theorem State.modFace_groupView : (s.modFace f k).groupView = s.groupView := rfl
@[simp] theorem State.modFace_ctxs : (s.modFace f k).ctxs = s.ctxs := rfl
@[simp] theorem State.modFace_drain : (s.modFace f k).drain = s.drain := rfl
@[simp] theorem State.modFace_cols : (s.modFace f k).cols = s.cols := rfl
@[simp] theorem State.modFace_stackTbl : (s.modFace f k).stackTbl = s.stackTbl := rfl
@[simp] theorem State.modFace_passes : (s.modFace f k).passes = s.passes := rfl
@[simp] theorem State.modFace_collar : (s.modFace f k).collar = s.collar := rfl
@[simp] theorem State.modFace_collarFree : (s.modFace f k).collarFree = s.collarFree := rfl
@[simp] theorem State.modFace_clusters : (s.modFace f k).clusters = s.clusters := rfl
@[simp] theorem State.modFace_queues : (s.modFace f k).queues = s.queues := rfl
@[simp] theorem State.modFace_foreman : (s.modFace f k).foreman = s.foreman := rfl
@[simp] theorem State.modFace_win : (s.modFace f k).win = s.win := rfl
@[simp] theorem State.modFace_tally : (s.modFace f k).tally = s.tally := rfl
@[simp] theorem State.modFace_ports : (s.modFace f k).ports = s.ports := rfl
@[simp] theorem State.modFace_fwds : (s.modFace f k).fwds = s.fwds := rfl
@[simp] theorem State.modFace_host : (s.modFace f k).host = s.host := rfl
@[simp] theorem State.modFace_can : (s.modFace f k).can = s.can := rfl
@[simp] theorem State.modFace_log : (s.modFace f k).log = s.log := rfl
@[simp] theorem State.modFace_life : (s.modFace f k).life = s.life := rfl
@[simp] theorem State.modFace_fuse : (s.modFace f k).fuse = s.fuse := rfl
@[simp] theorem State.modFace_trust : (s.modFace f k).trust = s.trust := rfl
@[simp] theorem State.modFace_geo : (s.modFace f k).geo = s.geo := rfl
@[simp] theorem State.modFace_power : (s.modFace f k).power = s.power := rfl
@[simp] theorem State.modFace_canary : (s.modFace f k).canary = s.canary := rfl
@[simp] theorem State.modFace_inputs : (s.modFace f k).inputs = s.inputs := rfl
@[simp] theorem State.modFace_fence : (s.modFace f k).fence = s.fence := rfl
@[simp] theorem State.modFace_oldBinding : (s.modFace f k).oldBinding = s.oldBinding := rfl
end modFace

section setCluster
variable (s : State) (c : Nat) (k : Cluster)
@[simp] theorem State.setCluster_pending : (s.setCluster c k).pending = s.pending := rfl
@[simp] theorem State.setCluster_now : (s.setCluster c k).now = s.now := rfl
@[simp] theorem State.setCluster_out : (s.setCluster c k).out = s.out := rfl
@[simp] theorem State.setCluster_freeTick : (s.setCluster c k).freeTick = s.freeTick := rfl
@[simp] theorem State.setCluster_reqNext : (s.setCluster c k).reqNext = s.reqNext := rfl
@[simp] theorem State.setCluster_mem : (s.setCluster c k).mem = s.mem := rfl
@[simp] theorem State.setCluster_eccDiff : (s.setCluster c k).eccDiff = s.eccDiff := rfl
@[simp] theorem State.setCluster_sramErr : (s.setCluster c k).sramErr = s.sramErr := rfl
@[simp] theorem State.setCluster_xfers : (s.setCluster c k).xfers = s.xfers := rfl
@[simp] theorem State.setCluster_waits : (s.setCluster c k).waits = s.waits := rfl
@[simp] theorem State.setCluster_xlate : (s.setCluster c k).xlate = s.xlate := rfl
@[simp] theorem State.setCluster_groupView : (s.setCluster c k).groupView = s.groupView := rfl
@[simp] theorem State.setCluster_ctxs : (s.setCluster c k).ctxs = s.ctxs := rfl
@[simp] theorem State.setCluster_drain : (s.setCluster c k).drain = s.drain := rfl
@[simp] theorem State.setCluster_cols : (s.setCluster c k).cols = s.cols := rfl
@[simp] theorem State.setCluster_stackTbl : (s.setCluster c k).stackTbl = s.stackTbl := rfl
@[simp] theorem State.setCluster_passes : (s.setCluster c k).passes = s.passes := rfl
@[simp] theorem State.setCluster_collar : (s.setCluster c k).collar = s.collar := rfl
@[simp] theorem State.setCluster_collarFree : (s.setCluster c k).collarFree = s.collarFree := rfl
@[simp] theorem State.setCluster_faces : (s.setCluster c k).faces = s.faces := rfl
@[simp] theorem State.setCluster_queues : (s.setCluster c k).queues = s.queues := rfl
@[simp] theorem State.setCluster_foreman : (s.setCluster c k).foreman = s.foreman := rfl
@[simp] theorem State.setCluster_win : (s.setCluster c k).win = s.win := rfl
@[simp] theorem State.setCluster_tally : (s.setCluster c k).tally = s.tally := rfl
@[simp] theorem State.setCluster_ports : (s.setCluster c k).ports = s.ports := rfl
@[simp] theorem State.setCluster_fwds : (s.setCluster c k).fwds = s.fwds := rfl
@[simp] theorem State.setCluster_host : (s.setCluster c k).host = s.host := rfl
@[simp] theorem State.setCluster_can : (s.setCluster c k).can = s.can := rfl
@[simp] theorem State.setCluster_log : (s.setCluster c k).log = s.log := rfl
@[simp] theorem State.setCluster_life : (s.setCluster c k).life = s.life := rfl
@[simp] theorem State.setCluster_fuse : (s.setCluster c k).fuse = s.fuse := rfl
@[simp] theorem State.setCluster_trust : (s.setCluster c k).trust = s.trust := rfl
@[simp] theorem State.setCluster_geo : (s.setCluster c k).geo = s.geo := rfl
@[simp] theorem State.setCluster_power : (s.setCluster c k).power = s.power := rfl
@[simp] theorem State.setCluster_canary : (s.setCluster c k).canary = s.canary := rfl
@[simp] theorem State.setCluster_inputs : (s.setCluster c k).inputs = s.inputs := rfl
@[simp] theorem State.setCluster_fence : (s.setCluster c k).fence = s.fence := rfl
@[simp] theorem State.setCluster_oldBinding : (s.setCluster c k).oldBinding = s.oldBinding := rfl
end setCluster

section setQueue
variable (s : State) (q : Nat) (k : Queue)
@[simp] theorem State.setQueue_pending : (s.setQueue q k).pending = s.pending := rfl
@[simp] theorem State.setQueue_now : (s.setQueue q k).now = s.now := rfl
@[simp] theorem State.setQueue_out : (s.setQueue q k).out = s.out := rfl
@[simp] theorem State.setQueue_freeTick : (s.setQueue q k).freeTick = s.freeTick := rfl
@[simp] theorem State.setQueue_reqNext : (s.setQueue q k).reqNext = s.reqNext := rfl
@[simp] theorem State.setQueue_mem : (s.setQueue q k).mem = s.mem := rfl
@[simp] theorem State.setQueue_eccDiff : (s.setQueue q k).eccDiff = s.eccDiff := rfl
@[simp] theorem State.setQueue_sramErr : (s.setQueue q k).sramErr = s.sramErr := rfl
@[simp] theorem State.setQueue_xfers : (s.setQueue q k).xfers = s.xfers := rfl
@[simp] theorem State.setQueue_waits : (s.setQueue q k).waits = s.waits := rfl
@[simp] theorem State.setQueue_xlate : (s.setQueue q k).xlate = s.xlate := rfl
@[simp] theorem State.setQueue_groupView : (s.setQueue q k).groupView = s.groupView := rfl
@[simp] theorem State.setQueue_ctxs : (s.setQueue q k).ctxs = s.ctxs := rfl
@[simp] theorem State.setQueue_drain : (s.setQueue q k).drain = s.drain := rfl
@[simp] theorem State.setQueue_cols : (s.setQueue q k).cols = s.cols := rfl
@[simp] theorem State.setQueue_stackTbl : (s.setQueue q k).stackTbl = s.stackTbl := rfl
@[simp] theorem State.setQueue_passes : (s.setQueue q k).passes = s.passes := rfl
@[simp] theorem State.setQueue_collar : (s.setQueue q k).collar = s.collar := rfl
@[simp] theorem State.setQueue_collarFree : (s.setQueue q k).collarFree = s.collarFree := rfl
@[simp] theorem State.setQueue_faces : (s.setQueue q k).faces = s.faces := rfl
@[simp] theorem State.setQueue_clusters : (s.setQueue q k).clusters = s.clusters := rfl
@[simp] theorem State.setQueue_foreman : (s.setQueue q k).foreman = s.foreman := rfl
@[simp] theorem State.setQueue_win : (s.setQueue q k).win = s.win := rfl
@[simp] theorem State.setQueue_tally : (s.setQueue q k).tally = s.tally := rfl
@[simp] theorem State.setQueue_ports : (s.setQueue q k).ports = s.ports := rfl
@[simp] theorem State.setQueue_fwds : (s.setQueue q k).fwds = s.fwds := rfl
@[simp] theorem State.setQueue_host : (s.setQueue q k).host = s.host := rfl
@[simp] theorem State.setQueue_can : (s.setQueue q k).can = s.can := rfl
@[simp] theorem State.setQueue_log : (s.setQueue q k).log = s.log := rfl
@[simp] theorem State.setQueue_life : (s.setQueue q k).life = s.life := rfl
@[simp] theorem State.setQueue_fuse : (s.setQueue q k).fuse = s.fuse := rfl
@[simp] theorem State.setQueue_trust : (s.setQueue q k).trust = s.trust := rfl
@[simp] theorem State.setQueue_geo : (s.setQueue q k).geo = s.geo := rfl
@[simp] theorem State.setQueue_power : (s.setQueue q k).power = s.power := rfl
@[simp] theorem State.setQueue_canary : (s.setQueue q k).canary = s.canary := rfl
@[simp] theorem State.setQueue_inputs : (s.setQueue q k).inputs = s.inputs := rfl
@[simp] theorem State.setQueue_fence : (s.setQueue q k).fence = s.fence := rfl
@[simp] theorem State.setQueue_oldBinding : (s.setQueue q k).oldBinding = s.oldBinding := rfl
end setQueue

section modQueue
variable (s : State) (q : Nat) (f : Queue → Queue)
@[simp] theorem State.modQueue_pending : (s.modQueue q f).pending = s.pending := rfl
@[simp] theorem State.modQueue_now : (s.modQueue q f).now = s.now := rfl
@[simp] theorem State.modQueue_out : (s.modQueue q f).out = s.out := rfl
@[simp] theorem State.modQueue_freeTick : (s.modQueue q f).freeTick = s.freeTick := rfl
@[simp] theorem State.modQueue_reqNext : (s.modQueue q f).reqNext = s.reqNext := rfl
@[simp] theorem State.modQueue_mem : (s.modQueue q f).mem = s.mem := rfl
@[simp] theorem State.modQueue_eccDiff : (s.modQueue q f).eccDiff = s.eccDiff := rfl
@[simp] theorem State.modQueue_sramErr : (s.modQueue q f).sramErr = s.sramErr := rfl
@[simp] theorem State.modQueue_xfers : (s.modQueue q f).xfers = s.xfers := rfl
@[simp] theorem State.modQueue_waits : (s.modQueue q f).waits = s.waits := rfl
@[simp] theorem State.modQueue_xlate : (s.modQueue q f).xlate = s.xlate := rfl
@[simp] theorem State.modQueue_groupView : (s.modQueue q f).groupView = s.groupView := rfl
@[simp] theorem State.modQueue_ctxs : (s.modQueue q f).ctxs = s.ctxs := rfl
@[simp] theorem State.modQueue_drain : (s.modQueue q f).drain = s.drain := rfl
@[simp] theorem State.modQueue_cols : (s.modQueue q f).cols = s.cols := rfl
@[simp] theorem State.modQueue_stackTbl : (s.modQueue q f).stackTbl = s.stackTbl := rfl
@[simp] theorem State.modQueue_passes : (s.modQueue q f).passes = s.passes := rfl
@[simp] theorem State.modQueue_collar : (s.modQueue q f).collar = s.collar := rfl
@[simp] theorem State.modQueue_collarFree : (s.modQueue q f).collarFree = s.collarFree := rfl
@[simp] theorem State.modQueue_faces : (s.modQueue q f).faces = s.faces := rfl
@[simp] theorem State.modQueue_clusters : (s.modQueue q f).clusters = s.clusters := rfl
@[simp] theorem State.modQueue_foreman : (s.modQueue q f).foreman = s.foreman := rfl
@[simp] theorem State.modQueue_win : (s.modQueue q f).win = s.win := rfl
@[simp] theorem State.modQueue_tally : (s.modQueue q f).tally = s.tally := rfl
@[simp] theorem State.modQueue_ports : (s.modQueue q f).ports = s.ports := rfl
@[simp] theorem State.modQueue_fwds : (s.modQueue q f).fwds = s.fwds := rfl
@[simp] theorem State.modQueue_host : (s.modQueue q f).host = s.host := rfl
@[simp] theorem State.modQueue_can : (s.modQueue q f).can = s.can := rfl
@[simp] theorem State.modQueue_log : (s.modQueue q f).log = s.log := rfl
@[simp] theorem State.modQueue_life : (s.modQueue q f).life = s.life := rfl
@[simp] theorem State.modQueue_fuse : (s.modQueue q f).fuse = s.fuse := rfl
@[simp] theorem State.modQueue_trust : (s.modQueue q f).trust = s.trust := rfl
@[simp] theorem State.modQueue_geo : (s.modQueue q f).geo = s.geo := rfl
@[simp] theorem State.modQueue_power : (s.modQueue q f).power = s.power := rfl
@[simp] theorem State.modQueue_canary : (s.modQueue q f).canary = s.canary := rfl
@[simp] theorem State.modQueue_inputs : (s.modQueue q f).inputs = s.inputs := rfl
@[simp] theorem State.modQueue_fence : (s.modQueue q f).fence = s.fence := rfl
@[simp] theorem State.modQueue_oldBinding : (s.modQueue q f).oldBinding = s.oldBinding := rfl
end modQueue

section setPort
variable (s : State) (k : Nat) (p : Port)
@[simp] theorem State.setPort_pending : (s.setPort k p).pending = s.pending := rfl
@[simp] theorem State.setPort_now : (s.setPort k p).now = s.now := rfl
@[simp] theorem State.setPort_out : (s.setPort k p).out = s.out := rfl
@[simp] theorem State.setPort_freeTick : (s.setPort k p).freeTick = s.freeTick := rfl
@[simp] theorem State.setPort_reqNext : (s.setPort k p).reqNext = s.reqNext := rfl
@[simp] theorem State.setPort_mem : (s.setPort k p).mem = s.mem := rfl
@[simp] theorem State.setPort_eccDiff : (s.setPort k p).eccDiff = s.eccDiff := rfl
@[simp] theorem State.setPort_sramErr : (s.setPort k p).sramErr = s.sramErr := rfl
@[simp] theorem State.setPort_xfers : (s.setPort k p).xfers = s.xfers := rfl
@[simp] theorem State.setPort_waits : (s.setPort k p).waits = s.waits := rfl
@[simp] theorem State.setPort_xlate : (s.setPort k p).xlate = s.xlate := rfl
@[simp] theorem State.setPort_groupView : (s.setPort k p).groupView = s.groupView := rfl
@[simp] theorem State.setPort_ctxs : (s.setPort k p).ctxs = s.ctxs := rfl
@[simp] theorem State.setPort_drain : (s.setPort k p).drain = s.drain := rfl
@[simp] theorem State.setPort_cols : (s.setPort k p).cols = s.cols := rfl
@[simp] theorem State.setPort_stackTbl : (s.setPort k p).stackTbl = s.stackTbl := rfl
@[simp] theorem State.setPort_passes : (s.setPort k p).passes = s.passes := rfl
@[simp] theorem State.setPort_collar : (s.setPort k p).collar = s.collar := rfl
@[simp] theorem State.setPort_collarFree : (s.setPort k p).collarFree = s.collarFree := rfl
@[simp] theorem State.setPort_faces : (s.setPort k p).faces = s.faces := rfl
@[simp] theorem State.setPort_clusters : (s.setPort k p).clusters = s.clusters := rfl
@[simp] theorem State.setPort_queues : (s.setPort k p).queues = s.queues := rfl
@[simp] theorem State.setPort_foreman : (s.setPort k p).foreman = s.foreman := rfl
@[simp] theorem State.setPort_win : (s.setPort k p).win = s.win := rfl
@[simp] theorem State.setPort_tally : (s.setPort k p).tally = s.tally := rfl
@[simp] theorem State.setPort_fwds : (s.setPort k p).fwds = s.fwds := rfl
@[simp] theorem State.setPort_host : (s.setPort k p).host = s.host := rfl
@[simp] theorem State.setPort_can : (s.setPort k p).can = s.can := rfl
@[simp] theorem State.setPort_log : (s.setPort k p).log = s.log := rfl
@[simp] theorem State.setPort_life : (s.setPort k p).life = s.life := rfl
@[simp] theorem State.setPort_fuse : (s.setPort k p).fuse = s.fuse := rfl
@[simp] theorem State.setPort_trust : (s.setPort k p).trust = s.trust := rfl
@[simp] theorem State.setPort_geo : (s.setPort k p).geo = s.geo := rfl
@[simp] theorem State.setPort_power : (s.setPort k p).power = s.power := rfl
@[simp] theorem State.setPort_canary : (s.setPort k p).canary = s.canary := rfl
@[simp] theorem State.setPort_inputs : (s.setPort k p).inputs = s.inputs := rfl
@[simp] theorem State.setPort_fence : (s.setPort k p).fence = s.fence := rfl
@[simp] theorem State.setPort_oldBinding : (s.setPort k p).oldBinding = s.oldBinding := rfl
end setPort

section modPort
variable (s : State) (k : Nat) (f : Port → Port)
@[simp] theorem State.modPort_pending : (s.modPort k f).pending = s.pending := rfl
@[simp] theorem State.modPort_now : (s.modPort k f).now = s.now := rfl
@[simp] theorem State.modPort_out : (s.modPort k f).out = s.out := rfl
@[simp] theorem State.modPort_freeTick : (s.modPort k f).freeTick = s.freeTick := rfl
@[simp] theorem State.modPort_reqNext : (s.modPort k f).reqNext = s.reqNext := rfl
@[simp] theorem State.modPort_mem : (s.modPort k f).mem = s.mem := rfl
@[simp] theorem State.modPort_eccDiff : (s.modPort k f).eccDiff = s.eccDiff := rfl
@[simp] theorem State.modPort_sramErr : (s.modPort k f).sramErr = s.sramErr := rfl
@[simp] theorem State.modPort_xfers : (s.modPort k f).xfers = s.xfers := rfl
@[simp] theorem State.modPort_waits : (s.modPort k f).waits = s.waits := rfl
@[simp] theorem State.modPort_xlate : (s.modPort k f).xlate = s.xlate := rfl
@[simp] theorem State.modPort_groupView : (s.modPort k f).groupView = s.groupView := rfl
@[simp] theorem State.modPort_ctxs : (s.modPort k f).ctxs = s.ctxs := rfl
@[simp] theorem State.modPort_drain : (s.modPort k f).drain = s.drain := rfl
@[simp] theorem State.modPort_cols : (s.modPort k f).cols = s.cols := rfl
@[simp] theorem State.modPort_stackTbl : (s.modPort k f).stackTbl = s.stackTbl := rfl
@[simp] theorem State.modPort_passes : (s.modPort k f).passes = s.passes := rfl
@[simp] theorem State.modPort_collar : (s.modPort k f).collar = s.collar := rfl
@[simp] theorem State.modPort_collarFree : (s.modPort k f).collarFree = s.collarFree := rfl
@[simp] theorem State.modPort_faces : (s.modPort k f).faces = s.faces := rfl
@[simp] theorem State.modPort_clusters : (s.modPort k f).clusters = s.clusters := rfl
@[simp] theorem State.modPort_queues : (s.modPort k f).queues = s.queues := rfl
@[simp] theorem State.modPort_foreman : (s.modPort k f).foreman = s.foreman := rfl
@[simp] theorem State.modPort_win : (s.modPort k f).win = s.win := rfl
@[simp] theorem State.modPort_tally : (s.modPort k f).tally = s.tally := rfl
@[simp] theorem State.modPort_fwds : (s.modPort k f).fwds = s.fwds := rfl
@[simp] theorem State.modPort_host : (s.modPort k f).host = s.host := rfl
@[simp] theorem State.modPort_can : (s.modPort k f).can = s.can := rfl
@[simp] theorem State.modPort_log : (s.modPort k f).log = s.log := rfl
@[simp] theorem State.modPort_life : (s.modPort k f).life = s.life := rfl
@[simp] theorem State.modPort_fuse : (s.modPort k f).fuse = s.fuse := rfl
@[simp] theorem State.modPort_trust : (s.modPort k f).trust = s.trust := rfl
@[simp] theorem State.modPort_geo : (s.modPort k f).geo = s.geo := rfl
@[simp] theorem State.modPort_power : (s.modPort k f).power = s.power := rfl
@[simp] theorem State.modPort_canary : (s.modPort k f).canary = s.canary := rfl
@[simp] theorem State.modPort_inputs : (s.modPort k f).inputs = s.inputs := rfl
@[simp] theorem State.modPort_fence : (s.modPort k f).fence = s.fence := rfl
@[simp] theorem State.modPort_oldBinding : (s.modPort k f).oldBinding = s.oldBinding := rfl
end modPort

section setCtx
variable (s : State) (c : Nat) (k : Ctx)
@[simp] theorem State.setCtx_pending : (s.setCtx c k).pending = s.pending := rfl
@[simp] theorem State.setCtx_now : (s.setCtx c k).now = s.now := rfl
@[simp] theorem State.setCtx_out : (s.setCtx c k).out = s.out := rfl
@[simp] theorem State.setCtx_freeTick : (s.setCtx c k).freeTick = s.freeTick := rfl
@[simp] theorem State.setCtx_reqNext : (s.setCtx c k).reqNext = s.reqNext := rfl
@[simp] theorem State.setCtx_mem : (s.setCtx c k).mem = s.mem := rfl
@[simp] theorem State.setCtx_eccDiff : (s.setCtx c k).eccDiff = s.eccDiff := rfl
@[simp] theorem State.setCtx_sramErr : (s.setCtx c k).sramErr = s.sramErr := rfl
@[simp] theorem State.setCtx_xfers : (s.setCtx c k).xfers = s.xfers := rfl
@[simp] theorem State.setCtx_waits : (s.setCtx c k).waits = s.waits := rfl
@[simp] theorem State.setCtx_xlate : (s.setCtx c k).xlate = s.xlate := rfl
@[simp] theorem State.setCtx_groupView : (s.setCtx c k).groupView = s.groupView := rfl
@[simp] theorem State.setCtx_drain : (s.setCtx c k).drain = s.drain := rfl
@[simp] theorem State.setCtx_cols : (s.setCtx c k).cols = s.cols := rfl
@[simp] theorem State.setCtx_stackTbl : (s.setCtx c k).stackTbl = s.stackTbl := rfl
@[simp] theorem State.setCtx_passes : (s.setCtx c k).passes = s.passes := rfl
@[simp] theorem State.setCtx_collar : (s.setCtx c k).collar = s.collar := rfl
@[simp] theorem State.setCtx_collarFree : (s.setCtx c k).collarFree = s.collarFree := rfl
@[simp] theorem State.setCtx_faces : (s.setCtx c k).faces = s.faces := rfl
@[simp] theorem State.setCtx_clusters : (s.setCtx c k).clusters = s.clusters := rfl
@[simp] theorem State.setCtx_queues : (s.setCtx c k).queues = s.queues := rfl
@[simp] theorem State.setCtx_foreman : (s.setCtx c k).foreman = s.foreman := rfl
@[simp] theorem State.setCtx_win : (s.setCtx c k).win = s.win := rfl
@[simp] theorem State.setCtx_tally : (s.setCtx c k).tally = s.tally := rfl
@[simp] theorem State.setCtx_ports : (s.setCtx c k).ports = s.ports := rfl
@[simp] theorem State.setCtx_fwds : (s.setCtx c k).fwds = s.fwds := rfl
@[simp] theorem State.setCtx_host : (s.setCtx c k).host = s.host := rfl
@[simp] theorem State.setCtx_can : (s.setCtx c k).can = s.can := rfl
@[simp] theorem State.setCtx_log : (s.setCtx c k).log = s.log := rfl
@[simp] theorem State.setCtx_life : (s.setCtx c k).life = s.life := rfl
@[simp] theorem State.setCtx_fuse : (s.setCtx c k).fuse = s.fuse := rfl
@[simp] theorem State.setCtx_trust : (s.setCtx c k).trust = s.trust := rfl
@[simp] theorem State.setCtx_geo : (s.setCtx c k).geo = s.geo := rfl
@[simp] theorem State.setCtx_power : (s.setCtx c k).power = s.power := rfl
@[simp] theorem State.setCtx_canary : (s.setCtx c k).canary = s.canary := rfl
@[simp] theorem State.setCtx_inputs : (s.setCtx c k).inputs = s.inputs := rfl
@[simp] theorem State.setCtx_fence : (s.setCtx c k).fence = s.fence := rfl
@[simp] theorem State.setCtx_oldBinding : (s.setCtx c k).oldBinding = s.oldBinding := rfl
end setCtx

section setBox
variable (s : State) (m : Nat) (b : Mailbox)
@[simp] theorem State.setBox_pending : (s.setBox m b).pending = s.pending := rfl
@[simp] theorem State.setBox_now : (s.setBox m b).now = s.now := rfl
@[simp] theorem State.setBox_out : (s.setBox m b).out = s.out := rfl
@[simp] theorem State.setBox_freeTick : (s.setBox m b).freeTick = s.freeTick := rfl
@[simp] theorem State.setBox_reqNext : (s.setBox m b).reqNext = s.reqNext := rfl
@[simp] theorem State.setBox_mem : (s.setBox m b).mem = s.mem := rfl
@[simp] theorem State.setBox_eccDiff : (s.setBox m b).eccDiff = s.eccDiff := rfl
@[simp] theorem State.setBox_sramErr : (s.setBox m b).sramErr = s.sramErr := rfl
@[simp] theorem State.setBox_xfers : (s.setBox m b).xfers = s.xfers := rfl
@[simp] theorem State.setBox_waits : (s.setBox m b).waits = s.waits := rfl
@[simp] theorem State.setBox_xlate : (s.setBox m b).xlate = s.xlate := rfl
@[simp] theorem State.setBox_groupView : (s.setBox m b).groupView = s.groupView := rfl
@[simp] theorem State.setBox_ctxs : (s.setBox m b).ctxs = s.ctxs := rfl
@[simp] theorem State.setBox_drain : (s.setBox m b).drain = s.drain := rfl
@[simp] theorem State.setBox_cols : (s.setBox m b).cols = s.cols := rfl
@[simp] theorem State.setBox_stackTbl : (s.setBox m b).stackTbl = s.stackTbl := rfl
@[simp] theorem State.setBox_passes : (s.setBox m b).passes = s.passes := rfl
@[simp] theorem State.setBox_collar : (s.setBox m b).collar = s.collar := rfl
@[simp] theorem State.setBox_collarFree : (s.setBox m b).collarFree = s.collarFree := rfl
@[simp] theorem State.setBox_faces : (s.setBox m b).faces = s.faces := rfl
@[simp] theorem State.setBox_clusters : (s.setBox m b).clusters = s.clusters := rfl
@[simp] theorem State.setBox_queues : (s.setBox m b).queues = s.queues := rfl
@[simp] theorem State.setBox_foreman : (s.setBox m b).foreman = s.foreman := rfl
@[simp] theorem State.setBox_win : (s.setBox m b).win = s.win := rfl
@[simp] theorem State.setBox_tally : (s.setBox m b).tally = s.tally := rfl
@[simp] theorem State.setBox_ports : (s.setBox m b).ports = s.ports := rfl
@[simp] theorem State.setBox_fwds : (s.setBox m b).fwds = s.fwds := rfl
@[simp] theorem State.setBox_host : (s.setBox m b).host = s.host := rfl
@[simp] theorem State.setBox_log : (s.setBox m b).log = s.log := rfl
@[simp] theorem State.setBox_life : (s.setBox m b).life = s.life := rfl
@[simp] theorem State.setBox_fuse : (s.setBox m b).fuse = s.fuse := rfl
@[simp] theorem State.setBox_trust : (s.setBox m b).trust = s.trust := rfl
@[simp] theorem State.setBox_geo : (s.setBox m b).geo = s.geo := rfl
@[simp] theorem State.setBox_power : (s.setBox m b).power = s.power := rfl
@[simp] theorem State.setBox_canary : (s.setBox m b).canary = s.canary := rfl
@[simp] theorem State.setBox_inputs : (s.setBox m b).inputs = s.inputs := rfl
@[simp] theorem State.setBox_fence : (s.setBox m b).fence = s.fence := rfl
@[simp] theorem State.setBox_oldBinding : (s.setBox m b).oldBinding = s.oldBinding := rfl
end setBox

section setDomain
variable (s : State) (d : Nat) (k : Domain)
@[simp] theorem State.setDomain_pending : (s.setDomain d k).pending = s.pending := rfl
@[simp] theorem State.setDomain_now : (s.setDomain d k).now = s.now := rfl
@[simp] theorem State.setDomain_out : (s.setDomain d k).out = s.out := rfl
@[simp] theorem State.setDomain_freeTick : (s.setDomain d k).freeTick = s.freeTick := rfl
@[simp] theorem State.setDomain_reqNext : (s.setDomain d k).reqNext = s.reqNext := rfl
@[simp] theorem State.setDomain_mem : (s.setDomain d k).mem = s.mem := rfl
@[simp] theorem State.setDomain_eccDiff : (s.setDomain d k).eccDiff = s.eccDiff := rfl
@[simp] theorem State.setDomain_sramErr : (s.setDomain d k).sramErr = s.sramErr := rfl
@[simp] theorem State.setDomain_xfers : (s.setDomain d k).xfers = s.xfers := rfl
@[simp] theorem State.setDomain_waits : (s.setDomain d k).waits = s.waits := rfl
@[simp] theorem State.setDomain_xlate : (s.setDomain d k).xlate = s.xlate := rfl
@[simp] theorem State.setDomain_groupView : (s.setDomain d k).groupView = s.groupView := rfl
@[simp] theorem State.setDomain_ctxs : (s.setDomain d k).ctxs = s.ctxs := rfl
@[simp] theorem State.setDomain_drain : (s.setDomain d k).drain = s.drain := rfl
@[simp] theorem State.setDomain_cols : (s.setDomain d k).cols = s.cols := rfl
@[simp] theorem State.setDomain_stackTbl : (s.setDomain d k).stackTbl = s.stackTbl := rfl
@[simp] theorem State.setDomain_passes : (s.setDomain d k).passes = s.passes := rfl
@[simp] theorem State.setDomain_collar : (s.setDomain d k).collar = s.collar := rfl
@[simp] theorem State.setDomain_collarFree : (s.setDomain d k).collarFree = s.collarFree := rfl
@[simp] theorem State.setDomain_faces : (s.setDomain d k).faces = s.faces := rfl
@[simp] theorem State.setDomain_clusters : (s.setDomain d k).clusters = s.clusters := rfl
@[simp] theorem State.setDomain_queues : (s.setDomain d k).queues = s.queues := rfl
@[simp] theorem State.setDomain_foreman : (s.setDomain d k).foreman = s.foreman := rfl
@[simp] theorem State.setDomain_win : (s.setDomain d k).win = s.win := rfl
@[simp] theorem State.setDomain_tally : (s.setDomain d k).tally = s.tally := rfl
@[simp] theorem State.setDomain_ports : (s.setDomain d k).ports = s.ports := rfl
@[simp] theorem State.setDomain_fwds : (s.setDomain d k).fwds = s.fwds := rfl
@[simp] theorem State.setDomain_host : (s.setDomain d k).host = s.host := rfl
@[simp] theorem State.setDomain_can : (s.setDomain d k).can = s.can := rfl
@[simp] theorem State.setDomain_log : (s.setDomain d k).log = s.log := rfl
@[simp] theorem State.setDomain_life : (s.setDomain d k).life = s.life := rfl
@[simp] theorem State.setDomain_fuse : (s.setDomain d k).fuse = s.fuse := rfl
@[simp] theorem State.setDomain_trust : (s.setDomain d k).trust = s.trust := rfl
@[simp] theorem State.setDomain_geo : (s.setDomain d k).geo = s.geo := rfl
@[simp] theorem State.setDomain_canary : (s.setDomain d k).canary = s.canary := rfl
@[simp] theorem State.setDomain_inputs : (s.setDomain d k).inputs = s.inputs := rfl
@[simp] theorem State.setDomain_fence : (s.setDomain d k).fence = s.fence := rfl
@[simp] theorem State.setDomain_oldBinding : (s.setDomain d k).oldBinding = s.oldBinding := rfl
end setDomain

section setChannel
variable (s : State) (c : Nat) (k : Channel)
@[simp] theorem State.setChannel_pending : (s.setChannel c k).pending = s.pending := rfl
@[simp] theorem State.setChannel_now : (s.setChannel c k).now = s.now := rfl
@[simp] theorem State.setChannel_out : (s.setChannel c k).out = s.out := rfl
@[simp] theorem State.setChannel_freeTick : (s.setChannel c k).freeTick = s.freeTick := rfl
@[simp] theorem State.setChannel_reqNext : (s.setChannel c k).reqNext = s.reqNext := rfl
@[simp] theorem State.setChannel_mem : (s.setChannel c k).mem = s.mem := rfl
@[simp] theorem State.setChannel_eccDiff : (s.setChannel c k).eccDiff = s.eccDiff := rfl
@[simp] theorem State.setChannel_sramErr : (s.setChannel c k).sramErr = s.sramErr := rfl
@[simp] theorem State.setChannel_xfers : (s.setChannel c k).xfers = s.xfers := rfl
@[simp] theorem State.setChannel_waits : (s.setChannel c k).waits = s.waits := rfl
@[simp] theorem State.setChannel_xlate : (s.setChannel c k).xlate = s.xlate := rfl
@[simp] theorem State.setChannel_groupView : (s.setChannel c k).groupView = s.groupView := rfl
@[simp] theorem State.setChannel_ctxs : (s.setChannel c k).ctxs = s.ctxs := rfl
@[simp] theorem State.setChannel_drain : (s.setChannel c k).drain = s.drain := rfl
@[simp] theorem State.setChannel_cols : (s.setChannel c k).cols = s.cols := rfl
@[simp] theorem State.setChannel_stackTbl : (s.setChannel c k).stackTbl = s.stackTbl := rfl
@[simp] theorem State.setChannel_passes : (s.setChannel c k).passes = s.passes := rfl
@[simp] theorem State.setChannel_collar : (s.setChannel c k).collar = s.collar := rfl
@[simp] theorem State.setChannel_collarFree : (s.setChannel c k).collarFree = s.collarFree := rfl
@[simp] theorem State.setChannel_faces : (s.setChannel c k).faces = s.faces := rfl
@[simp] theorem State.setChannel_clusters : (s.setChannel c k).clusters = s.clusters := rfl
@[simp] theorem State.setChannel_queues : (s.setChannel c k).queues = s.queues := rfl
@[simp] theorem State.setChannel_foreman : (s.setChannel c k).foreman = s.foreman := rfl
@[simp] theorem State.setChannel_win : (s.setChannel c k).win = s.win := rfl
@[simp] theorem State.setChannel_tally : (s.setChannel c k).tally = s.tally := rfl
@[simp] theorem State.setChannel_ports : (s.setChannel c k).ports = s.ports := rfl
@[simp] theorem State.setChannel_fwds : (s.setChannel c k).fwds = s.fwds := rfl
@[simp] theorem State.setChannel_host : (s.setChannel c k).host = s.host := rfl
@[simp] theorem State.setChannel_can : (s.setChannel c k).can = s.can := rfl
@[simp] theorem State.setChannel_log : (s.setChannel c k).log = s.log := rfl
@[simp] theorem State.setChannel_life : (s.setChannel c k).life = s.life := rfl
@[simp] theorem State.setChannel_fuse : (s.setChannel c k).fuse = s.fuse := rfl
@[simp] theorem State.setChannel_trust : (s.setChannel c k).trust = s.trust := rfl
@[simp] theorem State.setChannel_geo : (s.setChannel c k).geo = s.geo := rfl
@[simp] theorem State.setChannel_power : (s.setChannel c k).power = s.power := rfl
@[simp] theorem State.setChannel_inputs : (s.setChannel c k).inputs = s.inputs := rfl
@[simp] theorem State.setChannel_fence : (s.setChannel c k).fence = s.fence := rfl
@[simp] theorem State.setChannel_oldBinding : (s.setChannel c k).oldBinding = s.oldBinding := rfl
end setChannel

section setInput
variable (s : State) (i : Nat) (k : InputPin)
@[simp] theorem State.setInput_pending : (s.setInput i k).pending = s.pending := rfl
@[simp] theorem State.setInput_now : (s.setInput i k).now = s.now := rfl
@[simp] theorem State.setInput_out : (s.setInput i k).out = s.out := rfl
@[simp] theorem State.setInput_freeTick : (s.setInput i k).freeTick = s.freeTick := rfl
@[simp] theorem State.setInput_reqNext : (s.setInput i k).reqNext = s.reqNext := rfl
@[simp] theorem State.setInput_mem : (s.setInput i k).mem = s.mem := rfl
@[simp] theorem State.setInput_eccDiff : (s.setInput i k).eccDiff = s.eccDiff := rfl
@[simp] theorem State.setInput_sramErr : (s.setInput i k).sramErr = s.sramErr := rfl
@[simp] theorem State.setInput_xfers : (s.setInput i k).xfers = s.xfers := rfl
@[simp] theorem State.setInput_waits : (s.setInput i k).waits = s.waits := rfl
@[simp] theorem State.setInput_xlate : (s.setInput i k).xlate = s.xlate := rfl
@[simp] theorem State.setInput_groupView : (s.setInput i k).groupView = s.groupView := rfl
@[simp] theorem State.setInput_ctxs : (s.setInput i k).ctxs = s.ctxs := rfl
@[simp] theorem State.setInput_drain : (s.setInput i k).drain = s.drain := rfl
@[simp] theorem State.setInput_cols : (s.setInput i k).cols = s.cols := rfl
@[simp] theorem State.setInput_stackTbl : (s.setInput i k).stackTbl = s.stackTbl := rfl
@[simp] theorem State.setInput_passes : (s.setInput i k).passes = s.passes := rfl
@[simp] theorem State.setInput_collar : (s.setInput i k).collar = s.collar := rfl
@[simp] theorem State.setInput_collarFree : (s.setInput i k).collarFree = s.collarFree := rfl
@[simp] theorem State.setInput_faces : (s.setInput i k).faces = s.faces := rfl
@[simp] theorem State.setInput_clusters : (s.setInput i k).clusters = s.clusters := rfl
@[simp] theorem State.setInput_queues : (s.setInput i k).queues = s.queues := rfl
@[simp] theorem State.setInput_foreman : (s.setInput i k).foreman = s.foreman := rfl
@[simp] theorem State.setInput_win : (s.setInput i k).win = s.win := rfl
@[simp] theorem State.setInput_tally : (s.setInput i k).tally = s.tally := rfl
@[simp] theorem State.setInput_ports : (s.setInput i k).ports = s.ports := rfl
@[simp] theorem State.setInput_fwds : (s.setInput i k).fwds = s.fwds := rfl
@[simp] theorem State.setInput_host : (s.setInput i k).host = s.host := rfl
@[simp] theorem State.setInput_can : (s.setInput i k).can = s.can := rfl
@[simp] theorem State.setInput_log : (s.setInput i k).log = s.log := rfl
@[simp] theorem State.setInput_life : (s.setInput i k).life = s.life := rfl
@[simp] theorem State.setInput_fuse : (s.setInput i k).fuse = s.fuse := rfl
@[simp] theorem State.setInput_trust : (s.setInput i k).trust = s.trust := rfl
@[simp] theorem State.setInput_geo : (s.setInput i k).geo = s.geo := rfl
@[simp] theorem State.setInput_power : (s.setInput i k).power = s.power := rfl
@[simp] theorem State.setInput_canary : (s.setInput i k).canary = s.canary := rfl
@[simp] theorem State.setInput_fence : (s.setInput i k).fence = s.fence := rfl
@[simp] theorem State.setInput_oldBinding : (s.setInput i k).oldBinding = s.oldBinding := rfl
end setInput

section setCell
variable (s : State) (t : Nat) (k : TallyCell)
@[simp] theorem State.setCell_pending : (s.setCell t k).pending = s.pending := rfl
@[simp] theorem State.setCell_now : (s.setCell t k).now = s.now := rfl
@[simp] theorem State.setCell_out : (s.setCell t k).out = s.out := rfl
@[simp] theorem State.setCell_freeTick : (s.setCell t k).freeTick = s.freeTick := rfl
@[simp] theorem State.setCell_reqNext : (s.setCell t k).reqNext = s.reqNext := rfl
@[simp] theorem State.setCell_mem : (s.setCell t k).mem = s.mem := rfl
@[simp] theorem State.setCell_eccDiff : (s.setCell t k).eccDiff = s.eccDiff := rfl
@[simp] theorem State.setCell_sramErr : (s.setCell t k).sramErr = s.sramErr := rfl
@[simp] theorem State.setCell_xfers : (s.setCell t k).xfers = s.xfers := rfl
@[simp] theorem State.setCell_waits : (s.setCell t k).waits = s.waits := rfl
@[simp] theorem State.setCell_xlate : (s.setCell t k).xlate = s.xlate := rfl
@[simp] theorem State.setCell_groupView : (s.setCell t k).groupView = s.groupView := rfl
@[simp] theorem State.setCell_ctxs : (s.setCell t k).ctxs = s.ctxs := rfl
@[simp] theorem State.setCell_drain : (s.setCell t k).drain = s.drain := rfl
@[simp] theorem State.setCell_cols : (s.setCell t k).cols = s.cols := rfl
@[simp] theorem State.setCell_stackTbl : (s.setCell t k).stackTbl = s.stackTbl := rfl
@[simp] theorem State.setCell_passes : (s.setCell t k).passes = s.passes := rfl
@[simp] theorem State.setCell_collar : (s.setCell t k).collar = s.collar := rfl
@[simp] theorem State.setCell_collarFree : (s.setCell t k).collarFree = s.collarFree := rfl
@[simp] theorem State.setCell_faces : (s.setCell t k).faces = s.faces := rfl
@[simp] theorem State.setCell_clusters : (s.setCell t k).clusters = s.clusters := rfl
@[simp] theorem State.setCell_queues : (s.setCell t k).queues = s.queues := rfl
@[simp] theorem State.setCell_foreman : (s.setCell t k).foreman = s.foreman := rfl
@[simp] theorem State.setCell_win : (s.setCell t k).win = s.win := rfl
@[simp] theorem State.setCell_ports : (s.setCell t k).ports = s.ports := rfl
@[simp] theorem State.setCell_fwds : (s.setCell t k).fwds = s.fwds := rfl
@[simp] theorem State.setCell_host : (s.setCell t k).host = s.host := rfl
@[simp] theorem State.setCell_can : (s.setCell t k).can = s.can := rfl
@[simp] theorem State.setCell_log : (s.setCell t k).log = s.log := rfl
@[simp] theorem State.setCell_life : (s.setCell t k).life = s.life := rfl
@[simp] theorem State.setCell_fuse : (s.setCell t k).fuse = s.fuse := rfl
@[simp] theorem State.setCell_trust : (s.setCell t k).trust = s.trust := rfl
@[simp] theorem State.setCell_geo : (s.setCell t k).geo = s.geo := rfl
@[simp] theorem State.setCell_power : (s.setCell t k).power = s.power := rfl
@[simp] theorem State.setCell_canary : (s.setCell t k).canary = s.canary := rfl
@[simp] theorem State.setCell_inputs : (s.setCell t k).inputs = s.inputs := rfl
@[simp] theorem State.setCell_fence : (s.setCell t k).fence = s.fence := rfl
@[simp] theorem State.setCell_oldBinding : (s.setCell t k).oldBinding = s.oldBinding := rfl
end setCell

section emit
variable (s : State) (o : Out)
@[simp] theorem State.emit_pending : (s.emit o).pending = s.pending := rfl
@[simp] theorem State.emit_now : (s.emit o).now = s.now := rfl
@[simp] theorem State.emit_freeTick : (s.emit o).freeTick = s.freeTick := rfl
@[simp] theorem State.emit_reqNext : (s.emit o).reqNext = s.reqNext := rfl
@[simp] theorem State.emit_mem : (s.emit o).mem = s.mem := rfl
@[simp] theorem State.emit_eccDiff : (s.emit o).eccDiff = s.eccDiff := rfl
@[simp] theorem State.emit_sramErr : (s.emit o).sramErr = s.sramErr := rfl
@[simp] theorem State.emit_xfers : (s.emit o).xfers = s.xfers := rfl
@[simp] theorem State.emit_waits : (s.emit o).waits = s.waits := rfl
@[simp] theorem State.emit_xlate : (s.emit o).xlate = s.xlate := rfl
@[simp] theorem State.emit_groupView : (s.emit o).groupView = s.groupView := rfl
@[simp] theorem State.emit_ctxs : (s.emit o).ctxs = s.ctxs := rfl
@[simp] theorem State.emit_drain : (s.emit o).drain = s.drain := rfl
@[simp] theorem State.emit_cols : (s.emit o).cols = s.cols := rfl
@[simp] theorem State.emit_stackTbl : (s.emit o).stackTbl = s.stackTbl := rfl
@[simp] theorem State.emit_passes : (s.emit o).passes = s.passes := rfl
@[simp] theorem State.emit_collar : (s.emit o).collar = s.collar := rfl
@[simp] theorem State.emit_collarFree : (s.emit o).collarFree = s.collarFree := rfl
@[simp] theorem State.emit_faces : (s.emit o).faces = s.faces := rfl
@[simp] theorem State.emit_clusters : (s.emit o).clusters = s.clusters := rfl
@[simp] theorem State.emit_queues : (s.emit o).queues = s.queues := rfl
@[simp] theorem State.emit_foreman : (s.emit o).foreman = s.foreman := rfl
@[simp] theorem State.emit_win : (s.emit o).win = s.win := rfl
@[simp] theorem State.emit_tally : (s.emit o).tally = s.tally := rfl
@[simp] theorem State.emit_ports : (s.emit o).ports = s.ports := rfl
@[simp] theorem State.emit_fwds : (s.emit o).fwds = s.fwds := rfl
@[simp] theorem State.emit_host : (s.emit o).host = s.host := rfl
@[simp] theorem State.emit_can : (s.emit o).can = s.can := rfl
@[simp] theorem State.emit_log : (s.emit o).log = s.log := rfl
@[simp] theorem State.emit_life : (s.emit o).life = s.life := rfl
@[simp] theorem State.emit_fuse : (s.emit o).fuse = s.fuse := rfl
@[simp] theorem State.emit_trust : (s.emit o).trust = s.trust := rfl
@[simp] theorem State.emit_geo : (s.emit o).geo = s.geo := rfl
@[simp] theorem State.emit_power : (s.emit o).power = s.power := rfl
@[simp] theorem State.emit_canary : (s.emit o).canary = s.canary := rfl
@[simp] theorem State.emit_inputs : (s.emit o).inputs = s.inputs := rfl
@[simp] theorem State.emit_fence : (s.emit o).fence = s.fence := rfl
@[simp] theorem State.emit_oldBinding : (s.emit o).oldBinding = s.oldBinding := rfl
end emit

section emits
variable (s : State) (os : List Out)
@[simp] theorem State.emits_pending : (s.emits os).pending = s.pending := rfl
@[simp] theorem State.emits_now : (s.emits os).now = s.now := rfl
@[simp] theorem State.emits_freeTick : (s.emits os).freeTick = s.freeTick := rfl
@[simp] theorem State.emits_reqNext : (s.emits os).reqNext = s.reqNext := rfl
@[simp] theorem State.emits_mem : (s.emits os).mem = s.mem := rfl
@[simp] theorem State.emits_eccDiff : (s.emits os).eccDiff = s.eccDiff := rfl
@[simp] theorem State.emits_sramErr : (s.emits os).sramErr = s.sramErr := rfl
@[simp] theorem State.emits_xfers : (s.emits os).xfers = s.xfers := rfl
@[simp] theorem State.emits_waits : (s.emits os).waits = s.waits := rfl
@[simp] theorem State.emits_xlate : (s.emits os).xlate = s.xlate := rfl
@[simp] theorem State.emits_groupView : (s.emits os).groupView = s.groupView := rfl
@[simp] theorem State.emits_ctxs : (s.emits os).ctxs = s.ctxs := rfl
@[simp] theorem State.emits_drain : (s.emits os).drain = s.drain := rfl
@[simp] theorem State.emits_cols : (s.emits os).cols = s.cols := rfl
@[simp] theorem State.emits_stackTbl : (s.emits os).stackTbl = s.stackTbl := rfl
@[simp] theorem State.emits_passes : (s.emits os).passes = s.passes := rfl
@[simp] theorem State.emits_collar : (s.emits os).collar = s.collar := rfl
@[simp] theorem State.emits_collarFree : (s.emits os).collarFree = s.collarFree := rfl
@[simp] theorem State.emits_faces : (s.emits os).faces = s.faces := rfl
@[simp] theorem State.emits_clusters : (s.emits os).clusters = s.clusters := rfl
@[simp] theorem State.emits_queues : (s.emits os).queues = s.queues := rfl
@[simp] theorem State.emits_foreman : (s.emits os).foreman = s.foreman := rfl
@[simp] theorem State.emits_win : (s.emits os).win = s.win := rfl
@[simp] theorem State.emits_tally : (s.emits os).tally = s.tally := rfl
@[simp] theorem State.emits_ports : (s.emits os).ports = s.ports := rfl
@[simp] theorem State.emits_fwds : (s.emits os).fwds = s.fwds := rfl
@[simp] theorem State.emits_host : (s.emits os).host = s.host := rfl
@[simp] theorem State.emits_can : (s.emits os).can = s.can := rfl
@[simp] theorem State.emits_log : (s.emits os).log = s.log := rfl
@[simp] theorem State.emits_life : (s.emits os).life = s.life := rfl
@[simp] theorem State.emits_fuse : (s.emits os).fuse = s.fuse := rfl
@[simp] theorem State.emits_trust : (s.emits os).trust = s.trust := rfl
@[simp] theorem State.emits_geo : (s.emits os).geo = s.geo := rfl
@[simp] theorem State.emits_power : (s.emits os).power = s.power := rfl
@[simp] theorem State.emits_canary : (s.emits os).canary = s.canary := rfl
@[simp] theorem State.emits_inputs : (s.emits os).inputs = s.inputs := rfl
@[simp] theorem State.emits_fence : (s.emits os).fence = s.fence := rfl
@[simp] theorem State.emits_oldBinding : (s.emits os).oldBinding = s.oldBinding := rfl
end emits

section wrByte
variable (s : State) (k : Nat) (b : Byte)
@[simp] theorem State.wrByte_pending : (s.wrByte k b).pending = s.pending := rfl
@[simp] theorem State.wrByte_now : (s.wrByte k b).now = s.now := rfl
@[simp] theorem State.wrByte_out : (s.wrByte k b).out = s.out := rfl
@[simp] theorem State.wrByte_freeTick : (s.wrByte k b).freeTick = s.freeTick := rfl
@[simp] theorem State.wrByte_reqNext : (s.wrByte k b).reqNext = s.reqNext := rfl
@[simp] theorem State.wrByte_eccDiff : (s.wrByte k b).eccDiff = s.eccDiff := rfl
@[simp] theorem State.wrByte_sramErr : (s.wrByte k b).sramErr = s.sramErr := rfl
@[simp] theorem State.wrByte_xfers : (s.wrByte k b).xfers = s.xfers := rfl
@[simp] theorem State.wrByte_waits : (s.wrByte k b).waits = s.waits := rfl
@[simp] theorem State.wrByte_xlate : (s.wrByte k b).xlate = s.xlate := rfl
@[simp] theorem State.wrByte_groupView : (s.wrByte k b).groupView = s.groupView := rfl
@[simp] theorem State.wrByte_ctxs : (s.wrByte k b).ctxs = s.ctxs := rfl
@[simp] theorem State.wrByte_drain : (s.wrByte k b).drain = s.drain := rfl
@[simp] theorem State.wrByte_cols : (s.wrByte k b).cols = s.cols := rfl
@[simp] theorem State.wrByte_stackTbl : (s.wrByte k b).stackTbl = s.stackTbl := rfl
@[simp] theorem State.wrByte_passes : (s.wrByte k b).passes = s.passes := rfl
@[simp] theorem State.wrByte_collar : (s.wrByte k b).collar = s.collar := rfl
@[simp] theorem State.wrByte_collarFree : (s.wrByte k b).collarFree = s.collarFree := rfl
@[simp] theorem State.wrByte_faces : (s.wrByte k b).faces = s.faces := rfl
@[simp] theorem State.wrByte_clusters : (s.wrByte k b).clusters = s.clusters := rfl
@[simp] theorem State.wrByte_queues : (s.wrByte k b).queues = s.queues := rfl
@[simp] theorem State.wrByte_foreman : (s.wrByte k b).foreman = s.foreman := rfl
@[simp] theorem State.wrByte_win : (s.wrByte k b).win = s.win := rfl
@[simp] theorem State.wrByte_tally : (s.wrByte k b).tally = s.tally := rfl
@[simp] theorem State.wrByte_ports : (s.wrByte k b).ports = s.ports := rfl
@[simp] theorem State.wrByte_fwds : (s.wrByte k b).fwds = s.fwds := rfl
@[simp] theorem State.wrByte_host : (s.wrByte k b).host = s.host := rfl
@[simp] theorem State.wrByte_can : (s.wrByte k b).can = s.can := rfl
@[simp] theorem State.wrByte_log : (s.wrByte k b).log = s.log := rfl
@[simp] theorem State.wrByte_life : (s.wrByte k b).life = s.life := rfl
@[simp] theorem State.wrByte_fuse : (s.wrByte k b).fuse = s.fuse := rfl
@[simp] theorem State.wrByte_trust : (s.wrByte k b).trust = s.trust := rfl
@[simp] theorem State.wrByte_geo : (s.wrByte k b).geo = s.geo := rfl
@[simp] theorem State.wrByte_power : (s.wrByte k b).power = s.power := rfl
@[simp] theorem State.wrByte_canary : (s.wrByte k b).canary = s.canary := rfl
@[simp] theorem State.wrByte_inputs : (s.wrByte k b).inputs = s.inputs := rfl
@[simp] theorem State.wrByte_fence : (s.wrByte k b).fence = s.fence := rfl
@[simp] theorem State.wrByte_oldBinding : (s.wrByte k b).oldBinding = s.oldBinding := rfl
end wrByte

section newReq
variable (s : State)
@[simp] theorem State.newReq_pending : s.newReq.2.pending = s.pending := rfl
@[simp] theorem State.newReq_now : s.newReq.2.now = s.now := rfl
@[simp] theorem State.newReq_out : s.newReq.2.out = s.out := rfl
@[simp] theorem State.newReq_freeTick : s.newReq.2.freeTick = s.freeTick := rfl
@[simp] theorem State.newReq_mem : s.newReq.2.mem = s.mem := rfl
@[simp] theorem State.newReq_eccDiff : s.newReq.2.eccDiff = s.eccDiff := rfl
@[simp] theorem State.newReq_sramErr : s.newReq.2.sramErr = s.sramErr := rfl
@[simp] theorem State.newReq_xfers : s.newReq.2.xfers = s.xfers := rfl
@[simp] theorem State.newReq_waits : s.newReq.2.waits = s.waits := rfl
@[simp] theorem State.newReq_xlate : s.newReq.2.xlate = s.xlate := rfl
@[simp] theorem State.newReq_groupView : s.newReq.2.groupView = s.groupView := rfl
@[simp] theorem State.newReq_ctxs : s.newReq.2.ctxs = s.ctxs := rfl
@[simp] theorem State.newReq_drain : s.newReq.2.drain = s.drain := rfl
@[simp] theorem State.newReq_cols : s.newReq.2.cols = s.cols := rfl
@[simp] theorem State.newReq_stackTbl : s.newReq.2.stackTbl = s.stackTbl := rfl
@[simp] theorem State.newReq_passes : s.newReq.2.passes = s.passes := rfl
@[simp] theorem State.newReq_collar : s.newReq.2.collar = s.collar := rfl
@[simp] theorem State.newReq_collarFree : s.newReq.2.collarFree = s.collarFree := rfl
@[simp] theorem State.newReq_faces : s.newReq.2.faces = s.faces := rfl
@[simp] theorem State.newReq_clusters : s.newReq.2.clusters = s.clusters := rfl
@[simp] theorem State.newReq_queues : s.newReq.2.queues = s.queues := rfl
@[simp] theorem State.newReq_foreman : s.newReq.2.foreman = s.foreman := rfl
@[simp] theorem State.newReq_win : s.newReq.2.win = s.win := rfl
@[simp] theorem State.newReq_tally : s.newReq.2.tally = s.tally := rfl
@[simp] theorem State.newReq_ports : s.newReq.2.ports = s.ports := rfl
@[simp] theorem State.newReq_fwds : s.newReq.2.fwds = s.fwds := rfl
@[simp] theorem State.newReq_host : s.newReq.2.host = s.host := rfl
@[simp] theorem State.newReq_can : s.newReq.2.can = s.can := rfl
@[simp] theorem State.newReq_log : s.newReq.2.log = s.log := rfl
@[simp] theorem State.newReq_life : s.newReq.2.life = s.life := rfl
@[simp] theorem State.newReq_fuse : s.newReq.2.fuse = s.fuse := rfl
@[simp] theorem State.newReq_trust : s.newReq.2.trust = s.trust := rfl
@[simp] theorem State.newReq_geo : s.newReq.2.geo = s.geo := rfl
@[simp] theorem State.newReq_power : s.newReq.2.power = s.power := rfl
@[simp] theorem State.newReq_canary : s.newReq.2.canary = s.canary := rfl
@[simp] theorem State.newReq_inputs : s.newReq.2.inputs = s.inputs := rfl
@[simp] theorem State.newReq_fence : s.newReq.2.fence = s.fence := rfl
@[simp] theorem State.newReq_oldBinding : s.newReq.2.oldBinding = s.oldBinding := rfl
end newReq

section newFree
variable (s : State)
@[simp] theorem State.newFree_pending : s.newFree.2.pending = s.pending := rfl
@[simp] theorem State.newFree_now : s.newFree.2.now = s.now := rfl
@[simp] theorem State.newFree_out : s.newFree.2.out = s.out := rfl
@[simp] theorem State.newFree_reqNext : s.newFree.2.reqNext = s.reqNext := rfl
@[simp] theorem State.newFree_mem : s.newFree.2.mem = s.mem := rfl
@[simp] theorem State.newFree_eccDiff : s.newFree.2.eccDiff = s.eccDiff := rfl
@[simp] theorem State.newFree_sramErr : s.newFree.2.sramErr = s.sramErr := rfl
@[simp] theorem State.newFree_xfers : s.newFree.2.xfers = s.xfers := rfl
@[simp] theorem State.newFree_waits : s.newFree.2.waits = s.waits := rfl
@[simp] theorem State.newFree_xlate : s.newFree.2.xlate = s.xlate := rfl
@[simp] theorem State.newFree_groupView : s.newFree.2.groupView = s.groupView := rfl
@[simp] theorem State.newFree_ctxs : s.newFree.2.ctxs = s.ctxs := rfl
@[simp] theorem State.newFree_drain : s.newFree.2.drain = s.drain := rfl
@[simp] theorem State.newFree_cols : s.newFree.2.cols = s.cols := rfl
@[simp] theorem State.newFree_stackTbl : s.newFree.2.stackTbl = s.stackTbl := rfl
@[simp] theorem State.newFree_passes : s.newFree.2.passes = s.passes := rfl
@[simp] theorem State.newFree_collar : s.newFree.2.collar = s.collar := rfl
@[simp] theorem State.newFree_collarFree : s.newFree.2.collarFree = s.collarFree := rfl
@[simp] theorem State.newFree_faces : s.newFree.2.faces = s.faces := rfl
@[simp] theorem State.newFree_clusters : s.newFree.2.clusters = s.clusters := rfl
@[simp] theorem State.newFree_queues : s.newFree.2.queues = s.queues := rfl
@[simp] theorem State.newFree_foreman : s.newFree.2.foreman = s.foreman := rfl
@[simp] theorem State.newFree_win : s.newFree.2.win = s.win := rfl
@[simp] theorem State.newFree_tally : s.newFree.2.tally = s.tally := rfl
@[simp] theorem State.newFree_ports : s.newFree.2.ports = s.ports := rfl
@[simp] theorem State.newFree_fwds : s.newFree.2.fwds = s.fwds := rfl
@[simp] theorem State.newFree_host : s.newFree.2.host = s.host := rfl
@[simp] theorem State.newFree_can : s.newFree.2.can = s.can := rfl
@[simp] theorem State.newFree_log : s.newFree.2.log = s.log := rfl
@[simp] theorem State.newFree_life : s.newFree.2.life = s.life := rfl
@[simp] theorem State.newFree_fuse : s.newFree.2.fuse = s.fuse := rfl
@[simp] theorem State.newFree_trust : s.newFree.2.trust = s.trust := rfl
@[simp] theorem State.newFree_geo : s.newFree.2.geo = s.geo := rfl
@[simp] theorem State.newFree_power : s.newFree.2.power = s.power := rfl
@[simp] theorem State.newFree_canary : s.newFree.2.canary = s.canary := rfl
@[simp] theorem State.newFree_inputs : s.newFree.2.inputs = s.inputs := rfl
@[simp] theorem State.newFree_fence : s.newFree.2.fence = s.fence := rfl
@[simp] theorem State.newFree_oldBinding : s.newFree.2.oldBinding = s.oldBinding := rfl
end newFree

/-! ## Read after write -/

theorem State.col_setCol_ne (s : State) {i j : Nat} (x : Col) (h : j ≠ i) : (s.setCol i x).col j = s.col j := tget_tset_ne _ x h
theorem State.col_setCol_same {s : State} (h : tabWf {} s.cols = true) (i : Nat) (x : Col) : (s.setCol i x).col i = x := tget_tset_same h i x
theorem State.stack_setStack_ne (s : State) {i j : Nat} (x : Stack) (h : j ≠ i) : (s.setStack i x).stack j = s.stack j := tget_tset_ne _ x h
theorem State.stack_setStack_same {s : State} (h : tabWf {} s.stackTbl = true) (i : Nat) (x : Stack) : (s.setStack i x).stack i = x := tget_tset_same h i x
theorem State.face_setFace_ne (s : State) {i j : Nat} (x : Face) (h : j ≠ i) : (s.setFace i x).face j = s.face j := tget_tset_ne _ x h
theorem State.face_setFace_same {s : State} (h : tabWf {} s.faces = true) (i : Nat) (x : Face) : (s.setFace i x).face i = x := tget_tset_same h i x
theorem State.cluster_setCluster_ne (s : State) {i j : Nat} (x : Cluster) (h : j ≠ i) : (s.setCluster i x).cluster j = s.cluster j := tget_tset_ne _ x h
theorem State.cluster_setCluster_same {s : State} (h : tabWf {} s.clusters = true) (i : Nat) (x : Cluster) : (s.setCluster i x).cluster i = x := tget_tset_same h i x
theorem State.queue_setQueue_ne (s : State) {i j : Nat} (x : Queue) (h : j ≠ i) : (s.setQueue i x).queue j = s.queue j := tget_tset_ne _ x h
theorem State.queue_setQueue_same {s : State} (h : tabWf {} s.queues = true) (i : Nat) (x : Queue) : (s.setQueue i x).queue i = x := tget_tset_same h i x
theorem State.port_setPort_ne (s : State) {i j : Nat} (x : Port) (h : j ≠ i) : (s.setPort i x).port j = s.port j := tget_tset_ne _ x h
theorem State.port_setPort_same {s : State} (h : tabWf {} s.ports = true) (i : Nat) (x : Port) : (s.setPort i x).port i = x := tget_tset_same h i x
theorem State.ctx_setCtx_ne (s : State) {i j : Nat} (x : Ctx) (h : j ≠ i) : (s.setCtx i x).ctx j = s.ctx j := tget_tset_ne _ x h
theorem State.ctx_setCtx_same {s : State} (h : tabWf {} s.ctxs = true) (i : Nat) (x : Ctx) : (s.setCtx i x).ctx i = x := tget_tset_same h i x
theorem State.box_setBox_ne (s : State) {i j : Nat} (x : Mailbox) (h : j ≠ i) : (s.setBox i x).box j = s.box j := tget_tset_ne _ x h
theorem State.box_setBox_same {s : State} (h : tabWf {} s.can.boxes = true) (i : Nat) (x : Mailbox) : (s.setBox i x).box i = x := tget_tset_same h i x
theorem State.domain_setDomain_ne (s : State) {i j : Nat} (x : Domain) (h : j ≠ i) : (s.setDomain i x).domain j = s.domain j := tget_tset_ne _ x h
theorem State.domain_setDomain_same {s : State} (h : tabWf {} s.power.domains = true) (i : Nat) (x : Domain) : (s.setDomain i x).domain i = x := tget_tset_same h i x
theorem State.channel_setChannel_ne (s : State) {i j : Nat} (x : Channel) (h : j ≠ i) : (s.setChannel i x).channel j = s.channel j := tget_tset_ne _ x h
theorem State.channel_setChannel_same {s : State} (h : tabWf {} s.canary.channels = true) (i : Nat) (x : Channel) : (s.setChannel i x).channel i = x := tget_tset_same h i x
theorem State.input_setInput_ne (s : State) {i j : Nat} (x : InputPin) (h : j ≠ i) : (s.setInput i x).input j = s.input j := tget_tset_ne _ x h
theorem State.input_setInput_same {s : State} (h : tabWf {} s.inputs = true) (i : Nat) (x : InputPin) : (s.setInput i x).input i = x := tget_tset_same h i x
theorem State.cell_setCell_ne (s : State) {i j : Nat} (x : TallyCell) (h : j ≠ i) : (s.setCell i x).cell j = s.cell j := tget_tset_ne _ x h
theorem State.cell_setCell_same {s : State} (h : tabWf {} s.tally.cells = true) (i : Nat) (x : TallyCell) : (s.setCell i x).cell i = x := tget_tset_same h i x

/-! ## An accessor after an update of another unit -/

section setCol
variable (s : State) (g : Nat) (c : Col) (j : Nat)
@[simp] theorem State.stack_of_setCol : (s.setCol g c).stack j = s.stack j := rfl
@[simp] theorem State.face_of_setCol : (s.setCol g c).face j = s.face j := rfl
@[simp] theorem State.cluster_of_setCol : (s.setCol g c).cluster j = s.cluster j := rfl
@[simp] theorem State.queue_of_setCol : (s.setCol g c).queue j = s.queue j := rfl
@[simp] theorem State.port_of_setCol : (s.setCol g c).port j = s.port j := rfl
@[simp] theorem State.ctx_of_setCol : (s.setCol g c).ctx j = s.ctx j := rfl
@[simp] theorem State.box_of_setCol : (s.setCol g c).box j = s.box j := rfl
@[simp] theorem State.domain_of_setCol : (s.setCol g c).domain j = s.domain j := rfl
@[simp] theorem State.channel_of_setCol : (s.setCol g c).channel j = s.channel j := rfl
@[simp] theorem State.input_of_setCol : (s.setCol g c).input j = s.input j := rfl
@[simp] theorem State.cell_of_setCol : (s.setCol g c).cell j = s.cell j := rfl
end setCol

section modCol
variable (s : State) (g : Nat) (f : Col → Col) (j : Nat)
@[simp] theorem State.stack_of_modCol : (s.modCol g f).stack j = s.stack j := rfl
@[simp] theorem State.face_of_modCol : (s.modCol g f).face j = s.face j := rfl
@[simp] theorem State.cluster_of_modCol : (s.modCol g f).cluster j = s.cluster j := rfl
@[simp] theorem State.queue_of_modCol : (s.modCol g f).queue j = s.queue j := rfl
@[simp] theorem State.port_of_modCol : (s.modCol g f).port j = s.port j := rfl
@[simp] theorem State.ctx_of_modCol : (s.modCol g f).ctx j = s.ctx j := rfl
@[simp] theorem State.box_of_modCol : (s.modCol g f).box j = s.box j := rfl
@[simp] theorem State.domain_of_modCol : (s.modCol g f).domain j = s.domain j := rfl
@[simp] theorem State.channel_of_modCol : (s.modCol g f).channel j = s.channel j := rfl
@[simp] theorem State.input_of_modCol : (s.modCol g f).input j = s.input j := rfl
@[simp] theorem State.cell_of_modCol : (s.modCol g f).cell j = s.cell j := rfl
end modCol

section setStack
variable (s : State) (n : Nat) (k : Stack) (j : Nat)
@[simp] theorem State.col_of_setStack : (s.setStack n k).col j = s.col j := rfl
@[simp] theorem State.face_of_setStack : (s.setStack n k).face j = s.face j := rfl
@[simp] theorem State.cluster_of_setStack : (s.setStack n k).cluster j = s.cluster j := rfl
@[simp] theorem State.queue_of_setStack : (s.setStack n k).queue j = s.queue j := rfl
@[simp] theorem State.port_of_setStack : (s.setStack n k).port j = s.port j := rfl
@[simp] theorem State.ctx_of_setStack : (s.setStack n k).ctx j = s.ctx j := rfl
@[simp] theorem State.box_of_setStack : (s.setStack n k).box j = s.box j := rfl
@[simp] theorem State.domain_of_setStack : (s.setStack n k).domain j = s.domain j := rfl
@[simp] theorem State.channel_of_setStack : (s.setStack n k).channel j = s.channel j := rfl
@[simp] theorem State.input_of_setStack : (s.setStack n k).input j = s.input j := rfl
@[simp] theorem State.cell_of_setStack : (s.setStack n k).cell j = s.cell j := rfl
end setStack

section modStack
variable (s : State) (n : Nat) (f : Stack → Stack) (j : Nat)
@[simp] theorem State.col_of_modStack : (s.modStack n f).col j = s.col j := rfl
@[simp] theorem State.face_of_modStack : (s.modStack n f).face j = s.face j := rfl
@[simp] theorem State.cluster_of_modStack : (s.modStack n f).cluster j = s.cluster j := rfl
@[simp] theorem State.queue_of_modStack : (s.modStack n f).queue j = s.queue j := rfl
@[simp] theorem State.port_of_modStack : (s.modStack n f).port j = s.port j := rfl
@[simp] theorem State.ctx_of_modStack : (s.modStack n f).ctx j = s.ctx j := rfl
@[simp] theorem State.box_of_modStack : (s.modStack n f).box j = s.box j := rfl
@[simp] theorem State.domain_of_modStack : (s.modStack n f).domain j = s.domain j := rfl
@[simp] theorem State.channel_of_modStack : (s.modStack n f).channel j = s.channel j := rfl
@[simp] theorem State.input_of_modStack : (s.modStack n f).input j = s.input j := rfl
@[simp] theorem State.cell_of_modStack : (s.modStack n f).cell j = s.cell j := rfl
end modStack

section setFace
variable (s : State) (f : Nat) (c : Face) (j : Nat)
@[simp] theorem State.col_of_setFace : (s.setFace f c).col j = s.col j := rfl
@[simp] theorem State.stack_of_setFace : (s.setFace f c).stack j = s.stack j := rfl
@[simp] theorem State.cluster_of_setFace : (s.setFace f c).cluster j = s.cluster j := rfl
@[simp] theorem State.queue_of_setFace : (s.setFace f c).queue j = s.queue j := rfl
@[simp] theorem State.port_of_setFace : (s.setFace f c).port j = s.port j := rfl
@[simp] theorem State.ctx_of_setFace : (s.setFace f c).ctx j = s.ctx j := rfl
@[simp] theorem State.box_of_setFace : (s.setFace f c).box j = s.box j := rfl
@[simp] theorem State.domain_of_setFace : (s.setFace f c).domain j = s.domain j := rfl
@[simp] theorem State.channel_of_setFace : (s.setFace f c).channel j = s.channel j := rfl
@[simp] theorem State.input_of_setFace : (s.setFace f c).input j = s.input j := rfl
@[simp] theorem State.cell_of_setFace : (s.setFace f c).cell j = s.cell j := rfl
end setFace

section modFace
variable (s : State) (f : Nat) (k : Face → Face) (j : Nat)
@[simp] theorem State.col_of_modFace : (s.modFace f k).col j = s.col j := rfl
@[simp] theorem State.stack_of_modFace : (s.modFace f k).stack j = s.stack j := rfl
@[simp] theorem State.cluster_of_modFace : (s.modFace f k).cluster j = s.cluster j := rfl
@[simp] theorem State.queue_of_modFace : (s.modFace f k).queue j = s.queue j := rfl
@[simp] theorem State.port_of_modFace : (s.modFace f k).port j = s.port j := rfl
@[simp] theorem State.ctx_of_modFace : (s.modFace f k).ctx j = s.ctx j := rfl
@[simp] theorem State.box_of_modFace : (s.modFace f k).box j = s.box j := rfl
@[simp] theorem State.domain_of_modFace : (s.modFace f k).domain j = s.domain j := rfl
@[simp] theorem State.channel_of_modFace : (s.modFace f k).channel j = s.channel j := rfl
@[simp] theorem State.input_of_modFace : (s.modFace f k).input j = s.input j := rfl
@[simp] theorem State.cell_of_modFace : (s.modFace f k).cell j = s.cell j := rfl
end modFace

section setCluster
variable (s : State) (c : Nat) (k : Cluster) (j : Nat)
@[simp] theorem State.col_of_setCluster : (s.setCluster c k).col j = s.col j := rfl
@[simp] theorem State.stack_of_setCluster : (s.setCluster c k).stack j = s.stack j := rfl
@[simp] theorem State.face_of_setCluster : (s.setCluster c k).face j = s.face j := rfl
@[simp] theorem State.queue_of_setCluster : (s.setCluster c k).queue j = s.queue j := rfl
@[simp] theorem State.port_of_setCluster : (s.setCluster c k).port j = s.port j := rfl
@[simp] theorem State.ctx_of_setCluster : (s.setCluster c k).ctx j = s.ctx j := rfl
@[simp] theorem State.box_of_setCluster : (s.setCluster c k).box j = s.box j := rfl
@[simp] theorem State.domain_of_setCluster : (s.setCluster c k).domain j = s.domain j := rfl
@[simp] theorem State.channel_of_setCluster : (s.setCluster c k).channel j = s.channel j := rfl
@[simp] theorem State.input_of_setCluster : (s.setCluster c k).input j = s.input j := rfl
@[simp] theorem State.cell_of_setCluster : (s.setCluster c k).cell j = s.cell j := rfl
end setCluster

section setQueue
variable (s : State) (q : Nat) (k : Queue) (j : Nat)
@[simp] theorem State.col_of_setQueue : (s.setQueue q k).col j = s.col j := rfl
@[simp] theorem State.stack_of_setQueue : (s.setQueue q k).stack j = s.stack j := rfl
@[simp] theorem State.face_of_setQueue : (s.setQueue q k).face j = s.face j := rfl
@[simp] theorem State.cluster_of_setQueue : (s.setQueue q k).cluster j = s.cluster j := rfl
@[simp] theorem State.port_of_setQueue : (s.setQueue q k).port j = s.port j := rfl
@[simp] theorem State.ctx_of_setQueue : (s.setQueue q k).ctx j = s.ctx j := rfl
@[simp] theorem State.box_of_setQueue : (s.setQueue q k).box j = s.box j := rfl
@[simp] theorem State.domain_of_setQueue : (s.setQueue q k).domain j = s.domain j := rfl
@[simp] theorem State.channel_of_setQueue : (s.setQueue q k).channel j = s.channel j := rfl
@[simp] theorem State.input_of_setQueue : (s.setQueue q k).input j = s.input j := rfl
@[simp] theorem State.cell_of_setQueue : (s.setQueue q k).cell j = s.cell j := rfl
end setQueue

section modQueue
variable (s : State) (q : Nat) (f : Queue → Queue) (j : Nat)
@[simp] theorem State.col_of_modQueue : (s.modQueue q f).col j = s.col j := rfl
@[simp] theorem State.stack_of_modQueue : (s.modQueue q f).stack j = s.stack j := rfl
@[simp] theorem State.face_of_modQueue : (s.modQueue q f).face j = s.face j := rfl
@[simp] theorem State.cluster_of_modQueue : (s.modQueue q f).cluster j = s.cluster j := rfl
@[simp] theorem State.port_of_modQueue : (s.modQueue q f).port j = s.port j := rfl
@[simp] theorem State.ctx_of_modQueue : (s.modQueue q f).ctx j = s.ctx j := rfl
@[simp] theorem State.box_of_modQueue : (s.modQueue q f).box j = s.box j := rfl
@[simp] theorem State.domain_of_modQueue : (s.modQueue q f).domain j = s.domain j := rfl
@[simp] theorem State.channel_of_modQueue : (s.modQueue q f).channel j = s.channel j := rfl
@[simp] theorem State.input_of_modQueue : (s.modQueue q f).input j = s.input j := rfl
@[simp] theorem State.cell_of_modQueue : (s.modQueue q f).cell j = s.cell j := rfl
end modQueue

section setPort
variable (s : State) (k : Nat) (p : Port) (j : Nat)
@[simp] theorem State.col_of_setPort : (s.setPort k p).col j = s.col j := rfl
@[simp] theorem State.stack_of_setPort : (s.setPort k p).stack j = s.stack j := rfl
@[simp] theorem State.face_of_setPort : (s.setPort k p).face j = s.face j := rfl
@[simp] theorem State.cluster_of_setPort : (s.setPort k p).cluster j = s.cluster j := rfl
@[simp] theorem State.queue_of_setPort : (s.setPort k p).queue j = s.queue j := rfl
@[simp] theorem State.ctx_of_setPort : (s.setPort k p).ctx j = s.ctx j := rfl
@[simp] theorem State.box_of_setPort : (s.setPort k p).box j = s.box j := rfl
@[simp] theorem State.domain_of_setPort : (s.setPort k p).domain j = s.domain j := rfl
@[simp] theorem State.channel_of_setPort : (s.setPort k p).channel j = s.channel j := rfl
@[simp] theorem State.input_of_setPort : (s.setPort k p).input j = s.input j := rfl
@[simp] theorem State.cell_of_setPort : (s.setPort k p).cell j = s.cell j := rfl
end setPort

section modPort
variable (s : State) (k : Nat) (f : Port → Port) (j : Nat)
@[simp] theorem State.col_of_modPort : (s.modPort k f).col j = s.col j := rfl
@[simp] theorem State.stack_of_modPort : (s.modPort k f).stack j = s.stack j := rfl
@[simp] theorem State.face_of_modPort : (s.modPort k f).face j = s.face j := rfl
@[simp] theorem State.cluster_of_modPort : (s.modPort k f).cluster j = s.cluster j := rfl
@[simp] theorem State.queue_of_modPort : (s.modPort k f).queue j = s.queue j := rfl
@[simp] theorem State.ctx_of_modPort : (s.modPort k f).ctx j = s.ctx j := rfl
@[simp] theorem State.box_of_modPort : (s.modPort k f).box j = s.box j := rfl
@[simp] theorem State.domain_of_modPort : (s.modPort k f).domain j = s.domain j := rfl
@[simp] theorem State.channel_of_modPort : (s.modPort k f).channel j = s.channel j := rfl
@[simp] theorem State.input_of_modPort : (s.modPort k f).input j = s.input j := rfl
@[simp] theorem State.cell_of_modPort : (s.modPort k f).cell j = s.cell j := rfl
end modPort

section setCtx
variable (s : State) (c : Nat) (k : Ctx) (j : Nat)
@[simp] theorem State.col_of_setCtx : (s.setCtx c k).col j = s.col j := rfl
@[simp] theorem State.stack_of_setCtx : (s.setCtx c k).stack j = s.stack j := rfl
@[simp] theorem State.face_of_setCtx : (s.setCtx c k).face j = s.face j := rfl
@[simp] theorem State.cluster_of_setCtx : (s.setCtx c k).cluster j = s.cluster j := rfl
@[simp] theorem State.queue_of_setCtx : (s.setCtx c k).queue j = s.queue j := rfl
@[simp] theorem State.port_of_setCtx : (s.setCtx c k).port j = s.port j := rfl
@[simp] theorem State.box_of_setCtx : (s.setCtx c k).box j = s.box j := rfl
@[simp] theorem State.domain_of_setCtx : (s.setCtx c k).domain j = s.domain j := rfl
@[simp] theorem State.channel_of_setCtx : (s.setCtx c k).channel j = s.channel j := rfl
@[simp] theorem State.input_of_setCtx : (s.setCtx c k).input j = s.input j := rfl
@[simp] theorem State.cell_of_setCtx : (s.setCtx c k).cell j = s.cell j := rfl
end setCtx

section setBox
variable (s : State) (m : Nat) (b : Mailbox) (j : Nat)
@[simp] theorem State.col_of_setBox : (s.setBox m b).col j = s.col j := rfl
@[simp] theorem State.stack_of_setBox : (s.setBox m b).stack j = s.stack j := rfl
@[simp] theorem State.face_of_setBox : (s.setBox m b).face j = s.face j := rfl
@[simp] theorem State.cluster_of_setBox : (s.setBox m b).cluster j = s.cluster j := rfl
@[simp] theorem State.queue_of_setBox : (s.setBox m b).queue j = s.queue j := rfl
@[simp] theorem State.port_of_setBox : (s.setBox m b).port j = s.port j := rfl
@[simp] theorem State.ctx_of_setBox : (s.setBox m b).ctx j = s.ctx j := rfl
@[simp] theorem State.domain_of_setBox : (s.setBox m b).domain j = s.domain j := rfl
@[simp] theorem State.channel_of_setBox : (s.setBox m b).channel j = s.channel j := rfl
@[simp] theorem State.input_of_setBox : (s.setBox m b).input j = s.input j := rfl
@[simp] theorem State.cell_of_setBox : (s.setBox m b).cell j = s.cell j := rfl
end setBox

section setDomain
variable (s : State) (d : Nat) (k : Domain) (j : Nat)
@[simp] theorem State.col_of_setDomain : (s.setDomain d k).col j = s.col j := rfl
@[simp] theorem State.stack_of_setDomain : (s.setDomain d k).stack j = s.stack j := rfl
@[simp] theorem State.face_of_setDomain : (s.setDomain d k).face j = s.face j := rfl
@[simp] theorem State.cluster_of_setDomain : (s.setDomain d k).cluster j = s.cluster j := rfl
@[simp] theorem State.queue_of_setDomain : (s.setDomain d k).queue j = s.queue j := rfl
@[simp] theorem State.port_of_setDomain : (s.setDomain d k).port j = s.port j := rfl
@[simp] theorem State.ctx_of_setDomain : (s.setDomain d k).ctx j = s.ctx j := rfl
@[simp] theorem State.box_of_setDomain : (s.setDomain d k).box j = s.box j := rfl
@[simp] theorem State.channel_of_setDomain : (s.setDomain d k).channel j = s.channel j := rfl
@[simp] theorem State.input_of_setDomain : (s.setDomain d k).input j = s.input j := rfl
@[simp] theorem State.cell_of_setDomain : (s.setDomain d k).cell j = s.cell j := rfl
end setDomain

section setChannel
variable (s : State) (c : Nat) (k : Channel) (j : Nat)
@[simp] theorem State.col_of_setChannel : (s.setChannel c k).col j = s.col j := rfl
@[simp] theorem State.stack_of_setChannel : (s.setChannel c k).stack j = s.stack j := rfl
@[simp] theorem State.face_of_setChannel : (s.setChannel c k).face j = s.face j := rfl
@[simp] theorem State.cluster_of_setChannel : (s.setChannel c k).cluster j = s.cluster j := rfl
@[simp] theorem State.queue_of_setChannel : (s.setChannel c k).queue j = s.queue j := rfl
@[simp] theorem State.port_of_setChannel : (s.setChannel c k).port j = s.port j := rfl
@[simp] theorem State.ctx_of_setChannel : (s.setChannel c k).ctx j = s.ctx j := rfl
@[simp] theorem State.box_of_setChannel : (s.setChannel c k).box j = s.box j := rfl
@[simp] theorem State.domain_of_setChannel : (s.setChannel c k).domain j = s.domain j := rfl
@[simp] theorem State.input_of_setChannel : (s.setChannel c k).input j = s.input j := rfl
@[simp] theorem State.cell_of_setChannel : (s.setChannel c k).cell j = s.cell j := rfl
end setChannel

section setInput
variable (s : State) (i : Nat) (k : InputPin) (j : Nat)
@[simp] theorem State.col_of_setInput : (s.setInput i k).col j = s.col j := rfl
@[simp] theorem State.stack_of_setInput : (s.setInput i k).stack j = s.stack j := rfl
@[simp] theorem State.face_of_setInput : (s.setInput i k).face j = s.face j := rfl
@[simp] theorem State.cluster_of_setInput : (s.setInput i k).cluster j = s.cluster j := rfl
@[simp] theorem State.queue_of_setInput : (s.setInput i k).queue j = s.queue j := rfl
@[simp] theorem State.port_of_setInput : (s.setInput i k).port j = s.port j := rfl
@[simp] theorem State.ctx_of_setInput : (s.setInput i k).ctx j = s.ctx j := rfl
@[simp] theorem State.box_of_setInput : (s.setInput i k).box j = s.box j := rfl
@[simp] theorem State.domain_of_setInput : (s.setInput i k).domain j = s.domain j := rfl
@[simp] theorem State.channel_of_setInput : (s.setInput i k).channel j = s.channel j := rfl
@[simp] theorem State.cell_of_setInput : (s.setInput i k).cell j = s.cell j := rfl
end setInput

section setCell
variable (s : State) (t : Nat) (k : TallyCell) (j : Nat)
@[simp] theorem State.col_of_setCell : (s.setCell t k).col j = s.col j := rfl
@[simp] theorem State.stack_of_setCell : (s.setCell t k).stack j = s.stack j := rfl
@[simp] theorem State.face_of_setCell : (s.setCell t k).face j = s.face j := rfl
@[simp] theorem State.cluster_of_setCell : (s.setCell t k).cluster j = s.cluster j := rfl
@[simp] theorem State.queue_of_setCell : (s.setCell t k).queue j = s.queue j := rfl
@[simp] theorem State.port_of_setCell : (s.setCell t k).port j = s.port j := rfl
@[simp] theorem State.ctx_of_setCell : (s.setCell t k).ctx j = s.ctx j := rfl
@[simp] theorem State.box_of_setCell : (s.setCell t k).box j = s.box j := rfl
@[simp] theorem State.domain_of_setCell : (s.setCell t k).domain j = s.domain j := rfl
@[simp] theorem State.channel_of_setCell : (s.setCell t k).channel j = s.channel j := rfl
@[simp] theorem State.input_of_setCell : (s.setCell t k).input j = s.input j := rfl
end setCell

section emit
variable (s : State) (o : Out) (j : Nat)
@[simp] theorem State.col_of_emit : (s.emit o).col j = s.col j := rfl
@[simp] theorem State.stack_of_emit : (s.emit o).stack j = s.stack j := rfl
@[simp] theorem State.face_of_emit : (s.emit o).face j = s.face j := rfl
@[simp] theorem State.cluster_of_emit : (s.emit o).cluster j = s.cluster j := rfl
@[simp] theorem State.queue_of_emit : (s.emit o).queue j = s.queue j := rfl
@[simp] theorem State.port_of_emit : (s.emit o).port j = s.port j := rfl
@[simp] theorem State.ctx_of_emit : (s.emit o).ctx j = s.ctx j := rfl
@[simp] theorem State.box_of_emit : (s.emit o).box j = s.box j := rfl
@[simp] theorem State.domain_of_emit : (s.emit o).domain j = s.domain j := rfl
@[simp] theorem State.channel_of_emit : (s.emit o).channel j = s.channel j := rfl
@[simp] theorem State.input_of_emit : (s.emit o).input j = s.input j := rfl
@[simp] theorem State.cell_of_emit : (s.emit o).cell j = s.cell j := rfl
end emit

section emits
variable (s : State) (os : List Out) (j : Nat)
@[simp] theorem State.col_of_emits : (s.emits os).col j = s.col j := rfl
@[simp] theorem State.stack_of_emits : (s.emits os).stack j = s.stack j := rfl
@[simp] theorem State.face_of_emits : (s.emits os).face j = s.face j := rfl
@[simp] theorem State.cluster_of_emits : (s.emits os).cluster j = s.cluster j := rfl
@[simp] theorem State.queue_of_emits : (s.emits os).queue j = s.queue j := rfl
@[simp] theorem State.port_of_emits : (s.emits os).port j = s.port j := rfl
@[simp] theorem State.ctx_of_emits : (s.emits os).ctx j = s.ctx j := rfl
@[simp] theorem State.box_of_emits : (s.emits os).box j = s.box j := rfl
@[simp] theorem State.domain_of_emits : (s.emits os).domain j = s.domain j := rfl
@[simp] theorem State.channel_of_emits : (s.emits os).channel j = s.channel j := rfl
@[simp] theorem State.input_of_emits : (s.emits os).input j = s.input j := rfl
@[simp] theorem State.cell_of_emits : (s.emits os).cell j = s.cell j := rfl
end emits

section wrByte
variable (s : State) (k : Nat) (b : Byte) (j : Nat)
@[simp] theorem State.col_of_wrByte : (s.wrByte k b).col j = s.col j := rfl
@[simp] theorem State.stack_of_wrByte : (s.wrByte k b).stack j = s.stack j := rfl
@[simp] theorem State.face_of_wrByte : (s.wrByte k b).face j = s.face j := rfl
@[simp] theorem State.cluster_of_wrByte : (s.wrByte k b).cluster j = s.cluster j := rfl
@[simp] theorem State.queue_of_wrByte : (s.wrByte k b).queue j = s.queue j := rfl
@[simp] theorem State.port_of_wrByte : (s.wrByte k b).port j = s.port j := rfl
@[simp] theorem State.ctx_of_wrByte : (s.wrByte k b).ctx j = s.ctx j := rfl
@[simp] theorem State.box_of_wrByte : (s.wrByte k b).box j = s.box j := rfl
@[simp] theorem State.domain_of_wrByte : (s.wrByte k b).domain j = s.domain j := rfl
@[simp] theorem State.channel_of_wrByte : (s.wrByte k b).channel j = s.channel j := rfl
@[simp] theorem State.input_of_wrByte : (s.wrByte k b).input j = s.input j := rfl
@[simp] theorem State.cell_of_wrByte : (s.wrByte k b).cell j = s.cell j := rfl
end wrByte

end Sys2Proof.Machine
end

