-- ==== Sys2Proof/WellFormed.lean ====
section
/-! DEFINITION. Which commands are well formed: the limits that an operand has and its type cannot hold. -/

namespace Sys2Proof

/-- Bytes of a dictionary write over CAN or a mailbox: at most the 4,064 B of Table 12.2 through a mailbox; a USDO download has
no such limit, and its whole value fits the 4 MiB of the largest object (R388). -/
def dictDataOk (n : Nat) : Bool := decide (n ≤ 4194304)

/-- A packet header and its payload belong together: `len` of Table 11.4 counts the payload bytes (R319). -/
def packetOk (hdr : BitVec 256) (data : List Byte) : Bool :=
  (hdr.extractLsb' 48 13).toNat == data.length

/-- The commands whose operands can stand together. -/
def wellFormed : Instr → Bool
  | .registerWrite _ _ _ data => dictDataOk data.length
  | .directCommandWrite _ _ _ _ data => decide (1 ≤ data.length) && decide (data.length ≤ 4096)
  | .apertureRead _ _ _ _ len => decide (1 ≤ len.toNat) && decide (len.toNat ≤ 4096)
  | .ordinaryRequest _ _ wr _ _ len data =>
    decide (1 ≤ len.toNat) && decide (len.toNat ≤ 4096) && (if wr then data.length == len.toNat else data.length == 0)
  | .doorbellWrite _ _ _ data => decide (1 ≤ data.length) && decide (data.length ≤ 4096)
  | .shaftLinkFrame _ _ _ _ payload _ => payload.length == 64
  | .flitReceived _ _ _ flit => flit.length == 256
  | .wr _ hdr data => packetOk hdr data
  | .sig _ hdr data => packetOk hdr data
  | .rsp _ hdr data => packetOk hdr data
  | .echo _ hdr data => packetOk hdr data
  | .hostRead _ len _ => decide (1 ≤ len.toNat) && decide (len.toNat ≤ 4096)
  | .hostWrite _ data => decide (1 ≤ data.length) && decide (data.length ≤ 4096)
  | .aditAccess wr _ len data _ =>
    decide (1 ≤ len.toNat) && decide (len.toNat ≤ 4096) && (if wr then data.length == len.toNat else data.length == 0)
  | .usdoDownload _ _ _ data => dictDataOk data.length
  | .fwImageWrite _ _ data => dictDataOk data.length
  | .licImageWrite _ _ data => dictDataOk data.length
  | .attNonceWrite _ _ data => dictDataOk data.length
  | .unitDutyTick stackTbl faces => decide (stackTbl.length ≤ 8) && decide (faces.length ≤ 52)
  | _ => true

end Sys2Proof
end

