-- ==== Sys2Proof/Tests/Slice0.lean ====
section
/-! SUPPORT. Our own tests: the worked values of the manual, the well-formedness checks on an ill-formed term each, and for every
statement with hypotheses a concrete state and operands that meet them (`witness_…`, clause by clause). -/

namespace Sys2Proof.Tests

open Sys2Proof Sys2Proof.Machine Sys2Proof.Claims

set_option Elab.async false

/-! ## Small states -/

/-- Context 0 through a port or the host: its dictionary writes need no more than the headframe. -/
def p0 : DictPath := .other 0

/-- A module in SERVICE: the bring-up is over, every domain is ON. -/
def live : State := { State.reset with
  life := { State.reset.life with state := 4, buLast := 11, filled := true, opened := true },
  power := { State.reset.power with domains := (List.range 30).map fun d => (d, ({ state := 1 } : Domain)) } }

/-- The same with given columns. -/
def withCol (c : Col) : State := { live with cols := [(0, c)] }
/-- The same with stack S0. -/
def withStack (k : Stack) (c : Col := {}) : State := { withCol c with stackTbl := [(0, k)] }
/-- The same with face F00. -/
def withFace (c : Face) : State := { live with faces := [(0, c)] }
/-- The same with queue Q00. -/
def withQueue (k : Queue) : State := { live with queues := [(0, k)] }
/-- The same with port L0. -/
def withPort (p : Port) : State := { live with ports := [(0, p)] }
/-- A record or descriptor: the values of fields by their lowest bit. -/
def word (w : Nat) (fs : List (Nat × Nat)) : BitVec w := BitVec.ofNat w (fs.map fun x => x.2 * 2 ^ x.1).sum

theorem opens_live (idx : W16) (sb : Byte) : Opens live live p0 idx sb := rfl

/-- A check has passed. -/
def chkOk {α : Type} : Chk α → Bool
  | .ok _ _ => true
  | _ => false

theorem ok_of_chkOk {α : Type} (x : Chk α) (h : chkOk x = true) : ∃ u a, x = .ok u a := by
  cases x with
  | ok u a => exact ⟨u, a, rfl⟩
  | wait u => exact nomatch h
  | fail st u => exact nomatch h

/-- A check has failed with a status. -/
def chkFails {α : Type} (st : Byte) : Chk α → Bool
  | .fail e _ => e == st
  | _ => false

theorem fail_of_chkFails {α : Type} (st : Byte) (x : Chk α) (h : chkFails st x = true) : ∃ u, x = .fail st u := by
  cases x with
  | fail e u => exact ⟨u, by rw [beq_iff_eq.1 h]⟩
  | ok u a => exact nomatch h
  | wait u => exact nomatch h

/-! ## Witnesses: the block, the dictionary, translation -/

theorem witness_StepRunsTheFrontCommand : live.pending = [] ∧ live.can.mail = [] ∧ mailboxServes State.reset = false := by
  refine ⟨rfl, rfl, ?_⟩
  decide

theorem witness_EveryStepKeepsMemoryCanonical :
    memWf (live.wrBytes 5 [1, 0, 3]).mem = true ∧ step (live.wrBytes 5 [1, 0, 3]) = .next { live.wrBytes 5 [1, 0, 3] with now := 1 } :=
  ⟨by decide, rfl⟩

theorem witness_MemoryAndTablesReadBack :
    memWf (live.wrBytes 5 [1, 0, 3]).mem = true ∧ tabWf (0 : W32) [(3, 1), (7, 2)] = true ∧ (4 : Nat) ≠ 3 := by decide

theorem witness_DictionaryPathsServeAndAnswer :
    (live.can.nmt ≠ .stopped ∧ live.can.busOff = false ∧ live.life.state ≠ 0 ∧ headframeServes live = true) ∧
    (let s := live.setBox 0 { pend := true }
     headframeOn s = true ∧ (s.box 0).pend = true) ∧
    (let s := { live with life := { live.life with warm := some 0 } }
     headframeOn s = true ∧ (s.box 15).pend = false ∧ mailboxServes s = false) ∧
    ((5 : CtxId).val ≠ 0 ∧ headframeServes live = true) ∧ stOob ≠ stOk := by decide

theorem witness_RegisterWriteTakesEffectOrIsRefused :
    Opens live live p0 0x1017 0 ∧ (∀ m, p0 ≠ .mbox m) ∧
    dictCheck live 0x1017 1 true false 2 = some (stOob, 0x06090011) ∧
    dictCheck live 0x1017 0 true false 2 = none ∧ (objWrite live p0 0x1017 0 0 [0xE8, 3]).status = some stOk ∧
    ((withFace { logical := some 0 }).face 0).logical.isSome = true ∧
    Opens (withFace { logical := some 0 }) (withFace { logical := some 0 }) p0 0x4000 0x0E ∧
    (live.face 51).logical = none := by
  refine ⟨rfl, (by intro m h; exact nomatch h), ?_, ?_, ?_, rfl, rfl, rfl⟩ <;> decide +kernel

theorem witness_TranslationWrites :
    Opens live live p0 (entryIdx 32767) (entrySub 32767) ∧
    entryStatus live (0xE0000000 &&& 0x8F80FFFF) = stOk ∧ entryStatus live (0xE000C018 &&& 0x8F80FFFF) ≠ stOk ∧
    (0x70000000 : W32).getLsbD 31 = false ∧
    Opens live live p0 0x2503 16 ∧ (∀ i < 32, groupRetired live (32 * 15 + i) = false) ∧
    (∀ i < 32, groupMapped live (32 * 15 + i) = true → (0x80000001 : W32).getLsbD i = live.groupView.getLsbD (32 * 15 + i)) ∧
    (let s := { live with xlate := [(0, 0x80807FFF)] }
     (∀ i < 32, groupRetired s (32 * 15 + i) = false) ∧ Opens s s p0 0x2503 16 ∧
     ∃ i < 32, groupMapped s (32 * 15 + i) = true ∧ (0x80000000 : W32).getLsbD i ≠ s.groupView.getLsbD (32 * 15 + i)) := by
  refine ⟨rfl, ?_, ?_, ?_, rfl, ?_, ?_, ?_, rfl, 31, ?_⟩ <;> decide +kernel

theorem witness_ContextWrites :
    Opens live live p0 0x2510 2 ∧ (live.ctx 0).enabled = true ∧
    (live.ctx 63).enabled = false ∧ (32767 : Nat) < (0x8000 : W16).toNat ∧ (0x8000 : W16).toNat ≤ 32768 ∧
    (let s := live.setCtx 1 { xlateBase := 32767, xlateCount := 2 }
     Opens s s p0 0x2511 1 ∧ 32768 < (s.ctx 1).xlateBase.toNat + (s.ctx 1).xlateCount.toNat) ∧
    (let s := (live.setCtx 0 { enabled := true, xlateBase := 4, xlateCount := 4 }).setCtx 1 { xlateBase := 7, xlateCount := 2 }
     ∃ d < 64, d ≠ 1 ∧ (s.ctx d).enabled = true ∧ windowsMeet (s.ctx 1) (s.ctx d) = true) ∧
    (let s := (live.setCtx 0 { enabled := true, xlateBase := 4, xlateCount := 4 }).setCtx 1 { xlateBase := 8, xlateCount := 2 }
     (s.ctx 1).xlateBase.toNat + (s.ctx 1).xlateCount.toNat ≤ 32768 ∧
     ∀ d < 64, d ≠ 1 → (s.ctx d).enabled = true → windowsMeet (s.ctx 1) (s.ctx d) = false) := by
  refine ⟨rfl, ?_, ?_, ?_, ?_, ⟨rfl, ?_⟩, ⟨0, ?_⟩, ?_⟩ <;> decide +kernel

theorem witness_TranslationDrain :
    Opens live live p0 0x2501 1 ∧ live.drain = none ∧ 2 ≤ (255 : Byte).toNat ∧
    (let d : Drain := { path := p0, since := 0, mark := 1 }
     drainOpen { live with drain := some d } d = []) ∧
    (let d : Drain := { path := p0, since := 0, mark := 2 }
     let x : Xfer := { id := 1, owner := .host 0, ctx := 0, code := 1, va := 0, wr := false, left := 1, data := [] }
     let s := { live with drain := some d, xfers := [x], now := 8000000 }
     s.drain = some d ∧ d.since + 8000000 ≤ s.now ∧ drainOpen s d ≠ [] ∧ headframeOn s = true ∧ s.log.recs = []) := by
  refine ⟨rfl, ?_, ?_, ?_, ?_⟩ <;> decide +kernel

theorem witness_EveryDramByteHasItsOwnPlace :
    (0x12_3456_7800 : Nat) < 2 ^ 39 ∧ live.groupView.getLsbD (0x12_3456_7800 >>> 24 >>> 6) = false ∧
    ({ live with groupView := 1 <<< 72 } : State).groupView.getLsbD (0x12_3456_7800 >>> 24 >>> 6) = true := by decide +kernel

/-! ## Witnesses: columns and picks -/

/-- Column 0 in PICK mode with operations in its window. -/
def picking (ws : List PickOp) : State := withCol { mode := .pick, window := ws, layout := 0 }
/-- A running operation with given fields. -/
def running (p : PickFields) : PickOp := { uid := 1, record := mkRecord p, started := some 0 }

theorem witness_ColumnEntersPickMode :
    (let s := withCol { change := some ⟨0, 1, false, p0⟩ }
     Opens s s p0 (colModeIdx 0) (colModeSub 0) ∧ modeHeld s 0 = true) ∧
    (let s := withCol { fenced := true }
     Opens s s p0 (colModeIdx 0) (colModeSub 0) ∧ modeHeld s 0 = false ∧ computeBusy s = false ∧ (s.col 0).fenced = true) ∧
    (modeHeld live 4095 = false ∧ computeBusy live = false ∧ pickLive live 4095 = true ∧ (live.col 4095).mode = .normal ∧
      cachedMapping live 4095 = false) ∧
    ((withCol { mode := .pick }).col 0).mode = .pick ∧
    cachedMapping { live with xlate := [(5, 0x80800000)] } 0 = true ∧
    (let ch : ModeChange := ⟨0, 1, false, p0⟩
     let s := { withCol { mode := .toPick, change := some ch } with now := 8000000 }
     (s.col 0).change = some ch ∧ ch.byStack = false ∧ (s.col 0).mode = .toPick ∧ earlierDone s 0 ch = true ∧
     ∃ x : GranReq, earlierDone { s with waits := [x] } 0 ch = false) := by
  refine ⟨⟨rfl, ?_⟩, ⟨rfl, ?_⟩, ?_, ?_, ?_, rfl, ?_, ?_, ?_,
    { seq := 0, xfer := 1, col := 0, die := 0, row := 0, off := 0, len := 8, wr := false, data := [], base := 0, holders := [],
      behind := [], arrived := 0 }, ?_⟩ <;> decide +kernel

theorem witness_ColumnLeavesPickMode :
    (let s := withCol { mode := .pick, dirQ := [running { op := 1 }] }
     Opens s s p0 (colModeIdx 0) (colModeSub 0) ∧ modeHeld s 0 = false ∧ computeBusy s = false ∧ pickLive s 0 = true ∧
     (s.col 0).mode = .pick ∧ (s.col 0).seqQ = [] ∧ (s.col 0).dirQ = [running { op := 1 }] ∧ tabWf ({} : Col) s.cols = true) ∧
    (let ch : ModeChange := ⟨0, 1, false, p0⟩
     let s := withCol { mode := .toNormal, change := some ch }
     (s.col 0).change = some ch ∧ ch.byStack = false ∧ (s.col 0).mode = .toNormal ∧ (s.col 0).window = []) ∧
    (let s := { withCol { mode := .toNormal, change := some ⟨0, 1, false, p0⟩, window := [running { op := 1 }] } with now := 8000000 }
     (s.col 0).window ≠ [] ∧ 8000000 ≤ s.now) := by
  refine ⟨⟨rfl, ?_⟩, ⟨rfl, ?_⟩, ?_⟩ <;> decide +kernel

theorem tget_const {α : Type} (d c : α) : ∀ (l : List Nat), ∀ g ∈ l, tget d (l.map fun x => (x, c)) g = c
  | [], g, h => nomatch h
  | a :: l, g, h => by
    rw [List.map_cons, tget]
    split
    · rfl
    · next e => exact tget_const d c l g ((List.mem_cons.1 h).resolve_left e)

/-- Columns that are alike. -/
def alike (gs : List Nat) (c : Col) : State := { live with cols := gs.map fun g => (g, c) }

theorem alike_col (gs : List Nat) (c : Col) (g : Nat) (h : g ∈ gs) : (alike gs c).col g = c := by
  unfold State.col alike
  exact tget_const ({} : Col) c gs g h

theorem witness_StackModeStartsEveryColumn :
    (let s := live
     Opens s s p0 (stackModeIdx 7) 1 ∧ (s.stack 7).change = none ∧
     (s.cols.any fun x => stackOf x.1 == 7 && x.2.change.isSome) = false ∧ computeBusy s = false ∧
     ((colsOf 7).filter fun g => pickLive s g) ≠ [] ∧
     (∀ g ∈ (colsOf 7).filter fun g => pickLive s g, (s.col g).mode = .normal ∧ cachedMapping s g = false)) ∧
    (let s := { live with xlate := [(5, 0x80800000)] }
     ∃ g ∈ (colsOf 0).filter fun g => pickLive s g, (s.col g).mode = .normal ∧ cachedMapping s g = true) ∧
    (let s := alike (colsOf 7) { mode := .pick }
     ∀ g ∈ (colsOf 7).filter fun g => pickLive s g, (s.col g).mode = .pick) := by
  refine ⟨⟨rfl, ?_⟩, ⟨0, ?_⟩, ?_⟩
  · decide +kernel
  · decide +kernel
  · intro s g h
    exact congrArg Col.mode (alike_col (colsOf 7) { mode := .pick } g (List.mem_filter.1 h).1)

theorem witness_ApertureWritesAndReads :
    (List.replicate 64 (0 : Byte)).length = 64 ∧
    (let s := { (withCol { mode := .pick }).setCtx 0 { enabled := true, xlateCount := 1 } with xlate := [(0, 0x8680E000)] }
     (let r := apertureVa s 0 0 (64 * 15) true
      apertureRight r.1 0 r.2.1 64 true r.2.2 = stOk) ∧
     (∀ off, off = 0x100000 ∨ off = 0x200000 ∨ off = 0x200FF8 →
       let r := apertureVa s 0 0 off false
       apertureRight r.1 0 r.2.1 8 false r.2.2 = stOk) ∧ computeBusy s = false ∧ pickLive s 0 = true ∧
     (s.col 0).mode = .pick ∧ (tget ({} : SlotRec) (s.col 0).slots 15).state ≠ 1 ∧ (tget ({} : SlotRec) (s.col 0).slots 15).state ≠ 2 ∧
     (s.col 0).window = []) ∧
    (tget ({} : SlotRec) [(15, ({ state := 2 } : SlotRec))] 15).state = 2 ∧
    (let s := { live.setCtx 0 { enabled := true, xlateCount := 1 } with xlate := [(0, 0x8080E000)] }
     let r := apertureVa s 0 0 0 true
     apertureRight r.1 0 r.2.1 64 true r.2.2 = stProt) ∧
    ((picking [running { op := 9 }]).col 0).window ≠ [] := by
  refine ⟨?_, ⟨?_, fun off h => ?_, ?_⟩, ?_, ?_, ?_⟩
  all_goals try decide +kernel
  rcases h with rfl | rfl | rfl <;> decide +kernel

theorem witness_PickAdmissionFollowsTheChecks :
    (let o : PickOp := { uid := 1, record := mkRecord { op := 9 } }
     let s := withCol { mode := .pick, dirQ := [o] }
     domainOn s 18 = true ∧ (s.col 0).dirQ.head? = some o ∧ (s.col 0).lastSeq = false ∧ (admissionChecks s 0 o).2.2 = stOk ∧
     claimsConflict (admissionChecks s 0 o).2.1.claims [] = false ∧ (s.col 0).window.length < 5) ∧
    (let o : PickOp := { uid := 1, record := mkRecord { op := 10 } }
     let s := withCol { mode := .pick, dirQ := [o] }
     (admissionChecks s 0 o).2.2 = stMode) ∧
    (let o : PickOp := { uid := 2, record := mkRecord { op := 9 }, owner := .pass 0 0 }
     let s := withCol { mode := .pick, seqQ := [o], lastSeq := true }
     (s.col 0).seqQ.head? = some o ∧ admitHead s 0 false = none ∧ seqOutstanding s 0 < 1024) ∧
    claimsConflict [⟨0, 0, 1, true⟩] [⟨0, 0, 8192, false⟩] = true ∧
    5 ≤ ((picking (List.replicate 5 (running { op := 9 }))).col 0).window.length := by
  refine ⟨?_, ?_, ?_, ?_, ?_⟩ <;> decide +kernel

theorem witness_PickOperationsStartAndComplete :
    (let o : PickOp := { uid := 1, record := mkRecord { op := 9 } }
     let s := picking [o]
     (s.col 0).window[0]? = some o ∧ canStart s 0 0 = true ∧ startCheck (s.col 0) o = true ∧ o.claims = []) ∧
    (let o : PickOp := { uid := 1, record := mkRecord { op := 2, dstVa := 0 }, claims := [⟨0, 0, 1, true⟩] }
     let s := picking [o]
     canStart s 0 0 = true ∧ startCheck (s.col 0) o = true ∧ o.claims ≠ []) ∧
    (let o : PickOp := { uid := 1, record := mkRecord { op := 8, fn := 2, nout := 1 } }
     canStart (picking [o]) 0 0 = true ∧ startCheck ((picking [o]).col 0) o = false) ∧
    (let o : PickOp := { uid := 1, record := mkRecord { op := 9 }, owner := .slot 15, started := some 3, done := true, cost := 1 }
     let s := { picking [o] with now := 4 }
     o.started = some 3 ∧ o.done = true ∧ 3 + o.cost + o.delay ≤ s.now ∧ o.owner = .slot 15 ∧ recNotify o.record = false ∧
     tabWf ({} : Col) s.cols = true) ∧
    (let o : PickOp := { uid := 1, started := some 3, done := true, cost := 2 }
     ({ picking [o] with now := 4 } : State).now < 3 + o.cost + o.delay) ∧
    (let o : PickOp := { uid := 1, record := mkRecord { op := 2, dstVa := 0 }, claims := [⟨0, 0, 1, true⟩] }
     let s := { (picking [o]).setStack 0 { linkUp := true } with
                canary := { live.canary with thrState := thrEnforced, thrK := 2 }, now := 1023 }
     o.claims ≠ [] ∧ dutyOpen (dutyOf s (stackOf 0)) s.now = false) := by
  refine ⟨?_, ?_, ?_, ?_, ?_, ?_⟩ <;> decide +kernel

theorem witness_PickRowOperations :
    (let o : PickOp := { running { op := 1 } with record := word 512 [(0, 1), (112, 8192)], rows := 8191 }
     o.rows < recSrcN o.record ∧ runningOp (picking [o]) 0 0 opPcopy = some o ∧ 1 + o.rows ≤ recSrcN o.record) ∧
    (let o : PickOp := { running { op := 1 } with record := word 512 [(0, 2), (112, 1)] }
     o.rows < recSrcN o.record ∧ runningOp (picking [o]) 0 0 opPinit = some o) ∧
    (let o : PickOp := { running { op := 1 } with record := word 512 [(0, 3), (20, 3), (112, 1)] }
     runningOp (picking [o]) 0 0 opPlogic = some o ∧ recFn o.record < 4) ∧
    (let o : PickOp := { running { op := 1 } with record := word 512 [(0, 3), (20, 4), (112, 1)] }
     runningOp (picking [o]) 0 0 opPlogic = some o ∧ recFn o.record = 4) := by
  refine ⟨?_, ?_, ?_, ?_⟩ <;> decide +kernel

theorem witness_PickLoads :
    (let o := running { op := 4, fn := 0, slots := 1, k := 32 }
     runningOp (picking [o]) 0 0 opPload = some o ∧ recFn o.record = 0) ∧
    (let o := running { op := 4, fn := 1, slots := 1, k := 32 }
     runningOp (picking [o]) 0 0 opPload = some o ∧ recFn o.record = 1) ∧
    (let o := { running { op := 4, fn := 2, slots := 1, k := 32 } with srcPa := 0xC00000_0000 }
     runningOp (picking [o]) 0 0 opPload = some o ∧ recFn o.record = 2 ∧
     ∃ t r, innerAccess (claimWaitEnd (picking [o]) 0) (pickReq 0 o) 0 (recSrcVa o.record) false
       [⟨o.srcPa, loadBytes o.record, false⟩] [] = .ok t r) := by
  refine ⟨?_, ?_, ?_, ?_, ok_of_chkOk _ ?_⟩ <;> decide +kernel

theorem witness_PickDotProducts :
    (let o := running { op := 5, wfmt := 9, slots := 1, k := 16, kstride := 16, nout := 1 }
     (wfmtOf (recWfmt o.record)).isSome = true ∧ runningOp (picking [o]) 0 0 opPmv = some o) ∧
    (let o := running { op := 6, wfmt := 0, exact := true, slots := 1, k := 64, kstride := 64, nout := 1 }
     (wfmtOf (recWfmt o.record)).isSome = true ∧ runningOp (picking [o]) 0 0 opPmvk = some o) := by
  refine ⟨?_, ?_⟩ <;> decide +kernel

theorem alone (c : Col) (g : Nat) (down : Bool) (h : c.fenced = true) (hg : stackOf g = 0) :
    nextLive (alike (colsOf 0) c) g down = none := by
  unfold nextLive
  rw [List.findSome?_eq_none_iff]
  intro i _
  have key : ∀ q, q < 512 → pickLive (alike (colsOf 0) c) q = false := by
    intro q hq
    have : q ∈ colsOf 0 := List.mem_map.2 ⟨q, List.mem_range.2 hq, by omega⟩
    unfold pickLive
    rw [alike_col _ _ _ this, h]
    rfl
  have hlt : stackOf g * 512 + (if down then (pickOf g + 511 - i) % 512 else (pickOf g + 1 + i) % 512) < 512 := by
    rw [hg]
    split <;> omega
  simp only [key _ hlt]
  rfl

theorem witness_PickFolds :
    (let o := running { op := 7, fn := 0, nout := 1 }
     runningOp (picking [o]) 0 0 opPfold = some o ∧ recFn o.record ≤ 1 ∧ nextLive (picking [o]) 0 false = some 1) ∧
    (let o := running { op := 7, fn := 0, nout := 1 }
     let s := alike (colsOf 0) { mode := .pick, fenced := true, window := [o] }
     runningOp s 0 0 opPfold = some o ∧ nextLive s 0 (recDown o.record) = none) ∧
    (let o := running { op := 7, fn := 3, nout := 1 }
     let w : LinkWord := ⟨0, true, false, false, 0⟩
     let s := withCol { mode := .pick, window := [o], inbox := [w] }
     runningOp s 0 0 opPfold = some o ∧ 1 ≤ recFn o.record ∧ recFn o.record ≤ 3 ∧ o.started = some 0 ∧
     takeFold (recDown o.record) (s.col 0).inbox = some ([w], []) ∧ foldSum (s.col 0) o.record [w] ≠ .mismatch ∧
     foldSum (s.col 0) o.record [w, w] = .mismatch ∧ foldBehind (s.col 0) 0 o = false) ∧
    (let o := { running { op := 7, fn := 0, nout := 1 } with uid := 2 }
     let s := picking [running { op := 7, fn := 0, nout := 1 }, o]
     runningOp s 0 1 opPfold = some o ∧ foldBehind (s.col 0) 1 o = true) := by
  refine ⟨?_, ⟨by decide +kernel, alone _ 0 _ rfl rfl⟩, ?_, ?_⟩ <;> decide +kernel

theorem witness_PickDrainsAndFences :
    (let o := { running { op := 8, fn := 2, nout := 1 } with dstPa := 0xC00000_0000 }
     let s := { picking [o] with now := 17 }
     let ps := drainPieces ((claimWaitEnd s 0).col 0) o.record
     runningOp s 0 0 opPdrain = some o ∧ recFn o.record ≠ 1 ∧ o.started = some 0 ∧
     0 + (16 + ceilDiv (ps.map fun p => p.2.length).sum 8) ≤ s.now ∧
     (({ s with now := 16 } : State).now < 0 + (16 + ceilDiv (ps.map fun p => p.2.length).sum 8)) ∧
     ∃ t r, innerAccess (claimWaitEnd s 0) (pickReq 0 o) 0 (recDstVa o.record) true
       (ps.map fun p => ⟨o.dstPa + p.1, p.2.length, true⟩) (cleanBytes (ps.flatMap (·.2))) = .ok t r) ∧
    (let o := running { op := 8, fn := 1, nout := 1 }
     runningOp (picking [o]) 0 0 opPdrain = some o ∧ recFn o.record = 1) ∧
    (let o := running { op := 9 }
     runningOp (picking [o]) 0 0 opPfence = some o ∧ ∀ x ∈ ((picking [o]).col 0).window, x.uid ∉ o.waitsFor) ∧
    (let o := { running { op := 9 } with waitsFor := [7] }
     let s := picking [o, { running { op := 1 } with uid := 7 }]
     runningOp s 0 0 opPfence = some o ∧ ∃ x ∈ (s.col 0).window, x.uid ∈ o.waitsFor) ∧
    (let o := running { op := 7, fn := 1 }
     let s := { picking [o] with now := 8000000 }
     (s.col 0).window[0]? = some o ∧ o.started = some 0 ∧ o.done = false ∧ recOp o.record = opPfold ∧ recFn o.record ≠ 0 ∧
     o.lastData + 8000000 ≤ s.now) := by
  refine ⟨⟨?_, ?_, ?_, ?_, ?_, ok_of_chkOk _ ?_⟩, ?_, ?_, ⟨?_, { running { op := 1 } with uid := 7 }, ?_⟩, ?_⟩ <;> decide +kernel

/-! ## Witnesses: ordinary requests, refresh, links, scrubbing, repair -/

/-- Context 0 maps page 0 for reading and writing; the hub link of S0 is up. -/
def mapped : State :=
  { (withStack { linkUp := true }).setCtx 0 { enabled := true, xlateCount := 1 } with xlate := [(0, 0x81800000)] }

theorem witness_OrdinaryRequestsAreTranslatedAndServed :
    (4096 < (4097 : BitVec 13).toNat ∧ live.life.warm = none ∧ translate live 0 0 4096 false true = .fail stXlate) ∧
    (translate mapped 0 0xFFFFFF 1 true true = .pa 0xFFFFFF ∧ isDramPage (0xFFFFFF / 2 ^ 24) = true) ∧
    (∃ x, granulesOf mapped 0xFFFFE0 32 = [x] ∧ translate mapped 0 0xFFFFE0 32 false true = .pa 0xFFFFE0 ∧
      (mapped.col x.place.col).pathFailed = false ∧ claimHolders mapped x.place.col x.place.die x.place.row false = [] ∧
      (mapped.stack (stackOf x.place.col)).linkUp = true ∧ portBusy mapped x.place.col = false ∧
      colStalled mapped x.place.col = false ∧ (placesTaken mapped (stackOf x.place.col)).length < 512 ∧ mapped.waits = [] ∧
      (∀ z ∈ mapped.xfers, z.id ≠ mapped.reqNext) ∧ x.base = 0 ∧ x.len = 32) := by
  refine ⟨?_, ?_, (granulesOf mapped 0xFFFFE0 32).headD ⟨⟨0, 0, 0, 0⟩, 0, 0⟩, ?_⟩ <;> decide +kernel

/-- A granule that waits at column 0. -/
def waiting (hs : List Nat) : GranReq :=
  { seq := 1, xfer := 1, col := 0, die := 0, row := 0, off := 0, len := 32, wr := false, data := [], base := 0, holders := hs,
    behind := [], arrived := 0 }

theorem witness_ClaimWaitsAndRowSteps :
    (let s := { withStack { linkUp := true } with waits := [waiting [9]] }
     (s.waits.filter fun w => w.col == 0 && claimWaits w) = [waiting [9]] ∧ waitOver s (waiting [9]) = true) ∧
    (let s := { withStack { linkUp := true } { window := [{ uid := 9 }] } with waits := [waiting [9]], now := 8000000 }
     (∀ r ∈ s.waits, r.col = 0 → waitOver s r = false) ∧ (∀ r ∈ s.waits, r.held = true → stackOf r.col ≠ stackOf 0) ∧
     s.waits.find? (fun w => w.col == 0 && claimWaits w && decide (w.arrived + 8000000 ≤ s.now)) = some (waiting [9])) ∧
    (let x : Xfer := { id := 1, owner := .unit 0x80, ctx := 0, code := 0x80, va := 0, wr := false, left := 1, data := [] }
     let s := { withStack { linkUp := true } with waits := [waiting [9]], xfers := [x] }
     (s.waits.filter fun w => sameRequest w (waiting [9])) = [waiting [9]] ∧ s.xfers.find? (fun z => z.id == (waiting [9]).xfer) = some x ∧
     x.left = 1 ∧ x.status = stOk ∧ x.owner = .unit 0x80) ∧
    (let after (s : State) : State :=
       ((if insertionDue s 0 then insertOwed s 0 else s).col 0).trrOwed.foldl (fun t _ => targetedRefresh t 0)
         (if insertionDue s 0 then insertOwed s 0 else s)
     colStalled (after (withStack { linkUp := true })) 0 = false ∧
     colStalled (after (withStack { linkUp := true } { laneTraining := true })) 0 = true) ∧
    (let s := { withStack { linkUp := true } with waits := [waiting []] }
     (s.waits.filter fun r => r.col == 0 && !r.held && !claimWaits r) = waiting [] :: [] ∧
     (∀ r ∈ ({ s with waits := [waiting [9]] } : State).waits, r.col = 0 → r.held = true ∨ claimWaits r = true) ∧
     (pickGran [] [waiting []]).isSome = true) ∧
    ((waiting []).wr = false ∧ ({ waiting [] with wr := true } : GranReq).wr = true ∧ (waiting []).off % 32 = 0 ∧
     (waiting []).len % 32 = 0) := by
  refine ⟨?_, ?_, ?_, ?_, ?_, ?_⟩ <;> decide +kernel

theorem witness_RefreshKeepsTime :
    (let s := withCol { refStarted := true, refDue := 0, refK := 4094 }
     (s.col 0).refStarted = true ∧ (s.col 0).retired = false ∧ (s.col 0).refDue ≤ s.now ∧ busyDies (columnRate s 0) 0 = [] ∧
     tabWf ({} : Col) s.cols = true ∧ (s.col 0).refK ≠ 4095) ∧
    ((withCol { refStarted := true, refDue := 1 }).now < ((withCol { refStarted := true, refDue := 1 }).col 0).refDue) ∧
    insertionDue live 0 = false ∧
    (let o : Owed := ⟨0, 0, [3]⟩
     ((withCol { owed := [o] }).col 0).owed ≠ [] ∧ portBusy (withCol { owed := [o] }) 0 = false ∧
     8 ≤ ((withCol { owed := List.replicate 8 o }).col 0).owed.length) ∧
    (((withCol { trrOwed := [(15, 4095, false)] }).col 0).trrOwed = [(15, 4095, false)] ∧
     (busyDies (withCol { trrOwed := [(15, 4095, false)] }) 0).contains 15 = false) ∧
    (let o : PickOp := { uid := 1, record := mkRecord { op := 2 }, claims := [⟨0, 0, 1, true⟩], started := some 0 }
     (busyDies (withCol { mode := .pick, window := [o] }) 0).contains 0 = true) ∧
    ((withCol { trrOwed := [(0, 7, true)] }).col 0).trrOwed = [(0, 7, true)] := by
  refine ⟨?_, ?_, ?_, ?_, ?_, ?_, ?_⟩ <;> decide +kernel

theorem witness_CommandPathAlerts :
    (live.col 0).pathFailed = false ∧ (live.col 0).laneTraining = false ∧ (live.col 0).alerts = 0 ∧
    (let s := { withCol { alerts := 3 } with now := replayWindow }
     (s.col 0).alerts = 3 ∧ s.now ≤ (s.col 0).alertAt + replayWindow ∧ (s.col 0).laneTrained = false) ∧
    ((withCol { laneTraining := true }).col 0).laneTraining = true ∧
    (let s := withCol { alerts := 1, laneTrained := true }
     (s.col 0).alerts ≠ 0 ∧ s.now ≤ (s.col 0).alertAt + replayWindow ∧ (s.col 0).laneTrained = true) := by
  refine ⟨?_, ?_, ?_, ?_, ?_, ?_⟩ <;> decide +kernel

theorem witness_HubLinkFramesAndRecovery :
    (let p : List Byte := List.replicate 64 0x5A
     p.length = 64 ∧ crc32 ([0xFF, 1] ++ p) = crc32 ([0xFF, 1] ++ p) ∧ crc32 ([0, 1] ++ p) ≠ 0) ∧
    (let s := withStack { linkUp := true, seqDown := 0xFF, seqUp := 0xFF, replayDown := 3 }
     (s.stack 0).linkUp = true ∧ (s.stack 0).seqDown = 0xFF ∧ (s.stack 0).seqUp = 0xFF ∧ (s.stack 0).dropDown = false ∧
     (s.stack 0).replayDown < 4) ∧
    4 ≤ ((withStack { replayDown := 4 }).stack 0).replayDown ∧
    (let s := { withStack { linkRetrains := 1 } with waits := [waiting []], now := 8000000 }
     (s.stack 0).linkUp = false ∧ (s.stack 0).linkRetrains ≠ 0 ∧ (withStack { linkRetrains := 1 }).waits = [] ∧
     s.waits.find? (fun w => stackOf w.col == 0 && decide (max w.arrived (s.stack 0).linkDownAt + 8000000 ≤ s.now)) =
       some (waiting [])) := by
  refine ⟨?_, ?_, ?_, ?_⟩ <;> decide +kernel

/-- The location of a codeword: column 0, die 0, row 0, codeword 0. -/
def loc0 : W64 := 0

theorem witness_WriteBackAndScrub :
    (let s := withStack { linkUp := true, wbq := [loc0] } { refStarted := true }
     colIdle s 0 = true ∧ wbqHead s 0 = some loc0 ∧ rowClaimed s 0 (locDie loc0) (locRow loc0) = false ∧
     (let t := actRow (s.modStack 0 fun k => { k with wbq := k.wbq.filter fun x => x ≠ loc0 }) 0 (locDie loc0) (locRow loc0)
      cwState t 0 0 0 0 = .clean)) ∧
    (let s := { withStack { linkUp := true, wbq := [loc0] } { refStarted := true } with eccDiff := [(0, 1)] }
     let t := actRow (s.modStack 0 fun k => { k with wbq := k.wbq.filter fun x => x ≠ loc0 }) 0 (locDie loc0) (locRow loc0)
     ∃ p e, cwState t 0 0 0 0 = .fix p e) ∧
    (let s := withStack { linkUp := true } { refStarted := true, scrubDie := 14 }
     colIdle s 0 = true ∧ (s.stack 0).scrubEnable = true ∧ (s.col 0).refStarted = true ∧ (s.col 0).retired = false ∧
     wbqHead s 0 = none ∧ rowClaimed s 0 14 0 = false ∧ tabWf ({} : Col) s.cols = true ∧ (s.col 0).scrubDie < 15) ∧
    (let o : PickOp := { uid := 1, claims := [⟨0, 0, 1, false⟩] }
     let s := withStack { linkUp := true } { refStarted := true, window := [o] }
     rowClaimed s 0 0 0 = true) ∧
    ((withStack { scrubEnable := false }).stack 0).scrubEnable = false := by
  refine ⟨?_, ⟨3, 1, ?_⟩, ?_, ?_, ?_⟩ <;> decide +kernel

theorem witness_RemapRequests :
    (let l : W64 := word 64 [(31, 7), (26, 31), (22, 15)]
     Opens live live p0 (remapIdx 7) 0x42 ∧ bitsAt l 63 35 = 0 ∧ bitsAt l 33 31 = 7 ∧ bitAt l 34 = false ∧
     (live.col (locCol l)).retired = false ∧ (live.stack 7).remapJob = none ∧
     remapRoom live (locCol l) (locDie l) (locRow l) = true) ∧
    (bitsAt (1 <<< 35 : W64) 63 35 ≠ 0 ∧ bitsAt (word 64 [(31, 6)] : W64) 33 31 ≠ 7 ∧ bitAt (1 <<< 34 : W64) 34 = true) ∧
    ((withCol { retired := true }).col (locCol 0)).retired = true ∧
    ((withStack { remapJob := some { loc := 0, path := none, since := 0 } }).stack 0).remapJob.isSome = true ∧
    (∃ c : Col, remapRoom (withCol c) (locCol 0) (locDie 0) (locRow 0) = false) := by
  refine ⟨⟨rfl, ?_⟩, ?_, ?_, ?_, { sparesGone := (List.range 64).map fun i => (0, i) }, ?_⟩ <;> decide +kernel

theorem witness_RemapsProceed :
    (let j : RemapJob := { loc := 0, path := some p0, since := 0 }
     let s := { withStack { remapJob := some j } with now := 8000000 }
     (s.stack 0).remapJob = some j ∧ j.granted = none ∧ j.holders = [] ∧ j.behind = [] ∧ j.since + 8000000 ≤ s.now) ∧
    (let j : RemapJob := { loc := 0, path := some p0, since := 0, granted := some 1 }
     let s := { withStack { remapJob := some j } with now := 201 }
     (s.stack 0).remapJob = some j ∧ j.granted = some 1 ∧ 1 + 200 ≤ s.now ∧ ({ s with now := 200 } : State).now < 1 + 200) ∧
    (let c : Col := { remaps := [⟨0, 5, 1⟩] }
     ∀ r ∈ c.remaps, ¬ (r.die = 0 ∧ r.row = 6)) ∧
    Opens live live p0 (remapIdx 7) 1 ∧ (511 : W16).toNat ≤ 511 ∧ 511 < (512 : W16).toNat := by
  refine ⟨?_, ?_, ?_, rfl, ?_, ?_⟩ <;> decide +kernel

/-! ## Witnesses: the faces -/

def task0 : FaceTask := { q := 0, seq := 1, ctx := 0 }
/-- Face F00 runs a program. -/
def tasked (prog : List (BitVec 256)) (t : FaceTask) (c : Face := {}) : State :=
  withFace { c with logical := some 0, program := prog, task := some t }
/-- A control descriptor: code, cond, xa, xd, imm. -/
def ctl (opc cond xa xd imm : Nat) : BitVec 256 := word 256 [(0, opc), (64, cond), (72, xa), (76, xd), (32, imm)]

theorem turn_tasked (d : BitVec 256) (h : descSerial d = false) : Turn (tasked [d] task0) 0 task0 d (descOpc d) := by
  refine ⟨rfl, rfl, rfl, rfl, fun e => ?_⟩
  rw [h] at e
  exact nomatch e

theorem witness_SetxAndSetvlFollowTheirRule :
    (let d := ctl 2 2 15 15 31
     let s := tasked [d] task0 { xregs := [(15, 3)] }
     tabWf ({} : Face) s.faces = true ∧ tabWf (0 : W32) (s.face 0).xregs = true ∧ descOpc d = 2 ∧ issuing task0 s.now = true ∧
     xFree task0 (ctlXa d) = true ∧ xFree task0 (ctlXd d) = true ∧ ctlCond d = 2) ∧
    (ctlCond (ctl 2 0 0 0 0) = 0 ∧ ctlCond (ctl 2 1 0 0 0) = 1) ∧
    Turn (tasked [ctl 3 0 0 0 64] task0) 0 task0 (ctl 3 0 0 0 64) 3 ∧
    (1 ≤ (0 + ctlImm (ctl 3 0 0 0 64)).toNat ∧ (0 + ctlImm (ctl 3 0 0 0 64)).toNat ≤ 64) ∧
    64 < (0 + ctlImm (ctl 3 0 0 0 65)).toNat ∧ (0 + ctlImm (ctl 3 0 0 0 0)).toNat = 0 ∧ task0.ops = [] := by
  refine ⟨?_, ?_, turn_tasked _ rfl, ?_, ?_, ?_, rfl⟩ <;> decide +kernel

theorem witness_LoopsBranchesAndTallies :
    Turn (tasked [ctl 4 1 0 5 65] task0) 0 task0 (ctl 4 1 0 5 65) 4 ∧ ctlCond (ctl 4 1 0 5 65) ≤ 1 ∧
    (xreg ([] : Tab W32) (ctlXa (ctl 4 1 0 5 0)) + ctlImm (ctl 4 1 0 5 0)).toNat = 0 ∧
    (let l : LoopFrame := { start := 1, left := 2, iter := 0, strip := true, elems := 65, xd := 5 }
     let t := { task0 with loops := [l] }
     Turn (tasked [ctl 5 0 0 0 0] t) 0 t (ctl 5 0 0 0 0) 5 ∧ t.loops = [l] ∧ 1 < l.left ∧ xFree t l.xd = true) ∧
    (let d := ctl 6 8 3 0 0
     Turn (tasked [d] task0) 0 task0 d 6 ∧ brTarget 1 0 d = some 0 ∧ xFree task0 (ctlXa d) = true ∧ mFree task0 (ctlMk d) = true) ∧
    (let s := (tasked [ctl 6 8 0 0 0] task0).setCtx 0 { enabled := true, tallyBase := 7 }
     tallyOf s 0 (.virt (ctlVtally (ctl 6 8 0 0 0))) = some 7 ∧ (ctlImm (ctl 6 8 0 0 0)).toNat ≤ (s.cell 7).value.toNat) ∧
    (let o : EngOp := { uid := 1, desc := word 768 [(0, 0x21), (48, 3)], index := 0, xs := [], vl := 64 }
     ∃ x, xFree { task0 with ops := [o] } x = false) ∧
    Turn (tasked [ctl 8 2 0 0 0] task0) 0 task0 (ctl 8 2 0 0 0) 8 ∧ ctlCond (ctl 8 2 0 0 0) ≤ 2 := by
  refine ⟨turn_tasked _ rfl, ?_, ?_, ⟨⟨rfl, rfl, rfl, rfl, ?_⟩, rfl, ?_, ?_⟩, ⟨turn_tasked _ rfl, ?_⟩, ?_, ⟨?_, ?_⟩, turn_tasked _ rfl, ?_⟩
  all_goals try decide +kernel
  · exact 3
  · decide +kernel

theorem witness_TasksWaitFenceAndComplete :
    Turn (tasked [ctl 9 0 0 0 0] task0) 0 task0 (ctl 9 0 0 0 0) 9 ∧ task0.ops = [] ∧
    Turn (tasked [ctl 1 0 0 0 0] task0) 0 task0 (ctl 1 0 0 0 0) 1 ∧
    (let t := { task0 with ending := true }
     ((tasked [] t).face 0).task = some t ∧ t.wait = .none ∧ t.fail = none ∧ t.seqAt ≤ (tasked [] t).now) ∧
    (let t := { task0 with fail := some (1, 4, 9) }
     ((tasked [] t).face 0).task = some t ∧ t.fail = some (1, 4, 9)) ∧
    Turn (tasked [ctl 7 1 0 0 5] task0) 0 task0 (ctl 7 1 0 0 5) 7 ∧
    ((innerWatch (tasked [ctl 7 0 0 0 0] task0) (.face 0) 0 0 0 false).2 = .fired ∧
     (innerWatch (tasked [ctl 7 0 0 0 0] task0) (.face 0) 0 0 5 false).2 = .armed ∧
     (innerWatch (tasked [ctl 7 0 0 0 0] task0) (.face 0) 0 1 5 false).2 = .fail stTallyRange) ∧
    (let d := word 256 [(0, 7), (96, 65535)]
     let t := { task0 with wait := .watching 0 }
     let s := { tasked [d] t with now := 65535 * 800 }
     (s.face 0).task = some t ∧ current (s.face 0) t = d ∧ descOpc d = 7 ∧ t.wait = .watching 0 ∧ ctlTmo d ≠ 0 ∧
     0 + ctlTmo d * 800 ≤ s.now) := by
  refine ⟨turn_tasked _ rfl, rfl, turn_tasked _ rfl, ?_, ?_, turn_tasked _ rfl, ?_, ?_⟩ <;> decide +kernel

/-- A task held for logical face 0. -/
def req0 : TaskReq := { q := 0, seq := 1, face := 0, ctx := 0, progVa := 0, ndesc := 1, args := [1, 2, 3, 4, 5, 6, 7, 8], reload := false }
/-- Context 0 may use the SRAM of face 0, whose foreman holds a task. -/
def startable (r : TaskReq) : State :=
  { (withFace { logical := some 0, program := [ctl 1 0 0 0 0] }).setCtx 0 { enabled := true, xlateCount := 1 } with
    xlate := [(0, 0x8580C000)], clusters := [(0, { tasks := [r] })] }

theorem witness_TasksStart :
    (let s := startable req0
     let c := s.face 0
     c.logical = some 0 ∧ c.task = none ∧ c.fenced = false ∧ c.resetting = false ∧ domainOn s 11 = true ∧ heldTask s 0 = some req0 ∧
     sramRight s 0 0xC000 = true ∧ req0.reload = false ∧ c.progVa = req0.progVa ∧ c.program.length = req0.ndesc ∧
     badDescriptor c.program = none ∧ req0.args.length = 8) ∧
    (let s := { startable req0 with xlate := [] }
     heldTask s 0 = some req0 ∧ sramRight s 0 0xC000 = false) ∧
    (let r := { req0 with ndesc := 513 }
     heldTask (startable r) 0 = some r ∧ 512 < r.ndesc) := by decide +kernel

/-- A face with one engine operation. -/
def engine (o : EngOp) : State := tasked [] { task0 with ops := [o] }
/-- An engine operation of a descriptor. -/
def eng (fs : List (Nat × Nat)) : EngOp := { uid := 1, desc := word 768 fs, index := 0, xs := [], vl := 64, started := some 0 }

theorem witness_EngineOperationsStartAndEnd :
    (let o := { eng [(0, 0x21), (100, 1)] with started := none }
     entered (engine o) 0 = engine o ∧ engReady (engine o) 0 { task0 with ops := [o] } o = true ∧ descOpc o.desc ≠ 0x30) ∧
    (∃ o : EngOp, o.started = none ∧ engCheck o = stOk ∧ descOpc o.desc ≠ 0x30) ∧
    (∃ o : EngOp, o.started = none ∧ engCheck o ≠ stOk ∧ descOpc o.desc ≠ 0x30) ∧
    (let o := { eng [(0, 0x10)] with started := none, uid := 2 }
     engReady (tasked [] { task0 with ops := [eng [(0, 0x10)], o] }) 0 { task0 with ops := [eng [(0, 0x10)], o] } o = false) ∧
    (let o := { eng [(0, 0x10)] with done := true, cost := 17 }
     let s := { engine o with now := 17 }
     entered s 0 = s ∧ o.done = true ∧ engDue s 0 o = true ∧ (s.face 0).gated = false ∧ o.xout = none ∧ descOpc o.desc ≠ 0x30 ∧
     tabWf ({} : Face) s.faces = true ∧ ∀ t0, (s.face 0).task = some t0 → t0.ops.length ≤ 16) ∧
    (((withFace { gated := true }).face 0).gated = true ∧
     (let s := { withFace { floorRate := true } with now := 1 }
      (s.face 0).floorRate = true ∧ s.now % 4 ≠ 0) ∧
     (let s := { live with canary := { live.canary with thrState := thrEnforced, thrK := 2 }, now := 1023 }
      dutyOpen (dutyOf s 8) s.now = false)) := by
  refine ⟨?_, ⟨{ eng [(0, 0x21)] with started := none }, ?_⟩, ⟨{ eng [(0, 0x10)] with started := none }, ?_⟩, ?_, ?_, ?_⟩
  · exact ⟨rfl, by decide +kernel⟩
  · decide +kernel
  · decide +kernel
  · decide +kernel
  · refine ⟨rfl, ?_, ?_, ?_, ?_, ?_, ?_, fun t0 h => ?_⟩
    all_goals try decide +kernel
    cases h
    decide
  · decide +kernel

/-! ## Witnesses: engines, hoists, passes -/

theorem witness_EnginesComputeTheirResults :
    (let o := eng [(0, 0x10), (36, 1), (32, 2), (40, 64), (48, 64), (64, 1)]
     Runs (engine o) 0 0 { task0 with ops := [o] } o 0x10 ∧ mmaCheck o = stOk ∧ tabWf ({} : Face) (engine o).faces = true ∧
     (engine o).sramErr = [] ∧ tabWf (0 : W32) ((engine o).face 0).accs = true) ∧
    (let g : BitVec 32 := word 32 [(27, 1), (19, 4), (12, 1)]
     let o := eng [(0, 0x20), (32, 1), (48, 1), (64, 1), (123, 1), (124, 4), (256, 2), (315, 1), (316, 4), (384, 7), (512, g.toNat)]
     Runs (engine o) 0 0 { task0 with ops := [o] } o 0x20 ∧ chStages o.desc = [stageOf g] ∧ chNstage o.desc = 1 ∧ chBeats o.desc = 1 ∧
     chSink o.desc = 0 ∧ chExp0 o.desc = false ∧ chMin o.desc = false ∧ chMout o.desc = false ∧ (stageOf g).sop = 1 ∧
     (stageOf g).sa = 0 ∧ (stageOf g).sb = 4 ∧ (stageOf g).na = false ∧ (stageOf g).int = true ∧ (chIn o.desc 0).reg = true ∧
     (chIn o.desc 0).fmt = 4 ∧ (chOut o.desc).reg = true ∧ (chOut o.desc).fmt = 4 ∧ o.vl ≤ 64 ∧
     tabWf (0 : W32) ((engine o).face 0).vregs = true) ∧
    (let o := eng [(0, 0x21), (52, 1), (56, 1)]
     Runs (engine o) 0 0 { task0 with ops := [o] } o 0x21 ∧ hrFn o.desc = 1 ∧ hrInt o.desc = true ∧ hrXd o.desc = 0 ∧ 1 ≤ o.vl ∧
     o.vl ≤ 64) := by
  refine ⟨⟨⟨rfl, rfl, rfl, rfl, ?_⟩, ?_⟩, ⟨⟨rfl, rfl, rfl, rfl, ?_⟩, ?_⟩, ⟨⟨rfl, rfl, rfl, rfl, ?_⟩, ?_⟩⟩ <;> decide +kernel

theorem witness_EnginesStoreTheirResults :
    (∃ o : EngOp, o.started.isSome = true ∧ descOpc o.desc = 0x11 ∧ mxvCheck o = stOk ∧ mxM o = 1 ∧ mxvScaleBytes o = 0) ∧
    (let o := eng [(0, 0x12), (32, 1), (40, 1), (48, 64)]
     Runs (engine o) 0 0 { task0 with ops := [o] } o 0x12 ∧ (faceFmt (mxBfmt o)).isSome = true ∧ mxM o = 1) ∧
    (let o := eng [(0, 0x22), (112, 1), (144, 1)]
     Runs (engine o) 0 0 { task0 with ops := [o] } o 0x22) ∧
    (let s := withFace { writeBacks := [3, 4] }
     (s.face 0).writeBacks = 3 :: [4] ∧ tget 0 ([(3, 1)] : Tab Nat) 3 = 1 ∧ tget 0 ([(3, 2)] : Tab Nat) 3 ≠ 1) := by
  refine ⟨⟨eng [(0, 0x11), (36, 1), (32, 1), (40, 1), (48, 1), (64, 32)], ?_⟩, ⟨⟨rfl, rfl, rfl, rfl, ?_⟩, ?_⟩, ⟨rfl, rfl, rfl, rfl, ?_⟩, ?_⟩ <;>
    decide +kernel

/-- A hoist that has started. -/
def hoisting (fs : List (Nat × Nat)) (r : HoistRun) : EngOp := { eng ((0, 0x30) :: fs) with hoist := some r }

/-- A layout of 16 blocks at a base, four by four: bf16, or code n. -/
def blocks16 (base : Nat) (code : Nat := 1) : BitVec 512 := word 512 [(0, base), (40, code), (50, 2), (64, 4), (96, 4), (224, 1), (256, 4)]
/-- A transfer between two such layouts in the SRAM of face 0, with its list. -/
def run16 (list : List (List Nat) := []) : HoistRun :=
  { srcLd := blocks16 0, dstLd := blocks16 4096, total := 16, pages := [⟨0, 0xC000⟩], list := list }

/-- A hoist descriptor on hoist 0 in face 0 runs a transfer between two places in the SRAM of that face. -/
def Moves (o : EngOp) (r : HoistRun) (x y : Nat) : Prop :=
  runningHoist (engine o) 0 0 = some ({ task0 with ops := [o] }, o, r) ∧ memWf (engine o).mem = true ∧ (engine o).sramErr = [] ∧
    (engine o).xfers = [] ∧ r.mode = 0 ∧ hoBcast o.desc = false ∧ InSram (engine o) r y (blockLen r.dstLd) 0 y ∧
    InSram (engine o) r x (blockLen r.dstLd) 0 x

theorem witness_HoistsMoveBlocksAndEnd :
    (let r := run16
     let o := hoisting [] r
     Moves o r 0 4096 ∧ hoKind o.desc = 0 ∧ hoXpose o.desc = false ∧ hoFused o.desc = false ∧ blockLen r.srcLd = blockLen r.dstLd ∧
       moveOf o.desc r r.moved = ⟨[0], [4096], true, 0⟩ ∧ isCopy o.desc = true) ∧
    (let r := run16 [[2]]
     let o := hoisting [(12, 1), (72, 1)] r
     Moves o r 512 4096 ∧ hoKind o.desc = 1 ∧ moveOf o.desc r r.moved = ⟨[512], [4096], true, 0⟩ ∧ isCopy o.desc = false) ∧
    (let r := run16 [[2]]
     let o := hoisting [(12, 2), (72, 1)] r
     Moves o r 0 4608 ∧ hoKind o.desc = 2 ∧ moveOf o.desc r r.moved = ⟨[0], [4608], true, 0⟩) ∧
    (let r := run16 [[2], [3]]
     let o := hoisting [(12, 3), (72, 1)] r
     Moves o r 0 4608 ∧ hoKind o.desc = 3 ∧ moveOf o.desc r r.moved = ⟨[0], [4608], true, 0⟩ ∧ ldEtype r.dstLd ≤ 6 ∧
       isRepeat r (r.moved / unitBlocks o.desc r) = false ∧ isRepeat r (r.moved / unitBlocks o.desc r + 1) = false ∧ r.held = [] ∧
       r.dropped = []) ∧
    (let r := run16
     let o := hoisting [(68, 1)] r
     Moves o r 4096 4096 ∧ hoKind o.desc = 0 ∧ hoFused o.desc = true ∧ (faceFmt (ldEtype r.dstLd)).isSome = true ∧
       moveOf o.desc r r.moved = ⟨[], [4096], true, 0⟩ ∧ tabWf ({} : Face) (engine o).faces = true) ∧
    (let r := { run16 with total := 1 }
     let o := hoisting [(67, 1), (248, 1)] r
     runningHoist (engine o) 0 0 = some ({ task0 with ops := [o] }, o, r) ∧ hoBcast o.desc = true ∧ setBits (hoStacks o.desc) = [0] ∧
       blockAddr r.srcLd r.sx (radix (ldExtents r.srcLd) 0) = 0 ∧ ldEtype r.srcLd ≤ 6 ∧ InSram (engine o) r 0 (blockLen r.srcLd) 0 0 ∧
       tabWf ({} : Stack) (engine o).stackTbl = true) ∧
    ldTile (blocks16 0) = 0 ∧
    (let o := { hoisting [] { total := 1 } with done := true, cost := 9 }
     let s := { engine o with now := 9 }
     entered s 0 = s ∧ descOpc o.desc = 0x30 ∧ hoHid o.desc = 0 ∧ o.started.isSome = true ∧ o.done = true ∧ engDue s 0 o = true ∧
     (s.face 0).gated = false ∧ o.xout = none) := by
  unfold Moves InSram
  refine ⟨?_, ?_, ?_, ?_, ?_, ?_, ?_, rfl, ?_⟩ <;> decide +kernel

def stepOf (d : BitVec 512) (o : StepOp) : StepRun :=
  { slot := 0, index := 0, ctx := 0, started := 0, prog := [d], head := 0, headAt := 0, ops := [o] }
/-- Queue Q00 with a step whose one operation is dispatched. -/
def stepping (d : BitVec 512) : State := withQueue { enable := true, step := some (stepOf d { seq := 1, index := 0 }) }
/-- An operation of a step: its code and fields. -/
def sop (op : Nat) (fs : List (Nat × Nat)) : BitVec 512 := word 512 ((0, op) :: fs)

/-- A lode of one row of 16 bf16 elements at pick 0: its descriptor at offset 0 of face 0's SRAM, its map at 64. -/
def lodeState : State :=
  let d : BitVec 512 := word 512 [(4, 8), (8, 1), (18, 1), (64, 1), (96, 16), (128, 16), (160, 16), (192, 1), (224, 1), (256, 64)]
  let s : State := { (stepping (sop 0x11 [(288, 1)])).setCtx 0 { enabled := true, xlateCount := 1 } with
    xlate := [(0, 0x8180C000)], faces := [(0, { logical := some 0 })], cols := [(0, { mode := .pick })] }
  (s.wrBytes (sramKey 0 0) (leBytes 64 d.toNat)).wrBytes (sramKey 0 64) (leBytes 8 (2 ^ 63))

theorem witness_PassesStart :
    (let d := sop 0x11 [(288, 1)]
     nextStepOp (stepping d) 0 0x11 = some (stepOf d { seq := 1, index := 0 }, { seq := 1, index := 0 }, d) ∧
     passTurn (stepping d) 0 = true ∧ passTurn (stepping d) 1 = false ∧ bitAt d 303 = false) ∧
    (∃ u pl, lodePlan lodeState { seq := 1, index := 0 } 0 0 (lodeParams (sop 0x11 [(288, 1)]) 1) = .ok u pl) ∧
    (∃ u, lodePlan (stepping (sop 0x11 [])) { seq := 1, index := 0 } 0 0 (lodeParams (sop 0x11 [(288, 1)]) 1) = .fail stXlate u) ∧
    (let d := sop 0x11 [(303, 1)]
     ∃ u m, lodeMask { lodeState with queues := (stepping d).queues } (stepOf d { seq := 1, index := 0 }) { seq := 1, index := 0 } d =
       .ok u m) ∧
    nextStepOp (stepping (sop 0x12 [])) 0 0x12 =
      some (stepOf (sop 0x12 []) { seq := 1, index := 0 }, { seq := 1, index := 0 }, sop 0x12 []) ∧
    (∀ k, ∃ u, cachePlan (stepping (sop 0x12 [])) { seq := 1, index := 0 } 0 0 k (cacheParams (sop 0x12 [(288, 1)])) = .fail stXlate u) ∧
    nextStepOp (stepping (sop 0x13 [])) 0 0x13 =
      some (stepOf (sop 0x13 []) { seq := 1, index := 0 }, { seq := 1, index := 0 }, sop 0x13 []) ∧
    nextStepOp (stepping (sop 0x14 [])) 0 0x14 =
      some (stepOf (sop 0x14 []) { seq := 1, index := 0 }, { seq := 1, index := 0 }, sop 0x14 []) ∧
    licensed live 1 = false ∧ licensed { live with geo := { live.geo with features := 2 } } 1 = true := by
  refine ⟨?_, ok_of_chkOk _ ?_, fail_of_chkFails _ _ ?_, ok_of_chkOk _ ?_, ?_, fun k => fail_of_chkFails _ _ ?_, ?_, ?_, ?_, ?_⟩
  all_goals try decide +kernel
  cases k <;> decide +kernel

theorem witness_SegmentsAreDelivered :
    ((live.stack 0).segments.find? (fun x => x.lane == (7 : BitVec 3).toNat && x.window == (511 : BitVec 9).toNat && segReady live 0 x) =
      none) ∧
    (let g : Segment := { lane := 7, window := 511, data := [], pass := some 1 }
     let s := withStack { linkUp := true, segments := [g] }
     (s.stack 0).segments.find? (fun x => x.lane == (7 : BitVec 3).toNat && x.window == (511 : BitVec 9).toNat && segReady s 0 x) =
       some g ∧ (s.stack 0).linkUp = true ∧ g.pass.isSome = true) ∧
    ((running { op := 4 }).started.isSome = true ∧ ({ uid := 1 } : PickOp).started = none) ∧
    (let o := hoisting [(67, 1), (248, 1)] { total := 1, moved := 1, pendingStacks := [0] }
     let g : Segment := { lane := 0, window := 0, data := [], face := 0, hid := 0 }
     let s := { engine o with stackTbl := [(0, { segments := [g] })], now := 8000000 }
     (openHoist s 0 0).isSome = true ∧ hoBcast o.desc = true ∧ setBits (hoStacks o.desc) = [0] ∧ g ∈ (s.stack 0).segments ∧
     g.pass = none ∧ g.sent + 8000000 ≤ s.now) := by decide +kernel

/-- A pass with one hub row. -/
def pass0 (exact : Bool) (x : Option Reduction) : Pass :=
  { id := 1, q := 0, seq := 1, kind := .lode, ctx := 0, req := 1, exact := exact, ofmt := 0, smask := 1, cluster := 0, nRows := 1,
    outVa := 0, partVa := 0, hubRows := [⟨0, 1, 0⟩], red := x }

/-- An output of a reduction, in the SRAM of face 0. -/
def out0 : RedOut := ⟨64, [1, 2, 3, 4], 0⟩

theorem witness_ReductionsAndPassCompletion :
    (let s (y : Reduction) : State := { startable req0 with passes := [pass0 false (some y)] }
     ((s {}).face 0).logical = some 0 ∧ faceLive (s {}) 0 = true ∧
     (∀ y, (s y).passes.find? (fun p => p.q == 0 && toReduce false p && p.cluster == clusterOf 0) = some (pass0 false (some y))) ∧
     (passFillers (pass0 false none)).length ≤ 0 ∧ (passItems (pass0 false none)).length = 1 ∧
     ∃ t st, storeRange (s { endAt := some 0, outs := [out0] }) ⟨.pass 1, codeFace 0, 0, 0⟩ 0 out0.va (cleanBytes out0.bytes) = .ok t st) ∧
    (live.face 51).logical = none ∧
    (let d := sop 0x14 [(208, 1), (224, 4096)]
     let j (y : Option Reduction) : CollarJob := { order := 0, q := 0, seq := 1, red := y }
     let s (y : Option Reduction) : State := { startable req0 with queues := (stepping d).queues, collar := [j y] }
     (s none).collarFree ≤ (s none).now ∧ (s none).passes = [] ∧
     (∀ y, collarOp (s y) (j y) = some (stepOf d { seq := 1, index := 0 }, { seq := 1, index := 0 }, d)) ∧
     bitsAt d 223 208 = 1 ∧ 1 ≤ bitsAt d 239 224 ∧ bitsAt d 239 224 ≤ 4096 ∧
     bitsAt (sop 0x14 []) 223 208 = 0 ∧
     ∃ t st, storeRange (s (some { endAt := some 0, outs := [out0] })) ⟨opWaiter { seq := 1, index := 0 }, codeCollar, 0, 0⟩ 0 out0.va
       (cleanBytes out0.bytes) = .ok t st) ∧
    (toReduce true (pass0 true none) = true ∧ passReduced live (pass0 true none) = none ∧ (pass0 true none).order < 1) ∧
    (let p : Pass := { pass0 true none with hubRows := [], ops := [{ idx := 0, col := 3, group := 0, row0 := 0, rows := 1, done := true }] }
     passOpsDone p = true ∧ passReduced live p = some stOk ∧ ∀ x ∈ p.ops, x.status = stOk) ∧
    (∀ n < 8, (live.stack n).segments = []) := by
  refine ⟨⟨?_, ?_, fun _ => rfl, ?_, ?_, ok_of_chkOk _ ?_⟩, ?_, ⟨?_, ?_, fun _ => rfl, ?_, ?_, ?_, ?_, ok_of_chkOk _ ?_⟩, ?_, ?_, ?_⟩ <;>
    decide +kernel

/-! ## Witnesses: queues, steps, windows -/

/-- The first 126 bytes of a slot that the checks of R224 pass, and the slot: phase 1, sequence number 0, one operation, its CRC. -/
def slotHead : List Byte := [1, 0, 0, 0, 1] ++ List.replicate 121 0
def slotBytes0 : List Byte := slotHead ++ [0xFA, 0x7D]

/-- One byte of the CRC. -/
def crcStep (c : W16) (b : Byte) : W16 :=
  (List.range 8).foldl (fun (c : W16) (_ : Nat) => if c.getLsbD 15 then (c <<< 1) ^^^ 0x1021 else c <<< 1)
    (c ^^^ BitVec.ofNat 16 (b.toNat * 256))

theorem crc_slot0 : crc16 slotHead = 0x7DFA := by
  have e : ∀ bs, crc16 bs = bs.foldl crcStep 0xFFFF := fun _ => rfl
  have h : slotHead = [1, 0, 0, 0, 1] ++ (List.replicate 25 0 ++ (List.replicate 25 0 ++ (List.replicate 25 0 ++
    (List.replicate 25 0 ++ List.replicate 21 0)))) := by decide +kernel
  have h0 : ([1, 0, 0, 0, 1] : List Byte).foldl crcStep 0xFFFF = 0xAB7C := by decide +kernel
  have h1 : (List.replicate 25 (0 : Byte)).foldl crcStep 0xAB7C = 0x8F3B := by decide +kernel
  have h2 : (List.replicate 25 (0 : Byte)).foldl crcStep 0x8F3B = 0x2A26 := by decide +kernel
  have h3 : (List.replicate 25 (0 : Byte)).foldl crcStep 0x2A26 = 0x83AE := by decide +kernel
  have h4 : (List.replicate 25 (0 : Byte)).foldl crcStep 0x83AE = 0xA8B3 := by decide +kernel
  have h5 : (List.replicate 21 (0 : Byte)).foldl crcStep 0xA8B3 = 0x7DFA := by decide +kernel
  rw [e, h]
  simp only [List.foldl_append, h0, h1, h2, h3, h4, h5]

theorem witness_slotGood : slotGood { enable := true, depth := 16 } slotBytes0 = true := by
  have h : slotBytes0.take 126 = slotHead := by decide +kernel
  unfold slotGood
  rw [h, crc_slot0]
  decide +kernel

theorem witness_DoorbellsNameSlots :
    (({ live with life := State.reset.life } : State).life.opened = false) ∧
    (live.life.opened = true ∧ (1 : BitVec 6) ≠ 0 ∧ ([0, 0, 0] : List Byte).length ≠ 4) ∧
    (let s := { live with life := { live.life with compute := some 0 } }
     computeBusy s = true ∧ s.life.opened = true) ∧
    ((live.queue 0).enable = false ∧ computeBusy live = false) ∧
    (let s := withQueue { enable := true, depth := 16 }
     (s.queue 0).enable = true ∧ (s.queue 0).depth.toNat ≤ leNat ([16, 0, 0, 0] : List Byte) % 512 ∧
     leNat ([0, 0, 0, 0] : List Byte) % 512 = (s.queue 0).head ∧ (s.queue 0).head < (s.queue 0).depth.toNat ∧
     2 ≤ (s.queue 0).depth.toNat ∧ (s.queue 0).stalled = false ∧ tabWf ({} : Queue) s.queues = true ∧ (s.queue 0).stale = none ∧
     slotGood (s.queue 0) (slotBytes s 0 0) = false ∧
     ((withQueue { enable := true, depth := 16, stale := some (0, 0) }).queue 0).stale.isSome = true) ∧
    (let s := (withQueue { enable := true, depth := 16 }).wrBytes (queueKey 0) slotBytes0
     s.queue 0 = { enable := true, depth := 16 } ∧ slotBytes s 0 0 = slotBytes0 ∧
     acceptCheck (BitVec.ofNat 1024 (leNat slotBytes0)) = none) ∧
    (let s := { withQueue { enable := true, stale := some (0, 0), target := some 0 } with now := 51200 }
     (s.queue 0).stale = some (0, 0) ∧ (s.queue 0).enable = true ∧ (s.queue 0).stalled = false ∧ computeBusy s = false ∧
     tabWf ({} : Queue) s.queues = true ∧ (s.queue 0).target = some (s.queue 0).head ∧ (s.queue 0).head < (s.queue 0).depth.toNat ∧
     2 ≤ (s.queue 0).depth.toNat ∧ 0 + 800 ≤ s.now ∧ 0 + (s.queue 0).staleLimit.toNat * 800 ≤ s.now ∧
     slotGood (s.queue 0) (slotBytes s 0 0) = false) := by
  refine ⟨?_, ?_, ?_, ?_, ?_, ?_, ?_⟩ <;> decide +kernel

theorem witness_QueueControl :
    Opens live live p0 (queueIdx 0) 2 ∧ (live.queue 0).enable = false ∧ (live.queue 0).step = none ∧
    (let s := withQueue { enable := true, stalled := true }
     Opens s s p0 (queueIdx 0) 2 ∧ Opens s s p0 (queueIdx 0) 5 ∧ (s.queue 0).enable = true ∧ (s.queue 0).stalled = true) ∧
    (let s := stepping 0
     Opens s s p0 (queueIdx 0) 5 ∧ (s.queue 0).step.isSome = true ∧ (stepOf 0 { seq := 1, index := 0 }).ended = none ∧
     (stepOf 0 { seq := 1, index := 0 }).fail = none) ∧ 1 < (2 : Byte).toNat := by
  refine ⟨rfl, ?_, ?_, ⟨rfl, rfl, ?_⟩, ⟨rfl, ?_⟩, ?_⟩ <;> decide +kernel

/-- A step with nothing dispatched, at its head. -/
def idleStep (d : BitVec 512) : StepRun := { stepOf d { seq := 1, index := 0 } with ops := [] }
/-- Queue Q00 runs it. -/
def heading (d : BitVec 512) : State := withQueue { enable := true, step := some (idleStep d) }

theorem atHead_heading (d : BitVec 512) (op : Nat) (h : (hdrOp d == op && headReady (heading d) (idleStep d)) = true) :
    AtHead (heading d) 0 (idleStep d) d op :=
  ⟨rfl, rfl, beq_iff_eq.1 ((Bool.and_eq_true_iff.1 h).1), (Bool.and_eq_true_iff.1 h).2, .inl rfl⟩

set_option maxRecDepth 8000 in
theorem witness_StepsRun :
    (let s := withQueue { enable := true, accepted := [{ slot := 1, index := 0, stamp := 0 }] }
     (List.range 64).foldl loadStep s = s ∧ stepsMayStart s = true ∧ stepsActive s < 8 ∧ nextStart s false = some 0) ∧
    ((List.range 64).foldl loadStep State.reset = State.reset ∧ stepsMayStart State.reset = false) ∧
    (let s := heading (sop 0x14 [])
     headsSettled s = s ∧
     nextDispatch s = some 0) ∧
    (headsSettled live = live ∧ ∀ n < 64, dispatchable live n = false) ∧
    (let o : StepOp := { seq := 1, index := 0, done := true }
     let x := stepOf (sop 0x14 []) o
     x.ops.find? (fun o => o.done) = some o ∧ hdrSig (stepDesc x o.index) = false ∧ o.status = stOk) ∧
    (let d := sop 0x14 [(9, 1)]
     let s := { withQueue { enable := true, waitLimit := 65535, step := some (idleStep d) } with now := 65535 * 800000 }
     let x := idleStep d
     (s.queue 0).step = some x ∧ x.wait = .idle ∧ stepRuns x = true ∧ hdrWait (headDesc x) = true ∧ (s.queue 0).waitLimit ≠ 0 ∧
     x.headAt + (s.queue 0).waitLimit.toNat * 800000 ≤ s.now) ∧
    (let x := { idleStep 0 with ended := some [] }
     x.ops = [] ∧ x.fail = none ∧ x.ended = some []) ∧
    (let d := sop 0x10 [(180, 1)]
     nextStepOp (stepping d) 0 0x10 = some (stepOf d { seq := 1, index := 0 }, { seq := 1, index := 0 }, d)) ∧
    (∃ d : BitVec 512, taskTarget d = 1 ∧ taskFace d < 48) ∧ (∃ d : BitVec 512, taskTarget d = 1 ∧ 48 ≤ taskFace d) ∧
    faceLive (withFace { logical := some 0 }) 0 = true ∧ faceLive live 0 = false ∧
    (let s := withFace { logical := some 0 }
     gangFaces live 0 = [] ∧ gangFaces s 0 = [0] ∧ taskTarget (0 : BitVec 512) = 0 ∧ taskCluster (0 : BitVec 512) = 0 ∧
     rotate (s.cluster 0).last ((gangFaces s 0).filter (bindable s)) = some 0 ∧
     (let u := withFace { logical := some 0, resetting := true }
      gangFaces u 0 ≠ [] ∧ rotate (u.cluster 0).last ((gangFaces u 0).filter (bindable u)) = none) ∧
     2 ≤ taskTarget (word 512 [(180, 3)]) ∧ gangFaces s (word 512 [(180, 3)]) = [0]) := by
  refine ⟨⟨rfl, ?_⟩, ⟨rfl, ?_⟩, ⟨rfl, ?_⟩, ⟨rfl, ?_⟩, ?_, ?_, ?_, ?_, ⟨word 512 [(180, 1)], ?_⟩, ⟨word 512 [(180, 1), (184, 48)], ?_⟩, ?_,
    ?_, ?_⟩ <;> decide +kernel

theorem witness_HeadOperationsAct :
    AtHead (heading (sop 0x04 [])) 0 (idleStep (sop 0x04 [])) (sop 0x04 []) 0x04 ∧
    AtHead (heading (sop 0x03 [])) 0 (idleStep (sop 0x03 [])) (sop 0x03 []) 0x03 ∧
    AtHead (heading (sop 0x05 [])) 0 (idleStep (sop 0x05 [])) (sop 0x05 []) 0x05 ∧
    AtHead (heading (sop 0x06 [])) 0 (idleStep (sop 0x06 [])) (sop 0x06 []) 0x06 ∧
    AtHead (heading (sop 0x02 [])) 0 (idleStep (sop 0x02 [])) (sop 0x02 []) 0x02 ∧
    AtHead (heading (sop 0x01 [])) 0 (idleStep (sop 0x01 [])) (sop 0x01 []) 0x01 ∧
    (sopTokVa (sop 0x01 []) = 0 ∧ hdrSig (sop 0x01 []) = false ∧ (idleStep (sop 0x01 [])).ops = [] ∧ sopCond (sop 0x05 []) ≤ 2) ∧
    (∀ k < 4, hdrOp (sop 0x03 [(144, k)]) = 0x03 ∧ sopCond (sop 0x03 [(144, k)]) = k) ∧
    (tallyOf (live.setCtx 0 { enabled := true, tallyBase := 7 }) 0 (.virt 0) = some 7) ∧
    (live.win.len = 0 ∧ ({ len := 8000 } : Window).len ≠ 0 ∧ ({ len := 8000 } : Window).boundary ≤ (idleStep 0).headAt ∧
     (idleStep 0).headAt < ({ len := 8000, boundary := 1 } : Window).boundary) ∧
    hdrSig (sop 0x03 [(11, 1)]) = true ∧
    (tallyOp (live.setCtx 0 { enabled := true, tallyBase := 7 }) codeForeman 0 (.virt 0) topAdd 1).2 = stOk := by
  refine ⟨atHead_heading (sop 0x04 []) 0x04 (by decide +kernel), atHead_heading (sop 0x03 []) 0x03 (by decide +kernel), atHead_heading (sop 0x05 []) 0x05 (by decide +kernel),
    atHead_heading (sop 0x06 []) 0x06 (by decide +kernel), atHead_heading (sop 0x02 []) 0x02 (by decide +kernel), atHead_heading (sop 0x01 []) 0x01 (by decide +kernel), ?_, ?_, ?_, ?_, ?_, ?_⟩ <;> decide +kernel

theorem witness_RecordsAndWindows :
    (let x : RecFlight := { data := [], addr := 0, port := .host, rseq := 0, since := 0, sent := true, acked := true }
     let s := withQueue { records := [x] }
     (s.queue 0).records = [x] ∧ x.sent = true ∧ x.acked = true ∧ (s.queue 0).recTally = 0xFFFF ∧ (s.queue 0).recMsix = 0xFF) ∧
    (let x : RecFlight := { data := [], addr := 0, port := .partner 0, rseq := 0, since := 0 }
     let s := { withQueue { records := [x] } with ports := [(0, { state := 5 })], now := 8000001 }
     (s.queue 0).records = [x] ∧ x.sent = false ∧ (s.port 0).state = 5 ∧ x.since + 8000000 < s.now) ∧
    (Opens live live p0 0x2340 1 ∧ windowedActive live = false ∧ (8000 : W32).toNat % 8 = 0 ∧ 8000 ≤ (8000 : W32).toNat ∧
     (268435448 : W32).toNat ≤ 268435448 ∧ 268435448 < (268435456 : W32).toNat ∧ (7992 : W32).toNat < 8000 ∧
     (8004 : W32).toNat % 8 ≠ 0) ∧
    (let x := { idleStep 0 with windowed := true }
     windowedActive (withQueue { step := some x }) = true) ∧
    (let s := { live with win := { live.win with len := 8000 }, now := 8000 }
     s.win.len ≠ 0 ∧ s.win.align = false ∧ s.win.boundary + s.win.len.toNat ≤ s.now) ∧
    (let s := { live with win := { live.win with len := 8000, align := true, missedInRow := 3 }, now := 9000 }
     s.win.align = true ∧ s.win.fallback = false ∧ cadenceStuck s = false ∧
     s.win.boundary + s.win.len.toNat + s.win.len.toNat / 8 ≤ s.now ∧ s.win.missedInRow = 3 ∧ (s.input 0).level = false ∧
     (s.input 0).lastEdge = none ∧ (s.input 0).stuck = false ∧ s.life.state ≠ 0 ∧ tooShort s 0 = false ∧ s.win.boundary + s.win.len.toNat ≤ s.now + s.win.len.toNat / 8 ∧
     s.now ≤ s.win.boundary + s.win.len.toNat + s.win.len.toNat / 8) := by
  refine ⟨?_, ?_, ⟨rfl, ?_⟩, ?_, ?_, ?_⟩ <;> decide +kernel

/-! ## Witnesses: the tally board, the ports, the host -/

/-- A partner's source on port L0. -/
def org0 : Origin := .partner 0 3 9
/-- Context 0's window is tally 7 alone, with a given value. -/
def tallied (x : TallyCell) : State :=
  { live.setCtx 0 { enabled := true, tallyBase := 7 } with tally := { live.tally with cells := [(7, x)] } }

theorem witness_TallyOperations :
    (tallyGate State.reset org0 0 (.virt 0) ≠ stOk ∧ tallyGate live org0 1 (.phys 7) ≠ stOk) ∧
    (let s := tallied { value := 0x7FFFFFFF }
     tallyGate s org0 0 (.virt 1) = stOk ∧ tallyOf s 0 (.virt 1) = none ∧ tallyOf s 0 (.virt 0) = some 7 ∧
     (s.cell 7).barrier = false ∧ 0x7FFFFFFF < (s.cell 7).value.toNat + (1 : W32).toNat ∧
     (s.cell 7).value.toNat + (0 : W32).toNat ≤ 0x7FFFFFFF ∧ (0x7FFFFFFF : W32).toNat ≤ (s.cell 7).value.toNat ∧
     (s.cell 7).value.toNat < (0x80000000 : W32).toNat ∧ 0x7FFFFFFF < (0x80000000 : W32).toNat ∧ (s.cell 7).watches = [] ∧
     barrierOf s 7 = none) ∧
    (let s := { tallied { value := 5, barrier := true } with
                  tally := { cells := [(7, { value := 5, barrier := true })], barriers := [(0, ⟨true, 7, 0x30, 0x10, 0⟩)] } }
     (s.cell 7).barrier = true ∧ barrierOf s 7 = some (0, ⟨true, 7, 0x30, 0x10, 0⟩) ∧ participant 0x84 0x13 0x30 = some 4 ∧
     participant 0x85 0x13 0x30 = some 5 ∧ bitAt (0x10 : W64) 5 = false ∧ setBit (0x10 : W64) 5 true = 0x30 ∧
     (0 : W64) ≠ 0x30 ∧ (s.cell 7).watches = [] ∧ (s.cell 7).value.toNat < 2 ^ 31) ∧
    (bitAt (0x10 : W64) 4 = true ∧ setBit (0 : W64) 4 true ≠ 0x30) := by
  refine ⟨?_, ?_, ?_, ?_⟩ <;> decide +kernel

theorem witness_WatchesAndBarriers :
    (let s := tallied { value := 4 }
     tallyGate s org0 0 (.virt 0) = stOk ∧ tallyOf s 0 (.virt 0) = some 7 ∧ (s.cell 7).barrier = false ∧
     (0x7FFFFFFF : W32).toNat ≤ 0x7FFFFFFF ∧ remoteArmed s < s.tally.watchRemoteMax.toNat ∧ freeSlot s = some 0 ∧
     (s.cell 7).value.toNat < (5 : W32).toNat ∧ tabWf ({} : TallyCell) s.tally.cells = true ∧ (s.cell 7).value ≠ 0) ∧
    (({ tallied {} with tally := { watchRemoteMax := 0 } } : State).tally.watchRemoteMax.toNat ≤
      remoteArmed { tallied {} with tally := { watchRemoteMax := 0 } }) ∧
    (let w : Watch := { armed := true, cons := true, thr := 4, tally := 7 }
     let s := { live with tally := { cells := [(7, { value := 4, watches := [0] })], watches := [(0, w)] } }
     (s.cell 7).watches = [0] ∧ (s.cell 7).barrier = false ∧ tget {} s.tally.watches 0 = w ∧ w.armed = true ∧
     w.thr.toNat ≤ (s.cell 7).value.toNat) ∧
    ((live.cell 7).barrier = false ∧ (live.cell 7).value = 0 ∧ (live.cell 7).watches = [] ∧
     (List.range 256).find? (fun i => !(tget {} live.tally.barriers i).used) = some 0) ∧
    (let s := { live with tally := { cells := [(7, { barrier := true })], barriers := [(255, ⟨true, 7, 1, 0, 0⟩)] } }
     (s.cell 7).barrier = true ∧ (s.cell 7).watches = [] ∧ barrierOf s 7 = some (255, ⟨true, 7, 1, 0, 0⟩)) ∧
    (let q : WatchReq := { target := .face 0, code := 0x100, cons := false, thr := 5, tally := 7, ctx := 0, barrier := false }
     let s := { live with tally := { waiting := [q] } }
     s.tally.waiting = q :: [] ∧ freeSlot s = some 0 ∧ (s.cell 7).barrier = false ∧ q.barrier = false ∧
     (s.cell 7).value.toNat < q.thr.toNat) := by
  refine ⟨?_, ?_, ?_, ?_, ?_, ?_⟩ <;> decide +kernel

/-- Every slot of the pool is armed. -/
theorem witness_poolFull : freeSlot { live with tally := { watches := (List.range 4096).map fun i => (i, ({ armed := true } : Watch)) } } =
    none := by
  unfold freeSlot
  rw [List.find?_eq_none]
  intro i h
  rw [tget_const ({} : Watch) { armed := true } (List.range 4096) i h]
  decide

theorem witness_SignalsGatesAndDebugRecords :
    (let h : Hold := { src := 3, tag := 0, ctx := 0, stamp := 1, off := 0x200000, data := [], since := 0 }
     let s := { withPort { state := 3, holds := [h] } with now := 8000000 }
     firstHold (s.port 0) 3 = some h ∧ stampMet (s.port 0) h = false ∧ (s.port 0).holds = [h] ∧ h.src = 3 ∧
     h.since + 8000000 ≤ s.now ∧ firstHold (s.port 0) 4 = none ∧
     stampMet ((withPort { fence := [(3, 1)] }).port 0) h = true) ∧
    (let t := { task0 with wait := .watching 0 }
     let s := { tasked [] t with now := 40000 }
     (s.face 0).task = some t ∧ t.wait = .watching 0 ∧ (s.face 0).gated = false ∧ s.tally.gateWait ≠ 0 ∧
     0 + s.tally.gateWait.toNat * 800 ≤ s.now) ∧
    (Opens live live p0 0x2600 1 ∧ Opens live live p0 0x2601 1 ∧ Opens live live p0 0x2602 1 ∧ (16383 : W16).toNat < 16384 ∧
     16384 ≤ (16384 : W16).toNat ∧ (4095 : W16).toNat < 4096 ∧ 4096 ≤ (4096 : W16).toNat) := by
  refine ⟨?_, ?_, rfl, rfl, rfl, ?_⟩ <;> decide +kernel

theorem witness_PortLinks :
    (portRuns (live.port 0) = false ∧ tabWf ({} : Port) live.ports = true) ∧
    (let s := withPort { state := 4, unacked := [{ seq := 7, bytes := [], sends := 4 }] }
     portRuns (s.port 0) = true ∧ ([] : List Byte).length ≠ 256 ∧ tabWf ({} : Port) s.ports = true ∧
     (∃ u ∈ (ackFlits (s.port 0) 6).unacked, 4 ≤ u.sends) ∧ (∀ u ∈ (ackFlits (s.port 0) 7).unacked, u.sends < 4) ∧
     bitAt (s.port 0).lanesFailed 16 = false) ∧
    bitAt ((withPort { lanesFailed := 0x10000 }).port 0).lanesFailed 16 = true ∧
    (((withPort { state := 2, tries := 1 }).port 0).tries < 2 ∧ ((withPort { state := 2 }).port 0).state = 2 ∧
     2 ≤ ((withPort { state := 5, tries := 2 }).port 0).tries ∧ ((withPort { state := 5, tries := 2 }).port 0).state = 5) ∧
    ((16 : W16).toNat < 17 ∧
     (let s := withPort { state := 2, firstTraining := true }
      chooseWidth ((s.port 0).lanesFailed ||| 1 ||| tget 0 s.fuse.badXlanes 0) = (16, 0) ∧ (s.port 0).firstTraining = true ∧
      (s.port 0).txWait = [] ∧ s.xfers = [] ∧ s.fwds = [] ∧ tabWf ({} : Port) s.ports = true)) ∧
    (Opens live live p0 (portIdx 0) 6 ∧ Opens live live p0 (portIdx 0) 2 ∧ portLicensed live 0 = true ∧ portLicensed live 4 = false ∧
     1 < (2 : Byte).toNat) ∧
    (∀ x : Byte, let s := withPort { state := x }
     Opens s s p0 (portIdx 0) 6 ∧ Opens s s p0 (portIdx 0) 2 ∧ (s.port 0).state = x ∧ portLicensed s 0 = true) ∧
    (portRuns ((withPort { state := 3 }).port 0) = true ∧ tabWf ({} : Port) (withPort { state := 3 }).ports = true) ∧
    (let s := { live with life := { live.life with opened := false } }
     Opens s s p0 (portIdx 0) 2 ∧ (s.port 0).state = 0 ∧ s.life.opened = false ∧ portLicensed s 0 = true) := by
  refine ⟨?_, ?_, ?_, ?_, ?_, ⟨rfl, rfl, ?_⟩, fun _ => ⟨rfl, rfl, rfl, rfl⟩, ?_, ⟨rfl, ?_⟩⟩ <;> decide +kernel

/-- A header of a port packet. -/
def hdr (fs : List (Nat × Nat)) : BitVec 256 := word 256 fs

theorem witness_PortPackets :
    (let s := withPort { state := 3 }
     let w := hdr [(0, 2), (8, 2), (16, 1), (24, 15), (48, 1)]
     tabWf ({} : Port) s.ports = true ∧
     portRuns (s.port 0) = true ∧ portRuns (live.port 0) = false ∧ hdrOk w 1 = true ∧ hdrOk w 2 = false ∧ s.life.warm = none ∧
     hdrType w = 2 ∧ hdrType w ≠ 1 ∧ hdrType w ≠ 0x20 ∧ hdrType w ≠ 0x10 ∧
     hdrOrg w = 0 ∧ ctxAllowed (s.port 0) (hdrCtx w) = true ∧ ctxAllowed (s.port 0) 0 = false ∧ hdrDst w = 15 ∧ hdrAddr w < 2 ^ 40 ∧
     2 ^ 40 ≤ hdrAddr (hdr [(64, 2 ^ 40)])) ∧
    (let w := hdr [(0, 2), (8, 2), (16, 1), (24, 15), (28, 1), (48, 1)]
     let s := withPort { state := 3 }
     hdrOk w 1 = true ∧ hdrOrg w ≠ 0 ∧ hdrOk (hdr [(0, 2), (8, 2), (24, 15), (48, 1)]) 1 = true ∧
     ctxAllowed (s.port 0) (hdrCtx (hdr [(0, 2), (8, 2), (24, 15), (48, 1)])) = false) ∧
    (let r := hdr [(0, 1), (8, 2), (16, 1), (24, 15), (136, 4096)]
     hdrOk r 0 = true ∧ hdrType r = 1 ∧ hdrDst r = 15 ∧ hdrAddr r < 2 ^ 40 ∧ hdrOrg r = 0 ∧ hdrCtx r = 1) ∧
    (let s := { (withPort { state := 3 }).setCtx 1 { enabled := true, xlateCount := 1 } with xlate := [(0, 0x8580D100)] }
     let h := hdr [(0, 0x20), (8, 1), (10, 1), (16, 1), (24, 15), (48, 8), (64, 0x100000)]
     let h' := hdr [(0, 0x20), (8, 1), (10, 1), (16, 1), (24, 15), (48, 8), (64, 0x100000), (136, 1)]
     hdrOk h 8 = true ∧ hdrType h = 0x20 ∧ hdrOrg h = 0 ∧ ctxAllowed (s.port 0) (hdrCtx h) = true ∧ hdrDst h = 15 ∧
     (∃ pa, translate s (hdrCtx h) (hdrAddr h) 8 true (!hdrNc h) = .pa pa ∧ isTallyPage (pa / 2 ^ 24) = true ∧
       (opRegion (pa % 2 ^ 24)).isSome = true) ∧ firstHold (s.port 0) (hdrSrc h) = none ∧
     hdrOk h' 8 = true ∧ ¬ ((0 : W32) - hdrStamp h').toNat < 2 ^ 31 ∧ ((0 : W32) - hdrStamp h).toNat < 2 ^ 31 ∧
     translate (withPort { state := 3 }) (hdrCtx h) (hdrAddr h) 8 true (!hdrNc h) = .fail stXlate) ∧
    (let f : FwdReq := { dst := 0, origin := some 1, src := 0, tag := 5, ctx := 1, wr := false }
     let h := hdr [(0, 0x10), (28, 1), (32, 5), (24, 1)]
     let s := { withPort { state := 3 } with fwds := [f] }
     hdrOk h 0 = true ∧ hdrType h = 0x10 ∧ answered s 0 h = some f ∧ f.origin = some 1 ∧ f.wr = false ∧ answered live 0 h = none) ∧
    (let h := hdr [(0, 0x30), (8, 3), (16, 1), (24, 15), (120, 5)]
     msgOk (live.port 0) 0 h 0 = true ∧ hdrMcode h = 5 ∧ msgOk (live.port 0) 0 h 1 = false) := by
  refine ⟨?_, ?_, ?_, ⟨?_, ?_, ?_, ?_, ?_, ⟨0xD100100000, ?_⟩, ?_⟩, ?_, ?_⟩ <;> decide +kernel

/-- The host's link is up and the function is configured. -/
def hosted : State :=
  { live with host := { live.host with link := 1, cfg := { bar0 := some 0, bar2 := some 0x4000000, msixEnable := true } } }

theorem witness_HostPortServes :
    (hostUp live = false ∧ hostUp hosted = true ∧ live.host.cfg.bar0 = none ∧ live.host.cfg.bar2 = none ∧
     hosted.host.cfg.bar0.isSome = true ∧ hosted.host.cfg.bar2.isSome = true ∧ 4096 < (4097 : BitVec 13).toNat ∧
     (0x2FFFFFF : BitVec 26).toNat < 0x3000000 ∧ (0x2FFFFFF : BitVec 26).toNat % 2 ^ 24 + (1 : BitVec 13).toNat ≤ 2 ^ 24 ∧
     (0x3001000 : BitVec 26).toNat = 0x3001000 ∧ bitAt hosted.host.msixPending 63 = false ∧ aditOpen hosted = false) ∧
    (let s := { hosted with host := { hosted.host with msixPending := 0x8000000000000000 } }
     hostUp s = true ∧ bitAt s.host.msixPending 63 = true ∧ s.host.cfg.msixEnable = true ∧
     tabWf msixReset s.host.msixTable = true ∧ live.host.cfg.msixEnable = false) ∧
    (let s := { hosted with life := { hosted.life with state := 3 } }
     aditOpen s = true ∧ (0xFFF000 : BitVec 24).toNat + (4096 : BitVec 13).toNat ≤ 2 ^ 24 ∧
     (s.col (homeCol s.host.aditPage.toNat)).retired = false) ∧
    (domainOn live 3 = true ∧ domainOn State.reset 3 = false ∧ live.host.link = 0 ∧ hosted.host.link ≠ 0) := by
  refine ⟨?_, ?_, ?_, ?_⟩ <;> decide +kernel

/-! ## Witnesses: CAN, life, power, faults -/

/-- The CAN side of the live module, changed. -/
def withCan (f : Can → Can) : State := { live with can := f live.can }
/-- The life of the live module, changed. -/
def withLife (f : Life → Life) : State := { live with life := f live.life }
/-- The trust unit of the live module, changed. -/
def withTrust (f : Trust → Trust) : State := { live with trust := f live.trust }

theorem witness_CanNodeRuns :
    (d00On live = true ∧ live.can.busOff = false ∧ (withCan fun c => { c with busOff := true }).can.busOff = true) ∧
    (live.now < live.can.hbLast + 1000 * 800000 ∧
     (let s := withCan fun c => { c with comm := { c.comm with heartbeatMs := 0xFFFF } }
      s.can.comm.heartbeatMs.toNat ≠ 0 ∧ s.can.hbLast + s.can.comm.heartbeatMs.toNat * 800000 ≤ ({ s with now := 52428000000 } : State).now)) ∧
    (live.can.nmt ≠ .operational ∧
     (let s := { (withCan fun c => { c with nmt := .operational, comm := { c.comm with tpdoCob := [(3, 0x180)], tpdoTimer := [(3, 1)], tpdoInhibit := [] } }) with
                 now := 800000 }
      s.can.nmt = .operational ∧ bitAt (tget 0 s.can.comm.tpdoCob 3) 31 = false ∧ tget 0 s.can.comm.tpdoTimer 3 ≠ 0 ∧
      s.can.busOff = false ∧ headframeServes s = true ∧
      tget 0 s.can.tpdoLast 3 + (tget 0 s.can.comm.tpdoTimer 3).toNat * 800000 ≤ s.now ∧
      tget 0 s.can.tpdoLast 3 + inhibitCycles (tget 0 s.can.comm.tpdoInhibit 3) ≤ s.now)) ∧
    (live.can.emcyQueue = [] ∧
     (let m : Emcy := { code := 0x8140, reg := 1, unit := 6, detail := 0 }
      let s := withCan fun c => { c with emcyQueue := [m], comm := { c.comm with emcyCob := 0x80 } }
      s.can.emcyQueue = m :: [] ∧ bitAt s.can.comm.emcyCob 31 = false ∧ headframeServes s = true ∧ s.can.busOff = false ∧
      s.can.nmt ≠ .stopped ∧ s.can.emcyLast = none ∧ s.can.emcyOwed = false)) := by
  refine ⟨?_, ?_, ?_, ?_⟩ <;> decide +kernel

theorem witness_UsdoAndMailboxesServe :
    (Opens live live .can 0x2100 4 ∧ live.can.usdo = none ∧ live.can.usdoHeld = none ∧
     dictOpen live .can 0x2000 1 false = .serve live) ∧
    (let x : UsdoXfer := { upload := false, idx := 0x2120, sb := 1, data := [1], since := 0 }
     let y : UsdoXfer := { x with upload := true }
     let s := withCan fun c => { c with usdo := some x }
     let t := withCan fun c => { c with usdo := some y }
     s.can.usdo = some x ∧ t.can.usdo = some y ∧ usdoServes s = true ∧ usdoServes t = true ∧ d00On s = true ∧
     s.now < x.since + 800000000 ∧ x.since + 800000000 ≤ ({ s with now := 800000000 } : State).now) ∧
    (Opens live live p0 0x1003 0 ∧ (0 : Byte) = 0 ∧ (1 : Byte) ≠ 0) ∧
    (let s := withCan fun c => { c with boxes := [(15, { pend := true, taken := true })] }
     headframeOn s = true ∧ (s.box 15).pend = true ∧ (s.box 15).taken = true ∧ (live.box 15).pend = false ∧
     tabWf ({} : Mailbox) live.can.boxes = true ∧ mailboxServes live = true ∧
     mailboxServes (withLife fun l => { l with restart := some 0 }) = false ∧
     headframeOn (withLife fun l => { l with restart := some 0 }) = true ∧
     bitsAt (0x0000000220100301 : W64) 7 0 = 1 ∧ bitsAt (0x0000000220100302 : W64) 7 0 = 2) := by
  refine ⟨⟨rfl, rfl, rfl, rfl⟩, ?_, ⟨rfl, ?_⟩, ?_⟩ <;> decide +kernel

/-- A step that has just started. -/
def step0 : StepRun := { slot := 0, index := 0, ctx := 1, started := 0, prog := [], head := 0, headAt := 0 }

theorem witness_LifeStatesAndBringup :
    (Opens live live p0 0x2100 4 ∧ live.life.state = 4 ∧
     (let s := withLife fun l => { l with state := 6 }
      Opens s s p0 0x2100 4 ∧ s.life.state = 6 ∧ stepsActive s = 0) ∧
     (let s := { (withLife fun l => { l with state := 6 }) with queues := [(0, { step := some step0 })] }
      Opens s s p0 0x2100 4 ∧ s.life.state = 6 ∧ stepsActive s ≠ 0)) ∧
    (Opens live live p0 0x2100 2 ∧ 11 < (12 : Byte).toNat ∧ live.life.state ≠ 1 ∧ live.life.state ≠ 2 ∧
     (let s := withLife fun l => { l with state := 2 }
      Opens s s p0 0x2100 2 ∧ s.life.state = 2 ∧ s.life.running = none ∧ s.life.warm = none ∧ s.life.cold = none ∧
      (11 : Byte).toNat ≤ (dictReply s p0 stOk 0 []).life.buLast.toNat) ∧
     (let s := withLife fun l => { l with state := 2, running := some { step := 2, last := 3, since := 0 } }
      Opens s s p0 0x2100 2 ∧ s.life.state = 2 ∧ s.life.running.isSome = true)) ∧
    (let r : BuRunning := { step := 1, last := 3, since := 0 }
     let s := withLife fun l => { l with state := 2, running := some r }
     let s' := withLife fun l => { l with state := 2, running := some { r with step := 2 } }
     s.life.running = some r ∧ s.now < r.since + stepLimit s r.step * 800 ∧
     r.since + stepLimit s r.step * 800 ≤ ({ s with now := 1600000 } : State).now ∧
     s'.life.running = some { r with step := 2 } ∧ 0 + stepLimit s' 2 * 800 ≤ ({ s' with now := 800000 } : State).now) := by
  refine ⟨⟨rfl, rfl, ⟨rfl, rfl, rfl⟩, rfl, rfl, ?_⟩, ⟨rfl, ?_, ?_, ?_, ⟨rfl, rfl, rfl, rfl, rfl, ?_⟩, rfl, rfl, rfl⟩, ?_⟩ <;>
    decide +kernel

theorem witness_ResetsRun :
    (Opens live live p0 0x2100 6 ∧ lightResetState live = true ∧ (live.face 51).logical = none ∧
     (let s := withFace { logical := some 0 }
      Opens s s p0 0x2100 6 ∧ (s.face 0).logical.isSome = true ∧ (s.face 0).fenced = false ∧ resetRank s = 0 ∧
      s.life.running = none)) ∧
    (let s := { (withLife fun l => { l with compute := some 0 }) with faces := [(0, { logical := some 0 })] }
     Opens s s p0 0x2100 6 ∧ lightResetState s = true ∧ 1 ≤ resetRank s ∧ Opens s s p0 0x2100 5 ∧ 2 ≤ resetRank s ∧
     s.life.compute.isSome = true ∧ (s.face 0).logical.isSome = true ∧ (s.face 0).fenced = false) ∧
    (let s := withLife fun l => { l with state := 7 }
     Opens s s p0 0x2100 6 ∧ lightResetState s = false ∧ Opens s s p0 0x2100 5) ∧
    (State.reset.life.state = 1 ∧ usdoServes State.reset = true) ∧
    (Opens live live p0 0x2100 5 ∧ resetRank live ≤ 1 ∧ live.life.running = none ∧ live.trust.fwState ≠ 5 ∧ live.life.compute = none ∧
     live.life.state ≠ 0 ∧ live.life.state ≠ 1) ∧
    (let s := withLife fun l => { l with warm := some 0 }
     Opens s s p0 0x2100 5 ∧ 3 ≤ resetRank s ∧ s.life.warm = some 0 ∧ 0 + 800000 ≤ ({ s with now := 800000 } : State).now) ∧
    (let x : Xfer := { id := 0, owner := .unit 1, ctx := 0, code := 1, va := 0, wr := false, left := 1, data := [] }
     let s := { (withLife fun l => { l with warm := some 0 }) with xfers := [x] }
     s.life.warm = some 0 ∧ s.now < 0 + 800000 ∧ s.xfers ≠ []) ∧
    (let s := withLife fun l => { l with cold := some 0 }
     s.life.cold = some 0 ∧ s.now < 0 + 8000000 ∧ 0 + 8000000 ≤ ({ s with now := 8000000 } : State).now) ∧
    ((withFace { resetting := true }).face 0).resetting = true ∧ faceJob (withFace { resetting := true }) 0 = false ∧
    (live.face 0).resetting = false ∧ (withLife fun l => { l with state := 0 }).life.state = 0 ∧ live.life.state ≠ 0 := by
  refine ⟨⟨rfl, ?_, ?_, rfl, ?_⟩, ⟨rfl, ?_, ?_, rfl, ?_⟩, ⟨rfl, ?_, rfl⟩, ?_, ⟨rfl, ?_⟩, ⟨rfl, ?_⟩, ?_⟩ <;> decide +kernel

/-- The clauses about paths: a transfer in progress is ended by the next one, a mailbox brings an image in parts, and a reset holds a
run. -/
theorem witness_paths :
    (let x : UsdoXfer := { upload := false, idx := 0x2120, sb := 1, data := [1], since := 0 }
     let s := withCan fun c => { c with usdo := some x }
     s.can.usdo.isSome = true ∧ usdoServes s = true ∧ s.life.state ≠ 0 ∧ headframeServes s = true) ∧
    live.can.mail = [] ∧
    (let u := live.setBox 3 { pend := true, taken := true }
     Opens live u (.mbox 3) 0x2120 1 ∧ Opens live u (.mbox 3) 0x2130 1 ∧ Opens live u (.mbox 3) 0x2140 1 ∧
     4064 < (List.replicate 4065 (0 : Byte)).length ∧ mailLen (.mbox 3) 4064 = true ∧ mailLen p0 1 = true ∧ domainOff p0 0 = 0) ∧
    (let s := withLife fun l => { l with state := 2, warm := some 0 }
     Opens s s p0 0x2100 2 ∧ s.life.running = none ∧ (dictReply s p0 stOk 0 []).life.warm.isSome = true) ∧
    (withTrust fun t => { t with attState := 1 }).trust.attState = 1 := by
  refine ⟨?_, rfl, ⟨rfl, rfl, rfl, ?_⟩, ⟨rfl, rfl, rfl⟩, rfl⟩ <;> decide +kernel

theorem witness_FirmwareLicencesAttestation :
    (let s := withTrust fun t => { t with fwState := 2 }
     Opens s s p0 0x2120 1 ∧ s.trust.fwState = 2) ∧
    (Opens live live p0 0x2120 1 ∧ live.trust.fwState ≠ 2 ∧ live.trust.fwState ≠ 5 ∧ (0 : W32) = 0 ∧ ([1] : List Byte).length ≤ 4194304 ∧
     (7 : W32) ≠ 0 ∧ (7 : W32).toNat ≠ live.trust.fwImage.length ∧
     (let s := withTrust fun t => { t with fwState := 1, fwImage := [1, 2] }
      Opens s s p0 0x2120 1 ∧ s.trust.fwState = 1 ∧ (2 : W32).toNat = s.trust.fwImage.length ∧ (2 : W32) ≠ 0 ∧
      s.trust.fwImage.length + 1 ≤ 4194304)) ∧
    (∀ x : Byte, let s := withTrust fun t => { t with fwState := x }
      Opens s s p0 0x2120 2 ∧ s.trust.fwState = x) ∧
    (withTrust fun t => { t with fwState := 2 }).trust.fwState = 2 ∧ (withTrust fun t => { t with fwState := 5 }).trust.fwState = 5 ∧
    (live.life.restart = none ∧ (withLife fun l => { l with restart := some 0 }).life.restart = some 0) ∧
    (Opens live live p0 0x2130 1 ∧ (List.replicate 2885 (0 : Byte)).length > 2884) ∧
    (Opens live live p0 0x2130 2 ∧ (licSlot live.trust 7).data = [] ∧ live.trust.slots = [] ∧
     (let s := withTrust fun t => { t with slots := [(7, { data := [1] })] }
      Opens s s p0 0x2130 2 ∧ (licSlot s.trust 7).data ≠ [])) ∧
    (Opens live live p0 0x2140 1 ∧ ([1] : List Byte).length ≤ 32) ∧
    (Opens live live p0 0x2140 2 ∧ live.trust.attNonce.length ≠ 32 ∧
     (let s := withTrust fun t => { t with attNonce := List.replicate 32 7 }
      Opens s s p0 0x2140 2 ∧ s.trust.attNonce.length = 32 ∧ s.trust.attState ≠ 1 ∧ s.trust.nextIdx.toNat < 1048576) ∧
     (let s := withTrust fun t => { t with attNonce := List.replicate 32 7, attState := 1 }
      Opens s s p0 0x2140 2 ∧ s.trust.attNonce.length = 32 ∧ s.trust.attState = 1)) := by
  refine ⟨⟨rfl, ?_⟩, ⟨rfl, ?_, ?_, rfl, ?_, ?_, ?_, rfl, ?_⟩, fun _ => ⟨rfl, rfl⟩, ?_, ?_, ?_, ⟨rfl, ?_⟩, ⟨rfl, ?_, ?_, rfl, ?_⟩, ⟨rfl, ?_⟩,
    ⟨rfl, ?_, ⟨rfl, ?_⟩, rfl, ?_⟩⟩ <;> decide +kernel

/-- The live module's power, changed. -/
def withPower (f : Power → Power) : State := { live with power := f live.power }

theorem witness_PowerInputsAndDomains :
    (d00On live = true ∧ (3999 : W16).toNat < 4000 ∧ 2 ≤ (withPower fun p => { p with under40 := 2 }).power.under40 ∧
     4800 ≤ (6600 : W16).toNat ∧ (6600 : W16).toNat ≤ 6600) ∧
    (bitAt (withPower fun p => { p with phases := 0 }).power.phases 17 = false ∧ bitAt live.power.phases 17 = true) ∧
    (let q : InputPin := { level := true }
     let s := { live with inputs := [(1, q), (2, q)] }
     (s.input 1).level = true ∧ (s.input 2).level = true ∧ tabWf ({} : InputPin) s.inputs = true) ∧
    ((live.input 2).level = false ∧ (live.input 2).lastEdge = none ∧ (live.input 1).level = false ∧ (live.input 1).stuck = false ∧
     (live.input 1).lastEdge = none ∧ tabWf ({} : InputPin) live.inputs = true) ∧
    (let s := { live with inputs := [(2, ({ lastEdge := some 0 } : InputPin))], now := 7999 }
     (s.input 2).level = false ∧ (s.input 2).lastEdge = some 0 ∧ s.now < 0 + (s.input 2).spacingUs.toNat * 800 ∧
     0 + (s.input 2).spacingUs.toNat * 800 ≤ ({ s with now := 8000 } : State).now) ∧
    (let s := { live with inputs := [(2, ({ level := true, stuckMs := 1 } : InputPin))], now := 800001 }
     (s.input 2).level = true ∧ (s.input 2).stuck = false ∧ (s.input 2).since + (s.input 2).stuckMs.toNat * 800000 < s.now) ∧
    (let s := { live with inputs := [(2, ({ stuck := true } : InputPin))], now := 8000 }
     (s.input 2).stuck = true ∧ (s.input 2).level = false ∧ (s.input 2).since + (s.input 2).spacingUs.toNat * 800 ≤ s.now) ∧
    ((live.domain 11).state = 1 ∧ domainFree live 11 = true ∧ (live.domain 11).state ≠ 2 ∧ (live.domain 11).state ≠ 3) ∧
    (let s := { (withPower fun p => { p with sleepIdleUs := 5, domains := [(11, ({ state := 2 } : Domain))] }) with now := 4000 }
     (s.domain 11).state = 2 ∧ s.power.sleepIdleUs ≠ 0 ∧ wakeHeld s = false ∧
     (s.domain 11).idleSince + s.power.sleepIdleUs.toNat * 800 ≤ s.now) ∧
    (wakeHeld ({ live with inputs := [(1, ({ level := true } : InputPin))] } : State) = true ∧
     ((withPower fun p => { p with domains := [(11, ({ state := 3 } : Domain))] }).domain 11).state = 3) := by
  refine ⟨?_, ?_, ?_, ?_, ?_, ?_, ?_, ?_, ?_, ?_⟩ <;> decide +kernel

/-- The module throttled. -/
def canaryEnforced : State := { live with canary := { live.canary with thrState := thrEnforced } }

/-- The filter of the pins, and a domain with work. -/
theorem witness_pins :
    (tooShort live 1 = false ∧ tooShort live 2 = false ∧ (live.input 2).level = !true) ∧
    (let s := { live with inputs := [(2, ({ changed := some 0 } : InputPin))], now := 15 }
     tooShort s 2 = true ∧ tooShort { s with now := 16 } 2 = false ∧ (s.input 2).level = false) ∧
    (let s := { live with inputs := [(2, ({ lastEdge := some 0, changed := some 0 } : InputPin))], now := 7999 }
     tooShort s 2 = false ∧ tooShort { s with now := 8000 } 2 = false) ∧
    (let s := tasked [] task0
     domainFree s 11 = false ∧ (live.domain 11).state ≠ 2 ∧
     ((withPower fun p => { p with domains := [(11, ({ state := 2 } : Domain))] }).domain 11).state = 2) ∧
    (errorRegister (activeConds live.can) = 0 ∧ live.canary.thrState = thrNone ∧
     canaryEnforced.canary.thrState ≠ thrNone) := by
  refine ⟨?_, ?_, ?_, ?_, ?_⟩ <;> decide +kernel

/-- Where no face is listed, none is gated. -/
theorem witness_noFaceGated : ∀ f, (({ live with faces := [] } : State).face f).gated = false := fun _ => rfl

theorem witness_DutiesAndCanary :
    (let s : State := { live with faces := [] }
     headframeOn s = true ∧ s.life.restart = none ∧ (s.faces.filter fun x => x.2.gated) = []) ∧
    headframeOn State.reset = false ∧
    (7 * 8 ≤ 8 * 7 ∧ 8 * 6 < 7 * 7 ∧ ({ calm := 7 } : LedgerUnit).calm = 7) ∧
    ((live.face 0).floorRate = false ∧ ((withFace { floorRate := true }).face 0).floorRate = true ∧
     ((withFace { floorRate := true }).power.loans.filter fun l => l.lender == 0 && l.recalled) = [] ∧
     ((withFace { floorRate := true }).face 0).wokeAt + 8000 ≤ ({ withFace { floorRate := true } with now := 8000 } : State).now) ∧
    (live.canary.slot ≠ 127 ∧ canaryRuns live = true ∧ live.canary.slot = 0 ∧ live.canary.slot ≠ 128 ∧
     (let s := { live with canary := { live.canary with slot := 128 } }
      canaryRuns s = true ∧ s.canary.slot = 128)) ∧
    (live.canary.thrState = thrNone ∧ throttleCause live = false ∧ throttleTrip live = false ∧ live.canary.thrState ≠ thrEnforced ∧
     throttleTrip ({ live with canary := { live.canary with channels := [(87, { status := 2 })] } } : State) = true) := by
  refine ⟨?_, ?_, ?_, ?_, ?_, ?_⟩ <;> decide +kernel

theorem witness_FencesAndFaultLog :
    (Opens live live p0 0x5001 1 ∧ fenceState live = true ∧ (live.face 51).logical = none ∧ 51 < (52 : Byte).toNat ∧
     (let s := withFace { logical := some 0 }
      Opens s s p0 0x5001 1 ∧ (s.face 0).logical.isSome = true ∧ (s.face 0).fenced = false ∧ s.fence.jobs = [])) ∧
    (let j : FenceJob := { pick := true, idx := 4095, cause := 0, since := 0 }
     let s := { withFace { logical := some 0 } with fence := { jobs := [j] } }
     Opens s s p0 0x5001 1 ∧ Opens s s p0 0x5001 2 ∧ fenceState s = true ∧ (s.face 0).logical.isSome = true ∧ (s.face 0).fenced = false ∧
     (s.col 4095).fenced = false ∧ (s.col 4095).retired = false ∧ s.fence.jobs = j :: [] ∧ j.pick = true ∧ s.fence.jobs ≠ []) ∧
    (let s := withLife fun l => { l with state := 2 }
     Opens s s p0 0x5001 1 ∧ Opens s s p0 0x5001 2 ∧ fenceState s = false) ∧
    (Opens live live p0 0x5001 3 ∧ (live.col 0).retired = false ∧ (live.col 0).fenced = false ∧ live.fence.jobs = [] ∧
     tabWf ({} : Col) live.cols = true) ∧
    (let s := withCol { fenced := true, retired := true }
     Opens s s p0 0x5001 3 ∧ (s.col 0).retired = true) ∧
    (let s := withCol { fenced := true }
     Opens s s p0 0x5001 3 ∧ (s.col 0).retired = false ∧ (s.col 0).fenced = true ∧ retireBlocked s 0 = false ∧
     tabWf ({} : Col) s.cols = true) ∧
    (Opens live live p0 0x5000 3 ∧ Opens live live p0 0x5000 0x0B ∧ Opens live live p0 0x5000 9 ∧
     live.log.saved.length ≤ (0 : W16).toNat ∧ (2 : Byte) ≠ 1 ∧ live.log.recs = []) ∧
    (let r : FaultRec := { fseq := 9 }
     let s := { live with log := { live.log with recs := [r], saved := [r] } }
     Opens s s p0 0x5000 3 ∧ Opens s s p0 0x5000 0x0B ∧ s.log.recs.find? (fun x => x.fseq == 9) = some r ∧ s.log.saved.reverse[(0 : W16).toNat]? = some r) := by
  refine ⟨⟨rfl, ?_, ?_, ?_, rfl, ?_⟩, ⟨rfl, rfl, ?_⟩, ⟨rfl, rfl, ?_⟩, ⟨rfl, ?_⟩, ⟨rfl, ?_⟩, ⟨rfl, ?_⟩, ⟨rfl, rfl, rfl, ?_⟩, ⟨rfl, rfl, ?_⟩⟩ <;>
    decide +kernel

/-! ## Values that the manual works out -/

/-- Chapter 02: module address 0x12_3456_7800 in the bank-local view is die 3, row 1,383, byte 0 of column P070 in S4. -/
theorem test_place_local : placeLocal 0x1234 0x567800 = ⟨2118, 3, 1383, 0⟩ := by decide +kernel

/-- The same address in the striped view: S7, P065, die 3, row 3,349, byte 0. -/
theorem test_place_striped : placeStriped 0x1234 0x567800 = ⟨7 * 512 + 65, 3, 3349, 0⟩ := by decide +kernel

/-- Chapter 02: context 5 reaches it by the entry 0x8180_1234 at 0x1034; a write of an entry without the write right is refused. -/
theorem test_translate :
    let s := { live.setCtx 5 { enabled := true, xlateBase := 0x1000, xlateCount := 0x200 } with xlate := [(0x1034, 0x81801234)] }
    translate s 5 0x34567800 64 false true = .pa 0x1234567800 ∧
      translate { s with xlate := [(0x1034, 0x80801234)] } 5 0x34567800 64 true true = .fail stProt := by decide +kernel

/-- Chapter 03, Table 3.11, fast: the products of block 0 sum to +0 on the tree. -/
theorem test_fast_tree :
    code32 (treeSum 5 (Fmt.bf16.decode 0x4B80 :: val32 0x3F000000 :: val32 0x3F000000 :: Fmt.bf16.decode 0xCB80 ::
      List.replicate 28 .zero)).1 = 0 := by decide +kernel

/-- The same products exactly: 1.0, bit 512 alone; it travels as two words (chapter 05). -/
theorem test_exact_sum :
    let x := [Fmt.bf16.decode 0x4B80, val32 0x3F000000, val32 0x3F000000, Fmt.bf16.decode 0xCB80].foldl Exact.addVal ({} : Exact)
    code32 x.value = 0x3F800000 ∧ exactWords x = [0x801, 1] := by decide +kernel

/-- Chapter 05: −1.5 as an exact partial. -/
theorem test_exact_negative :
    exactWords (({} : Exact).addVal (val32 0xBFC00000)) = [0x1000000000000702, 0x8000000000000000, 0xFFFFFFFFFFFFFFFE] := by
  decide +kernel

/-- R66: the first value of the generator seeded with 1. -/
theorem test_sr_next : srNext 1 = 0x00042021 := by decide

/-- Chapter 07: element (300, 1000) of a PANEL matrix lies in the block at 0x00_2016_7B00. -/
theorem test_panel_block :
    blockAddr (word 512 [(0, 0x20000000), (40, 1), (46, 2), (50, 2), (64, 64), (96, 512), (224, 2048), (256, 16384)]) 0 [31, 300] =
      0x20167B00 := by decide +kernel

/-- R221: the CRC of "123456789". -/
theorem test_crc16 : crc16 [0x31, 0x32, 0x33, 0x34, 0x35, 0x36, 0x37, 0x38, 0x39] = 0x29B1 := by decide +kernel

/-- Chapter 10: the check bytes of a codeword whose last data byte is 1; and one wrong byte is found where it stands. -/
theorem test_check_bytes : rsCheck (List.replicate 31 0 ++ [1]) = (0x0F, 0x36, 0x78, 0x40) ∧ eccDecode 0x4078360F = .fix 4 1 := by
  decide +kernel

/-- Chapter 09: a partner adds 3 to virtual tally 8 of context 5 with base 0x0800: the board applies it to tally 2,056. -/
theorem test_tally_window :
    let s := live.setCtx 5 { enabled := true, tallyBase := 0x800, tallyLimit := 63 }
    let t := tallyRecord s org0 5 (.virt 8) 0x0000000300000001 0
    (t.1.cell 2056).value = 3 ∧ t.2 = stOk ∧ opRegion 0x80 = some (.virt 8) := by decide +kernel

/-- Chapter 09, the barrier of faces 4, 5 and 6: the events up to face 6's arrival, which releases round 0 once. -/
theorem test_barrier_rounds :
    let s := { tallied { barrier := true } with
      tally := { cells := [(7, { barrier := true })], barriers := [(0, ⟨true, 7, 0x70, 0, 0⟩)] } }
    let a (t : State × Byte) (f : Nat) := tallyOp t.1 (BitVec.ofNat 16 (0x100 + f)) 0 (.virt 0) 3 0
    let s1 := a (a (s, stOk) 4) 5
    let s2 := a s1 5
    let s3 := a s2 5
    let s4 := a s3 6
    barrierOf s2.1 7 = some (0, ⟨true, 7, 0x70, 0x30, 0x20⟩) ∧ s2.2 = stOk ∧ s3.2 = stOverrun ∧
      barrierOf s4.1 7 = some (0, ⟨true, 7, 0x70, 0x20, 0⟩) ∧ (s4.1.cell 7).value = 1 ∧ watchHolds s4.1 7 0x106 0 = true ∧
      watchHolds s4.1 7 0x105 0 = false := by decide +kernel

/-- Chapter 12: `picks_live` of a module with one pick fenced, read through mailbox 0. -/
theorem test_mailbox_read :
    let s := { live with geo := { live.geo with picksLive := 4095 } }
    let t := (mailboxAccess s 0 0x0000000220100301).box 0
    t.done = true ∧ t.pend = false ∧ t.status = stOk ∧ t.rlen = 2 ∧ areaBytes t 0 2 = [0xFF, 0x0F] := by decide +kernel

/-! ## Commands and words -/

/-- No row of the table gives bits: no word spells a command, and the queue stays as it is. -/
theorem test_no_word (s : State) : decodeTableWord 64 0x123 = none ∧ s.withFetchWord 64 0x123 = s := ⟨rfl, rfl⟩

/-- With a command in front, a step runs it; reset has none, and idles for a cycle. -/
theorem test_reset_idles : step State.reset = .next { State.reset with now := 1 } := rfl

/-- Every check of well-formedness refuses a term: an empty write, a length that differs, a payload of the wrong length, a list too
long. -/
theorem test_ill_formed :
    wellFormed (.directCommandWrite org0 1 0 0 []) = false ∧
    wellFormed (.doorbellWrite org0 1 0 []) = false ∧
    wellFormed (.shaftLinkFrame 0 true 0 0 [1] 0) = false ∧
    wellFormed (.flitReceived 0 0 [] [1]) = false ∧
    wellFormed (.wr 0 (hdr [(48, 2)]) [1]) = false ∧
    wellFormed (.sig 0 (hdr [(48, 2)]) [1]) = false ∧
    wellFormed (.rsp 0 (hdr [(48, 2)]) [1]) = false ∧
    wellFormed (.echo 0 (hdr [(48, 2)]) [1]) = false ∧
    wellFormed (.hostRead 0 0 0) = false ∧
    wellFormed (.hostWrite 0 []) = false ∧
    wellFormed (.aditAccess true 0 2 [1] 0) = false ∧
    wellFormed (.aditAccess false 0 2 [1] 0) = false ∧
    wellFormed (.unitDutyTick (List.replicate 9 0) []) = false := by decide +kernel

/-- A value of more than 4 MiB, for each command that carries one. -/
theorem test_dict_data (ds : List Byte) (h : ds.length = 4194305) :
    wellFormed (.registerWrite p0 0 0 ds) = false ∧ wellFormed (.usdoDownload 0 0 .whole ds) = false ∧
    wellFormed (.fwImageWrite p0 0 ds) = false ∧ wellFormed (.licImageWrite p0 0 ds) = false ∧
    wellFormed (.attNonceWrite p0 0 ds) = false := by
  simp [wellFormed, dictDataOk, h]

/-- A read of no byte and a write whose data differ in length, by ordinary request and through the aperture. -/
theorem test_lengths :
    wellFormed (.apertureRead org0 1 0 0 0) = false ∧ wellFormed (.ordinaryRequest org0 1 true false 0 2 [1]) = false ∧
    wellFormed (.ordinaryRequest org0 1 false false 0 0 []) = false := by decide

/-- FIPS 202: SHAKE256 of the empty message. -/
theorem test_shake256 : shake256 [] =
    [0x46, 0xB9, 0xDD, 0x2B, 0x0B, 0xA8, 0x8D, 0x13, 0x23, 0x3B, 0x3F, 0xEB, 0x74, 0x3E, 0xEB, 0x24,
     0x3F, 0xCD, 0x52, 0xEA, 0x62, 0xB8, 0x1B, 0x82, 0xB5, 0x0C, 0x27, 0x64, 0x6E, 0xD5, 0x76, 0x2F] := by decide +kernel

end Sys2Proof.Tests
end

section
/-! SUPPORT. How an opened dictionary write with a row of its own is answered. -/

namespace Sys2Proof.Machine
open Sys2Proof.Claims

variable {s u : State} {p : DictPath} {idx : W16} {sb : Byte}

theorem dictRow_of_opens (h : Opens s u p idx sb) (w : List Byte) (f : State → State × Option Byte) :
    dictRow s p idx sb w f = dictFinish p idx sb (f u) := by
  unfold Opens at h
  simp only [dictRow, h]

theorem dictRow1_of_opens (h : Opens s u p idx sb) (w : List Byte) (f : State → State × Byte) :
    dictRow1 s p idx sb w f = dictReply (f u).1 p (f u).2 (abortOf (f u).2) [] :=
  dictRow_of_opens h w _

/-- A command that is a row without a hold answers with what the row's rules give on the opened state. -/
theorem answers_of_dictRow1 {c : Instr} {w : List Byte} {f : State → State × Byte} {v : State} {st : Byte}
    (hc : exec c s = .next (dictRow1 s p idx sb w f)) (h : Opens s u p idx sb) (hf : f u = (v, st)) : Answers c s v p st := by
  rw [Answers, hc, dictRow1_of_opens h, hf]

end Sys2Proof.Machine
end

section
/-! SUPPORT. The status of a write to a context's field, case by case (R42). -/

namespace Sys2Proof.Machine
open Sys2Proof.Claims

variable {s u : State} {p : DictPath} {c : CtxId} {f : CtxField} {v : W16}

theorem contextWrite_answers (h : Opens s u p (BitVec.ofNat 16 (0x2510 + c.val)) (contextSub f)) {st : Byte}
    (hst : contextStatus u c.val f v.toNat = st) :
    Answers (.contextWrite p c f v) s (if st = stOk then u.setCtx c.val (contextSet (u.ctx c.val) f v) else u) p st :=
  answers_of_dictRow1 rfl h (by simp only [contextObj, hst])

theorem contextWrite_accepted (h : Opens s u p (BitVec.ofNat 16 (0x2510 + c.val)) (contextSub f))
    (hst : contextStatus u c.val f v.toNat = stOk) :
    Answers (.contextWrite p c f v) s (u.setCtx c.val (contextSet (u.ctx c.val) f v)) p stOk :=
  contextWrite_answers h hst

theorem contextWrite_refused (h : Opens s u p (BitVec.ofNat 16 (0x2510 + c.val)) (contextSub f)) {st : Byte}
    (hst : contextStatus u c.val f v.toNat = st) (hne : st ≠ stOk) : Answers (.contextWrite p c f v) s u p st := by
  simpa only [if_neg hne] using contextWrite_answers h hst

/-- The largest value of a field of the window: the last entry, or the whole table. -/
abbrev windowMax (f : CtxField) : Nat := if f = .xlateBase then 32767 else 32768

/-- The three cases of a write to the window of a context: enabled, out of the field's range, set. -/
theorem contextStatus_window (hf : f = .xlateBase ∨ f = .xlateCount) (s : State) (c n : Nat) :
    contextStatus s c f n = if (s.ctx c).enabled then stMode else if windowMax f < n then stOob else stOk := by
  obtain rfl | rfl := hf <;> rfl

theorem contextStatus_enable (s : State) (c : Nat) :
    contextStatus s c .enabled (1 : W16).toNat = if enableBlocked s c then stProt else stOk := rfl

theorem contextStatus_disable (s : State) (c : Nat) :
    contextStatus s c .enabled (0 : W16).toNat = if c = 0 then stProt else stOk := rfl

/-- The two cases that forbid enabling a context: its window leaves the table, or meets another enabled window. -/
theorem enableBlocked_iff (s : State) (c : Nat) :
    enableBlocked s c = true ↔ 32768 < (s.ctx c).xlateBase.toNat + (s.ctx c).xlateCount.toNat ∨
      ∃ d < 64, d ≠ c ∧ (s.ctx d).enabled = true ∧ windowsMeet (s.ctx c) (s.ctx d) = true := by
  simp only [enableBlocked, Bool.or_eq_true, decide_eq_true_eq, List.any_eq_true, List.mem_range, Bool.and_eq_true, and_assoc]

/-- Settles O8: each case is one branch of the field's status; `enableBlocked_iff` gives those of enabling. -/
theorem contextWrites : Obligations.ContextWrites := by
  intro p c v s u
  refine ⟨fun f hf ho => ?_, fun ho => ?_⟩
  · have hst := contextStatus_window hf u c.val v.toNat
    refine ⟨fun he => ?_, fun he hv => ?_, fun he hv => ?_⟩
    · exact contextWrite_refused ho (by rw [hst, if_pos he]) (by decide)
    · exact contextWrite_refused ho (by rw [hst, if_neg (Bool.eq_false_iff.1 he), if_pos hv]) (by decide)
    · exact contextWrite_accepted ho (by rw [hst, if_neg (Bool.eq_false_iff.1 he), if_neg (Nat.not_lt.2 hv)])
  · have blocked (hb : enableBlocked u c.val = true) : Answers (.contextWrite p c .enabled 1) s u p stProt :=
      contextWrite_refused (f := .enabled) ho (by rw [contextStatus_enable, if_pos hb]) (by decide)
    refine ⟨?_, ?_, ?_, ?_, ?_⟩
    · rintro rfl hout
      exact blocked ((enableBlocked_iff u c.val).2 (.inl hout))
    · rintro rfl hmeet
      exact blocked ((enableBlocked_iff u c.val).2 (.inr hmeet))
    · rintro rfl hin hfree
      have hb : ¬ enableBlocked u c.val = true := by
        rw [enableBlocked_iff]
        rintro (hout | ⟨d, hd, hne, hen, hmeet⟩)
        · exact absurd hin (Nat.not_le.2 hout)
        · exact absurd hmeet (Bool.eq_false_iff.1 (hfree d hd hne hen))
      exact contextWrite_accepted (f := .enabled) ho (by rw [contextStatus_enable, if_neg hb])
    · rintro rfl hc
      exact contextWrite_refused (f := .enabled) ho (by rw [contextStatus_disable, if_pos hc]) (by decide)
    · rintro rfl hc
      exact contextWrite_accepted (f := .enabled) ho (by rw [contextStatus_disable, if_neg hc])

end Sys2Proof.Machine
end

section
/-! SUPPORT. Bits of a word: what `bitAt` and `setBit` say in the terms of `BitVec.getLsbD`. -/

namespace Sys2Proof.Machine

theorem bitAt_eq_getLsbD {w : Nat} (x : BitVec w) (i : Nat) : bitAt x i = x.getLsbD i := rfl

/-- The word with the one bit i set. -/
theorem getLsbD_ofNat_two_pow {w i : Nat} (hi : i < w) (j : Nat) : (BitVec.ofNat w (2 ^ i)).getLsbD j = decide (j = i) := by
  rw [BitVec.getLsbD_ofNat]
  by_cases h : j = i
  · rw [h, Nat.testBit_two_pow_self, decide_eq_true hi, decide_eq_true rfl, Bool.and_self]
  · rw [Nat.testBit_two_pow_of_ne (Ne.symm h), decide_eq_false h, Bool.and_false]

theorem getLsbD_setBit_true {w : Nat} (x : BitVec w) {i : Nat} (hi : i < w) (j : Nat) :
    (setBit x i true).getLsbD j = (x.getLsbD j || decide (j = i)) := by
  rw [setBit, if_pos rfl, BitVec.getLsbD_or, getLsbD_ofNat_two_pow hi]

theorem getLsbD_setBit_false {w : Nat} (x : BitVec w) {i : Nat} (hi : i < w) (j : Nat) :
    (setBit x i false).getLsbD j = (x.getLsbD j && !decide (j = i)) := by
  rw [setBit, if_neg Bool.false_ne_true, BitVec.getLsbD_and, BitVec.getLsbD_not, getLsbD_ofNat_two_pow hi]
  cases hx : x.getLsbD j with
  | false => rfl
  | true => rw [decide_eq_true (BitVec.lt_of_getLsbD hx), Bool.true_and]

theorem getLsbD_setBit {w : Nat} (x : BitVec w) {i : Nat} (hi : i < w) (b : Bool) (j : Nat) :
    (setBit x i b).getLsbD j = if j = i then b else x.getLsbD j := by
  by_cases h : j = i
  · rw [if_pos h]
    cases b with
    | false => rw [getLsbD_setBit_false x hi, decide_eq_true h, Bool.not_true, Bool.and_false]
    | true => rw [getLsbD_setBit_true x hi, decide_eq_true h, Bool.or_true]
  · rw [if_neg h]
    cases b with
    | false => rw [getLsbD_setBit_false x hi, decide_eq_false h, Bool.not_false, Bool.and_true]
    | true => rw [getLsbD_setBit_true x hi, decide_eq_false h, Bool.or_false]

/-- Bits put in turn at k, k + 1, …, k + n - 1 stand there, and every other bit is as before. -/
theorem getLsbD_foldl_setBit {w : Nat} (x : BitVec w) (f : Nat → Bool) (k n : Nat) (hn : k + n ≤ w) (j : Nat) :
    ((List.range n).foldl (fun (y : BitVec w) (i : Nat) => setBit y (k + i) (f i)) x).getLsbD j =
      if k ≤ j ∧ j < k + n then f (j - k) else x.getLsbD j := by
  induction n with
  | zero => rw [if_neg (by omega)]; rfl
  | succ n ih =>
    rw [List.range_succ, List.foldl_append, List.foldl_cons, List.foldl_nil, getLsbD_setBit _ (by omega), ih (by omega)]
    by_cases hj : j = k + n
    · rw [if_pos hj, if_pos (by omega), hj, Nat.add_sub_cancel_left]
    · have hrange : (k ≤ j ∧ j < k + n) ↔ (k ≤ j ∧ j < k + (n + 1)) := by omega
      simp only [if_neg hj, hrange]

end Sys2Proof.Machine
end

section
/-! SUPPORT. Writes of translation entries and of the group-view bitmap (R38, R44). -/

namespace Sys2Proof.Machine
open Sys2Proof.Claims

variable {s u : State} {p : DictPath}

theorem xlateEntryWrite_answers {n : Fin 32768} (h : Opens s u p (entryIdx n.val) (entrySub n.val)) (v : W32) {st : Byte}
    (hst : entryStatus u (v &&& entryMask) = st) :
    Answers (.xlateEntryWrite p n v) s
      (if st = stOk then { u with xlate := tset 0 u.xlate n.val (v &&& entryMask) } else u) p st :=
  answers_of_dictRow1 rfl h (by simp only [entryWriteObj, hst])

theorem entryStatus_of_invalid (s : State) {e : W32} (h : e.getLsbD 31 = false) : entryStatus s e = stOk := by
  simp only [entryStatus, entryValid, bitAt_eq_getLsbD, h, Bool.not_false, if_true]

/-- The bitmap with the 32 bits of subindex k + 1 replaced. -/
def withViews (w : BitVec 512) (k : Nat) (v : W32) : BitVec 512 :=
  (List.range 32).foldl (fun (w : BitVec 512) (i : Nat) => setBit w (32 * k + i) (bitAt v i)) w

theorem getLsbD_withViews (w : BitVec 512) {k : Nat} (hk : k < 16) (v : W32) (j : Nat) :
    (withViews w k v).getLsbD j = if j / 32 = k then v.getLsbD (j % 32) else w.getLsbD j := by
  rw [withViews, getLsbD_foldl_setBit w (bitAt v) (32 * k) 32 (by omega)]
  by_cases hj : j / 32 = k
  · rw [if_pos (by omega), if_pos hj, bitAt_eq_getLsbD, show j - 32 * k = j % 32 by omega]
  · rw [if_neg (by omega), if_neg hj]

theorem groupViewWrite_answers {k : Fin 16} (h : Opens s u p 0x2503 (BitVec.ofNat 8 (k.val + 1))) {v : W32} {st : Byte}
    (hst : groupViewStatus u k.val v = st) :
    Answers (.groupViewWrite p k v) s (if st = stOk then { u with groupView := withViews u.groupView k.val v } else u) p st :=
  answers_of_dictRow1 rfl h (by simp only [groupViewObj, hst]; rfl)

/-- A write changes the view bit of a mapped group. -/
def changesMapped (s : State) (k : Nat) (v : W32) : Bool :=
  (List.range 32).any fun i => bitAt v i ≠ bitAt s.groupView (32 * k + i) && groupMapped s (32 * k + i)

theorem changesMapped_iff (s : State) (k : Nat) (v : W32) :
    changesMapped s k v = true ↔
      ∃ i < 32, groupMapped s (32 * k + i) = true ∧ v.getLsbD i ≠ s.groupView.getLsbD (32 * k + i) := by
  simp only [changesMapped, List.any_eq_true, List.mem_range, Bool.and_eq_true, decide_eq_true_eq]
  exact exists_congr fun i => and_congr_right fun _ => and_comm

/-- Where no group of the subindex holds a retired column, a changed bit of a mapped group alone decides the status. -/
theorem groupViewStatus_of_none_retired {k : Nat} (h : ∀ i < 32, groupRetired u (32 * k + i) = false) (v : W32) :
    groupViewStatus u k v = if changesMapped u k v then stMode else stOk := by
  have hret : ((List.range 32).any fun i => bitAt v i && groupRetired u (32 * k + i)) = false :=
    List.any_eq_false.2 fun i hi => by rw [h i (List.mem_range.1 hi), Bool.and_false]; exact Bool.false_ne_true
  rw [groupViewStatus, hret]
  rfl

/-- Settles O7: the entry by its status, the bitmap by the bits that the fold puts (`getLsbD_withViews`). -/
theorem translationWrites : Obligations.TranslationWrites := by
  refine ⟨fun p n v s u ho => ⟨fun hok => ?_, fun hne => ?_, fun hv => ?_⟩,
    fun p k v s u ho hret => ⟨fun hsame => ⟨withViews u.groupView k.val v, ?_, ?_⟩, fun hdiff => ?_⟩⟩
  · exact xlateEntryWrite_answers ho v hok
  · simpa only [if_neg hne] using xlateEntryWrite_answers ho v rfl
  · exact entryStatus_of_invalid u (by rw [BitVec.getLsbD_and, hv, Bool.false_and])
  · have hst : groupViewStatus u k.val v = stOk := by
      rw [groupViewStatus_of_none_retired hret, if_neg]
      rw [changesMapped_iff]
      rintro ⟨i, hi, hmap, hne⟩
      exact hne (hsame i hi hmap)
    exact groupViewWrite_answers ho hst
  · exact fun j _ => getLsbD_withViews u.groupView k.isLt v j
  · have hst : groupViewStatus u k.val v = stMode := by
      rw [groupViewStatus_of_none_retired hret, if_pos ((changesMapped_iff u k.val v).2 hdiff)]
    exact groupViewWrite_answers ho hst

end Sys2Proof.Machine
end

section
/-! SUPPORT. The two views of memory (R35, R36): the place of an address, its inverse, and the group that a place belongs to. -/

namespace Sys2Proof.Machine

/-- The stripe group of a place: its die pair, and its column's place in the stack by eight (R34). -/
def Place.group (x : Place) : Nat := x.die / 2 * 64 + x.col % 512 / 8

/-- The address whose place in the bank-local view is x. -/
def Place.localAddr (x : Place) : Nat :=
  (x.die / 2 * 4096 + x.col % 512 * 8 + x.col / 512) * 2 ^ 24 + (x.row * 2 + x.die % 2) * 2048 + x.byte

/-- The address whose place in the striped view is x. -/
def Place.stripedAddr (x : Place) : Nat :=
  x.group * 2 ^ 30 + ((x.row * 2 + x.die % 2) * 64 + x.col % 8 * 8 + x.col / 512) * 2048 + x.byte

/-- A place that exists: one of 4,096 columns, 16 dies, 4,096 rows and 2,048 bytes. -/
def Place.Exists (x : Place) : Prop := x.col < 4096 ∧ x.die < 16 ∧ x.row < 4096 ∧ x.byte < 2048

/-! The fields of a place in either view, taken apart again. -/

theorem die_div_two (d x : Nat) : (2 * d + x % 2) / 2 = d := by omega

theorem die_mod_two (d x : Nat) : (2 * d + x % 2) % 2 = x % 2 := by omega

theorem homeCol_div (pn : Nat) : homeCol pn / 512 = pn % 8 := by
  simp only [homeCol]
  omega

theorem homeCol_mod (pn : Nat) : homeCol pn % 512 = pn / 8 % 512 := by
  simp only [homeCol]
  omega

/-- Column of stripe m of the group whose number ends in g (R36). -/
def stripeCol (g m : Nat) : Nat := m % 8 * 512 + g * 8 + m / 8

section stripe
variable {g m : Nat} (hg : g < 64) (hm : m < 64)
include hg hm

theorem stripeCol_div : stripeCol g m / 512 = m % 8 := by
  simp only [stripeCol]
  omega

theorem stripeCol_group : stripeCol g m % 512 / 8 = g := by
  rw [stripeCol, Nat.add_assoc, Nat.mul_comm _ 512, Nat.mul_add_mod, Nat.mod_eq_of_lt (by omega)]
  omega

theorem stripeCol_lt : stripeCol g m < 4096 := by
  simp only [stripeCol]
  omega

end stripe

theorem stripeCol_mod (g : Nat) {m : Nat} (hm : m < 64) : stripeCol g m % 8 = m / 8 := by
  simp only [stripeCol]
  omega

theorem placeStriped_eq (pn o : Nat) : placeStriped pn o =
    let a := pn % 64 * 2 ^ 24 + o
    ⟨stripeCol (pn / 64 % 64) (a / 2048 % 64), 2 * homePair pn + a / 2048 / 64 % 2, a / 2048 / 64 / 2, a % 2048⟩ := rfl

theorem page_of_fields {pn : Nat} (h : pn < 2 ^ 15) : homePair pn * 4096 + pn / 8 % 512 * 8 + pn % 8 = pn := by
  simp only [homePair]
  omega

theorem group_of_fields {pn : Nat} (h : pn < 2 ^ 15) : homePair pn * 64 + pn / 64 % 64 = groupOf pn := by
  simp only [homePair, groupOf]
  omega

theorem offset_of_fields (o : Nat) : (o / 2048 / 2 * 2 + o / 2048 % 2) * 2048 + o % 2048 = o := by omega

theorem striped_offset_of_fields (a : Nat) :
    ((a / 2048 / 64 / 2 * 2 + a / 2048 / 64 % 2) * 64 + a / 2048 % 64 / 8 * 8 + a / 2048 % 64 % 8) * 2048 + a % 2048 = a := by
  omega

theorem striped_offset_lt (pn : Nat) {o : Nat} (h : o < 2 ^ 24) : pn % 64 * 2 ^ 24 + o < 2 ^ 30 := by omega

theorem row_lt_of_striped_offset {a : Nat} (h : a < 2 ^ 30) : a / 2048 / 64 / 2 < 4096 := by omega

theorem addr_of_group (pn o : Nat) : groupOf pn * 2 ^ 30 + (pn % 64 * 2 ^ 24 + o) = pn * 2 ^ 24 + o := by
  simp only [groupOf]
  omega

theorem die_lt (pn x : Nat) : 2 * homePair pn + x % 2 < 16 := by
  simp only [homePair]
  omega

theorem stripe_lt (x : Nat) : x % 64 < 64 := Nat.mod_lt x (by decide)

section views
variable {pn o : Nat}

theorem placeLocal_group (hpn : pn < 2 ^ 15) : (placeLocal pn o).group = groupOf pn := by
  simp only [Place.group, placeLocal, die_div_two, homeCol_mod]
  rw [← group_of_fields hpn]
  omega

theorem placeStriped_group (hpn : pn < 2 ^ 15) : (placeStriped pn o).group = groupOf pn := by
  simp only [placeStriped_eq, Place.group, die_div_two]
  rw [stripeCol_group (stripe_lt _) (stripe_lt _), group_of_fields hpn]

theorem placeLocal_exists (ho : o < 2 ^ 24) : (placeLocal pn o).Exists := by
  refine ⟨?_, die_lt pn _, ?_, Nat.mod_lt o (by decide)⟩
  · simp only [placeLocal, homeCol]
    omega
  · simp only [placeLocal]
    omega

theorem placeStriped_exists (ho : o < 2 ^ 24) : (placeStriped pn o).Exists :=
  ⟨stripeCol_lt (stripe_lt _) (stripe_lt _), die_lt pn _, row_lt_of_striped_offset (striped_offset_lt pn ho),
    Nat.mod_lt _ (by decide)⟩

theorem localAddr_placeLocal (hpn : pn < 2 ^ 15) : (placeLocal pn o).localAddr = pn * 2 ^ 24 + o := by
  simp only [Place.localAddr, placeLocal, die_div_two, die_mod_two, homeCol_div, homeCol_mod]
  rw [page_of_fields hpn, Nat.add_assoc, offset_of_fields]

theorem stripedAddr_placeStriped (hpn : pn < 2 ^ 15) : (placeStriped pn o).stripedAddr = pn * 2 ^ 24 + o := by
  rw [Place.stripedAddr, placeStriped_group hpn, placeStriped_eq, ← addr_of_group pn o]
  simp only [die_mod_two, stripeCol_div (stripe_lt _) (stripe_lt _), stripeCol_mod _ (stripe_lt _)]
  rw [Nat.add_assoc, striped_offset_of_fields]

end views

variable (s : State) {pa pb : Nat}

theorem placeOf_of_local (h : striped s (pa / 2 ^ 24) = false) : placeOf s pa = placeLocal (pa / 2 ^ 24) (pa % 2 ^ 24) := by
  simp only [placeOf, h, Bool.false_eq_true, if_false]

theorem placeOf_of_striped (h : striped s (pa / 2 ^ 24) = true) : placeOf s pa = placeStriped (pa / 2 ^ 24) (pa % 2 ^ 24) := by
  simp only [placeOf, h, if_true]

theorem dramPage_lt (h : pa < 2 ^ 39) : pa / 2 ^ 24 < 2 ^ 15 := by omega

theorem pageOffset_lt : pa % 2 ^ 24 < 2 ^ 24 := Nat.mod_lt _ (by decide)

theorem placeOf_exists (pa : Nat) : (placeOf s pa).Exists := by
  cases hv : striped s (pa / 2 ^ 24) with
  | false => rw [placeOf_of_local s hv]; exact placeLocal_exists pageOffset_lt
  | true => rw [placeOf_of_striped s hv]; exact placeStriped_exists pageOffset_lt

theorem placeOf_group (h : pa < 2 ^ 39) : (placeOf s pa).group = groupOf (pa / 2 ^ 24) := by
  cases hv : striped s (pa / 2 ^ 24) with
  | false => rw [placeOf_of_local s hv, placeLocal_group (dramPage_lt h)]
  | true => rw [placeOf_of_striped s hv, placeStriped_group (dramPage_lt h)]

/-! The rules' shifts and masks. -/

theorem and_1_eq_mod (x : Nat) : x &&& 1 = x % 2 := Nat.and_two_pow_sub_one_eq_mod x 1
theorem and_7_eq_mod (x : Nat) : x &&& 7 = x % 8 := Nat.and_two_pow_sub_one_eq_mod x 3
theorem and_0x3F_eq_mod (x : Nat) : x &&& 0x3F = x % 64 := Nat.and_two_pow_sub_one_eq_mod x 6
theorem and_0x1FF_eq_mod (x : Nat) : x &&& 0x1FF = x % 512 := Nat.and_two_pow_sub_one_eq_mod x 9
theorem and_0x7FF_eq_mod (x : Nat) : x &&& 0x7FF = x % 2048 := Nat.and_two_pow_sub_one_eq_mod x 11

theorem placeLocal_bits (pn o : Nat) : placeLocal pn o =
    let q := o >>> 11
    ⟨(pn &&& 7) * 512 + ((pn >>> 3) &&& 0x1FF), 2 * ((pn >>> 12) &&& 7) + (q &&& 1), q >>> 1, o &&& 0x7FF⟩ := by
  simp only [placeLocal, homeCol, homePair, and_1_eq_mod, and_7_eq_mod, and_0x1FF_eq_mod, and_0x7FF_eq_mod,
    Nat.shiftRight_eq_div_pow, Nat.reducePow]

theorem placeStriped_bits (pn o : Nat) : placeStriped pn o =
    let a := (pn &&& 0x3F) * 2 ^ 24 + o
    let r := a >>> 11
    let m := r &&& 0x3F
    let t := r >>> 6
    ⟨(m &&& 7) * 512 + (((pn >>> 6) &&& 0x3F) * 8 + (m >>> 3)), 2 * ((pn >>> 12) &&& 7) + (t &&& 1), t >>> 1, a &&& 0x7FF⟩ := by
  simp only [placeStriped, homePair, and_1_eq_mod, and_7_eq_mod, and_0x3F_eq_mod, and_0x7FF_eq_mod,
    Nat.shiftRight_eq_div_pow, Nat.reducePow, Nat.add_assoc]

/-- The address of a place under the group views: a place shows its own group, and so which view put a byte there. -/
def addrOf (s : State) (x : Place) : Nat := if bitAt s.groupView x.group then x.stripedAddr else x.localAddr

theorem addrOf_placeOf (h : pa < 2 ^ 39) : addrOf s (placeOf s pa) = pa := by
  have hview : bitAt s.groupView (placeOf s pa).group = striped s (pa / 2 ^ 24) := by rw [placeOf_group s h, striped]
  rw [addrOf, hview]
  cases hv : striped s (pa / 2 ^ 24) with
  | false =>
    rw [placeOf_of_local s hv, if_neg (by decide), localAddr_placeLocal (dramPage_lt h), Nat.div_add_mod']
  | true =>
    rw [placeOf_of_striped s hv, if_pos rfl, stripedAddr_placeStriped (dramPage_lt h), Nat.div_add_mod']

theorem placeOf_injective (ha : pa < 2 ^ 39) (hb : pb < 2 ^ 39) (h : placeOf s pa = placeOf s pb) : pa = pb := by
  rw [← addrOf_placeOf s ha, h, addrOf_placeOf s hb]

/-- Settles O11: the shifts and masks of R35 and R36 are the model's quotients and remainders; a byte's address is recovered from its
place (`addrOf_placeOf`), since a place shows its group and so its view. -/
theorem everyDramByteHasItsOwnPlace : Obligations.EveryDramByteHasItsOwnPlace := by
  intro s pa hpa pn o d
  have hpn : pn = pa / 2 ^ 24 := Nat.shiftRight_eq_div_pow pa 24
  have ho : o = pa % 2 ^ 24 := Nat.and_two_pow_sub_one_eq_mod pa 24
  have hgroup : s.groupView.getLsbD (pn >>> 6) = striped s (pa / 2 ^ 24) := by
    rw [hpn, Nat.shiftRight_eq_div_pow]; rfl
  refine ⟨fun hv => ?_, fun hv => ?_, placeOf_exists s pa, fun pb hpb => placeOf_injective s hpa hpb⟩
  · rw [placeOf_of_local s (hgroup ▸ hv), ← hpn, ← ho, placeLocal_bits]
  · rw [placeOf_of_striped s (hgroup ▸ hv), ← hpn, ← ho, placeStriped_bits]

end Sys2Proof.Machine
end

section
/-! SUPPORT. The fault log's record, and the requests that a drain waits for (R47, R428). -/

namespace Sys2Proof.Machine
open Sys2Proof.Claims

/-! ## A record changes the log alone -/

theorem logPut_eq (s : State) (r : FaultRec) : logPut s r = { s with log := (logPut s r).log } := by
  unfold logPut
  by_cases h : logMerges s r = true
  · rw [if_pos h]
    cases s.log.recs <;> rfl
  · rw [if_neg h]

theorem logRec_eq (s : State) (r : FaultRec) : logRec s r = { s with log := (logRec s r).log } := by
  unfold logRec
  by_cases h : headframeOn s = true
  · simpa only [if_pos h] using logPut_eq s r
  · simp only [if_neg h]

/-- The first record of an empty log stands as it was given, with its number and time. -/
theorem logRec_recs_of_empty {s : State} (hon : headframeOn s = true) (hempty : s.log.recs = []) (r : FaultRec) :
    (logRec s r).log.recs = [{ r with fseq := s.log.count, whenUs := BitVec.ofNat 64 (nowUs s), rpt := 0 }] := by
  have hmerge : logMerges s r = false := by simp only [logMerges, hempty]
  simp only [logRec, if_pos hon, logPut, hmerge, Bool.false_eq_true, if_false, hempty]
  rfl

/-! ## The oldest of some requests -/

theorem oldestReq_cons_of_none {rs : List OpenReq} (h : oldestReq rs = none) (a : OpenReq) :
    oldestReq (a :: rs) = some a := by
  rw [oldestReq, h]

theorem oldestReq_cons_of_some {rs : List OpenReq} {q : OpenReq} (h : oldestReq rs = some q) (a : OpenReq) :
    oldestReq (a :: rs) = some (if a.req ≤ q.req then a else q) := by
  rw [oldestReq, h]
  exact (apply_ite some _ _ _).symm

theorem oldestReq_ne_none : ∀ {rs : List OpenReq}, rs ≠ [] → oldestReq rs ≠ none
  | [], h => absurd rfl h
  | a :: rs, _ => by
    cases hq : oldestReq rs with
    | none => rw [oldestReq_cons_of_none hq]; exact Option.some_ne_none _
    | some q => rw [oldestReq_cons_of_some hq]; exact Option.some_ne_none _

/-- The oldest is one of them, and no number is below its own. -/
theorem oldestReq_spec {rs : List OpenReq} {r : OpenReq} (h : oldestReq rs = some r) :
    r ∈ rs ∧ ∀ x ∈ rs, r.req ≤ x.req := by
  induction rs generalizing r with
  | nil => exact absurd h.symm (Option.some_ne_none r)
  | cons a rs ih =>
    cases hq : oldestReq rs with
    | none =>
      obtain rfl : rs = [] := Decidable.byContradiction fun hne => oldestReq_ne_none hne hq
      obtain rfl : a = r := Option.some.inj ((oldestReq_cons_of_none hq a).symm.trans h)
      exact ⟨List.mem_cons_self, List.forall_mem_singleton.2 (Nat.le_refl _)⟩
    | some q =>
      obtain ⟨hmem, hmin⟩ := ih hq
      have hr : (if a.req ≤ q.req then a else q) = r := Option.some.inj ((oldestReq_cons_of_some hq a).symm.trans h)
      by_cases hle : a.req ≤ q.req
      · obtain rfl : a = r := (if_pos hle).symm.trans hr
        exact ⟨List.mem_cons_self, List.forall_mem_cons.2 ⟨Nat.le_refl _, fun x hx => Nat.le_trans hle (hmin x hx)⟩⟩
      · obtain rfl : q = r := (if_neg hle).symm.trans hr
        exact ⟨List.mem_cons_of_mem a hmem, List.forall_mem_cons.2 ⟨Nat.le_of_lt (Nat.lt_of_not_le hle), hmin⟩⟩

/-! ## The drain -/

variable {s u : State} {p : DictPath} {d : Drain}

theorem logDrain_of_none (h : oldestReq (drainOpen s d) = none) : logDrain s d = logObject s stTimeout 0x2501 1 := by
  simp only [logDrain, h]

theorem logDrain_of_some {r : OpenReq} (h : oldestReq (drainOpen s d) = some r) :
    ∃ unit, logDrain s d = logRec s { event := 0x01, status := stTimeout, unit := unit, src := r.code, ctx := r.ctx,
                                      info := BitVec.ofNat 64 r.addr } := by
  simp only [logDrain, h]
  exact ⟨_, rfl⟩

theorem logDrain_eq (s : State) (d : Drain) : logDrain s d = { s with log := (logDrain s d).log } := by
  cases h : oldestReq (drainOpen s d) with
  | none => rw [logDrain_of_none h]; exact logRec_eq s _
  | some r =>
    obtain ⟨unit, hlog⟩ := logDrain_of_some h
    rw [hlog]
    exact logRec_eq s _

/-- The requests go on: none of them is looked up in the log. -/
theorem drainOpen_logDrain (s : State) (d : Drain) : drainOpen (logDrain s d) d = drainOpen s d := by
  rw [logDrain_eq]
  rfl

theorem logDrain_records_oldest (hopen : drainOpen s d ≠ []) (hon : headframeOn s = true) (hempty : s.log.recs = []) :
    ∃ r ∈ drainOpen s d, (∀ x ∈ drainOpen s d, r.req ≤ x.req) ∧ ∃ l, (logDrain s d).log.recs = [l] ∧ l.event = 1 ∧
      l.status = stTimeout ∧ l.src = r.code ∧ l.ctx = r.ctx ∧ l.info = BitVec.ofNat 64 r.addr := by
  obtain ⟨r, hr⟩ := Option.ne_none_iff_exists'.1 (oldestReq_ne_none hopen)
  obtain ⟨hmem, hmin⟩ := oldestReq_spec hr
  obtain ⟨unit, hlog⟩ := logDrain_of_some hr
  refine ⟨r, hmem, hmin, ?_⟩
  rw [hlog, logRec_recs_of_empty hon hempty]
  exact ⟨_, rfl, rfl, rfl, rfl, rfl, rfl⟩

theorem exec_xlateDrain (h : Opens s u p 0x2501 1) (v : Byte) :
    exec (.xlateDrain p v) s = .next (dictFinish p 0x2501 1 (drainWrite u p v.toNat)) :=
  congrArg Host.Outcome.next (dictRow_of_opens h _ _)

theorem xlateDrain_answers (h : Opens s u p 0x2501 1) {v : Byte} {t : State} {st : Byte}
    (hw : drainWrite u p v.toNat = (t, some st)) : Answers (.xlateDrain p v) s t p st := by
  rw [Answers, exec_xlateDrain h, hw, dictFinish]

theorem xlateDrain_holds (h : Opens s u p 0x2501 1) {v : Byte} {t : State}
    (hw : drainWrite u p v.toNat = (t, none)) : Gives (.xlateDrain p v) s (dictHold t p 0x2501 1) := by
  rw [Gives, exec_xlateDrain h, hw, dictFinish]

/-- The three values of a write while no drain waits. -/
theorem drainWrite_of_idle (h : u.drain = none) (p : DictPath) (n : Nat) :
    drainWrite u p n = if n = 0 then (u, some stOk) else if n ≠ 1 then (u, some stOob)
      else ({ u with drain := some { path := p, since := u.now, mark := u.reqNext } }, none) := by
  simp only [drainWrite, h, Option.isSome_none, Bool.false_eq_true, if_false]

theorem drainConfirmed_eq (h : s.drain = some d) :
    drainConfirmed s = if drainOpen s d = [] then dictRelease { s with drain := none } d.path 0x2501 1 stOk else s := by
  simp only [drainConfirmed, h]

theorem drainTimeout_eq (h : s.drain = some d) (hlate : d.since + 8000000 ≤ s.now) (hopen : drainOpen s d ≠ []) :
    drainTimeout s = dictRelease (logDrain { s with drain := none } d) d.path 0x2501 1 stTimeout := by
  have hend : (decide (d.since + 10 * msCycles ≤ s.now) && drainOpen s d ≠ []) = true :=
    Bool.and_eq_true_iff.2 ⟨decide_eq_true hlate, decide_eq_true hopen⟩
  simp only [drainTimeout, h]
  exact if_pos hend

/-- Settles O9: the write by its value, the two ends of a drain by their conditions, the record by `oldestReq_spec`. -/
theorem translationDrain : Obligations.TranslationDrain := by
  intro p v s u
  refine ⟨fun ho hidle => ⟨?_, ?_, fun hv => ?_⟩, fun d hd hdone => ?_, fun d hd hlate hopen => ?_, fun d hd hopen => ?_,
    drainOpen_logDrain s, fun d hopen hon hempty => logDrain_records_oldest hopen hon hempty⟩
  · rintro rfl
    exact xlateDrain_holds ho (drainWrite_of_idle hidle p 1)
  · rintro rfl
    exact xlateDrain_answers ho (drainWrite_of_idle hidle p 0)
  · refine xlateDrain_answers ho ?_
    rw [drainWrite_of_idle hidle, if_neg (by omega), if_pos (by omega)]
  · exact congrArg Host.Outcome.next ((drainConfirmed_eq hd).trans (if_pos hdone))
  · exact congrArg Host.Outcome.next (drainTimeout_eq hd hlate hopen)
  · exact congrArg Host.Outcome.next ((drainConfirmed_eq hd).trans (if_neg hopen))

end Sys2Proof.Machine
end

section
/-! SUPPORT. Row steps of PCOPY, PINIT and PLOGIC (R106): what one row leaves, and how several rows follow one another. -/

namespace Sys2Proof.Machine
open Sys2Proof.Claims

variable (s : State) (g : Nat) (o : PickOp) (i : Nat)

/-! ## What a row step keeps of its operation -/

theorem rowRead_op (pa : Nat) :
    (rowRead s g o pa i).2.1 = (nextStep (dutyOf s (stackOf g)) o (granDieRow pa i).1).2 := by
  simp only [rowRead]

@[simp] theorem rowRead_dstPa (pa : Nat) : (rowRead s g o pa i).2.1.dstPa = o.dstPa := by
  simp only [rowRead_op, nextStep]

@[simp] theorem rowRead_auxPa (pa : Nat) : (rowRead s g o pa i).2.1.auxPa = o.auxPa := by
  simp only [rowRead_op, nextStep]

@[simp] theorem poisonStatus_rows (bad : Bool) : (poisonStatus o bad).rows = o.rows := by
  cases bad <;> rfl

/-! ## One row -/

/-- A row once its bytes `w` are written: row i is behind the operation, and POISON sticks to it. -/
def rowPast (w : State × PickOp) (i : Nat) (bad : Bool) : State × PickOp := (w.1, poisonStatus { w.2 with rows := i + 1 } bad)

theorem copyRow_eq : copyRow g (s, o) i =
    let a := rowRead s g o o.srcPa i
    rowPast (rowWrite a.1 g a.2.1 o.dstPa i a.2.2) i (anyPoison a.2.2) := by
  simp only [copyRow, rowRead_dstPa, rowPast]

theorem initRow_eq : initRow g (s, o) i =
    rowPast (rowWrite s g o o.dstPa i (cleanBytes ((List.replicate 256 (leBytes 8 (recImm o.record))).flatten))) i false := rfl

/-- The functions of two operands read both rows. -/
theorem logicRow_of_lt (h : recFn o.record < 4) : logicRow g (s, o) i =
    let a := rowRead s g o o.srcPa i
    let b := rowRead a.1 g a.2.1 o.auxPa i
    let two := (a.2.2.zip b.2.2).map fun x => (logicByte (recFn o.record) x.1.1 x.2.1, x.1.2 || x.2.2)
    rowPast (rowWrite b.1 g b.2.1 o.dstPa i two) i (anyPoison two) := by
  simp only [logicRow, if_neg (Nat.ne_of_lt h), rowRead_auxPa, rowRead_dstPa, rowPast]

/-- NOT pairs each byte of operand A with itself, and so keeps its poison. -/
theorem map_not_zip_self (bs : List PByte) :
    ((bs.zip bs).map fun x => (logicByte 4 x.1.1 x.2.1, x.1.2 || x.2.2)) = bs.map fun x => (~~~ x.1, x.2) := by
  rw [List.map_zip_eq_zipWith, List.zipWith_self]
  simp only [Function.curry, Bool.or_self]
  rfl

theorem anyPoison_map_not (bs : List PByte) : anyPoison (bs.map fun x => (~~~ x.1, x.2)) = anyPoison bs := by
  simp only [anyPoison, List.any_map, Function.comp_def]

theorem logicRow_of_eq (h : recFn o.record = 4) : logicRow g (s, o) i =
    let a := rowRead s g o o.srcPa i
    rowPast (rowWrite a.1 g a.2.1 o.dstPa i (a.2.2.map fun x => (~~~ x.1, x.2))) i (anyPoison a.2.2) := by
  simp only [logicRow, h, if_true, map_not_zip_self, anyPoison_map_not, rowRead_dstPa, rowPast]

/-! ## Several rows -/

variable {s g o i} {op : Nat} {f : Nat → State × PickOp → Nat → State × PickOp}

/-- The rows of a running operation that has them all ahead, one after another. -/
theorem runRows_of_running {n : Nat} (hrun : runningOp (claimWaitEnd s g) g i op = some o) (hn : n + o.rows ≤ recSrcN o.record) :
    runRows s g i op n f =
      let e := ((List.range n).map (o.rows + ·)).foldl (f g) (claimWaitEnd s g, o)
      putOp e.1 g { e.2 with done := decide (e.2.rows = recSrcN o.record) } := by
  have hmin : min n (recSrcN o.record - o.rows) = n := Nat.min_eq_left (Nat.le_sub_of_add_le hn)
  simp only [runRows, portOp, hrun, Option.map_some, hmin]

/-- One row of a running operation, given what the row step makes of it. -/
theorem runRows_one {w : State × PickOp} {bad : Bool} (hrun : runningOp (claimWaitEnd s g) g i op = some o)
    (hrow : o.rows < recSrcN o.record) (hf : f g (claimWaitEnd s g, o) o.rows = rowPast w o.rows bad) :
    runRows s g i op 1 f =
      putOp w.1 g { poisonStatus { w.2 with rows := o.rows + 1 } bad with done := decide (o.rows + 1 = recSrcN o.record) } := by
  have hfold : ((List.range 1).map (o.rows + ·)).foldl (f g) (claimWaitEnd s g, o) = rowPast w o.rows bad := hf
  rw [runRows_of_running hrun (by omega)]
  simp only [hfold, rowPast, poisonStatus_rows]

/-- Settles O18: each command's row is `rowPast` of its read and write; several rows are the fold of `runRows_of_running`. -/
theorem pickRowOperations : Obligations.PickRowOperations := by
  refine ⟨fun g i s o hrow => ⟨fun hrun => ?_, fun hrun => ?_, fun hrun hfn => ?_, fun hrun hfn => ?_, fun x y => ?_⟩,
    fun s g i op n f o => runRows_of_running⟩
  · exact congrArg Host.Outcome.next (runRows_one hrun hrow (copyRow_eq _ _ _ _))
  · exact congrArg Host.Outcome.next (runRows_one hrun hrow (initRow_eq _ _ _ _))
  · exact congrArg Host.Outcome.next (runRows_one hrun hrow (logicRow_of_lt _ _ _ _ hfn))
  · exact congrArg Host.Outcome.next (runRows_one hrun hrow (logicRow_of_eq _ _ _ _ hfn))
  · exact ⟨rfl, rfl, rfl, rfl, rfl⟩

end Sys2Proof.Machine
end

section
/-! SUPPORT. The face sequencer at a control descriptor: its turn, its way on and its failure (R160 to R162, R167, R169). -/

namespace Sys2Proof.Machine
open Sys2Proof.Claims

/-! ## Tables and registers -/

/-- Of two writes at an index the second stands, on a table in canonical form. -/
theorem tset_tset_same {α : Type} [DecidableEq α] {d : α} {t : Tab α} (hw : tabWf d t = true) (i : Nat) (v w : α) :
    tset d (tset d t i v) i w = tset d t i w := by
  induction t with
  | nil => by_cases hv : v = d <;> simp [tset, hv]
  | cons p t ih =>
    obtain ⟨j, x⟩ := p
    obtain ⟨-, hbelow, hwt⟩ := tabWf_cons.1 hw
    obtain hij | rfl | hji := Nat.lt_trichotomy i j
    · by_cases hv : v = d <;> simp [tset, hij, hv]
    · by_cases hv : v = d
      · have front : tset d t i w = if w = d then t else (i, w) :: t := by
          cases t with
          | nil => rfl
          | cons q t => simp only [tset, if_pos (hbelow q (List.mem_cons_self ..))]
        simp [tset, hv, front]
      · simp [tset, hv]
    · simp [tset, Nat.lt_asymm hji, Nat.ne_of_gt hji, ih hwt]

theorem State.setFace_setFace {s : State} (h : tabWf {} s.faces = true) (f : Nat) (c c' : Face) :
    (s.setFace f c).setFace f c' = s.setFace f c' := by
  simp only [State.setFace, tset_tset_same h]

/-- Scalar registers after a write: the named one holds the value, X0 reads 0 all the same. -/
theorem xreg_setX {r : Tab W32} (h : tabWf 0 r = true) (x y : Nat) (v : W32) :
    xreg (setX r x v) y = if y = x ∧ y ≠ 0 then v else xreg r y := by
  by_cases hx : x = 0
  · have hne : ¬ (y = x ∧ y ≠ 0) := fun ⟨hy, h0⟩ => h0 (hy.trans hx)
    rw [setX, if_pos hx, if_neg hne]
  · rw [setX, if_neg hx]
    by_cases hy : y = x
    · subst hy
      rw [if_pos ⟨rfl, hx⟩, xreg, if_neg hx, tget_tset_same h]
    · rw [if_neg fun e => hy e.1]
      simp only [xreg, tget_tset_ne r v hy]

/-! ## The running task of a face -/

theorem issuing_iff {t : FaceTask} {now : Nat} :
    issuing t now = true ↔ t.wait = .none ∧ t.fail = none ∧ t.ending = false ∧ t.seqAt ≤ now := by
  simp only [issuing, Bool.and_eq_true, beq_iff_eq, Option.isNone_iff_eq_none, Bool.not_eq_true', decide_eq_true_eq, and_assoc]

theorem serialOk_iff {t : FaceTask} {d : BitVec 256} : serialOk t d = true ↔ (descSerial d = true → t.ops = []) := by
  cases hd : descSerial d <;> simp [serialOk, hd]

theorem modTask_of_task {s : State} {f : Nat} {t : FaceTask} (h : (s.face f).task = some t) (g : FaceTask → FaceTask) :
    modTask s f g = s.setFace f { s.face f with task := some (g t) } := by
  simp only [modTask, State.modFace, h, Option.map_some]

/-- Going on after a change of the face that keeps its task: both changes are one. -/
theorem goTo_setFace {s : State} (h : tabWf {} s.faces = true) {f : Nat} {c : Face} {t : FaceTask} (ht : c.task = some t)
    (pc cycles : Nat) :
    goTo (s.setFace f c) f pc cycles = s.setFace f { c with task := some { t with pc := pc, seqAt := s.now + cycles } } := by
  have hface := State.face_setFace_same h f c
  rw [goTo, modTask_of_task (hface ▸ ht), hface, State.setFace_setFace h, State.setFace_now]

/-! ## A control descriptor in its turn -/

theorem isEngine_of_isControl {opc : Nat} (h : isControl opc = true) : isEngine opc = false := by
  simp only [isControl, Bool.and_eq_true, decide_eq_true_eq] at h
  obtain ⟨-, hle⟩ := h
  have above : ∀ x ∈ [opcMma, opcMxv, opcMstore, opcVchain, opcVhred, opcPlanesum, opcHoist], 9 < x := by decide
  exact Bool.eq_false_iff.2 fun he => absurd (above opc (List.contains_iff_mem.1 he)) (Nat.not_lt.2 hle)

/-- Nothing enters the scoreboard while the sequencer may not issue, or stands at a control descriptor. -/
theorem seqEnter_eq_self {s : State} {f : Nat} {t : FaceTask} (ht : (s.face f).task = some t) (hw : t.wait = .none)
    (h : issuing t s.now = true → isControl (descOpc (current (s.face f) t)) = true) (n : Nat) : seqEnter f n s = s := by
  cases n with
  | zero => rfl
  | succ n =>
    rw [seqEnter]
    simp only [ht, hw]
    cases hi : issuing t s.now with
    | false => rfl
    | true => simp only [h hi, isEngine_of_isControl (h hi), Bool.not_true, Bool.false_eq_true, if_false, if_true]

theorem entered_eq_self {s : State} {f : Nat} {t : FaceTask} (ht : (s.face f).task = some t) (hw : t.wait = .none)
    (h : issuing t s.now = true → isControl (descOpc (current (s.face f) t)) = true) : entered s f = s :=
  seqEnter_eq_self ht hw h 17

section turn
variable {s : State} {f : FaceId} {t : FaceTask} {d : BitVec 256} {opc : Nat} (h : Turn s f t d opc)
include h

theorem entered_of_turn (hc : isControl opc = true) : entered s f.val = s := by
  obtain ⟨ht, hd, ho, hi, -⟩ := h
  exact entered_eq_self ht (issuing_iff.1 hi).1 fun _ => by rw [hd, ho, hc]

theorem controlAt_of_turn : controlAt s f.val opc = some (t, d) := by
  obtain ⟨ht, hd, ho, hi, hserial⟩ := h
  simp only [controlAt, ht, hd, ho, hi, serialOk_iff.2 hserial, beq_self_eq_true, Bool.and_self, if_true]

/-- A control descriptor that fails marks its task with the status, its tag and its place in issue order. -/
theorem controlFail_of_turn (st : Byte) :
    controlFail s f.val d st = { s with reqNext := s.reqNext + 1 }.setFace f.val
      { s.face f.val with task := some { t with fail := some (s.reqNext, st, descTag d) } } := by
  obtain ⟨ht, -, -, hi, -⟩ := h
  obtain ⟨hw, hf, -, -⟩ := issuing_iff.1 hi
  have ht' : (({ s with reqNext := s.reqNext + 1 } : State).face f.val).task = some t := ht
  simp only [controlFail, taskFail, ht', Option.any_some, hw, FaceWait.waits, Bool.false_eq_true, if_false,
    modTask_of_task ht', hf]
  rfl

theorem face_controlFail_of_turn (hwf : tabWf {} s.faces = true) (st : Byte) :
    (controlFail s f.val d st).face f.val =
      { s.face f.val with task := some { t with fail := some (s.reqNext, st, descTag d) } } := by
  rw [controlFail_of_turn h]
  exact State.face_setFace_same (s := { s with reqNext := s.reqNext + 1 }) hwf f.val _

theorem tabWf_controlFail_of_turn (hwf : tabWf ({} : Face) s.faces = true) (st : Byte) :
    tabWf ({} : Face) (controlFail s f.val d st).faces = true := by
  rw [controlFail_of_turn h]
  exact tabWf_tset hwf f.val _

end turn

/-! ## SETX and SETVL -/

/-- What SETX writes, by its `cond` (R162). -/
theorem setx_of_turn {s : State} {f : FaceId} {t : FaceTask} {d : BitVec 256} {v : W32} (hwf : tabWf {} s.faces = true)
    (h : Turn s f t d opcSetx) (ha : xFree t (ctlXa d) = true) (hd : xFree t (ctlXd d) = true)
    (hv : let a := xreg (s.face f.val).xregs (ctlXa d)
      ctlCond d = 0 ∧ v = a + ctlImm d ∨ ctlCond d = 1 ∧ v = a * ctlImm d ∨ ctlCond d = 2 ∧ v = a <<< ((ctlImm d).toNat % 32)) :
    setx s f.val = s.setFace f.val { s.face f.val with
      xregs := setX (s.face f.val).xregs (ctlXd d) v, task := some { t with pc := t.pc + 1, seqAt := s.now + 1 } } := by
  simp only [setx, entered_of_turn h rfl, controlAt_of_turn h, ha, hd, Bool.and_self, Bool.not_true, Bool.false_eq_true, if_false]
  rw [← goTo_setFace hwf (c := { s.face f.val with xregs := setX (s.face f.val).xregs (ctlXd d) v }) h.1]
  obtain ⟨hc, rfl⟩ | ⟨hc, rfl⟩ | ⟨hc, rfl⟩ := hv
  · rw [if_pos hc]
  · rw [if_neg (by omega), if_pos hc]
  · rw [if_neg (by omega), if_neg (by omega), if_pos hc]

/-- What SETVL does with the length that it computes (R162). -/
theorem setvl_of_turn {s : State} {f : FaceId} {t : FaceTask} {d : BitVec 256} (hwf : tabWf {} s.faces = true)
    (h : Turn s f t d opcSetvl) (ha : xFree t (ctlXa d) = true) :
    setvl s f.val =
      let v := (xreg (s.face f.val).xregs (ctlXa d) + ctlImm d).toNat
      if v = 0 ∨ 64 < v then controlFail s f.val d stOob
      else s.setFace f.val { s.face f.val with vl := v, task := some { t with pc := t.pc + 1, seqAt := s.now + 1 } } := by
  simp only [setvl, entered_of_turn h rfl, controlAt_of_turn h, ha, Bool.not_true, Bool.false_eq_true, if_false,
    Bool.or_eq_true, decide_eq_true_eq, State.modFace]
  exact ite_congr rfl (fun _ => rfl) fun _ => goTo_setFace hwf (t := t) (by exact h.1) _ _

/-! ## The end of a task -/

@[simp] theorem putStepOp_faces (s : State) (q : Nat) (o : StepOp) : (putStepOp s q o).faces = s.faces := by
  unfold putStepOp
  split <;> rfl

@[simp] theorem stepOpDone_faces (s : State) (q seq : Nat) (st : Byte) (assay : W64) :
    (stepOpDone s q seq st assay).faces = s.faces := by
  unfold stepOpDone
  split
  · rfl
  · split
    · rfl
    · exact putStepOp_faces ..

/-- Reporting a member's end to the foreman leaves the faces alone. -/
@[simp] theorem taskMemberDone_faces (s : State) (q seq l : Nat) (st : Byte) (assay : W64) :
    (taskMemberDone s q seq l st assay).faces = s.faces := by
  unfold taskMemberDone
  split
  · rfl
  · split
    · rfl
    · dsimp only
      split
      · rw [stepOpDone_faces, putStepOp_faces]
      · exact putStepOp_faces ..

/-- A task that failed and has nothing left in the scoreboard completes with the failure's status and tag (R169). -/
theorem taskCompletion_of_failed {s : State} {f uid : Nat} {t : FaceTask} {st : Byte} {tag : W16}
    (ht : (s.face f).task = some t) (hw : t.wait = .none) (hf : t.fail = some (uid, st, tag)) (hops : t.ops = []) :
    taskCompletion s f = taskMemberDone (s.setFace f { countTask (s.face f) st (some tag) with task := none })
      t.q t.seq (faceL s f) st t.assay := by
  have hidle : issuing t s.now ≠ true := fun hi => by
    obtain ⟨-, hnone, -, -⟩ := issuing_iff.1 hi
    exact nomatch hf.symm.trans hnone
  simp only [taskCompletion, entered_eq_self ht hw fun hi => absurd hi hidle, ht, hf, hops, Option.isSome_some, Bool.or_true,
    decide_true, Bool.and_self, if_true]

/-- The face after such a completion. -/
theorem face_taskCompletion_of_failed {s : State} {f uid : Nat} {t : FaceTask} {st : Byte} {tag : W16}
    (hwf : tabWf {} s.faces = true) (ht : (s.face f).task = some t) (hw : t.wait = .none)
    (hf : t.fail = some (uid, st, tag)) (hops : t.ops = []) :
    (taskCompletion s f).face f = { countTask (s.face f) st (some tag) with task := none } := by
  rw [taskCompletion_of_failed ht hw hf hops, State.face, taskMemberDone_faces]
  exact State.face_setFace_same hwf f _

/-- Settles O31: SETX is `setx_of_turn` with the register law; SETVL's refused length fails the task, which completes with OOB. -/
theorem setxAndSetvlFollowTheirRule : Obligations.SetxAndSetvlFollowTheirRule := by
  intro s f t d hwf hxs
  refine ⟨fun h ha hd v hv => ⟨_, congrArg Host.Outcome.next (setx_of_turn hwf h ha hd hv), fun x _ => xreg_setX hxs _ x v⟩,
    fun h ha => ⟨fun hlow hhigh => ?_, fun hbad => ?_⟩⟩
  · have hgood := not_or.2 ⟨Nat.ne_of_gt hlow, Nat.not_lt.2 hhigh⟩
    exact congrArg Host.Outcome.next ((setvl_of_turn hwf h ha).trans (if_neg hgood))
  · have hface := face_controlFail_of_turn h hwf stOob
    refine ⟨controlFail s f.val d stOob, congrArg Host.Outcome.next ((setvl_of_turn hwf h ha).trans (if_pos hbad)),
      by rw [hface], fun hops => ⟨_, rfl, ?_⟩⟩
    have ⟨_, _, _, hi, _⟩ := h
    have hend := face_taskCompletion_of_failed (tabWf_controlFail_of_turn h hwf stOob) (congrArg Face.task hface)
      (issuing_iff.1 hi).1 rfl hops
    rw [hend, hface]
    exact ⟨rfl, rfl, rfl⟩

end Sys2Proof.Machine
end

section
/-! SUPPORT. Every command goes on, and keeps the queue and the canonical form of memory (`Kept`). -/

namespace Sys2Proof.Machine

/-- A command on a state with canonical memory: it goes on, and keeps both the queue and the form of memory. -/
theorem exec_kept {qp : List Instr} {s : State} (h : Kept qp s) (c : Instr) : ∃ t, exec c s = .next t ∧ Kept qp t := by
  cases c with
  | registerWrite => exact ⟨_, rfl, registerWrite_kept _ _ _ _ h⟩
  | xlateEntryWrite => exact ⟨_, rfl, dictRow1_kept _ _ _ _ _ h fun _ => entryWriteObj_kept _ _⟩
  | groupViewWrite => exact ⟨_, rfl, dictRow1_kept _ _ _ _ _ h fun _ => groupViewObj_kept _ _⟩
  | contextWrite => exact ⟨_, rfl, dictRow1_kept _ _ _ _ _ h fun _ => contextObj_kept _ _ _⟩
  | xlateDrain => exact ⟨_, rfl, dictRow_kept _ _ _ _ _ h fun _ => drainWrite_kept _ _⟩
  | xlateDrainConfirmed => exact ⟨_, rfl, drainConfirmed_kept h⟩
  | xlateDrainTimeout => exact ⟨_, rfl, drainTimeout_kept h⟩
  | srSeedWrite => exact ⟨_, rfl, dictRow1_kept _ _ _ _ _ h fun _ => srSeedObj_kept _ _⟩
  | colModePick => exact ⟨_, rfl, dictRow_kept _ _ _ _ _ h fun _ => colModeWrite_kept _ _ _⟩
  | pickModeReached => exact ⟨_, rfl, pickModeReached_kept _ h⟩
  | colModeNormal => exact ⟨_, rfl, dictRow_kept _ _ _ _ _ h fun _ => colModeWrite_kept _ _ _⟩
  | normalModeReached => exact ⟨_, rfl, normalModeReached_kept _ h⟩
  | colModeTimeout => exact ⟨_, rfl, colModeTimeout_kept _ h⟩
  | stackMode => exact ⟨_, rfl, dictRow_kept _ _ _ _ _ h fun _ => stackModeWrite_kept _ _ _⟩
  | directCommandWrite => exact ⟨_, rfl, directWrite_kept _ _ _ _ _ h⟩
  | apertureRead => exact ⟨_, rfl, apertureReadBy_kept _ _ _ _ _ h⟩
  | pickAdmission => exact ⟨_, rfl, pickAdmission_kept _ h⟩
  | pickOperationStart => exact ⟨_, rfl, pickStart_kept _ _ h⟩
  | pickOperationCompletion => exact ⟨_, rfl, pickCompletion_kept _ _ h⟩
  | pcopy => exact ⟨_, rfl, runRows_kept _ _ _ _ _ h fun _ _ _ => copyRow_kept _ _⟩
  | pinit => exact ⟨_, rfl, runRows_kept _ _ _ _ _ h fun _ _ _ => initRow_kept _ _⟩
  | plogic => exact ⟨_, rfl, runRows_kept _ _ _ _ _ h fun _ _ _ => logicRow_kept _ _⟩
  | pload => exact ⟨_, rfl, pload_kept _ _ h⟩
  | pmv => exact ⟨_, rfl, matVec_kept _ _ _ h⟩
  | pmvk => exact ⟨_, rfl, matVec_kept _ _ _ h⟩
  | pfold => exact ⟨_, rfl, pfold_kept _ _ h⟩
  | pdrain => exact ⟨_, rfl, pdrain_kept _ _ h⟩
  | pfence => exact ⟨_, rfl, pfence_kept _ _ h⟩
  | pickDataTimeout => exact ⟨_, rfl, pickDataTimeout_kept _ _ h⟩
  | rowStepBoundary => exact ⟨_, rfl, rowStepBoundary_kept _ h⟩
  | ordinaryRequest => exact ⟨_, rfl, ordinaryRequest_kept _ _ _ _ _ _ _ h⟩
  | claimWaitEnd => exact ⟨_, rfl, crossbarIn_kept _ (claimWaitEnd_kept _ h)⟩
  | claimWaitTimeout => exact ⟨_, rfl, claimWaitTimeout_kept _ h⟩
  | segmentDelivery => exact ⟨_, rfl, segmentDelivery_kept _ _ _ h⟩
  | segmentTimeout => exact ⟨_, rfl, segmentTimeout_kept _ _ h⟩
  | lode => exact ⟨_, rfl, lodeStart_kept _ h⟩
  | score => exact ⟨_, rfl, cacheStart_kept _ _ _ h⟩
  | valuePass => exact ⟨_, rfl, cacheStart_kept _ _ _ h⟩
  | mergeOp => exact ⟨_, rfl, mergeStart_kept _ h⟩
  | passCompletion => exact ⟨_, rfl, passCompletion_kept _ h⟩
  | fastHubReduction => exact ⟨_, rfl, fastHubReduction_kept _ _ h⟩
  | collarReduction => exact ⟨_, rfl, collarReduction_kept h⟩
  | taskStart => exact ⟨_, rfl, taskStart_kept _ h⟩
  | faceEnd => exact ⟨_, rfl, faceEnd_kept _ h⟩
  | setx => exact ⟨_, rfl, setx_kept _ h⟩
  | setvl => exact ⟨_, rfl, setvl_kept _ h⟩
  | loopOpen => exact ⟨_, rfl, loopOpen_kept _ h⟩
  | endl => exact ⟨_, rfl, endl_kept _ h⟩
  | br => exact ⟨_, rfl, branch_kept _ h⟩
  | waitt => exact ⟨_, rfl, waitt_kept _ h⟩
  | waittTimeout => exact ⟨_, rfl, waittTimeout_kept _ h⟩
  | seqTally => exact ⟨_, rfl, seqTally_kept _ h⟩
  | seqFence => exact ⟨_, rfl, seqFence_kept _ h⟩
  | engineOperationStart => exact ⟨_, rfl, engineStart_kept _ _ h⟩
  | engineOperationDone => exact ⟨_, rfl, engineDone_kept _ _ h⟩
  | taskCompletion => exact ⟨_, rfl, taskCompletion_kept _ h⟩
  | mma => exact ⟨_, rfl, mma_kept _ _ h⟩
  | mxv => exact ⟨_, rfl, mxv_kept _ _ h⟩
  | mstore => exact ⟨_, rfl, mstore_kept _ _ h⟩
  | vchain => exact ⟨_, rfl, vchain_kept _ _ h⟩
  | vhred => exact ⟨_, rfl, vhred_kept _ _ h⟩
  | planesum => exact ⟨_, rfl, planesum_kept _ _ h⟩
  | sramWriteBack => exact ⟨_, rfl, sramWriteBack_kept _ h⟩
  | hoistCopy => exact ⟨_, rfl, hoistMoves_kept _ _ _ _ h⟩
  | hoistGather => exact ⟨_, rfl, hoistMoves_kept _ _ _ _ h⟩
  | hoistScatter => exact ⟨_, rfl, hoistMoves_kept _ _ _ _ h⟩
  | hoistScatterAdd => exact ⟨_, rfl, hoistMoves_kept _ _ _ _ h⟩
  | hoistFusedStore => exact ⟨_, rfl, hoistMoves_kept _ _ _ _ h⟩
  | hoistBroadcast => exact ⟨_, rfl, hoistBroadcast_kept _ _ h⟩
  | hoistTransferDone => exact ⟨_, rfl, hoistDone_kept _ _ h⟩
  | doorbellWrite => exact ⟨_, rfl, answerDoorbell_kept _ _ _ (doorbell_kept _ _ _ h)⟩
  | slotReread => exact ⟨_, rfl, slotReread_kept _ h⟩
  | slotStaleStall => exact ⟨_, rfl, slotStaleStall_kept _ h⟩
  | qResume => exact ⟨_, rfl, queueWrite_kept _ _ _ _ _ h fun _ => queueResume_kept _⟩
  | qReset => exact ⟨_, rfl, queueWrite_kept _ _ _ _ _ h fun _ => queueReset_kept _⟩
  | qAbort => exact ⟨_, rfl, queueWrite_kept _ _ _ _ _ h fun _ => queueAbort_kept _⟩
  | qEnableWrite => exact ⟨_, rfl, queueWrite_kept _ _ _ _ _ h fun _ => queueEnable_kept _ _⟩
  | stepStart => exact ⟨_, rfl, stepStart_kept h⟩
  | operationDispatch => exact ⟨_, rfl, operationDispatch_kept h⟩
  | operationCompletion => exact ⟨_, rfl, operationCompletion_kept _ h⟩
  | stepEnd => exact ⟨_, rfl, stepEnd_kept _ h⟩
  | emit => exact ⟨_, rfl, emitOp_kept _ h⟩
  | jump => exact ⟨_, rfl, jump_kept _ h⟩
  | setn => exact ⟨_, rfl, setn_kept _ h⟩
  | signal => exact ⟨_, rfl, signalOp_kept _ h⟩
  | waitw => exact ⟨_, rfl, waitw_kept _ h⟩
  | task => exact ⟨_, rfl, taskOp_kept _ h⟩
  | waitLimitExpiry => exact ⟨_, rfl, waitLimitExpiry_kept _ h⟩
  | stepCompletion => exact ⟨_, rfl, stepCompletion_kept _ h⟩
  | recordAcknowledged => exact ⟨_, rfl, recordAcknowledged_kept _ h⟩
  | recordWaitTimeout => exact ⟨_, rfl, recordWaitTimeout_kept _ h⟩
  | winLenWrite => exact ⟨_, rfl, dictRow1_kept _ _ _ _ _ h fun _ => winLenWrite_kept _⟩
  | windowBoundary => exact ⟨_, rfl, windowBoundary_kept h⟩
  | cadenceEdge => exact ⟨_, rfl, cadenceLevel_kept _ h⟩
  | cadenceMissed => exact ⟨_, rfl, cadenceMissed_kept h⟩
  | tallyAdd => exact ⟨_, rfl, tallyCommand_kept _ _ _ _ h fun _ => tallyOp_kept _ _ _ _ _⟩
  | tallySub => exact ⟨_, rfl, tallyCommand_kept _ _ _ _ h fun _ => tallyOp_kept _ _ _ _ _⟩
  | tallyArrive => exact ⟨_, rfl, tallyCommand_kept _ _ _ _ h fun _ => tallyOp_kept _ _ _ _ _⟩
  | tallySet => exact ⟨_, rfl, tallyCommand_kept _ _ _ _ h fun _ => tallyOp_kept _ _ _ _ _⟩
  | tallyWatch => exact ⟨_, rfl, tallyCommand_kept _ _ _ _ h fun _ => remoteWatch_kept _ _ _ _ _ _⟩
  | tallyUnwatch => exact ⟨_, rfl, tallyCommand_kept _ _ _ _ h fun _ => unwatch_kept _ _ _ _⟩
  | barinit => exact ⟨_, rfl, tallyCommand_kept _ _ _ _ h fun _ => barOp_kept _ _ _ _ _⟩
  | barfree => exact ⟨_, rfl, tallyCommand_kept _ _ _ _ h fun _ => barOp_kept _ _ _ _ _⟩
  | watchArmOnFree => exact ⟨_, rfl, armOldest_kept h⟩
  | sigStampMet => exact ⟨_, rfl, sigStampMet_kept _ _ h⟩
  | stampTimeout => exact ⟨_, rfl, stampTimeout_kept _ _ h⟩
  | faceGate => exact ⟨_, rfl, faceGate_kept _ h⟩
  | tallyDbgSel => exact ⟨_, rfl, dictRow1_kept _ _ _ _ _ h fun _ => tallySel_kept _⟩
  | watchDbgSel => exact ⟨_, rfl, dictRow1_kept _ _ _ _ _ h fun _ => watchSel_kept _⟩
  | barrierDbgSel => exact ⟨_, rfl, dictRow1_kept _ _ _ _ _ h fun _ => barrierSel_kept _⟩
  | refreshIntervalDue => exact ⟨_, rfl, refreshDue_kept _ h⟩
  | owedRefreshInsertion => exact ⟨_, rfl, kept_ite (fun _ => insertOwed_kept _ h) fun _ => h⟩
  | targetedRefresh => exact ⟨_, rfl, targetedRefresh_kept _ h⟩
  | commandParityAlert => exact ⟨_, rfl, parityAlert_kept _ h⟩
  | shaftLinkFrame => exact ⟨_, rfl, linkFrame_kept _ _ _ _ _ _ h⟩
  | stackRequestTimeout => exact ⟨_, rfl, stackRequestTimeout_kept _ h⟩
  | writeBackEntry => exact ⟨_, rfl, writeBackEntry_kept _ h⟩
  | scrubStep => exact ⟨_, rfl, scrubStep_kept _ h⟩
  | remapReq => exact ⟨_, rfl, dictRow_kept _ _ _ _ _ h fun _ => remapReqWrite_kept _ _ _⟩
  | remapCopy => exact ⟨_, rfl, remapCopy_kept _ h⟩
  | remapClaimTimeout => exact ⟨_, rfl, remapClaimTimeout_kept _ h⟩
  | remapSel => exact ⟨_, rfl, dictRow1_kept _ _ _ _ _ h fun _ => remapSelWrite_kept _ _⟩
  | flitReceived => exact ⟨_, rfl, flitIn_kept _ _ _ _ h⟩
  | nak => exact ⟨_, rfl, nakIn_kept _ _ h⟩
  | portRetrain => exact ⟨_, rfl, retrain_kept _ h⟩
  | portTrainingDone => exact ⟨_, rfl, trainingDone_kept _ _ _ _ _ _ _ h⟩
  | retrainReq => exact ⟨_, rfl, dictRow1_kept _ _ _ _ _ h fun _ => retrainReq_kept _ _⟩
  | portEnable => exact ⟨_, rfl, dictRow1_kept _ _ _ _ _ h fun _ => portEnable_kept _ _⟩
  | rd => exact ⟨_, rfl, onPort_kept _ _ _ _ h fun _ => rdPacket_kept _ _⟩
  | wr => exact ⟨_, rfl, onPort_kept _ _ _ _ h fun _ => wrPacket_kept _ _ _⟩
  | sig => exact ⟨_, rfl, onPort_kept _ _ _ _ h fun _ => sigPacket_kept _ _ _⟩
  | rsp => exact ⟨_, rfl, onPort_kept _ _ _ _ h fun _ => rspPacket_kept _ _ _⟩
  | echo => exact ⟨_, rfl, onPort_kept _ _ _ _ h fun _ => echoPacket_kept _ _ _⟩
  | hostRead => exact ⟨_, rfl, kept_ite (fun _ => hostRead_kept _ _ _ h) fun _ => h⟩
  | hostWrite => exact ⟨_, rfl, kept_ite (fun _ => hostWrite_kept _ _ h) fun _ => h⟩
  | aditAccess => exact ⟨_, rfl, kept_ite (fun _ => aditAccess_kept _ _ _ _ _ h) fun _ => h⟩
  | msixUnmask => exact ⟨_, rfl, kept_ite (fun _ => msixUnmask_kept _ h) fun _ => h⟩
  | hostPortReset => exact ⟨_, rfl, hostPortReset_kept _ h⟩
  | nmtStart => exact ⟨_, rfl, nmtStart_kept h⟩
  | nmtStop => exact ⟨_, rfl, kept_ite (fun _ => h) fun _ => h⟩
  | nmtEnterPreOperational => exact ⟨_, rfl, kept_ite (fun _ => h) fun _ => h⟩
  | nmtResetNode => exact ⟨_, rfl, nmtReset_kept h⟩
  | nmtResetCommunication => exact ⟨_, rfl, nmtReset_kept h⟩
  | heartbeatTimer => exact ⟨_, rfl, heartbeat_kept h⟩
  | usdoUpload => exact ⟨_, rfl, usdoUpload_kept _ _ _ h⟩
  | usdoDownload => exact ⟨_, rfl, usdoDownload_kept _ _ _ _ h⟩
  | usdoSegmentTimeout => exact ⟨_, rfl, usdoTimeout_kept h⟩
  | tpdoEventTimer => exact ⟨_, rfl, tpdoTimer_kept _ h⟩
  | emcySend => exact ⟨_, rfl, emcySend_kept h⟩
  | errorCountWrite => exact ⟨_, rfl, dictRow1_kept _ _ _ _ _ h fun _ => errorCount_kept _⟩
  | mailboxRead => exact ⟨_, rfl, mailboxAccess_kept _ _ h⟩
  | mailboxWrite => exact ⟨_, rfl, mailboxAccess_kept _ _ h⟩
  | buRun => exact ⟨_, rfl, dictRowThen_kept _ _ _ _ _ _ h fun _ => buRunAct_kept _ _⟩
  | bringupStepTimeout => exact ⟨_, rfl, bringupTimeout_kept h⟩
  | quiesceRequest => exact ⟨_, rfl, dictRow1_kept _ _ _ _ _ h fun _ => stateReq_kept _⟩
  | serviceRequest => exact ⟨_, rfl, dictRow1_kept _ _ _ _ _ h fun _ => stateReq_kept _⟩
  | maintenanceRequest => exact ⟨_, rfl, dictRow1_kept _ _ _ _ _ h fun _ => stateReq_kept _⟩
  | faceReset => exact ⟨_, rfl, dictRowThen_kept _ _ _ _ _ _ h fun _ => faceResetBegin_kept _⟩
  | computeReset => exact ⟨_, rfl, dictRowThen_kept _ _ _ _ _ _ h fun _ => computeBegin_kept⟩
  | warmReset => exact ⟨_, rfl, dictRowThen_kept _ _ _ _ _ _ h fun _ => warmBegin_kept⟩
  | warmResetDrainEnd => exact ⟨_, rfl, warmResetDrainEnd_kept h⟩
  | coldReset => exact ⟨_, rfl, dictRowThen_kept _ _ _ _ _ _ h fun _ => coldBegin_kept⟩
  | coldResetOffEnd => exact ⟨_, rfl, coldResetOffEnd_kept h⟩
  | fwImageWrite => exact ⟨_, rfl, domainRow_kept _ _ _ _ _ h fun _ _ => fwImageWrite_kept _ _⟩
  | verify => exact ⟨_, rfl, dictRow1_kept _ _ _ _ _ h fun _ => fwVerify_kept⟩
  | imageVerified => exact ⟨_, rfl, imageVerified_kept h⟩
  | commit => exact ⟨_, rfl, dictRow1_kept _ _ _ _ _ h fun _ => fwCommit_kept⟩
  | flashWriteDone => exact ⟨_, rfl, flashWriteDone_kept _ h⟩
  | activate => exact ⟨_, rfl, dictRow1_kept _ _ _ _ _ h fun _ => fwActivate_kept⟩
  | headframeRestartDone => exact ⟨_, rfl, serveWaiting_kept (headframeRestartDone_kept h)⟩
  | discard => exact ⟨_, rfl, dictRow1_kept _ _ _ _ _ h fun _ => fwDiscard_kept⟩
  | licImageWrite => exact ⟨_, rfl, domainRow_kept _ _ _ _ _ h fun _ _ => licImageWrite_kept _ _⟩
  | licenceCheck => exact ⟨_, rfl, dictRow1_kept _ _ _ _ _ h fun _ => licCmd_kept _⟩
  | licenceSlotEmpty => exact ⟨_, rfl, dictRow1_kept _ _ _ _ _ h fun _ => licCmd_kept _⟩
  | attNonceWrite => exact ⟨_, rfl, domainRow_kept _ _ _ _ _ h fun _ _ => attNonceWrite_kept _ _⟩
  | attCmd => exact ⟨_, rfl, dictRow1_kept _ _ _ _ _ h fun _ => attCmd_kept _⟩
  | signingDone => exact ⟨_, rfl, signingDone_kept h⟩
  | d00Start => exact ⟨_, rfl, d00Start_kept _ h⟩
  | powerRemoved => exact ⟨_, rfl, powerOff_kept h⟩
  | inputSample => exact ⟨_, rfl, inputSample_kept _ _ h⟩
  | phaseFault => exact ⟨_, rfl, phaseFault_kept _ h⟩
  | unitDutyTick => exact ⟨_, rfl, unitDutyTick_kept _ _ h⟩
  | recallComplete => exact ⟨_, rfl, recallComplete_kept _ h⟩
  | canarySlot => exact ⟨_, rfl, canarySlot_kept _ _ h⟩
  | canaryRoundEnd => exact ⟨_, rfl, canaryRoundEnd_kept h⟩
  | domainIdle => exact ⟨_, rfl, domainIdle_kept _ h⟩
  | domainSleep => exact ⟨_, rfl, domainSleep_kept _ h⟩
  | domainWake => exact ⟨_, rfl, wakeDomain_kept _ h⟩
  | wakeNChange => exact ⟨_, rfl, kept_ite (fun _ => wakeSleepers_kept (pinChange_kept _ _ h)) fun _ => pinChange_kept _ _ h⟩
  | throttleNChange => exact ⟨_, rfl, pinChange_kept _ _ h⟩
  | inputStuck => exact ⟨_, rfl, inputStuck_kept _ h⟩
  | faceFence => exact ⟨_, rfl, dictRowThen_kept _ _ _ _ _ _ h fun _ => faceFenceBegin_kept _ _⟩
  | pickFence => exact ⟨_, rfl, dictRowThen_kept _ _ _ _ _ _ h fun _ => pickFenceBegin_kept _ _⟩
  | fenceComplete => exact ⟨_, rfl, fenceComplete_kept h⟩
  | colRetire => exact ⟨_, rfl, dictRow1_kept _ _ _ _ _ h fun _ k => kept_ite (fun _ => retireBegin_kept _ k) fun _ => k⟩
  | flogSel => exact ⟨_, rfl, dictRow1_kept _ _ _ _ _ h fun _ => flogSel_kept _⟩
  | flogSavedSel => exact ⟨_, rfl, dictRow1_kept _ _ _ _ _ h fun _ => flogSavedSel_kept _⟩
  | flogClear => exact ⟨_, rfl, dictRow1_kept _ _ _ _ _ h fun _ => flogClear_kept _⟩
  | hostLinkUp => exact ⟨_, rfl, hostLinkUp_kept _ h⟩
  | shaftLinkRetrained => exact ⟨_, rfl, shaftLinkRetrained_kept _ h⟩
  | commandLaneRetrained => exact ⟨_, rfl, laneRetrained_kept _ h⟩
  | laneLossOfLock => exact ⟨_, rfl, kept_ite (fun _ => laneFailed_kept _ _ h) fun _ => h⟩
  | inputGlitch => exact ⟨_, rfl, kept_ite (fun _ => glitch_kept _ h) fun _ => h⟩
  | inputStuckRelease => exact ⟨_, rfl, inputRelease_kept _ h⟩
  | canErrorPassive => exact ⟨_, rfl, errorPassive_kept _ h⟩
  | canBusOff => exact ⟨_, rfl, kept_ite (fun _ => h) fun _ => h⟩
  | canBusOffRecovered => exact ⟨_, rfl, busOffRecovered_kept h⟩
  | computeResetDone => exact ⟨_, rfl, computeResetDone_kept h⟩
  | faceResetDone => exact ⟨_, rfl, faceResetDone_kept _ h⟩

/-- A step keeps the form of memory: a command in front by `exec_kept`, an idle cycle by `tick_kept`. -/
theorem memWf_step {s t : State} (h : memWf s.mem = true) (hs : step s = .next t) : memWf t.mem = true := by
  unfold step at hs
  split at hs
  · cases hs
    exact (tick_kept (qp := s.pending) ⟨rfl, h⟩).2
  · next c rest _ =>
    obtain ⟨u, hu, -, hmem⟩ := exec_kept (s := { s with pending := rest }) ⟨rfl, h⟩ c
    cases hu.symm.trans hs
    exact hmem

/-- Settles O3: `memWf_step`, over every command by the laws of `Kept`. -/
theorem everyStepKeepsMemoryCanonical : Obligations.EveryStepKeepsMemoryCanonical :=
  fun _ _ => memWf_step

end Sys2Proof.Machine
end

section
/-! SUPPORT. An idle cycle in which a mailbox starts bring-up steps takes those steps' time as well. -/

namespace Sys2Proof.Machine

/-- A module in BRINGUP after step 5 of a warm fast path; mailbox 0 holds a write of 6 to `bu_run` that waits its turn. -/
def bringupByMail : State := { State.reset with
  life := { State.reset.life with state := 2, buLast := 5, warmBoot := true, fastPath := true },
  can := { State.reset.can with
    mail := [{ box := 0, at_ := 0, via := 0 }],
    boxes := [(0, { cmd := writeCmd 0x2100 2 1, pend := true, area := [(0, 6)] })] } }

/-- The access runs step 6, which takes its 3,000 µs, and the idle cycle comes on top. -/
theorem tick_now_bringupByMail : (tick bringupByMail).now = 2400001 := by decide +kernel

/-- Refutes O1: serving the mailbox of `bringupByMail` runs a bring-up step, so the idle cycle takes more than 1.25 ns. -/
theorem not_stepRunsTheFrontCommand : ¬ Obligations.StepRunsTheFrontCommand := by
  rintro ⟨-, hidle⟩
  obtain ⟨-, hnow, -⟩ := hidle bringupByMail rfl
  exact absurd (tick_now_bringupByMail.symm.trans hnow) (by decide)

end Sys2Proof.Machine
end

section
/-! SUPPORT. Memory and tables read back what is written. -/

namespace Sys2Proof.Machine

/-- Bytes written read back as a whole. -/
theorem rdBytes_wrBytes_same {s : State} (h : memWf s.mem = true) (k : Nat) (bs : List Byte) :
    (s.wrBytes k bs).rdBytes k bs.length = bs := by
  refine List.ext_getElem (by rw [State.rdBytes, List.length_map, List.length_range]) fun i _ hi => ?_
  simp only [State.rdBytes, List.getElem_map, List.getElem_range, rdByte_wrBytes_in h bs hi]

/-- Settles O4: the laws of memory by byte, and those of the tables. -/
theorem memoryAndTablesReadBack : Obligations.MemoryAndTablesReadBack := by
  refine ⟨fun s k bs => ⟨fun h => ⟨memWf_wrBytes h k bs, rdBytes_wrBytes_same h k bs⟩, fun j hj => rdByte_wrBytes_out s bs hj, ?_⟩,
    fun t d v i j => ⟨fun hne => tget_tset_ne t v hne, fun h => ⟨tget_tset_same h i v, tabWf_tset h i v⟩⟩⟩
  exact wrBytes_frame s k bs s.mem

end Sys2Proof.Machine
end

section
/-! SUPPORT. The state right after reset, unit by unit. -/

namespace Sys2Proof.Machine

/-- Settles O10: every field at its default; context 0 alone is listed. -/
theorem resetLeaves : Obligations.ResetLeaves := by
  refine ⟨rfl, rfl, rfl, rfl, fun _ _ => rfl, rfl, rfl, fun c => ?_, fun _ => ⟨rfl, rfl, rfl, rfl, rfl⟩, fun _ => ⟨rfl, rfl, rfl, rfl⟩,
    fun _ => ⟨rfl, rfl, rfl, rfl, rfl, rfl, rfl, rfl⟩, fun _ _ => ⟨rfl, rfl, rfl, rfl⟩, fun _ _ => rfl, fun _ => ⟨rfl, rfl, rfl, rfl⟩,
    rfl, rfl, rfl, rfl, rfl, rfl, rfl, rfl, rfl, rfl, rfl⟩
  by_cases hc : c.val = 0 <;> simp [State.reset, State.ctx, tget, hc]

end Sys2Proof.Machine
end

section
/-! SUPPORT. How a dictionary write is opened and answered on each path (R348, R350, R355, R361, R379). -/

namespace Sys2Proof.Machine
open Sys2Proof.Claims

variable {s : State} {idx : W16} {sb : Byte}

theorem opens_can (hnmt : s.can.nmt ≠ .stopped) (hbus : s.can.busOff = false) (hlife : s.life.state ≠ 0)
    (hserves : headframeServes s = true) : Opens s (usdoNew s) .can idx sb := by
  have husdo : usdoServes s = true := by simp only [usdoServes, hbus, Bool.not_false, Bool.and_true, decide_eq_true hnmt]
  simp only [Opens, dictOpen, husdo, Bool.not_true, Bool.false_or, decide_eq_false hlife, hserves, Bool.true_or,
    Bool.false_eq_true, if_false, if_true]

/-- A request that starts a transfer leaves none in progress. -/
theorem usdo_usdoNew (s : State) : (usdoNew s).can.usdo = none ∧ (usdoNew s).can.usdoHeld = none := by
  unfold usdoNew
  split
  · exact ⟨rfl, rfl⟩
  · next h => simpa only [Bool.or_eq_true, not_or, Option.isSome_iff_ne_none, ne_eq, Decidable.not_not] using h

theorem dictOpen_mbox_of_pend {m : Fin 16} (hon : headframeOn s = true) (hpend : (s.box m.val).pend = true) (wr : Bool) :
    dictOpen s (.mbox m) idx sb wr = .drop { s with can := { s.can with mirrorDropped := satInc s.can.mirrorDropped } } := by
  simp only [dictOpen, hon, hpend, Bool.not_true, Bool.false_eq_true, if_false, if_true]

theorem dictOpen_mbox_of_unserved {m : Fin 16} (hon : headframeOn s = true) (hpend : (s.box m.val).pend = false)
    (hserves : mailboxServes s = false) (wr : Bool) : dictOpen s (.mbox m) idx sb wr = .wait := by
  simp only [dictOpen, hon, hpend, hserves, Bool.not_true, Bool.not_false, Bool.true_or, Bool.false_eq_true, if_false, if_true]

theorem dictOpen_other (c : CtxId) (hserves : headframeServes s = true) (wr : Bool) :
    dictOpen s (.other c) idx sb wr = if c.val = 0 then .serve s else .refuse stProt 0x06010000 s := by
  simp only [dictOpen, hserves, Bool.not_true, Bool.false_eq_true, if_false]

/-- The answer of a mailbox to a write: its command is done, with the status and no bytes. -/
theorem boxes_dictReply_mbox (s : State) (m : Fin 16) (st : Byte) (ab : W32) :
    (dictReply s (.mbox m) st ab []).can.boxes = tset {} s.can.boxes m.val
      { s.box m.val with pend := false, taken := false, done := true, status := st, abort := ab, rlen := 0 } := by
  simp only [dictReply, State.setBox, List.length_nil, List.range_zero, List.foldl_nil, ite_self]
  rfl

/-- Settles O5: one lemma for each path that opens, waits, drops or refuses, and the answers path by path. -/
theorem dictionaryPathsServeAndAnswer : Obligations.DictionaryPathsServeAndAnswer := by
  intro s idx sb data st ab
  obtain ⟨husdo, hheld⟩ := usdo_usdoNew s
  refine ⟨opens_can, husdo, hheld, fun m hon hpend => dictOpen_mbox_of_pend hon hpend true,
    fun m hon hpend hserves => dictOpen_mbox_of_unserved hon hpend hserves true, fun hserves => ?_, fun c hc hserves => ?_, rfl,
    fun hst => if_neg hst, fun m => boxes_dictReply_mbox s m st ab, fun c => rfl⟩
  · exact (dictOpen_other 0 hserves true).trans (if_pos rfl)
  · exact (dictOpen_other c hserves true).trans (if_neg hc)

end Sys2Proof.Machine
end

section
/-! SUPPORT. Register writes: a served write is its checks, then its object's rules (R353 to R358). -/

namespace Sys2Proof.Machine
open Sys2Proof.Claims

/-! ## Little-endian bytes -/

@[simp] theorem length_leBytes (n v : Nat) : (leBytes n v).length = n := by
  induction n generalizing v with
  | zero => rfl
  | succ n ih => rw [leBytes, List.length_cons, ih]

/-- The n low bytes of a number spell it up to its n low bytes (R10). -/
@[simp] theorem leNat_leBytes (n v : Nat) : leNat (leBytes n v) = v % 256 ^ n := by
  induction n generalizing v with
  | zero => rw [leBytes, leNat, Nat.pow_zero, Nat.mod_one]
  | succ n ih =>
    have hbyte : (BitVec.ofNat 8 v).toNat = v % 256 := BitVec.toNat_ofNat v 8
    rw [leBytes, leNat, ih, hbyte, Nat.pow_succ', Nat.mod_mul]

theorem leNat_leBytes_toNat {w n : Nat} (v : BitVec w) (h : 2 ^ w = 256 ^ n) : leNat (leBytes n v.toNat) = v.toNat := by
  rw [leNat_leBytes, ← h, Nat.mod_eq_of_lt v.isLt]

/-! ## Served writes -/

@[simp] theorem abortOf_ok : abortOf stOk = 0 := rfl

variable {s u : State} {p : DictPath} {idx : W16} {sb : Byte}

theorem registerWrite_of_opens (h : Opens s u p idx sb) (hp : ∀ m, p ≠ .mbox m) (data : List Byte) :
    registerWrite s p idx.toNat sb.toNat data = serveWrite u p idx.toNat sb.toNat 0 data false := by
  unfold Opens at h
  simp only [registerWrite, BitVec.ofNat_toNat, BitVec.setWidth_eq, h]

section serve
variable {i j off : Nat} {data : List Byte} {mail : Bool}

theorem serveWrite_of_check {st : Byte} {ab : W32} (h : dictCheck u i j true mail data.length = some (st, ab)) :
    serveWrite u p i j off data mail = dictReply u p st ab [] := by
  unfold serveWrite
  rw [h]

theorem serveWrite_of_ok (h : dictCheck u i j true mail data.length = none)
    (hst : (objWrite u p i j off data).status = some stOk) :
    serveWrite u p i j off data mail =
      (objWrite u p i j off data).later (dictReply (objWrite u p i j off data).after p stOk 0 []) := by
  unfold serveWrite
  rw [h]
  dsimp only
  rw [hst]
  dsimp only
  rw [if_pos rfl, abortOf_ok]

end serve

/-- The heartbeat period takes any two bytes in every life state (Table 12.11). -/
theorem dictCheck_heartbeat (s : State) : dictCheck s 0x1017 0 true false 2 = none := by
  have hpresent : idxPresent 0x1017 = true := by decide
  have hobj : objAt s 0x1017 0 = dnum .u16 .rw s.can.comm.heartbeatMs.toNat := by
    simp [objAt, highestSub, isStackIdx, isFaceIdx, elemAt, commObj]
  simp [dictCheck, hpresent, hobj, dnum, lengthOk, DType.size]

theorem objWrite_heartbeat (s : State) (p : DictPath) (v : W16) :
    objWrite s p 0x1017 0 0 (leBytes 2 v.toNat) = wrote (putComm s { s.can.comm with heartbeatMs := v }, stOk) := by
  simp [objWrite, commWrite, leNat_leBytes_toNat v (n := 2) rfl]

/-- Settles O6: the write is `serveWrite` on the opened state; the seed is one object's rule. -/
theorem registerWriteTakesEffectOrIsRefused : Obligations.RegisterWriteTakesEffectOrIsRefused := by
  refine ⟨fun p idx sb data s u ho hp => ?_, fun p f v s u ho => ⟨fun hb => ?_, fun hb => ?_⟩⟩
  · have hw : exec (.registerWrite p idx sb data) s = .next (serveWrite u p idx.toNat sb.toNat 0 data false) :=
      congrArg Host.Outcome.next (registerWrite_of_opens ho hp data)
    refine ⟨fun st ab hc => hw.trans (congrArg _ (serveWrite_of_check hc)),
      fun hc hst => hw.trans (congrArg _ (serveWrite_of_ok hc hst)), ?_⟩
    rintro v rfl rfl rfl
    have hobj := objWrite_heartbeat u p v
    refine hw.trans (congrArg _ ((serveWrite_of_ok ?_ (by erw [hobj]; rfl)).trans (by erw [hobj]; rfl)))
    rw [length_leBytes]
    exact dictCheck_heartbeat u
  · refine answers_of_dictRow1 rfl ho ?_
    simp only [srSeedObj, Option.isNone_eq_false_iff.2 hb, Bool.false_eq_true, if_false]
    rfl
  · exact answers_of_dictRow1 rfl ho (by simp only [srSeedObj, hb, Option.isNone_none, if_true])

end Sys2Proof.Machine
end

section
/-! SUPPORT. A dictionary write with a row of its own: answered, or held. -/

namespace Sys2Proof.Machine
open Sys2Proof.Claims

variable {s u v : State} {p : DictPath} {idx : W16} {sb : Byte} {c : Instr} {w : List Byte} {f : State → State × Option Byte}

theorem answers_of_dictRow (hc : exec c s = .next (dictRow s p idx sb w f)) (h : Opens s u p idx sb) {st : Byte}
    (hf : f u = (v, some st)) : Answers c s v p st := by
  rw [Answers, hc, dictRow_of_opens h, hf, dictFinish]

theorem holds_of_dictRow (hc : exec c s = .next (dictRow s p idx sb w f)) (h : Opens s u p idx sb) (hf : f u = (v, none)) :
    Gives c s (dictHold v p idx sb) := by
  rw [Gives, hc, dictRow_of_opens h, hf, dictFinish]

end Sys2Proof.Machine
end

section
/-! SUPPORT. Column modes: a write to `col_mode`, and the ends of a change (R90, R91, R93). -/

namespace Sys2Proof.Machine
open Sys2Proof.Claims

variable {s : State} {g : Nat} {p : DictPath}

theorem pickLive_iff : pickLive s g = true ↔ (s.col g).fenced = false ∧ (s.col g).retired = false := by
  simp only [pickLive, Bool.and_eq_true, Bool.not_eq_true']

theorem colModeWrite_of_held (h : modeHeld s g = true) (v : Nat) : colModeWrite s p g v = (s, some stBusy) := by
  simp only [colModeWrite, h, if_true]

theorem colModeWrite_of_fenced (hheld : modeHeld s g = false) (hbusy : computeBusy s = false) (h : (s.col g).fenced = true) {v : Nat}
    (hv : v ≤ 1) : colModeWrite s p g v = (s, some stFenced) := by
  simp only [colModeWrite, hheld, hbusy, h, Nat.not_lt.2 hv, Bool.true_or, Bool.false_eq_true, if_false, if_true]

section live
variable (hheld : modeHeld s g = false) (hbusy : computeBusy s = false) (hlive : pickLive s g = true)
include hheld hbusy hlive

/-- A write of 1 to a live column that does not change its mode (Table 4.6). -/
theorem colModeWrite_one_of_live (hpick : (s.col g).mode = .pick ∨ (s.col g).mode = .normal) : colModeWrite s p g 1 =
    if (s.col g).mode = .pick then (s, some stOk) else if cachedMapping s g then (s, some stMode) else (startToPick s g p false, none) := by
  obtain ⟨hf, hr⟩ := pickLive_iff.1 hlive
  obtain hm | hm := hpick <;> simp [colModeWrite, hheld, hbusy, hf, hr, hm]

/-- A write of 0 to a live column in PICK mode. -/
theorem colModeWrite_zero_of_pick (hm : (s.col g).mode = .pick) : colModeWrite s p g 0 = (startToNormal s g p false, none) := by
  obtain ⟨hf, hr⟩ := pickLive_iff.1 hlive
  simp [colModeWrite, hheld, hbusy, hf, hr, hm]

end live

/-! ## The ends of a change -/

section change
variable {ch : ModeChange}

theorem changeEnds_of_own (s : State) (g : Nat) (hown : ch.byStack = false) (st : Byte) :
    changeEnds s g ch st = dictRelease s ch.path (colModeIdx g) (colModeSub g) st := by
  simp only [changeEnds, hown, Bool.false_eq_true, if_false]

variable (hch : (s.col g).change = some ch) (hown : ch.byStack = false)
include hch hown

theorem pickModeReached_of_own (hm : (s.col g).mode = .toPick) (hdone : earlierDone s g ch = true) :
    pickModeReached s g = dictRelease (s.setCol g (voidCol { clearPick (s.col g) with mode := .pick, change := none, lastSeq := false }))
      ch.path (colModeIdx g) (colModeSub g) stOk := by
  simp [pickModeReached, hch, hm, hdone, changeEnds_of_own _ _ hown]

theorem normalModeReached_of_own (hm : (s.col g).mode = .toNormal) (hdone : (s.col g).window = []) :
    normalModeReached s g = dictRelease (s.setCol g (voidCol { clearPick (s.col g) with mode := .normal, change := none }))
      ch.path (colModeIdx g) (colModeSub g) stOk := by
  simp [normalModeReached, hch, hm, hdone, changeEnds_of_own _ _ hown]

variable (hlate : ch.since + 8000000 ≤ s.now)
include hlate

theorem colModeTimeout_of_toPick (hm : (s.col g).mode = .toPick) (hdone : earlierDone s g ch = false) :
    colModeTimeout s g = dictRelease (logObject (s.setCol g { s.col g with mode := .normal, change := none })
      stTimeout (colModeIdx g) (colModeSub g)) ch.path (colModeIdx g) (colModeSub g) stTimeout := by
  have hnow : ¬ s.now < ch.since + 10 * msCycles := Nat.not_lt.2 hlate
  simp [colModeTimeout, hch, hnow, hm, hdone, changeEnds_of_own _ _ hown]

theorem colModeTimeout_of_toNormal (hm : (s.col g).mode = .toNormal) (hdone : (s.col g).window ≠ []) :
    colModeTimeout s g = dictRelease (s.setCol g { s.col g with mode := .pick, change := none })
      ch.path (colModeIdx g) (colModeSub g) stTimeout := by
  have hnow : ¬ s.now < ch.since + 10 * msCycles := Nat.not_lt.2 hlate
  simp [colModeTimeout, hch, hnow, hm, hdone, changeEnds_of_own _ _ hown]

end change

/-- Leaving PICK mode with one direct record waiting ends that record with MODE. -/
theorem startToNormal_of_one {o : PickOp} (hwf : tabWf ({} : Col) s.cols = true) (hseq : (s.col g).seqQ = [])
    (hdir : (s.col g).dirQ = [o]) : startToNormal s g p false =
      pickEnd (s.setCol g { s.col g with mode := .toNormal, change := some ⟨s.now, s.reqNext, false, p⟩ }) g o stMode := by
  simp only [startToNormal, State.modCol, State.col_setCol_same hwf, hseq, hdir, List.nil_append, List.foldl_cons, List.foldl_nil,
    List.any_cons, beq_self_eq_true, Bool.true_or, if_true]

/-- Settles O12: the write by its row of Table 4.6, the two ends of the change by theirs. -/
theorem columnEntersPickMode : Obligations.ColumnEntersPickMode := by
  intro p g s u
  refine ⟨fun ho => ⟨fun hheld => ?_, fun hheld hbusy hf => ?_, fun hheld hbusy hlive => ⟨fun hm => ?_, fun hm hmap => ?_,
    fun hm hmap => ?_⟩⟩, fun ch hch hown hm hdone => ?_, fun ch hch hown hm hdone hlate => ?_⟩
  · exact answers_of_dictRow rfl ho (colModeWrite_of_held hheld 1)
  · exact answers_of_dictRow rfl ho (colModeWrite_of_fenced hheld hbusy hf (Nat.le_refl 1))
  · refine answers_of_dictRow rfl ho ((colModeWrite_one_of_live hheld hbusy hlive (.inl hm)).trans (if_pos hm))
  · refine answers_of_dictRow rfl ho ((colModeWrite_one_of_live hheld hbusy hlive (.inr hm)).trans ?_)
    simp only [hm, hmap, reduceCtorEq, if_false, if_true]
  · refine holds_of_dictRow rfl ho ((colModeWrite_one_of_live hheld hbusy hlive (.inr hm)).trans ?_)
    simp only [hm, hmap, reduceCtorEq, Bool.false_eq_true, if_false]
    rfl
  · exact congrArg Host.Outcome.next (pickModeReached_of_own hch hown hm hdone)
  · exact congrArg Host.Outcome.next (colModeTimeout_of_toPick hch hown hlate hm hdone)

/-- Settles O13: the write that leaves PICK mode, and the two ends of the change. -/
theorem columnLeavesPickMode : Obligations.ColumnLeavesPickMode := by
  intro p g s u
  refine ⟨fun ho hheld hbusy hlive hm => ⟨?_, fun hseq hwf o hdir => startToNormal_of_one hwf hseq hdir⟩,
    fun ch hch hown hm hdone => ?_, fun ch hch hown hm hdone hlate => ?_⟩
  · exact holds_of_dictRow rfl ho (colModeWrite_zero_of_pick hheld hbusy hlive hm)
  · exact congrArg Host.Outcome.next (normalModeReached_of_own hch hown hm hdone)
  · exact congrArg Host.Outcome.next (colModeTimeout_of_toNormal hch hown hlate hm hdone)

end Sys2Proof.Machine
end

section
/-! SUPPORT. A write to `stack_mode` of a stack whose columns are at rest (R92). -/

namespace Sys2Proof.Machine
open Sys2Proof.Claims

variable {s : State} {p : DictPath} {n : Nat}

/-- The live columns of a stack. -/
def liveCols (s : State) (n : Nat) : List Nat := (colsOf n).filter fun g => pickLive s g

section rest
variable (hheld : (s.stack n).change = none) (hrest : (s.cols.any fun x => stackOf x.1 == n && x.2.change.isSome) = false)
include hheld hrest

theorem stackModeWrite_oob {v : Nat} (hv : 1 < v) : stackModeWrite s p n v = (s, some stOob) := by
  simp only [stackModeWrite, hheld, hrest, Option.isSome_none, Bool.or_self, hv, Bool.false_eq_true, if_false, if_true]

variable (hbusy : computeBusy s = false)
include hbusy

theorem stackModeWrite_mapped (h : ∃ g ∈ liveCols s n, (s.col g).mode = .normal ∧ cachedMapping s g = true) :
    stackModeWrite s p n 1 = (s, some stMode) := by
  have hany : ((liveCols s n).any fun g => (s.col g).mode = .normal && cachedMapping s g) = true := by
    simpa only [List.any_eq_true, Bool.and_eq_true, decide_eq_true_eq] using h
  unfold liveCols at hany
  simp [stackModeWrite, hheld, hrest, hbusy, hany]

/-- The columns that a write starts to change: none is changing already, and none that leaves NORMAL is mapped. -/
theorem stackModeWrite_of_settled {v : Nat} (hv : v ≤ 1) {m : ColMode} (hm : m = .pick ∨ m = .normal)
    (hall : ∀ g ∈ liveCols s n, (s.col g).mode = m) (hmap : v = 1 → m = .normal → ∀ g ∈ liveCols s n, cachedMapping s g = false) :
    stackModeWrite s p n v =
      if m = (if v = 1 then .pick else .normal) ∨ liveCols s n = [] then (s, some stOk)
      else ((liveCols s n).foldl (fun t g => if v = 1 then startToPick t g p true else startToNormal t g p true)
        (s.modStack n fun k => { k with change := some (v == 1, p, false) }), none) := by
  have hmapped : (v = 1 && (liveCols s n).any fun g => (s.col g).mode = .normal && cachedMapping s g) = false := by
    simp only [Bool.and_eq_false_iff, decide_eq_false_iff_not, List.any_eq_false, Bool.and_eq_true, decide_eq_true_eq, not_and,
      Bool.not_eq_true]
    exact Decidable.or_iff_not_imp_left.2 fun hv1 g hg hmode => hmap (Decidable.not_not.1 hv1) ((hall g hg).symm.trans hmode) g hg
  have hchanging : ((liveCols s n).any fun g => (s.col g).mode = .toPick || (s.col g).mode = .toNormal) = false := by
    refine List.any_eq_false.2 fun g hg => ?_
    obtain rfl | rfl := hm <;> simp [hall g hg]
  have hgo (want : ColMode) : ((liveCols s n).filter fun g => (s.col g).mode ≠ want) = if m = want then [] else liveCols s n := by
    split
    · next h => exact List.filter_eq_nil_iff.2 fun g hg => by simp [hall g hg, h]
    · next h => exact List.filter_eq_self.2 fun g hg => by simp [hall g hg, h]
  unfold liveCols at *
  simp only [stackModeWrite, hheld, hrest, Option.isSome_none, Bool.or_self, Nat.not_lt.2 hv, hbusy, hmapped, hchanging, hgo,
    Bool.false_eq_true, if_false]
  by_cases hwant : m = if v = 1 then .pick else .normal
  · simp only [if_pos hwant, if_true]
    exact (if_pos (.inl hwant)).symm
  · simp only [hwant, if_false, false_or]

end rest

/-- Settles O14: a refused write, or `stackModeWrite_of_settled` with the columns all in one mode. -/
theorem stackModeStartsEveryColumn : Obligations.StackModeStartsEveryColumn := by
  intro p n s u ho hheld hrest hbusy
  refine ⟨fun h => ?_, fun hall => ?_, fun hall hne => ?_, fun hall => ?_, fun hall hne => ?_, fun v hv => ?_⟩
  · exact answers_of_dictRow rfl ho (stackModeWrite_mapped hheld hrest hbusy h)
  · refine answers_of_dictRow rfl ho ((stackModeWrite_of_settled hheld hrest hbusy (Nat.le_refl 1) (.inl rfl) hall
      fun _ hm => nomatch hm).trans (if_pos (.inl rfl)))
  · exact holds_of_dictRow rfl ho ((stackModeWrite_of_settled hheld hrest hbusy (Nat.le_refl 1) (.inr rfl) (fun g hg => (hall g hg).1)
      fun _ _ g hg => (hall g hg).2).trans (if_neg (not_or.2 ⟨nofun, hne⟩)))
  · refine answers_of_dictRow rfl ho ((stackModeWrite_of_settled hheld hrest hbusy (Nat.zero_le 1) (.inr rfl) hall
      fun hv => nomatch hv).trans (if_pos (.inl rfl)))
  · exact holds_of_dictRow rfl ho ((stackModeWrite_of_settled hheld hrest hbusy (Nat.zero_le 1) (.inl rfl) hall
      fun hv => nomatch hv).trans (if_neg (not_or.2 ⟨nofun, hne⟩)))
  · exact answers_of_dictRow rfl ho (stackModeWrite_oob hheld hrest hv)

end Sys2Proof.Machine
end

section
/-! SUPPORT. The pick command aperture: direct commands and reads (R95, R96, R98, R99). -/

namespace Sys2Proof.Machine
open Sys2Proof.Claims

/-! ## Little-endian bytes, one by one -/

theorem leBytes_eq_map (n v : Nat) : leBytes n v = (List.range n).map fun i => BitVec.ofNat 8 (v / 256 ^ i) := by
  induction n generalizing v with
  | zero => rfl
  | succ n ih =>
    simp only [leBytes, ih, List.range_succ_eq_map, List.map_cons, List.map_map, Function.comp_def, Nat.pow_zero, Nat.div_one,
      Nat.div_div_eq_div_mul, Nat.pow_succ']

/-- Bytes without marks: none is poisoned, and all are shown. -/
theorem anyPoison_map_clean {α : Type} (l : List α) (f : α → Byte) : anyPoison (l.map fun x => (f x, false)) = false := by
  simp [anyPoison]

theorem hidePoison_map_clean {α : Type} (l : List α) (f : α → Byte) : hidePoison (l.map fun x => (f x, false)) = l.map f := by
  simp [hidePoison]

/-! ## The address that a context uses -/

variable {s : State} {o : Origin} {c g off : Nat}

/-- An access that has, or fails, a right is at a mapped address, and the free values are untouched. -/
theorem apertureVa_of_right {wr : Bool} {len : Nat} {st : Byte} (h : apertureRight (apertureVa s c g off wr).1 c
    (apertureVa s c g off wr).2.1 len wr (apertureVa s c g off wr).2.2 = st) (hst : st ≠ stXlate) : (apertureVa s c g off wr).1 = s := by
  unfold apertureVa at h ⊢
  dsimp only at h ⊢
  split
  · rfl
  · next hnone =>
    rw [hnone] at h
    refine absurd ?_ hst
    rw [← h, apertureRight]
    split <;> rfl

/-- A status that no page logs leaves the state. -/
theorem pageRefused_of_unlogged (s : State) (o : Origin) (c va : Nat) {st : Byte} (hp : st ≠ stProt) (ho : st ≠ stOob) :
    pageRefused s o c va st = s := by
  unfold pageRefused placeRefused
  rw [if_neg hp, if_neg ho]
  split <;> rfl

section direct
variable {data : List Byte} {n : Nat} (hn : data.length = n)
include hn

theorem directWrite_of_right (h : apertureRight (apertureVa s c g off true).1 c (apertureVa s c g off true).2.1 n true
    (apertureVa s c g off true).2.2 = stOk) {t : State} {st : Byte} (hw : apertureWrite s g off data (BitVec.ofNat 6 c) = (t, st))
    (hp : st ≠ stProt) (ho : st ≠ stOob) :
    directWrite s o c g off data = answerWrite t o c st (apertureVa s c g off true).2.1 := by
  have hs := apertureVa_of_right h (by decide)
  rw [hs] at h
  simp only [directWrite, hn, h, hs, hw, pageRefused_of_unlogged _ _ _ _ hp ho, ne_eq, not_true,
    if_false]

theorem directWrite_of_prot (h : apertureRight (apertureVa s c g off true).1 c (apertureVa s c g off true).2.1 n true
    (apertureVa s c g off true).2.2 = stProt) : directWrite s o c g off data =
      answerWrite (xlateRefused s o c (apertureVa s c g off true).2.1 stProt) o c stProt (apertureVa s c g off true).2.1 := by
  have hs := apertureVa_of_right h (by decide)
  have hne : stProt ≠ stOk := by decide
  rw [hs] at h
  simp only [directWrite, hn, h, hs, if_pos hne]

end direct

theorem apertureReadBy_of_right {len : Nat} (h : apertureRight (apertureVa s c g off false).1 c (apertureVa s c g off false).2.1 len
    false (apertureVa s c g off false).2.2 = stOk) {st : Byte} {bs : List Byte} (hr : apertureRead s g off len = (st, bs))
    (hp : st ≠ stProt) (ho : st ≠ stOob) :
    apertureReadBy s o c g off len = answer s o c true st bs (apertureVa s c g off false).2.1 := by
  have hs := apertureVa_of_right h (by decide)
  rw [hs] at h
  simp only [apertureReadBy, h, hs, hr, pageRefused_of_unlogged _ _ _ _ hp ho, ne_eq, not_true,
    if_false]

/-! ## Direct commands -/

@[simp] theorem wakeDomain_reqNext (s : State) (d : Nat) : (wakeDomain s d).reqNext = s.reqNext := by
  unfold wakeDomain
  dsimp only
  split <;> rfl

@[simp] theorem wakeDomain_col (s : State) (d g : Nat) : (wakeDomain s d).col g = s.col g := by
  unfold wakeDomain
  dsimp only
  split <;> rfl

theorem regionOf_slot {k : Nat} (hk : k < 16) : regionOf (64 * k) 64 = some (.slots, 64 * k) := by
  have h0 : 64 * k < 0x400 := by omega
  have h1 : 64 * k + 64 ≤ 0x400 := by omega
  simp only [regionOf, h0, h1, decide_true, Bool.and_self, if_true]

section slot
variable {k : Nat} (hk : k < 16) {data : List Byte} (hdata : data.length = 64) (hbusy : computeBusy s = false)
  (hlive : pickLive s g = true) (hm : (s.col g).mode = .pick)
include hk hdata hbusy hlive hm

/-- A command record at a slot of a live pick in PICK mode: BUSY while the slot is queued or running, else queued. -/
theorem apertureWrite_slot (ctx : BitVec 6) : apertureWrite s g (64 * k) data ctx =
    if (tget ({} : SlotRec) (s.col g).slots k).state = 1 ∨ (tget ({} : SlotRec) (s.col g).slots k).state = 2 then (s, stBusy)
    else
      (({ wakeDomain s (18 + stackOf g) with reqNext := s.reqNext + 1 } : State).setCol g { s.col g with
          slots := tset {} (s.col g).slots k
            { state := 1, seq := recSeq (BitVec.ofNat 512 (leNat data)), record := BitVec.ofNat 512 (leNat data) },
          dirQ := (s.col g).dirQ ++
            [{ uid := s.reqNext, record := BitVec.ofNat 512 (leNat data), ctx := ctx, owner := .slot k }] }, stOk) := by
  obtain ⟨hf, hr⟩ := pickLive_iff.1 hlive
  have hslot : 64 * k / 64 = k := by omega
  have haligned : 64 * k % 64 = 0 := by omega
  have hcol : ({ wakeDomain s (18 + stackOf g) with reqNext := s.reqNext + 1 } : State).col g = s.col g := wakeDomain_col ..
  simp only [apertureWrite, hdata, regionOf_slot hk, hbusy, hf, hr, hm, hslot, haligned, ne_eq, not_true, decide_false, Bool.or_self,
    Bool.false_eq_true, if_false, Bool.or_eq_true, decide_eq_true_eq, State.newReq, wakeDomain_reqNext, State.modCol,
    hcol]

end slot

/-! ## Reads -/

theorem apertureRead_status (s : State) (g : Nat) : apertureRead s g 0x100000 8 = (stOk, leBytes 8 (statusWord (s.col g))) := by
  have hregion : regionOf 0x100000 8 = some (.status, 0) := rfl
  simp only [apertureRead, hregion, regionBytes, anyPoison_map_clean, hidePoison_map_clean, leBytes_eq_map, Nat.zero_add, Bool.not_true,
    Bool.false_eq_true, if_false]

theorem regionOf_entry {k : Nat} (hk : k < 512) : regionOf (0x200000 + 8 * k) 8 = some (.entries, 8 * k) := by
  have h0 : ¬ 0x200000 + 8 * k < 0x400 := by omega
  have h1 : 0x100000 ≤ 0x200000 + 8 * k := by omega
  have h2 : ¬ 0x200000 + 8 * k < 0x100008 := by omega
  have h3 : 0x100040 ≤ 0x200000 + 8 * k := by omega
  have h4 : ¬ 0x200000 + 8 * k < 0x100140 := by omega
  have h5 : 0x200000 ≤ 0x200000 + 8 * k := by omega
  have h6 : 0x200000 + 8 * k < 0x201000 := by omega
  have h7 : 0x200000 + 8 * k + 8 ≤ 0x201000 := by omega
  simp only [regionOf, h0, h1, h2, h3, h4, h5, h6, h7, decide_true, decide_false, Bool.and_false, Bool.false_and, Bool.and_self,
    Bool.false_eq_true, if_false, if_true, Nat.add_sub_cancel_left]

/-- The eight bytes of an entry's region are those of one entry. -/
theorem regionBytes_entry (c : Col) (k : Nat) :
    regionBytes c .entries (8 * k) 8 = (List.range 8).map fun i => (BitVec.ofNat 8 ((tget 0 c.entries k).toNat / 256 ^ i), false) := by
  refine List.map_congr_left fun i hi => ?_
  rw [List.mem_range] at hi
  have hdiv : (8 * k + i) / 8 = k := by omega
  have hmod : (8 * k + i) % 8 = i := by omega
  simp only [hdiv, hmod]

theorem apertureRead_entry {k : Nat} (hk : k < 512) : apertureRead s g (0x200000 + 8 * k) 8 =
    if (s.col g).window = [] ∧ computeBusy s = false then (stOk, leBytes 8 (tget 0 (s.col g).entries k).toNat) else (stBusy, []) := by
  simp only [apertureRead, regionOf_entry hk, regionBytes_entry, anyPoison_map_clean, hidePoison_map_clean, ← leBytes_eq_map,
    Bool.false_eq_true, if_false, Bool.not_eq_true', Bool.and_eq_false_iff, decide_eq_false_iff_not, Bool.not_eq_false']
  by_cases hw : (s.col g).window = [] <;> cases hb : computeBusy s <;> simp [hw]

/-! ## The two commands at a small offset -/

theorem exec_directCommandWrite_at (s : State) (o : Origin) (c : CtxId) (g : PickId) {n : Nat} (hn : n < 2 ^ 24) (data : List Byte) :
    exec (.directCommandWrite o c g (BitVec.ofNat 24 n) data) s = .next (directWrite s o c.val g.val n data) := by
  have hoff : (BitVec.ofNat 24 n).toNat = n := by rw [BitVec.toNat_ofNat, Nat.mod_eq_of_lt hn]
  exact congrArg (fun k => Host.Outcome.next (directWrite s o c.val g.val k data)) hoff

theorem exec_apertureRead_at (s : State) (o : Origin) (c : CtxId) (g : PickId) {n : Nat} (hn : n < 2 ^ 24) (len : BitVec 13) :
    exec (.apertureRead o c g (BitVec.ofNat 24 n) len) s = .next (apertureReadBy s o c.val g.val n len.toNat) := by
  have hoff : (BitVec.ofNat 24 n).toNat = n := by rw [BitVec.toNat_ofNat, Nat.mod_eq_of_lt hn]
  exact congrArg (fun k => Host.Outcome.next (apertureReadBy s o c.val g.val k len.toNat)) hoff

/-- Settles O15: a write by `apertureWrite_slot`, reads by their regions; the address holds the right (`apertureVa_of_right`). -/
theorem apertureWritesAndReads : Obligations.ApertureWritesAndReads := by
  refine ⟨fun o c g k data s hk hdata => ?_, fun o c g s => ⟨fun h => ?_, fun k hk h hw hbusy => ?_, fun k hk h hw => ?_⟩⟩
  · have hexec := exec_directCommandWrite_at s o c g (n := 64 * k) (by omega) data
    refine ⟨fun h hbusy hlive hm => ?_, fun h => hexec.trans (congrArg _ (directWrite_of_prot hdata h))⟩
    have hslot := apertureWrite_slot hk hdata hbusy hlive hm (BitVec.ofNat 6 c.val)
    refine ⟨fun h1 h2 => ?_, fun h2 => ?_⟩
    · have hw := hslot.trans (if_neg (not_or.2 ⟨h1, h2⟩))
      exact hexec.trans (congrArg _ (directWrite_of_right hdata h hw (by decide) (by decide)))
    · have hw := hslot.trans (if_pos (.inr h2))
      exact hexec.trans (congrArg _ (directWrite_of_right hdata h hw (by decide) (by decide)))
  · exact congrArg Host.Outcome.next (apertureReadBy_of_right h (apertureRead_status s g.val) (by decide) (by decide))
  · have hr := (apertureRead_entry (s := s) (g := g.val) hk).trans (if_pos ⟨hw, hbusy⟩)
    exact (exec_apertureRead_at s o c g (by omega) 8).trans (congrArg _ (apertureReadBy_of_right h hr (by decide) (by decide)))
  · have hr := (apertureRead_entry (s := s) (g := g.val) hk).trans (if_neg fun ⟨hempty, _⟩ => hw hempty)
    exact (exec_apertureRead_at s o c g (by omega) 8).trans (congrArg _ (apertureReadBy_of_right h hr (by decide) (by decide)))

end Sys2Proof.Machine
end

section
/-! SUPPORT. Admission of pick operations (R101, R103, R122). -/

namespace Sys2Proof.Machine
open Sys2Proof.Claims

variable {s t : State} {g : Nat} {o o' : PickOp} {seq : Bool} {st : Byte}

/-- With the window full neither stream admits anything. -/
theorem admitHead_of_full (h : 5 ≤ (s.col g).window.length) (seq : Bool) : admitHead s g seq = none := by
  simp only [admitHead, h, decide_true, Bool.true_or, if_true]
  split <;> rfl

theorem pickAdmission_of_full (hon : domainOn s (18 + stackOf g) = true) (h : 5 ≤ (s.col g).window.length) :
    pickAdmission s g = s := by
  simp only [pickAdmission, hon, admitHead_of_full h, Option.getD_none, if_true]

/-- The stream whose turn it is decides, and the other one where that has nothing that can enter. -/
theorem pickAdmission_of_onTurn (hon : domainOn s (18 + stackOf g) = true) (hturn : OnTurn s g o seq)
    (h : admitHead s g seq = some t) : pickAdmission s g = t := by
  obtain ⟨-, hother⟩ := hturn
  simp only [pickAdmission, hon, if_true]
  by_cases hlast : seq = (s.col g).lastSeq
  · rw [← hlast, hother hlast, Bool.not_not, h, Option.getD_some]
  · rw [← Bool.eq_not_of_ne hlast, h]

section head
variable (hhead : (if seq then (s.col g).seqQ else (s.col g).dirQ).head? = some o) (hroom : (s.col g).window.length < 5)
  (hstack : seq = true → seqOutstanding s (stackOf g) < 1024) (hchk : admissionChecks s g o = (t, o', st))
include hhead hroom hstack hchk

/-- The head of a stream with room: its first failing check, its conflict with the other stream, or its admission. -/
theorem admitHead_of_head : admitHead s g seq =
    if st ≠ stOk then some (pickEnd t g o st)
    else if claimsConflict o'.claims (((t.col g).window.filter fun x => isDirect x == seq).flatMap (·.claims)) then
      if seq then none
      else some (pickEnd (t.modStack (stackOf g) fun k => { k with directRefusals := satInc k.directRefusals }) g o stClaim)
    else some ({ t with reqNext := t.reqNext + 1 }.setCol g { t.col g with
      window := (t.col g).window ++ [{ o' with req := t.reqNext, waitsFor := fenceWaits (s.col g) o' }],
      lastSeq := seq,
      seqQ := if seq then (t.col g).seqQ.drop 1 else (t.col g).seqQ,
      dirQ := if seq then (t.col g).dirQ else (t.col g).dirQ.drop 1,
      slots := match o'.owner with
        | .slot n => tset {} (t.col g).slots n { tget ({} : SlotRec) (t.col g).slots n with state := 2 }
        | .pass _ _ => (t.col g).slots }) := by
  obtain ⟨rest, hq⟩ := List.head?_eq_some_iff.1 hhead
  have hlimit : (decide (5 ≤ (s.col g).window.length) || (seq && decide (1024 ≤ seqOutstanding s (stackOf g)))) = false := by
    simpa using ⟨hroom, hstack⟩
  simp only [admitHead, hq, hlimit, hchk, Bool.false_eq_true, if_false]
  rfl

end head

/-- Settles O16: each outcome is one branch of `admitHead_of_head`. -/
theorem pickAdmissionFollowsTheChecks : Obligations.PickAdmissionFollowsTheChecks := by
  intro g s t o o' seq st hon
  refine ⟨fun hfull => congrArg Host.Outcome.next (pickAdmission_of_full hon hfull), fun hroom hstack hturn hchk => ?_⟩
  have hadmit := admitHead_of_head hturn.1 hroom hstack hchk
  refine ⟨fun hst => ?_, fun hst hconf hseq => ?_, fun hst hfree => ?_⟩ <;>
    refine congrArg Host.Outcome.next (pickAdmission_of_onTurn hon hturn (hadmit.trans ?_))
  · exact if_pos hst
  · rw [if_neg (Decidable.not_not.2 hst), if_pos hconf, if_neg (hseq ▸ Bool.false_ne_true)]
  · exact (if_neg (Decidable.not_not.2 hst)).trans (if_neg (Bool.eq_false_iff.1 hfree))

end Sys2Proof.Machine
end

section
/-! SUPPORT. Start and completion of admitted pick operations (R97, R104, R117, R420). -/

namespace Sys2Proof.Machine
open Sys2Proof.Claims

/-! ## What forgetting a unit's accesses leaves alone -/

section innerDrop
variable (s : State) (p : Waiter → Bool)
@[simp] theorem innerDrop_cols : (innerDrop s p).cols = s.cols := rfl
@[simp] theorem innerDrop_now : (innerDrop s p).now = s.now := rfl
@[simp] theorem innerDrop_col (g : Nat) : (innerDrop s p).col g = s.col g := rfl
end innerDrop

variable {s : State} {g i : Nat} {o : PickOp}

/-! ## Completion -/

/-- The column of an operation that has gone. -/
theorem col_pickGone (hwf : tabWf ({} : Col) s.cols = true) (o : PickOp) (st : Byte) : (pickGone s g o st).col g =
    { s.col g with
      window := (s.col g).window.filter fun x => x.uid ≠ o.uid, seqQ := (s.col g).seqQ.filter fun x => x.uid ≠ o.uid,
      dirQ := (s.col g).dirQ.filter fun x => x.uid ≠ o.uid, opsDone := (s.col g).opsDone + 1, lastStatus := st,
      lastActive := if o.started.isSome then s.now else (s.col g).lastActive,
      segs := if st = stOk then (s.col g).segs else voidSweeps (s.col g).segs (opDies o) } :=
  State.col_setCol_same hwf g _

/-- A direct record without notify ends: its slot is DONE. -/
theorem pickEnd_of_slot {k : Nat} (howner : o.owner = .slot k) (hnotify : recNotify o.record = false) {a : Nat}
    (hstart : o.started = some a) (st : Byte) : pickEnd s g o st =
      (pickGone s g o st).modCol g fun c => { c with slots := tset {} c.slots k { tget ({} : SlotRec) c.slots k with
        state := 3, status := st, assay := o.assay, cycles := satAdd 0 (s.now - a) } } := by
  simp only [pickEnd, pickEnd1, slotDone, howner, hnotify, hstart, Bool.false_eq_true, if_false, if_true]
  rfl

section window
variable (hop : (s.col g).window[i]? = some o)
include hop

theorem pickCompletion_eq : pickCompletion s g i = if opFinished s o then pickEnd s g o o.status else s := by
  simp only [pickCompletion, hop]

/-! ## Start -/

theorem canStart_of_duty_closed (hclaims : o.claims ≠ []) (hduty : dutyOpen (dutyOf s (stackOf g)) s.now = false) :
    canStart s g i = false := by
  simp only [canStart, hop, hclaims, hduty, Bool.and_false, decide_false, Bool.or_self]

theorem pickStart_eq : pickStart s g i =
    if canStart s g i then
      if startCheck (s.col g) o then
        putOp (if o.claims = [] then s
          else (if stackIdle s (stackOf g) then s.modStack (stackOf g) fun k => { k with staggerAt := some s.now } else s).modCol g
            fun c => { c with portAt := some s.now }) g
          { o with started := some s.now, lastData := s.now, cost := opCost (s.col g) o, stepAt := s.now + 24 }
      else pickEnd s g o stMode
    else s := by
  simp only [pickStart, hop]

end window

theorem opFinished_iff {a : Nat} (h : o.started = some a) :
    opFinished s o = true ↔ o.done = true ∧ a + o.cost + o.delay ≤ s.now := by
  simp only [opFinished, h, Bool.and_eq_true, decide_eq_true_eq]

/-- Settles O17: starts by `pickStart_eq`, ends by `pickCompletion_eq` and `pickEnd_of_slot`, the column by `col_pickGone`. -/
theorem pickOperationsStartAndComplete : Obligations.PickOperationsStartAndComplete := by
  intro g i s o hop
  have hstart := congrArg (Host.Outcome.next (φ := Fault) (ρ := Refusal)) (pickStart_eq hop)
  have hend := congrArg (Host.Outcome.next (φ := Fault) (ρ := Refusal)) (pickCompletion_eq hop)
  refine ⟨fun hcan hcheck hclaims => ?_, fun hcan hcheck hclaims => ?_, fun hcan => ?_,
    fun hclaims hduty => canStart_of_duty_closed hop hclaims hduty, fun hcan hcheck => ?_,
    fun a k ha hdone hnow howner hnotify => ?_, fun a ha hnot => ?_, fun st hwf => ?_⟩
  · exact hstart.trans (by rw [if_pos hcan, if_pos hcheck, if_pos hclaims])
  · exact hstart.trans (by rw [if_pos hcan, if_pos hcheck, if_neg hclaims])
  · exact hstart.trans (by rw [if_neg (Bool.eq_false_iff.1 hcan)])
  · exact hstart.trans (by rw [if_pos hcan, if_neg (Bool.eq_false_iff.1 hcheck)])
  · exact hend.trans (by rw [if_pos ((opFinished_iff ha).2 ⟨hdone, hnow⟩), pickEnd_of_slot howner hnotify ha])
  · have hrun : ¬ opFinished s o = true := fun h => by
      obtain ⟨hdone, hnow⟩ := (opFinished_iff ha).1 h
      obtain hd | hlt := hnot
      · exact Bool.false_ne_true (hd.symm.trans hdone)
      · exact Nat.not_lt.2 hnow hlt
    exact hend.trans (by rw [if_neg hrun])
  · rw [col_pickGone hwf]
    exact ⟨rfl, rfl, by simp⟩

end Sys2Proof.Machine
end

section
/-! SUPPORT. PLOAD from its three sources (R107, R116, R134). -/

namespace Sys2Proof.Machine
open Sys2Proof.Claims

variable {s : State} {g i : Nat} {o : PickOp}

/-- An operation that runs as its next row step begins. -/
theorem portOp_of_running {op : Nat} (h : runningOp (claimWaitEnd s g) g i op = some o) :
    portOp s g i op = some (claimWaitEnd s g, o) := by
  simp only [portOp, h, Option.map_some]

/-- A status that is neither OK nor POISON has done nothing. -/
theorem stBad_iff {st : Byte} : stBad st = true ↔ st ≠ stOk ∧ st ≠ stPoison := by
  simp only [stBad, Bool.and_eq_true, decide_eq_true_eq]

section load
variable (hrun : runningOp (claimWaitEnd s g) g i opPload = some o)
include hrun

theorem pload_of_broadcast (hfn : recFn o.record = 0) : pload s g i =
    let ready := (claimWaitEnd s g).setCol g (loadPrep ((claimWaitEnd s g).col g) o.record)
    match o.segment with
    | some bs => loadSlots ready g { o with segment := none } bs (loadCost ready o)
    | none => ready := by
  simp only [pload, portOp_of_running hrun, hfn, if_true]
  rfl

theorem pload_of_column (hfn : recFn o.record = 1) : pload s g i =
    let e := readRows (claimWaitEnd s g) g o o.srcPa (ceilDiv (loadBytes o.record) 2048)
    loadSlots e.1 g (poisonStatus e.2.1 (anyPoison e.2.2)) e.2.2 o.cost := by
  simp only [pload, portOp_of_running hrun, hfn, Nat.one_ne_zero, if_false, if_true]

theorem pload_of_hub (hfn : recFn o.record = 2) {t : State} {st : Byte} {bs : List PByte}
    (hacc : innerAccess (claimWaitEnd s g) (pickReq g o) 0 (recSrcVa o.record) false [⟨o.srcPa, loadBytes o.record, false⟩] [] =
      .ok t (st, bs)) : pload s g i =
    let u := innerDrop t fun w => w == .pick o.uid
    if stBad st then putOp u g { o with done := true, status := st } else loadSlots u g o bs (loadCost u o) := by
  have h0 : ¬ 2 = 0 := by decide
  have h1 : ¬ 2 = 1 := by decide
  simp only [pload, portOp_of_running hrun, hfn, if_neg h0, if_neg h1, hacc]

end load

/-- Settles O19: one lemma for each source of the data. -/
theorem pickLoads : Obligations.PickLoads := by
  intro g i s o s1 ready hrun
  refine ⟨fun hfn hseg => ?_, fun bs hfn hseg => ?_, fun hfn => congrArg Host.Outcome.next (pload_of_column hrun hfn),
    fun t st bs hfn hacc => ?_⟩
  · exact congrArg Host.Outcome.next ((pload_of_broadcast hrun hfn).trans (by rw [hseg]))
  · exact congrArg Host.Outcome.next ((pload_of_broadcast hrun hfn).trans (by rw [hseg]))
  · have hload := pload_of_hub hrun hfn hacc
    refine ⟨fun hst => congrArg Host.Outcome.next (hload.trans (if_neg fun hbad => ?_)), fun hok hpoison =>
      congrArg Host.Outcome.next (hload.trans (if_pos (stBad_iff.2 ⟨hok, hpoison⟩)))⟩
    obtain ⟨hok, hpoison⟩ := stBad_iff.1 hbad
    exact hst.elim hok hpoison

end Sys2Proof.Machine
end

section
/-! SUPPORT. Dot products of PMV and PMVK (R108 to R111): reading the weights keeps what the operation is. -/

namespace Sys2Proof.Machine
open Sys2Proof.Claims

/-- What a fold keeps at every element holds of its result. -/
theorem foldl_keeps {α β : Type} {P : β → Prop} {f : β → α → β} (hf : ∀ b a, P b → P (f b a)) (l : List α) {b : β} (hb : P b) :
    P (l.foldl f b) := by
  induction l generalizing b with
  | nil => exact hb
  | cons a l ih => exact ih (hf b a hb)

/-- An operation after row steps is still that of a record and an owner. -/
def IsOp (r : BitVec 512) (w : PickOwner) (o : PickOp) : Prop := o.record = r ∧ o.owner = w

variable {r : BitVec 512} {w : PickOwner}

theorem isOp_rowRead {o : PickOp} (h : IsOp r w o) (s : State) (g pa i : Nat) : IsOp r w (rowRead s g o pa i).2.1 := by
  rw [rowRead_op]
  exact h

theorem isOp_readRun (g first n : Nat) {p : State × PickOp × Stream} (h : IsOp r w p.2.1) : IsOp r w (readRun g first n p).2.1 := by
  unfold readRun
  refine foldl_keeps (P := fun q : State × PickOp × Stream => IsOp r w q.2.1) (fun q i hq => ?_) _ h
  have hread := isOp_rowRead hq q.1 g q.2.1.srcPa (first + i)
  generalize rowRead q.1 g q.2.1 q.2.1.srcPa (first + i) = x at hread ⊢
  exact hread

theorem isOp_readStream {o : PickOp} (h : IsOp r w o) (s : State) (g : Nat) (f : WFmt) : IsOp r w (readStream s g o f).2.1 := by
  unfold readStream
  dsimp only
  split
  · exact isOp_readRun g 0 _ h
  · refine foldl_keeps (P := fun q : State × PickOp × Stream => IsOp r w q.2.1) (fun q m hq => ?_) _ h
    have hread := isOp_rowRead hq q.1 g q.2.1.auxPa m
    generalize rowRead q.1 g q.2.1 q.2.1.auxPa m = x at hread ⊢
    exact isOp_readRun g _ _ hread

theorem partialsOf_readStream (s : State) (g : Nat) (o : PickOp) (f : WFmt) : partialsOf (readStream s g o f).2.1 = partialsOf o := by
  obtain ⟨hr, ho⟩ := isOp_readStream (o := o) ⟨rfl, rfl⟩ s g f
  simp only [partialsOf, isDirect, hr, ho]

/-- Settles O20: `matVec` on the operation that runs; the partials are those of the operation as admitted. -/
theorem pickDotProducts : Obligations.PickDotProducts := by
  intro g i s o f hf
  have hne : ¬ opPmv = opPmvk := by decide
  refine ⟨fun hrun => congrArg Host.Outcome.next ?_, fun hrun => congrArg Host.Outcome.next ?_⟩
  · simp only [matVec, portOp_of_running hrun, hf, if_neg hne]
  · simp only [matVec, portOp_of_running hrun, hf, if_true, partialsOf_readStream]

end Sys2Proof.Machine
end

section
/-! SUPPORT. PFOLD in its roles (R112, R141, R142). -/

namespace Sys2Proof.Machine
open Sys2Proof.Claims

variable {s : State} {g i : Nat} {o : PickOp} (hrun : runningOp s g i opPfold = some o)
include hrun

theorem pfold_of_behind (hbehind : foldBehind (s.col g) i o = true) : pfold s g i = s := by
  simp only [pfold, hrun, Option.filter_some, hbehind, Bool.not_true, Bool.false_eq_true, if_false]

variable (hfirst : foldBehind (s.col g) i o = false)
include hfirst

theorem pfold_of_alone (hfn : recFn o.record ≤ 1) (hnext : nextLive s g (recDown o.record) = none) :
    pfold s g i = putOp s g { o with status := stFenced, done := true } := by
  simp only [pfold, hrun, Option.filter_some, hfirst, Bool.not_false, if_true, hfn, hnext, decide_true, Option.isNone_none,
    Bool.and_self]

/-- Role 0 sends its own partials. -/
theorem pfold_of_role0 {q a : Nat} (hfn : recFn o.record = 0) (hnext : nextLive s g (recDown o.record) = some q)
    (hstart : o.started = some a) : pfold s g i =
    let own := if recExact o.record then FoldSum.exact (foldExact (s.col g) o.record) else FoldSum.fast (foldFast (s.col g) o.record)
    let ws := foldWords o.record own
    putOp (foldSend s g q (a + 8 + ws.length) (recDown o.record) ws) g { o with cost := 8 + ws.length, done := true } := by
  simp only [pfold, hrun, Option.filter_some, hfirst, Bool.not_false, if_true, hfn, hnext, hstart, Option.isNone_some, Bool.and_false,
    Bool.false_eq_true, if_false, Option.getD_some]

/-- A receiving fold whose words have come: the cost and the place of the data. -/
def foldReceived (s : State) (o : PickOp) (came : List LinkWord) (a : Nat) : PickOp :=
  { o with cost := max (8 + came.length) (came.foldl (fun (m : Nat) (w : LinkWord) => max m w.at_) 0 + 4 - a), lastData := s.now }

/-- The receiving roles: MODE where what came does not match, else the sums go on, stay as partials, or become outputs. -/
theorem pfold_of_receiving {came rest : List LinkWord} {a : Nat} (hfn : 1 ≤ recFn o.record)
    (hnext : recFn o.record = 1 → (nextLive s g (recDown o.record)).isSome = true)
    (htake : takeFold (recDown o.record) (s.col g).inbox = some (came, rest)) (hstart : o.started = some a) : pfold s g i =
    let sum := foldSum (s.col g) o.record came
    let o1 := foldReceived s o came a
    let t := s.setCol g { s.col g with inbox := rest }
    if sum = .mismatch then putOp t g { o1 with status := stMode, done := true }
    else if recFn o.record = 1 then
      putOp (foldSend t g ((nextLive s g (recDown o.record)).getD g) (a + o1.cost) (recDown o.record) (foldWords o.record sum)) g
        { o1 with done := true }
    else if recFn o.record = 2 then putOp (t.modCol g fun k => foldKeep k o.record sum) g { o1 with done := true }
    else putOp (t.setCol g (foldOut (t.col g) o.record sum).1) g
      { o1 with assay := (countFlags (foldOut (t.col g) o.record sum).2).word, done := true } := by
  have halone : (decide (recFn o.record ≤ 1) && (nextLive s g (recDown o.record)).isNone) = false := by
    rw [Bool.and_eq_false_iff, decide_eq_false_iff_not, Option.isNone_eq_false_iff]
    by_cases h : recFn o.record = 1
    · exact .inr (hnext h)
    · exact .inl fun hle => h (Nat.le_antisymm hle hfn)
  have h0 : ¬ recFn o.record = 0 := Nat.ne_of_gt hfn
  simp only [pfold, hrun, Option.filter_some, hfirst, Bool.not_false, if_true, halone, h0, htake, hstart, Bool.false_eq_true, if_false,
    Option.getD_some, foldReceived]

end Sys2Proof.Machine

namespace Sys2Proof.Machine
open Sys2Proof.Claims

/-- Settles O21: one lemma for each role; the receiving ones are the branches of `pfold_of_receiving`. -/
theorem pickFolds : Obligations.PickFolds := by
  intro g i s o hrun
  refine ⟨fun hbehind => congrArg Host.Outcome.next (pfold_of_behind hrun hbehind), fun hfirst => ?_⟩
  refine ⟨fun hfn hnext => congrArg Host.Outcome.next (pfold_of_alone hrun hfirst hfn hnext),
    fun q a hfn hnext hstart => congrArg Host.Outcome.next (pfold_of_role0 hrun hfirst hfn hnext hstart),
    fun came rest a hlow hhigh hnext htake hstart => ?_⟩
  have hfold := pfold_of_receiving hrun hfirst hlow hnext htake hstart
  refine ⟨fun hsum => ?_, fun q hsum hfn hq => ?_, fun hsum hfn => ?_, fun hsum hfn => ?_⟩ <;>
    refine congrArg Host.Outcome.next (hfold.trans ?_)
  · exact if_pos hsum
  · refine (if_neg hsum).trans ((if_pos hfn).trans ?_)
    rw [hq]
    rfl
  · have hne : ¬ recFn o.record = 1 := by omega
    exact (if_neg hsum).trans ((if_neg hne).trans (if_pos hfn))
  · have hne : ¬ recFn o.record = 1 := by omega
    have hne' : ¬ recFn o.record = 2 := by omega
    exact (if_neg hsum).trans ((if_neg hne).trans (if_neg hne'))

end Sys2Proof.Machine
end

section
/-! SUPPORT. PDRAIN, PFENCE, and an operation without data (R113 to R115). -/

namespace Sys2Proof.Machine
open Sys2Proof.Claims

variable {s : State} {g i : Nat} {o : PickOp}

section drain
variable (hrun : runningOp (claimWaitEnd s g) g i opPdrain = some o)
include hrun

theorem pdrain_of_column (hfn : recFn o.record = 1) : pdrain s g i =
    let bs := (drainPieces ((claimWaitEnd s g).col g) o.record).flatMap (·.2)
    let e := (List.range (ceilDiv bs.length 2048)).foldl (fun (p : State × PickOp) j =>
      rowWrite p.1 g p.2 p.2.dstPa j (cleanBytes (sliceBytes bs (2048 * j) 2048))) (claimWaitEnd s g, o)
    putOp e.1 g { e.2 with done := true } := by
  simp only [pdrain, portOp_of_running hrun, hfn, if_true]

variable {a : Nat} (hfn : recFn o.record ≠ 1) (hstart : o.started = some a)
include hfn hstart

/-- Cycles of a drain to the hub: 16, and one for each 8 bytes. -/
def drainCost (ps : List (Nat × List Byte)) : Nat := 16 + ceilDiv (ps.map fun p => p.2.length).sum 8

theorem pdrain_of_early (hnow : s.now < a + drainCost (drainPieces ((claimWaitEnd s g).col g) o.record)) :
    pdrain s g i = claimWaitEnd s g := by
  simp only [drainCost] at hnow
  simp only [pdrain, portOp_of_running hrun, if_neg hfn, hstart, Option.getD_some, if_pos hnow]

theorem pdrain_of_written {t : State} {st : Byte} {bs : List PByte}
    (hnow : a + drainCost (drainPieces ((claimWaitEnd s g).col g) o.record) ≤ s.now)
    (hacc : innerAccess (claimWaitEnd s g) (pickReq g o) 0 (recDstVa o.record) true
      ((drainPieces ((claimWaitEnd s g).col g) o.record).map fun p => ⟨o.dstPa + p.1, p.2.length, true⟩)
      (cleanBytes ((drainPieces ((claimWaitEnd s g).col g) o.record).flatMap (·.2))) = .ok t (st, bs)) : pdrain s g i =
    putOp (innerDrop t fun w => w == .pick o.uid) g
      { o with done := true, status := if st = stOk then o.status else st,
               cost := drainCost (drainPieces ((claimWaitEnd s g).col g) o.record) } := by
  simp only [drainCost] at hnow ⊢
  simp only [pdrain, portOp_of_running hrun, if_neg hfn, hstart, Option.getD_some, if_neg (Nat.not_lt.2 hnow), hacc]

end drain

/-- A fence is done once nothing that it waits for is in the window. -/
theorem pfence_of_running (hrun : runningOp s g i opPfence = some o) : pfence s g i =
    if ∃ x ∈ (s.col g).window, x.uid ∈ o.waitsFor then s else putOp s g { o with done := true } := by
  simp only [pfence, hrun, List.any_eq_true, List.contains_iff_mem]

/-- A broadcast load or a receiving fold that has had no data for 10 ms. -/
theorem pickDataTimeout_of_late {a : Nat} (hop : (s.col g).window[i]? = some o) (hstart : o.started = some a) (hdone : o.done = false)
    (hwaits : (recOp o.record = opPload ∧ recFn o.record = 0) ∨ (recOp o.record = opPfold ∧ recFn o.record ≠ 0))
    (hlate : o.lastData + 8000000 ≤ s.now) : pickDataTimeout s g i = pickEnd s g o stTimeout := by
  have hwaits' : ((recOp o.record == opPload && recFn o.record == 0) || (recOp o.record == opPfold && recFn o.record ≠ 0)) = true := by
    simpa only [Bool.or_eq_true, Bool.and_eq_true, beq_iff_eq, decide_eq_true_eq] using hwaits
  have hlate' : decide (o.lastData + 10 * msCycles ≤ s.now) = true := decide_eq_true hlate
  simp only [pickDataTimeout, hop, hstart, hdone, hwaits', hlate', Option.isSome_some, Bool.not_false, Bool.and_self, if_true]

/-- Settles O22: the drains, the fence and the time limit, each by its lemma. -/
theorem pickDrainsAndFences : Obligations.PickDrainsAndFences := by
  intro g i s o s1 ps cost
  refine ⟨fun a hrun hfn hstart => ⟨fun hnow => ?_, fun t st bs hnow hacc => ?_⟩, fun hrun hfn => ?_,
    fun hrun => ⟨fun hnone => ?_, fun hsome => ?_⟩, fun a hop hstart hdone hwaits hlate => ?_⟩
  · exact congrArg Host.Outcome.next (pdrain_of_early hrun hfn hstart hnow)
  · exact congrArg Host.Outcome.next (pdrain_of_written hrun hfn hstart hnow hacc)
  · exact congrArg Host.Outcome.next (pdrain_of_column hrun hfn)
  · exact congrArg Host.Outcome.next ((pfence_of_running hrun).trans (if_neg fun ⟨x, hx, hmem⟩ => hnone x hx hmem))
  · exact congrArg Host.Outcome.next ((pfence_of_running hrun).trans (if_pos hsome))
  · exact congrArg Host.Outcome.next (pickDataTimeout_of_late hop hstart hdone hwaits hlate)

end Sys2Proof.Machine
end

section
/-! SUPPORT. Refresh intervals, owed refreshes and targeted refreshes (R287, R288, R292, R295, R312). -/

namespace Sys2Proof.Machine
open Sys2Proof.Claims

theorem refreshDue_of_idle {s : State} {g : Nat} (hst : (s.col g).refStarted = true) (hret : (s.col g).retired = false)
    (hdue : (s.col g).refDue ≤ s.now) (hidle : busyDies (columnRate s g) g = []) :
    refreshDue s g = nextInterval (((List.range 16).filter (dieRefreshed (s.col g) (s.col g).refDue)).foldl
      (refreshDie g (s.col g).refK (s.col g).refDue) (columnRate s g)) g := by
  have hnone : (List.range 16).filter (fun _ => false) = [] := rfl
  simp [hnone, refreshDue, hst, hret, hdue, hidle]

theorem refreshDue_of_notDue {s : State} {g : Nat}
    (h : (s.col g).refStarted = false ∨ (s.col g).retired = true ∨ s.now < (s.col g).refDue) : refreshDue s g = s := by
  refine if_neg fun hdue => ?_
  simp only [Bool.and_eq_true, Bool.not_eq_true', decide_eq_true_eq] at hdue
  obtain ⟨⟨hst, hret⟩, hle⟩ := hdue
  obtain h | h | h := h
  · exact Bool.false_ne_true (h.symm.trans hst)
  · exact Bool.false_ne_true (hret.symm.trans h)
  · omega

/-- The fill has reached the last die, 15, of a column after seven pages and 64 cycles (R312). -/
theorem filter_dieRefreshed_of_filled {c : Col} {due : Nat} (h : c.refFrom + 3670248 ≤ due) :
    (List.range 16).filter (dieRefreshed c due) = List.range 16 := by
  refine List.filter_eq_self.2 fun die hdie => decide_eq_true ?_
  have hlt : die < 16 := List.mem_range.1 hdie
  have hpage : die / 2 * 524312 ≤ 7 * 524312 := Nat.mul_le_mul_right _ (by omega)
  have hpair : die % 2 * 64 ≤ 64 := by omega
  change c.refFrom + die / 2 * 524312 + die % 2 * 64 ≤ due
  omega

theorem col_nextInterval {s : State} {g : Nat} (hw : tabWf ({} : Col) s.cols = true) (hk : (s.col g).refK ≠ 4095) :
    (nextInterval s g).col g = { s.col g with
      refK := ((s.col g).refK + 1) % 4096, refDue := (s.col g).refDue + trefi (s.col g).refRate,
      rescueLeft := (s.col g).rescueLeft - 1 } := by
  simp only [nextInterval, hk, if_false, State.col_setCol_same hw]

theorem insertionDue_iff {s : State} {g : Nat} :
    insertionDue s g = true ↔ 8 ≤ (s.col g).owed.length ∨ (s.col g).owed ≠ [] ∧ portBusy s g = false := by
  simp only [insertionDue, Bool.or_eq_true, Bool.and_eq_true, decide_eq_true_eq, Bool.not_eq_true']

theorem insertOwed_of_owed {s : State} {g : Nat} (h : (s.col g).owed ≠ []) :
    insertOwed s g =
      delayOp ((((s.col g).owed.foldl (fun u o => o.dies.foldl (refreshDie g o.row o.due) u) s).modCol g
        fun c => { c with owed := [] }).modStack (stackOf g) fun x => { x with refInsertions := x.refInsertions + 1 })
        g (4 + 36 * (s.col g).owed.length) :=
  if_neg h

theorem targetedRefresh_row {s : State} {g die row : Nat} {rest : List (Nat × Nat × Bool)}
    (h : (s.col g).trrOwed = (die, row, false) :: rest) :
    targetedRefresh s g = ((if (busyDies s g).contains die then delayOp s g 148 else s).modCol g
      fun c => { c with trrOwed := rest }).modStack (stackOf g) fun k => { k with rowTrr := satInc k.rowTrr } := by
  unfold targetedRefresh
  rw [h]
  rfl

theorem targetedRefresh_seg {s : State} {g die seg : Nat} {rest : List (Nat × Nat × Bool)}
    (h : (s.col g).trrOwed = (die, seg, true) :: rest) (hfree : (busyDies s g).contains die = false) :
    targetedRefresh s g = (s.modCol g fun c => { c with trrOwed := rest }).modStack (stackOf g)
      fun k => { k with segTrr := satInc k.segTrr } := by
  unfold targetedRefresh
  rw [h]
  simp only [hfree, Bool.false_eq_true, if_false, if_true]

/-- Settles O25, one equation of `refreshDue`, `insertOwed` and `targetedRefresh` for each case. -/
theorem refreshKeepsTime : Obligations.RefreshKeepsTime := by
  unfold Obligations.RefreshKeepsTime
  refine ⟨fun s g => ⟨fun hst hret hdue hidle => ?_, fun c due h => filter_dieRefreshed_of_filled h, fun h => ?_,
    fun hw hk => ?_, rfl, rfl, rfl⟩, fun s g => ⟨fun h => ?_, fun howed h => ?_, fun die row rest h hfree => ?_,
    fun die row rest h hbusy => ?_, fun die seg rest h hfree => ?_⟩⟩
  · exact congrArg Host.Outcome.next (refreshDue_of_idle hst hret hdue hidle)
  · exact congrArg Host.Outcome.next (refreshDue_of_notDue h)
  · rw [col_nextInterval hw hk]
    exact ⟨by simp only; omega, rfl⟩
  · exact congrArg Host.Outcome.next (if_neg (by simp only [h, Bool.false_eq_true, not_false_eq_true]))
  · have hdue : insertionDue s g.val = true := insertionDue_iff.2 (h.imp_right fun hb => ⟨howed, hb⟩)
    exact congrArg Host.Outcome.next ((if_pos hdue).trans (insertOwed_of_owed howed))
  · exact congrArg Host.Outcome.next ((targetedRefresh_row h).trans (by rw [if_neg (by simp only [hfree, Bool.false_eq_true, not_false_eq_true])]))
  · exact congrArg Host.Outcome.next ((targetedRefresh_row h).trans (by rw [if_pos hbusy]))
  · exact congrArg Host.Outcome.next (targetedRefresh_seg h hfree)

end Sys2Proof.Machine
end

section
/-! SUPPORT. The column's command path and the hub link (R296, R297). -/

namespace Sys2Proof.Machine
open Sys2Proof.Claims

/-- Settles O26: each alert that the statement names takes one branch of `parityAlert`. -/
theorem commandPathAlerts : Obligations.CommandPathAlerts := by
  unfold Obligations.CommandPathAlerts
  intro s g hpath
  refine ⟨fun hlane hal => ?_, fun hlane hal hnow htr => ?_, fun hlane => ?_, fun hlane => ?_, fun hlane hal hnow htr => ?_⟩
  · refine congrArg Host.Outcome.next ?_
    simp [parityAlert, hpath, hlane, hal]
  · refine congrArg Host.Outcome.next ?_
    simp [parityAlert, hpath, hlane, hal, hnow, htr]
  · exact congrArg Host.Outcome.next (if_pos hlane)
  · simp only [colStalled, hlane, Bool.true_or]
  · refine congrArg Host.Outcome.next ?_
    simp [parityAlert, hpath, hlane, hal, hnow, htr]

theorem linkFrame_good_down {s : State} {n : Nat} {ftype : Byte} {payload : List Byte} {crc : W32} {seq : Byte}
    (hup : (s.stack n).linkUp = true) (hlen : payload.length = 64) (hcrc : crc32 ([seq, ftype] ++ payload) = crc)
    (hseq : seq = (s.stack n).seqDown) :
    linkFrame s n true seq ftype payload crc =
      s.setStack n { s.stack n with framesDown := frameKept (s.stack n).framesDown (seq, ftype, payload),
                                    seqDown := seq + 1, replayDown := 0, dropDown := false } := by
  have hgood : (decide (payload.length = 64) && crc32 ([seq, ftype] ++ payload) == crc) = true := by
    rw [hlen, hcrc, BEq.rfl]; rfl
  subst hseq
  simp only [linkFrame, hgood, hup, Bool.not_true, Bool.false_eq_true, if_false, if_true, decide_true, Bool.and_self]

theorem linkFrame_good_up {s : State} {n : Nat} {ftype : Byte} {payload : List Byte} {crc : W32} {seq : Byte}
    (hup : (s.stack n).linkUp = true) (hlen : payload.length = 64) (hcrc : crc32 ([seq, ftype] ++ payload) = crc)
    (hseq : seq = (s.stack n).seqUp) :
    linkFrame s n false seq ftype payload crc =
      s.setStack n { s.stack n with framesUp := frameKept (s.stack n).framesUp (seq, ftype, payload),
                                    seqUp := seq + 1, replayUp := 0, dropUp := false } := by
  have hgood : (decide (payload.length = 64) && crc32 ([seq, ftype] ++ payload) == crc) = true := by
    rw [hlen, hcrc, BEq.rfl]; rfl
  subst hseq
  simp only [linkFrame, hgood, hup, Bool.not_true, Bool.false_eq_true, if_false, if_true, decide_true, Bool.and_self]

theorem linkFrame_bad_down {s : State} {n : Nat} {ftype : Byte} {payload : List Byte} {crc : W32} {seq : Byte}
    (hup : (s.stack n).linkUp = true) (hcrc : crc32 ([seq, ftype] ++ payload) ≠ crc) (hdrop : (s.stack n).dropDown = false) :
    linkFrame s n true seq ftype payload crc =
      linkNak (s.setStack n { s.stack n with linkCrcErrors := satInc (s.stack n).linkCrcErrors }) n true := by
  have hgood : (decide (payload.length = 64) && crc32 ([seq, ftype] ++ payload) == crc) = false := by
    rw [beq_eq_false_iff_ne.2 hcrc, Bool.and_false]
  simp only [linkFrame, hgood, hup, hdrop, Bool.not_true, Bool.not_false, Bool.false_eq_true, if_false, if_true, Bool.false_and]

theorem shaftLinkRetrained_of_down {s : State} {n : Nat} (hdown : (s.stack n).linkUp = false) (hre : (s.stack n).linkRetrains ≠ 0) :
    shaftLinkRetrained s n = crossbarIn (logShaftLink (s.modStack n fun k => { k with linkUp := true }) n 3) n := by
  simp only [shaftLinkRetrained, hdown, hre, Bool.false_or, decide_false, Bool.false_eq_true, if_false]

theorem crossbarIn_of_noWaits {s : State} (h : s.waits = []) (n : Nat) : crossbarIn s n = s := by
  simp only [crossbarIn, h, List.filter_nil, List.foldl_nil]

/-- Settles O27: delivery, NAK and retraining as branches of `linkFrame`, `linkNak` and `shaftLinkRetrained`. -/
theorem hubLinkFramesAndRecovery : Obligations.HubLinkFramesAndRecovery := by
  unfold Obligations.HubLinkFramesAndRecovery
  refine ⟨fun s n ftype payload crc seq hup => ⟨fun hlen hcrc hseq => ?_, fun hlen hcrc hseq => ?_, fun hcrc hdrop => ?_,
    fun h => ?_, fun h => ?_⟩, fun s n hdown => ⟨fun hre hwaits => ?_, fun hre => ?_, fun r hr => ?_⟩⟩
  · exact congrArg Host.Outcome.next (linkFrame_good_down hup hlen hcrc hseq)
  · exact congrArg Host.Outcome.next (linkFrame_good_up hup hlen hcrc hseq)
  · exact congrArg Host.Outcome.next (linkFrame_bad_down hup hcrc hdrop)
  · simp [linkNak, Nat.not_le.2 h, State.emit]
  · simp [linkNak, h]
  · refine congrArg Host.Outcome.next ?_
    rw [shaftLinkRetrained_of_down hdown hre, crossbarIn_of_noWaits]
    · exact congrArg (fun t => logShaftLink t n.val 3) rfl
    · exact (congrArg State.waits (logRec_eq _ _)).trans hwaits
  · refine congrArg Host.Outcome.next ?_
    exact shaftLinkRetrained_of_down hdown hre
  · refine congrArg Host.Outcome.next ?_
    have hfind : (s.waits.find? fun w => stackOf w.col == n.val && w.held &&
        (!(s.stack n.val).linkUp && decide (max w.arrived (s.stack n.val).linkDownAt + 10 * msCycles ≤ s.now))) = some r := by
      simp only [hdown, Bool.not_false, Bool.true_and]
      exact hr
    unfold stackRequestTimeout
    simp only [hfind]

end Sys2Proof.Machine
end

section
/-! SUPPORT. Write-backs, scrub steps and row repair (R302, R305, R308, R309, R313). -/

namespace Sys2Proof.Machine
open Sys2Proof.Claims

section WriteBack
variable {s : State} {g : Nat} {l : W64} (hidle : colIdle s g = true) (hhead : wbqHead s g = some l)
include hidle hhead

theorem writeBackEntry_clean
    (hcw : cwState (actRow (s.modStack (stackOf g) fun k => { k with wbq := k.wbq.filter fun x => x ≠ l }) g (locDie l) (locRow l))
      g (locDie l) (locRow l) (locCw l) = .clean) :
    writeBackEntry s g =
      actRow (s.modStack (stackOf g) fun k => { k with wbq := k.wbq.filter fun x => x ≠ l }) g (locDie l) (locRow l) := by
  unfold writeBackEntry
  simp only [hhead, hidle, if_true, hcw]

theorem writeBackEntry_fix {p : Nat} {e : Byte}
    (hcw : cwState (actRow (s.modStack (stackOf g) fun k => { k with wbq := k.wbq.filter fun x => x ≠ l }) g (locDie l) (locRow l))
      g (locDie l) (locRow l) (locCw l) = .fix p e) :
    writeBackEntry s g =
      cwFix (actRow (s.modStack (stackOf g) fun k => { k with wbq := k.wbq.filter fun x => x ≠ l }) g (locDie l) (locRow l))
        g (locDie l) (locRow l) (locCw l) p e := by
  unfold writeBackEntry
  simp only [hhead, hidle, if_true, hcw]

end WriteBack

theorem scrubStep_of_idle {s : State} {g : Nat} (hidle : colIdle s g = true) (hen : (s.stack (stackOf g)).scrubEnable = true)
    (hst : (s.col g).refStarted = true) (hret : (s.col g).retired = false) (hhead : wbqHead s g = none) :
    scrubStep s g =
      if rowClaimed s g (s.col g).scrubDie (s.col g).scrubRow then
        scrubAdvance (s.modStack (stackOf g) fun k => { k with scrubSkipped := satInc k.scrubSkipped }) g
      else scrubAdvance ((List.range 64).foldl (scrubCw g (s.col g).scrubDie (s.col g).scrubRow)
        (actRow s g (s.col g).scrubDie (s.col g).scrubRow)) g := by
  simp only [scrubStep, hidle, hen, hst, hret, hhead, Option.isNone_none, Bool.not_false, Bool.and_self, if_true]

theorem scrubStep_of_disabled {s : State} {g : Nat} (h : (s.stack (stackOf g)).scrubEnable = false) : scrubStep s g = s := by
  simp only [scrubStep, h, Bool.false_and, Bool.false_eq_true, if_false]

theorem col_modCol_same {s : State} (hw : tabWf ({} : Col) s.cols = true) (g : Nat) (f : Col → Col) :
    (s.modCol g f).col g = f (s.col g) :=
  State.col_setCol_same hw g _

/-- Settles O28, a branch of `writeBackEntry` and `scrubStep` for each case. -/
theorem writeBackAndScrub : Obligations.WriteBackAndScrub := by
  unfold Obligations.WriteBackAndScrub
  refine fun s g hidle => ⟨fun l hhead => ⟨fun hcw => ?_, fun p e hcw => ?_⟩,
    fun hen hst hret hhead => ⟨fun hclaim => ?_, fun hclaim => ?_⟩, fun hen => ?_, fun c hw hc hdie => ?_⟩
  · exact congrArg Host.Outcome.next (writeBackEntry_clean hidle hhead hcw)
  · exact congrArg Host.Outcome.next (writeBackEntry_fix hidle hhead hcw)
  · exact congrArg Host.Outcome.next ((scrubStep_of_idle hidle hen hst hret hhead).trans (if_pos hclaim))
  · exact congrArg Host.Outcome.next ((scrubStep_of_idle hidle hen hst hret hhead).trans
      (if_neg (by rw [hclaim]; exact Bool.false_ne_true)))
  · exact congrArg Host.Outcome.next (scrubStep_of_disabled hen)
  · rw [scrubAdvance, col_modCol_same hw, hc]
    exact if_pos hdie

/-! ## Table 10.10 -/

section RemapReq
variable {s : State} {n : Nat} {l : W64} (p : DictPath) (hheld : remapHeld s n = false)
include hheld

theorem remapReqWrite_of_badLocator (h : bitsAt l 63 35 ≠ 0 ∨ bitsAt l 33 31 ≠ n ∨ bitAt l 34 = true) :
    remapReqWrite s p n l = (s, some stOob) := by
  have hbad : (bitsAt l 63 35 ≠ 0 || bitsAt l 33 31 ≠ n || bitAt l 34) = true := by
    simpa only [ne_eq, decide_not, Bool.or_eq_true, Bool.not_eq_true', decide_eq_false_iff_not, or_assoc] using h
  simp only [remapReqWrite, hheld, Bool.false_eq_true, if_false, hbad, if_true]

variable (hzero : bitsAt l 63 35 = 0) (hstack : bitsAt l 33 31 = n) (hbit : bitAt l 34 = false)
include hzero hstack hbit

theorem remapReqWrite_of_locator :
    remapReqWrite s p n l =
      if (s.col (locCol l)).retired then (s, some stFenced)
      else if (s.stack n).remapJob.isSome then (s, some stBusy)
      else if !(remapRoom s (locCol l) (locDie l) (locRow l)) then (logRemap s l stOob 0, some stOob)
      else (remapStart s (l &&& ~~~ 0x3F) (some p), none) := by
  simp only [remapReqWrite, hheld, hzero, hstack, hbit, ne_eq, not_true_eq_false, decide_false, Bool.or_self, Bool.false_eq_true,
    if_false]

theorem remapReqWrite_of_idle (hret : (s.col (locCol l)).retired = false) (hjob : (s.stack n).remapJob = none) :
    remapReqWrite s p n l =
      if remapRoom s (locCol l) (locDie l) (locRow l) then (remapStart s (l &&& ~~~ 0x3F) (some p), none)
      else (logRemap s l stOob 0, some stOob) := by
  rw [remapReqWrite_of_locator p hheld hzero hstack hbit, hret, hjob]
  cases remapRoom s (locCol l) (locDie l) (locRow l) <;> rfl

end RemapReq

/-- Settles O29, the rows of Table 10.10 in their order. -/
theorem remapRequests : Obligations.RemapRequests := by
  unfold Obligations.RemapRequests
  refine fun p n l s u ho => ⟨fun hheld => ?_, fun hheld hbad => ?_, fun hheld hzero hstack hbit =>
    ⟨fun hret => ?_, fun hret hjob => ?_, fun hret hjob hroom => ?_, fun hret hjob hroom => ?_⟩⟩
  · exact answers_of_dictRow rfl ho (if_pos hheld)
  · exact answers_of_dictRow rfl ho (remapReqWrite_of_badLocator p hheld hbad)
  · exact answers_of_dictRow rfl ho ((remapReqWrite_of_locator p hheld hzero hstack hbit).trans (if_pos hret))
  · exact answers_of_dictRow rfl ho ((remapReqWrite_of_locator p hheld hzero hstack hbit).trans
      ((if_neg (by rw [hret]; exact Bool.false_ne_true)).trans (if_pos hjob)))
  · exact answers_of_dictRow rfl ho ((remapReqWrite_of_idle p hheld hzero hstack hbit hret hjob).trans
      (if_neg (by rw [hroom]; exact Bool.false_ne_true)))
  · exact holds_of_dictRow rfl ho ((remapReqWrite_of_idle p hheld hzero hstack hbit hret hjob).trans (if_pos hroom))

/-! ## A remap in progress -/

section RemapJob
variable {s : State} {n : Nat} {j : RemapJob} (hjob : (s.stack n).remapJob = some j)
include hjob

theorem remapCopy_of_free (hgr : j.granted = none) (hh : j.holders = []) (hb : j.behind = []) :
    remapCopy s n = s.modStack n fun k => { k with remapJob := some { j with granted := some s.now } } := by
  unfold remapCopy
  simp only [hjob, hgr, hh, hb, List.all_nil, Bool.and_self, if_true]

theorem remapCopy_of_granted {a : Nat} (hgr : j.granted = some a) :
    remapCopy s n = if a + 200 ≤ s.now then remapDo s n j else s := by
  unfold remapCopy
  simp only [hjob, hgr]

theorem remapClaimTimeout_of_late (hgr : j.granted = none) (hlate : j.since + 10 * msCycles ≤ s.now) :
    remapClaimTimeout s n = remapEnd s n j stTimeout := by
  unfold remapClaimTimeout
  simp only [hjob, hgr, Option.isNone_none, hlate, decide_true, Bool.and_self, if_true]

end RemapJob

section EnterRemap
variable {c : Col} {die row : Nat} (spare : Nat) (hnew : ∀ r ∈ c.remaps, ¬ (r.die = die ∧ r.row = row))
include hnew

theorem find?_remaps_of_new : (c.remaps.find? fun r => r.die == die && r.row == row) = none :=
  List.find?_eq_none.2 fun r hr h => hnew r hr (by simpa only [Bool.and_eq_true, beq_iff_eq] using h)

theorem remaps_enterRemap_of_new : (enterRemap c die row spare).remaps = c.remaps ++ [⟨die, row, spare⟩] := by
  unfold enterRemap
  simp only [find?_remaps_of_new hnew]

theorem physRow_enterRemap_of_new : physRow (enterRemap c die row spare) die row = 4096 + spare := by
  have hfind : (((enterRemap c die row spare).remaps ++ (enterRemap c die row spare).factory).find?
      fun r => r.die == die && r.row == row) = some ⟨die, row, spare⟩ := by
    rw [remaps_enterRemap_of_new spare hnew, List.append_assoc, List.find?_append, find?_remaps_of_new hnew]
    simp
  unfold physRow
  rw [hfind]

end EnterRemap

theorem remapSelWrite_of_le {s : State} {n : Nat} {v : W16} (h : v.toNat ≤ 511) :
    remapSelWrite s n v.toNat = (s.setStack n { s.stack n with
      remapSel := v, remapSnap := (s.col (n * 512 + v.toNat)).remaps.map remapWord }, stOk) := by
  simp only [remapSelWrite, Nat.not_lt.2 h, if_false, BitVec.ofNat_toNat, BitVec.setWidth_eq]
  rfl

/-- Settles O30, the branches of `remapCopy`, `remapClaimTimeout` and `remapSelWrite`, and the table that `enterRemap` leaves. -/
theorem remapsProceed : Obligations.RemapsProceed := by
  unfold Obligations.RemapsProceed
  refine fun s n j => ⟨fun hjob => ⟨fun hgr hh hb => ?_, fun a hgr hnow => ?_, fun a hgr hnow => ?_, fun hgr hlate => ?_⟩,
    fun c die row spare hnew => ⟨remaps_enterRemap_of_new spare hnew, physRow_enterRemap_of_new spare hnew⟩,
    fun p v u ho => ⟨fun hv => ?_, fun hv => ?_⟩⟩
  · exact congrArg Host.Outcome.next (remapCopy_of_free hjob hgr hh hb)
  · exact congrArg Host.Outcome.next ((remapCopy_of_granted hjob hgr).trans (if_neg (Nat.not_le.2 hnow)))
  · exact congrArg Host.Outcome.next ((remapCopy_of_granted hjob hgr).trans (if_pos hnow))
  · exact congrArg Host.Outcome.next (remapClaimTimeout_of_late hjob hgr hlate)
  · exact answers_of_dictRow1 rfl ho (remapSelWrite_of_le hv)
  · exact answers_of_dictRow1 rfl ho (if_pos hv)

end Sys2Proof.Machine
end

section
/-! SUPPORT. What a read of DRAM gives depends on memory, the check symbols and the columns alone, and it leaves these and the
transfers as they are (R300 to R303). -/

namespace Sys2Proof.Machine
open Sys2Proof.Claims

/-- Two states hold the same DRAM: bytes, check symbols and columns. -/
structure SameDram (s t : State) : Prop where
  mem : t.mem = s.mem
  ecc : t.eccDiff = s.eccDiff
  cols : t.cols = s.cols

/-- What a read may count or log leaves the DRAM, the transfers and the waits of a state. -/
structure ReadKeeps (s t : State) : Prop extends SameDram s t where
  xfers : t.xfers = s.xfers

theorem SameDram.refl (s : State) : SameDram s s := ⟨rfl, rfl, rfl⟩

theorem SameDram.trans {s t u : State} (h : SameDram s t) (h' : SameDram t u) : SameDram s u :=
  ⟨h'.mem.trans h.mem, h'.ecc.trans h.ecc, h'.cols.trans h.cols⟩

theorem SameDram.symm {s t : State} (h : SameDram s t) : SameDram t s := ⟨h.mem.symm, h.ecc.symm, h.cols.symm⟩

theorem ReadKeeps.refl (s : State) : ReadKeeps s s := ⟨.refl s, rfl⟩

theorem ReadKeeps.trans {s t u : State} (h : ReadKeeps s t) (h' : ReadKeeps t u) : ReadKeeps s u :=
  ⟨h.toSameDram.trans h'.toSameDram, h'.xfers.trans h.xfers⟩

theorem modStack_readKeeps (s : State) (n : Nat) (f : Stack → Stack) : ReadKeeps s (s.modStack n f) := ⟨⟨rfl, rfl, rfl⟩, rfl⟩

theorem logRec_readKeeps {s t : State} (h : ReadKeeps s t) (r : FaultRec) : ReadKeeps s (logRec t r) := by
  rw [logRec_eq]
  exact h.trans ⟨⟨rfl, rfl, rfl⟩, rfl⟩

theorem raiseEmcy_readKeeps (s : State) (code : W16) (unit : Byte) (detail : Nat) : ReadKeeps s (raiseEmcy s code unit detail) := by
  dsimp only [raiseEmcy]
  split
  · refine logRec_readKeeps ?_ _
    exact ⟨⟨rfl, rfl, rfl⟩, rfl⟩
  · exact .refl s

theorem remapAuto_readKeeps (s : State) (l : W64) : ReadKeeps s (remapAuto s l) := by
  simp only [remapAuto]
  split
  · exact logRec_readKeeps (.refl s) _
  split
  · exact .refl s
  split
  · exact logRec_readKeeps (.refl s) _
  split
  · split
    · exact .refl s
    · exact modStack_readKeeps _ _ _
  · exact ⟨⟨rfl, rfl, rfl⟩, rfl⟩

theorem ceFound_readKeeps (s : State) (g die row cw : Nat) : ReadKeeps s (ceFound s g die row cw) := by
  have hput : ∀ (k : Stack) (n : Nat) (l : W64), ReadKeeps s
      (if n = k.ceRemapThresh.toNat then remapAuto (s.setStack (stackOf g) k) l else s.setStack (stackOf g) k) := fun k n l => by
    have hset : ReadKeeps s (s.setStack (stackOf g) k) := ⟨⟨rfl, rfl, rfl⟩, rfl⟩
    split
    · exact hset.trans (remapAuto_readKeeps _ _)
    · exact hset
  exact hput _ _ _

theorem ueFound_readKeeps (s : State) (g die row cw : Nat) (code : W16) (ctx : BitVec 6) :
    ReadKeeps s (ueFound s g die row cw code ctx) :=
  (logRec_readKeeps (modStack_readKeeps s _ _) _).trans (raiseEmcy_readKeeps _ _ _ _)

theorem readCw_readKeeps (s : State) (g die row cw : Nat) (code : W16) (ctx : BitVec 6) :
    ReadKeeps s (readCw s g die row cw code ctx).1 := by
  dsimp only [readCw]
  split
  · exact .refl s
  · exact ceFound_readKeeps _ _ _ _ _
  · exact ueFound_readKeeps _ _ _ _ _ _ _

theorem readCw_snd_congr {s t : State} (h : SameDram s t) (g die row cw : Nat) (code : W16) (ctx : BitVec 6) :
    (readCw t g die row cw code ctx).2 = (readCw s g die row cw code ctx).2 := by
  obtain ⟨hmem, hecc, hcols⟩ := h
  have hk : cwKey t g die row cw = cwKey s g die row cw := by simp only [cwKey, State.col, hcols]
  have hraw : ∀ k, t.rdBytes k 32 = s.rdBytes k 32 := fun k => by simp only [State.rdBytes, State.rdByte, hmem]
  dsimp only [readCw]
  rw [hk, hraw, hecc]
  cases eccDecode (tget 0 s.eccDiff (cwKey s g die row cw)) <;> rfl

theorem readRowCws_readKeeps (s : State) (g die row : Nat) (code : W16) (ctx : BitVec 6) (cws : List Nat) :
    ReadKeeps s (readRowCws s g die row code ctx cws).1 := by
  induction cws generalizing s with
  | nil => exact .refl s
  | cons cw cws ih => exact (readCw_readKeeps s g die row cw code ctx).trans (ih _)

theorem readRowCws_snd_congr {s t : State} (h : SameDram s t) (g die row : Nat) (code : W16) (ctx : BitVec 6) (cws : List Nat) :
    (readRowCws t g die row code ctx cws).2 = (readRowCws s g die row code ctx cws).2 := by
  induction cws generalizing s t with
  | nil => rfl
  | cons cw cws ih =>
    have hs := (readCw_readKeeps s g die row cw code ctx).toSameDram
    have ht := (readCw_readKeeps t g die row cw code ctx).toSameDram
    have hrest := ih ((hs.symm.trans h).trans ht)
    simp only [readRowCws, readCw_snd_congr h, hrest]

theorem dramRead_readKeeps (s : State) (g die row off n : Nat) (code : W16) (ctx : BitVec 6) :
    ReadKeeps s (dramRead s g die row off n code ctx).1 :=
  readRowCws_readKeeps s g die row code ctx (cwsOf off n)

theorem dramRead_snd_congr {s t : State} (h : SameDram s t) (g die row off n : Nat) (code : W16) (ctx : BitVec 6) :
    (dramRead t g die row off n code ctx).2 = (dramRead s g die row off n code ctx).2 := by
  simp only [dramRead, readRowCws_snd_congr h]

theorem length_readCw (s : State) (g die row cw : Nat) (code : W16) (ctx : BitVec 6) :
    (readCw s g die row cw code ctx).2.1.length = 32 := by
  have hraw : ∀ k, (s.rdBytes k 32).length = 32 := fun k => by simp only [State.rdBytes, List.length_map, List.length_range]
  dsimp only [readCw]
  cases eccDecode (tget 0 s.eccDiff (cwKey s g die row cw)) with
  | clean => exact hraw _
  | fix l e =>
    simp only [eccFix]
    split
    · rw [List.length_set, hraw]
    · exact hraw _
  | bad => exact hraw _

theorem length_readRowCws (s : State) (g die row : Nat) (code : W16) (ctx : BitVec 6) (cws : List Nat) :
    (readRowCws s g die row code ctx cws).2.length = 32 * cws.length := by
  induction cws generalizing s with
  | nil => rfl
  | cons cw cws ih =>
    simp only [readRowCws, List.length_append, List.length_map, length_readCw, ih, List.length_cons]
    omega

theorem length_dramRead (s : State) (g die row off n : Nat) (code : W16) (ctx : BitVec 6) :
    (dramRead s g die row off n code ctx).2.length = n := by
  simp only [dramRead, List.length_take, List.length_drop, length_readRowCws, cwsOf, List.length_map, List.length_range]
  omega

/-! ## The activation of a row -/

theorem actRow_xfers (s : State) (g die row : Nat) : (actRow s g die row).xfers = s.xfers := by
  dsimp only [actRow]
  split
  · rfl
  · split
    · rfl
    · split <;> rfl

theorem actRow_sameDram {s t : State} (h : SameDram s t) (hf : t.fuse = s.fuse) (g die row : Nat) :
    SameDram (actRow s g die row) (actRow t g die row) := by
  obtain ⟨hmem, hecc, hcols⟩ := h
  have hc : t.col g = s.col g := by simp only [State.col, hcols]
  have hcount : ∀ i cnt floor, SameDram (actCount s g die row i cnt floor) (actCount t g die row i cnt floor) := fun i cnt floor =>
    ⟨hmem, hecc, by simp only [actCount, State.modCol, State.setCol, State.col, halfThresh, hcols, hf]; rfl⟩
  dsimp only [actRow]
  rw [hc]
  split
  · exact hcount _ _ _
  · split
    · exact hcount _ _ _
    · split
      · exact ⟨hmem, hecc, hcols⟩
      · exact hcount _ _ _

end Sys2Proof.Machine
end

section
/-! SUPPORT. An ordinary request from its checks to its answer (R40, R41, R123, R284). -/

namespace Sys2Proof.Machine
open Sys2Proof.Claims

theorem xfers_withTag (tag : W16) (s t : State) : (withTag tag s t).xfers = t.xfers := by
  simp only [withTag]
  split <;> rfl

/-- The bytes that a read granule brings, with the activation of its row. -/
def granBytes (s : State) (p : Place) (n : Nat) (code : W16) (ctx : BitVec 6) : List PByte :=
  (dramRead (actRow s p.col p.die p.row) p.col p.die p.row p.byte n code ctx).2

section Granule
variable {s : State} {r : GranReq} {x : Xfer}

theorem granDone_of_last {id base : Nat} {st : Byte} {bs : List PByte} (hx : (s.xfers.find? fun z => z.id == id) = some x)
    (hleft : x.left = 1) (hinner : isInner x = false) :
    granDone s id base st bs = xferDone { s with xfers := s.xfers.filter fun z => !(z.id == id) }
      { x with left := 0, status := worstStatus x.status st, data := if x.wr then x.data else overlayP x.data base bs } := by
  unfold granDone
  rw [hx]
  exact if_pos (by rw [hleft]; exact congrArg (true && !·) hinner)

theorem serveGran_of_read (hx : (s.xfers.find? fun z => z.id == r.xfer) = some x) (hpath : (s.col r.col).pathFailed = false)
    (hwr : r.wr = false) {B : List PByte} (hB : granBytes s ⟨r.col, r.die, r.row, r.off⟩ r.len x.code x.ctx = B) :
    ∃ w : State, w.xfers = s.xfers ∧ serveGran s r = granDone w r.xfer r.base (if anyPoison B then stPoison else stOk) B := by
  subst hB
  refine ⟨withTag x.tag s (dramRead (actRow s r.col r.die r.row) r.col r.die r.row r.off r.len x.code x.ctx).1, ?_, ?_⟩
  · rw [xfers_withTag, (dramRead_readKeeps _ _ _ _ _ _ _ _).xfers, actRow_xfers]
  · unfold serveGran
    simp only [hx, hpath, hwr, Bool.false_eq_true, if_false, granBytes]
    rfl

theorem ctrlGran_of_free (hpath : (s.col r.col).pathFailed = false) (hclaim : claimHolders s r.col r.die r.row r.wr = [])
    (hmeets : (s.waits.filter fun w => !w.held && granMeets w r) = []) (hport : portBusy s r.col = false)
    (hstall : colStalled s r.col = false) : ctrlGran s r = serveGran s r := by
  simp only [ctrlGran, hpath, hclaim, hmeets, hport, hstall, Bool.false_eq_true, if_false, claimWaits, List.any_nil, List.map_nil,
    ne_eq, not_true_eq_false, decide_false, Bool.or_self, decide_true, Bool.not_false, Bool.and_self, if_true]

theorem arriveGran_of_open (hheld : ∀ w ∈ s.waits, w.held = true → stackOf w.col ≠ stackOf r.col)
    (hlink : (s.stack (stackOf r.col)).linkUp = true) (hplaces : (placesTaken s (stackOf r.col)).length < 512) :
    arriveGran s r = ctrlGran s r := by
  have hany : (s.waits.any fun w => w.held && stackOf w.col == stackOf r.col) = false := List.any_eq_false.2 fun w hw h => by
    obtain ⟨h1, h2⟩ := Bool.and_eq_true_iff.1 h
    exact hheld w hw h1 (eq_of_beq h2)
  simp only [arriveGran, hany, mayEnter, hlink, hplaces, decide_true, Bool.true_or, Bool.and_self, Bool.not_true, Bool.or_self,
    Bool.false_eq_true, if_false]

end Granule

/-- A transfer that reads one granule of its whole length, in the state of its start. -/
def soleXfer (s : State) (owner : XferOwner) (code : W16) (ctx : BitVec 6) (va : W64) (n : Nat) : Xfer :=
  { id := s.reqNext, owner := owner, ctx := ctx, code := code, va := va, wr := false, left := 1, data := List.replicate n (0, false) }

/-- The granule of a transfer of one granule. -/
def soleGran (s : State) (x : Gran) : GranReq :=
  { seq := s.reqNext + 1, xfer := s.reqNext, col := x.place.col, die := x.place.die, row := x.place.row, off := x.place.byte,
    len := x.len, wr := false, data := [], base := x.base, holders := [], behind := [], arrived := s.now }

/-- The state in which the granule of such a transfer arrives. -/
def soleState (s : State) (x : Xfer) : State := { s with reqNext := s.reqNext + 2, xfers := s.xfers ++ [x] }

theorem startXfer_of_sole {s : State} {pa n : Nat} {x : Gran} (hx : granulesOf s pa n = [x]) (owner : XferOwner) (code : W16)
    (ctx : BitVec 6) (va : W64) :
    startXfer s owner code ctx false va pa n [] =
      arriveGran (soleState s (soleXfer s owner code ctx va n)) (soleGran s x) := by
  have hgs : granulesOf s.newReq.2 pa n = [x] := hx
  dsimp only [startXfer]
  rw [hgs]
  simp [sendGrans, State.newReq, soleState, soleXfer, soleGran, cleanBytes]

theorem find?_soleState {s : State} (hfresh : ∀ z ∈ s.xfers, z.id ≠ s.reqNext) (x : Xfer) (hx : x.id = s.reqNext) :
    ((soleState s x).xfers.find? fun z => z.id == s.reqNext) = some x := by
  have hnone : (s.xfers.find? fun z => z.id == s.reqNext) = none :=
    List.find?_eq_none.2 fun z hz h => hfresh z hz (eq_of_beq h)
  simp only [soleState, List.find?_append, hnone, Option.none_or, List.find?_cons, hx, BEq.rfl]

theorem filter_soleState {s : State} (hfresh : ∀ z ∈ s.xfers, z.id ≠ s.reqNext) (x : Xfer) (hx : x.id = s.reqNext) :
    ((soleState s x).xfers.filter fun z => !(z.id == s.reqNext)) = s.xfers := by
  have hself : (s.xfers.filter fun z => !(z.id == s.reqNext)) = s.xfers :=
    List.filter_eq_self.2 fun z hz => by rw [beq_eq_false_iff_ne.2 (hfresh z hz)]; rfl
  simp only [soleState, List.filter_append, hself, List.filter_cons, hx, BEq.rfl, Bool.not_true, Bool.false_eq_true, if_false,
    List.filter_nil, List.append_nil]

theorem overlayP_replicate {n : Nat} {z : PByte} {bs : List PByte} (h : bs.length = n) : overlayP (List.replicate n z) 0 bs = bs := by
  simp [overlayP, ← h]

theorem xferDone_of_unit {s : State} {x : Xfer} {c : W16} (hown : x.owner = .unit c) (hwr : x.wr = false)
    (hst : x.status = stOk ∨ x.status = stPoison) :
    xferDone s x = s.emit (.unitRsp c x.status (hidePoison x.data)) := by
  have hkeep : (x.wr || !(x.status == stOk || x.status == stPoison)) = false := by
    obtain h | h := hst <;> rw [h, hwr] <;> rfl
  unfold xferDone
  simp only [hown, hkeep, Bool.false_eq_true, if_false]

/-- A unit's read of one granule that nothing holds is answered at once with its bytes (R123, R284). -/
theorem startXfer_sole_answers {s : State} {pa n : Nat} {x : Gran} {code : W16} (ctx : BitVec 6) (va : W64)
    (hx : granulesOf s pa n = [x]) (hbase : x.base = 0) (hlen : x.len = n) (hpath : (s.col x.place.col).pathFailed = false)
    (hclaim : claimHolders s x.place.col x.place.die x.place.row false = []) (hport : portBusy s x.place.col = false)
    (hstall : colStalled s x.place.col = false) (hlink : (s.stack (stackOf x.place.col)).linkUp = true)
    (hplaces : (placesTaken s (stackOf x.place.col)).length < 512)
    (hheld : ∀ w ∈ s.waits, w.held = true → stackOf w.col ≠ stackOf x.place.col)
    (hmeet : ∀ w ∈ s.waits, ¬ (w.col = x.place.col ∧ w.die = x.place.die ∧ w.row = x.place.row ∧
      shareCw w.off w.len x.place.byte x.len = true))
    (hfresh : ∀ z ∈ s.xfers, z.id ≠ s.reqNext) :
    (startXfer s (.unit code) code ctx false va pa n []).out.getLast? =
        some (.unitRsp code (if anyPoison (granBytes s x.place x.len code ctx) then stPoison else stOk)
          (hidePoison (granBytes s x.place x.len code ctx))) ∧
      (startXfer s (.unit code) code ctx false va pa n []).xfers = s.xfers := by
  let y := soleXfer s (.unit code) code ctx va n
  let u := soleState s y
  have hmeets : (u.waits.filter fun w => !w.held && granMeets w (soleGran s x)) = [] :=
    List.filter_eq_nil_iff.2 fun w hw h => by
      obtain ⟨-, h⟩ := Bool.and_eq_true_iff.1 h
      simp only [granMeets, Bool.and_eq_true, beq_iff_eq, and_assoc] at h
      exact hmeet w hw h
  have hserve : startXfer s (.unit code) code ctx false va pa n [] = serveGran u (soleGran s x) :=
    (startXfer_of_sole hx _ _ _ _).trans ((arriveGran_of_open hheld hlink hplaces).trans
      (ctrlGran_of_free hpath hclaim hmeets hport hstall))
  obtain ⟨B, hB⟩ : ∃ B, granBytes s x.place x.len code ctx = B := ⟨_, rfl⟩
  have hlenB : B.length = n := hB ▸ (length_dramRead _ _ _ _ _ _ _ _).trans hlen
  have hsame : granBytes u x.place x.len code ctx = B :=
    (dramRead_snd_congr (actRow_sameDram (s := s) (t := u) ⟨rfl, rfl, rfl⟩ rfl _ _ _) _ _ _ _ _ _ _).trans hB
  obtain ⟨w, hxfers, hread⟩ := serveGran_of_read (r := soleGran s x) (find?_soleState hfresh y rfl) hpath rfl hsame
  have hdone := granDone_of_last (base := x.base) (st := if anyPoison B then stPoison else stOk) (bs := B)
    ((congrArg _ hxfers).trans (find?_soleState hfresh y rfl)) rfl rfl
  have hover : overlayP (List.replicate n (0, false)) x.base B = B := by
    rw [hbase]
    exact overlayP_replicate hlenB
  have hst : worstStatus stOk (if anyPoison B then stPoison else stOk) = if anyPoison B then stPoison else stOk := by
    cases anyPoison B <;> rfl
  have hdata : (if y.wr then y.data else overlayP y.data x.base B) = B := hover
  have hworst : worstStatus y.status (if anyPoison B then stPoison else stOk) = if anyPoison B then stPoison else stOk := hst
  rw [hdata, hworst, xferDone_of_unit (c := code) rfl rfl (by cases anyPoison B <;> simp only [Bool.false_eq_true, if_true, if_false, true_or, or_true])] at hdone
  rw [hserve, hread.trans hdone, hB]
  refine ⟨List.getLast?_concat, ?_⟩
  change (w.xfers.filter fun z => !(z.id == s.reqNext)) = s.xfers
  rw [hxfers, filter_soleState hfresh y rfl]

theorem ordinaryRequest_of_badLength {s : State} {o : Origin} {c va n : Nat} (nc : Bool) (h : n = 0 ∨ 4096 < n) :
    ordinaryRequest s o c false nc va n [] = answer s o c true stMode [] va := by
  have hbad : (n = 0 || 4096 < n) = true := by simpa only [Bool.or_eq_true, decide_eq_true_eq] using h
  simp only [ordinaryRequest, refuseRequest, Bool.false_eq_true, if_false, hbad, if_true]

theorem ordinaryRequest_of_length {s : State} {o : Origin} {c va n : Nat} {wr nc : Bool} {data : List Byte}
    (h1 : 1 ≤ if wr then data.length else n) (h2 : (if wr then data.length else n) ≤ 4096) (hwarm : s.life.warm = none) :
    ordinaryRequest s o c wr nc va n data = request s o c wr nc va (if wr then data.length else n) data := by
  have hlen : ((if wr then data.length else n) = 0 || 4096 < if wr then data.length else n) = false := by
    simp only [Bool.or_eq_false_iff, decide_eq_false_iff_not]
    omega
  unfold ordinaryRequest
  cases o <;> simp only [hlen, hwarm, Option.isSome_none, Bool.false_eq_true, if_false]

theorem request_of_dram {s : State} {o : Origin} {c va n pa : Nat} {wr nc : Bool} {data : List Byte}
    (ht : translate s c va n wr (!nc) = .pa pa) (hpage : isDramPage (pa / 2 ^ 24) = true) :
    request s o c wr nc va n data =
      startXfer s (ownerOf o) (codeOf o) (BitVec.ofNat 6 c) wr (BitVec.ofNat 64 va) pa n data := by
  unfold request
  rw [ht]
  exact if_pos hpage

/-- Settles O23: the checks in their order, then `startXfer_sole_answers`. -/
theorem ordinaryRequestsAreTranslatedAndServed : Obligations.OrdinaryRequestsAreTranslatedAndServed := by
  unfold Obligations.OrdinaryRequestsAreTranslatedAndServed
  refine fun s o c nc va len data => ⟨fun h => ?_, fun st h1 h2 hwarm ht => ?_, fun pa h1 h2 hwarm ht hpage => ?_,
    fun pa code x h1 h2 hwarm ht hpage hx hbase hlen hpath hclaim hport hstall hlink hplaces hheld hmeet hfresh => ?_⟩
  · exact congrArg Host.Outcome.next (ordinaryRequest_of_badLength nc (h.imp_left fun h => by rw [h]; rfl))
  · refine congrArg Host.Outcome.next ((ordinaryRequest_of_length (wr := false) h1 h2 hwarm).trans ?_)
    unfold request
    simp only [Bool.false_eq_true, if_false]
    erw [ht]
    rfl
  · exact congrArg Host.Outcome.next ((ordinaryRequest_of_length (wr := true) h1 h2 hwarm).trans (request_of_dram ht hpage))
  · have hstart := (ordinaryRequest_of_length (o := .unit code) (data := []) (wr := false) h1 h2 hwarm).trans (request_of_dram ht hpage)
    exact ⟨_, congrArg Host.Outcome.next hstart, startXfer_sole_answers _ _ hx hbase hlen hpath hclaim hport hstall hlink hplaces
      hheld hmeet hfresh⟩

end Sys2Proof.Machine
end

section
/-! SUPPORT. Waits on claims, and what a row-step boundary serves (R124, R125, R284, R285). -/

namespace Sys2Proof.Machine
open Sys2Proof.Claims

theorem crossbarIn_of_noneHeld {s : State} {n : Nat} (h : ∀ r ∈ s.waits, r.held = true → stackOf r.col ≠ n) : crossbarIn s n = s := by
  have hnil : (s.waits.filter fun w => w.held && stackOf w.col == n) = [] := List.filter_eq_nil_iff.2 fun r hr hb => by
    obtain ⟨hheld, hn⟩ := Bool.and_eq_true_iff.1 hb
    exact h r hr hheld (eq_of_beq hn)
  rw [crossbarIn, hnil, List.foldl_nil]

theorem claimWaitEnd_of_single {s : State} {g : Nat} {r : GranReq} (h : (s.waits.filter fun w => w.col == g && claimWaits w) = [r])
    (hover : waitOver s r = true) : claimWaitEnd s g = serveWait (claimWaited s g (s.now - r.arrived)) r := by
  rw [claimWaitEnd, h, List.foldl_cons, List.foldl_nil, if_pos hover]

theorem claimWaitEnd_of_waiting {s : State} {g : Nat} (h : ∀ r ∈ s.waits, r.col = g → waitOver s r = false) : claimWaitEnd s g = s := by
  refine List.foldlRecOn (motive := fun t => t = s) _ _ rfl fun t ht r hr => ?_
  obtain ⟨hmem, hcol⟩ := List.mem_filter.1 hr
  rw [ht, h r hmem (eq_of_beq (Bool.and_eq_true_iff.1 hcol).1)]
  rfl

/-- A unit's request of one granule that ends TIMEOUT is answered without data, and its granule leaves (R124). -/
theorem requestTimeout_of_single {s : State} {r : GranReq} {x : Xfer} {c : W16}
    (hr : (s.waits.filter fun w => sameRequest w r) = [r]) (hx : (s.xfers.find? fun z => z.id == r.xfer) = some x)
    (hleft : x.left = 1) (hst : x.status = stOk) (hown : x.owner = .unit c) :
    (requestTimeout s r).out = s.out ++ [.unitRsp c stTimeout []] ∧ ∀ z ∈ (requestTimeout s r).waits, sameRequest z r = false := by
  let t : State := { s with waits := s.waits.filter fun w => !sameRequest w r }
  have hx' : (t.xfers.find? fun z => z.id == r.xfer) = some x := hx
  have hdone : requestTimeout s r = { t with xfers := t.xfers.filter fun z => !(z.id == r.xfer) }.emit (.unitRsp c stTimeout []) := by
    rw [requestTimeout, hr, List.foldl_cons, List.foldl_nil, granDone_of_last hx' hleft (by rw [isInner, hown])]
    simp [xferDone, hown, hst, worstStatus, t]
  rw [hdone]
  exact ⟨rfl, fun z hz => by simpa using (List.mem_filter.1 hz).2⟩

theorem serveOthers_of_none {s : State} {g : Nat} (h : ∀ r ∈ s.waits, r.col = g → r.held = true ∨ claimWaits r = true) (n : Nat)
    (o : Tab (Nat × Nat)) : serveOthers g n o s = s := by
  have hnil : (s.waits.filter fun r => r.col == g && !r.held && !claimWaits r) = [] := List.filter_eq_nil_iff.2 fun r hr hb => by
    simp only [Bool.and_eq_true, beq_iff_eq, Bool.not_eq_true'] at hb
    obtain ⟨⟨hcol, hheld⟩, hclaim⟩ := hb
    obtain h | h := h r hr hcol
    · exact Bool.false_ne_true (hheld.symm.trans h)
    · exact Bool.false_ne_true (hclaim.symm.trans h)
  cases n with
  | zero => rfl
  | succ n =>
    unfold serveOthers
    rw [hnil]
    rfl

theorem serveOthers_of_first {s : State} {g n : Nat} {r : GranReq} {rest : List GranReq}
    (h : (s.waits.filter fun r => r.col == g && !r.held && !claimWaits r) = r :: rest) :
    serveOthers g (n + 1) [] s = serveOthers g n (tset (4096, 0) [] r.die (r.row, 0)) (serveWait s r) := by
  have hpick : pickGran [] (r :: rest) = some (r, tset (4096, 0) [] r.die (r.row, 0)) := by
    simp [pickGran, tget]
  rw [serveOthers, h]
  simp only [hpick]

theorem pickGran_spec {o o' : Tab (Nat × Nat)} {r x : GranReq} {rest : List GranReq} (h : pickGran o (r :: rest) = some (x, o')) :
    x = r ∨ (x ∈ rest ∧ x.die = r.die ∧ x.row = (tget (4096, 0) o r.die).1 ∧
      (tget (4096, 0) o r.die).2 + (cwsOf x.off x.len).length ≤ 16) := by
  dsimp only [pickGran] at h
  split at h
  · rename_i y hy
    obtain ⟨rfl, -⟩ := Prod.mk.inj (Option.some.inj h)
    split at hy
    · exact absurd hy (by simp)
    · have hprop := List.find?_some hy
      simp only [Bool.and_eq_true, beq_iff_eq, decide_eq_true_eq] at hprop
      obtain ⟨⟨hdie, hrow⟩, hahead⟩ := hprop
      exact .inr ⟨List.mem_of_find?_eq_some hy, hdie, hrow, hahead⟩
  · exact .inl (Prod.mk.inj (Option.some.inj h)).1.symm

theorem granCost_read {r : GranReq} (h : r.wr = false) : granCost r = 24 + (cwsOf r.off r.len).length := by
  simp only [granCost, h, Bool.false_eq_true, if_false, Nat.add_zero]

/-- A write of whole codewords changes none in part. -/
theorem granCost_write_whole {r : GranReq} (h : r.wr = true) (hoff : r.off % 32 = 0) (hlen : r.len % 32 = 0) :
    granCost r = 24 + r.len / 32 := by
  have hnone : ((cwsOf r.off r.len).filter fun cw => decide (32 * cw < r.off) || decide (r.off + r.len < 32 * cw + 32)) = [] := by
    refine List.filter_eq_nil_iff.2 fun cw hcw hb => ?_
    obtain ⟨i, hi, rfl⟩ := List.mem_map.1 hcw
    have hi' := List.mem_range.1 hi
    simp only [Bool.or_eq_true, decide_eq_true_eq] at hb
    omega
  have hcws : (cwsOf r.off r.len).length = r.len / 32 := by
    simp only [cwsOf, List.length_map, List.length_range]
    omega
  simp only [granCost, hnone, h, hcws, if_true, List.length_nil, Nat.mul_zero, Nat.add_zero]

/-- Settles O24: `claimWaitEnd`, `requestTimeout`, `serveColumn` and `pickGran` case by case. -/
theorem claimWaitsAndRowSteps : Obligations.ClaimWaitsAndRowSteps := by
  unfold Obligations.ClaimWaitsAndRowSteps
  refine ⟨fun s g => ⟨fun r hr hover => ?_, fun hwait hheld => ?_, fun r hr => ?_,
    fun r x c hr hx hleft hst hown => requestTimeout_of_single hr hx hleft hst hown⟩,
    fun s g => ⟨⟨fun hstall => ?_, fun hstall => ?_⟩, fun h n o => serveOthers_of_none h n o, fun r rest n h => serveOthers_of_first h,
      fun o o' r rest x h => pickGran_spec h, fun r h => granCost_read h, fun r h hoff hlen => granCost_write_whole h hoff hlen⟩⟩
  · exact congrArg Host.Outcome.next (congrArg (crossbarIn · (stackOf g.val)) (claimWaitEnd_of_single hr hover))
  · exact congrArg Host.Outcome.next ((congrArg (crossbarIn · (stackOf g.val)) (claimWaitEnd_of_waiting hwait)).trans
      (crossbarIn_of_noneHeld hheld))
  · refine congrArg Host.Outcome.next ?_
    unfold claimWaitTimeout
    erw [hr]
  · exact congrArg Host.Outcome.next (if_pos hstall)
  · exact congrArg Host.Outcome.next (if_neg (by rw [hstall]; exact Bool.false_ne_true))

end Sys2Proof.Machine
end

section
/-! SUPPORT. LOOP, ENDL, BR and TALLY in their turn (R163, R164, R166, R167). -/

namespace Sys2Proof.Machine
open Sys2Proof.Claims

theorem withTag_self (tag : W16) (s : State) : withTag tag s s = s := by
  simp [withTag]

section Loops
variable {s : State} {f : FaceId} {t : FaceTask} {d : BitVec 256}

theorem loopOpen_of_turn (h : Turn s f t d opcLoop) (ha : xFree t (ctlXa d) = true) (hd : xFree t (ctlXd d) = true)
    (hcond : ctlCond d ≤ 1) {n : Nat} (hn : (xreg (s.face f.val).xregs (ctlXa d) + ctlImm d).toNat = n) :
    loopOpen s f.val =
      if n = 0 then goTo s f.val (skipLoop ((s.face f.val).program.drop (t.pc + 1)) (t.pc + 1) 0 1)
      else
        let l : LoopFrame := { start := t.pc + 1, left := if ctlCond d == 1 then ceilDiv n 64 else n, iter := 0,
                               strip := ctlCond d == 1, elems := n, xd := ctlXd d }
        modTask (s.setFace f.val (beginIter (s.face f.val) l)) f.val fun t =>
          { t with pc := t.pc + 1, loops := l :: t.loops, seqAt := s.now + 1 } := by
  simp only [loopOpen, entered_of_turn h rfl, controlAt_of_turn h, ha, hd, hn, Nat.not_lt.2 hcond, Bool.and_self, Bool.not_true,
    Bool.false_eq_true, if_false]

theorem endl_of_turn (h : Turn s f t d opcEndl) {l : LoopFrame} {rest : List LoopFrame} (hl : t.loops = l :: rest) :
    endl s f.val =
      if l.left ≤ 1 then modTask s f.val fun t => { t with pc := t.pc + 1, loops := rest, seqAt := s.now + 1 }
      else if !xFree t l.xd then s
      else
        let l' := { l with left := l.left - 1, iter := l.iter + 1, elems := l.elems - 64 }
        modTask (s.setFace f.val (beginIter (s.face f.val) l')) f.val fun t =>
          { t with pc := l.start, loops := l' :: rest, seqAt := s.now + 2 } := by
  simp only [endl, entered_of_turn h rfl, controlAt_of_turn h, hl]

end Loops

section Branch
variable {s : State} {f : FaceId} {t : FaceTask} {d : BitVec 256} (h : Turn s f t d opcBr)
include h

theorem branch_of_taken {k : Nat} (hk : brTarget (s.face f.val).program.length t.pc d = some k)
    (hc : brCond s (s.face f.val) t (faceL s f.val) d = (s, .taken true)) : branch s f.val = goTo s f.val k 2 := by
  simp only [branch, entered_of_turn h rfl, controlAt_of_turn h, hc, withTag_self, hk, Option.getD_some, if_true]

theorem branch_of_notTaken (hc : brCond s (s.face f.val) t (faceL s f.val) d = (s, .taken false)) :
    branch s f.val = goTo s f.val (t.pc + 1) := by
  simp only [branch, entered_of_turn h rfl, controlAt_of_turn h, hc, withTag_self, Bool.false_eq_true, if_false]

theorem branch_of_later (hc : brCond s (s.face f.val) t (faceL s f.val) d = (s, .later)) : branch s f.val = s := by
  simp only [branch, entered_of_turn h rfl, controlAt_of_turn h, hc, withTag_self]

end Branch

section Condition
variable {s : State} {c : Face} {t : FaceTask} {l : Nat} {d : BitVec 256}

theorem brCond_scalar (h1 : 1 ≤ ctlCond d) (h4 : ctlCond d ≤ 4) :
    brCond s c t l d =
      if !xFree t (ctlXa d) then (s, .later)
      else (s, .taken (if ctlCond d = 1 then xreg c.xregs (ctlXa d) == ctlImm d
        else if ctlCond d = 2 then xreg c.xregs (ctlXa d) != ctlImm d
        else if ctlCond d = 3 then decide ((xreg c.xregs (ctlXa d)).toNat < (ctlImm d).toNat)
        else decide ((ctlImm d).toNat ≤ (xreg c.xregs (ctlXa d)).toNat))) := by
  simp only [brCond, show ctlCond d ≠ 0 by omega, h4, if_false, if_true]

theorem brCond_mask (h5 : 5 ≤ ctlCond d) (h7 : ctlCond d ≤ 7) (hfree : mFree t (ctlMk d) = true) :
    brCond s c t l d = (s, .taken (
      if ctlCond d = 5 then (maskLanes (tget 0 c.masks (ctlMk d)) c.vl).any id
      else if ctlCond d = 6 then (maskLanes (tget 0 c.masks (ctlMk d)) c.vl).all id
      else !((maskLanes (tget 0 c.masks (ctlMk d)) c.vl).any id))) := by
  simp only [brCond, show ctlCond d ≠ 0 by omega, show ¬ ctlCond d ≤ 4 by omega, h7, hfree, Bool.not_true, Bool.false_eq_true,
    if_false, if_true]

theorem brCond_tally (h8 : 8 ≤ ctlCond d) (h9 : ctlCond d ≤ 9) {v : Nat}
    (hv : tallyOf s t.ctx.toNat (.virt (ctlVtally d)) = some v) :
    brCond s c t l d = (s, .taken (if ctlCond d = 8 then decide ((ctlImm d).toNat ≤ (s.cell v).value.toNat)
      else !decide ((ctlImm d).toNat ≤ (s.cell v).value.toNat))) := by
  simp only [brCond, show ctlCond d ≠ 0 by omega, show ¬ ctlCond d ≤ 4 by omega, show ¬ ctlCond d ≤ 7 by omega, h9, hv,
    if_false, if_true]

theorem any_maskLanes {m : W64} {vl : Nat} : (maskLanes m vl).any id = true ↔ ∃ i < vl, bitAt m i = true := by
  simp [maskLanes]

theorem all_maskLanes {m : W64} {vl : Nat} : (maskLanes m vl).all id = true ↔ ∀ i < vl, bitAt m i = true := by
  simp [maskLanes]

theorem brCond_scalar_taken (hfree : xFree t (ctlXa d) = true)
    (h : let a := xreg c.xregs (ctlXa d)
      ctlCond d = 1 ∧ a = ctlImm d ∨ ctlCond d = 2 ∧ a ≠ ctlImm d ∨ ctlCond d = 3 ∧ a.toNat < (ctlImm d).toNat ∨
        ctlCond d = 4 ∧ (ctlImm d).toNat ≤ a.toNat) : brCond s c t l d = (s, .taken true) := by
  rw [brCond_scalar (by omega) (by omega), hfree]
  obtain ⟨hc, ha⟩ | ⟨hc, ha⟩ | ⟨hc, ha⟩ | ⟨hc, ha⟩ := h <;> simp [hc, ha]

theorem brCond_scalar_notTaken (hfree : xFree t (ctlXa d) = true)
    (h : let a := xreg c.xregs (ctlXa d)
      ctlCond d = 1 ∧ a ≠ ctlImm d ∨ ctlCond d = 2 ∧ a = ctlImm d ∨ ctlCond d = 3 ∧ (ctlImm d).toNat ≤ a.toNat ∨
        ctlCond d = 4 ∧ a.toNat < (ctlImm d).toNat) : brCond s c t l d = (s, .taken false) := by
  rw [brCond_scalar (by omega) (by omega), hfree]
  obtain ⟨hc, ha⟩ | ⟨hc, ha⟩ | ⟨hc, ha⟩ | ⟨hc, ha⟩ := h <;> simp [hc, ha]

theorem brCond_mask_taken (hfree : mFree t (ctlMk d) = true)
    (h : ctlCond d = 5 ∧ (∃ i < c.vl, bitAt (tget 0 c.masks (ctlMk d)) i = true) ∨
      ctlCond d = 6 ∧ (∀ i < c.vl, bitAt (tget 0 c.masks (ctlMk d)) i = true) ∨
      ctlCond d = 7 ∧ (∀ i < c.vl, bitAt (tget 0 c.masks (ctlMk d)) i = false)) : brCond s c t l d = (s, .taken true) := by
  rw [brCond_mask (by omega) (by omega) hfree]
  obtain ⟨hc, hm⟩ | ⟨hc, hm⟩ | ⟨hc, hm⟩ := h
  · rw [if_pos hc, any_maskLanes.2 hm]
  · rw [if_neg (by omega), if_pos hc, all_maskLanes.2 hm]
  · have hnone : (maskLanes (tget 0 c.masks (ctlMk d)) c.vl).any id = false := Bool.eq_false_iff.2 fun hany => by
      obtain ⟨i, hi, hbit⟩ := any_maskLanes.1 hany
      exact Bool.false_ne_true ((hm i hi).symm.trans hbit)
    rw [if_neg (by omega), if_neg (by omega), hnone, Bool.not_false]

theorem brCond_tally_taken {v : Nat} (hv : tallyOf s t.ctx.toNat (.virt (ctlVtally d)) = some v)
    (h : ctlCond d = 8 ∧ (ctlImm d).toNat ≤ (s.cell v).value.toNat ∨ ctlCond d = 9 ∧ (s.cell v).value.toNat < (ctlImm d).toNat) :
    brCond s c t l d = (s, .taken true) := by
  rw [brCond_tally (by omega) (by omega) hv]
  obtain ⟨hc, hv⟩ | ⟨hc, hv⟩ := h <;> simp [hc, hv]

end Condition

/-- TALLY in its turn, by the operation that its `cond` names (R166). -/
theorem seqTally_of_turn {s u : State} {f : FaceId} {t : FaceTask} {d : BitVec 256} {st : Byte} (h : Turn s f t d opcTally)
    (hop : tallyOp s (codeFace (faceL s f.val)) t.ctx.toNat (.virt (ctlVtally d))
      (if ctlCond d = 0 then topAdd else if ctlCond d = 1 then topSub else topArrive) (ctlImm d) = (u, st))
    (hcond : ctlCond d ≤ 2) :
    seqTally s f.val = if st = stOk then goTo (withTag (descTag d) s u) f.val (t.pc + 1)
      else controlFail (withTag (descTag d) s u) f.val d st := by
  simp only [seqTally, entered_of_turn h rfl, controlAt_of_turn h, Nat.not_lt.2 hcond, if_false, hop]

/-- Settles O32: each descriptor in its turn, and the value of each branch condition. -/
theorem loopsBranchesAndTallies : Obligations.LoopsBranchesAndTallies := by
  unfold Obligations.LoopsBranchesAndTallies
  refine ⟨fun s f t d => ⟨fun h ha hd => ⟨fun hn hcond => ?_, fun hn hcond => ?_⟩, fun h l rest hl => ⟨fun hle => ?_, fun hlt hx => ?_⟩⟩,
    fun s f t d => ⟨fun h => ⟨fun k hk => ⟨fun hc => ?_, fun hfree hc => ?_, fun hfree hc => ?_, fun v hv hc => ?_⟩,
      fun hfree hc => ?_, fun hbusy h1 h4 => ?_⟩, fun h u st hop hcond => ⟨fun hst => ?_, fun hst => ?_⟩⟩⟩
  · exact congrArg Host.Outcome.next ((loopOpen_of_turn h ha hd hcond rfl).trans (if_pos hn))
  · refine congrArg Host.Outcome.next ((loopOpen_of_turn h ha hd hcond rfl).trans ((if_neg hn).trans ?_))
    simp only [beginIter, beq_iff_eq]
  · exact congrArg Host.Outcome.next ((endl_of_turn h hl).trans (if_pos hle))
  · exact congrArg Host.Outcome.next ((endl_of_turn h hl).trans ((if_neg (Nat.not_le.2 hlt)).trans
      (if_neg (by rw [hx]; exact Bool.false_ne_true))))
  · exact congrArg Host.Outcome.next (branch_of_taken h hk (if_pos hc))
  · exact congrArg Host.Outcome.next (branch_of_taken h hk (brCond_scalar_taken hfree hc))
  · exact congrArg Host.Outcome.next (branch_of_taken h hk (brCond_mask_taken hfree hc))
  · exact congrArg Host.Outcome.next (branch_of_taken h hk (brCond_tally_taken hv hc))
  · exact congrArg Host.Outcome.next (branch_of_notTaken h (brCond_scalar_notTaken hfree hc))
  · exact congrArg Host.Outcome.next (branch_of_later h ((brCond_scalar h1 h4).trans (if_pos (by rw [hbusy]; rfl))))
  · exact congrArg Host.Outcome.next ((seqTally_of_turn h hop hcond).trans (if_pos hst))
  · exact congrArg Host.Outcome.next ((seqTally_of_turn h hop hcond).trans (if_neg hst))

end Sys2Proof.Machine
end

section
/-! SUPPORT. WAITT, FENCE, END and the completion of a task (R165, R166, R169). -/

namespace Sys2Proof.Machine
open Sys2Proof.Claims

section Turn
variable {s : State} {f : FaceId} {t : FaceTask} {d : BitVec 256}

theorem seqFence_of_turn (h : Turn s f t d opcFence) : seqFence s f.val = if t.ops = [] then goTo s f.val (t.pc + 1) else s := by
  simp only [seqFence, entered_of_turn h rfl, controlAt_of_turn h]

theorem faceEnd_of_turn (h : Turn s f t d opcEnd) :
    faceEnd s f.val = modTask s f.val fun t => { t with ending := true, seqAt := s.now + 1 } := by
  simp only [faceEnd, entered_of_turn h rfl, controlAt_of_turn h]

section Waitt
variable (h : Turn s f t d opcWaitt) (hcond : ctlCond d ≤ 1) {u : State}
include h hcond

theorem waitt_of_fired (ho : innerWatch s (.face (faceL s f.val)) t.ctx.toNat (ctlVtally d) (ctlImm d) (ctlCond d == 1) = (u, .fired)) :
    waitt s f.val = goTo (withTag (descTag d) s u) f.val (t.pc + 1) := by
  simp only [waitt, entered_of_turn h rfl, controlAt_of_turn h, Nat.not_lt.2 hcond, if_false, ho]

theorem waitt_of_fail {st : Byte}
    (ho : innerWatch s (.face (faceL s f.val)) t.ctx.toNat (ctlVtally d) (ctlImm d) (ctlCond d == 1) = (u, .fail st)) :
    waitt s f.val = controlFail (withTag (descTag d) s u) f.val d st := by
  simp only [waitt, entered_of_turn h rfl, controlAt_of_turn h, Nat.not_lt.2 hcond, if_false, ho]

theorem waitt_of_waiting {o : WatchOut} (hw : o = .armed ∨ o = .queued)
    (ho : innerWatch s (.face (faceL s f.val)) t.ctx.toNat (ctlVtally d) (ctlImm d) (ctlCond d == 1) = (u, o)) :
    waitt s f.val = modTask (withTag (descTag d) s u) f.val fun t => { t with wait := .watching s.now, seqAt := s.now + 1 } := by
  obtain rfl | rfl := hw <;>
  simp only [waitt, entered_of_turn h rfl, controlAt_of_turn h, Nat.not_lt.2 hcond, if_false, ho]

end Waitt
end Turn

/-- A task that ended, whose last cycles have passed and that has nothing in the scoreboard completes with OK (R169). -/
theorem taskCompletion_of_ended {s : State} {f : Nat} {t : FaceTask} (ht : (s.face f).task = some t) (hw : t.wait = .none)
    (hops : t.ops = []) (hend : t.ending = true) (hfail : t.fail = none) (hnow : t.seqAt ≤ s.now) :
    taskCompletion s f = taskMemberDone (s.setFace f { countTask (s.face f) stOk none with task := none })
      t.q t.seq (faceL s f) stOk t.assay := by
  have hidle : issuing t s.now ≠ true := fun hi => by
    obtain ⟨-, -, hnot, -⟩ := issuing_iff.1 hi
    exact Bool.false_ne_true (hnot.symm.trans hend)
  simp only [taskCompletion, entered_eq_self ht hw fun hi => absurd hi hidle, ht, hend, hfail, hops, hnow, decide_true,
    Bool.and_self, Bool.true_or, if_true]

section WaittTimeout
variable {s : State} {f : Nat} {t : FaceTask} {d : BitVec 256} {a : Nat} (ht : (s.face f).task = some t)
  (hd : current (s.face f) t = d) (hw : t.wait = .watching a)
include ht hd hw

theorem waittTimeout_of_watching :
    waittTimeout s f =
      if descOpc d = opcWaitt && ctlTmo d ≠ 0 && decide (a + ctlTmo d * usCycles ≤ s.now) then
        controlFail (faceWake (withdrawTarget s (.face (faceL s f))) f) f d stTimeout
      else s := by
  simp only [waittTimeout, ht, hd, hw]

theorem waittTimeout_of_inTime (h : ctlTmo d = 0 ∨ s.now < a + ctlTmo d * usCycles) : waittTimeout s f = s := by
  refine (waittTimeout_of_watching ht hd hw).trans (if_neg fun hb => ?_)
  simp only [Bool.and_eq_true, decide_eq_true_eq] at hb
  obtain ⟨⟨-, hne⟩, hle⟩ := hb
  obtain h | h := h
  · exact hne h
  · exact Nat.not_lt.2 hle h

end WaittTimeout

/-- Settles O33: each descriptor in its turn, the two completions and the limit of WAITT. -/
theorem tasksWaitFenceAndComplete : Obligations.TasksWaitFenceAndComplete := by
  unfold Obligations.TasksWaitFenceAndComplete
  refine ⟨fun s f t d => ⟨fun h => ⟨fun hops => ?_, fun hops => ?_⟩, fun h => ?_, fun ht hw hops =>
      ⟨fun hend hfail hnow => ?_, fun u st tag hfail => ?_⟩⟩,
    fun s f t d => ⟨fun h hcond u o ho => ⟨fun hf => ?_, fun hf => ?_, fun st hf => ?_⟩,
      fun a ht hd hopc hw => ⟨fun hz => ?_, fun hnow => ?_, fun hne hnow => ?_⟩⟩⟩
  · exact congrArg Host.Outcome.next ((seqFence_of_turn h).trans (if_pos hops))
  · exact congrArg Host.Outcome.next ((seqFence_of_turn h).trans (if_neg hops))
  · exact congrArg Host.Outcome.next (faceEnd_of_turn h)
  · exact congrArg Host.Outcome.next (taskCompletion_of_ended ht hw hops hend hfail hnow)
  · exact congrArg Host.Outcome.next (taskCompletion_of_failed ht hw hfail hops)
  · exact congrArg Host.Outcome.next (waitt_of_fired h hcond (hf ▸ ho))
  · exact congrArg Host.Outcome.next (waitt_of_waiting h hcond hf ho)
  · exact congrArg Host.Outcome.next (waitt_of_fail h hcond (hf ▸ ho))
  · exact congrArg Host.Outcome.next (waittTimeout_of_inTime ht hd hw (.inl hz))
  · exact congrArg Host.Outcome.next (waittTimeout_of_inTime ht hd hw (.inr hnow))
  · have hnow' : decide (a + ctlTmo d * usCycles ≤ s.now) = true := decide_eq_true hnow
    refine congrArg Host.Outcome.next ((waittTimeout_of_watching ht hd hw).trans (if_pos ?_))
    rw [hnow', hopc]
    simp [hne]

end Sys2Proof.Machine
end

section
/-! SUPPORT. The start of a task (R158, R159). -/

namespace Sys2Proof.Machine
open Sys2Proof.Claims

section Start
variable {s : State} {f l : Nat} {r : TaskReq} (hl : (s.face f).logical = some l) (hfree : (s.face f).task = none)
  (hfence : (s.face f).fenced = false) (hreset : (s.face f).resetting = false) (hon : domainOn s (11 + clusterOf f) = true)
  (hr : heldTask s l = some r)
include hl hfree hfence hreset hon hr

theorem taskStart_of_noRight (hright : sramRight s r.ctx.toNat (0xC000 + l / 2) = false) : taskStart s f = refuseTask s f r stProt := by
  simp only [taskStart, hl, hfree, hfence, hreset, hon, hr, hright, Option.isSome_none, Bool.not_true, Bool.not_false, Bool.or_self,
    Bool.false_eq_true, if_false, if_true]

variable (hright : sramRight s r.ctx.toNat (0xC000 + l / 2) = true)
include hright

theorem taskStart_of_badCount (hn : r.ndesc = 0 ∨ 512 < r.ndesc) : taskStart s f = refuseTask s f r stOob := by
  have hbad : (r.ndesc = 0 || 512 < r.ndesc) = true := by simpa only [Bool.or_eq_true, decide_eq_true_eq] using hn
  simp only [taskStart, hl, hfree, hfence, hreset, hon, hr, hright, hbad, Option.isSome_none, Bool.not_true, Bool.or_self,
    Bool.false_eq_true, if_false, if_true]

theorem taskStart_of_loaded (hload : r.reload = false) (hva : (s.face f).progVa = r.progVa)
    (hlen : (s.face f).program.length = r.ndesc) (h1 : 1 ≤ r.ndesc) (h512 : r.ndesc ≤ 512) : taskStart s f = runTask s f r 0 := by
  have hgood : (r.ndesc = 0 || 512 < r.ndesc) = false := by
    simp only [Bool.or_eq_false_iff, decide_eq_false_iff_not]
    omega
  have hprog : (s.face f).program ≠ [] := fun h => by
    rw [h, List.length_nil] at hlen
    omega
  simp only [taskStart, hl, hfree, hfence, hreset, hon, hr, hright, hgood, hload, hva, hlen, hprog, Option.isSome_none, Bool.not_true,
    ne_eq, not_true_eq_false, decide_false, Bool.or_self, Bool.false_eq_true, if_false]

end Start

theorem runTask_of_good {s : State} {f : Nat} {r : TaskReq} (hgood : badDescriptor (s.face f).program = none) :
    runTask s f r 0 = dropTask (s.setFace f { taskRegs (s.face f) r with
      task := some { q := r.q, seq := r.seq, ctx := r.ctx, started := s.now, seqAt := s.now } }) r := by
  unfold runTask
  rw [hgood]
  rfl

theorem vl_taskRegs (c : Face) (r : TaskReq) : (taskRegs c r).vl = 64 := by
  dsimp only [taskRegs]
  split <;> rfl

theorem xregs_taskRegs (c : Face) (r : TaskReq) :
    (taskRegs c r).xregs = (r.args.zipIdx).foldl (fun t x => setX t (8 + x.2) x.1) [] := by
  dsimp only [taskRegs]
  split <;> rfl

theorem tabWf_setX {r : Tab W32} (h : tabWf 0 r = true) (x : Nat) (v : W32) : tabWf 0 (setX r x v) = true := by
  unfold setX
  split
  · exact h
  · exact tabWf_tset h x v

/-- Registers written one after another from 8 + j on. -/
theorem xreg_foldl_setX (vs : List W32) {r : Tab W32} (h : tabWf 0 r = true) (j x : Nat) :
    xreg ((vs.zipIdx j).foldl (fun t v => setX t (8 + v.2) v.1) r) x =
      if 8 + j ≤ x ∧ x < 8 + j + vs.length then vs.getD (x - 8 - j) 0 else xreg r x := by
  induction vs generalizing r j with
  | nil => rw [List.zipIdx_nil, List.foldl_nil, if_neg (by simp only [List.length_nil]; omega)]
  | cons v vs ih =>
    rw [List.zipIdx_cons, List.foldl_cons, ih (tabWf_setX h _ _), xreg_setX h, List.length_cons]
    by_cases hx : x = 8 + j
    · rw [if_neg (by omega), if_pos ⟨hx, by omega⟩, if_pos (by omega), show x - 8 - j = 0 by omega, List.getD_cons_zero]
    · rw [if_neg (c := x = 8 + j ∧ x ≠ 0) fun hxj => hx hxj.1]
      by_cases hin : 8 + (j + 1) ≤ x ∧ x < 8 + (j + 1) + vs.length
      · rw [if_pos hin, if_pos (by omega), show x - 8 - j = x - 8 - (j + 1) + 1 by omega, List.getD_cons_succ]
      · rw [if_neg hin, if_neg (by omega)]

/-- Settles O34: the checks of `taskStart` in their order, and the registers of `taskRegs`. -/
theorem tasksStart : Obligations.TasksStart := by
  unfold Obligations.TasksStart
  refine fun s f l r hl hfree hfence hreset hon hr => ⟨fun hright => ?_, fun hright hn => ?_,
    fun hright hload hva hlen h1 h512 hgood => ?_, vl_taskRegs _ r, fun hargs x hx => ?_⟩
  · exact congrArg Host.Outcome.next (taskStart_of_noRight hl hfree hfence hreset hon hr hright)
  · exact congrArg Host.Outcome.next (taskStart_of_badCount hl hfree hfence hreset hon hr hright hn)
  · exact congrArg Host.Outcome.next ((taskStart_of_loaded hl hfree hfence hreset hon hr hright hload hva hlen h1 h512).trans
      (runTask_of_good hgood))
  · rw [xregs_taskRegs, xreg_foldl_setX _ rfl, hargs]
    by_cases h8 : 8 ≤ x
    · rw [if_pos (by omega), if_pos h8, Nat.sub_zero]
    · rw [if_neg (by omega), if_neg h8]
      unfold xreg
      split <;> rfl

end Sys2Proof.Machine
end

section
/-! SUPPORT. The start and the end of engine operations, and the scoreboard's 16 places (R167 to R169, R276, R277, R420). -/

namespace Sys2Proof.Machine
open Sys2Proof.Claims

/-- The face's running task holds at most 16 operations. -/
def ScoreboardFits (s : State) (f : Nat) : Prop := ∀ t, (s.face f).task = some t → t.ops.length ≤ 16

section Scoreboard
variable {s : State} {f : Nat} {t : FaceTask} (hw : tabWf ({} : Face) s.faces = true) (ht : (s.face f).task = some t)
include hw ht

theorem task_modTask (g : FaceTask → FaceTask) : ((modTask s f g).face f).task = some (g t) := by
  rw [modTask_of_task ht, State.face_setFace_same hw]

theorem scoreboardFits_modTask {g : FaceTask → FaceTask} (hg : (g t).ops.length ≤ 16) :
    ScoreboardFits (modTask s f g) f := fun u hu => by
  obtain rfl := Option.some.inj ((task_modTask hw ht g).symm.trans hu)
  exact hg

/-- A failure of the sequencer's own descriptor leaves the operations in the scoreboard. -/
theorem scoreboardFits_taskFail (hwait : t.wait.waits = false) (hfit : t.ops.length ≤ 16) (uid : Nat) (st : Byte) (tag : W16) :
    ScoreboardFits (taskFail { s with reqNext := s.reqNext + 1 } f uid st tag) f := by
  have ht' : (({ s with reqNext := s.reqNext + 1 } : State).face f).task = some t := ht
  have hany : ((({ s with reqNext := s.reqNext + 1 } : State).face f).task.any fun t => t.wait.waits) = false := by
    rw [ht', Option.any_some, hwait]
  unfold taskFail
  simp only [hany, Bool.false_eq_true, if_false]
  exact scoreboardFits_modTask (s := { s with reqNext := s.reqNext + 1 }) hw ht' hfit

end Scoreboard

theorem waits_of_issuing {t : FaceTask} {now : Nat} (h : issuing t now = true) : t.wait.waits = false := by
  rw [(issuing_iff.1 h).1]
  rfl

/-- Entering keeps the scoreboard within its 16 places: an operation enters only where one is free. -/
theorem scoreboardFits_seqEnter (f n : Nat) {s : State} (hw : tabWf ({} : Face) s.faces = true) (hfit : ScoreboardFits s f) :
    ScoreboardFits (seqEnter f n s) f := by
  induction n generalizing s with
  | zero => exact hfit
  | succ n ih =>
    unfold seqEnter
    cases ht : (s.face f).task with
    | none => simpa only [ht] using hfit
    | some t =>
      have hlen := hfit t ht
      cases hwait : t.wait with
      | failed st =>
        simp only [ht, hwait]
        exact scoreboardFits_taskFail hw ht (by rw [hwait]; rfl) hlen _ _ _
      | _ =>
        simp only [ht, hwait]
        split
        · exact hfit
        rename_i hissue
        rw [Bool.not_eq_true, Bool.not_eq_false'] at hissue
        split
        · split
          · rename_i hroom
            obtain ⟨hroom, -⟩ := Bool.and_eq_true_iff.1 hroom
            have hmore := of_decide_eq_true hroom
            refine ih (s := modTask { s with reqNext := s.reqNext + 1 } f _) ?_ (scoreboardFits_modTask (s := { s with reqNext := s.reqNext + 1 }) hw ht ?_)
            · exact tabWf_tset hw _ _
            · simp only [List.length_append, List.length_cons, List.length_nil]
              omega
          · exact hfit
        · split
          · exact hfit
          · exact scoreboardFits_taskFail hw ht (waits_of_issuing hissue) hlen _ _ _

theorem engOp_of_task {s : State} {f i : Nat} {t : FaceTask} {o : EngOp} (ht : (s.face f).task = some t) (ho : t.ops[i]? = some o) :
    engOp s f i = some (t, o) := by
  simp only [engOp, ht, ho, Option.map_some]

section Engine
variable {s : State} {f i : Nat} {t : FaceTask} {o : EngOp} (hent : entered s f = s) (ht : (s.face f).task = some t)
  (ho : t.ops[i]? = some o)
include hent ht ho

theorem engineStart_of_held (hstart : o.started = none) (hready : engReady s f t o = false) : engineStart s f i = s := by
  simp only [engineStart, hent, engOp_of_task ht ho, hstart, hready, Option.isSome_none, Bool.not_false, Bool.or_true, if_true]

variable (hstart : o.started = none) (hready : engReady s f t o = true) (hopc : descOpc o.desc ≠ opcHoist)
include hstart hready hopc

theorem engineStart_of_ok (hcheck : engCheck o = stOk) :
    engineStart s f i = putEngOp { s with reqNext := s.reqNext + 1 } f
      { o with started := some s.now, req := s.reqNext, cost := (engCycles o).1, busy := (engCycles o).2 } := by
  simp only [engineStart, hent, engOp_of_task ht ho, hstart, hready, hopc, hcheck, Option.isSome_none, Bool.not_true,
    Bool.or_self, Bool.false_eq_true, if_false, ne_eq, not_true_eq_false]
  rfl

theorem engineStart_of_bad (hcheck : engCheck o ≠ stOk) :
    engineStart s f i = putEngOp s f { o with started := some s.now, done := true, status := engCheck o, cost := 1, busy := 1 } := by
  simp only [engineStart, hent, engOp_of_task ht ho, hstart, hready, hopc, hcheck, Option.isSome_none, Bool.not_true,
    Bool.or_self, Bool.false_eq_true, if_false, ne_eq, not_false_eq_true, if_true, engRefused]

end Engine

theorem engReady_of_startsHeld {s : State} {f : Nat} (h : startsHeld s f = true) (t : FaceTask) (o : EngOp) :
    engReady s f t o = false := by
  simp only [engReady, h, Bool.not_true, Bool.false_and]

theorem startsHeld_iff {s : State} {f : Nat} :
    startsHeld s f = true ↔ (s.face f).gated = true ∨ dutyOpen (dutyOf s (8 + f)) s.now = false ∨
      ((s.face f).floorRate = true ∧ s.now % 4 ≠ 0) := by
  simp only [startsHeld, Bool.or_eq_true, Bool.and_eq_true, Bool.not_eq_true', decide_eq_true_eq, or_assoc]

section EngineDone
variable {s : State} {f i : Nat} {t : FaceTask} {o : EngOp} (hent : entered s f = s) (ht : (s.face f).task = some t)
  (ho : t.ops[i]? = some o)
include hent ht ho

theorem engineDone_of_notDue (h : o.done = false ∨ engDue s f o = false ∨ (s.face f).gated = true) : engineDone s f i = s := by
  have hnot : (engDue s f o && o.done && !(s.face f).gated) = false := by
    obtain h | h | h := h <;> simp [h]
  simp only [engineDone, hent, engOp_of_task ht ho, hnot, Bool.false_eq_true, if_false]

variable (hdone : o.done = true) (hdue : engDue s f o = true) (hgated : (s.face f).gated = false) (hx : o.xout = none)
include hdone hdue hgated hx

/-- An operation that leaves the scoreboard and changes no register (R169, R217). -/
theorem engineDone_of_due :
    engineDone s f i =
      let u := modTask s f fun t =>
        { t with ops := t.ops.filter fun x => x.uid ≠ o.uid, seqAt := max t.seqAt s.now, assay := assayAdd t.assay o.assay }
      let v := if descOpc o.desc = opcHoist then
          u.modFace f fun c => { c with hoistTransfers := c.hoistTransfers + 1, hoistLastStatus := o.status } else u
      if o.status = stOk then v else taskFail v f o.uid o.status (descTag o.desc) := by
  unfold engineDone
  simp only [hent, engOp_of_task ht ho, hdone, hdue, hgated, hx, Bool.not_false, Bool.and_self, if_true]

end EngineDone

/-- Settles O35: the branches of `engineStart` and `engineDone`, and `scoreboardFits_seqEnter`. -/
theorem engineOperationsStartAndEnd : Obligations.EngineOperationsStartAndEnd := by
  unfold Obligations.EngineOperationsStartAndEnd
  refine ⟨fun s f i t o hent ht ho => ⟨fun hstart hready hopc => ⟨fun hc => ?_, fun hc => ?_⟩, fun hstart hready => ?_,
    fun h => engReady_of_startsHeld (startsHeld_iff.2 h) t o, fun h => ?_, fun hdone hdue hgated hx hopc =>
      ⟨fun hst => ?_, fun hst => ?_⟩⟩, fun s f t hw hfit ht => scoreboardFits_seqEnter f 17 hw hfit t ht⟩
  · exact congrArg Host.Outcome.next (engineStart_of_ok hent ht ho hstart hready hopc hc)
  · exact congrArg Host.Outcome.next (engineStart_of_bad hent ht ho hstart hready hopc hc)
  · exact congrArg Host.Outcome.next (engineStart_of_held hent ht ho hstart hready)
  · exact congrArg Host.Outcome.next (engineDone_of_notDue hent ht ho h)
  · exact congrArg Host.Outcome.next ((engineDone_of_due hent ht ho hdone hdue hgated hx).trans
      ((if_pos hst).trans (if_neg hopc)))
  · refine congrArg Host.Outcome.next ((engineDone_of_due hent ht ho hdone hdue hgated hx).trans
      ((if_neg hst).trans (congrArg (fun v => taskFail v f.val o.uid o.status (descTag o.desc)) (if_neg hopc))))

end Sys2Proof.Machine
end

section
/-! SUPPORT. Reads of face SRAM without an error leave the state and give clean bytes (R192); runs of table writes. -/

namespace Sys2Proof.Machine
open Sys2Proof.Claims

section CleanSram
variable {s : State} (hclean : s.sramErr = [])
include hclean

theorem readSramWord_of_clean (f o : Nat) (code : W16) (ctx : BitVec 6) :
    readSramWord s f o code ctx = (s, s.rdBytes (8 * sramWord f o) 8, false) := by
  simp only [readSramWord, hclean, tget]

theorem readSramWords_of_clean (f : Nat) (code : W16) (ctx : BitVec 6) (os : List Nat) :
    readSramWords s f code ctx os = (s, os.flatMap fun o => cleanBytes (s.rdBytes (8 * sramWord f o) 8)) := by
  induction os with
  | nil => rfl
  | cons o os ih => simp only [readSramWords, readSramWord_of_clean hclean, ih, List.flatMap_cons, cleanBytes]

theorem sramRead_fst_of_clean (f off n : Nat) (code : W16) (ctx : BitVec 6) : (sramRead s f off n code ctx).1 = s := by
  simp only [sramRead, readSramWords_of_clean hclean]

theorem sramRead_snd_clean (f off n : Nat) (code : W16) (ctx : BitVec 6) :
    ∀ b ∈ (sramRead s f off n code ctx).2, b.2 = false := by
  intro b hb
  simp only [sramRead, readSramWords_of_clean hclean] at hb
  obtain ⟨o, -, hb⟩ := List.mem_flatMap.1 (List.mem_of_mem_drop (List.mem_of_mem_take hb))
  obtain ⟨x, -, rfl⟩ := List.mem_map.1 hb
  rfl

/-- What a span's read gives, when each run leaves the state and brings clean bytes. -/
theorem readSpan_of_clean (f : Nat) (ctx : BitVec 6) (r : Span) :
    (readSpan s f ctx r).1 = s ∧ poisonIn (readSpan s f ctx r).2 = false := by
  refine List.foldlRecOn (motive := fun a : State × Array PByte => a.1 = s ∧ poisonIn a.2 = false) _ _ ⟨rfl, by simp [poisonIn]⟩
    fun a ⟨hs, hp⟩ j _ => ?_
  rw [hs]
  refine ⟨sramRead_fst_of_clean hclean _ _ _ _ _, ?_⟩
  have hrun := sramRead_snd_clean hclean f ((r.first : Int) + (j : Int) * r.step).toNat r.len (codeFace (faceL s f)) ctx
  simp only [poisonIn, Array.any_append, List.any_toArray, Bool.or_eq_false_iff]
  exact ⟨hp, List.any_eq_false.2 fun b hb => by rw [hrun b hb]; exact Bool.false_ne_true⟩

theorem readSpan_eq_of_clean (f : Nat) (ctx : BitVec 6) (r : Span) : readSpan s f ctx r = (s, (readSpan s f ctx r).2) :=
  Prod.ext (readSpan_of_clean hclean f ctx r).1 rfl

end CleanSram

section Writes
variable {α β : Type} [DecidableEq α] {z : α} {t : Tab α} {ix : β → Nat} {v : β → α}

theorem tabWf_foldl_tset (h : tabWf z t = true) (l : List β) : tabWf z (l.foldl (fun t x => tset z t (ix x) (v x)) t) = true := by
  induction l generalizing t with
  | nil => exact h
  | cons x l ih => exact ih (tabWf_tset h _ _)

theorem tget_foldl_tset_of_ne {l : List β} {k : Nat} (h : ∀ x ∈ l, ix x ≠ k) :
    tget z (l.foldl (fun t x => tset z t (ix x) (v x)) t) k = tget z t k := by
  induction l generalizing t with
  | nil => rfl
  | cons x l ih =>
    rw [List.foldl_cons, ih fun y hy => h y (List.mem_cons_of_mem _ hy)]
    exact tget_tset_ne _ _ (h x List.mem_cons_self).symm

/-- Of a run of writes the last one to an index stands: here every one of them writes the same. -/
theorem tget_foldl_tset_of_mem (hwf : tabWf z t = true) {l : List β} {k : Nat} {w : α} (hk : ∃ x ∈ l, ix x = k)
    (hv : ∀ x ∈ l, ix x = k → v x = w) : tget z (l.foldl (fun t x => tset z t (ix x) (v x)) t) k = w := by
  induction l generalizing t with
  | nil => exact absurd hk (by simp)
  | cons x l ih =>
    rw [List.foldl_cons]
    by_cases hin : ∃ y ∈ l, ix y = k
    · exact ih (tabWf_tset hwf _ _) hin fun y hy => hv y (List.mem_cons_of_mem _ hy)
    · obtain ⟨y, hy, hyk⟩ := hk
      have hx : y = x := (List.mem_cons.1 hy).resolve_right fun h => hin ⟨y, h, hyk⟩
      subst hx
      rw [tget_foldl_tset_of_ne fun w hw hwk => hin ⟨w, hw, hwk⟩, ← hyk, tget_tset_same hwf]
      exact hv y List.mem_cons_self hyk

end Writes

theorem runningEng_of_runs {s : State} {f : FaceId} {i : Fin 16} {t : FaceTask} {o : EngOp} {opc : Nat} (h : Runs s f i t o opc) :
    runningEng s f.val i.val opc = some (t, o) := by
  obtain ⟨ht, ho, hdue, hdone, hopc, hgated⟩ := h
  simp only [runningEng, engOp_of_task ht ho, hdue, hdone, hopc, hgated, BEq.rfl, Bool.not_false, Bool.and_self, if_true]

theorem descOpc_of_runs {s : State} {f : FaceId} {i : Fin 16} {t : FaceTask} {o : EngOp} {opc : Nat} (h : Runs s f i t o opc) :
    descOpc o.desc = opc := by
  obtain ⟨-, -, -, -, hopc, -⟩ := h
  exact hopc

end Sys2Proof.Machine
end

section
/-! SUPPORT. MXV, MSTORE, PLANESUM and the write-back of an SRAM word (R172 to R174, R187, R192). -/

namespace Sys2Proof.Machine
open Sys2Proof.Claims

section Stores
variable {s : State} {f : FaceId} {i : Fin 16} {t : FaceTask} {o : EngOp} (hclean : s.sramErr = [])

section Mxv
variable (hM : mxM o = 1) (hsc : mxvScaleBytes o = 0)

/-- The outputs of an MXV of one vector without scale bytes. -/
def mxvOuts (o : EngOp) (x w : Array PByte) : List (Nat × Flags) :=
  (List.range (mxN o)).map fun r =>
    let p := fastDot 32 (mxK o) (fun e => (valAt w (plainFmt (mxAfmt o)) 0 (mxvElem (mxN o) (mxK o) r e)).mul
      (valAt x (plainFmt (mxBfmt o)) 0 e)) (fun _ => .one) (.zero, false)
    let q := (ofmtOf (mxOfmt o)).convert .rne p.1
    (q.1, { q.2 with ovf := q.2.ovf || p.2 })

/-- The face whose input buffer holds a vector's bytes. -/
def withVector (c : Face) (x : Array PByte) : Face :=
  { c with vinbuf := (x.toList.zipIdx).foldl (fun t b => tset 0 t b.2 b.1.1) c.vinbuf }

include hclean hM hsc in
theorem mxvRows_of_single (f : Nat) (ctx : BitVec 6) :
    let x := (readSpan s f ctx (mxvX o)).2
    let w := (readSpan s f ctx (mxvW o)).2
    let u := engWrite (s.setFace f (withVector (s.face f) x)) f ctx (mxvY o).first
      (packElems (8 * mxvOutBytes o) ((mxvOuts o x w).map (·.1)))
    mxvRows s f ctx o (mxN o) = (u.1, u.2, (mxvOuts o x w).map (·.2)) := by
  have hx := readSpan_eq_of_clean hclean f ctx (mxvX o)
  have hw := readSpan_eq_of_clean hclean f ctx (mxvW o)
  have hpx := (readSpan_of_clean hclean f ctx (mxvX o)).2
  have hpw := (readSpan_of_clean hclean f ctx (mxvW o)).2
  intro x w u
  unfold mxvRows
  rw [hx]
  dsimp only
  rw [hw]
  simp only [hM, hsc, ne_eq, not_true_eq_false, if_false, hpx, hpw, List.range_one, List.map_cons, List.map_nil,
    List.zipIdx_cons, List.zipIdx_nil, List.foldl_cons, List.foldl_nil, Nat.zero_mul, Nat.add_zero, Nat.min_self,
    List.flatten_cons, List.flatten_nil, List.append_nil]
  have hst : badStatus (false || false || poisonIn #[]) = stOk := by simp [poisonIn, badStatus]
  rw [hst, if_pos rfl]
  rfl
end Mxv

theorem mstoreRow_zero {s : State} {f : Nat} {ctx : BitVec 6} {o : EngOp} (g : FaceFmt) :
    let m := roundings (mxRnd o) (mxN o) (s.face f).srState
    let r := storeElems g ((List.range (mxN o)).map fun j => val32 (tget 0 (s.face f).accs (mxBank o * 4096 + j))) m.1
    let u := engWrite (s.setFace f { s.face f with srState := m.2 }) f ctx (mstoreC o).first r.1
    mstoreRow f ctx o g (s, stOk, []) 0 = (u.1, u.2, r.2) := by
  simp only [mstoreRow, accIx, Nat.zero_mul, Nat.add_zero, if_true, List.nil_append]

theorem sramWriteBack_cons {s : State} {f w : Nat} {rest : List Nat} (h : (s.face f).writeBacks = w :: rest) :
    sramWriteBack s f =
      let u := s.setFace f { s.face f with writeBacks := rest }
      if tget 0 s.sramErr w = 1 then { u with sramErr := tset 0 s.sramErr w 0 } else u := by
  unfold sramWriteBack
  rw [h]
  rfl

/-- The outputs of a PLANESUM. -/
def planesumElems (o : EngOp) (a : Array PByte) : List (Nat × Flags) :=
  (List.range (psN o)).map fun j =>
    let x := planeSum a (psN o) (psPlanes o) j
    let q := (ofmtOf (psOfmt o)).convert .rne x.1
    (q.1, { q.2 with ovf := q.2.ovf || x.2 })

include hclean in
theorem planesumOuts_of_clean (f : Nat) (ctx : BitVec 6) :
    let a := (readSpan s f ctx (psSrc o)).2
    let u := engWrite s f ctx (psDst o).first (packElems (ofmtOf (psOfmt o)).bits ((planesumElems o a).map (·.1)))
    planesumOuts s f ctx o (psN o) = (u.1, u.2, (planesumElems o a).map (·.2)) := by
  have hread := readSpan_eq_of_clean hclean f ctx (psSrc o)
  have hpoison := (readSpan_of_clean hclean f ctx (psSrc o)).2
  have hspan : ({ psSrc o with len := 8 * psN o } : Span) = psSrc o := rfl
  intro a u
  unfold planesumOuts
  rw [hspan, hread]
  simp only [hpoison, Bool.false_eq_true, if_false]
  rfl

end Stores

/-- Settles O37: one run of each engine operation on SRAM without errors. -/
theorem enginesStoreTheirResults : Obligations.EnginesStoreTheirResults := by
  unfold Obligations.EnginesStoreTheirResults
  refine fun s f i t o hclean => ⟨fun h _ hM hsc => ⟨?_, ?_⟩, fun g h hg hM => ⟨?_, ?_⟩, fun h => ⟨?_, ?_⟩, fun e w rest hw =>
    ⟨fun he => ?_, fun he => ?_⟩⟩
  · refine congrArg Host.Outcome.next ?_
    simp only [mxv, runningEng_of_runs h, mxvRows_of_single hclean hM hsc f.val t.ctx]
    rfl
  · have hcyc : (engCycles o).1 = mxvCycles o := by simp only [engCycles, descOpc_of_runs h, if_true]; rfl
    rw [hcyc, mxvCycles, hM, hsc, Nat.one_mul, Nat.add_zero, Nat.mul_one]
  · refine congrArg Host.Outcome.next ?_
    simp only [mstore, runningEng_of_runs h, hg, hM, List.range_one, List.foldl_cons, List.foldl_nil, mstoreRow_zero]
  · have hcyc : (engCycles o).1 = mstoreCycles o := by simp only [engCycles, descOpc_of_runs h, if_true]; rfl
    rw [hcyc, mstoreCycles, hM, Nat.one_mul, mstoreC, hg]
  · refine congrArg Host.Outcome.next ?_
    simp only [planesum, runningEng_of_runs h, planesumOuts_of_clean hclean f.val t.ctx]
    rfl
  · simp only [engCycles, descOpc_of_runs h]
    rfl
  · exact congrArg Host.Outcome.next ((sramWriteBack_cons (s := { s with sramErr := e }) hw).trans (if_pos he))
  · exact congrArg Host.Outcome.next ((sramWriteBack_cons (s := { s with sramErr := e }) hw).trans (if_neg he))

end Sys2Proof.Machine
end

section
/-! SUPPORT. MMA, a chain of one INT32 ADD stage, and VHRED's INT32 MAX (R171, R180, R186). -/

namespace Sys2Proof.Machine
open Sys2Proof.Claims

/-! ## MMA -/

section Mma
variable {s : State} {f : Nat} {o : EngOp} (hclean : s.sramErr = []) (ctx : BitVec 6)

/-- One accumulator's new value (R171). -/
def mmaOut (s : State) (f : Nat) (ctx : BitVec 6) (o : EngOp) (r n : Nat) : Val × Bool :=
  mmaCell (mxK o) (mxInputBits (mxAfmt o) == 16)
    (fun k => (valAt (readSpan s f ctx (mmaA o)).2 (plainFmt (mxAfmt o)) (k * (mmaA o).len) r).mul
      (valAt (readSpan s f ctx (mmaB o)).2 (plainFmt (mxBfmt o)) (k * (mmaB o).len) n))
    (if mxInit o then .zero else val32 (tget 0 (s.face f).accs (accIx (mxBank o) r n)))

/-- The accumulators that an MMA writes, with their values. -/
def mmaOuts (s : State) (f : Nat) (ctx : BitVec 6) (o : EngOp) : List (Nat × (Val × Bool)) :=
  (List.range (mxM o)).flatMap fun r => (List.range (mxN o)).map fun n => (accIx (mxBank o) r n, mmaOut s f ctx o r n)

/-- The accumulators after an MMA. -/
def mmaAccs (s : State) (f : Nat) (ctx : BitVec 6) (o : EngOp) : Tab W32 :=
  (mmaOuts s f ctx o).foldl (fun t x => tset 0 t x.1 (code32 x.2.1)) (s.face f).accs

include hclean in
theorem mma_of_running {i : Nat} {t : FaceTask} (hrun : runningEng s f i opcMma = some (t, o)) :
    mma s f i = mxEnd s (s.setFace f { s.face f with accs := mmaAccs s f t.ctx o }) f o stOk
      ((mmaOuts s f t.ctx o).map fun x => resultFlags x.2) := by
  have ha := readSpan_eq_of_clean hclean f t.ctx (mmaA o)
  have hb := readSpan_eq_of_clean hclean f t.ctx (mmaB o)
  have hpa := (readSpan_of_clean hclean f t.ctx (mmaA o)).2
  have hpb := (readSpan_of_clean hclean f t.ctx (mmaB o)).2
  unfold mma
  rw [hrun]
  dsimp only
  rw [ha]
  dsimp only
  rw [hb]
  simp only [hpa, hpb]
  rfl

theorem mem_mmaOuts {x : Nat × (Val × Bool)} :
    x ∈ mmaOuts s f ctx o ↔ ∃ r < mxM o, ∃ n < mxN o, x = (accIx (mxBank o) r n, mmaOut s f ctx o r n) := by
  simp only [mmaOuts, List.mem_flatMap, List.mem_map, List.mem_range, eq_comm (a := x)]

/-- Places of a bank of 64 columns differ where their rows or columns do. -/
theorem accIx_inj {bank r n r' n' : Nat} (hn : n < 64) (hn' : n' < 64) (h : accIx bank r n = accIx bank r' n') : r = r' ∧ n = n' := by
  unfold accIx at h
  omega

theorem tget_mmaAccs (hwf : tabWf (0 : W32) (s.face f).accs = true) (hN : mxN o ≤ 64) {r n : Nat} (hr : r < mxM o) (hn : n < mxN o) :
    tget 0 (mmaAccs s f ctx o) (accIx (mxBank o) r n) = code32 (mmaOut s f ctx o r n).1 := by
  refine tget_foldl_tset_of_mem hwf ⟨_, (mem_mmaOuts ctx).2 ⟨r, hr, n, hn, rfl⟩, rfl⟩ fun x hx hk => ?_
  obtain ⟨r', -, n', hn', rfl⟩ := (mem_mmaOuts ctx).1 hx
  obtain ⟨rfl, rfl⟩ := accIx_inj (by omega) (by omega) hk
  rfl

theorem tget_mmaAccs_of_other {k : Nat} (h : ∀ r < mxM o, ∀ n < mxN o, k ≠ accIx (mxBank o) r n) :
    tget 0 (mmaAccs s f ctx o) k = tget 0 (s.face f).accs k := by
  refine tget_foldl_tset_of_ne fun x hx hk => ?_
  obtain ⟨r, hr, n, hn, rfl⟩ := (mem_mmaOuts ctx).1 hx
  exact h r hr n hn hk.symm

end Mma

theorem mxN_le_of_mmaCheck {o : EngOp} (h : mmaCheck o = stOk) : mxN o ≤ 64 := by
  unfold mmaCheck twoChecks at h
  split at h
  · exact absurd h (by decide)
  · split at h
    · exact absurd h (by decide)
    · rename_i hr
      simp only [Bool.not_eq_true, Bool.not_eq_false', Bool.and_eq_true, decide_eq_true_eq] at hr
      obtain ⟨⟨⟨⟨⟨-, -⟩, hN⟩, -⟩, -⟩, -⟩ := hr
      omega

/-! ## VHRED: MAX of INT32 -/

/-- An integer that an INT32 lane holds. -/
def InInt32 (n : Int) : Prop := -(2 ^ 31) ≤ n ∧ n ≤ 2 ^ 31 - 1

theorem satInt_of_inInt32 {n : Int} (h : InInt32 n) : satInt n = (n, {}) := by
  obtain ⟨h1, h2⟩ := h
  rw [satInt, if_neg (by omega), if_neg (by omega)]

theorem hrJoin_max {a b : Int} (ha : InInt32 a) (hb : InInt32 b) : hrJoin 1 true (.i a) (.i b) = (.i (max a b), {}) := by
  have hmax : InInt32 (max a b) := by
    obtain h | h := Int.le_total a b
    · rwa [Int.max_eq_right h]
    · rwa [Int.max_eq_left h]
  simp only [hrJoin, if_true, Nat.one_ne_zero, if_false, Lane.int, minMaxInt, BEq.rfl, satInt_of_inInt32 hmax]

/-- A level of the tree halves the lanes, keeps to their values and loses no largest one. -/
theorem hrLevel_max (n : Nat) (l : List Int) (hl : l.length = 2 * n) (hr : ∀ x ∈ l, InInt32 x) :
    ∃ m : List Int, hrLevel 1 true (l.map .i) = (m.map .i, {}) ∧ m.length = n ∧ (∀ x ∈ m, x ∈ l) ∧ ∀ x ∈ l, ∃ y ∈ m, x ≤ y := by
  induction n generalizing l with
  | zero =>
    obtain rfl := List.length_eq_zero_iff.1 hl
    exact ⟨[], rfl, rfl, by simp, by simp⟩
  | succ n ih =>
    match l, hl with
    | a :: b :: l, hl =>
      obtain ⟨m, hm, hlen, hsub, hmax⟩ := ih l (by simp only [List.length_cons] at hl; omega)
        fun x hx => hr x (List.mem_cons_of_mem _ (List.mem_cons_of_mem _ hx))
      have hjoin := hrJoin_max (hr a (by simp)) (hr b (by simp))
      refine ⟨max a b :: m, ?_, by rw [List.length_cons, hlen], fun x hx => ?_, fun x hx => ?_⟩
      · simp only [List.map_cons, hrLevel, hjoin, hm]
        rfl
      · obtain rfl | hx := List.mem_cons.1 hx
        · obtain h | h := Int.le_total a b
          · rw [Int.max_eq_right h]
            exact List.mem_cons_of_mem _ List.mem_cons_self
          · rw [Int.max_eq_left h]
            exact List.mem_cons_self
        · exact List.mem_cons_of_mem _ (List.mem_cons_of_mem _ (hsub x hx))
      · obtain rfl | hx := List.mem_cons.1 hx
        · exact ⟨_, List.mem_cons_self, Int.le_max_left _ _⟩
        · obtain rfl | hx := List.mem_cons.1 hx
          · exact ⟨_, List.mem_cons_self, Int.le_max_right _ _⟩
          · obtain ⟨y, hy, hxy⟩ := hmax x hx
            exact ⟨y, List.mem_cons_of_mem _ hy, hxy⟩

/-- The tree of n levels over 2^n lanes gives their largest. -/
theorem hrTree_max (n : Nat) (l : List Int) (hl : l.length = 2 ^ n) (hr : ∀ x ∈ l, InInt32 x) :
    ∃ x ∈ l, hrTree 1 true n (l.map .i) = (.i x, {}) ∧ ∀ y ∈ l, y ≤ x := by
  induction n generalizing l with
  | zero =>
    obtain ⟨x, rfl⟩ := List.length_eq_one_iff.1 hl
    exact ⟨x, List.mem_singleton_self x, rfl, fun y hy => Int.le_of_eq (List.mem_singleton.1 hy)⟩
  | succ n ih =>
    obtain ⟨m, hm, hlen, hsub, hmax⟩ := hrLevel_max (2 ^ n) l (by rw [hl, Nat.pow_succ]; omega) hr
    obtain ⟨x, hx, htree, hle⟩ := ih m hlen fun x hx => hr x (hsub x hx)
    refine ⟨x, hsub x hx, ?_, fun y hy => ?_⟩
    · simp only [hrTree, hm, htree]
      rfl
    · obtain ⟨z, hz, hyz⟩ := hmax y hy
      exact Int.le_trans hyz (hle z hz)

theorem signed_toNat (w : W32) : signed 32 w.toNat = w.toInt := by
  simp only [signed, BitVec.toInt_eq_toNat_cond]
  split <;> split <;> omega

theorem inInt32_toInt (w : W32) : InInt32 w.toInt := by
  have := w.toInt_lt
  have := w.le_toInt
  constructor <;> omega

/-- What VHRED's lanes hold for MAX of INT32: the register's below VL, the least integer above. -/
def hrLanes (s : State) (f : Nat) (o : EngOp) : List Int :=
  (List.range 64).map fun n => if n < o.vl then (vlane (s.face f) (hrVs o.desc) n).toInt else -(2 ^ 31)

theorem vhred_max {s : State} {f i : Nat} {t : FaceTask} {o : EngOp} (hrun : runningEng s f i opcVhred = some (t, o))
    (hfn : hrFn o.desc = 1) (hint : hrInt o.desc = true) (hxd : hrXd o.desc = 0) (h1 : 1 ≤ o.vl) (h64 : o.vl ≤ 64) :
    ∃ n < o.vl, (∀ m < o.vl, (vlane (s.face f) (hrVs o.desc) m).toInt ≤ (vlane (s.face f) (hrVs o.desc) n).toInt) ∧
      vhred s f i = vxEnd s (s.setFace f { s.face f with
        vregs := tset 0 (s.face f).vregs (hrVd o.desc * 64) (vlane (s.face f) (hrVs o.desc) n) }) f o stOk [{}] := by
  have hlen : (hrLanes s f o).length = 2 ^ 6 := by simp [hrLanes]
  have hrange : ∀ x ∈ hrLanes s f o, InInt32 x := fun x hx => by
    obtain ⟨n, -, rfl⟩ := List.mem_map.1 hx
    split
    · exact inInt32_toInt _
    · exact ⟨Int.le_refl _, by omega⟩
  have hmem : ∀ m < o.vl, (vlane (s.face f) (hrVs o.desc) m).toInt ∈ hrLanes s f o := fun m hm =>
    List.mem_map.2 ⟨m, List.mem_range.2 (by omega), if_pos hm⟩
  obtain ⟨x, hx, htree, hmax⟩ := hrTree_max 6 (hrLanes s f o) hlen hrange
  have hlane : ∃ n < o.vl, (vlane (s.face f) (hrVs o.desc) n).toInt = x := by
    obtain ⟨n, -, rfl⟩ := List.mem_map.1 hx
    by_cases hn : n < o.vl
    · exact ⟨n, hn, (if_pos hn).symm⟩
    · rw [if_neg hn] at hmax ⊢
      exact ⟨0, by omega, Int.le_antisymm (hmax _ (hmem 0 (by omega))) (inInt32_toInt _).1⟩
  obtain ⟨n, hn, rfl⟩ := hlane
  have hls : ((List.range 64).map fun n =>
      if n < o.vl then regLane (hrInt o.desc) (vlane (s.face f) (hrVs o.desc) n) else hrIdent (hrFn o.desc) (hrInt o.desc)) =
      (hrLanes s f o).map .i := by
    rw [hrLanes, List.map_map]
    refine List.map_congr_left fun m _ => ?_
    simp only [Function.comp_apply, hint, hfn, regLane, hrIdent, signed_toNat, if_true]
    split <;> rfl
  refine ⟨n, hn, fun m hm => hmax _ (hmem m hm), ?_⟩
  unfold vhred
  rw [hrun]
  dsimp only
  rw [hls, hfn, hint, htree]
  simp only [hxd, if_true, BitVec.ofInt_toInt]
  rfl

/-! ## A chain of one INT32 ADD stage -/

section Vchain
variable {s : State} {f : Nat} {o : EngOp} {g : Stage}

theorem satInt_fst (n : Int) : (satInt n).1 = max (-2 ^ 31) (min (2 ^ 31 - 1) n) := by
  unfold satInt
  split
  · omega
  · split <;> simp only <;> omega

/-- The lanes of a register stream of INT32. -/
def intLanes (s : State) (f : Nat) (o : EngOp) : List Lane :=
  (List.range o.vl).map fun n => .i (vlane (s.face f) ((chIn o.desc 0).off % 32) n).toInt

variable (hst : chStages o.desc = [g]) (hop : g.sop = 1) (ha : g.sa = 0) (hb : g.sb = 4) (hna : g.na = false) (hint : g.int = true)
  (hn : chNstage o.desc = 1) (hbeats : chBeats o.desc = 1) (hsink : chSink o.desc = 0) (hexp : chExp0 o.desc = false)
  (hmin : chMin o.desc = false) (hmout : chMout o.desc = false) (hireg : (chIn o.desc 0).reg = true) (hifmt : (chIn o.desc 0).fmt = 4)
  (horeg : (chOut o.desc).reg = true) (hofmt : (chOut o.desc).fmt = 4)

include hst hop ha hb hexp in
theorem chUsed_of_addImm : chUsed o.desc = [0] := by
  simp [chUsed, hst, stageUses, hop, ha, hb, hexp, List.range_succ]

include hst hop hn hbeats hsink hexp in
theorem vchainCycles_of_addImm : (vchainCycles o.desc, laneCycles o.desc * chBeats o.desc) = (11, 1) := by
  simp [vchainCycles, laneCycles, hst, hop, hn, hbeats, hsink, hexp, stageLat]

include hst hop ha hb hexp hireg hifmt in
theorem readInputs_of_addImm (ctx : BitVec 6) (r : ChainRun) :
    readInputs f ctx o 0 (s, r) = (s, r, [(intLanes s f o).map fun l => (l, false), [], []]) := by
  have hread : readBeat s f ctx o (chIn o.desc 0) 0 = (s, (intLanes s f o).map fun l => (l, false)) := by
    have hreg : streamReg (chIn o.desc 0) 0 = (chIn o.desc 0).off % 32 := by simp [streamReg]
    simp only [readBeat, hireg, hifmt, if_true, BEq.rfl, regLane, signed_toNat, hreg, intLanes, List.map_map]
    rfl
  simp [readInputs, chUsed_of_addImm hst hop ha hb hexp, hexp, hread, List.range_succ]

/-- What the stage makes of each lane. -/
def sumLanes (s : State) (f : Nat) (o : EngOp) : List Lane :=
  (List.range o.vl).map fun n => .i ((vlane (s.face f) ((chIn o.desc 0).off % 32) n).toInt + (chImm o.desc 0).toInt)

include hop ha hb hna hint in
theorem runStage_of_addImm {b : Beat} (hins : b.ins = [intLanes s f o, [], []]) (hres : b.res = []) :
    ∃ fl, runStage o.desc o.vl 1 true b (g, 0) = { b with res := [sumLanes s f o], flags := fl } := by
  have hopnd : laneOpnd o.desc b o.vl 0 4 true = (List.range o.vl).map fun _ => Lane.i (chImm o.desc 0).toInt := by
    rw [show ((List.range o.vl).map fun _ => Lane.i (chImm o.desc 0).toInt) = List.replicate o.vl (.i (chImm o.desc 0).toInt) from
      List.ext_getElem (by simp only [List.length_map, List.length_range, List.length_replicate]) fun _ _ _ => by
        simp only [List.getElem_map, List.getElem_replicate], ← signed_toNat]
    rfl
  have hself : laneOpnd o.desc b o.vl 0 0 true = intLanes s f o := by simp [laneOpnd, hins]
  have hsum : ∀ cs : List Lane, cs.length = o.vl → (((intLanes s f o).zip ((List.range o.vl).map fun _ =>
      Lane.i (chImm o.desc 0).toInt)).zip cs).map (fun q => laneAlu 1 true q.1.1 q.1.2 q.2) = sumLanes s f o := fun cs hcs => by
    refine List.ext_getElem (by simp [intLanes, sumLanes, hcs]) fun n h1 h2 => ?_
    simp [intLanes, sumLanes, laneAlu, Lane.int]
  have hcs : (if g.nc then (intLanes s f o).map Lane.neg else intLanes s f o).length = o.vl := by split <;> simp [intLanes]
  refine ⟨orFlags b.flags ((intLanes s f o).map fun _ => {}), ?_⟩
  have hadd := hsum _ hcs
  simp only [runStage, hop, ha, hb, hna, hint, hself, hopnd, Bool.false_eq_true, if_false, reduceIte, Nat.reduceEqDiff, Nat.zero_add,
    BEq.rfl, Bool.and_self, putResult, hres, List.nil_append]
  rw [hadd]

/-- The codes that the chain's output register takes. -/
def sumCodes (s : State) (f : Nat) (o : EngOp) : List Nat :=
  (List.range o.vl).map fun n =>
    intCode (satInt ((vlane (s.face f) ((chIn o.desc 0).off % 32) n).toInt + (chImm o.desc 0).toInt)).1

include hst hop hofmt in
theorem beatOutput_of_sum {b : Beat} (hres : b.res = [sumLanes s f o]) (hbad : b.bad = (List.range o.vl).map fun _ => false) :
    ∃ stored fl, beatOutput o.desc b = (sumCodes s f o, [], stored, fl) := by
  have hzip : (sumLanes s f o).zip b.bad = (sumLanes s f o).map fun l => (l, false) := by
    rw [hbad]
    exact List.ext_getElem (by simp [sumLanes]) fun n h1 h2 => by simp [sumLanes]
  have hout : (beatOutput o.desc b).1 = sumCodes s f o ∧ (beatOutput o.desc b).2.1 = [] := by
    simp only [beatOutput, hofmt, hres, hzip, List.getLastD_cons, List.getLastD_nil]
    simp [hst, hop, sumCodes, sumLanes, lastRound, plainFmt, faceFmt]
  exact ⟨_, _, Prod.ext hout.1 (Prod.ext hout.2 rfl)⟩

/-- The face whose output register holds the sums. -/
def sumFace (s : State) (f : Nat) (o : EngOp) : Face := putLanes (s.face f) ((chOut o.desc).off % 32) (sumCodes s f o)

include hst hop hsink horeg hofmt in
theorem sinkBeat_of_sum (hwf : tabWf ({} : Face) s.faces = true) (ctx : BitVec 6) {b : Beat} (hface : b.face = s.face f)
    (hres : b.res = [sumLanes s f o]) (hbad : b.bad = (List.range o.vl).map fun _ => false) :
    ∃ fl, sinkBeat s f ctx o 0 b {} = (s.setFace f (sumFace s f o), { flags := fl }) := by
  obtain ⟨stored, fl, hout⟩ := beatOutput_of_sum (s := s) (f := f) hst hop hofmt hres hbad
  have hreg : streamReg (chOut o.desc) 0 = (chOut o.desc).off % 32 := by simp [streamReg]
  have hput : writeBeat (s.setFace f b.face) f ctx o (chOut o.desc) 0 (sumCodes s f o) [] =
      (s.setFace f (sumFace s f o), stOk) := by
    simp only [writeBeat, horeg, if_true, hreg, hface, State.modFace, State.face_setFace_same hwf, State.setFace_setFace hwf]
    rfl
  refine ⟨orFlags b.flags fl, ?_⟩
  simp only [sinkBeat, hsink, hout, hput]
  rfl

include hst hop ha hb hna hint hn hsink hexp hmin hmout hireg hifmt horeg hofmt in
theorem chainBeat_of_addImm (hwf : tabWf ({} : Face) s.faces = true) (ctx : BitVec 6) :
    ∃ fl, chainBeat f ctx o (s, {}) 0 = (s.setFace f (sumFace s f o), { flags := fl }) := by
  have hbad : ((List.range o.vl).map fun i => false || [(intLanes s f o).map fun l => (l, false), [], []].any
      fun l => (l.map (·.2)).getD i false) = (List.range o.vl).map fun _ => false := by
    refine List.map_congr_left fun i _ => ?_
    simp only [List.getD_eq_getElem?_getD, List.any_cons, List.any_nil, List.getElem?_map, List.getElem?_nil,
      Bool.or_false, Bool.false_or]
    cases (intLanes s f o)[i]? <;> rfl
  have hclean : ((List.range o.vl).map fun _ => false).any id = false := by simp
  let b : Beat := { ins := [intLanes s f o, [], []], flags := ((List.range o.vl).map fun _ => false).map fun _ => {},
                    bad := (List.range o.vl).map fun _ => false, face := s.face f }
  obtain ⟨fl, hstage⟩ := runStage_of_addImm (s := s) (f := f) (b := b) hop ha hb hna hint rfl rfl
  obtain ⟨fl', hsinked⟩ := sinkBeat_of_sum (b := { b with res := [sumLanes s f o], flags := fl }) hst hop hsink horeg hofmt hwf ctx rfl rfl rfl
  refine ⟨fl', ?_⟩
  have hins : ([(intLanes s f o).map fun l => (l, false), [], []] : List (List (Lane × Bool))).map (fun l => l.map (·.1)) =
      [intLanes s f o, [], []] := by
    simp [Function.comp_def]
  simp only [chainBeat, hmin, hmout, Bool.false_eq_true, if_false, readInputs_of_addImm hst hop ha hb hexp hireg hifmt, hbad, hclean,
    hst, hn, hsink, hins]
  exact (congrArg (fun b => sinkBeat s f ctx o 0 b {}) hstage).trans hsinked

include hst hop ha hb hna hint hn hbeats hsink hexp hmin hmout hireg hifmt horeg hofmt in
theorem vchain_of_addImm {i : Nat} {t : FaceTask} (hrun : runningEng s f i opcVchain = some (t, o))
    (hwf : tabWf ({} : Face) s.faces = true) :
    ∃ fl, vchain s f i = vxEnd s (s.setFace f (sumFace s f o)) f { o with xout := none } stOk fl := by
  obtain ⟨fl, hbeat⟩ := chainBeat_of_addImm hst hop ha hb hna hint hn hsink hexp hmin hmout hireg hifmt horeg hofmt hwf t.ctx
  have hrange : List.range (chBeats o.desc) = [0] := by rw [hbeats]; rfl
  have hbeats' : vchainBeats s f t.ctx o (chBeats o.desc) = (s.setFace f (sumFace s f o), { flags := fl }) := by
    unfold vchainBeats
    rw [hrange, List.foldl_cons, List.foldl_nil, hbeat]
    exact if_pos rfl
  refine ⟨fl, ?_⟩
  unfold vchain
  rw [hrun]
  dsimp only
  rw [hbeats']
  simp only [hsink, hexp]
  rfl

/-- A lane of the output register below VL takes the sum, saturated; every other lane stays (R180). -/
theorem tget_sumFace (hwf : tabWf (0 : W32) (s.face f).vregs = true) (k : Nat) :
    tget 0 (sumFace s f o).vregs k =
      if (chOut o.desc).off % 32 * 64 ≤ k ∧ k < (chOut o.desc).off % 32 * 64 + o.vl then
        BitVec.ofInt 32 (max (-2 ^ 31) (min (2 ^ 31 - 1)
          ((vlane (s.face f) ((chIn o.desc 0).off % 32) (k - (chOut o.desc).off % 32 * 64)).toInt + (chImm o.desc 0).toInt)))
      else tget 0 (s.face f).vregs k := by
  have hmem : ∀ p ∈ (sumCodes s f o).zipIdx, p.2 < o.vl ∧ p.1 = intCode (satInt
      ((vlane (s.face f) ((chIn o.desc 0).off % 32) p.2).toInt + (chImm o.desc 0).toInt)).1 := fun p hp => by
    obtain ⟨-, hlt, hval⟩ := List.mem_zipIdx hp
    simp only [sumCodes, List.length_map, List.length_range, Nat.zero_add, Nat.sub_zero] at hlt hval
    exact ⟨hlt, by rw [hval]; simp⟩
  split
  · rename_i hk
    obtain ⟨h1, h2⟩ := hk
    refine tget_foldl_tset_of_mem hwf ⟨((sumCodes s f o)[k - (chOut o.desc).off % 32 * 64]'(by simp [sumCodes]; omega),
      k - (chOut o.desc).off % 32 * 64), List.mem_zipIdx_iff_getElem?.2 (by simp), by dsimp only; omega⟩ fun p hp hpk => ?_
    obtain ⟨-, hval⟩ := hmem p hp
    have hp2 : p.2 = k - (chOut o.desc).off % 32 * 64 := by omega
    rw [hval, hp2, ← satInt_fst, intCode, BitVec.ofNat_toNat, BitVec.setWidth_eq]
  · rename_i hk
    refine tget_foldl_tset_of_ne fun p hp hpk => hk ?_
    obtain ⟨hlt, -⟩ := hmem p hp
    omega

end Vchain

/-- Settles O36: `mma_of_running` with `tget_mmaAccs`, `vchain_of_addImm` with `tget_sumFace`, and `vhred_max`. -/
theorem enginesComputeTheirResults : Obligations.EnginesComputeTheirResults := by
  unfold Obligations.EnginesComputeTheirResults
  refine fun s f i t o hfaces hclean => ⟨fun h hcheck hwf => ⟨?_, ?_⟩, fun g h hst hn hbeats hsink hexp hmin hmout hop ha hb hna hint
    hireg hifmt horeg hofmt _ hwf => ⟨?_, ?_⟩, fun h hfn hint hxd h1 h64 => ⟨?_, ?_⟩⟩
  · simp only [engCycles, descOpc_of_runs h, if_true]
    rfl
  · refine ⟨_, _, congrArg Host.Outcome.next (mma_of_running hclean (runningEng_of_runs h)), fun r hr n hn => ?_, fun k hk => ?_⟩
    · exact tget_mmaAccs t.ctx hwf (mxN_le_of_mmaCheck hcheck) hr hn
    · exact tget_mmaAccs_of_other t.ctx hk
  · refine Eq.trans ?_ (vchainCycles_of_addImm hst hop hn hbeats hsink hexp)
    simp only [engCycles, descOpc_of_runs h]
    rfl
  · obtain ⟨fl, hrun⟩ := vchain_of_addImm hst hop ha hb hna hint hn hbeats hsink hexp hmin hmout hireg hifmt horeg hofmt
      (runningEng_of_runs h) hfaces
    exact ⟨_, fl, congrArg Host.Outcome.next hrun, tget_sumFace hwf⟩
  · simp only [engCycles, descOpc_of_runs h]
    rfl
  · obtain ⟨n, hn, hmax, hrun⟩ := vhred_max (runningEng_of_runs h) hfn hint hxd h1 h64
    exact ⟨_, congrArg Host.Outcome.next hrun, ⟨n, hn, rfl⟩, hmax⟩

end Sys2Proof.Machine
end

section
/-! SUPPORT. The start of passes and merges, and the delivery of segments (R134, R136, R153, R154, R210, R235 to R237). -/

namespace Sys2Proof.Machine
open Sys2Proof.Claims

theorem wakeDomain_passes (s : State) (d : Nat) : (wakeDomain s d).passes = s.passes := by
  dsimp only [wakeDomain]
  split <;> rfl

theorem putStepOp_passes (s : State) (q : Nat) (o : StepOp) : (putStepOp s q o).passes = s.passes := by
  unfold putStepOp
  split <;> rfl

theorem putStepOp_collar (s : State) (q : Nat) (o : StepOp) : (putStepOp s q o).collar = s.collar := by
  unfold putStepOp
  split <;> rfl

theorem issueOps_passes (s : State) (pid : Nat) (ctx : BitVec 6) (tag : W16) (ops : List RawOp) :
    (issueOps s pid ctx tag ops).passes = s.passes :=
  List.foldlRecOn (motive := fun t : State => t.passes = s.passes) _ _ rfl fun t ht x _ =>
    (wakeDomain_passes t (18 + stackOf x.1.1.col)).trans ht

theorem holdSegments_passes (s : State) (pid : Nat) (gs : List SegPlan) : (holdSegments s pid gs).passes = s.passes :=
  List.foldlRecOn (motive := fun t : State => t.passes = s.passes) _ _ rfl fun _ ht _ _ => ht

/-- The book entry of a pass that starts (R136). -/
def passOf (s : State) (q : Nat) (ctx : BitVec 6) (o : StepOp) (p : PassParams) (x : Plan) : Pass :=
  { id := s.reqNext, q := q, seq := o.seq, kind := x.kind, ctx := ctx, req := s.reqNext, exact := p.exact,
    ofmt := BitVec.ofNat 2 p.ofmt, smask := p.smask, cluster := p.cluster, nRows := x.nRows, outVa := p.outVa, partVa := p.partVa,
    planes := x.hub.foldl (fun m h => max m h.parts) 0, hubRows := x.hub, started := s.now, order := o.order, tag := x.tag,
    ops := x.ops.zipIdx.map fun y => { idx := y.2, col := y.1.col, group := y.1.group, row0 := y.1.row0, rows := y.1.rows,
                                       load := y.1.load } }

theorem startPass_passes (s : State) (q : Nat) (ctx : BitVec 6) (o : StepOp) (p : PassParams) (x : Plan) :
    (startPass s q ctx o p x).passes = s.passes ++ [passOf s q ctx o p x] :=
  (putStepOp_passes _ _ _).trans ((holdSegments_passes _ _ _).trans (issueOps_passes _ _ _ _ _))

theorem passOf_cols (s : State) (q : Nat) (ctx : BitVec 6) (o : StepOp) (p : PassParams) (x : Plan) :
    (passOf s q ctx o p x).ops.map (·.col) = x.ops.map (·.col) := by
  simp only [passOf, List.map_map]
  exact List.ext_getElem (by simp) fun n h1 h2 => by simp

section Lode
variable {s : State} {q : Nat} {x : StepRun} {o : StepOp} {d : BitVec 512}

theorem lodeStart_of_notTurn (h : nextStepOp s q sopLode = some (x, o, d)) (hturn : passTurn s o.order = false) :
    lodeStart s q = s := by
  simp only [lodeStart, h, hturn, Bool.false_eq_true, if_false]

section Turn
variable (h : nextStepOp s q sopLode = some (x, o, d)) (hturn : passTurn s o.order = true) {u : State} {m : Byte}
  (hm : lodeMask s x o d = .ok u m)
include h hturn hm

theorem lodeStart_of_emptyMask (hz : m = 0) (hind : bitAt d 303 = true) : lodeStart s q = stepOpDone (opDrop u o) q o.seq stOk 0 := by
  simp only [lodeStart, h, hturn, hm, hz, hind, decide_true, Bool.and_self, if_true]

theorem lodeStart_of_mask (hsel : m ≠ 0 ∨ bitAt d 303 = false) :
    lodeStart s q = planResult q x.ctx o (lodeParams d m) (lodePlan u o x.ctx (hdrTag d) (lodeParams d m)) := by
  have hnot : (m = 0 && bitAt d 303) = false := by
    obtain h | h := hsel
    · rw [decide_eq_false h, Bool.false_and]
    · rw [h, Bool.and_false]
  simp only [lodeStart, h, hturn, hm, hnot, Bool.false_eq_true, if_false, if_true]

end Turn

theorem lodeMask_of_direct (h : bitAt d 303 = false) : lodeMask s x o d = .ok s (BitVec.ofNat 8 (bitsAt d 295 288)) := by
  simp only [lodeMask, h, Bool.false_eq_true, if_false]

theorem cacheStart_of_turn {op : Nat} {kind : PassKind} (h : nextStepOp s q op = some (x, o, d)) (hturn : passTurn s o.order = true) :
    cacheStart s q op kind = planResult q x.ctx o (cacheParams d) (cachePlan s o x.ctx (hdrTag d) kind (cacheParams d)) := by
  simp only [cacheStart, h, hturn, if_true]

theorem mergeStart_of_next (h : nextStepOp s q sopMerge = some (x, o, d)) :
    mergeStart s q =
      if licensed s 1 then
        { putStepOp s q { o with begun := true } with collar := s.collar ++ [{ order := o.order, q := q, seq := o.seq }] }
      else stepOpDone (logLicence s codeForeman x.ctx (hdrTag d).toNat) q o.seq stLicence 0 := by
  unfold mergeStart
  rw [h]
  simp only [putStepOp_collar]

end Lode

/-- Settles O39: the branches of `lodeStart`, `cacheStart` and `mergeStart`, and the entry that `startPass` adds to the book. -/
theorem passesStart : Obligations.PassesStart := by
  unfold Obligations.PassesStart
  refine fun s q x o d => ⟨fun h => ⟨fun hturn => ?_, fun hturn u m hm => ⟨fun hz hind => ?_, fun hsel =>
      ⟨fun v pl hp => ?_, fun v st hp => ?_, fun v hp => ?_⟩⟩, lodeMask_of_direct⟩,
    fun hturn => ⟨fun h => ⟨fun u pl hp => ?_, fun u st hp => ?_⟩, fun h => ⟨fun u pl hp => ?_, fun u st hp => ?_⟩⟩,
    fun u c p pl => ⟨_, startPass_passes u q.val c o p pl, rfl, rfl, rfl, rfl, rfl, rfl, passOf_cols u q.val c o p pl, rfl⟩,
    fun h => ⟨fun hl => ?_, fun hl => ?_⟩⟩
  · exact congrArg Host.Outcome.next (lodeStart_of_notTurn h hturn)
  · exact congrArg Host.Outcome.next (lodeStart_of_emptyMask h hturn hm hz hind)
  · exact congrArg Host.Outcome.next ((lodeStart_of_mask h hturn hm hsel).trans (by rw [hp, planResult]))
  · exact congrArg Host.Outcome.next ((lodeStart_of_mask h hturn hm hsel).trans (by rw [hp, planResult]))
  · exact congrArg Host.Outcome.next ((lodeStart_of_mask h hturn hm hsel).trans (by rw [hp, planResult]))
  · exact congrArg Host.Outcome.next ((cacheStart_of_turn h hturn).trans (by rw [hp, planResult]))
  · exact congrArg Host.Outcome.next ((cacheStart_of_turn h hturn).trans (by rw [hp, planResult]))
  · exact congrArg Host.Outcome.next ((cacheStart_of_turn h hturn).trans (by rw [hp, planResult]))
  · exact congrArg Host.Outcome.next ((cacheStart_of_turn h hturn).trans (by rw [hp, planResult]))
  · exact congrArg Host.Outcome.next ((mergeStart_of_next h).trans (if_pos hl))
  · exact congrArg Host.Outcome.next ((mergeStart_of_next h).trans (if_neg (by rw [hl]; exact Bool.false_ne_true)))

/-! ## Segments -/

section Segment
variable {s : State} {n lane window : Nat}

theorem segmentDelivery_of_none
    (h : ((s.stack n).segments.find? fun x => x.lane == lane && x.window == window && segReady s n x) = none) :
    segmentDelivery s n lane window = s := by
  simp only [segmentDelivery, h]

theorem segmentDelivery_of_down (h : (s.stack n).linkUp = false) : segmentDelivery s n lane window = s := by
  unfold segmentDelivery
  split
  · rfl
  · rw [h]
    rfl

theorem segmentDelivery_of_ready {g : Segment}
    (h : ((s.stack n).segments.find? fun x => x.lane == lane && x.window == window && segReady s n x) = some g)
    (hup : (s.stack n).linkUp = true) :
    segmentDelivery s n lane window = segDelivered ((colsOf n).foldl (fun (t : State) c =>
      (segTargets g (t.col c).window).foldl (fun (u : State) o => takeSegment u c o (segBytes g)) t)
      (s.modStack n fun k => { k with segments := k.segments.erase g })) n g := by
  simp only [segmentDelivery, h, hup, Bool.not_true, Bool.false_eq_true, if_false]

end Segment

theorem segmentTimeout_of_single {s : State} {f hid n : Nat} {t : FaceTask} {o : EngOp} {r : HoistRun}
    (h : openHoist s f hid = some (t, o, r)) (hb : hoBcast o.desc = true) (hmoved : r.moved ≠ 0)
    (hset : setBits (hoStacks o.desc) = [n]) (hpend : r.pendingStacks = [n])
    (hlate : ∃ g ∈ (s.stack n).segments, g.pass = none ∧ g.face = f ∧ g.hid = hid ∧ g.sent + 10 * msCycles ≤ s.now) :
    segmentTimeout s f hid = putEngOp (s.modStack n fun k =>
        { k with segments := k.segments.filter fun x => !(x.pass == none && x.face == f && x.hid == hid) }) f
      { o with done := true, status := stTimeout, hoist := some { r with pendingStacks := [] } } := by
  have hany : ((s.stack n).segments.any fun x => (x.pass == none && x.face == f && x.hid == hid) &&
      decide (x.sent + 10 * msCycles ≤ s.now)) = true := by
    obtain ⟨g, hg, hpass, hface, hhid, hsent⟩ := hlate
    refine List.any_eq_true.2 ⟨g, hg, ?_⟩
    rw [hpass, hface, hhid, decide_eq_true hsent]
    simp
  simp only [segmentTimeout, h, hb, hset, hpend, hmoved, ne_eq, not_false_eq_true, decide_true, BEq.rfl, Bool.and_self, List.any_cons,
    List.any_nil, Bool.or_false, hany, if_true, List.foldl_cons, List.foldl_nil]

/-- Settles O40: the branches of `segmentDelivery`, `takeSegment` and `segmentTimeout`. -/
theorem segmentsAreDelivered : Obligations.SegmentsAreDelivered := by
  unfold Obligations.SegmentsAreDelivered
  refine fun s n lane window => ⟨⟨fun h => ?_, fun h => ?_, fun g h hup => ⟨?_, fun hpass => if_pos hpass⟩⟩,
    fun u g o bs => ⟨fun h => if_pos h, fun h => ?_⟩, fun f hid t o r h hb hmoved hset hpend g hg hpass hface hhid hsent => ?_⟩
  · exact congrArg Host.Outcome.next (segmentDelivery_of_none h)
  · exact congrArg Host.Outcome.next (segmentDelivery_of_down h)
  · exact congrArg Host.Outcome.next (segmentDelivery_of_ready h hup)
  · exact if_neg (by rw [h]; exact Bool.false_ne_true)
  · exact congrArg Host.Outcome.next (segmentTimeout_of_single h hb hmoved hset hpend ⟨g, hg, hpass, hface, hhid, hsent⟩)

end Sys2Proof.Machine
end

section
/-! SUPPORT. Reductions at the faces and the collar, and the completion of a pass (R139, R145, R146, R149). -/

namespace Sys2Proof.Machine
open Sys2Proof.Claims

section ReduceRun
variable {s : State} {x : Reduction} {fillReq r : Req} {exact_ : Bool} {fills : List Nat} {items : List RedItem}
  {value : List PByte → RedVal} {cost : Nat → Nat}

theorem reduceRun_of_read (hend : x.endAt = none) (hfills : fills.length ≤ x.filled) (hitems : items.length ≤ x.read) :
    reduceRun s x fillReq r exact_ fills items value cost = (s, { x with endAt := some (s.now + cost x.words) }, false) := by
  unfold reduceRun
  rw [hend]
  simp only [List.drop_eq_nil_of_le hfills, List.drop_eq_nil_of_le hitems, List.foldl_nil, Bool.false_eq_true, if_false]

variable {e : Nat} (hend : x.endAt = some e)
include hend

theorem reduceRun_of_busy (h : s.now < e) : reduceRun s x fillReq r exact_ fills items value cost = (s, x, false) := by
  unfold reduceRun
  rw [hend]
  exact if_pos h

theorem reduceRun_of_noOutputs (h : e ≤ s.now) (houts : x.outs = []) :
    reduceRun s x fillReq r exact_ fills items value cost = (s, x, true) := by
  unfold reduceRun
  rw [hend]
  simp only [Nat.not_lt.2 h, if_false, houts, List.foldl_nil, Bool.not_false]

/-- The one output of a reduction is written; its flags count where the write was good. -/
theorem reduceRun_of_output (h : e ≤ s.now) {w : RedOut} (houts : x.outs = [w]) {t : State} {st : Byte}
    (hstore : storeRange s r 0 w.va (cleanBytes w.bytes) = .ok t st) :
    reduceRun s x fillReq r exact_ fills items value cost =
      (innerDrop t fun k => k == r.who,
        { x with outs := [], status := worstStatus x.status st, assay := if stBad st then x.assay else assayAdd x.assay w.assay }, true) := by
  unfold reduceRun
  rw [hend]
  simp only [Nat.not_lt.2 h, if_false, houts, List.foldl_cons, List.foldl_nil, writeOne, hstore, Bool.false_eq_true, List.drop_one,
    List.tail_cons, Bool.not_false, redStatus]
  rw [hend]

end ReduceRun

section Fast
variable {s : State} {q f l : Nat} {p : Pass} {y : Reduction}

theorem fastHubReduction_of_unbound (h : (s.face f).logical = none) : fastHubReduction s q f = s := by
  simp only [fastHubReduction, h]

theorem fastHubReduction_of_pass (hl : (s.face f).logical = some l) (hlive : faceLive s l = true)
    (hp : s.passes.find? (fun p => p.q == q && toReduce false p && p.cluster == clusterOf f) = some p) :
    fastHubReduction s q f = (reducePass s (codeFace l) p fun n => ceilDiv n 64).1 := by
  simp only [fastHubReduction, hl, hp, hlive, if_true]

/-- What a pass's reduction leaves in the book. -/
theorem reducePass_of_run {code : W16} {cost : Nat → Nat} (hy : p.red = some y) {t : State} {z : Reduction} {fin : Bool}
    (hrun : reduceRun s y ⟨.pass p.id, codeSequencer (((p.ops.head?).map fun x => stackOf x.col).getD 0), p.ctx, p.tag⟩
      ⟨.pass p.id, code, p.ctx, p.tag⟩ p.exact (passFillers p) (passItems p) (passValue p) cost = (t, z, fin)) :
    (reducePass s code p cost).1 = t.modPass p.id fun y =>
      if fin then { y with red := none, reduced := true, status := worstStatus y.status z.status, assay := assayAdd y.assay z.assay }
      else { y with red := some z } := by
  simp only [reducePass, hy, Option.getD_some, hrun]

end Fast

section Collar
variable {s : State} {j : CollarJob}

theorem collarReduction_of_busy (h : s.now < s.collarFree) : collarReduction s = s := if_pos h

theorem collarReduction_of_job (hfree : s.collarFree ≤ s.now) (hp : s.passes = []) (hj : s.collar = [j]) :
    collarReduction s = serveMerge s j := by
  unfold collarReduction
  rw [if_neg (Nat.not_lt.2 hfree)]
  cases hr : j.red <;> simp [hp, hj, hr]

/-- Of an exact pass and a merge that both wait, the collar takes the one that was dispatched first. -/
theorem collarReduction_of_firstPass {p : Pass} (hfree : s.collarFree ≤ s.now) (hp : s.passes = [p]) (hred : toReduce true p = true)
    (hj : s.collar = [j]) (hfirst : p.order < j.order) (hpr : p.red = none) (hjr : j.red = none) :
    collarReduction s =
      { (reducePass s codeCollar p fun n => 32 + ceilDiv n 8).1 with
        collarFree := (reducePass s codeCollar p fun n => 32 + ceilDiv n 8).2 } := by
  unfold collarReduction
  rw [if_neg (Nat.not_lt.2 hfree)]
  simp [hp, hj, hred, hpr, hjr, Nat.min_eq_left (Nat.le_of_lt hfirst)]

section Merge
variable {x : StepRun} {o : StepOp} {d : BitVec 512} (hj : s.collar = [j]) (hop : collarOp s j = some (x, o, d))
include hj hop

theorem serveMerge_of_oob (h : bitsAt d 223 208 = 0 ∨ bitsAt d 239 224 = 0 ∨ 4096 < bitsAt d 239 224) :
    serveMerge s j = stepOpDone { s with collar := [] } j.q j.seq stOob 0 := by
  have hbad : (bitsAt d 223 208 = 0 || bitsAt d 239 224 = 0 || 4096 < bitsAt d 239 224) = true := by
    simpa only [Bool.or_eq_true, decide_eq_true_eq, or_assoc] using h
  simp [serveMerge, hop, hbad, hj]

variable (h1 : 1 ≤ bitsAt d 223 208) (h2 : 1 ≤ bitsAt d 239 224) (h3 : bitsAt d 239 224 ≤ 4096) {y : Reduction}
  (hy : j.red = some y)
include h1 h2 h3 hy

theorem serveMerge_of_going {t : State} {z : Reduction}
    (hrun : reduceRun s y ⟨opWaiter o, codeCollar, x.ctx, hdrTag d⟩ ⟨opWaiter o, codeCollar, x.ctx, hdrTag d⟩ true []
      ((List.range (bitsAt d 223 208)).map fun i => { reads := mergeReads d i, out := (mergeOut d i).1 }) (mergeValue d)
      (fun w => 32 + ceilDiv w 8) = (t, z, false)) (ht : t.collar = s.collar) :
    serveMerge s j = { t with collar := [{ j with red := some z }], collarFree := z.endAt.getD s.now } := by
  have hgood : (bitsAt d 223 208 = 0 || bitsAt d 239 224 = 0 || 4096 < bitsAt d 239 224) = false := by
    simp only [Bool.or_eq_false_iff, decide_eq_false_iff_not]
    omega
  simp only [serveMerge, hop, hgood, hy, Option.getD_some, hrun, ht, hj, Bool.false_eq_true, if_false]
  simp

theorem serveMerge_of_over {t : State} {z : Reduction}
    (hrun : reduceRun s y ⟨opWaiter o, codeCollar, x.ctx, hdrTag d⟩ ⟨opWaiter o, codeCollar, x.ctx, hdrTag d⟩ true []
      ((List.range (bitsAt d 223 208)).map fun i => { reads := mergeReads d i, out := (mergeOut d i).1 }) (mergeValue d)
      (fun w => 32 + ceilDiv w 8) = (t, z, true)) (ht : t.collar = s.collar) :
    serveMerge s j = stepOpDone { t with collar := [] } j.q j.seq z.status z.assay := by
  have hgood : (bitsAt d 223 208 = 0 || bitsAt d 239 224 = 0 || 4096 < bitsAt d 239 224) = false := by
    simp only [Bool.or_eq_false_iff, decide_eq_false_iff_not]
    omega
  simp only [serveMerge, hop, hgood, hy, Option.getD_some, hrun, ht, hj, Bool.false_eq_true, if_false, if_true]
  simp

end Merge
end Collar

/-! ## Completion of a pass -/

section Completion
variable {s : State} {q : Nat} {p : Pass} (hp : s.passes = [p])
include hp

theorem passCompletion_of_open (h : passOpsDone p = false ∨ passReduced s p = none) : passCompletion s q = s := by
  have hnone : (s.passes.find? fun p => p.q == q && passOpsDone p && (passReduced s p).isSome) = none := by
    rw [hp, List.find?_singleton]
    obtain h | h := h <;> simp [h]
  simp only [passCompletion, hnone]

theorem passCompletion_of_done (hq : p.q = q) (hdone : passOpsDone p = true) (hred : passReduced s p = some stOk)
    (hseg : ∀ n < 8, (s.stack n).segments = []) :
    passCompletion s q = stepOpDone (innerDrop { s with passes := [] } fun w => w == .pass p.id) q p.seq (passStatus p) p.assay := by
  have hfind : (s.passes.find? fun p => p.q == q && passOpsDone p && (passReduced s p).isSome) = some p := by
    rw [hp, List.find?_singleton, hq, hdone, hred]
    simp
  have hnoSeg : ∀ t : State, (∀ n < 8, (t.stack n).segments = []) → (List.range 8).foldl (fun (t : State) n =>
      if (t.stack n).segments.any fun g => g.pass == some p.id then
        t.modStack n fun k => { k with segments := k.segments.filter fun g => g.pass ≠ some p.id }
      else t) t = t := fun t ht => by
    refine List.foldlRecOn (motive := fun u => u = t) _ _ rfl fun u hu n hn => ?_
    rw [hu, ht n (List.mem_range.1 hn)]
    rfl
  have hfilter : (s.passes.filter fun x => x.id ≠ p.id) = [] := by simp [hp]
  have hst : ¬ (some stOk = some stFenced) := by decide
  simp only [passCompletion, hfind, hred, if_neg hst, hfilter]
  rw [hnoSeg (innerDrop { s with passes := [] } fun w => w == .pass p.id) hseg]

end Completion

theorem passStatus_of_fenced {p : Pass} (h : p.fenced = true ∨ ∃ x ∈ p.ops, x.status = stFenced) : passStatus p = stFenced := by
  refine if_pos ?_
  simpa only [Bool.or_eq_true, List.any_eq_true, beq_iff_eq] using h

theorem passStatus_of_good {p : Pass} (hf : p.fenced = false) (h : ∀ x ∈ p.ops, x.status = stOk) : passStatus p = p.status := by
  have hbad : (p.ops.filter fun x => x.status ≠ stOk) = [] := List.filter_eq_nil_iff.2 fun x hx => by simp [h x hx]
  have hfence : (p.ops.any fun x => x.status == stFenced) = false := List.any_eq_false.2 fun x hx => by rw [h x hx]; decide
  simp only [passStatus, hf, hfence, hbad, Bool.or_self, Bool.false_eq_true, if_false]

/-- An operation ahead of every other by its pick is the one that the choice of the lowest pick ends with. -/
theorem foldl_lowest {ops : List PassOp} {m x : PassOp} (hx : x ∈ m :: ops) (hleast : ∀ y ∈ m :: ops, x.col < y.col ∨ x = y) :
    ops.foldl (fun m y => if y.col < m.col || (y.col == m.col && decide (y.idx < m.idx)) then y else m) m = x := by
  induction ops generalizing m with
  | nil => exact (List.mem_singleton.1 hx).symm
  | cons y ops ih =>
    refine ih ?_ fun z hz => ?_
    · dsimp only
      obtain rfl | hx := List.mem_cons.1 hx
      · split
        · rename_i hlow
          obtain h | rfl := hleast y (by simp)
          · simp only [Bool.or_eq_true, Bool.and_eq_true, decide_eq_true_eq, beq_iff_eq] at hlow
            omega
          · exact List.mem_cons_self
        · exact List.mem_cons_self
      · obtain rfl | hx := List.mem_cons.1 hx
        · obtain h | rfl := hleast m (by simp)
          · rw [decide_eq_true h, Bool.true_or, if_pos rfl]
            exact List.mem_cons_self
          · rw [ite_self]
            exact List.mem_cons_self
        · exact List.mem_cons_of_mem _ hx
    · dsimp only at hz
      obtain rfl | hz := List.mem_cons.1 hz
      · split
        · exact hleast y (by simp)
        · exact hleast m (by simp)
      · exact hleast z (List.mem_cons_of_mem _ (List.mem_cons_of_mem _ hz))

theorem passStatus_of_lowest {p : Pass} {x : PassOp} (hx : x ∈ p.ops) (hf : p.fenced = false) (hbad : x.status ≠ stOk)
    (hfence : ∀ y ∈ p.ops, y.status ≠ stFenced) (hleast : ∀ y ∈ p.ops, y.status ≠ stOk → x.col < y.col ∨ x = y) :
    passStatus p = x.status := by
  have hany : (p.ops.any fun x => x.status == stFenced) = false := List.any_eq_false.2 fun y hy h => hfence y hy (eq_of_beq h)
  simp only [passStatus, hf, hany, Bool.or_self, Bool.false_eq_true, if_false]
  have hmem : x ∈ p.ops.filter fun x => x.status ≠ stOk := List.mem_filter.2 ⟨hx, decide_eq_true hbad⟩
  have hall : ∀ y ∈ p.ops.filter fun x => x.status ≠ stOk, x.col < y.col ∨ x = y := fun y hy =>
    hleast y (List.mem_filter.1 hy).1 (of_decide_eq_true (List.mem_filter.1 hy).2)
  split
  · rename_i hnil
    rw [hnil] at hmem
    exact absurd hmem List.not_mem_nil
  · rename_i m ops hcons
    rw [hcons] at hmem hall
    rw [foldl_lowest hmem hall]

/-- Settles O41: where a reduction stands, by `reduceRun`, and whose status a pass ends with, by `passStatus`. -/
theorem reductionsAndPassCompletion : Obligations.ReductionsAndPassCompletion := by
  unfold Obligations.ReductionsAndPassCompletion
  refine ⟨fun s q f => ⟨fun hl => ?_, fun l p y hl hlive hp hy =>
      ⟨fun hend hfill hread => ?_, fun e hend hnow => ?_, fun e w t st hend hnow houts hstore => ?_, fun e hend hnow houts => ?_⟩,
      fun hbusy => ?_, fun j x o d hfree hp hj hop => ⟨fun hbad => ?_, fun h1 h2 h3 y hy =>
        ⟨fun hend hread => ?_, fun e w t st hend hnow houts ht hstore => ?_⟩⟩,
      fun j p x o d hfree hp hred hj hfirst hpr hjr _ => ?_⟩,
    fun s q p hp hq => ⟨fun h => ?_, fun hdone hred hseg => ?_, passStatus_of_fenced, passStatus_of_good,
      fun x hx hf hbad hfence hleast => passStatus_of_lowest hx hf hbad hfence hleast⟩⟩
  · exact congrArg Host.Outcome.next (fastHubReduction_of_unbound hl)
  · exact congrArg Host.Outcome.next ((fastHubReduction_of_pass hl hlive hp).trans (reducePass_of_run hy (reduceRun_of_read hend hfill hread)))
  · exact congrArg Host.Outcome.next ((fastHubReduction_of_pass hl hlive hp).trans (reducePass_of_run hy (reduceRun_of_busy hend hnow)))
  · exact congrArg Host.Outcome.next ((fastHubReduction_of_pass hl hlive hp).trans
      (reducePass_of_run hy (reduceRun_of_output hend hnow houts hstore)))
  · exact congrArg Host.Outcome.next ((fastHubReduction_of_pass hl hlive hp).trans
      (reducePass_of_run hy (reduceRun_of_noOutputs hend hnow houts)))
  · exact congrArg Host.Outcome.next (collarReduction_of_busy hbusy)
  · exact congrArg Host.Outcome.next ((collarReduction_of_job hfree hp hj).trans (serveMerge_of_oob hj hop hbad))
  · refine congrArg Host.Outcome.next ((collarReduction_of_job hfree hp hj).trans
      (serveMerge_of_going hj hop h1 h2 h3 hy (reduceRun_of_read hend (Nat.zero_le _) ?_) rfl))
    rw [List.length_map, List.length_range]
    exact hread
  · exact congrArg Host.Outcome.next ((collarReduction_of_job hfree hp hj).trans
      (serveMerge_of_over hj hop h1 h2 h3 hy (reduceRun_of_output hend hnow houts hstore) ht))
  · exact congrArg Host.Outcome.next (collarReduction_of_firstPass hfree hp hred hj hfirst hpr hjr)
  · exact congrArg Host.Outcome.next (passCompletion_of_open hp h)
  · exact congrArg Host.Outcome.next (passCompletion_of_done hp hq hdone hred hseg)

end Sys2Proof.Machine
end

section
/-! SUPPORT. Doorbells, the checks of the head slot and queue control (R219, R222 to R226, Table 8.3). -/

namespace Sys2Proof.Machine
open Sys2Proof.Claims

theorem State.setQueue_setQueue {s : State} (h : tabWf ({} : Queue) s.queues = true) (q : Nat) (k k' : Queue) :
    (s.setQueue q k).setQueue q k' = s.setQueue q k' := by
  simp only [State.setQueue, tset_tset_same h]

/-- The queue k once its head slot, good, has been accepted at a time. -/
def slotTaken (k : Queue) (d : BitVec 1024) (now : Nat) : Queue :=
  let h := (k.head + 1) % k.depth.toNat
  { k with
    head := h, eseq := k.eseq + 1, ephase := if h = 0 then !k.ephase else k.ephase, stale := none, target := none,
    accepted := k.accepted ++ [{ slot := d, index := k.head, stamp := now }] }

/-- The next place of a ring of two or more is another one. -/
theorem ring_next_ne {h n : Nat} (hh : h < n) (hn : 2 ≤ n) : (h + 1) % n ≠ h := by
  rcases Nat.lt_or_ge (h + 1) n with hlt | hge
  · rw [Nat.mod_eq_of_lt hlt]
    omega
  · have : h + 1 = n := by omega
    rw [this, Nat.mod_self]
    omega

section CheckSlots
variable {s : State} {q : Nat} {k : Queue}

theorem slotsPending_of_noTarget (h : k.target = none) : slotsPending k = false := by simp only [slotsPending, h]

theorem slotsPending_of_target {t : Nat} (h : k.target = some t) (hne : (t + 1) % k.depth.toNat ≠ k.head) : slotsPending k = true := by
  simp only [slotsPending, h, ne_eq, decide_eq_true_eq]
  exact hne

theorem checkSlots_of_noTarget (h : (s.queue q).target = none) (n : Nat) : checkSlots q n s = s := by
  cases n with
  | zero => rfl
  | succ n => simp only [checkSlots, slotsPending_of_noTarget h, Bool.false_and, Bool.false_eq_true, if_false]

theorem acceptSlot_of_target (hk : s.queue q = k) (ht : k.target = some k.head) {d : BitVec 1024} (hd : acceptCheck d = none) :
    acceptSlot s q d = s.setQueue q (slotTaken k d s.now) := by
  subst hk
  simp only [acceptSlot, hd, ht, if_true, slotTaken]

variable (hwf : tabWf ({} : Queue) s.queues = true) (hp : slotsPending k = true) (hen : k.enable = true) (hst : k.stalled = false)
  (hb : computeBusy s = false)
include hwf hp hen hst hb

/-- The head slot of a queue with pending slots fails: its re-reads go on, or begin now. -/
theorem checkSlots_of_bad (hg : slotGood k (slotBytes s q k.head) = false) {w : Nat × Nat} (hw : k.stale.getD (s.now, s.now) = w)
    (n : Nat) : checkSlots q (n + 1) (s.setQueue q k) = s.setQueue q { k with stale := some w } := by
  have hb' : computeBusy (s.setQueue q k) = false := hb
  have hg' : slotGood k (slotBytes (s.setQueue q k) q k.head) = false := hg
  rw [checkSlots]
  simp only [State.queue_setQueue_same hwf, hp, hen, hst, hb', hg', Bool.not_false, Bool.and_self, if_true, Bool.false_eq_true, if_false,
    State.setQueue_setQueue hwf]
  subst hw
  cases h : k.stale <;> rfl

/-- The head slot passes, and it is the last one that the doorbell named: it is accepted. -/
theorem checkSlots_of_good (ht : k.target = some k.head) (hg : slotGood k (slotBytes s q k.head) = true)
    (hd : acceptCheck (BitVec.ofNat 1024 (leNat (slotBytes s q k.head))) = none) (n : Nat) :
    checkSlots q (n + 1) (s.setQueue q k) =
      s.setQueue q (slotTaken k (BitVec.ofNat 1024 (leNat (slotBytes s q k.head))) s.now) := by
  have hb' : computeBusy (s.setQueue q k) = false := hb
  have hbytes : slotBytes (s.setQueue q k) q k.head = slotBytes s q k.head := rfl
  have hkq := State.queue_setQueue_same hwf q k
  have hacc := acceptSlot_of_target (s := s.setQueue q k) hkq ht hd
  rw [State.setQueue_setQueue hwf] at hacc
  rw [checkSlots]
  simp only [hkq, hp, hen, hst, hb', hbytes, hg, Bool.not_false, Bool.and_self, if_true]
  rw [hacc]
  exact checkSlots_of_noTarget (by rw [State.queue_setQueue_same hwf]; rfl) n

end CheckSlots

section Doorbell
variable {s : State} {q : QueueId} {off : BitVec 6} {data : List Byte} {tag : BitVec 10}

theorem doorbell_refused {st : Byte} (h : doorbellStatus s q.val off data = st) (hst : st ≠ stOk) :
    Gives (.doorbellWrite (.host tag) q off data) s
      (s.setQueue q.val { s.queue q.val with dbDropped := satInc (s.queue q.val).dbDropped }) := by
  refine congrArg Host.Outcome.next ?_
  simp only [answerDoorbell, doorbell, h, hst, ne_eq, not_false_eq_true, if_true]
  rfl

variable (ho : s.life.opened = true) (hoff : off = 0) (hlen : data.length = 4) (hb : computeBusy s = false)
include ho hoff hlen hb

theorem doorbellStatus_of_disabled (hen : (s.queue q.val).enable = false) : doorbellStatus s q.val off data = stMode := by
  simp [doorbellStatus, ho, hoff, hlen, hb, hen]

variable (hen : (s.queue q.val).enable = true)
include hen

theorem doorbellStatus_of_index (h : (s.queue q.val).depth.toNat ≤ leNat data % 512) : doorbellStatus s q.val off data = stOob := by
  simp [doorbellStatus, ho, hoff, hlen, hb, hen, h]

variable (hidx : leNat data % 512 = (s.queue q.val).head) (hlt : (s.queue q.val).head < (s.queue q.val).depth.toNat)
  (hdepth : 2 ≤ (s.queue q.val).depth.toNat)
include hidx hlt hdepth

/-- A doorbell that names the head slot alone. -/
theorem doorbell_accepted : (doorbell s q.val off data).1 =
    if (s.queue q.val).stale.isSome then s.setQueue q.val { s.queue q.val with target := some (s.queue q.val).head }
    else checkSlots q.val 512 (s.setQueue q.val { s.queue q.val with target := some (s.queue q.val).head }) := by
  have hst : doorbellStatus s q.val off data = stOk := by
    simp [doorbellStatus, ho, hoff, hlen, hb, hen, hidx, hlt]
  simp only [doorbell, hst, ne_eq, not_true_eq_false, if_false, State.modQueue, hidx, ring_next_ne hlt hdepth]

end Doorbell

section Reread
variable {s : State} {q : QueueId} {a b : Nat} (hs : (s.queue q.val).stale = some (a, b))
include hs

theorem slotReread_of_early (h : s.now < b + 800) : slotReread s q.val = s := by
  have hn : decide (s.now < b + usCycles) = true := decide_eq_true h
  unfold slotReread
  simp only [hs, hn, Bool.or_true, if_true]

variable (hen : (s.queue q.val).enable = true) (hst : (s.queue q.val).stalled = false) (hb : computeBusy s = false)

section
include hen hst hb

theorem slotReread_of_due (h : b + 800 ≤ s.now) : slotReread s q.val = rereadSlot s q.val a b := by
  have hn : decide (s.now < b + usCycles) = false := decide_eq_false (Nat.not_lt.2 h)
  unfold slotReread
  simp only [hs, hen, hst, hb, hn, Bool.not_true, Bool.or_false, Bool.false_eq_true, if_false]

omit hen hst hb in
theorem slotStaleStall_of_early (h : s.now < a + (s.queue q.val).staleLimit.toNat * 800) : slotStaleStall s q.val = s := by
  have hn : decide (s.now < a + (s.queue q.val).staleLimit.toNat * usCycles) = true := decide_eq_true h
  unfold slotStaleStall
  simp only [hs, hn, Bool.or_true, if_true]

variable (hlim : a + (s.queue q.val).staleLimit.toNat * 800 ≤ s.now)
include hlim

/-- The limit has passed and the last read, or the one made now, left the head slot bad. -/
theorem slotStaleStall_of_bad {t : State} (ht : (if s.now < b + usCycles then s else rereadSlot s q.val a b) = t) {c : Nat}
    (hts : (t.queue q.val).stale = some (a, c)) (hth : (t.queue q.val).head = (s.queue q.val).head) :
    slotStaleStall s q.val = stallQueue t q.val := by
  have hn : decide (s.now < a + (s.queue q.val).staleLimit.toNat * usCycles) = false := decide_eq_false (Nat.not_lt.2 hlim)
  unfold slotStaleStall
  simp only [hs, hen, hst, hb, hn, Bool.not_true, Bool.or_false, Bool.false_eq_true, if_false, ht, hts, hth, decide_true, Bool.and_self,
    if_true]

theorem slotStaleStall_of_good {t : State} (ht : (if s.now < b + usCycles then s else rereadSlot s q.val a b) = t)
    (hts : (t.queue q.val).stale = none) : slotStaleStall s q.val = t := by
  have hn : decide (s.now < a + (s.queue q.val).staleLimit.toNat * usCycles) = false := decide_eq_false (Nat.not_lt.2 hlim)
  unfold slotStaleStall
  simp only [hs, hen, hst, hb, hn, Bool.not_true, Bool.or_false, Bool.false_eq_true, if_false, ht, hts]

end

/-- The queue after the re-reads due since the last one have been counted. -/
def rereadCounted (k : Queue) (now a b : Nat) : Queue :=
  { k with staleRetries := satAdd k.staleRetries ((now - b) / usCycles), stale := some (a, b + (now - b) / usCycles * usCycles) }

variable (hwf : tabWf ({} : Queue) s.queues = true) (ht : (s.queue q.val).target = some (s.queue q.val).head)
  (hlt : (s.queue q.val).head < (s.queue q.val).depth.toNat) (hdepth : 2 ≤ (s.queue q.val).depth.toNat)
include hen hst hb hwf ht hlt hdepth

omit hs in
theorem rereadSlot_of_bad (hg : slotGood (s.queue q.val) (slotBytes s q.val (s.queue q.val).head) = false) :
    rereadSlot s q.val a b = s.setQueue q.val (rereadCounted (s.queue q.val) s.now a b) :=
  checkSlots_of_bad (k := rereadCounted (s.queue q.val) s.now a b) hwf (slotsPending_of_target ht (ring_next_ne hlt hdepth)) hen hst hb
    hg rfl 511

omit hs in
theorem rereadSlot_of_good (hg : slotGood (s.queue q.val) (slotBytes s q.val (s.queue q.val).head) = true)
    (hd : acceptCheck (BitVec.ofNat 1024 (leNat (slotBytes s q.val (s.queue q.val).head))) = none) :
    rereadSlot s q.val a b = s.setQueue q.val (slotTaken (rereadCounted (s.queue q.val) s.now a b)
      (BitVec.ofNat 1024 (leNat (slotBytes s q.val (s.queue q.val).head))) s.now) :=
  checkSlots_of_good (k := rereadCounted (s.queue q.val) s.now a b) hwf (slotsPending_of_target ht (ring_next_ne hlt hdepth)) hen hst hb
    ht hg hd 511

end Reread

/-- Settles O42: a doorbell that names the head slot alone is followed through the checks of that slot, its re-reads and its stall. -/
theorem doorbellsNameSlots : Obligations.DoorbellsNameSlots := by
  unfold Obligations.DoorbellsNameSlots
  intro s q off data tag
  refine ⟨fun ho => ?_, fun ho h => ?_, fun ho hoff hlen => ⟨fun hb => ?_, fun hb hen => ?_, fun hb hen hge => ?_,
    fun hb hen hidx hlt hdepth hst hwf => ⟨fun hs hg hd => ?_, fun hs hg => ?_, fun hs => ?_⟩⟩,
    fun a b hs hen hst hb hwf ht hlt hdepth => ⟨fun h => ?_, fun h => ⟨fun hg => ?_, fun hg hd => ?_⟩, fun h => ?_,
      fun hlim => ⟨fun h hg hd => ?_, fun h => ?_⟩⟩⟩
  · have hst : doorbellStatus s q.val off data = stMode := by simp [doorbellStatus, ho]
    exact ⟨hst, doorbell_refused hst (by decide)⟩
  · have hst : doorbellStatus s q.val off data = stOob := by
      have : (decide (off ≠ 0) || decide (data.length ≠ 4)) = true := by simpa using h
      simp only [doorbellStatus, ho, this, Bool.not_true, Bool.false_eq_true, if_false, if_true]
    exact ⟨hst, doorbell_refused hst (by decide)⟩
  · have hst : doorbellStatus s q.val off data = stBusy := by simp [doorbellStatus, ho, hoff, hlen, hb]
    exact ⟨hst, doorbell_refused hst (by decide)⟩
  · have hst := doorbellStatus_of_disabled ho hoff hlen hb hen
    exact ⟨hst, doorbell_refused hst (by decide)⟩
  · have hst := doorbellStatus_of_index ho hoff hlen hb hen hge
    exact ⟨hst, doorbell_refused hst (by decide)⟩
  · refine congrArg Host.Outcome.next ((doorbell_accepted ho hoff hlen hb hen hidx hlt hdepth).trans ?_)
    rw [hs]
    exact checkSlots_of_good (k := { s.queue q.val with target := some (s.queue q.val).head }) hwf
      (slotsPending_of_target rfl (ring_next_ne hlt hdepth)) hen hst hb rfl hg hd 511
  · refine congrArg Host.Outcome.next ((doorbell_accepted ho hoff hlen hb hen hidx hlt hdepth).trans ?_)
    rw [hs]
    exact checkSlots_of_bad (k := { s.queue q.val with target := some (s.queue q.val).head }) hwf
      (slotsPending_of_target rfl (ring_next_ne hlt hdepth)) hen hst hb hg (congrArg (Option.getD · (s.now, s.now)) hs) 511
  · exact congrArg Host.Outcome.next ((doorbell_accepted ho hoff hlen hb hen hidx hlt hdepth).trans (if_pos hs))
  · exact congrArg Host.Outcome.next (slotReread_of_early hs h)
  · exact congrArg Host.Outcome.next ((slotReread_of_due hs hen hst hb h).trans (rereadSlot_of_bad hen hst hb hwf ht hlt hdepth hg))
  · exact congrArg Host.Outcome.next ((slotReread_of_due hs hen hst hb h).trans (rereadSlot_of_good hen hst hb hwf ht hlt hdepth hg hd))
  · exact congrArg Host.Outcome.next (slotStaleStall_of_early hs h)
  · have ht1 : (if s.now < b + usCycles then s else rereadSlot s q.val a b) = _ := (if_neg (Nat.not_lt.2 h)).trans
      (rereadSlot_of_good (a := a) (b := b) hen hst hb hwf ht hlt hdepth hg hd)
    exact congrArg Host.Outcome.next (slotStaleStall_of_good hs hen hst hb hlim ht1 (congrArg Queue.stale (State.queue_setQueue_same hwf _ _)))
  · rcases Nat.lt_or_ge s.now (b + 800) with hlt' | hge
    · refine congrArg Host.Outcome.next ((slotStaleStall_of_bad hs hen hst hb hlim (if_pos hlt') hs rfl).trans ?_)
      simp only [hlt', if_true]
      rfl
    · have ht1 : (if s.now < b + usCycles then s else rereadSlot s q.val a b) = _ := (if_neg (Nat.not_lt.2 hge)).trans
        (rereadSlot_of_bad (a := a) (b := b) hen hst hb hwf ht hlt hdepth (h.resolve_left (Nat.not_lt.2 hge)))
      have hq := State.queue_setQueue_same hwf q.val (rereadCounted (s.queue q.val) s.now a b)
      refine congrArg Host.Outcome.next ((slotStaleStall_of_bad hs hen hst hb hlim ht1 (by rw [hq]; rfl) (by rw [hq]; rfl)).trans ?_)
      simp only [Nat.not_lt.2 hge, if_false]
      unfold stallQueue
      dsimp only
      rw [hq, State.setQueue_setQueue hwf]
      rfl

/-- Settles O43: each control of Table 8.3 is the row of its object, case by case. -/
theorem queueControl : Obligations.QueueControl := by
  unfold Obligations.QueueControl
  intro p q v s u
  refine ⟨fun ho => ⟨fun h => ?_, fun hv h => ?_, fun hv h => ?_, fun hv h => ?_, fun hv h => ?_⟩, fun ho => ⟨fun h => ?_, fun h => ?_, fun h => ?_,
    fun h => ?_, fun h => ?_, fun x hx he hf => ?_⟩⟩
  · exact answers_of_dictRow1 rfl ho (if_pos h)
  · subst hv
    exact answers_of_dictRow1 rfl ho (if_pos h)
  · subst hv
    exact answers_of_dictRow1 rfl ho (if_neg (by rw [h]; exact Bool.false_ne_true))
  · subst hv
    exact answers_of_dictRow1 rfl ho (if_pos h)
  · subst hv
    exact answers_of_dictRow1 rfl ho (if_neg (by rw [h]; exact Bool.false_ne_true))
  · exact answers_of_dictRow1 rfl ho (if_neg (by rw [h]; exact Bool.false_ne_true))
  · exact answers_of_dictRow1 rfl ho (if_pos h)
  · exact answers_of_dictRow1 rfl ho (if_pos h)
  · exact answers_of_dictRow1 rfl ho (if_neg (by rw [h]; exact Bool.false_ne_true))
  · exact answers_of_dictRow1 rfl ho (by simp only [queueAbort, h])
  · exact answers_of_dictRow1 rfl ho
      (by simp only [queueAbort, stepStop, hx, he, hf, Option.isSome_none, Bool.false_eq_true, if_false, State.modQueue])

end Sys2Proof.Machine
end

section
/-! SUPPORT. Steps: their start, dispatch and completion, their tasks, and the operations at their head (R230 to R245). -/

namespace Sys2Proof.Machine
open Sys2Proof.Claims

section Rotation

theorem rotate_nil (last : Option Nat) : rotate last [] = none := by cases last <;> rfl

/-- The rotation always comes to one of its candidates. -/
theorem rotate_mem (last : Option Nat) {qs : List Nat} {a : Nat} (h : a ∈ qs) : ∃ b, rotate last qs = some b ∧ b ∈ qs := by
  have hhead : ∃ b, qs.head? = some b ∧ b ∈ qs := ⟨qs.head (List.ne_nil_of_mem h), List.head?_eq_some_head _, List.head_mem _⟩
  cases last with
  | none => exact hhead
  | some l =>
    cases hf : qs.find? (fun q => decide (l < q)) with
    | none => simpa only [rotate, hf] using hhead
    | some q => exact ⟨q, by simp only [rotate, hf], List.mem_of_find?_eq_some hf⟩

theorem nextDispatch_of_none {s : State} (h : ∀ n < 64, dispatchable s n = false) : nextDispatch s = none := by
  have : (List.range 64).filter (dispatchable s) = [] := by
    refine List.filter_eq_nil_iff.2 fun n hn => ?_
    rw [h n (List.mem_range.1 hn)]
    exact Bool.false_ne_true
  rw [nextDispatch, this, rotate_nil]

end Rotation

section Steps
variable {s : State} {q : QueueId} {x : StepRun}

theorem stepStart_of_next (hl : (List.range 64).foldl loadStep s = s) (hm : stepsMayStart s = true) (ha : stepsActive s < 8)
    (hn : nextStart s false = some q.val) : stepStart s = startStep s q.val := by
  simp only [stepStart, hl, startSteps, hm, ha, hn, decide_true, Bool.and_self, if_true]

theorem stepStart_of_none (hl : (List.range 64).foldl loadStep s = s) (h : stepsMayStart s = false ∨ 8 ≤ stepsActive s) :
    stepStart s = s := by
  have : (stepsMayStart s && decide (stepsActive s < 8)) = false := by
    rcases h with h | h
    · rw [h, Bool.false_and]
    · rw [decide_eq_false (Nat.not_lt.2 h), Bool.and_false]
  simp only [stepStart, hl, startSteps, this, Bool.false_eq_true, if_false]

variable (hx : (s.queue q.val).step = some x)
include hx

theorem headSettle_of_step (hw : ∀ st, x.wait ≠ .failed st) : headSettle s q.val = s := by
  cases h : x.wait with
  | failed st => exact absurd h (hw st)
  | _ => simp only [headSettle, hx, h]

theorem operationCompletion_of_done {o : StepOp} (ho : x.ops.find? (fun o => o.done) = some o)
    (hsig : hdrSig (stepDesc x o.index) = false) {u : State}
    (hu : modStep s q.val (fun y => { y with ops := y.ops.filter fun z => z.seq ≠ o.seq, assay := assayAdd y.assay o.assay }) = u) :
    operationCompletion s q.val = if o.status = stOk then u else stepStop u q.val o.seq o.status o.index := by
  subst hu
  simp only [operationCompletion, hx, ho, opSignal, hsig, Bool.false_eq_true, if_false]

theorem waitLimitExpiry_of_step (hw : ∀ st, x.wait ≠ .failed st) (hr : stepRuns x = true) (hd : hdrWait (headDesc x) = true)
    (hl : (s.queue q.val).waitLimit ≠ 0) : waitLimitExpiry s q.val =
      if x.headAt + (s.queue q.val).waitLimit.toNat * 800000 ≤ s.now then stepStop s q.val (x.seqNext + 1) stTimeout x.head
      else s := by
  simp only [waitLimitExpiry, headSettle_of_step hx hw, hx, hr, hd, hl, ne_eq, not_false_eq_true, decide_true, Bool.and_self,
    Bool.true_and, decide_eq_true_eq]

theorem stepCompletion_of_ended (hops : x.ops = []) (hf : x.fail = none) {ts : List W32} (he : x.ended = some ts) {t : State}
    (ht : innerDrop (s.setQueue q.val { s.queue q.val with step := none, prevDone := s.now }) (fun w => w == .queue q.val) = t) :
    stepCompletion s q.val = putRecord { t with foreman := { t.foreman with stepsDone := t.foreman.stepsDone + 1 } } q.val
      { kind := 0, slot := x.index, seq := slotSeq x.slot, status := stOk, cycles := s.now - x.started, assay := x.assay, tokens := ts,
        ovr := x.ovr } := by
  subst ht
  simp only [stepCompletion, hx, hops, hf, he, Option.isSome_some, Bool.true_or, Bool.and_true, decide_true, if_true, Option.getD_some]
  rfl

end Steps

section Tasks
variable {s : State} {q : QueueId} {x : StepRun} {o : StepOp} {d : BitVec 512}

/-- A TASK of one face is bound to it. -/
theorem bindTask_one (l : Nat) : bindTask s q.val x o d [l] =
    giveTask (putStepOp s q.val { o with begun := true, members := [{ face := l }] }) q.val x o d
      (if decide (2 ≤ taskTarget d) && bitAt d 190 then (taskArgs x d).take 6 ++ [1, 0] else taskArgs x d) l := rfl

theorem bindTask_one_single (h : taskTarget d < 2) (l : Nat) : bindTask s q.val x o d [l] =
    giveTask (putStepOp s q.val { o with begun := true, members := [{ face := l }] }) q.val x o d (taskArgs x d) l := by
  rw [bindTask_one, decide_eq_false (Nat.not_le.2 h), Bool.false_and, if_neg Bool.false_ne_true]

variable (hn : nextStepOp s q.val sopTask = some (x, o, d))
include hn

theorem taskOp_of_face (ht : taskTarget d = 1) : taskOp s q.val =
    if 48 ≤ taskFace d then stepOpDone s q.val o.seq stMode 0
    else if faceLive s (taskFace d) then bindTask s q.val x o d [taskFace d]
    else stepOpDone s q.val o.seq stFenced 0 := by
  simp only [taskOp, hn, ht, if_true]

theorem taskOp_of_noFaces (ht : taskTarget d ≠ 1) (hg : gangFaces s d = []) :
    taskOp s q.val = stepOpDone s q.val o.seq stFenced 0 := by
  simp only [taskOp, hn, ht, hg, if_true, if_false]

theorem taskOp_of_any (ht : taskTarget d = 0) (hg : gangFaces s d ≠ []) {r : Option Nat}
    (hr : rotate (s.cluster (taskCluster d)).last ((gangFaces s d).filter (bindable s)) = r) :
    taskOp s q.val = r.elim s fun l =>
      bindTask (s.setCluster (taskCluster d) { s.cluster (taskCluster d) with last := some l }) q.val x o d [l] := by
  have h01 : ¬ (0 = 1) := by decide
  simp only [taskOp, hn, ht, hg, hr, h01, if_true, if_false]
  cases r <;> rfl

theorem taskOp_of_gang (ht : 2 ≤ taskTarget d) {l : Nat} (hg : gangFaces s d = [l]) :
    taskOp s q.val = bindTask s q.val x o d [l] := by
  have h1 : taskTarget d ≠ 1 := by omega
  have h0 : taskTarget d ≠ 0 := by omega
  have hne : gangFaces s d ≠ [] := by rw [hg]; exact List.cons_ne_nil l []
  simp only [taskOp, hn, h1, h0, hne, if_false]
  rw [hg]

end Tasks

/-- Settles O44: each command of a step is its rule, case by case. -/
theorem stepsRun : Obligations.StepsRun := by
  unfold Obligations.StepsRun
  refine fun s q => ⟨fun hl hm ha hn => ?_, fun hl h => ?_, fun hs => ⟨fun hn => ?_, fun h => ?_⟩,
    fun x hx => ⟨fun o ho hsig => ⟨fun hst => ?_, fun hst => ?_⟩, fun hw hr hd hl => ⟨fun h => ?_, fun h => ?_⟩,
      fun hops hf ts he => ?_⟩,
    fun x o d hn => ⟨fun ht => ⟨fun h => ?_, fun h hlive => ?_, fun h hlive => ?_⟩, fun ht hg => ?_,
      fun ht hg => ⟨fun hr => ?_, fun l hr => ?_⟩, fun ht l hg => ?_⟩,
    fun last qs => ⟨fun a ha => rotate_mem last ha, rotate_nil last⟩⟩
  · exact congrArg Host.Outcome.next (stepStart_of_next hl hm ha hn)
  · exact congrArg Host.Outcome.next (stepStart_of_none hl h)
  · exact congrArg Host.Outcome.next (by simp only [operationDispatch, hs, dispatchNext, hn])
  · exact congrArg Host.Outcome.next (by simp only [operationDispatch, hs, dispatchNext, nextDispatch_of_none h])
  · exact congrArg Host.Outcome.next ((operationCompletion_of_done hx ho hsig rfl).trans (if_pos hst))
  · exact congrArg Host.Outcome.next ((operationCompletion_of_done hx ho hsig rfl).trans (if_neg hst))
  · exact congrArg Host.Outcome.next ((waitLimitExpiry_of_step hx hw hr hd hl).trans (if_pos h))
  · exact congrArg Host.Outcome.next ((waitLimitExpiry_of_step hx hw hr hd hl).trans (if_neg (Nat.not_le.2 h)))
  · exact congrArg Host.Outcome.next (stepCompletion_of_ended hx hops hf he rfl)
  · exact congrArg Host.Outcome.next ((taskOp_of_face hn ht).trans (if_pos h))
  · exact congrArg Host.Outcome.next ((taskOp_of_face hn ht).trans
      ((if_neg (Nat.not_le.2 h)).trans (if_neg (by rw [hlive]; exact Bool.false_ne_true))))
  · exact congrArg Host.Outcome.next ((taskOp_of_face hn ht).trans
      ((if_neg (Nat.not_le.2 h)).trans ((if_pos hlive).trans (bindTask_one_single (by omega) _))))
  · exact congrArg Host.Outcome.next (taskOp_of_noFaces hn ht hg)
  · exact congrArg Host.Outcome.next (taskOp_of_any hn ht hg hr)
  · exact congrArg Host.Outcome.next ((taskOp_of_any hn ht hg hr).trans (bindTask_one_single (by omega) l))
  · refine congrArg Host.Outcome.next ((taskOp_of_gang hn ht hg).trans ?_)
    rw [bindTask_one, decide_eq_true ht, Bool.true_and]

section Head
variable {s : State} {q : QueueId} {x : StepRun} {d : BitVec 512} {op : Nat}

theorem headSettle_of_atHead (h : AtHead s q x d op) : headSettle s q.val = s := by
  obtain ⟨hx, -, -, -, hw⟩ := h
  refine headSettle_of_step hx fun st he => ?_
  rcases hw with hw | hw <;> · rw [hw] at he; cases he

theorem headAt_of_atHead (h : AtHead s q x d op) : headAt s q.val op = some (x, d) := by
  obtain ⟨hx, hd, hop, hr, -⟩ := h
  subst hd
  simp only [headAt, hx, hop, beq_self_eq_true, hr, Bool.and_self, if_true]

theorem setn_of_atHead (h : AtHead s q x d 0x04) : setn s q.val =
    headDone (modStep s q.val fun y => { y with counters := tset 0 y.counters (sopNidx d) (sopImm d) }) q.val x d stOk (x.head + 1) := by
  have hh : headAt s q.val sopSetn = some (x, d) := headAt_of_atHead h
  simp only [setn, headSettle_of_atHead h, hh]

section Jump
variable (h : AtHead s q x d 0x03)
include h

theorem jump_always (hc : sopCond d = 0) : jump s q.val = headDone s q.val x d stOk (jumpTarget x.head d).toNat := by
  have hh : headAt s q.val sopJump = some (x, d) := headAt_of_atHead h
  simp only [jump, headSettle_of_atHead h, hh, hc, if_true]

theorem jump_counted (hc : sopCond d = 3) {n : W32} (hn : tget 0 x.counters (sopNidx d) - 1 = n) : jump s q.val =
    headDone (modStep s q.val fun y => { y with counters := tset 0 y.counters (sopNidx d) n }) q.val x d stOk
      (if n = 0 then x.head + 1 else (jumpTarget x.head d).toNat) := by
  have hh : headAt s q.val sopJump = some (x, d) := headAt_of_atHead h
  have h30 : ¬ (3 = 0) := by decide
  subst hn
  simp only [jump, headSettle_of_atHead h, hh, hc, h30, if_true, if_false, ne_eq, decide_not, Bool.not_eq_true', decide_eq_false_iff_not,
    ite_not]

section
variable (hc : sopCond d = 1 ∨ sopCond d = 2)
include hc

theorem jump_onTally {t : Nat} (ht : tallyOf s x.ctx.toNat (.virt (sopCtally d)) = some t) {b : Bool}
    (hb : (if sopCond d = 1 then decide ((sopImm d).toNat ≤ (s.cell t).value.toNat)
      else !decide ((sopImm d).toNat ≤ (s.cell t).value.toNat)) = b) :
    jump s q.val = headDone s q.val x d stOk (if b then (jumpTarget x.head d).toNat else x.head + 1) := by
  have hh : headAt s q.val sopJump = some (x, d) := headAt_of_atHead h
  have h0 : sopCond d ≠ 0 := by omega
  have h3 : sopCond d ≠ 3 := by omega
  subst hb
  simp only [jump, headSettle_of_atHead h, hh, h0, h3, ht, if_false]

theorem jump_noTally (ht : tallyOf s x.ctx.toNat (.virt (sopCtally d)) = none) : jump s q.val =
    headDone (withTag (hdrTag d) s (tallyRangeFault s codeForeman x.ctx.toNat (.virt (sopCtally d)))) q.val x d stTallyRange
      (x.head + 1) := by
  have hh : headAt s q.val sopJump = some (x, d) := headAt_of_atHead h
  have h0 : sopCond d ≠ 0 := by omega
  have h3 : sopCond d ≠ 3 := by omega
  simp only [jump, headSettle_of_atHead h, hh, h0, h3, ht, if_false]

end
end Jump

theorem signalOp_of_atHead (h : AtHead s q x d 0x05) (hc : sopCond d ≤ 2) {t : State} {st : Byte}
    (ht : tallyOp s codeForeman x.ctx.toNat (.virt (sopCtally d))
      (if sopCond d = 0 then topAdd else if sopCond d = 1 then topSub else topArrive) (sopImm d) = (t, st)) :
    signalOp s q.val = headDone (withTag (hdrTag d) s t) q.val x d st (x.head + 1) := by
  have hh : headAt s q.val sopSignal = some (x, d) := headAt_of_atHead h
  have hmod : sopCond d % 4 = sopCond d := Nat.mod_eq_of_lt (by omega)
  simp only [signalOp, headSettle_of_atHead h, hh, hmod, ht]

theorem waitw_of_atHead (h : AtHead s q x d 0x06) : waitw s q.val =
    if s.win.len = 0 ∨ x.headAt < s.win.boundary then headDone s q.val x d stOk (x.head + 1) else s := by
  have hh : headAt s q.val sopWaitw = some (x, d) := headAt_of_atHead h
  simp only [waitw, headSettle_of_atHead h, hh, Bool.or_eq_true, decide_eq_true_eq]

theorem readTokens_zero (s : State) (q : Nat) (x : StepRun) : readTokens s q x 0 = .ok s (stOk, []) := rfl

theorem emitOp_of_atHead (h : AtHead s q x d 0x02) (hva : sopTokVa d = 0) : emitOp s q.val =
    headDone (putRecord s q.val
      { kind := 1, slot := x.index, seq := slotSeq x.slot, status := stOk, cycles := s.now - x.started, assay := x.assay, ovr := x.ovr })
      q.val x d stOk (x.head + 1) := by
  have hh : headAt s q.val sopEmit = some (x, d) := headAt_of_atHead h
  simp only [emitOp, headSettle_of_atHead h, hh, hva, readTokens_zero, if_true]

section End
variable (h : AtHead s q x d 0x01)
include h

theorem stepEnd_of_outstanding (hops : x.ops ≠ []) : stepEnd s q.val = s := by
  have hh : headAt s q.val sopEnd = some (x, d) := headAt_of_atHead h
  simp only [stepEnd, headSettle_of_atHead h, hh, if_pos hops]

theorem stepEnd_of_done (hops : x.ops = []) (hva : sopTokVa d = 0) (hsig : hdrSig d = false) : stepEnd s q.val =
    modStep s q.val fun y => { y with seqNext := x.seqNext + 1, ended := some [] } := by
  have hh : headAt s q.val sopEnd = some (x, d) := headAt_of_atHead h
  simp only [stepEnd, headSettle_of_atHead h, hh, hops, ne_eq, not_true_eq_false, if_false, hva, readTokens_zero, opSignal, hsig,
    Bool.false_eq_true, if_true]

end End

theorem headDone_of_silent (t : State) (hsig : hdrSig d = false) (next : Nat) : headDone t q.val x d stOk next =
    setHead (modStep t q.val fun y => { y with seqNext := x.seqNext + 1 }) q.val next := by
  simp only [headDone, opSignal, hsig, Bool.false_eq_true, if_false, if_true]

theorem headDone_of_signal {t u : State} (hsig : hdrSig d = true)
    (hu : tallyOp t codeForeman x.ctx.toNat (.virt (hdrStally d)) topAdd 1 = (u, stOk)) (next : Nat) :
    headDone t q.val x d stOk next =
      setHead (modStep (withTag (hdrTag d) t u) q.val fun y => { y with seqNext := x.seqNext + 1 }) q.val next := by
  simp only [headDone, opSignal, hsig, hu, if_true]

end Head

/-- Settles O45: each control operation at the head is its rule, and `headDone` is what follows. -/
theorem headOperationsAct : Obligations.HeadOperationsAct := by
  unfold Obligations.HeadOperationsAct
  refine fun s q x d => ⟨fun h => ?_, fun h => ⟨fun hc => ?_, fun hc => ?_, fun t ht => ⟨fun hc => ?_, fun hc => ?_⟩, fun hc ht => ?_⟩,
    fun h hc t st ht => ?_, fun h => ⟨fun hw => ?_, fun hl hw => ?_⟩, fun h hva => ?_, fun h => ⟨fun hops => ?_, fun hops hva hsig => ?_⟩,
    fun t => ⟨fun hsig => headDone_of_silent t hsig _, fun hsig u hu => headDone_of_signal hsig hu _⟩⟩
  · exact congrArg Host.Outcome.next (setn_of_atHead h)
  · exact congrArg Host.Outcome.next (jump_always h hc)
  · exact congrArg Host.Outcome.next (jump_counted h hc rfl)
  · refine congrArg Host.Outcome.next ((jump_onTally h (.inl hc) ht (if_pos hc)).trans ?_)
    simp only [decide_eq_true_eq]
  · have h21 : ¬ sopCond d = 1 := by omega
    refine congrArg Host.Outcome.next ((jump_onTally h (.inr hc) ht (if_neg h21)).trans ?_)
    simp only [Bool.not_eq_true', decide_eq_false_iff_not, Nat.not_le]
  · exact congrArg Host.Outcome.next (jump_noTally h hc ht)
  · exact congrArg Host.Outcome.next (signalOp_of_atHead h hc ht)
  · exact congrArg Host.Outcome.next ((waitw_of_atHead h).trans (if_pos hw))
  · exact congrArg Host.Outcome.next ((waitw_of_atHead h).trans (if_neg fun hor => hor.elim hl (Nat.not_lt.2 hw)))
  · exact congrArg Host.Outcome.next (emitOp_of_atHead h hva)
  · exact congrArg Host.Outcome.next (stepEnd_of_outstanding h hops)
  · exact congrArg Host.Outcome.next (stepEnd_of_done h hops hva hsig)

end Sys2Proof.Machine
end

section
/-! SUPPORT. Records, windows and the CADENCE input (R227, R229, R243 to R249, R421, R422). -/

namespace Sys2Proof.Machine
open Sys2Proof.Claims

section Records
variable {s : State} {q : QueueId} {x : RecFlight}

theorem recordAcknowledged_of_one (hr : (s.queue q.val).records = [x]) (hsent : x.sent = true) (hack : x.acked = true)
    (ht : (s.queue q.val).recTally = 0xFFFF) (hm : (s.queue q.val).recMsix = 0xFF) :
    recordAcknowledged s q.val = s.setQueue q.val { s.queue q.val with records := [] } := by
  have hsend : (s.queue q.val).records.find? (fun y => !y.sent) = none := by simp [hr, hsent]
  have hfind : (s.queue q.val).records.find? (fun y => y.acked) = some x := by simp [hr, hack]
  have hleft : (s.queue q.val).records.filter (fun y => y.id ≠ x.id) = [] := by simp [hr]
  simp only [recordAcknowledged, hsend, hfind, hleft, ht, hm, if_true]

theorem recordWaitTimeout_of_one {n : Nat} (hr : (s.queue q.val).records = [x]) (hsent : x.sent = false) (hp : x.port = .partner n)
    (hst : (s.port n).state = 5) : recordWaitTimeout s q.val = if x.since + 8000000 < s.now then recDrop s q.val x stOk else s := by
  by_cases h : x.since + 10 * msCycles < s.now
  · rw [if_pos (show x.since + 8000000 < s.now from h)]
    simp [recordWaitTimeout, hr, hsent, hp, hst, h]
  · rw [if_neg (show ¬ x.since + 8000000 < s.now from h)]
    simp [recordWaitTimeout, hr, hsent, hp, hst, h]

end Records

section WinLen
variable {u : State} {v : W32}

theorem winLenWrite_of_outside (h0 : v ≠ 0) (h : v.toNat < 8000 ∨ 268435448 < v.toNat ∨ v.toNat % 8 ≠ 0) :
    winLenWrite u v.toNat = (u, stOob) := by
  have hv : v.toNat ≠ 0 := fun h => h0 (BitVec.eq_of_toNat_eq h)
  refine if_pos ?_
  simpa [hv, or_assoc] using h

variable (hlo : 8000 ≤ v.toNat) (hhi : v.toNat ≤ 268435448) (h8 : v.toNat % 8 = 0)
include hlo hhi h8

theorem winLenWrite_of_inside : winLenWrite u v.toNat =
    if windowedActive u then (u, stBusy)
    else ({ cadenceAligned u with win := { (cadenceAligned u).win with len := v, boundary := u.now, number := 0 } }, stOk) := by
  have h0 : v.toNat ≠ 0 := by omega
  have hguard : (v.toNat ≠ 0 && (decide (v.toNat < 8000) || decide (268435448 < v.toNat) || v.toNat % 8 != 0)) = false := by
    rw [decide_eq_false (Nat.not_lt.2 hlo), decide_eq_false (Nat.not_lt.2 hhi), h8]
    exact Bool.and_false _
  simp only [winLenWrite, hguard, h0, Bool.false_eq_true, if_false, BitVec.ofNat_toNat, BitVec.setWidth_eq]

end WinLen

section Boundaries
variable {s : State}

theorem windowBoundary_of_due (hlen : s.win.len ≠ 0) (hal : s.win.align = false) (h : expectedBoundary s ≤ s.now) :
    windowBoundary s = boundaryAt s (expectedBoundary s) := by
  refine if_pos ?_
  simp only [freeRunning, hlen, hal, h, ne_eq, not_false_eq_true, decide_true, Bool.not_false, Bool.true_or, Bool.and_self]

theorem windowBoundary_of_early (h : s.now < expectedBoundary s) : windowBoundary s = s := by
  refine if_neg ?_
  rw [decide_eq_false (Nat.not_le.2 h), Bool.and_false]
  exact Bool.false_ne_true

variable (hlen : s.win.len ≠ 0) (hal : s.win.align = true) (hf : s.win.fallback = false)

section
variable (hc : cadenceStuck s = false)
include hlen hal hf hc

theorem cadenceMissed_of_aligned {w : Window}
    (hw : { s.win with missed := satInc s.win.missed, missedInRow := s.win.missedInRow + 1 } = w) : cadenceMissed s =
      if expectedBoundary s + s.win.len.toNat / 8 ≤ s.now then
        boundaryAt (if s.win.missedInRow + 1 = 4 then cadenceFallback { s with win := w } else { s with win := w })
          (expectedBoundary s + s.win.len.toNat / 8)
      else s := by
  subst hw
  simp only [cadenceMissed, cadenceOn, freeRunning, hlen, hal, hf, hc, ne_eq, not_false_eq_true, decide_true, Bool.not_true,
    Bool.or_self, Bool.not_false, Bool.and_self, Bool.true_and, decide_eq_true_eq]

end

section Edge
variable (hlife : s.life.state ≠ 0) (hlev : (s.input 0).level = false) (hshort : tooShort s 0 = false)
  (hlast : (s.input 0).lastEdge = none) (hstuck : (s.input 0).stuck = false)
include hlen hal hlife hlev hshort hlast hstuck

/-- A rising edge that the filter takes, the first one, is an edge of CADENCE. -/
theorem cadenceLevel_of_first {i : InputPin} (hi : { s.input 0 with level := true, since := s.now, changed := some s.now } = i) :
    cadenceLevel s true = cadenceEdge ((s.setInput 0 i).setInput 0 { i with lastEdge := some s.now }) := by
  subst hi
  have hon : cadenceOn s = true := by simp only [cadenceOn, hal, hlen, ne_eq, not_false_eq_true, decide_true, Bool.and_self]
  simp only [cadenceLevel, hlev, hlife, hshort, hon, hlast, hstuck, Bool.false_eq_true, Bool.not_true, if_false, decide_false,
    Bool.or_self]

end Edge

theorem cadenceEdge_of_band (h1 : expectedBoundary s ≤ s.now + s.win.len.toNat / 8)
    (h2 : s.now ≤ expectedBoundary s + s.win.len.toNat / 8) : cadenceEdge s = boundaryAt (cadenceAligned s) s.now := by
  simp only [cadenceEdge, h1, h2, decide_true, Bool.and_self, if_true]

include hf in
theorem cadenceEdge_of_early (h : s.now + s.win.len.toNat / 8 < expectedBoundary s) :
    cadenceEdge s = { s with win := { s.win with ignored := satInc s.win.ignored } } := by
  simp only [cadenceEdge, decide_eq_false (Nat.not_le.2 h), hf, Bool.false_and, Bool.false_eq_true, if_false]

end Boundaries

/-- Settles O46: the records, the window's boundaries and CADENCE, each clause its rule. -/
theorem recordsAndWindows : Obligations.RecordsAndWindows := by
  unfold Obligations.RecordsAndWindows
  refine fun s q => ⟨fun x hr hs ha ht hm => ?_, fun x n hr hs hp hst => ⟨fun h => ?_, fun h => ?_⟩,
    fun p v u ho => ⟨fun h0 h => ?_, fun hlo hhi h8 => ⟨fun hw => ?_, fun hw => ?_⟩⟩,
    fun hlen hal h => ?_, fun h => ?_, fun hlen hal hf hc => ⟨fun h => ?_, fun h hm => ?_, fun h hm => ?_,
      fun hlife hlev hshort hlast hstuck => ⟨fun h1 h2 => ?_, fun h => ?_⟩⟩⟩
  · exact congrArg Host.Outcome.next (recordAcknowledged_of_one hr hs ha ht hm)
  · exact congrArg Host.Outcome.next ((recordWaitTimeout_of_one hr hs hp hst).trans (if_pos h))
  · exact congrArg Host.Outcome.next ((recordWaitTimeout_of_one hr hs hp hst).trans (if_neg (Nat.not_lt.2 h)))
  · exact answers_of_dictRow1 rfl ho (winLenWrite_of_outside h0 h)
  · exact answers_of_dictRow1 rfl ho ((winLenWrite_of_inside hlo hhi h8).trans (if_pos hw))
  · exact answers_of_dictRow1 rfl ho ((winLenWrite_of_inside hlo hhi h8).trans (if_neg (by rw [hw]; exact Bool.false_ne_true)))
  · exact congrArg Host.Outcome.next (windowBoundary_of_due hlen hal h)
  · exact congrArg Host.Outcome.next (windowBoundary_of_early h)
  · exact congrArg Host.Outcome.next ((cadenceMissed_of_aligned hlen hal hf hc rfl).trans (if_neg (Nat.not_le.2 h)))
  · refine congrArg Host.Outcome.next ((cadenceMissed_of_aligned hlen hal hf hc rfl).trans ((if_pos h).trans ?_))
    rw [if_neg (by omega)]
    rfl
  · refine congrArg Host.Outcome.next ((cadenceMissed_of_aligned hlen hal hf hc rfl).trans ((if_pos h).trans ?_))
    rw [hm]
    rfl
  · exact congrArg Host.Outcome.next ((cadenceLevel_of_first hlen hal hlife hlev hshort hlast hstuck rfl).trans (cadenceEdge_of_band h1 h2))
  · exact congrArg Host.Outcome.next ((cadenceLevel_of_first hlen hal hlife hlev hshort hlast hstuck rfl).trans
      (cadenceEdge_of_early hf h))

end Sys2Proof.Machine
end

section
/-! SUPPORT. ADD, SUB, SET and ARRIVE on tallies and barriers (R252, R256, R257, R259, R260, R269). -/

namespace Sys2Proof.Machine
open Sys2Proof.Claims

section Command
variable {s : State} {o : Origin} {c : CtxId} {r : TallyRef}

theorem tallyCommand_refused (h : tallyGate s o c.val r ≠ stOk) (f : State → State × Byte) :
    tallyCommand s o c r f = answer s o c.val false (tallyGate s o c.val r) [] (0x1000000 + tallyOffset r) := by
  simp only [tallyCommand, h, if_false]

theorem tallyCommand_served (h : tallyGate s o c.val r = stOk) {f : State → State × Byte} {t : State} {st : Byte}
    (hf : f s = (t, st)) : tallyCommand s o c r f = answer t o c.val false st [] (0x1000000 + tallyOffset r) := by
  simp only [tallyCommand, h, if_true, hf]

theorem tallyOp_of_none {code : W16} {k : Nat} (h : tallyOf s k r = none) (top : BitVec 4) (n : W32) :
    tallyOp s code k r top n = (tallyRangeFault s code k r, stTallyRange) := by
  simp only [tallyOp, h]

/-- An operation on a tally that its window maps: its effect, then the record of its signaller and its fault. -/
theorem tallyCommand_signedOff (hg : tallyGate s o c.val r = stOk) {t : Nat} (ht : tallyOf s c.val r = some t) {top : BitVec 4} {n : W32}
    {u : State} {st : Byte} (he : tallyEffect s (codeOf o) c.val t top n = (u, st)) :
    tallyCommand s o c r (fun v => tallyOp v (codeOf o) c.val r top n) = signedOff u o c r t top n st :=
  tallyCommand_served hg (by simp only [tallyOp, ht, he])

end Command

section Effect
variable {s : State} {code : W16} {c t : Nat} {n : W32}

theorem tallyEffect_set_refused (hc : c ≠ 0) : tallyEffect s code c t topSet n = (s, stProt) := by
  simp only [tallyEffect, hc, ne_eq, not_false_eq_true, decide_true, Bool.and_self, if_true]

theorem tallyEffect_barrier (hx : (s.cell t).barrier = true) {top : BitVec 4} (h : top = topAdd ∨ top = topSub) :
    tallyEffect s code c t top n = (s, stMode) := by
  rcases h with rfl | rfl <;> exact if_pos hx

/-- A value put where no watch stands: nothing else happens. -/
theorem tallyPut_of_noWatches (h : (s.cell t).watches = []) (v : W32) :
    tallyPut s t v = s.setCell t { s.cell t with value := v } := by
  simp only [tallyPut, h, walkWatches]

section Ordinary
variable (hx : (s.cell t).barrier = false)
include hx

theorem tallyEffect_add : tallyEffect s code c t topAdd n =
    if tallyMax < (s.cell t).value.toNat + n.toNat then (s, stTallyOver) else (tallyPut s t ((s.cell t).value + n), stOk) :=
  if_neg (by rw [hx]; exact Bool.false_ne_true)

theorem tallyEffect_sub : tallyEffect s code c t topSub n =
    if (s.cell t).value.toNat < n.toNat then (s, stTallyUnder) else (tallyPut s t ((s.cell t).value - n), stOk) :=
  if_neg (by rw [hx]; exact Bool.false_ne_true)

theorem tallyEffect_set (hc : c = 0) : tallyEffect s code c t topSet n =
    if tallyMax < n.toNat then (s, stOob) else (tallyPut s t n, stOk) := by
  subst hc
  exact if_neg (by rw [hx]; exact Bool.false_ne_true)

end Ordinary

theorem tallyEffect_arrive_of_none (h : barrierOf s t = none) : tallyEffect s code c t topArrive n = (s, stMode) := by
  simp only [tallyEffect, h]
  rfl

section Arrive
variable {i p : Nat} {b : Barrier} (hb : barrierOf s t = some (i, b)) (hp : participant n code b.mask = some p)
include hb hp

theorem tallyEffect_arrive_twice (h1 : bitAt b.cur p = true) (h2 : bitAt b.nxt p = true) :
    tallyEffect s code c t topArrive n = (s, stOverrun) := by
  simp only [tallyEffect, hb, hp, h1, h2]
  rfl

/-- The first arrival of a participant in the current round, with what the releases make of it. -/
theorem tallyEffect_arrive_first (h1 : bitAt b.cur p = false) {b2 : Barrier} {v : W32}
    (hr : releaseRounds { b with cur := setBit b.cur p true } (s.cell t).value = (b2, v)) {s1 : State}
    (hs1 : { s with tally := { s.tally with barriers := tset {} s.tally.barriers i b2 } } = s1) :
    tallyEffect s code c t topArrive n = (if v = (s.cell t).value then s1 else tallyPut s1 t v, stOk) := by
  subst hs1
  have htop : (topArrive = topSet) = False := by decide
  simp only [tallyEffect, hb, hp, h1, hr, htop, decide_false, Bool.false_and, Bool.false_eq_true, if_false, if_true]

end Arrive
end Effect

theorem releaseRounds_of_open {b : Barrier} (h : b.cur ≠ b.mask) (v : W32) : releaseRounds b v = (b, v) := by
  simp only [releaseRounds, h, if_false]

theorem releaseRounds_of_one {b : Barrier} (h : b.cur = b.mask) (hn : b.nxt ≠ b.mask) (v : W32) :
    releaseRounds b v = ({ b with cur := b.nxt, nxt := 0 }, BitVec.ofNat 32 ((v.toNat + 1) % 2 ^ 31)) := by
  simp only [releaseRounds, h, hn, if_true, if_false]

/-- The count of releases moves on. -/
theorem releases_ne {v : W32} (h : v.toNat < 2 ^ 31) : BitVec.ofNat 32 ((v.toNat + 1) % 2 ^ 31) ≠ v := by
  intro he
  have hval := congrArg BitVec.toNat he
  rw [BitVec.toNat_ofNat, Nat.mod_eq_of_lt (by omega)] at hval
  have hlt : v.toNat < 2 ^ 31 := h
  omega

/-- Settles O47: each operation's check or effect, signed off. -/
theorem tallyOperations : Obligations.TallyOperations := by
  unfold Obligations.TallyOperations
  refine fun s o c r n => ⟨fun hg => ?_, fun hg ht => ?_, fun t hg ht => ⟨fun hx => ⟨?_, ?_⟩, fun hc => ?_,
    fun hx => ⟨fun h => ?_, fun h => ?_, fun hc h => ?_, fun hw => ⟨fun h => ?_, fun h => ?_, fun hc h => ?_⟩⟩,
    fun hb => ?_, fun i b p hb hp => ⟨fun h1 h2 => ?_, fun h1 h => ?_, fun h1 h hn hw hv => ?_⟩⟩⟩
  · exact congrArg Host.Outcome.next (tallyCommand_refused hg _)
  · exact congrArg Host.Outcome.next (tallyCommand_served hg (tallyOp_of_none ht _ _))
  · exact congrArg Host.Outcome.next (tallyCommand_signedOff hg ht (tallyEffect_barrier hx (.inl rfl)))
  · exact congrArg Host.Outcome.next (tallyCommand_signedOff hg ht (tallyEffect_barrier hx (.inr rfl)))
  · exact congrArg Host.Outcome.next (tallyCommand_signedOff hg ht (tallyEffect_set_refused hc))
  · exact congrArg Host.Outcome.next (tallyCommand_signedOff hg ht ((tallyEffect_add hx).trans (if_pos h)))
  · exact congrArg Host.Outcome.next (tallyCommand_signedOff hg ht ((tallyEffect_sub hx).trans (if_pos h)))
  · exact congrArg Host.Outcome.next (tallyCommand_signedOff hg ht ((tallyEffect_set hx hc).trans (if_pos h)))
  · exact congrArg Host.Outcome.next (tallyCommand_signedOff hg ht
      (((tallyEffect_add hx).trans (if_neg (Nat.not_lt.2 h))).trans (by rw [tallyPut_of_noWatches hw])))
  · exact congrArg Host.Outcome.next (tallyCommand_signedOff hg ht
      (((tallyEffect_sub hx).trans (if_neg (Nat.not_lt.2 h))).trans (by rw [tallyPut_of_noWatches hw])))
  · exact congrArg Host.Outcome.next (tallyCommand_signedOff hg ht
      (((tallyEffect_set hx hc).trans (if_neg (Nat.not_lt.2 h))).trans (by rw [tallyPut_of_noWatches hw])))
  · exact congrArg Host.Outcome.next (tallyCommand_signedOff hg ht (tallyEffect_arrive_of_none hb))
  · exact congrArg Host.Outcome.next (tallyCommand_signedOff hg ht (tallyEffect_arrive_twice hb hp h1 h2))
  · refine congrArg Host.Outcome.next (tallyCommand_signedOff hg ht
      ((tallyEffect_arrive_first hb hp h1 (releaseRounds_of_open h _) rfl).trans ?_))
    rw [if_pos rfl]
  · refine congrArg Host.Outcome.next (tallyCommand_signedOff hg ht
      ((tallyEffect_arrive_first hb hp h1 (releaseRounds_of_one (b := { b with cur := setBit b.cur p true }) h hn _) rfl).trans ?_))
    rw [if_neg (releases_ne hv), tallyPut_of_noWatches (by exact hw)]
    rfl

end Sys2Proof.Machine
end

section
/-! SUPPORT. Held signals, the gating of a face and the debug selects (R271, R272, R276, R280). -/

namespace Sys2Proof.Machine
open Sys2Proof.Claims

section Holds
variable {s : State} {k : PortId} {src : BitVec 4} {h : Hold}

theorem sigStampMet_of_none (hf : firstHold (s.port k) src = none) : sigStampMet s k src = s := by
  simp only [sigStampMet, hf]

theorem sigStampMet_of_hold (hf : firstHold (s.port k) src = some h) :
    sigStampMet s k src = if stampMet (s.port k) h then applySig (unhold s k h) k h else s := by
  simp only [sigStampMet, hf]

theorem holds_unhold (hwf : tabWf ({} : Port) s.ports = true) : ((unhold s k h).port k).holds = (s.port k).holds.erase h := by
  have hwf' : tabWf ({} : Port) (s.modPort k fun p => { p with holds := p.holds.erase h }).ports = true := tabWf_tset hwf _ _
  rw [unhold, poolLeave, State.modPort, State.port_setPort_same hwf', State.modPort, State.port_setPort_same hwf]

theorem stampTimeout_of_one (hh : (s.port k).holds = [h]) (hsrc : h.src = src) :
    stampTimeout s k src = if h.since + 8000000 ≤ s.now then timeoutSig (logStamp s k h) k h else s := by
  by_cases hd : h.since + 10 * msCycles ≤ s.now
  · rw [if_pos (show h.since + 8000000 ≤ s.now from hd)]
    simp only [stampTimeout, hh, hsrc, beq_self_eq_true, hd, decide_true, Bool.and_self, List.find?_cons_of_pos]
  · rw [if_neg (show ¬ h.since + 8000000 ≤ s.now from hd)]
    simp only [stampTimeout, hh, hd, decide_false, Bool.and_false, Bool.false_eq_true, not_false_eq_true, List.find?_cons_of_neg,
      List.find?_nil]

end Holds

theorem faceGate_of_watching {s : State} {f : FaceId} {t : FaceTask} {a : Nat} (ht : (s.face f.val).task = some t)
    (hw : t.wait = .watching a) (hg : (s.face f.val).gated = false) : faceGate s f.val =
      if s.tally.gateWait = 0 ∨ s.now < a + s.tally.gateWait.toNat * 800 then s
      else { s.setFace f.val { s.face f.val with gated := true, wokeAt := s.now } with
        tally := { s.tally with gates := satInc s.tally.gates } } := by
  simp only [faceGate, ht, hw, hg, Bool.false_or, Bool.or_eq_true, decide_eq_true_eq]

/-- Settles O49: held signals, gates and the debug selects, each clause its rule. -/
theorem signalsGatesAndDebugRecords : Obligations.SignalsGatesAndDebugRecords := by
  unfold Obligations.SignalsGatesAndDebugRecords
  refine fun s k src => ⟨fun hf => ?_, fun h hf => ⟨fun hm => ?_, fun hm => ?_, fun hwf => holds_unhold hwf⟩,
    fun h hh hsrc => ⟨fun hlt => ?_, fun hge => ?_⟩, fun f t a ht hw hg => ⟨fun h0 => ?_, fun hlt => ?_, fun h0 hge => ?_⟩,
    fun p v b u => ⟨fun ho hv => ?_, fun ho hv => ?_, fun ho hv => ?_, fun ho hv => ?_, fun ho => ?_⟩⟩
  · exact congrArg Host.Outcome.next (sigStampMet_of_none hf)
  · exact congrArg Host.Outcome.next ((sigStampMet_of_hold hf).trans (if_neg (by rw [hm]; exact Bool.false_ne_true)))
  · exact congrArg Host.Outcome.next ((sigStampMet_of_hold hf).trans (if_pos hm))
  · exact congrArg Host.Outcome.next ((stampTimeout_of_one hh hsrc).trans (if_neg (Nat.not_le.2 hlt)))
  · subst hsrc
    exact congrArg Host.Outcome.next ((stampTimeout_of_one hh rfl).trans (if_pos hge))
  · exact congrArg Host.Outcome.next ((faceGate_of_watching ht hw hg).trans (if_pos (.inl h0)))
  · exact congrArg Host.Outcome.next ((faceGate_of_watching ht hw hg).trans (if_pos (.inr hlt)))
  · exact congrArg Host.Outcome.next ((faceGate_of_watching ht hw hg).trans (if_neg fun h => h.elim h0 (Nat.not_lt.2 hge)))
  · exact answers_of_dictRow1 rfl ho ((if_neg (by omega)).trans (by simp only [BitVec.ofNat_toNat, BitVec.setWidth_eq]))
  · exact answers_of_dictRow1 rfl ho (if_pos (by omega))
  · exact answers_of_dictRow1 rfl ho ((if_neg (by omega)).trans (by simp only [BitVec.ofNat_toNat, BitVec.setWidth_eq]))
  · exact answers_of_dictRow1 rfl ho (if_pos (by omega))
  · exact answers_of_dictRow1 rfl ho rfl

end Sys2Proof.Machine
end

section
/-! SUPPORT. The links of the ports: flits, replays, training, enabling (R316, R318, R333, R334, R336). -/

namespace Sys2Proof.Machine
open Sys2Proof.Claims

section Support

/-- Writing back what a table holds changes nothing. -/
theorem tset_tget_self {α : Type} [DecidableEq α] {d : α} {t : Tab α} (hw : tabWf d t = true) (i : Nat) :
    tset d t i (tget d t i) = t := by
  induction t with
  | nil => simp [tset, tget]
  | cons p t ih =>
    obtain ⟨j, w⟩ := p
    obtain ⟨hv, hlt, hwt⟩ := tabWf_cons.1 hw
    by_cases hij : i = j
    · subst hij
      simp [tset, tget, hv]
    · by_cases hb : i < j
      · have : tget d t i = d := tget_below fun p hp => Nat.lt_trans hb (hlt p hp)
        simp [tset, tget, hij, hb, this]
      · simp [tset, tget, hij, hb, ih hwt]

theorem State.setPort_port {s : State} (h : tabWf ({} : Port) s.ports = true) (k : Nat) : s.setPort k (s.port k) = s := by
  have := tset_tget_self h k
  unfold State.setPort State.port
  rw [this]

theorem State.setPort_setPort {s : State} (h : tabWf ({} : Port) s.ports = true) (k : Nat) (p p' : Port) :
    (s.setPort k p).setPort k p' = s.setPort k p' := by
  simp only [State.setPort, tset_tset_same h]

@[simp] theorem logRec_ports (s : State) (r : FaultRec) : (logRec s r).ports = s.ports := by
  rw [logRec_eq]

@[simp] theorem raiseEmcy_ports (s : State) (code : W16) (unit : Byte) (detail : Nat) : (raiseEmcy s code unit detail).ports = s.ports := by
  unfold raiseEmcy
  split
  · exact logRec_ports _ _
  · rfl

@[simp] theorem condEnd_ports (s : State) (code : W16) (key : Nat) : (condEnd s code key).ports = s.ports := by
  simp only [condEnd]
  split
  · split
    · exact raiseEmcy_ports _ _ _ _
    · rfl
  · split <;> rfl

theorem satAdd_zero {w : Nat} (x : BitVec w) : satAdd x 0 = x := by
  have := x.isLt
  rw [satAdd, Nat.add_zero, Nat.min_eq_left (by omega), BitVec.ofNat_toNat, BitVec.setWidth_eq]

end Support

section Flits
variable {s : State} {k : PortId}

theorem portRuns_ackFlits (p : Port) (a : BitVec 12) : portRuns (ackFlits p a) = portRuns p := by
  unfold ackFlits
  split <;> rfl

theorem flitIn_of_stopped (h : portRuns (s.port k) = false) (n : W16) (bad : List (Fin 17)) (flit : List Byte) :
    flitIn s k n bad flit = s := by
  simp only [flitIn, h, Bool.not_false, if_true]

theorem nakIn_of_stopped (h : portRuns (s.port k) = false) (a : BitVec 12) : nakIn s k a = s := by
  simp only [nakIn, portRuns_ackFlits, h, Bool.not_false, if_true]

theorem retrain_of_stopped (h : portRuns (s.port k) = false) : retrain s k = s :=
  if_neg (by rw [h]; exact Bool.false_ne_true)

section Running
variable (h : portRuns (s.port k) = true)
include h

/-- A flit whose length or CRC is wrong: a NAK leaves. -/
theorem flitIn_of_bad {flit : List Byte} (hbad : flit.length ≠ 256 ∨ crc32 (flit.take 252) ≠ BitVec.ofNat 32 (leNat (flit.drop 252)))
    (hwf : tabWf ({} : Port) s.ports = true) (n : W16) : flitIn s k n [] flit =
      sendNak (s.setPort k { s.port k with fecCorrected := satAdd (s.port k).fecCorrected n.toNat }) k := by
  have hguard : (decide (([] : List (Fin 17)) = []) && decide (flit.length = 256) &&
      (crc32 (flit.take 252) == BitVec.ofNat 32 (leNat (flit.drop 252)))) = false := by
    rcases hbad with hl | hc
    · rw [decide_eq_false hl, Bool.and_false, Bool.false_and]
    · rw [beq_eq_false_iff_ne.2 hc, Bool.and_false]
  have hruns : portRuns ((s.setPort k { s.port k with fecCorrected := satAdd (s.port k).fecCorrected n.toNat }).port k) = true := by
    rw [State.port_setPort_same hwf]
    exact h
  refine (if_neg ?_).trans ((if_neg (by rw [hguard]; exact Bool.false_ne_true)).trans (if_pos hruns))
  rw [h]
  exact Bool.false_ne_true

omit h in
theorem sendNak_setPort (hwf : tabWf ({} : Port) s.ports = true) (p : Port) : sendNak (s.setPort k p) k =
    (s.setPort k { (buildFlit p 2 0 []).2 with discarding := true }).emit (.flit k (buildFlit p 2 0 []).1) := by
  unfold sendNak
  rw [State.port_setPort_same hwf]
  exact congrArg (State.emit · _) (State.setPort_setPort hwf k _ _)

theorem nakIn_of_running (a : BitVec 12) : nakIn s k a =
    if (ackFlits (s.port k) a).unacked.any fun u => decide (4 ≤ u.sends) then retrain (s.setPort k (ackFlits (s.port k) a)) k
    else portFlush (resend (s.setPort k (ackFlits (s.port k) a)) k false) k := by
  simp only [nakIn, portRuns_ackFlits, h, Bool.not_true, Bool.false_eq_true, if_false]

theorem laneFailed_of_running (lane : Nat) : laneFailed s k lane =
    if bitAt (s.port k).lanesFailed lane then s
    else logPort (retrain (s.setPort k { s.port k with lanesFailed := setBit (s.port k).lanesFailed lane true }) k) k := by
  simp only [laneFailed, h, if_true]

theorem state_of_running : (s.port k).state = 3 ∨ (s.port k).state = 4 := by
  simpa only [portRuns, Bool.or_eq_true, beq_iff_eq] using h

theorem execLaneLossOfLock_of_running (lane : Fin 17) :
    exec (.laneLossOfLock k lane) s = .next (laneFailed s k lane.val) := by
  have hst : 2 ≤ (s.port k).state.toNat ∧ (s.port k).state ≠ 6 := by
    rcases state_of_running h with h | h <;> rw [h] <;> decide
  exact congrArg Host.Outcome.next (if_pos (by simp only [hst, ne_eq, not_false_eq_true, decide_true, Bool.and_self]))

theorem trainingDone_of_running (good : Bool) (bad : BitVec 17) (c1 c2 c3 : W16) (a : BitVec 12) :
    trainingDone s k good bad c1 c2 c3 a = s := by
  refine if_pos ?_
  rcases state_of_running h with h | h <;> rw [h] <;> rfl

end Running
end Flits

section Training
variable {s : State} {k : PortId} {bad : BitVec 17} {c1 c2 c3 : W16} {a : BitVec 12}

theorem trainingDone_of_training (h : (s.port k).state = 2 ∨ (s.port k).state = 5) (good : Bool) :
    trainingDone s k good bad c1 c2 c3 a =
      if good then trained s k bad c1 c2 c3 a
      else if (s.port k).tries < 2 then
        s.setPort k { s.port k with tries := (s.port k).tries + 1, lanesFailed := (s.port k).lanesFailed ||| bad }
      else portDown (s.setPort k { s.port k with lanesFailed := (s.port k).lanesFailed ||| bad }) k := by
  refine if_neg ?_
  rcases h with h | h <;> rw [h] <;> exact Bool.false_ne_true

/-- A partner that gives too few credits leaves the port DOWN. -/
theorem trained_of_fewCredits (h : c1 = 0 ∨ c2.toNat < 17 ∨ c3 = 0) : trained s k bad c1 c2 c3 a =
    portDown (s.setPort k
      { s.port k with lanesFailed := (s.port k).lanesFailed ||| bad ||| tget 0 s.fuse.badXlanes k.val }) k := by
  have hfew : ∀ w : Nat, (decide (w = 0) || decide (c1.toNat < 1) || decide (c2.toNat < 17) || decide (c3.toNat < 1)) = true := by
    intro w
    rcases h with rfl | h | rfl
    · simp
    · simp [h]
    · simp
  simp only [trained, hfew, if_true]

/-- Nothing was sent and nothing waits: the resend and the flush after a training do nothing. -/
theorem portFlush_resend_of_fresh {u : State} (hwf : tabWf ({} : Port) u.ports = true) (hun : (u.port k).unacked = [])
    (hwait : (u.port k).txWait = []) (hack : (u.port k).ackOwed = false) (howed : (u.port k).owed = {}) :
    portFlush (resend u k true) k = u := by
  have hport : { u.port k with
      flitReplays := satAdd (u.port k).flitReplays (u.port k).unacked.length,
      unacked := (u.port k).unacked.map fun x => { x with sends := if true then 1 else x.sends + 1 } } = u.port k := by
    rw [hun, List.length_nil, satAdd_zero, List.map_nil, ← hun]
  have hsame : resend u k true = u := by
    have hput := (congrArg (u.setPort k) hport).trans (State.setPort_port hwf k)
    refine (congrArg (State.emits · _) hput).trans ((congrArg (u.emits ·) (?_ : _ = [])).trans ?_)
    · rw [hun, List.map_nil]
    · simp only [State.emits, List.append_nil]
  rw [hsame]
  simp only [portFlush, hwait, List.length_nil, portDrain, portIdle, hack, howed, ne_eq, not_true_eq_false, decide_false, Bool.or_self,
    Bool.and_false, Bool.false_eq_true, if_false]

/-- A first training that ends in the full width, with nothing to send or forward. -/
theorem trained_of_first {lanes : BitVec 17} (hl : (s.port k).lanesFailed ||| bad ||| tget 0 s.fuse.badXlanes k.val = lanes) {sp : Nat}
    (hw : chooseWidth lanes = (16, sp)) (h1 : 1 ≤ c1.toNat) (h2 : 17 ≤ c2.toNat) (h3 : 1 ≤ c3.toNat)
    (hf : (s.port k).firstTraining = true) (hwait : (s.port k).txWait = []) (hx : s.xfers = []) (hfw : s.fwds = [])
    (hwf : tabWf ({} : Port) s.ports = true) {p1 : Port}
    (hp1 : { s.port k with
      lanesFailed := lanes, width := 16, spareFor := BitVec.ofNat 8 sp, tries := 0, fence := [], state := 3,
      peerCredits := BitVec.ofNat 64 (c1.toNat * 2 ^ 32 + c2.toNat * 2 ^ 16 + c3.toNat), credit1 := c1.toNat,
      credit2 := c2.toNat, credit3 := c3.toNat, rxSeq := 0, txSeq := 0, txBuf := [], unacked := [], rxBuf := [],
      discarding := false, ackOwed := false, owed := {}, held := {}, c2Wait := 0 } = p1) :
    trained s k bad c1 c2 c3 a =
      condEnd (condEnd ((s.setPort k p1).emit (.training k lanes [32, 384, 128, 32] 0xFFF)) 0xFF01 k.val) 0xFF02 k.val := by
  have hgood : (decide (16 = 0) || decide (c1.toNat < 1) || decide (c2.toNat < 17) || decide (c3.toNat < 1)) = false := by
    rw [decide_eq_false (Nat.not_lt.2 h1), decide_eq_false (Nat.not_lt.2 h2), decide_eq_false (Nat.not_lt.2 h3)]
    rfl
  obtain ⟨v, hv⟩ : ∃ v, condEnd (condEnd ((s.setPort k p1).emit (.training k lanes [32, 384, 128, 32] 0xFFF)) 0xFF01 k.val) 0xFF02 k.val = v :=
    ⟨_, rfl⟩
  have hports : v.ports = (s.setPort k p1).ports := by
    rw [← hv, condEnd_ports, condEnd_ports]
    rfl
  have hport : v.port k = p1 := by
    rw [State.port, hports]
    exact State.port_setPort_same hwf k p1
  have hvwf : tabWf ({} : Port) v.ports = true := by
    rw [hports]
    exact tabWf_tset hwf _ _
  have hflush : portFlush (resend v k true) k = v := by
    refine portFlush_resend_of_fresh hvwf ?_ ?_ ?_ ?_ <;> rw [hport, ← hp1]
    exact hwait
  rw [hv, ← hflush, ← hv]
  simp only [trained, hl, hw, hgood, Bool.false_eq_true, if_false, hf, if_true, hx, hfw, List.map_nil]
  refine congrArg (fun t => portFlush (resend (condEnd (condEnd t 0xFF01 k.val) 0xFF02 k.val) k true) k) ?_
  rw [← hp1]
  simp only [State.emit, State.setPort, hx, hfw, hf, hwait]
  rfl

end Training

/-- The bytes before a flit's CRC. -/
def flitHead (p : Port) (ty : Nat) (q : BitVec 12) (body : List Byte) : List Byte :=
  let o := p.owed
  leBytes 8 (min o.c1 255 * 2 ^ 56 + min o.c2l 255 * 2 ^ 48 + min o.c2f 255 * 2 ^ 40 + min o.c3 255 * 2 ^ 32 + ty * 2 ^ 30 +
    q.toNat * 2 ^ 18 + (p.rxSeq - 1).toNat * 2 ^ 6) ++ body ++ List.replicate (244 - body.length) 0

theorem buildFlit_fst (p : Port) (ty : Nat) (q : BitVec 12) (body : List Byte) :
    (buildFlit p ty q body).1 = flitHead p ty q body ++ leBytes 4 (crc32 (flitHead p ty q body)).toNat := rfl

theorem length_flitHead (p : Port) (ty : Nat) (q : BitVec 12) {body : List Byte} (h : body.length ≤ 244) :
    (flitHead p ty q body).length = 252 := by
  simp only [flitHead, List.length_append, length_leBytes, List.length_replicate]
  omega

theorem chooseWidth_of_one : ∀ l < 16, chooseWidth (BitVec.ofNat 17 (2 ^ l)) = (16, l) := by decide

section Control
variable {s u : State} {k : PortId} {d : DictPath}

theorem retrainReq_train : retrainReq u k 1 =
    if portRuns (u.port k) then (retrain u k, stOk) else if (u.port k).state = 6 then (firstTrain u k, stOk) else (u, stOk) := rfl

theorem retrainReq_clear {t : State} (ht : (u.modPort k fun p => { p with lanesFailed := 0, laneErrs := [] }) = t)
    (hr : portRuns (t.port k) = true) : retrainReq u k 2 = (retrain t k, stOk) := by
  subst ht
  exact if_pos hr

theorem portEnable_of_unlicensed (h : portLicensed u k.val = false) :
    portEnable u k 1 = (logRefused u (.unit 0) 0 stLicence 4, stLicence) := by
  simp only [portEnable, h, Bool.not_false, if_true]
  rfl

/-- Enabling a licensed port: it waits for bring-up, or begins a first training, stopped first if it runs. -/
theorem portEnable_of_licensed (h : portLicensed u k.val = true) {w : State}
    (hw : u.setPort k { u.port k with enable := true } = w) : portEnable u k 1 =
      if (u.port k).state = 0 && !u.life.opened then (w, stOk)
      else
        let v := if 2 ≤ (u.port k).state.toNat && (u.port k).state ≠ 6 then portStop (retrain w k) k 1 else w
        (firstTrain (v.setDomain (4 + k.val) { v.domain (4 + k.val) with state := 1 }) k, stOk) := by
  subst hw
  simp only [portEnable, h, Bool.not_true, Bool.false_eq_true, if_false]
  rfl

theorem portEnable_off {w : State} (hw : u.setPort k { u.port k with enable := false } = w) : portEnable u k 0 =
    if (u.port k).state = 0 || (u.port k).state = 1 then (w, stOk) else (condEnd (portStop (retrain w k) k 1) 0xFF01 k.val, stOk) := by
  subst hw
  rfl

end Control

/-- Settles O50: the link's events, its training and its objects, each clause its rule. -/
theorem portLinks : Obligations.PortLinks := by
  unfold Obligations.PortLinks
  refine fun s k => ⟨fun h => ⟨fun n bad flit => ?_, ?_, fun a => ?_⟩, fun h => ⟨fun n flit hbad hwf => ?_, fun a ha => ?_, fun a ha => ?_, ?_,
    fun lane hl => ?_, fun lane hl => ?_, fun good bad c1 c2 c3 a => ?_⟩, fun h bad c1 c2 c3 a => ⟨fun ht => ?_, fun ht => ?_, ?_,
      trained_of_fewCredits, fun sp hw h1 h2 h3 hf hwait hx hfw hwf => ?_⟩, fun x ty q body hb => ?_, ⟨by decide, chooseWidth_of_one, by decide⟩,
    fun d v u ho => ⟨fun h1 h2 => ?_, fun hv h => ?_, fun hv h => ?_, fun hv hwf h => ?_⟩,
    fun d v u ho => ⟨fun hv => ?_, fun hv h => ?_, fun hv hlic => ⟨fun h0 hopen => ?_, fun h => ?_, fun h => ?_⟩,
      fun hv => ⟨fun h => ?_, fun h0 h1 => ?_⟩⟩⟩
  · exact congrArg Host.Outcome.next (flitIn_of_stopped h n bad flit)
  · exact congrArg Host.Outcome.next (retrain_of_stopped h)
  · exact congrArg Host.Outcome.next (nakIn_of_stopped h a)
  · exact congrArg Host.Outcome.next ((flitIn_of_bad h hbad hwf n).trans (sendNak_setPort hwf _))
  · exact congrArg Host.Outcome.next ((nakIn_of_running h a).trans (if_pos (by simpa using ha)))
  · refine congrArg Host.Outcome.next ((nakIn_of_running h a).trans (if_neg ?_))
    simpa using ha
  · exact congrArg Host.Outcome.next (if_pos h)
  · exact (execLaneLossOfLock_of_running h lane).trans (congrArg Host.Outcome.next ((laneFailed_of_running h lane.val).trans
      (if_neg (by rw [hl]; exact Bool.false_ne_true))))
  · exact (execLaneLossOfLock_of_running h lane).trans (congrArg Host.Outcome.next ((laneFailed_of_running h lane.val).trans (if_pos hl)))
  · exact congrArg Host.Outcome.next (trainingDone_of_running h good bad c1 c2 c3 a)
  · exact congrArg Host.Outcome.next ((trainingDone_of_training h false).trans (if_pos ht))
  · exact congrArg Host.Outcome.next ((trainingDone_of_training h false).trans (if_neg (Nat.not_lt.2 ht)))
  · exact congrArg Host.Outcome.next (trainingDone_of_training h true)
  · exact congrArg Host.Outcome.next ((trainingDone_of_training h true).trans (trained_of_first rfl hw h1 h2 h3 hf hwait hx hfw hwf rfl))
  · have hlen := length_flitHead x ty q hb
    refine ⟨by rw [buildFlit_fst, List.length_append, hlen, length_leBytes], ?_⟩
    rw [buildFlit_fst, List.drop_left' hlen, List.take_left' hlen]
    exact leNat_leBytes_toNat _ (by decide)
  · refine answers_of_dictRow1 rfl ho (if_pos ?_)
    have h1' : v.toNat ≠ 1 := fun h => h1 (BitVec.eq_of_toNat_eq h)
    have h2' : v.toNat ≠ 2 := fun h => h2 (BitVec.eq_of_toNat_eq h)
    simp only [h1', h2', ne_eq, not_false_eq_true, decide_true, Bool.and_self]
  · subst hv
    exact answers_of_dictRow1 rfl ho (retrainReq_train.trans (if_pos h))
  · subst hv
    have hr : portRuns (u.port k) ≠ true := by simp only [portRuns, h]; decide
    exact answers_of_dictRow1 rfl ho (retrainReq_train.trans ((if_neg hr).trans (if_pos h)))
  · subst hv
    exact answers_of_dictRow1 rfl ho (retrainReq_clear rfl ((congrArg portRuns (State.port_setPort_same hwf _ _)).trans h))
  · exact answers_of_dictRow1 rfl ho (if_pos hv)
  · subst hv
    exact answers_of_dictRow1 rfl ho (portEnable_of_unlicensed h)
  · subst hv
    exact answers_of_dictRow1 rfl ho ((portEnable_of_licensed hlic rfl).trans (if_pos (by simp only [h0, hopen]; rfl)))
  · subst hv
    refine answers_of_dictRow1 rfl ho ((portEnable_of_licensed hlic rfl).trans ?_)
    rcases h with h | h <;> rw [h] <;> rfl
  · subst hv
    refine answers_of_dictRow1 rfl ho ((portEnable_of_licensed hlic rfl).trans ?_)
    rcases state_of_running h with h | h <;> rw [h] <;> rfl
  · subst hv
    refine answers_of_dictRow1 rfl ho ((portEnable_off rfl).trans (if_pos ?_))
    simpa using h
  · subst hv
    refine answers_of_dictRow1 rfl ho ((portEnable_off rfl).trans (if_neg ?_))
    simpa using ⟨h0, h1⟩

end Sys2Proof.Machine
end

section
/-! SUPPORT. The packets of a partner port (Table 11.6, R271, R320 to R324, R331, R335). -/

namespace Sys2Proof.Machine
open Sys2Proof.Claims

section OnPort
variable {s : State} {k : PortId} {h : BitVec 256} {n : Nat}

theorem onPort_of_stopped (hr : portRuns (s.port k) = false) (f : State → State) : onPort s k h n f = s :=
  if_neg (by rw [hr]; exact Bool.false_ne_true)

theorem onPort_of_running (hr : portRuns (s.port k) = true) {f : State → State} {t : State} (hf : f (poolBack s k h n) = t) :
    onPort s k h n f = portFlush t k := by
  subst hf
  exact if_pos hr

section Port
variable (hwf : tabWf ({} : Port) s.ports = true)
include hwf

theorem port_poolBack : (poolBack s k h n).port k =
    { s.port k with owed := poolAdd (s.port k).owed (bitsAt h 9 8) (bitsAt h 27 24 ≠ 15) (packetCredits n) } :=
  State.port_setPort_same hwf _ _

theorem ctxAllowed_poolBack (c : Nat) : ctxAllowed ((poolBack s k h n).port k) c = ctxAllowed (s.port k) c := by
  rw [port_poolBack hwf]
  rfl

theorem msgOk_poolBack (m : Nat) : msgOk ((poolBack s k h n).port k) k h m = msgOk (s.port k) k h m := by
  rw [port_poolBack hwf]
  rfl

theorem firstHold_poolBack (src : BitVec 4) : firstHold ((poolBack s k h n).port k) src = firstHold (s.port k) src := by
  rw [port_poolBack hwf]
  rfl

theorem stampMet_poolBack (x : Hold) : stampMet ((poolBack s k h n).port k) x = stampMet (s.port k) x := by
  rw [port_poolBack hwf]
  rfl

end Port
end OnPort

section Request
variable {s : State} {k : PortId} {t : Nat} {h : BitVec 256} {data : List Byte} {f : State}

theorem requestPacket_malformed (hbad : hdrType h ≠ t ∨ hdrOk h data.length = false) :
    requestPacket s k t h data f = refusePacket s k h stMode := by
  refine if_pos ?_
  simpa using hbad

section Formed
variable (ht : hdrType h = t) (hok : hdrOk h data.length = true) (hwarm : s.life.warm = none)
include ht hok hwarm

theorem requestPacket_formed : requestPacket s k t h data f =
    if hdrOrg h ≠ k.val || !ctxAllowed (s.port k) (hdrCtx h) then refusePacket s k h stProt
    else if hdrDst h ≠ 15 then forward s k h data
    else if hdrAddr h / 2 ^ 40 ≠ 0 then refusePacket s k h stOob
    else f := by
  simp only [requestPacket, ht, hok, hwarm, ne_eq, not_true_eq_false, decide_false, Bool.not_true, Bool.or_self, Bool.false_eq_true,
    if_false, Option.isSome_none, Bool.false_and]

theorem requestPacket_notAllowed (hno : hdrOrg h ≠ k.val ∨ ctxAllowed (s.port k) (hdrCtx h) = false) :
    requestPacket s k t h data f = refusePacket s k h stProt := by
  refine (requestPacket_formed ht hok hwarm).trans (if_pos ?_)
  simpa using hno

variable (horg : hdrOrg h = k.val) (hctx : ctxAllowed (s.port k) (hdrCtx h) = true) (hdst : hdrDst h = 15)
include horg hctx hdst

/-- A request that the module itself is asked, past checks 1 to 3. -/
theorem requestPacket_own : requestPacket s k t h data f = if hdrAddr h < 2 ^ 40 then f else refusePacket s k h stOob := by
  have hpage : hdrAddr h / 2 ^ 40 = 0 ↔ hdrAddr h < 2 ^ 40 := Nat.div_eq_zero_iff_lt (by decide)
  rw [requestPacket_formed ht hok hwarm]
  simp only [horg, hctx, hdst, ne_eq, not_true_eq_false, decide_false, Bool.not_true, Bool.or_self, Bool.false_eq_true, if_false, hpage,
    ite_not]

end Formed
end Request

section Sig
variable {s : State} {k : PortId} {h : BitVec 256} {data : List Byte} (ht : hdrType h = 0x20) (hok : hdrOk h data.length = true)
  (hwarm : s.life.warm = none) (horg : hdrOrg h = k.val) (hctx : ctxAllowed (s.port k) (hdrCtx h) = true) (hdst : hdrDst h = 15)
  (haddr : hdrAddr h < 2 ^ 40)
include ht hok hwarm horg hctx hdst haddr

theorem sigPacket_untranslated {st : Byte} (htr : translate s (hdrCtx h) (hdrAddr h) data.length true (!hdrNc h) = .fail st) :
    sigPacket s k h data = answer (xlateRefused s (.partner k (hdrSrc h) (hdrRtag h)) (hdrCtx h) (hdrAddr h) st)
      (.partner k (hdrSrc h) (hdrRtag h)) (hdrCtx h) false st [] (hdrAddr h) := by
  refine (requestPacket_own ht hok hwarm horg hctx hdst).trans ((if_pos haddr).trans ?_)
  rw [htr]

theorem sigPacket_tally {pa : Nat} (htr : translate s (hdrCtx h) (hdrAddr h) data.length true (!hdrNc h) = .pa pa)
    (hpage : isTallyPage (pa / 2 ^ 24) = true) (hreg : (opRegion (pa % 2 ^ 24)).isSome = true) :
    sigPacket s k h data = arriveSig s k { src := hdrSrc h, tag := hdrRtag h, ctx := BitVec.ofNat 6 (hdrCtx h), stamp := hdrStamp h,
                                           off := BitVec.ofNat 24 (pa % 2 ^ 24), data := data, since := s.now } := by
  refine (requestPacket_own ht hok hwarm horg hctx hdst).trans ((if_pos haddr).trans ?_)
  rw [htr]
  exact if_pos (by rw [hpage, hreg]; rfl)

end Sig

section Arrival
variable {s : State} {k : PortId} {x : Hold}

theorem arriveSig_applied (hf : firstHold (s.port k) x.src = none) (hm : stampMet (s.port k) x = true) :
    arriveSig s k x = applySig s k x :=
  if_pos (by rw [hf, hm]; rfl)

theorem arriveSig_held (h : firstHold (s.port k) x.src ≠ none ∨ stampMet (s.port k) x = false) :
    arriveSig s k x = poolKeep (s.newReq.2.modPort k fun y => { y with holds := y.holds ++ [{ x with req := s.newReq.1 }] }) k 1
      x.data.length := by
  refine if_neg ?_
  rcases h with h | h
  · rw [Option.isNone_eq_false_iff.2 (Option.isSome_iff_ne_none.2 h), Bool.false_and]
    exact Bool.false_ne_true
  · rw [h, Bool.and_false]
    exact Bool.false_ne_true

end Arrival

section Responses
variable {s : State} {k : PortId} {h : BitVec 256} {data : List Byte}

theorem rspPacket_malformed (hbad : hdrType h ≠ 0x10 ∨ hdrOk h data.length = false) : rspPacket s k h data = malformed s k := by
  refine if_pos ?_
  simpa using hbad

section
variable (ht : hdrType h = 0x10) (hok : hdrOk h data.length = true)
include ht hok

theorem rspPacket_unasked (ha : answered s k h = none) : rspPacket s k h data = s := by
  simp only [rspPacket, ht, hok, ha, ne_eq, not_true_eq_false, decide_false, Bool.not_true, Bool.or_self, Bool.false_eq_true, if_false]

theorem rspPacket_forwardedRead {f : FwdReq} {j : PortId} (ha : answered s k h = some f) (ho : f.origin = some j) (hw : f.wr = false) :
    rspPacket s k h data = portRsp { s with fwds := s.fwds.erase f } j f.src f.tag f.ctx.toNat (hdrStatus h) data := by
  simp only [rspPacket, ht, hok, ha, ho, hw, fwdDone, ne_eq, not_true_eq_false, decide_false, Bool.not_true, Bool.or_self,
    Bool.false_eq_true, if_false, Option.isNone_some, Bool.false_and]

end

theorem echoPacket_eq : echoPacket s k h data =
    if msgOk (s.port k) k h data.length = true ∧ hdrMcode h = 5 then portMsg s k 5 data else malformed s k := by
  simp only [echoPacket, Bool.and_eq_true, beq_iff_eq]

end Responses

/-- Settles O51: each packet is taken in with its credits, then follows its checks and rules. -/
theorem portPackets : Obligations.PortPackets := by
  unfold Obligations.PortPackets
  intro s k h data hwf
  refine ⟨fun hr => ⟨?_, ?_, ?_, ?_, ?_⟩, fun hr => ⟨rfl, fun hd hbad => ?_, fun hbad => ?_, fun hbad => ?_,
    fun hok hwarm hno => ⟨fun ht hd => ?_, fun ht => ?_, fun ht => ?_⟩,
    fun hok hwarm horg hctx hdst => ⟨fun haddr ht => ?_, fun haddr => ⟨fun ht => ?_, fun ht hd => ?_, fun ht => ⟨fun st htr => ?_,
      fun pa htr hpage hreg => ⟨fun hf hm => ?_, fun hnot => ?_⟩⟩⟩⟩,
    fun hbad => ?_, fun ht hok => ⟨fun ha => ?_, fun f j ha ho hw => ?_⟩, fun hm hc => ?_, fun hm => ?_⟩⟩
  · exact congrArg Host.Outcome.next (onPort_of_stopped hr _)
  · exact congrArg Host.Outcome.next (onPort_of_stopped hr _)
  · exact congrArg Host.Outcome.next (onPort_of_stopped hr _)
  · exact congrArg Host.Outcome.next (onPort_of_stopped hr _)
  · exact congrArg Host.Outcome.next (onPort_of_stopped hr _)
  · subst hd
    exact congrArg Host.Outcome.next (onPort_of_running hr (requestPacket_malformed hbad))
  · exact congrArg Host.Outcome.next (onPort_of_running hr (requestPacket_malformed hbad))
  · exact congrArg Host.Outcome.next (onPort_of_running hr (requestPacket_malformed hbad))
  · subst hd
    exact congrArg Host.Outcome.next (onPort_of_running hr
      (requestPacket_notAllowed ht hok hwarm (by rwa [ctxAllowed_poolBack hwf])))
  · exact congrArg Host.Outcome.next (onPort_of_running hr
      (requestPacket_notAllowed ht hok hwarm (by rwa [ctxAllowed_poolBack hwf])))
  · exact congrArg Host.Outcome.next (onPort_of_running hr
      (requestPacket_notAllowed ht hok hwarm (by rwa [ctxAllowed_poolBack hwf])))
  · exact congrArg Host.Outcome.next (onPort_of_running hr
      ((requestPacket_own (s := poolBack s k h data.length) ht hok hwarm horg (by rwa [ctxAllowed_poolBack hwf]) hdst).trans (if_neg (Nat.not_lt.2 haddr))))
  · exact congrArg Host.Outcome.next (onPort_of_running hr
      ((requestPacket_own (s := poolBack s k h data.length) ht hok hwarm horg (by rwa [ctxAllowed_poolBack hwf]) hdst).trans (if_pos haddr)))
  · subst hd
    exact congrArg Host.Outcome.next (onPort_of_running hr
      ((requestPacket_own (s := poolBack s k h 0) (data := []) ht hok hwarm horg (by rwa [ctxAllowed_poolBack hwf]) hdst).trans (if_pos haddr)))
  · exact congrArg Host.Outcome.next (onPort_of_running hr
      (sigPacket_untranslated (s := poolBack s k h data.length) ht hok hwarm horg (by rwa [ctxAllowed_poolBack hwf]) hdst haddr htr))
  · exact congrArg Host.Outcome.next (onPort_of_running hr
      ((sigPacket_tally (s := poolBack s k h data.length) ht hok hwarm horg (by rwa [ctxAllowed_poolBack hwf]) hdst haddr htr hpage hreg).trans
        (arriveSig_applied (by rwa [firstHold_poolBack hwf]) (by rwa [stampMet_poolBack hwf]))))
  · exact congrArg Host.Outcome.next (onPort_of_running hr
      ((sigPacket_tally (s := poolBack s k h data.length) ht hok hwarm horg (by rwa [ctxAllowed_poolBack hwf]) hdst haddr htr hpage hreg).trans
        (arriveSig_held (by rwa [firstHold_poolBack hwf, stampMet_poolBack hwf]))))
  · exact congrArg Host.Outcome.next (onPort_of_running hr (rspPacket_malformed hbad))
  · exact congrArg Host.Outcome.next (onPort_of_running hr (rspPacket_unasked ht hok ha))
  · exact congrArg Host.Outcome.next (onPort_of_running hr (rspPacket_forwardedRead ht hok ha ho hw))
  · exact congrArg Host.Outcome.next (onPort_of_running hr (echoPacket_eq.trans (if_pos ⟨by rwa [msgOk_poolBack hwf], hc⟩)))
  · refine congrArg Host.Outcome.next (onPort_of_running hr (echoPacket_eq.trans (if_neg ?_)))
    rw [msgOk_poolBack hwf]
    rintro ⟨h1, h2⟩
    rcases hm with hm | hm
    · rw [hm] at h1
      cases h1
    · exact hm h2

end Sys2Proof.Machine
end

section
/-! SUPPORT. The host port: BAR0, MSI-X, the adit window, the link and its resets (R338 to R343, R451). -/

namespace Sys2Proof.Machine
open Sys2Proof.Claims

section Bars
variable {s : State}

theorem barServes_of_down (h : hostUp s = false) (n : Nat) : barServes s n = false := by rw [barServes, h, Bool.false_and]

theorem barServes_0 (h : hostUp s = true) (hb : s.host.cfg.bar0.isSome = true) : barServes s 0 = true := by
  rw [barServes, h, Bool.true_and]
  exact hb

theorem barServes_2 (h : hostUp s = true) (hb : s.host.cfg.bar2.isSome = true) : barServes s 2 = true := by
  rw [barServes, h, Bool.true_and]
  exact hb

theorem barServes_0_of_none (hb : s.host.cfg.bar0 = none) : barServes s 0 = false := by
  simp only [barServes, hb, if_true, Option.isSome_none, Bool.and_false]

theorem barServes_2_of_none (hb : s.host.cfg.bar2 = none) : barServes s 2 = false := by
  have h20 : ¬ (2 = 0) := by decide
  simp only [barServes, hb, h20, if_false, Option.isSome_none, Bool.and_false]

variable {off : BitVec 26} {len : BitVec 13} {tag : BitVec 10} {data : List Byte}

theorem hostRead_unserved (h : barServes s 0 = false) : Gives (.hostRead off len tag) s s :=
  congrArg Host.Outcome.next (if_neg (by rw [h]; exact Bool.false_ne_true))

theorem hostWrite_unserved (h : barServes s 0 = false) : Gives (.hostWrite off data) s s :=
  congrArg Host.Outcome.next (if_neg (by rw [h]; exact Bool.false_ne_true))

theorem aditAccess_unserved (h : barServes s 2 = false) (wr : Bool) (o : BitVec 24) : Gives (.aditAccess wr o len data tag) s s :=
  congrArg Host.Outcome.next (if_neg (by rw [h]; exact Bool.false_ne_true))

end Bars

section Bar0
variable {s : State} {off n : Nat} {tag : BitVec 10} {data : List Byte}

theorem hostRead_badLength (h : n = 0 ∨ 4096 < n) :
    hostRead s off n tag = (hostRefused s stOob off).emit (.hostCpl tag .unsupported []) := by
  refine (if_pos ?_).trans rfl
  simpa using h

theorem hostRead_page (h1 : 1 ≤ n) (h2 : n ≤ 4096) (h3 : off < 0x3000000) (h4 : off % 2 ^ 24 + n ≤ 2 ^ 24) :
    hostRead s off n tag = pageRequest s (.host tag) 0 false off (bar0Addr off) n [] := by
  have hlen : (decide (n = 0) || decide (4096 < n)) = false := by
    rw [decide_eq_false (by omega), decide_eq_false (by omega)]
    rfl
  exact (if_neg (by rw [hlen]; exact Bool.false_ne_true)).trans ((if_pos h3).trans (if_neg (Nat.not_lt.2 h4)))

theorem hostRead_pending : hostRead s 0x3001000 8 tag =
    s.emit (.hostCpl tag .good (sliceBytes (leBytes 8 s.host.msixPending.toNat) 0 8)) := rfl

theorem hostWrite_badLength (h : data = [] ∨ 4096 < data.length) : hostWrite s off data = hostRefused s stOob off := by
  refine (if_pos ?_).trans rfl
  simpa using h

theorem hostWrite_page (h1 : data ≠ []) (h2 : data.length ≤ 4096) (h3 : off < 0x3000000) (h4 : off % 2 ^ 24 + data.length ≤ 2 ^ 24) :
    hostWrite s off data = pageRequest s (.host 0) 0 true off (bar0Addr off) data.length data := by
  have hne : data.length ≠ 0 := fun h => h1 (List.length_eq_zero_iff.1 h)
  have hlen : (decide (data.length = 0) || decide (4096 < data.length)) = false := by
    rw [decide_eq_false hne, decide_eq_false (by omega)]
    rfl
  exact (if_neg (by rw [hlen]; exact Bool.false_ne_true)).trans ((if_pos h3).trans (if_neg (Nat.not_lt.2 h4)))

end Bar0

section Msix
variable {s : State} {v : Nat}

theorem sendPending_of_idle (h : bitAt s.host.msixPending v = false ∨ s.host.cfg.msixEnable = false) : sendPending s v = s := by
  refine if_neg ?_
  rcases h with h | h
  · rw [h, Bool.false_and, Bool.false_and]
    exact Bool.false_ne_true
  · rw [h, Bool.and_false]
    exact Bool.false_ne_true

theorem sendPending_of_pending (h : bitAt s.host.msixPending v = true) (he : s.host.cfg.msixEnable = true) (hm : msixMasked s v = false) :
    sendPending s v = hostMsix { s with host := { s.host with msixPending := setBit s.host.msixPending v false } } v :=
  if_pos (by rw [h, he, hm]; rfl)

/-- An entry put with its mask bit clear unmasks its vector. -/
theorem bitAt_unmasked (e : BitVec 128) : bitAt (setBit e 96 false) 96 = false := by
  rw [bitAt_eq_getLsbD, getLsbD_setBit_false _ (by decide)]
  simp

theorem msixMasked_of_empty (h : s.host.msixTable = []) (v : Nat) : msixMasked s v = true := by
  have hbit : bitAt msixReset 96 = true := by decide
  rw [msixMasked, h]
  exact hbit

end Msix

section Adit
variable {s : State} {o n : Nat} {data : List Byte} {tag : BitVec 10}

theorem aditAccess_closed (h : aditOpen s = false) : aditAccess s true o n data tag =
    hostRefused { s with host := { s.host with aditRefused := satInc s.host.aditRefused } } stMode o := by
  simp only [aditAccess, h, Bool.not_false, if_true]
  rfl

theorem aditAccess_open (h : aditOpen s = true) (h1 : 1 ≤ n) (h2 : n ≤ 4096) (h3 : o + n ≤ 2 ^ 24)
    (hr : (s.col (homeCol s.host.aditPage.toNat)).retired = false) (wr : Bool) : aditAccess s wr o n data tag =
      startXfer s (.host tag) 1 0 wr (BitVec.ofNat 64 o) (s.host.aditPage.toNat * 2 ^ 24 + o) n data := by
  have hlen : (decide (n = 0) || decide (4096 < n) || decide (2 ^ 24 < o + n)) = false := by
    rw [decide_eq_false (by omega), decide_eq_false (by omega), decide_eq_false (by omega)]
    rfl
  simp only [aditAccess, h, hlen, hr, Bool.not_true, Bool.false_eq_true, if_false]

end Adit

/-- A port reset with the link down leaves the record of a lost link as it was. -/
theorem hostPortReset_linkDown {s : State} (h : s.host.link = 0) : hostPortReset s .linkDown =
    { s with host := { s.host with msixTable := [], msixPending := 0, cfg := {}, link := 0 } } := by
  simp only [hostPortReset, h, ne_eq, not_true_eq_false, decide_false, Bool.or_false, if_true]

theorem hostPortReset_perstLow_of_down {s : State} (h : s.host.link = 0) : hostPortReset s .perstLow =
    { s with host := { s.host with msixTable := [], msixPending := 0, cfg := {}, link := 0, perst := true } } := by
  simp only [hostPortReset, h, ne_eq, not_true_eq_false, decide_false, Bool.or_false, if_true]

theorem hostPortReset_perstLow_of_up {s : State} (h : s.host.link ≠ 0) : hostPortReset s .perstLow = condStart
    { s with host := { s.host with msixTable := [], msixPending := 0, cfg := {}, link := 0, perst := true, lost := true } } 0xFF03 0 8 0 := by
  simp only [hostPortReset, h, ne_eq, not_false_eq_true, decide_true, Bool.or_true, if_false]

/-- Settles O52: who is served, and what each access and reset of the host port does. -/
theorem hostPortServes : Obligations.HostPortServes := by
  unfold Obligations.HostPortServes
  refine fun s off len tag data => ⟨fun h => ⟨?_, ?_, fun v => ?_, fun wr o => ?_⟩, fun h => ⟨?_, ?_⟩, fun h wr o => ?_,
    fun h hb => ⟨fun hn => ?_, fun h1 h2 h3 h4 => ?_, fun hn ho => ?_, fun hn => ?_, fun h1 h2 h3 h4 => ?_⟩,
    fun h v => ⟨fun hp => ?_, fun hp he hwf => ?_⟩, fun h hb => ⟨fun o ho => ?_, fun o ho h1 h2 h3 hr => ?_⟩,
    fun h full => ?_, fun h full => ?_, ?_, ?_, ?_, fun h => ?_, fun h => ?_, fun h => ?_, fun v hv => ?_⟩
  · exact hostRead_unserved (barServes_of_down h 0)
  · exact hostWrite_unserved (barServes_of_down h 0)
  · exact congrArg Host.Outcome.next (if_neg (by rw [h]; exact Bool.false_ne_true))
  · exact aditAccess_unserved (barServes_of_down h 2) wr o
  · exact hostRead_unserved (barServes_0_of_none h)
  · exact hostWrite_unserved (barServes_0_of_none h)
  · exact aditAccess_unserved (barServes_2_of_none h) wr o
  · exact congrArg Host.Outcome.next ((if_pos (barServes_0 h hb)).trans (hostRead_badLength hn))
  · exact congrArg Host.Outcome.next ((if_pos (barServes_0 h hb)).trans (hostRead_page h1 h2 h3 h4))
  · refine congrArg Host.Outcome.next ((if_pos (barServes_0 h hb)).trans ?_)
    rw [hn, ho]
    exact hostRead_pending
  · exact congrArg Host.Outcome.next ((if_pos (barServes_0 h hb)).trans (hostWrite_badLength hn))
  · exact congrArg Host.Outcome.next ((if_pos (barServes_0 h hb)).trans (hostWrite_page h1 h2 h3 h4))
  · exact congrArg Host.Outcome.next ((if_pos h).trans (sendPending_of_idle hp))
  · refine congrArg Host.Outcome.next ((if_pos h).trans (sendPending_of_pending hp he ?_))
    exact (congrArg (bitAt · 96) (tget_tset_same hwf v.val _)).trans (bitAt_unmasked _)
  · exact congrArg Host.Outcome.next ((if_pos (barServes_2 h hb)).trans (aditAccess_closed ho))
  · exact congrArg Host.Outcome.next ((if_pos (barServes_2 h hb)).trans (aditAccess_open ho h1 h2 h3 hr false))
  · exact congrArg Host.Outcome.next (if_pos h)
  · exact congrArg Host.Outcome.next (if_neg (by rw [h]; exact Bool.false_ne_true))
  · rfl
  · exact hostRead_unserved (barServes_0_of_none rfl)
  · exact hostWrite_unserved (barServes_0_of_none rfl)
  · exact congrArg Host.Outcome.next (hostPortReset_linkDown h)
  · exact congrArg Host.Outcome.next (hostPortReset_perstLow_of_down h)
  · exact congrArg Host.Outcome.next (hostPortReset_perstLow_of_up h)
  · exact msixMasked_of_empty rfl v

end Sys2Proof.Machine
end

section
/-! SUPPORT. The CAN node: NMT, heartbeat, TPDOs, EMCY and bus errors (R348, R349, R364, R365, R367, R369). -/

namespace Sys2Proof.Machine
open Sys2Proof.Claims

section Can
variable {s : State}

theorem canRuns_of_on (hon : d00On s = true) (h : s.can.busOff = false) : canRuns s = true := by
  rw [canRuns, hon, h]
  rfl

theorem canRuns_of_busOff (h : s.can.busOff = true) : canRuns s = false := by
  rw [canRuns, h]
  exact Bool.and_false _

theorem heartbeat_of_silent (h : canRuns s = false) : heartbeat s = s := by
  simp only [heartbeat, h, Bool.false_and, Bool.false_eq_true, if_false]

theorem heartbeat_of_early (h : s.can.comm.heartbeatMs.toNat = 0 ∨ s.now < s.can.hbLast + s.can.comm.heartbeatMs.toNat * 800000) :
    heartbeat s = s := by
  refine if_neg ?_
  rw [Bool.and_eq_true, Bool.and_eq_true, decide_eq_true_eq, decide_eq_true_eq]
  rintro ⟨⟨-, h0⟩, hd⟩
  rcases h with h | h
  · exact h0 h
  · exact Nat.not_le.2 h hd

theorem heartbeat_of_due (hr : canRuns s = true) (h0 : s.can.comm.heartbeatMs.toNat ≠ 0)
    (h : s.can.hbLast + s.can.comm.heartbeatMs.toNat * 800000 ≤ s.now) : heartbeat s =
      { s with can := { s.can with hbLast := s.now } }.emit (.can (0x700 + s.can.nodeId) [nmtCode s.can.nmt]) := by
  refine if_pos ?_
  rw [hr, decide_eq_true h0, Bool.true_and, Bool.true_and]
  exact decide_eq_true h

theorem busOffRecovered_of_on (h : s.can.busOff = false) : busOffRecovered s = s := by
  simp only [busOffRecovered, h, Bool.and_false, Bool.false_eq_true, if_false]

theorem busOffRecovered_of_busOff (hon : d00On s = true) (h : s.can.busOff = true) :
    busOffRecovered s = raiseEmcy { s with can := { s.can with busOff := false } } 0x8140 6 s.can.busOffs.toNat :=
  if_pos (by rw [hon, h]; rfl)

theorem errorPassive_enter (hon : d00On s = true) :
    errorPassive s true = condStart { s with can := { s.can with errorPassive := true } } 0x8120 0 6 0 := if_pos hon

theorem errorPassive_leave (hon : d00On s = true) :
    errorPassive s false = condEnd { s with can := { s.can with errorPassive := false } } 0x8120 0 := if_pos hon

section Tpdo
variable {t : Nat}

theorem tpdoTimer_of_off
    (h : s.can.nmt ≠ .operational ∨ bitAt (tget 0 s.can.comm.tpdoCob t) 31 = true ∨ tget 0 s.can.comm.tpdoTimer t = 0) :
    tpdoTimer s t = s := by
  refine if_neg ?_
  simp only [Bool.and_eq_true, decide_eq_true_eq, Bool.not_eq_true']
  rintro ⟨⟨⟨⟨⟨-, hn⟩, hc⟩, ht⟩, -⟩, -⟩
  rcases h with h | h | h
  · exact h hn
  · rw [h] at hc
    cases hc
  · exact ht (by rw [h]; rfl)

theorem tpdoTimer_of_due (hn : s.can.nmt = .operational) (hc : bitAt (tget 0 s.can.comm.tpdoCob t) 31 = false)
    (ht : tget 0 s.can.comm.tpdoTimer t ≠ 0) (hr : canRuns s = true) (hh : headframeServes s = true)
    (hd : tget 0 s.can.tpdoLast t + (tget 0 s.can.comm.tpdoTimer t).toNat * 800000 ≤ s.now)
    (hi : tget 0 s.can.tpdoLast t + inhibitCycles (tget 0 s.can.comm.tpdoInhibit t) ≤ s.now) : tpdoTimer s t =
      { s with can := { s.can with tpdoLast := tset 0 s.can.tpdoLast t s.now } }.emit
        (.can (bitsAt (tget 0 s.can.comm.tpdoCob t) 28 0) (tpdoBytes s t)) := by
  refine if_pos ?_
  simp only [Bool.and_eq_true, decide_eq_true_eq, Bool.not_eq_true']
  exact ⟨⟨⟨⟨⟨⟨hh, hr⟩, hn⟩, hc⟩, fun h => ht (BitVec.eq_of_toNat_eq h)⟩, hd⟩, hi⟩

end Tpdo

theorem emcySend_of_empty (h : s.can.emcyQueue = []) : emcySend s = s := by
  unfold emcySend
  simp only [h]

theorem emcySend_of_first {m : Emcy} {rest : List Emcy} (h : s.can.emcyQueue = m :: rest) (hc : bitAt s.can.comm.emcyCob 31 = false)
    (hh : headframeServes s = true) (hr : canRuns s = true) (hn : s.can.nmt ≠ .stopped) (hl : s.can.emcyLast = none)
    (ho : s.can.emcyOwed = false) : emcySend s =
      { s with can := { s.can with emcyQueue := rest, emcyLast := some s.now } }.emit (.can (bitsAt s.can.comm.emcyCob 28 0) (emcyBytes m)) := by
  unfold emcySend
  simp only [h, hc, hh, hr, hn, hl, ne_eq, not_false_eq_true, decide_true, Bool.and_self, Bool.false_eq_true, if_false, if_true]
  exact if_neg (by rw [show _ = s.can.emcyOwed from rfl, ho]; exact Bool.false_ne_true)

end Can

/-- Settles O53: each event of the node acts while the node runs, under its condition. -/
theorem canNodeRuns : Obligations.CanNodeRuns := by
  unfold Obligations.CanNodeRuns
  refine fun s hon => ⟨fun hb => ?_, fun hb => ?_, congrArg Host.Outcome.next (errorPassive_enter hon),
    congrArg Host.Outcome.next (errorPassive_leave hon), fun t => ⟨fun h => ?_, fun hn hc ht hb hh hd hi => ?_⟩, fun h => ?_,
    fun m rest h hc hh hb hn hl ho => ?_⟩
  · have hr := canRuns_of_on hon hb
    refine ⟨congrArg Host.Outcome.next (if_pos hr), congrArg Host.Outcome.next (if_pos hr), congrArg Host.Outcome.next (if_pos hr),
      ⟨congrArg Host.Outcome.next (if_pos hr), congrArg Host.Outcome.next (if_pos hr)⟩, ⟨fun h => ?_, fun h0 h => ?_⟩,
      congrArg Host.Outcome.next (if_pos hr), congrArg Host.Outcome.next (busOffRecovered_of_on hb)⟩
    · exact congrArg Host.Outcome.next (heartbeat_of_early h)
    · refine congrArg Host.Outcome.next ((heartbeat_of_due hr h0 h).trans ?_)
      cases s.can.nmt <;> rfl
  · have hr : ¬ canRuns s = true := by
      rw [canRuns_of_busOff hb]
      exact Bool.false_ne_true
    exact ⟨congrArg Host.Outcome.next (if_neg hr), congrArg Host.Outcome.next (if_neg hr), congrArg Host.Outcome.next (if_neg hr),
      congrArg Host.Outcome.next (heartbeat_of_silent (canRuns_of_busOff hb)), congrArg Host.Outcome.next (if_neg hr),
      congrArg Host.Outcome.next (busOffRecovered_of_busOff hon hb)⟩
  · exact congrArg Host.Outcome.next (tpdoTimer_of_off h)
  · exact congrArg Host.Outcome.next (tpdoTimer_of_due hn hc ht (canRuns_of_on hon hb) hh hd hi)
  · exact congrArg Host.Outcome.next (emcySend_of_empty h)
  · exact congrArg Host.Outcome.next (emcySend_of_first h hc hh (canRuns_of_on hon hb) hn hl ho)

end Sys2Proof.Machine
end

section
/-! SUPPORT. USDO transfers, the error list and the mailboxes (R350, R354, R355, R359 to R361, R363). -/

namespace Sys2Proof.Machine
open Sys2Proof.Claims

section Usdo
variable {s t : State} {idx : W16} {sb : Byte} {data : List Byte} {x : UsdoXfer}

theorem usdoOpen_of_serve {wr : Bool} (h : dictOpen s .can idx sb wr = .serve t) (f : State → State) : usdoOpen s idx sb wr f = f t := by
  simp only [usdoOpen, h]

theorem opens_can_of_transfer (hx : s.can.usdo.isSome = true) (hu : usdoServes s = true) (hl : s.life.state ≠ 0)
    (hh : headframeServes s = true) :
    Opens s { s with can := { s.can with usdo := none, usdoHeld := none, usdoAborts := satInc s.can.usdoAborts } } .can idx sb := by
  have hl' : ¬ s.life.state = 0 := hl
  simp only [Opens, dictOpen, hu, hl', hh, usdoNew, hx, Bool.not_true, Bool.false_or, decide_false, Bool.true_or, Bool.false_eq_true, if_false,
    if_true]

section Goes
variable (hx : s.can.usdo = some x) (hu : usdoServes s = true) (hd : d00On s = true) (hi : x.idx = idx) (hs : x.sb = sb)
include hx hu hd hi hs

theorem usdoGoes_of_same : usdoGoes s x.upload idx sb = some x := by
  simp only [usdoGoes, hx, hu, hd, hi, hs, beq_self_eq_true, Bool.and_self, Option.filter_some, if_true]

theorem usdoDownload_next (hup : x.upload = false) : usdoDownload s idx sb .next data =
    { s with can := { s.can with usdo := some { x with data := x.data ++ data, since := s.now } } }.emit (.usdo (usdoCob s) 0 []) := by
  have hg := hup ▸ usdoGoes_of_same hx hu hd hi hs
  simp only [usdoDownload, hg]
  rfl

theorem usdoDownload_last (hup : x.upload = false) : usdoDownload s idx sb .last data =
    serveWrite { s with can := { s.can with usdo := none } } .can idx.toNat sb.toNat 0 (x.data ++ data) false := by
  have hg := hup ▸ usdoGoes_of_same hx hu hd hi hs
  simp only [usdoDownload, hg, usdoEnd]

theorem usdoUpload_last (hup : x.upload = true) : usdoUpload s idx sb .last =
    { s with can := { s.can with usdo := none } }.emit (.usdo (usdoCob s) 0 x.data) := by
  have hg := hup ▸ usdoGoes_of_same hx hu hd hi hs
  simp only [usdoUpload, hg]
  rfl

end Goes

theorem usdoTimeout_of_early (hx : s.can.usdo = some x) (h : s.now < x.since + 800000000) : usdoTimeout s = s := by
  unfold usdoTimeout
  rw [hx]
  exact if_neg (Nat.not_le.2 h)

theorem usdoTimeout_of_late (hx : s.can.usdo = some x) (h : x.since + 800000000 ≤ s.now) (hu : usdoServes s = true) (hd : d00On s = true) :
    usdoTimeout s = { s with can := { s.can with usdo := none, usdoAborts := satInc s.can.usdoAborts } }.emit
      (.usdo (usdoCob s) 0x05040000 []) := by
  unfold usdoTimeout
  rw [hx]
  exact (if_pos h).trans (if_pos (by rw [hu, hd]; rfl))

end Usdo

section Mailboxes
variable {s : State} {m : Fin 16} {cmd : W64}

theorem State.setBox_setBox (h : tabWf ({} : Mailbox) s.can.boxes = true) (i : Nat) (b b' : Mailbox) :
    (s.setBox i b).setBox i b' = s.setBox i b' := by
  simp only [State.setBox, tset_tset_same h]

variable (hon : headframeOn s = true)
include hon

theorem mailboxAccess_of_pending (hp : (s.box m.val).pend = true) (cmd : W64) :
    mailboxAccess s m cmd = { s with can := { s.can with mirrorDropped := satInc s.can.mirrorDropped } } := by
  simp only [mailboxAccess, hon, hp, Bool.not_true, Bool.false_eq_true, if_false, if_true]

section Free
variable (hp : (s.box m.val).pend = false)
include hp

theorem mailboxAccess_of_free : mailboxAccess s m cmd =
    if mailboxServes s then serveWaiting (mailPut (s.setBox m.val (mailCommand (s.box m.val) cmd)) m.val 0)
    else mailPut (s.setBox m.val (mailCommand (s.box m.val) cmd)) m.val 0 := by
  simp only [mailboxAccess, hon, hp, Bool.not_true, Bool.false_eq_true, if_false]
  rfl

/-- With no other mailbox waiting a command is served at once. -/
theorem mailboxAccess_of_alone (hwf : tabWf ({} : Mailbox) s.can.boxes = true) (hs : mailboxServes s = true) (hm : s.can.mail = []) :
    mailboxAccess s m cmd = serveMailbox (s.setBox m.val (mailCommand (s.box m.val) cmd)) m := by
  have hbox := State.box_setBox_same hwf m.val (mailCommand (s.box m.val) cmd)
  rw [mailboxAccess_of_free hon hp, if_pos hs]
  have hput : ({ mailPut (s.setBox m.val (mailCommand (s.box m.val) cmd)) m.val 0 with
      can := { (mailPut (s.setBox m.val (mailCommand (s.box m.val) cmd)) m.val 0).can with mail := [] } } : State) =
      s.setBox m.val (mailCommand (s.box m.val) cmd) := by
    simp only [mailPut, State.setBox, ← hm]
  have hlist : (mailPut (s.setBox m.val (mailCommand (s.box m.val) cmd)) m.val 0).can.mail = [{ box := m.val, at_ := s.now, via := 0 }] := by
    have hm' : (s.setBox m.val (mailCommand (s.box m.val) cmd)).can.mail = [] := hm
    simp only [mailPut, hm', List.takeWhile_nil, List.dropWhile_nil, List.nil_append]
    rfl
  have hserves : mailboxServes (s.setBox m.val (mailCommand (s.box m.val) cmd)) = true := hs
  have hfin : Fin.ofNat 16 m.val = m := Fin.ext (Nat.mod_eq_of_lt m.isLt)
  have hpend : (mailCommand (s.box m.val) cmd).pend = true := rfl
  have htaken : (mailCommand (s.box m.val) cmd).taken = false := rfl
  rw [serveWaiting, hput, hlist]
  simp only [List.foldl_cons, List.foldl_nil, hserves, hbox, hpend, htaken, Bool.not_false, Bool.and_self, if_true, hfin]

end Free
end Mailboxes

section ServeMailbox
variable {s : State} {m : Fin 16} {b : Mailbox} (hwf : tabWf ({} : Mailbox) s.can.boxes = true)
include hwf

theorem serveMailbox_read (hop : bitsAt b.cmd 7 0 = 1) {t : State} (ht : s.setBox m.val { b with taken := true } = t)
    {r : Byte × W32 × List Byte}
    (hr : readObject t (bitsAt b.cmd 31 16) (bitsAt b.cmd 15 8) b.doff.toNat (bitsAt b.cmd 47 32) true = r) :
    serveMailbox (s.setBox m.val b) m = dictReply t (.mbox m) r.1 r.2.1 r.2.2 := by
  have h12 : ¬ (1 = 2) := by decide
  subst ht hr
  simp only [serveMailbox, State.box_setBox_same hwf, State.setBox_setBox hwf, hop, h12, if_false, if_true]

theorem serveMailbox_write (hop : bitsAt b.cmd 7 0 = 2) : serveMailbox (s.setBox m.val b) m =
    serveWrite (s.setBox m.val { b with taken := true }) (.mbox m) (bitsAt b.cmd 31 16) (bitsAt b.cmd 15 8) b.doff.toNat
      (areaBytes b 0 (bitsAt b.cmd 47 32)) true := by
  simp only [serveMailbox, State.box_setBox_same hwf, State.setBox_setBox hwf, hop, if_true]

end ServeMailbox

/-- Settles O54: transfers by their parts, and a mailbox's command by its turn. -/
theorem usdoAndMailboxesServe : Obligations.UsdoAndMailboxesServe := by
  unfold Obligations.UsdoAndMailboxesServe
  refine fun s idx sb data => ⟨fun ho _ _ => ⟨fun hr => ?_, ?_, ?_⟩, opens_can_of_transfer,
    fun x hx hu hd hi hs => ⟨fun hup => ⟨?_, ?_⟩, fun hup => ?_⟩, fun x hx => ⟨fun h => ?_, fun h hu hd => ?_⟩,
    fun p v u ho => ⟨fun hv => ?_, fun hv => ?_⟩,
    fun m cmd hon => ⟨fun hp => ⟨?_, ?_⟩, fun hp hwf => ⟨fun hs => ⟨?_, ?_⟩, fun hs hm => ⟨fun hop => ?_, fun hop => ?_⟩⟩⟩⟩
  · exact congrArg Host.Outcome.next (usdoOpen_of_serve hr _)
  · exact congrArg Host.Outcome.next (usdoOpen_of_serve ho _)
  · exact congrArg Host.Outcome.next (usdoOpen_of_serve ho _)
  · exact congrArg Host.Outcome.next (usdoDownload_next hx hu hd hi hs hup)
  · exact congrArg Host.Outcome.next (usdoDownload_last hx hu hd hi hs hup)
  · exact congrArg Host.Outcome.next (usdoUpload_last hx hu hd hi hs hup)
  · exact congrArg Host.Outcome.next (usdoTimeout_of_early hx h)
  · exact congrArg Host.Outcome.next (usdoTimeout_of_late hx h hu hd)
  · subst hv
    exact answers_of_dictRow1 rfl ho rfl
  · have hv' : v.toNat ≠ 0 := fun h => hv (BitVec.eq_of_toNat_eq h)
    exact answers_of_dictRow1 rfl ho (by simp only [errorCount, ranged, beq_eq_false_iff_ne.2 hv', Bool.false_eq_true, if_false])
  · exact congrArg Host.Outcome.next (mailboxAccess_of_pending hon hp cmd)
  · exact congrArg Host.Outcome.next (mailboxAccess_of_pending hon hp cmd)
  · exact congrArg Host.Outcome.next ((mailboxAccess_of_free hon hp).trans (if_neg (by rw [hs]; exact Bool.false_ne_true)))
  · exact congrArg Host.Outcome.next ((mailboxAccess_of_free hon hp).trans (if_neg (by rw [hs]; exact Bool.false_ne_true)))
  · exact congrArg Host.Outcome.next ((mailboxAccess_of_alone hon hp hwf hs hm).trans (serveMailbox_read hwf hop rfl rfl))
  · exact congrArg Host.Outcome.next ((mailboxAccess_of_alone hon hp hwf hs hm).trans (serveMailbox_write hwf hop))

end Sys2Proof.Machine
end

section
/-! SUPPORT. Life states, bring-up and resets (R371, R376, R378, R382 to R386, R448). -/

namespace Sys2Proof.Machine
open Sys2Proof.Claims

section RowThen
variable {s u : State} {p : DictPath} {idx : W16} {sb : Byte} {c : Instr} {w : List Byte} {check : State → Byte} {act : State → State}

/-- A write whose effect follows its response is refused by its check. -/
theorem answers_of_dictRowThen (hc : exec c s = .next (dictRowThen s p idx sb w check act)) (h : Opens s u p idx sb) {st : Byte}
    (hst : check u = st) (hne : st ≠ stOk) : Answers c s u p st := by
  unfold Opens at h
  rw [Answers, hc]
  simp only [dictRowThen, h, hst, hne, if_false]

/-- It passes its check: the response, then the effect. -/
theorem gives_of_dictRowThen (hc : exec c s = .next (dictRowThen s p idx sb w check act)) (h : Opens s u p idx sb)
    (hst : check u = stOk) : Gives c s (act (dictReply u p stOk 0 [])) := by
  unfold Opens at h
  rw [Gives, hc]
  simp only [dictRowThen, h, hst, if_true]
  rfl

end RowThen

section StateReq
variable {u : State}

theorem stateReq_quiesce : stateReq u 6 =
    if u.life.state = 4 ∨ u.life.state = 5 ∨ u.life.state = 3 then (lifeTo u 6, stOk) else (u, stMode) := by
  by_cases h : u.life.state = 4 ∨ u.life.state = 5 ∨ u.life.state = 3
  · have hst : stateReqStatus u 6 = stOk := if_pos (by simpa [or_assoc] using h)
    rw [if_pos h, stateReq, hst]
    rfl
  · have hst : stateReqStatus u 6 = stMode := if_neg (by simpa [or_assoc] using h)
    rw [if_neg h, stateReq, hst]
    rfl

theorem stateReq_service : stateReq u 4 =
    if u.life.state = 6 ∨ u.life.state = 3 then (lifeTo u (serviceState u), stOk) else (u, stMode) := by
  by_cases h : u.life.state = 6 ∨ u.life.state = 3
  · have hst : stateReqStatus u 4 = stOk := if_pos (by simpa using h)
    rw [if_pos h, stateReq, hst]
    rfl
  · have hst : stateReqStatus u 4 = stMode := if_neg (by simpa using h)
    rw [if_neg h, stateReq, hst]
    rfl

theorem stateReq_maintenance_of_quiesced (h : u.life.state = 6) : stateReq u 3 =
    if stepsActive u = 0 then (lifeTo u 3, stOk) else (u, stBusy) := by
  by_cases hs : stepsActive u = 0
  · have hst : stateReqStatus u 3 = stOk := (if_pos h).trans (if_pos hs)
    rw [if_pos hs, stateReq, hst]
    rfl
  · have hst : stateReqStatus u 3 = stBusy := (if_pos h).trans (if_neg hs)
    rw [if_neg hs, stateReq, hst]
    rfl

theorem stateReq_maintenance_refused (h : u.life.state ≠ 6) : stateReq u 3 = (u, stMode) := by
  have hst : stateReqStatus u 3 = stMode := if_neg h
  rw [stateReq, hst]
  rfl

end StateReq

section BuRun
variable {u : State} {n : Nat}

theorem buRunStatus_of_outside (h : n = 0 ∨ 11 < n) : buRunStatus u n = stOob := if_pos (by simpa using h)

theorem buRunStatus_of_inside (h1 : 1 ≤ n) (h2 : n ≤ 11) : buRunStatus u n =
    if u.life.state ≠ 1 ∧ u.life.state ≠ 2 then stMode else if u.life.running.isSome then stBusy else stOk := by
  have hin : (decide (n = 0) || decide (11 < n)) = false := by
    rw [decide_eq_false (by omega), decide_eq_false (by omega)]
    rfl
  simp only [buRunStatus, hin, Bool.false_eq_true, if_false, Bool.and_eq_true, decide_eq_true_eq]

theorem buRunAct_of_none (e : BringupEnv) (h : n ≤ u.life.buLast.toNat ∨ u.life.warm.isSome = true ∨ u.life.cold.isSome = true) :
    buRunAct e n u = u := if_pos (by simpa [or_assoc] using h)

theorem bringupTimeout_of_running {s : State} {r : BuRunning} (h : s.life.running = some r) : bringupTimeout s =
    if r.since + stepLimit s r.step * 800 ≤ s.now then stepLate s r.step else s := by
  simp only [bringupTimeout, h]

theorem stepLate_eq (s : State) (n : Nat) : stepLate s n =
    if n = 1 ∨ n = 3 ∨ n = 4 then
      lifeFatal (runOver (putStep s n { state := stepFailed, status := stTimeout, us := BitVec.ofNat 32 (stepLimit s n) }))
    else runOver (putStep s n { state := stepFailed, status := stTimeout, us := BitVec.ofNat 32 (stepLimit s n) }) := by
  simp only [stepLate, Bool.or_eq_true, decide_eq_true_eq, or_assoc]

end BuRun

/-- Settles O55: the requests by the life state that they meet, and a run of bring-up by its checks. -/
theorem lifeStatesAndBringup : Obligations.LifeStatesAndBringup := by
  unfold Obligations.LifeStatesAndBringup
  refine fun s p n env u => ⟨fun ho => ⟨fun h => ?_, fun h3 h4 h5 => ?_, fun h => ?_, fun h6 h3 => ?_, fun h hs => ?_, fun h hs => ?_,
    fun h => ?_⟩, fun ho => ⟨fun h => ?_, fun h1 h2 hs1 hs2 => ?_, fun h1 h2 hst => ⟨fun hr => ?_, fun hr => ?_⟩⟩,
    fun r hr => ⟨fun h => ?_, fun h => ⟨fun h1 h3 h4 => ?_, fun hn => ?_⟩⟩⟩
  · exact answers_of_dictRow1 rfl ho (stateReq_quiesce.trans (if_pos (or_assoc.1 h.symm)))
  · exact answers_of_dictRow1 rfl ho (stateReq_quiesce.trans (if_neg (not_or.2 ⟨h4, not_or.2 ⟨h5, h3⟩⟩)))
  · exact answers_of_dictRow1 rfl ho (stateReq_service.trans (if_pos h))
  · exact answers_of_dictRow1 rfl ho (stateReq_service.trans (if_neg (not_or.2 ⟨h6, h3⟩)))
  · exact answers_of_dictRow1 rfl ho ((stateReq_maintenance_of_quiesced h).trans (if_pos hs))
  · exact answers_of_dictRow1 rfl ho ((stateReq_maintenance_of_quiesced h).trans (if_neg hs))
  · exact answers_of_dictRow1 rfl ho (stateReq_maintenance_refused h)
  · have h' : n.toNat = 0 ∨ 11 < n.toNat := h.imp_left fun h => by rw [h]; rfl
    exact answers_of_dictRowThen rfl ho (buRunStatus_of_outside h') (by decide)
  · exact answers_of_dictRowThen rfl ho ((buRunStatus_of_inside h1 h2).trans (if_pos ⟨hs1, hs2⟩)) (by decide)
  · exact answers_of_dictRowThen rfl ho ((buRunStatus_of_inside h1 h2).trans ((if_neg fun ⟨h1, h2⟩ => hst.elim h1 h2).trans (if_pos hr))) (by decide)
  · have hst : buRunStatus u n.toNat = stOk :=
      (buRunStatus_of_inside h1 h2).trans ((if_neg fun ⟨h1, h2⟩ => hst.elim h1 h2).trans (if_neg (by rw [hr]; exact Bool.false_ne_true)))
    have hrun : Gives (.buRun p n env) s (buRunAct env n.toNat (dictReply u p stOk 0 [])) := gives_of_dictRowThen rfl ho hst
    exact ⟨hrun, fun h => buRunAct_of_none env h ▸ hrun⟩
  · exact congrArg Host.Outcome.next ((bringupTimeout_of_running hr).trans (if_neg (Nat.not_le.2 h)))
  · exact congrArg Host.Outcome.next ((bringupTimeout_of_running hr).trans ((if_pos h).trans ((stepLate_eq s r.step).trans
      (if_neg (not_or.2 ⟨h1, not_or.2 ⟨h3, h4⟩⟩)))))
  · exact congrArg Host.Outcome.next ((bringupTimeout_of_running hr).trans ((if_pos h).trans ((stepLate_eq s r.step).trans (if_pos hn))))

section FaceReset
variable {u : State} {f : Nat} (hf : f < 52)
include hf

theorem faceResetStatus_eq : faceResetStatus u f =
    if !lightResetState u then stMode
    else if (u.face f).logical.isNone || (u.face f).fenced then stFenced
    else if 1 ≤ resetRank u then stBusy
    else if u.life.running.isSome then stBusy
    else stOk := if_neg (by omega)

theorem toNat_ofNat_face : (BitVec.ofNat 8 f).toNat = f := by
  rw [BitVec.toNat_ofNat]
  omega

end FaceReset

section ResetReq
variable {u : State}

theorem resetReqStatus_compute : resetReqStatus u 1 =
    if !lightResetState u then stMode
    else if 2 ≤ resetRank u then stBusy
    else if u.life.running.isSome then stBusy
    else stOk := by
  cases h : lightResetState u <;> simp [resetReqStatus, h]

/-- A warm (2) or cold (3) reset is MODE in OFF and STANDBY. -/
theorem resetReqStatus_full_of_standby {v : Nat} (hv : v = 2 ∨ v = 3) (h : u.life.state = 1) : resetReqStatus u v = stMode := by
  rcases hv with rfl | rfl <;> simp [resetReqStatus, h]

theorem resetReqStatus_full {v : Nat} (hv : v = 2 ∨ v = 3) (h0 : u.life.state ≠ 0) (h1 : u.life.state ≠ 1) (hfw : u.trust.fwState ≠ 5) :
    resetReqStatus u v = if v + 1 ≤ resetRank u then stBusy else stOk := by
  have h0' : ¬ u.life.state = 0#8 := h0
  have h1' : ¬ u.life.state = 1#8 := h1
  have hfw' : ¬ u.trust.fwState = 5#8 := hfw
  rcases hv with rfl | rfl <;> simp [resetReqStatus, h0', h1', hfw']

end ResetReq

/-- In STANDBY the D00 responder takes no reset over CAN: it refuses with MODE. -/
theorem dictOpen_reset_of_standby {s : State} (hst : s.life.state = 1) (hu : usdoServes s = true) :
    dictOpen s .can 0x2100 5 true = .refuse stMode 0x08000022 (usdoNew s) := by
  have hh : headframeServes s = false := by simp [headframeServes, headframeOn, hst]
  have hd : d00Serves 0x2100 5 true = false := by decide
  simp only [dictOpen, hu, hst, hh, hd]
  rfl

theorem faceResetDone_of_free {s : State} {f : Nat} (hr : (s.face f).resetting = true) (hj : faceJob s f = false) :
    faceResetDone s f = s.setFace f { s.face f with resetting := false } := if_pos (by rw [hr, hj]; rfl)

theorem faceResetDone_of_idle {s : State} {f : Nat} (hr : (s.face f).resetting = false) : faceResetDone s f = s :=
  if_neg (by rw [hr]; exact Bool.false_ne_true)

theorem warmResetDrainEnd_of_warm {s : State} {a : Nat} (h : s.life.warm = some a) :
    warmResetDrainEnd s = if drained s a then warmCleared (drainTimeouts s) else s := by
  simp only [warmResetDrainEnd, h]

theorem drained_of_time {s : State} {a : Nat} (h : a + 800000 ≤ s.now) : drained s a = true := by
  rw [drained, decide_eq_true (show a + msCycles ≤ s.now from h), Bool.true_or]

theorem drained_of_xfers {s : State} {a : Nat} (h : s.now < a + 800000) (hx : s.xfers ≠ []) : drained s a = false := by
  rw [drained, decide_eq_false (show ¬ a + msCycles ≤ s.now from Nat.not_le.2 h), decide_eq_false hx]
  rfl

theorem coldResetOffEnd_of_early {s : State} {a : Nat} (h : s.life.cold = some a) (hn : s.now < a + 8000000) :
    coldResetOffEnd s = s := by
  unfold coldResetOffEnd
  rw [h]
  exact if_neg (Nat.not_le.2 hn)

theorem coldResetOffEnd_of_late {s : State} {a : Nat} (h : s.life.cold = some a) (hn : a + 8000000 ≤ s.now) : coldResetOffEnd s =
    bootUp (logLife
      { s with
        life := { s.life with state := lifeStandby, cold := none, resetCause := 2 },
        can := { s.can with rateNominal := s.can.canNominal, rateData := s.can.canData } } s.life.state lifeStandby 4) := by
  unfold coldResetOffEnd
  rw [h]
  exact if_pos hn

/-- What a life record leaves alone. -/
theorem logLife_eq (s : State) (old new : Byte) (kind : Nat) : logLife s old new kind = { s with log := (logLife s old new kind).log } :=
  logPut_eq s _

theorem d00Start_of_off {s : State} (h : s.life.state = 0) (node : BitVec 6) :
    (d00Start s node).life.state = 1 ∧ (d00Start s node).can.nodeId = node.toNat + 1 ∧ (d00Start s node).can.nmt = .preOperational ∧
      (d00Start s node).out = s.out ++ [.can (0x701 + node.toNat) [0]] := by
  have hid : 0x700 + (node.toNat + 1) = 0x701 + node.toNat := by omega
  rw [d00Start, if_pos h]
  simp only [bootUp, State.emit]
  rw [logLife_eq]
  simp only [hid, and_self]

/-- Settles O56: each reset by its checks and its end, and the start of D00. -/
theorem resetsRun : Obligations.ResetsRun := by
  unfold Obligations.ResetsRun
  refine fun s p f u => ⟨fun ho => ⟨fun hl => ?_, fun hl => ⟨fun hf => ?_, fun hlog hfe => ⟨fun hr => ?_, fun hr hrun => ?_⟩⟩⟩,
    fun ho => ⟨fun hl => ?_, fun hl hr => ?_, fun hl hr hrun => ?_, fun h0 h1 hfw => ⟨fun hr => ?_, fun hr => ?_, fun hr => ?_⟩⟩,
    fun hst hu => ⟨?_, ?_⟩, fun hr hj => ?_, fun hr => ?_, fun h => ?_, fun h => ?_, fun a h => ⟨fun hn => ?_, fun hn hx => ?_⟩,
    fun a h => ⟨fun hn => ?_, fun hn => ?_⟩, ⟨_, rfl, rfl, rfl, rfl, rfl, rfl, rfl, rfl, rfl, rfl⟩,
    fun h node => ⟨_, rfl, d00Start_of_off h node⟩, fun h node => ?_⟩
  · refine answers_of_dictRowThen rfl ho (st := stMode) ?_ (by decide)
    rw [toNat_ofNat_face f.isLt, faceResetStatus_eq f.isLt, hl]
    rfl
  · refine answers_of_dictRowThen rfl ho (st := stFenced) ?_ (by decide)
    rw [toNat_ofNat_face f.isLt, faceResetStatus_eq f.isLt, hl]
    exact (if_neg Bool.false_ne_true).trans (if_pos (by simpa using hf))
  · refine answers_of_dictRowThen rfl ho (st := stBusy) ?_ (by decide)
    rw [toNat_ofNat_face f.isLt, faceResetStatus_eq f.isLt, hl, Option.isNone_eq_false_iff.2 hlog, hfe]
    exact if_pos hr
  · have hst : faceResetStatus u (BitVec.ofNat 8 f.val).toNat = stOk := by
      rw [toNat_ofNat_face f.isLt, faceResetStatus_eq f.isLt, hl, Option.isNone_eq_false_iff.2 hlog, hfe, hr, hrun]
      rfl
    have hg := gives_of_dictRowThen (c := .faceReset p (BitVec.ofNat 8 f.val)) rfl ho hst
    rwa [toNat_ofNat_face f.isLt] at hg
  · exact answers_of_dictRowThen rfl ho (resetReqStatus_compute.trans (if_pos (by rw [hl]; rfl))) (by decide)
  · exact answers_of_dictRowThen rfl ho (resetReqStatus_compute.trans
      ((if_neg (by rw [hl]; exact Bool.false_ne_true)).trans (if_pos hr))) (by decide)
  · exact gives_of_dictRowThen rfl ho (resetReqStatus_compute.trans ((if_neg (by rw [hl]; exact Bool.false_ne_true)).trans
      ((if_neg (by omega)).trans (if_neg (by rw [hrun]; exact Bool.false_ne_true)))))
  · exact answers_of_dictRowThen rfl ho ((resetReqStatus_full (.inl rfl) h0 h1 hfw).trans (if_pos hr)) (by decide)
  · exact gives_of_dictRowThen rfl ho ((resetReqStatus_full (.inl rfl) h0 h1 hfw).trans (if_neg (by omega)))
  · exact gives_of_dictRowThen rfl ho ((resetReqStatus_full (.inr rfl) h0 h1 hfw).trans (if_neg (by omega)))
  · exact congrArg Host.Outcome.next (by simp only [dictRowThen, dictOpen_reset_of_standby hst hu]; rfl)
  · exact congrArg Host.Outcome.next (by simp only [dictRowThen, dictOpen_reset_of_standby hst hu]; rfl)
  · exact congrArg Host.Outcome.next (faceResetDone_of_free hr hj)
  · exact congrArg Host.Outcome.next (faceResetDone_of_idle hr)
  · exact congrArg Host.Outcome.next (if_pos h)
  · exact congrArg Host.Outcome.next (if_neg (by rw [h]; exact Bool.false_ne_true))
  · exact congrArg Host.Outcome.next ((warmResetDrainEnd_of_warm h).trans (if_pos (drained_of_time hn)))
  · exact congrArg Host.Outcome.next ((warmResetDrainEnd_of_warm h).trans
      (if_neg (by rw [drained_of_xfers hn hx]; exact Bool.false_ne_true)))
  · exact congrArg Host.Outcome.next (coldResetOffEnd_of_early h hn)
  · exact congrArg Host.Outcome.next (coldResetOffEnd_of_late h hn)
  · exact congrArg Host.Outcome.next (if_neg h)

end Sys2Proof.Machine
end

section
/-! SUPPORT. Firmware images, licences and attestation (R391 to R400). -/

namespace Sys2Proof.Machine
open Sys2Proof.Claims

section DomainRow
variable {s u : State} {p : DictPath} {idx : W16} {off : W32} {data : List Byte} {c : Instr} {f : State → Nat → State × Byte}
  (hc : exec c s = .next (domainRow s p idx off data f)) (ho : Opens s u p idx 1)
include hc ho

/-- A write of a DOMAIN's bytes that its path takes is answered with what its rules give. -/
theorem answers_of_domainRow (hlen : mailLen p data.length = true) {v : State} {st : Byte} (hf : f u (domainOff p off.toNat) = (v, st)) :
    Answers c s v p st := by
  unfold Opens at ho
  rw [Answers, hc]
  simp only [domainRow, ho, hlen, hf, if_true]
  rfl

theorem exec_domainRow_of_badLength (hlen : mailLen p data.length = false) :
    exec c s = .next (dictReply u p stMode 0x06070010 []) := by
  unfold Opens at ho
  rw [hc]
  simp only [domainRow, ho, hlen, Bool.false_eq_true, if_false]

end DomainRow

theorem mailLen_mbox_bad {m : Fin 16} {data : List Byte} (h : data = [] ∨ 4064 < data.length) :
    mailLen (.mbox m) data.length = false := by
  rcases h with rfl | h
  · rfl
  · rw [mailLen, decide_eq_false (Nat.not_le.2 h), Bool.and_false]

section DomainWrite
variable {cur data : List Byte} {off limit : Nat}

theorem domainWrite_start (h0 : off = 0) : domainWrite cur off data limit = if data.length ≤ limit then some data else none := if_pos h0

theorem domainWrite_end (h0 : off ≠ 0) (h : off = cur.length) (hl : cur.length + data.length ≤ limit) :
    domainWrite cur off data limit = some (cur ++ data) :=
  (if_neg h0).trans (if_pos (by rw [decide_eq_true h, decide_eq_true hl]; rfl))

theorem domainWrite_elsewhere (h0 : off ≠ 0) (h : off ≠ cur.length) : domainWrite cur off data limit = none :=
  (if_neg h0).trans (if_neg (by rw [decide_eq_false h, Bool.false_and]; exact Bool.false_ne_true))

end DomainWrite

section Images
variable {u : State} {off : Nat} {data img : List Byte}

theorem fwImageWrite_busy (h : u.trust.fwState = 2 ∨ u.trust.fwState = 5) : fwImageWrite u off data = (u, stBusy) :=
  if_pos (by simpa using h)

section
variable (h2 : u.trust.fwState ≠ 2) (h5 : u.trust.fwState ≠ 5)
include h2 h5

theorem fwImageWrite_of_some (h : domainWrite u.trust.fwImage off data 4194304 = some img) :
    fwImageWrite u off data = ({ u with trust := { u.trust with fwImage := img, fwState := 1 } }, stOk) := by
  simp only [fwImageWrite, decide_eq_false h2, decide_eq_false h5, Bool.or_self, Bool.false_eq_true, if_false, h]

theorem fwImageWrite_of_none (h : domainWrite u.trust.fwImage off data 4194304 = none) : fwImageWrite u off data = (u, stOob) := by
  simp only [fwImageWrite, decide_eq_false h2, decide_eq_false h5, Bool.or_self, Bool.false_eq_true, if_false, h]

end

theorem licImageWrite_of_some (h : domainWrite u.trust.licImage off data 2884 = some img) :
    licImageWrite u off data = ({ u with trust := { u.trust with licImage := img } }, stOk) := by
  simp only [licImageWrite, h]

theorem licImageWrite_of_none (h : domainWrite u.trust.licImage off data 2884 = none) : licImageWrite u off data = (u, stOob) := by
  simp only [licImageWrite, h]

theorem attNonceWrite_of_some (h : domainWrite u.trust.attNonce off data 32 = some img) :
    attNonceWrite u off data = ({ u with trust := { u.trust with attNonce := img } }, stOk) := by
  simp only [attNonceWrite, h]

end Images

section Commands
variable {u : State} {allowed : List Byte} {f : Trust → Trust}

theorem fwCommand_allowed (h : allowed.contains u.trust.fwState = true) :
    fwCommand u allowed f = ({ u with trust := { f u.trust with fwStatus := stOk } }, stOk) := if_pos h

theorem fwCommand_refused (h : allowed.contains u.trust.fwState = false) :
    fwCommand u allowed f = ({ u with trust := { u.trust with fwStatus := stMode } }, stMode) :=
  if_neg (by rw [h]; exact Bool.false_ne_true)

theorem contains_singleton_eq (a b : Byte) : [a].contains b = decide (b = a) := by
  rw [List.contains_cons, List.contains_nil, Bool.or_false]
  rfl

theorem fwActivate_allowed (h : u.trust.fwState = 6) : fwActivate u =
    ({ u with
       trust := { u.trust with fwState := 0, fwImage := [], ucodePending := true, fwStatus := stOk },
       life := { u.life with restart := some u.now } }, stOk) := by
  have ha : [(6 : Byte)].contains u.trust.fwState = true := by rw [contains_singleton_eq, decide_eq_true h]
  simp only [fwActivate, fwCommand_allowed ha, if_true]

theorem fwActivate_refused (h : u.trust.fwState ≠ 6) :
    fwActivate u = ({ u with trust := { u.trust with fwStatus := stMode } }, stMode) := by
  have ha : [(6 : Byte)].contains u.trust.fwState = false := by rw [contains_singleton_eq, decide_eq_false h]
  have hne : ¬ stMode = stOk := by decide
  simp only [fwActivate, fwCommand_refused ha, hne, if_false]

end Commands

section Restart
variable {s : State}

@[simp] theorem emcyPush_mail (c : Can) (m : Emcy) : (emcyPush c m).mail = c.mail := by
  unfold emcyPush
  split
  · rfl
  · split <;> rfl

@[simp] theorem raiseEmcy_mail (s : State) (code : W16) (unit : Byte) (detail : Nat) :
    (raiseEmcy s code unit detail).can.mail = s.can.mail := by
  unfold raiseEmcy
  split
  · rw [logRec_eq]
    exact emcyPush_mail _ _
  · rfl

@[simp] theorem condEnd_mail (s : State) (code : W16) (key : Nat) : (condEnd s code key).can.mail = s.can.mail := by
  simp only [condEnd]
  split
  · split
    · exact raiseEmcy_mail _ _ _ _
    · rfl
  · split <;> rfl

theorem serveWaiting_of_none (h : s.can.mail = []) : serveWaiting s = s := by
  rw [serveWaiting, h, List.foldl_nil, ← h]

theorem headframeRestartDone_of_none (h : s.life.restart = none) : headframeRestartDone s = s :=
  if_neg (by rw [h]; exact Bool.false_ne_true)

theorem headframeRestartDone_of_some {a : Nat} (h : s.life.restart = some a) : headframeRestartDone s =
    condEnd { s with
      life := { s.life with restart := none },
      trust := { s.trust with nextIdx := s.trust.reservedTo, loaded := s.trust.flash,
                              fwVersion := BitVec.ofNat 32 (imgVersion (imgHeader s.trust.flash)) } } 0xFF40 0 :=
  if_pos (by rw [h]; rfl)

end Restart

section Licences
variable {u : State}

theorem licCmd_empty {k : Fin 8} {v : State} {st : Byte} (h : licEmpty u k.val = (v, st)) :
    licCmd u (16 + k.val) = ({ v with trust := { v.trust with licStatus := st } }, st) := by
  have h1 : 16 + k.val ≠ 1 := by omega
  have hin : (decide (16 ≤ 16 + k.val) && decide (16 + k.val < 24)) = true := by
    rw [decide_eq_true (by omega), decide_eq_true (by omega)]
    rfl
  simp only [licCmd, h1, hin, if_false, if_true, Nat.add_sub_cancel_left, h]

theorem licCmd_store {v : State} {st : Byte} (h : licStore u = (v, st)) :
    licCmd u 1 = ({ v with trust := { v.trust with licStatus := st } }, st) := by
  simp only [licCmd, if_true, h]

theorem licStore_of_bad (h : (licenceChecks u.fuse u.trust.licImage).1 ≠ stOk) : licStore u =
    (logTrust u 8 (licenceChecks u.fuse u.trust.licImage).1 (licenceChecks u.fuse u.trust.licImage).2
      (licFeatures (licBody u.trust.licImage)), (licenceChecks u.fuse u.trust.licImage).1) := by
  simp only [licStore, h, ne_eq, not_false_eq_true, if_true]

/-- With every slot empty a good licence takes slot 0. -/
theorem licStore_of_good (h : (licenceChecks u.fuse u.trust.licImage).1 = stOk) (hs : u.trust.slots = []) : licStore u =
    (logTrust { u with trust := { u.trust with slots := tset {} u.trust.slots 0 { data := u.trust.licImage } } } 0 stOk 0
      (licFeatures (licBody u.trust.licImage)), stOk) := by
  have hfind : (List.range 8).find? (fun k => decide ((licSlot u.trust k).data = [])) = some 0 := by
    simp only [licSlot, hs]
    decide
  simp only [licStore, h, ne_eq, not_true_eq_false, if_false, hfind]
  rw [hs, List.any_nil]
  rfl

end Licences

section Attestation
variable {u : State}

theorem attStatus_eq : attStatus u 1 =
    if u.trust.attNonce.length ≠ 32 then stOob
    else if u.trust.attState = 1 then stBusy
    else if 1048576 ≤ u.trust.nextIdx.toNat then stOob
    else stOk := rfl

theorem attCmd_refused {st : Byte} (h : attStatus u 1 = st) (hst : st ≠ stOk) : attCmd u 1 = (u, st) := by
  simp only [attCmd, h, hst, ne_eq, not_false_eq_true, if_true]

theorem attCmd_accepted (h : attStatus u 1 = stOk) : attCmd u 1 =
    ({ u with trust := { u.trust with
        attState := 1, attReport := [], attBody := attBodyBytes u u.trust.nextIdx, nextIdx := u.trust.nextIdx + 1,
        reservedTo := if u.trust.nextIdx = u.trust.reservedTo then u.trust.reservedTo + 64 else u.trust.reservedTo } }, stOk) := by
  simp only [attCmd, h, ne_eq, not_true_eq_false, if_false]

theorem length_toByte (v n : Nat) : (toByte v n).length = n := by rw [toByte, List.length_reverse, length_leBytes]

theorem length_attSignature (idx : Nat) (body : List Byte) : (attSignature idx body).length = 2820 := by
  rw [attSignature, List.length_append, length_toByte, List.length_map, List.length_range, sigBytes]

theorem attSignature_take (idx : Nat) (body : List Byte) : (attSignature idx body).take 4 = toByte idx 4 :=
  List.take_left' (length_toByte idx 4)

end Attestation

/-- Settles O57: each write and command by its checks, and the background work that they start by its end. -/
theorem firmwareLicencesAttestation : Obligations.FirmwareLicencesAttestation := by
  unfold Obligations.FirmwareLicencesAttestation
  refine fun s p off data u => ⟨fun m => ⟨rfl, fun b => rfl⟩, fun m hp hbad => ⟨fun ho => ?_, fun ho => ?_, fun ho => ?_⟩,
    fun ho hlen => ⟨fun h => ?_, fun h2 h5 => ⟨fun h0 hl => ?_, fun h h0 hl => ?_, fun h0 h => ?_⟩⟩,
    fun ho => ⟨fun h => ?_, fun h => ?_, fun h => ?_, fun h => ?_, fun h => ?_, fun h => ?_, fun h => ?_⟩,
    ⟨fun h => ?_, fun h => ?_⟩, fun hm h => ?_, fun a hm h => ?_,
    fun ho hlen => ⟨fun h0 hl => ?_, fun h h0 hl => ?_, fun h0 hl => ?_⟩, fun ho => ⟨fun k h => ?_, fun k h => ?_, fun hs => ?_⟩,
    fun ho hlen h0 hl => ?_, fun ho => ⟨fun h => ?_, fun h hst => ?_, fun h hst hi => ?_⟩,
    fun h => ⟨_, attSignature (leNat ((s.trust.attBody.drop 24).take 4)) s.trust.attBody, congrArg Host.Outcome.next (if_pos h), rfl,
      length_attSignature _ _, attSignature_take _ _, rfl⟩⟩
  · subst hp
    exact exec_domainRow_of_badLength rfl ho (mailLen_mbox_bad hbad)
  · subst hp
    exact exec_domainRow_of_badLength rfl ho (mailLen_mbox_bad hbad)
  · subst hp
    exact exec_domainRow_of_badLength rfl ho (mailLen_mbox_bad hbad)
  · exact answers_of_domainRow rfl ho hlen (fwImageWrite_busy h)
  · exact answers_of_domainRow rfl ho hlen (fwImageWrite_of_some h2 h5 ((domainWrite_start h0).trans (if_pos hl)))
  · exact answers_of_domainRow rfl ho hlen (fwImageWrite_of_some h2 h5 (domainWrite_end h0 h hl))
  · exact answers_of_domainRow rfl ho hlen (fwImageWrite_of_none h2 h5 (domainWrite_elsewhere h0 h))
  · exact answers_of_dictRow1 rfl ho (fwCommand_allowed (by rw [contains_singleton_eq, decide_eq_true h]))
  · exact answers_of_dictRow1 rfl ho (fwCommand_refused (by rw [contains_singleton_eq, decide_eq_false h]))
  · exact answers_of_dictRow1 rfl ho (fwCommand_allowed (by rw [contains_singleton_eq, decide_eq_true h]))
  · exact answers_of_dictRow1 rfl ho (fwCommand_refused (by rw [contains_singleton_eq, decide_eq_false h]))
  · exact answers_of_dictRow1 rfl ho (fwActivate_allowed h)
  · exact answers_of_dictRow1 rfl ho (fwActivate_refused h)
  · exact answers_of_dictRow1 rfl ho (fwCommand_allowed (by rcases h with h | h | h | h <;> rw [h] <;> rfl))
  · exact congrArg Host.Outcome.next (if_pos h)
  · exact congrArg Host.Outcome.next (if_pos h)
  · exact congrArg Host.Outcome.next ((congrArg serveWaiting (headframeRestartDone_of_none h)).trans (serveWaiting_of_none hm))
  · exact congrArg Host.Outcome.next ((congrArg serveWaiting (headframeRestartDone_of_some h)).trans
      (serveWaiting_of_none ((condEnd_mail _ _ _).trans hm)))
  · exact answers_of_domainRow rfl ho hlen (licImageWrite_of_some ((domainWrite_start h0).trans (if_pos hl)))
  · exact answers_of_domainRow rfl ho hlen (licImageWrite_of_some (domainWrite_end h0 h hl))
  · exact answers_of_domainRow rfl ho hlen (licImageWrite_of_none ((domainWrite_start h0).trans (if_neg (Nat.not_le.2 hl))))
  · exact answers_of_dictRow1 rfl ho (licCmd_empty (if_pos h))
  · exact answers_of_dictRow1 rfl ho (licCmd_empty (if_neg h))
  · dsimp only
    by_cases hc : (licenceChecks u.fuse u.trust.licImage).1 = stOk
    · rw [if_pos hc, hc]
      exact answers_of_dictRow1 rfl ho (licCmd_store (licStore_of_good hc hs))
    · rw [if_neg hc]
      exact answers_of_dictRow1 rfl ho (licCmd_store (licStore_of_bad hc))
  · exact answers_of_domainRow rfl ho hlen (attNonceWrite_of_some ((domainWrite_start h0).trans (if_pos hl)))
  · exact answers_of_dictRow1 rfl ho (attCmd_refused (attStatus_eq.trans (if_pos h)) (by decide))
  · exact answers_of_dictRow1 rfl ho (attCmd_refused (attStatus_eq.trans ((if_neg (fun hn => hn h)).trans (if_pos hst))) (by decide))
  · exact answers_of_dictRow1 rfl ho (attCmd_accepted (attStatus_eq.trans ((if_neg (fun hn => hn h)).trans
      ((if_neg hst).trans (if_neg (Nat.not_le.2 hi))))))

end Sys2Proof.Machine
end

section
/-! SUPPORT. Input power, pins and power domains (R402 to R406, R418, R421 to R423, R448). -/

namespace Sys2Proof.Machine
open Sys2Proof.Claims

/-! ## Conditions and records touch the segment's part and the fault log only -/

theorem logRec_setCan (s : State) (c : Can) (r : FaultRec) : logRec { s with can := c } r =
    { s with can := (logRec { s with can := c } r).can, log := (logRec { s with can := c } r).log } := by
  have h := logRec_eq { s with can := c } r
  generalize logRec { s with can := c } r = t at h ⊢
  rw [h]

theorem raiseEmcy_eq (s : State) (code : W16) (unit : Byte) (detail : Nat) : raiseEmcy s code unit detail =
    { s with can := (raiseEmcy s code unit detail).can, log := (raiseEmcy s code unit detail).log } := by
  unfold raiseEmcy
  split
  · exact logRec_setCan s _ _
  · rfl

theorem condStart_eq (s : State) (code : W16) (key : Nat) (unit : Byte) (detail : Nat) : condStart s code key unit detail =
    { s with can := (condStart s code key unit detail).can, log := (condStart s code key unit detail).log } := by
  unfold condStart
  split
  · rfl
  · split
    · rw [raiseEmcy_eq]
    · split <;> rfl

theorem condEnd_eq (s : State) (code : W16) (key : Nat) : condEnd s code key =
    { s with can := (condEnd s code key).can, log := (condEnd s code key).log } := by
  simp only [condEnd]
  split
  · split
    · rw [raiseEmcy_eq]
    · rfl
  · split <;> rfl

/-! ## Input voltage -/

/-- The conditions of the input voltage leave the sample's counts and the store alone. -/
structure SameCounts (p q : Power) : Prop where
  over66 : q.over66 = p.over66
  under48 : q.under48 = p.under48
  under40 : q.under40 = p.under40

theorem condStart_power (s : State) (code : W16) (key : Nat) (unit : Byte) (detail : Nat) :
    (condStart s code key unit detail).power = s.power := by rw [condStart_eq]

theorem condEnd_power (s : State) (code : W16) (key : Nat) : (condEnd s code key).power = s.power := by rw [condEnd_eq]

theorem logSupply_power (s : State) (unit reading : Nat) : (logSupply s unit reading).power = s.power := by
  rw [logSupply, logRec_eq]

theorem voltConditions_counts (s : State) : SameCounts s.power (voltConditions s).power := by
  have hc (p : Power) (t : State) (b : Bool) (h : SameCounts p t.power) (code : W16) (v : Nat) :
      SameCounts p (if b = true then condStart t code 0 1 v else condEnd t code 0).power := by
    split
    · rwa [condStart_power]
    · rwa [condEnd_power]
  have hl (p : Power) (t : State) (b : Bool) (h : SameCounts p t.power) (unit reading : Nat) :
      SameCounts p (if b = true then logSupply t unit reading else t).power := by
    split
    · rwa [logSupply_power]
    · exact h
  unfold voltConditions
  extract_lets p hi lo t t1 t2
  exact hc s.power t2 lo (hc s.power t1 hi (hl s.power t _ ⟨rfl, rfl, rfl⟩ _ _) _ _) _ _

section InputSample
variable {s t : State} {v w : Nat} (hd : d00On s = true) (ht : voltConditions { s with power := voltCounts s.power v } = t)
include hd ht

theorem inputSample_off (hv : v < 4000) (h2 : 2 ≤ s.power.under40) : inputSample s v w = powerOff t := by
  have hc := (ht ▸ voltConditions_counts { s with power := voltCounts s.power v } : SameCounts _ t.power).under40
  have h3 : t.power.under40 = 3 := by
    rw [hc]
    simp only [voltCounts, countRun, decide_eq_true hv, if_true]
    omega
  simp only [inputSample, hd, ht, h3, if_true]

theorem inputSample_inBand (hlo : 4800 ≤ v) (hhi : v ≤ 6600) :
    inputSample s v w = { t with power := storeSample t.power w } := by
  obtain ⟨h66, h48, h40⟩ : SameCounts _ t.power := ht ▸ voltConditions_counts { s with power := voltCounts s.power v }
  simp only [voltCounts, countRun, decide_eq_false (Nat.not_lt.2 hlo), decide_eq_false (Nat.not_lt.2 hhi),
    decide_eq_false (show ¬ v < 4000 by omega), Bool.false_eq_true, if_false] at h66 h48 h40
  have h0 : ¬ ((0 : Nat) = 3) ∧ decide ((0 : Nat) = 10) = false ∧ decide ((0 : Nat) = 100) = false := by decide
  simp only [inputSample, hd, ht, h66, h48, h40, h0, if_true, Bool.or_self, Bool.false_and, Bool.false_eq_true, if_false]

end InputSample

theorem phaseFault_of_isolated {s : State} {i : Nat} (h : bitAt s.power.phases i = false) : phaseFault s i = s :=
  if_neg (by rw [h, Bool.and_false]; exact Bool.false_ne_true)

theorem phaseFault_of_live {s : State} {i : Nat} (hd : d00On s = true) (h : bitAt s.power.phases i = true) : phaseFault s i =
    logSupply { s with power := { s.power with phases := setBit s.power.phases i false } } (i + 0x100)
      (int16 (s.channel (88 + i)).value) :=
  if_pos (by rw [h, hd]; rfl)

/-! ## WAKE_N and THROTTLE_N -/

/-- An input whose level the filter has qualified now. -/
def InputPin.qualified (q : InputPin) (now : Nat) (active : Bool) : InputPin :=
  { q with level := active, since := now, changed := some now }

section PinChange
variable {s : State} {i : Nat}

theorem pinChange_of_same {b : Bool} (h : (s.input i).level = b) : pinChange s i b = s :=
  if_pos (by rw [decide_eq_true h, Bool.true_or])

variable (hd : d00On s = true)
include hd

theorem pinChange_of_tooShort {b : Bool} (h : (s.input i).level = !b) (ht : tooShort s i = true) : pinChange s i b = glitch s i := by
  have hne : ¬ (s.input i).level = b := by rw [h]; cases b <;> decide
  simp only [pinChange, decide_eq_false hne, hd, ht, Bool.not_true, Bool.or_self, Bool.false_eq_true, if_false, if_true]

variable (ht : tooShort s i = false)
include ht

theorem pinChange_inactive (h : (s.input i).level = true) :
    pinChange s i false = s.setInput i ((s.input i).qualified s.now false) := by
  simp only [pinChange, h, hd, ht, Bool.not_true, Bool.not_false, Bool.or_self, Bool.false_eq_true, if_false, if_true,
    decide_eq_false (show ¬ (true = false) by decide)]
  rfl

section Active
variable (h : (s.input i).level = false)
include h

theorem pinChange_tooFast (hf : ((s.input i).lastEdge.any fun a => decide (s.now < a + inputSpacing s i)) = true) :
    pinChange s i true = s.setInput i { (s.input i).qualified s.now true with fast := satInc (s.input i).fast } := by
  simp only [pinChange, h, hd, ht, Bool.not_true, Bool.or_self, Bool.false_eq_true, if_false, decide_false, if_pos hf]
  rfl

theorem pinChange_accepted (hf : ((s.input i).lastEdge.any fun a => decide (s.now < a + inputSpacing s i)) = false) :
    pinChange s i true = s.setInput i { (s.input i).qualified s.now true with lastEdge := some s.now } := by
  simp only [pinChange, h, hd, ht, Bool.not_true, Bool.or_self, Bool.false_eq_true, if_false, decide_false, hf]
  rfl

end Active
end PinChange

section WakeN
variable {s : State} (hd : d00On s = true) (ht : tooShort s 1 = false) (hw : tabWf ({} : InputPin) s.inputs = true)
include hd ht hw

theorem execWakeNChange_inactive (h : (s.input 1).level = true) :
    execWakeNChange false s = .next (s.setInput 1 ((s.input 1).qualified s.now false)) := by
  have hh : wakeHeld (s.setInput 1 ((s.input 1).qualified s.now false)) = false := by
    rw [wakeHeld, State.input_setInput_same hw]
    rfl
  simp only [execWakeNChange, pinChange_inactive hd ht h, hh, Bool.false_eq_true, if_false]

theorem execWakeNChange_active (h : (s.input 1).level = false) (hs : (s.input 1).stuck = false) (he : (s.input 1).lastEdge = none) :
    execWakeNChange true s =
      .next (wakeSleepers (s.setInput 1 { (s.input 1).qualified s.now true with lastEdge := some s.now })) := by
  have hh : wakeHeld (s.setInput 1 { (s.input 1).qualified s.now true with lastEdge := some s.now }) = true := by
    rw [wakeHeld, State.input_setInput_same hw]
    simp only [InputPin.qualified, hs, Bool.not_false, Bool.and_self]
  simp only [execWakeNChange, pinChange_accepted hd ht h (by rw [he]; rfl), hh, if_true]

end WakeN

/-! ## Stuck inputs -/

section Stuck
variable {s : State} {i : Nat}

theorem inputStuck_of_not (h : (s.input i).level = false ∨ (s.input i).stuck = true) : inputStuck s i = s :=
  if_neg (by rcases h with h | h <;> simp [h])

theorem inputStuck_of_held (hd : d00On s = true) (hi : i ≠ 0) (hl : (s.input i).level = true) (hs : (s.input i).stuck = false)
    (ha : (s.input i).since + (s.input i).stuckMs.toNat * 800000 < s.now) : inputStuck s i =
      condStart (s.setInput i { s.input i with stuck := true, stucks := satInc (s.input i).stucks }) 0xFF21 i 10 i := by
  have ha' : (s.input i).since + inputStuckAfter s i < s.now := by
    rw [inputStuckAfter, if_neg hi]
    exact ha
  have hi' : decide (i ≠ 0) = true := decide_eq_true hi
  simp only [inputStuck, hd, hl, hs, decide_eq_true ha', hi', Bool.not_false, Bool.and_self, Bool.true_or, if_true, hi, if_false]

theorem inputRelease_of_not (h : (s.input i).stuck = false) : inputRelease s i = s :=
  if_neg (by rw [h, Bool.false_and, Bool.false_and]; exact Bool.false_ne_true)

theorem inputRelease_of_inactive (hi : i ≠ 0) (hs : (s.input i).stuck = true) (hl : (s.input i).level = false)
    (ha : (s.input i).since + (s.input i).spacingUs.toNat * 800 ≤ s.now) :
    inputRelease s i = condEnd (s.setInput i { s.input i with stuck := false }) 0xFF21 i := by
  have ha' : (s.input i).since + inputSpacing s i ≤ s.now := by
    rw [inputSpacing, if_neg hi]
    exact ha
  exact if_pos (by rw [hs, hl, decide_eq_true ha']; rfl)

end Stuck

/-! ## Domains -/

section Domains
variable {s : State} {d : Nat}

theorem domainIdle_of_free (h : (s.domain d).state = 1) (hf : domainFree s d = true) :
    domainIdle s d = s.setDomain d { s.domain d with state := 2, idleSince := s.now } :=
  if_pos (by rw [decide_eq_true h, hf]; rfl)

theorem domainIdle_of_not (h : (s.domain d).state ≠ 1) : domainIdle s d = s :=
  if_neg (by rw [decide_eq_false h, Bool.false_and]; exact Bool.false_ne_true)

theorem domainSleep_of_idle (h : (s.domain d).state = 2) (hf : domainFree s d = true) (hu : s.power.sleepIdleUs ≠ 0)
    (hw : wakeHeld s = false) (ha : (s.domain d).idleSince + s.power.sleepIdleUs.toNat * 800 ≤ s.now) :
    domainSleep s d = s.setDomain d { s.domain d with state := 3 } :=
  if_pos (by
    have ha' : (s.domain d).idleSince + s.power.sleepIdleUs.toNat * usCycles ≤ s.now := ha
    have hu' : decide (s.power.sleepIdleUs ≠ 0) = true := decide_eq_true hu
    rw [decide_eq_true h, hf, hu', hw, decide_eq_true ha']
    rfl)

theorem domainSleep_of_not (h : wakeHeld s = true ∨ domainFree s d = false) : domainSleep s d = s :=
  if_neg (by rcases h with h | h <;> simp [h])

theorem wakeDomain_of_awake (h2 : (s.domain d).state ≠ 2) (h3 : (s.domain d).state ≠ 3) : wakeDomain s d = s :=
  if_neg (by rw [decide_eq_false h2, decide_eq_false h3]; exact Bool.false_ne_true)

theorem wakeLimit_le (d : Nat) (sleep : Bool) : wakeLimit d sleep ≤ if sleep = false then 1 else 20 := by
  cases sleep
  · exact Nat.le_refl 1
  · show (if d ≤ 14 then 20 else 5) ≤ 20
    split <;> decide

theorem wakeDomain_of_asleep (h : (s.domain d).state = 2 ∨ (s.domain d).state = 3) :
    wakeDomain s d = { s with freeTick := s.freeTick + 1 }.setDomain d
      { s.domain d with
        state := 1, wakes := (s.domain d).wakes + 1,
        wakeUsMax := BitVec.ofNat 8 (max (s.domain d).wakeUsMax.toNat
          (Config.wakeMicros s.newFree.1 % (wakeLimit d ((s.domain d).state == 3) + 1))) } :=
  if_pos (by simpa using h)

theorem wakeMicros_le (i : Nat) (h : (s.domain d).state = 2 ∨ (s.domain d).state = 3) :
    Config.wakeMicros i % (wakeLimit d ((s.domain d).state == 3) + 1) ≤ if (s.domain d).state = 2 then 1 else 20 := by
  have hlt := Nat.mod_lt (Config.wakeMicros i) (Nat.succ_pos (wakeLimit d ((s.domain d).state == 3)))
  have hle := wakeLimit_le d ((s.domain d).state == 3)
  refine Nat.le_trans (Nat.le_of_lt_succ hlt) (Nat.le_trans hle (Nat.le_of_eq ?_))
  rcases h with h | h <;> rw [h] <;> rfl

end Domains

theorem alertN_low_iff (s : State) :
    alertN s = false ↔ errorRegister (activeConds s.can) ≠ 0 ∨ s.canary.thrState ≠ thrNone := by
  simp only [alertN, Bool.and_eq_false_iff, decide_eq_false_iff_not, ne_eq]

/-- Settles O58: each command by the branch of its own rule; the input voltage's conditions leave the sample's counts, so the three
samples below 40 V are still counted when the module decides to go off. -/
theorem powerInputsAndDomains : Obligations.PowerInputsAndDomains := by
  unfold Obligations.PowerInputsAndDomains
  refine fun s hd => ⟨fun v w => ⟨fun hv h2 => ?_, fun hlo hhi => ?_⟩, fun i => ⟨fun h => ?_, fun h => ?_⟩,
    ⟨fun b h => ?_, fun b h ht => ?_, fun ht => ⟨fun h => ?_, fun h he => ?_, fun a h he => ⟨fun hf => ?_, fun hf => ?_⟩⟩⟩,
    fun hw ht => ⟨fun h => ?_, fun h hs he => ?_⟩,
    fun i => ⟨fun h => ?_, fun hi hl hs ha => ?_, fun hi hs hl ha => ?_, fun h => ?_, ?_⟩,
    fun d => ⟨fun h hf => ?_, fun h => ?_, fun h hf hu hw ha => ?_, fun h => ?_, fun h2 h3 => ?_, fun h => ?_⟩,
    hd, rfl, alertN_low_iff s⟩
  · exact congrArg Host.Outcome.next (inputSample_off hd rfl hv h2)
  · exact congrArg Host.Outcome.next (inputSample_inBand hd rfl hlo hhi)
  · exact congrArg Host.Outcome.next (phaseFault_of_isolated h)
  · exact congrArg Host.Outcome.next (phaseFault_of_live hd h)
  · exact congrArg Host.Outcome.next (pinChange_of_same h)
  · exact congrArg Host.Outcome.next (pinChange_of_tooShort hd h ht)
  · exact congrArg Host.Outcome.next (pinChange_inactive hd ht h)
  · exact congrArg Host.Outcome.next (pinChange_accepted hd ht h (by rw [he]; rfl))
  · exact congrArg Host.Outcome.next (pinChange_tooFast hd ht h (by rw [he]; exact decide_eq_true hf))
  · exact congrArg Host.Outcome.next (pinChange_accepted hd ht h (by rw [he]; exact decide_eq_false (Nat.not_lt.2 hf)))
  · exact execWakeNChange_inactive hd ht hw h
  · exact execWakeNChange_active hd ht hw h hs he
  · exact congrArg Host.Outcome.next (inputStuck_of_not h)
  · exact congrArg Host.Outcome.next (inputStuck_of_held hd (Fin.val_ne_of_ne hi) hl hs ha)
  · exact congrArg Host.Outcome.next (inputRelease_of_inactive (Fin.val_ne_of_ne hi) hs hl ha)
  · exact congrArg Host.Outcome.next (inputRelease_of_not h)
  · exact congrArg Host.Outcome.next (if_pos hd)
  · exact congrArg Host.Outcome.next (domainIdle_of_free h hf)
  · exact congrArg Host.Outcome.next (domainIdle_of_not h)
  · exact congrArg Host.Outcome.next (domainSleep_of_idle h hf hu hw ha)
  · exact congrArg Host.Outcome.next (domainSleep_of_not h)
  · exact congrArg Host.Outcome.next (wakeDomain_of_awake h2 h3)
  · exact ⟨_, wakeMicros_le _ h, congrArg Host.Outcome.next (wakeDomain_of_asleep h)⟩

end Sys2Proof.Machine
end

section
/-! SUPPORT. Unit duties, loans and the canary round (R408 to R420). -/

namespace Sys2Proof.Machine
open Sys2Proof.Claims

/-! ## Unit duties -/

theorem lendShares_of_no_gated {s : State} (h : (s.faces.filter fun x => x.2.gated) = []) : lendShares s = s := by
  simp only [lendShares, h, List.map_nil, List.foldl_nil]

theorem unitDutyTick_of_running {s : State} (st fs : List Nat) (hon : headframeOn s = true) (hr : s.life.restart = none)
    (h : (s.faces.filter fun x => x.2.gated) = []) : unitDutyTick s st fs =
      { s with power := unitsTick s.power fun u => if u < 8 then st.getD u 0 else fs.getD (u - 8) 0 } :=
  (if_pos (by rw [hon, hr]; rfl)).trans (lendShares_of_no_gated h)

theorem unitDutyTick_of_stopped {s : State} (st fs : List Nat) (hoff : headframeOn s = false) : unitDutyTick s st fs = s :=
  if_neg (by rw [hoff, Bool.false_and]; exact Bool.false_ne_true)

section UnitTick
variable {u : LedgerUnit} {g e : Nat}

theorem unitTick_duty_above (h : g < e) : (unitTick u g e).duty = max 2 (u.duty - 1) := if_pos h

theorem unitTick_duty_within (h : e ≤ g) (hc : 7 * g ≤ 8 * e) : (unitTick u g e).duty = u.duty := by
  have hz : ¬ (0 : Nat) = 8 := by decide
  simp only [unitTick, decide_eq_false (Nat.not_lt.2 hc), Nat.not_lt.2 h, Bool.false_eq_true, if_false, hz]

theorem unitTick_duty_calm (hc : 8 * e < 7 * g) (h7 : u.calm = 7) : (unitTick u g e).duty = min 8 (u.duty + 1) := by
  have hge : ¬ g < e := by omega
  simp only [unitTick, decide_eq_true hc, hge, h7, if_true, if_false]

end UnitTick

/-! ## Loans -/

section Recall
variable {s : State} {f : Nat}

theorem recallComplete_of_full (h : (s.face f).floorRate = false) : recallComplete s f = s :=
  if_neg (by rw [h, Bool.false_and]; exact Bool.false_ne_true)

variable (h : (s.face f).floorRate = true)
include h

theorem recallComplete_of_none_lent (hm : (s.power.loans.filter fun l => l.lender == f && l.recalled) = []) :
    recallComplete s f = s.setFace f { s.face f with floorRate := false } := by
  simp only [recallComplete, h, hm, List.all_nil, Bool.true_or, Bool.and_self, if_true]

theorem recallComplete_of_late (ha : (s.face f).wokeAt + 8000 ≤ s.now) :
    ∀ l ∈ (recallComplete s f).power.loans, ¬ (l.lender = f ∧ l.recalled = true) := by
  have ha' : decide ((s.face f).wokeAt + 10 * usCycles ≤ s.now) = true := decide_eq_true ha
  intro l hl hlr
  have hmine : (l.lender == f && l.recalled) = true := by rw [hlr.1, hlr.2, beq_self_eq_true]; rfl
  by_cases hm : (s.power.loans.filter fun l => l.lender == f && l.recalled) = []
  · rw [recallComplete_of_none_lent h hm] at hl
    have : l ∈ s.power.loans.filter fun l => l.lender == f && l.recalled := List.mem_filter.2 ⟨hl, hmine⟩
    rw [hm] at this
    exact List.not_mem_nil this
  · simp only [recallComplete, h, ha', Bool.or_true, Bool.and_self, if_true, if_neg hm] at hl
    have hnot := (List.mem_filter.1 hl).2
    rw [hmine] at hnot
    exact Bool.false_ne_true hnot

end Recall

/-! ## A slot of the round keeps the round's place -/

@[simp] theorem condStart_canary (s : State) (code : W16) (key : Nat) (unit : Byte) (detail : Nat) :
    (condStart s code key unit detail).canary = s.canary := by rw [condStart_eq]

@[simp] theorem condEnd_canary (s : State) (code : W16) (key : Nat) : (condEnd s code key).canary = s.canary := by rw [condEnd_eq]

theorem chanCond_canary (s : State) (c : Nat) (code : W16) (on starts : Bool) : (chanCond c code on starts s).canary = s.canary := by
  unfold chanCond
  split
  · rw [condStart_canary]
  · split
    · rw [condEnd_canary]
    · rfl

theorem channelReport_canary (s : State) (c : Nat) (st : Byte) (r : Int) : (channelReport s c st r).canary = s.canary := by
  unfold channelReport
  split
  · simp only [List.foldl_cons, List.foldl_nil, chanCond_canary]
  · split
    · rw [logSupply, logRec_eq]
    · rfl

theorem voidStack_canary (s : State) (n : Nat) : (voidStack s n).canary = s.canary := by
  rw [voidStack, State.modStack_canary]
  exact List.foldlRecOn (motive := fun t : State => t.canary = s.canary) _ _ rfl fun t ht g _ => (State.modCol_canary t g voidAll).trans ht

theorem rateTrigger_canary (s : State) (n : Nat) : (rateTrigger s n).canary = s.canary := by
  simp only [rateTrigger]
  split
  · rw [State.modStack_canary, voidStack_canary]
  · rfl

theorem coreReading_canary (s : State) (n : Nat) : (coreReading s n).canary = s.canary := by
  simp only [coreReading, coolCount, State.modStack_canary, rateTrigger_canary]

theorem canarySlot_of_other {s : State} {c : Nat} (raw : Sensor) (h : s.canary.slot ≠ c) : canarySlot s c raw = s :=
  if_neg (by rw [beq_false_of_ne h, Bool.and_false]; exact Bool.false_ne_true)

theorem canarySlot_slot {s : State} {c : Nat} (raw : Sensor) (hr : canaryRuns s = true) (h : s.canary.slot = c) :
    (canarySlot s c raw).canary.slot = c + 1 := by
  have hc : (canaryRuns s && s.canary.slot == c) = true := by rw [hr, h, beq_self_eq_true]; rfl
  simp only [canarySlot, hc, if_true]
  split
  · rw [channelReport_canary]
    rfl
  · split <;> split <;> simp only [coreReading_canary, channelReport_canary] <;> rfl

/-! ## The end of a round -/

theorem canaryRoundEnd_of_before {s : State} (h : s.canary.slot ≠ 128) : canaryRoundEnd s = s :=
  if_neg (by rw [beq_false_of_ne h, Bool.and_false]; exact Bool.false_ne_true)

theorem canaryRoundEnd_of_last {s : State} (hr : canaryRuns s = true) (h : s.canary.slot = 128) :
    canaryRoundEnd s = telemetryCopy (dutyReport (throttleRound (supplyChannels.foldl supplyRound
      (conditionsAgain { s with canary := { s.canary with slot := 0, rounds := s.canary.rounds + 1 } })))) :=
  if_pos (by rw [hr, h]; rfl)

/-- The state with which a round's throttle decides: the rounds since the last change and step have gone up. -/
def roundCounted (s : State) : State :=
  { s with canary := { s.canary with sinceChange := s.canary.sinceChange + 1, sinceStep := s.canary.sinceStep + 1 } }

theorem throttleRound_of_calm {u : State} (hn : u.canary.thrState = thrNone) (hc : throttleCause u = false) (ht : throttleTrip u = false) :
    throttleRound u = (roundCounted u, false) := by
  have hc' : throttleCause (roundCounted u) = false := hc
  have ht' : throttleTrip (roundCounted u) = false := ht
  have hn' : (roundCounted u).canary.thrState = thrNone := hn
  refine (if_neg (show ¬ (_ && throttleTrip (roundCounted u)) = true by rw [ht', Bool.and_false]; exact Bool.false_ne_true)).trans
    ((if_pos hn').trans (congrArg (·, false) (if_neg ?_)))
  exact fun h => Bool.false_ne_true (hc'.symm.trans h)

theorem throttleRound_of_trip {u : State} (hn : u.canary.thrState ≠ thrEnforced) (ht : throttleTrip u = true) :
    throttleRound u = (thrTo (roundCounted u) thrEnforced 2, false) := by
  have ht' : throttleTrip (roundCounted u) = true := ht
  have hn' : decide ((roundCounted u).canary.thrState ≠ thrEnforced) = true := decide_eq_true hn
  exact if_pos (Bool.and_eq_true_iff.2 ⟨hn', ht'⟩)

/-- Settles O59: the ledger's tick and the loans by their own branches; a slot's reports and readings keep the round's place, and the
throttle's decision at a round end reads the channels, which its counters leave alone. -/
theorem dutiesAndCanary : Obligations.DutiesAndCanary := by
  unfold Obligations.DutiesAndCanary
  refine fun s => ⟨fun hon hr st fs _ hg => ?_, fun hoff st fs => ?_,
    fun u g e => ⟨unitTick_duty_above, unitTick_duty_within, unitTick_duty_calm⟩,
    fun f => ⟨fun h => ?_, fun h hm => ?_, fun h ha => ⟨_, rfl, recallComplete_of_late h ha⟩⟩,
    fun c raw => ⟨fun h => ?_, fun hr h => ⟨_, rfl, canarySlot_slot raw hr h⟩⟩, fun h => ?_, fun hr h => ?_,
    fun u => ⟨fun hn hc ht => ?_, fun hn ht => ?_⟩⟩
  · exact congrArg Host.Outcome.next (unitDutyTick_of_running st fs hon hr hg)
  · exact congrArg Host.Outcome.next (unitDutyTick_of_stopped st fs hoff)
  · exact congrArg Host.Outcome.next (recallComplete_of_full h)
  · exact congrArg Host.Outcome.next (recallComplete_of_none_lent h hm)
  · exact congrArg Host.Outcome.next (canarySlot_of_other raw h)
  · exact congrArg Host.Outcome.next (canaryRoundEnd_of_before h)
  · exact congrArg Host.Outcome.next (canaryRoundEnd_of_last hr h)
  · rw [throttleRound_of_calm hn hc ht]
    exact ⟨hn, rfl⟩
  · rw [throttleRound_of_trip hn ht]
    exact ⟨rfl, rfl⟩

end Sys2Proof.Machine
end

section
/-! SUPPORT. Fences, retirement and the fault log's objects (R428, R431 to R433, R439). -/

namespace Sys2Proof.Machine
open Sys2Proof.Claims

/-! ## What a message to the partners touches -/

/-- Only the ports and what leaves the module differ. -/
def PortWork (s t : State) : Prop := ∃ ps os, t = { s with ports := ps, out := os }

theorem PortWork.refl (s : State) : PortWork s s := ⟨_, _, rfl⟩

theorem PortWork.trans {s t u : State} (h : PortWork s t) (k : PortWork t u) : PortWork s u := by
  obtain ⟨ps, os, rfl⟩ := h
  obtain ⟨ps', os', rfl⟩ := k
  exact ⟨ps', os', rfl⟩

theorem setPort_portWork (s : State) (k : PortId) (p : Port) : PortWork s (s.setPort k p) := ⟨_, _, rfl⟩

theorem setPort_emit_portWork (s : State) (k : PortId) (p : Port) (o : Out) : PortWork s ((s.setPort k p).emit o) := ⟨_, _, rfl⟩

theorem portIdle_portWork (k : PortId) (n : Nat) (s : State) : PortWork s (portIdle k n s) := by
  induction n generalizing s with
  | zero => exact .refl s
  | succ n ih =>
    simp only [portIdle]
    split
    · exact (setPort_emit_portWork ..).trans (ih _)
    · exact .refl s

theorem cutFlits_portWork (k : PortId) (n : Nat) (s : State) : PortWork s (cutFlits k n s) := by
  induction n generalizing s with
  | zero => exact .refl s
  | succ n ih =>
    simp only [cutFlits]
    split
    · exact (setPort_emit_portWork ..).trans (ih _)
    · exact .refl s

theorem startPacket_portWork (s : State) (k : PortId) (x : TxPkt) : PortWork s (startPacket s k x) := by
  have hcut (p : Port) (o : Out) (n : Nat) : PortWork s (cutFlits k n ((s.setPort k p).emit o)) :=
    (setPort_emit_portWork ..).trans (cutFlits_portWork ..)
  simp only [startPacket]
  split
  · exact hcut ..
  · exact (hcut ..).trans (.trans ⟨_, _, rfl⟩ (portIdle_portWork ..))

theorem portDrain_portWork (k : PortId) (n : Nat) (s : State) : PortWork s (portDrain k n s) := by
  induction n generalizing s with
  | zero => exact .refl s
  | succ n ih =>
    simp only [portDrain]
    split
    · split
      · exact .refl s
      · split
        · exact (startPacket_portWork ..).trans (ih _)
        · exact .refl s
    · exact .refl s

theorem portSend_portWork (s : State) (k : PortId) (hdr : BitVec 256) (data : List Byte) (pool : Option PortId) :
    PortWork s (portSend s k hdr data pool) := by
  simp only [portSend]
  split
  · exact (setPort_portWork ..).trans ((portDrain_portWork ..).trans (portIdle_portWork ..))
  · exact .refl s

theorem msgAll_portWork (s : State) (mcode : Nat) (data : List Byte) : PortWork s (msgAll s mcode data) := by
  refine List.foldlRecOn (motive := PortWork s) _ _ (.refl s) fun t ht k _ => ht.trans ?_
  split
  · exact portSend_portWork ..
  · exact .refl t

/-! ## Fences -/

theorem serviceState_ne_fault (s : State) : serviceState s ≠ lifeFault := by
  unfold serviceState
  split <;> decide

/-- The reports that follow a fence leave the counts, the fences in progress and the service record. -/
structure FenceKept (s t : State) : Prop where
  geo : t.geo = s.geo
  fence : t.fence = s.fence
  fuse : t.fuse = s.fuse

theorem lifeFollow_fenceKept (s : State) : FenceKept s (lifeFollow s) := by
  unfold lifeFollow
  split
  · rw [lifeTo, if_neg (serviceState_ne_fault s), logLife_eq]
    obtain ⟨ps, os, h⟩ := msgAll_portWork
      { s with life := { s.life with state := serviceState s },
               log := (logLife { s with life := { s.life with state := serviceState s } } s.life.state (serviceState s) 0).log }
      0x04 (leBytes 4 (serviceState s).toNat)
    rw [h]
    exact ⟨rfl, rfl, rfl⟩
  · exact ⟨rfl, rfl, rfl⟩

/-- The service record with a fenced pick marked. -/
def markedPick (s : State) (g : Nat) : State := { s with fuse := { s.fuse with svcPicks := mark s.fuse.svcPicks g } }

theorem fenceReport_pick_kept (s : State) (g : Nat) (cause : Byte) : FenceKept (markedPick s g) (fenceReport s true g cause) := by
  rw [fenceReport, raiseEmcy_eq, logFence, logRec_eq]
  exact ⟨rfl, rfl, rfl⟩

theorem mem_mark (ns : List Nat) (n : Nat) : n ∈ mark ns n := by
  unfold mark
  split
  · exact List.contains_iff_mem.1 ‹_›
  · exact List.mem_append_right _ (List.mem_singleton_self n)

section FenceComplete
variable {s : State}

theorem fenceComplete_of_none (h : s.fence.jobs = []) : fenceComplete s = s := by
  simp only [fenceComplete, h]

/-- The state of a pick's fence at its end, before its reports. -/
def pickFenced (s : State) (rest : List FenceJob) : State :=
  { recountNext s with fence := { jobs := rest, done := s.fence.done + 1 } }

theorem fenceComplete_of_pick {j : FenceJob} {rest : List FenceJob} (h : s.fence.jobs = j :: rest) (hp : j.pick = true) :
    fenceComplete s = lifeFollow (fenceReport (pickFenced s rest) true j.idx j.cause) := by
  simp only [fenceComplete, h, hp, if_true]
  rfl

theorem fenceComplete_pick_effects {j : FenceJob} {rest : List FenceJob} (h : s.fence.jobs = j :: rest) (hp : j.pick = true) :
    (fenceComplete s).geo.generation = s.geo.generation + 1 ∧ (fenceComplete s).fence.done = s.fence.done + 1 ∧
      (fenceComplete s).fence.jobs = rest ∧ j.idx ∈ (fenceComplete s).fuse.svcPicks := by
  rw [fenceComplete_of_pick h hp]
  obtain ⟨hg, hf, hu⟩ := lifeFollow_fenceKept (fenceReport (pickFenced s rest) true j.idx j.cause)
  obtain ⟨hg', hf', hu'⟩ := fenceReport_pick_kept (pickFenced s rest) j.idx j.cause
  rw [hg, hf, hu, hg', hf', hu']
  exact ⟨rfl, rfl, rfl, mem_mark _ _⟩

end FenceComplete

section FaceFence
variable {u : State} {f : Nat}

theorem faceFenceStatus_of_none (h : 51 < f) : faceFenceStatus u f = stOob := if_pos h

variable (hf : f < 52)
include hf

theorem faceFenceStatus_of_state (h : fenceState u = false) : faceFenceStatus u f = stMode := by
  simp only [faceFenceStatus, show ¬ 51 < f by omega, h, Bool.not_false, if_false, if_true]

variable (hs : fenceState u = true)
include hs

theorem faceFenceStatus_of_unbound (h : (u.face f).logical = none) : faceFenceStatus u f = stFenced := by
  simp only [faceFenceStatus, show ¬ 51 < f by omega, hs, h, Option.isNone_none, Bool.not_true, Bool.false_eq_true, if_false, if_true]

theorem faceFenceStatus_of_bound (h : (u.face f).logical.isSome = true) (hn : (u.face f).fenced = false) :
    faceFenceStatus u f = if u.fence.jobs ≠ [] then stBusy else stOk := by
  have hb : (u.face f).logical.isNone = false := by rw [← Option.not_isSome, h]; rfl
  simp only [faceFenceStatus, show ¬ 51 < f by omega, hs, hb, hn, Bool.not_true, Bool.false_eq_true, if_false]

end FaceFence

section PickFence
variable {u : State} {g : Nat} (hg : g < 4096)
include hg

theorem toNat_ofNat_pick : (BitVec.ofNat 16 g).toNat = g := by
  rw [BitVec.toNat_ofNat]
  omega

theorem pickFenceStatus_of_state (h : fenceState u = false) : pickFenceStatus u g = stMode := by
  simp only [pickFenceStatus, show ¬ 4095 < g by omega, h, Bool.not_false, if_false, if_true]

theorem pickFenceStatus_of_live (hs : fenceState u = true) (hn : (u.col g).fenced = false) (hr : (u.col g).retired = false) :
    pickFenceStatus u g = if u.fence.jobs ≠ [] then stBusy else stOk := by
  simp only [pickFenceStatus, show ¬ 4095 < g by omega, hs, hn, hr, Bool.not_true, Bool.or_self, Bool.false_eq_true, if_false]

/-! ## Retirement -/

theorem colRetireStatus_of_retired (h : (u.col g).retired = true) : colRetireStatus u g = stOk := by
  simp only [colRetireStatus, show ¬ 4095 < g by omega, h, if_false, if_true]

theorem colRetireStatus_of_bad (hr : (u.col g).retired = false) (h : (u.col g).fenced = false ∨ retireBlocked u g = true) :
    colRetireStatus u g = stMode := by
  simp only [colRetireStatus, show ¬ 4095 < g by omega, hr, Bool.false_eq_true, if_false]
  rcases h with h | h
  · simp only [h, Bool.not_false, if_true]
  · simp only [h, if_true, ite_self]

theorem colRetireStatus_of_fenced (hr : (u.col g).retired = false) (hf : (u.col g).fenced = true) (hb : retireBlocked u g = false) :
    colRetireStatus u g = stOk := by
  simp only [colRetireStatus, show ¬ 4095 < g by omega, hr, hf, hb, Bool.not_true, Bool.false_eq_true, if_false]

end PickFence

theorem retireBegin_of_retired {u : State} {g : Nat} (h : (u.col g).retired = true) : retireBegin u g = u := if_pos h

theorem retireBegin_cols {u : State} {g : Nat} (h : (u.col g).retired = false) : (retireBegin u g).cols = (colRetired u g).cols := by
  simp only [retireBegin, h, Bool.false_eq_true, if_false]
  rw [raiseEmcy_eq, logRec_eq]
  rfl

theorem colRetired_retired {u : State} {g : Nat} (hw : tabWf ({} : Col) u.cols = true) : ((colRetired u g).col g).retired = true :=
  congrArg Col.retired (State.col_setCol_same hw g _)

theorem retireBegin_retired {u : State} {g : Nat} (h : (u.col g).retired = false) (hw : tabWf ({} : Col) u.cols = true) :
    ((retireBegin u g).col g).retired = true := by
  rw [State.col, retireBegin_cols h]
  exact colRetired_retired hw

/-! ## Objects of the fault log -/

theorem flogSel_of_none {u : State} {v : W32} (h : ∀ r ∈ u.log.recs, r.fseq ≠ v) : flogSel u v = (u, stOob) := by
  have hn : (u.log.recs.find? fun r => r.fseq == v) = none :=
    List.find?_eq_none.2 fun r hr => by rw [beq_false_of_ne (h r hr)]; exact Bool.false_ne_true
  simp only [flogSel, hn]

theorem flogSel_of_held {u : State} {v : W32} {r : FaultRec} (h : (u.log.recs.find? fun x => x.fseq == v) = some r) :
    flogSel u v = ({ u with log := { u.log with sel := v, snap := faultWord r } }, stOk) := by
  simp only [flogSel, h]

theorem flogSavedSel_of_none {u : State} {v : W16} (h : u.log.saved.length ≤ v.toNat) : flogSavedSel u v = (u, stOob) := by
  have hn : u.log.saved.reverse[v.toNat]? = none := List.getElem?_eq_none (by rwa [List.length_reverse])
  simp only [flogSavedSel, hn]

theorem flogSavedSel_of_held {u : State} {v : W16} {r : FaultRec} (h : u.log.saved.reverse[v.toNat]? = some r) :
    flogSavedSel u v = ({ u with log := { u.log with savedSel := v, savedSnap := faultWord r } }, stOk) := by
  simp only [flogSavedSel, h]

theorem flogClear_of_other {u : State} {v : Byte} (h : v ≠ 1) : flogClear u v.toNat = (u, stOob) :=
  if_neg fun hv => h (BitVec.eq_of_toNat_eq hv)

/-- Settles O60: each write by its status, row by row of Table 15.6; the reports at a fence's end leave the counts, the jobs and the
service record as the end of the fence set them. -/
theorem fencesAndFaultLog : Obligations.FencesAndFaultLog := by
  unfold Obligations.FencesAndFaultLog
  intro s p g f u
  have hv := toNat_ofNat_face f.isLt
  have hg := toNat_ofNat_pick g.isLt
  have hne : stMode ≠ stOk ∧ stOob ≠ stOk ∧ stFenced ≠ stOk ∧ stBusy ≠ stOk := by decide
  obtain ⟨hmode, hoob, hfenced, hbusy⟩ := hne
  refine ⟨fun ho => ⟨fun h => ?_, fun hs => ⟨fun h => ?_, fun h hn => ⟨fun hj => ?_, fun hj => ?_⟩⟩⟩, fun ho v h => ?_,
    fun ho => ⟨fun h => ?_, fun hs hn hr => ⟨fun hj => ?_, fun hj => ?_⟩⟩, fun h => ?_,
    fun j rest h hp => ⟨_, rfl, fenceComplete_pick_effects h hp⟩,
    fun ho => ⟨fun h => ?_, fun hr h => ?_, fun hr hf hb => ⟨?_, retireBegin_retired hr⟩⟩,
    fun ho v => ⟨fun h => ?_, fun r h => ?_⟩, fun ho v => ⟨fun h => ?_, fun r h => ?_⟩, fun ho => ⟨?_, fun v h => ?_⟩⟩
  · exact answers_of_dictRowThen rfl ho (by rw [hv, faceFenceStatus_of_state f.isLt h]) hmode
  · exact answers_of_dictRowThen rfl ho (by rw [hv, faceFenceStatus_of_unbound f.isLt hs h]) hfenced
  · exact answers_of_dictRowThen rfl ho (by rw [hv, faceFenceStatus_of_bound f.isLt hs h hn, if_pos hj]) hbusy
  · have hst : faceFenceStatus u (BitVec.ofNat 8 f.val).toNat = stOk := by
      rw [hv, faceFenceStatus_of_bound f.isLt hs h hn, if_neg (Decidable.not_not.2 hj)]
    have hgive := gives_of_dictRowThen (c := .faceFence p (BitVec.ofNat 8 f.val)) (check := (faceFenceStatus · _)) rfl ho hst
    rwa [hv] at hgive
  · exact answers_of_dictRowThen rfl ho (faceFenceStatus_of_none h) hoob
  · exact answers_of_dictRowThen rfl ho (by rw [hg, pickFenceStatus_of_state g.isLt h]) hmode
  · exact answers_of_dictRowThen rfl ho (by rw [hg, pickFenceStatus_of_live g.isLt hs hn hr, if_pos hj]) hbusy
  · have hst : pickFenceStatus u (BitVec.ofNat 16 g.val).toNat = stOk := by
      rw [hg, pickFenceStatus_of_live g.isLt hs hn hr, if_neg (Decidable.not_not.2 hj)]
    have hgive := gives_of_dictRowThen (c := .pickFence p (BitVec.ofNat 16 g.val)) (check := (pickFenceStatus · _)) rfl ho hst
    rwa [hg] at hgive
  · exact congrArg Host.Outcome.next (fenceComplete_of_none h)
  · exact answers_of_dictRow1 rfl ho (by
      simp only [hg, colRetireStatus_of_retired g.isLt h, if_true, retireBegin_of_retired h])
  · exact answers_of_dictRow1 rfl ho (by simp only [hg, colRetireStatus_of_bad g.isLt hr h, hmode, if_false])
  · exact answers_of_dictRow1 rfl ho (by simp only [hg, colRetireStatus_of_fenced g.isLt hr hf hb, if_true])
  · exact answers_of_dictRow1 rfl ho (flogSel_of_none h)
  · exact answers_of_dictRow1 rfl ho (flogSel_of_held h)
  · exact answers_of_dictRow1 rfl ho (flogSavedSel_of_none h)
  · exact answers_of_dictRow1 rfl ho (flogSavedSel_of_held h)
  · exact answers_of_dictRow1 rfl ho rfl
  · exact answers_of_dictRow1 rfl ho (flogClear_of_other h)

end Sys2Proof.Machine
end

section
/-! SUPPORT. Face SRAM without errors is plain memory: what a read brings and what a write leaves, byte by byte (R192). -/

namespace Sys2Proof.Machine
open Sys2Proof.Claims

/-! ## Runs of bytes -/

@[simp] theorem length_rdBytes (s : State) (k n : Nat) : (s.rdBytes k n).length = n := by
  rw [State.rdBytes, List.length_map, List.length_range]

theorem getElem_rdBytes (s : State) {k n i : Nat} (h : i < (s.rdBytes k n).length) : (s.rdBytes k n)[i] = s.rdByte (k + i) := by
  simp only [State.rdBytes, List.getElem_map, List.getElem_range]

theorem rdBytes_add (s : State) (k m n : Nat) : s.rdBytes k (m + n) = s.rdBytes k m ++ s.rdBytes (k + m) n := by
  simp only [State.rdBytes, List.range_add, List.map_append, List.map_map, Function.comp_def, Nat.add_assoc]

theorem flatMap_rdBytes (s : State) (k w m : Nat) : ((List.range m).flatMap fun i => s.rdBytes (k + w * i) w) = s.rdBytes k (w * m) := by
  induction m with
  | zero => rfl
  | succ m ih => rw [List.range_succ, List.flatMap_append, ih, List.flatMap_singleton, Nat.mul_succ, rdBytes_add]

theorem take_drop_rdBytes (s : State) {k a n m : Nat} (h : a + n ≤ m) : ((s.rdBytes k m).drop a).take n = s.rdBytes (k + a) n := by
  obtain ⟨r, rfl⟩ := Nat.exists_eq_add_of_le h
  rw [rdBytes_add, rdBytes_add, List.append_assoc, List.drop_left' (length_rdBytes ..), List.take_left' (length_rdBytes ..)]

theorem wrBytes_eq (s : State) (k : Nat) (bs : List Byte) : s.wrBytes k bs = { s with mem := (s.wrBytes k bs).mem } :=
  wrBytes_frame s k bs (s.wrBytes k bs).mem

theorem cleanBytes_length (bs : List Byte) : (cleanBytes bs).length = bs.length := List.length_map _

theorem any_poison_cleanBytes (bs : List Byte) : (cleanBytes bs).any (·.2) = false := by
  rw [cleanBytes, List.any_map]
  exact List.any_eq_false.2 fun _ _ => Bool.false_ne_true

theorem sramKey_word (f o i : Nat) : 8 * sramWord f ((o / 8 + i) * 8) = sramKey f (o / 8 * 8) + 8 * i := by
  unfold sramWord sramKey
  omega

theorem getD_of_lt {bs : List Byte} {i : Nat} (h : i < bs.length) : bs.getD i 0 = bs[i] := by
  rw [List.getD_eq_getElem?_getD, List.getElem?_eq_getElem h, Option.getD_some]

section Clean
variable {s : State} (hclean : s.sramErr = [])
include hclean

theorem sramRead_of_clean (f off n : Nat) (code : W16) (ctx : BitVec 6) :
    sramRead s f off n code ctx = (s, cleanBytes (s.rdBytes (sramKey f off) n)) := by
  have hwords : ((wordsOf off n).flatMap fun o => cleanBytes (s.rdBytes (8 * sramWord f o) 8)) =
      cleanBytes (s.rdBytes (sramKey f (off / 8 * 8)) (8 * ((off % 8 + n + 7) / 8))) := by
    rw [← flatMap_rdBytes, cleanBytes, List.map_flatMap, wordsOf, List.flatMap_map]
    simp only [sramKey_word, cleanBytes]
  have hkey : sramKey f (off / 8 * 8) + off % 8 = sramKey f off := by unfold sramKey; omega
  simp only [sramRead, readSramWords_of_clean hclean, hwords]
  rw [cleanBytes, ← List.map_drop, ← List.map_take, take_drop_rdBytes s (by omega), hkey, ← cleanBytes]

/-! ## Writes -/

/-- The bytes of a word after a write of a string from an offset. -/
def wordAfter (s : State) (f off : Nat) (data : List Byte) (o : Nat) : List Byte :=
  (List.range 8).map fun j => if off ≤ o + j ∧ o + j < off + data.length then data.getD (o + j - off) 0 else s.rdByte (sramKey f o + j)

omit hclean in
theorem length_wordAfter (f off : Nat) (data : List Byte) (o : Nat) : (wordAfter s f off data o).length = 8 := by
  rw [wordAfter, List.length_map, List.length_range]

omit hclean in
theorem getElem_wordAfter (f off : Nat) (data : List Byte) (o : Nat) {j : Nat} (h : j < (wordAfter s f off data o).length) :
    (wordAfter s f off data o)[j] =
      if off ≤ o + j ∧ o + j < off + data.length then data.getD (o + j - off) 0 else s.rdByte (sramKey f o + j) := by
  simp only [wordAfter, List.getElem_map, List.getElem_range]

section Word
omit hclean
variable {f off o : Nat} {data : List Byte}

/-- A write that covers a word whole. -/
theorem wordAfter_of_whole (hlo : off ≤ o) (hhi : o + 8 ≤ off + data.length) : wordAfter s f off data o = (data.drop (o - off)).take 8 := by
  refine List.ext_getElem ?_ fun j h1 h2 => ?_
  · rw [length_wordAfter, List.length_take, List.length_drop]
    omega
  · rw [length_wordAfter] at h1
    rw [getElem_wordAfter, if_pos (by omega), getD_of_lt (by omega), List.getElem_take, List.getElem_drop]
    congr 1
    omega

/-- The part of a word that a write covers lies between bytes that stand. -/
theorem wordAfter_of_part {a n : Nat} (hlo : off ≤ o + a) (hhi : o + a + n ≤ off + data.length) (h8 : a + n ≤ 8)
    (ha : o + a = off ∨ a = 0) (hn : o + a + n = off + data.length ∨ a + n = 8) :
    wordAfter s f off data o = overlay (s.rdBytes (sramKey f o) 8) a ((data.drop (o + a - off)).take n) := by
  have hnew : ((data.drop (o + a - off)).take n).length = n := by rw [List.length_take, List.length_drop]; omega
  have htake : ((s.rdBytes (sramKey f o) 8).take a).length = a := by rw [List.length_take, length_rdBytes]; omega
  rw [overlay, length_rdBytes, List.take_of_length_le (Nat.le_trans (Nat.le_of_eq hnew) (by omega)), hnew]
  have hleft : ((s.rdBytes (sramKey f o) 8).take a ++ (data.drop (o + a - off)).take n).length = a + n := by
    rw [List.length_append, htake, hnew]
  refine List.ext_getElem ?_ fun j h1 h2 => ?_
  · rw [length_wordAfter, List.length_append, hleft, List.length_drop, length_rdBytes]
    omega
  · rw [length_wordAfter] at h1
    rw [getElem_wordAfter]
    by_cases hj : j < a + n
    · rw [List.getElem_append_left (by rwa [hleft])]
      by_cases hja : j < a
      · rw [if_neg (by omega), List.getElem_append_left (by rwa [htake]), List.getElem_take, getElem_rdBytes]
      · rw [if_pos (by omega), List.getElem_append_right (by rw [htake]; omega), List.getElem_take, List.getElem_drop,
          getD_of_lt (by omega)]
        congr 1
        rw [htake]
        omega
    · rw [if_neg (by omega), List.getElem_append_right (by rw [hleft]; omega), List.getElem_drop, getElem_rdBytes]
      congr 1
      rw [hleft]
      omega

end Word

/-- A write to one word of SRAM that reads without an error. -/
theorem writeSramPart_of_clean {f off o : Nat} {data : List Byte} (code : W16) (ctx : BitVec 6) (h8 : o % 8 = 0)
    (hlo : o < off + data.length) (hhi : off < o + 8) : writeSramPart s f off (cleanBytes data) code ctx o =
      (s.wrBytes (sramKey f o) (wordAfter s f off data o), stOk) := by
  have hkey : 8 * sramWord f o = sramKey f o := by unfold sramWord sramKey; omega
  have hput (bs : List Byte) : writeSramWord s f o bs false = s.wrBytes (sramKey f o) bs := by
    have herr : tset 0 (s.wrBytes (sramKey f o) bs).sramErr (sramWord f o) 0 = (s.wrBytes (sramKey f o) bs).sramErr := by
      rw [wrBytes_eq]
      show tset 0 s.sramErr (sramWord f o) 0 = s.sramErr
      rw [hclean]
      rfl
    simp only [writeSramWord, hkey, Bool.false_eq_true, if_false, herr]
  have hflag (a n : Nat) : (((cleanBytes data).drop a).take n).any (·.2) = false := by
    rw [cleanBytes, ← List.map_drop, ← List.map_take]
    exact any_poison_cleanBytes _
  have hnew (a n : Nat) : (((cleanBytes data).drop a).take n).map (·.1) = (data.drop a).take n := by
    rw [cleanBytes, ← List.map_drop, ← List.map_take, List.map_map]
    exact List.map_id _
  simp only [writeSramPart, cleanBytes_length, hflag, hnew, readSramWord_of_clean hclean, hkey, Bool.or_self, hput, Bool.false_eq_true,
    if_false]
  obtain ⟨a, ha⟩ : ∃ a, max off o = o + a := ⟨max off o - o, by omega⟩
  obtain ⟨n, hn⟩ : ∃ n, min (off + data.length) (o + 8) = o + a + n := ⟨min (off + data.length) (o + 8) - (o + a), by omega⟩
  rw [ha, hn, Nat.add_sub_cancel_left, Nat.add_sub_cancel_left]
  split
  · rw [wordAfter_of_whole (by omega) (by omega), ‹n = 8›, show o + a = o by omega]
  · rw [wordAfter_of_part (a := a) (n := n) (by omega) (by omega) (by omega) (by omega) (by omega)]

end Clean

/-- A byte of the range of a write that lies in one of some words. -/
def Covered (f off n : Nat) (os : List Nat) (k : Nat) : Prop :=
  (∃ o ∈ os, sramKey f o ≤ k ∧ k < sramKey f o + 8) ∧ sramKey f off ≤ k ∧ k < sramKey f off + n

theorem covered_append {f off n : Nat} {os os' : List Nat} {k : Nat} :
    Covered f off n (os ++ os') k ↔ Covered f off n os k ∨ Covered f off n os' k := by
  simp only [Covered, List.mem_append, or_and_right, exists_or]

theorem not_covered_nil (f off n k : Nat) : ¬ Covered f off n [] k := fun ⟨⟨_, ho, _⟩, _⟩ => List.not_mem_nil ho

/-- A state that differs in memory alone, where it reads as the words of a write have left it. -/
structure SramPut (s t : State) (f off : Nat) (data : List Byte) (os : List Nat) : Prop where
  frame : ∃ m, t = { s with mem := m }
  wf : memWf t.mem = true
  written : ∀ k, Covered f off data.length os k → t.rdByte k = data.getD (k - sramKey f off) 0
  kept : ∀ k, ¬ Covered f off data.length os k → t.rdByte k = s.rdByte k

theorem sramPut_word {s : State} (hm : memWf s.mem = true) (f off : Nat) (data : List Byte) (o : Nat) :
    SramPut s (s.wrBytes (sramKey f o) (wordAfter s f off data o)) f off data [o] := by
  have hlen := length_wordAfter (s := s) f off data o
  have hkey (a : Nat) : sramKey f a = sramKey f 0 + a := by unfold sramKey; omega
  have hin {j : Nat} (hj : j < 8) := (rdByte_wrBytes_in hm (k := sramKey f o) (wordAfter s f off data o) (Nat.lt_of_lt_of_eq hj hlen.symm)).trans
    (getElem_wordAfter ..)
  refine ⟨⟨_, wrBytes_eq s _ _⟩, memWf_wrBytes hm _ _,
    fun k ⟨hk, h1, h2⟩ => ?_, fun k hk => ?_⟩
  · obtain ⟨o', ho, hk1, hk2⟩ := hk
    rw [List.mem_singleton.1 ho] at hk1 hk2
    obtain ⟨j, rfl⟩ := Nat.exists_eq_add_of_le hk1
    have hoff := hkey off
    have hword := hkey o
    rw [hin (by omega), if_pos (by omega)]
    congr 1
    omega
  · by_cases hw : sramKey f o ≤ k ∧ k < sramKey f o + 8
    · obtain ⟨j, rfl⟩ := Nat.exists_eq_add_of_le hw.1
      refine (hin (by omega)).trans (if_neg fun h => hk ⟨⟨o, List.mem_singleton_self o, hw⟩, ?_⟩)
      rw [hkey off, hkey o]
      omega
    · exact rdByte_wrBytes_out s _ (by rw [hlen]; omega)

theorem SramPut.trans {s t u : State} {f off : Nat} {data : List Byte} {os os' : List Nat} (h : SramPut s t f off data os)
    (h' : SramPut t u f off data os') : SramPut s u f off data (os ++ os') := by
  refine ⟨?_, h'.wf, fun k hk => ?_, fun k hk => ?_⟩
  · obtain ⟨m, rfl⟩ := h.frame
    obtain ⟨m', rfl⟩ := h'.frame
    exact ⟨m', rfl⟩
  · by_cases hk' : Covered f off data.length os' k
    · exact h'.written k hk'
    · exact (h'.kept k hk').trans (h.written k ((covered_append.1 hk).resolve_right hk'))
  · exact (h'.kept k fun hc => hk (covered_append.2 (.inr hc))).trans (h.kept k fun hc => hk (covered_append.2 (.inl hc)))

/-- A whole write: every byte of its range lies in one of its words. -/
theorem sramPut_wordsOf {s t : State} {f off : Nat} {data : List Byte} (h : SramPut s t f off data (wordsOf off data.length)) :
    t.rdBytes (sramKey f off) data.length = data ∧
      ∀ j, j < sramKey f off ∨ sramKey f off + data.length ≤ j → t.rdByte j = s.rdByte j := by
  refine ⟨List.ext_getElem (length_rdBytes ..) fun i h1 h2 => ?_, fun j hj => ?_⟩
  · have hcov : Covered f off data.length (wordsOf off data.length) (sramKey f off + i) := by
      refine ⟨⟨(off / 8 + (off % 8 + i) / 8) * 8, List.mem_map.2 ⟨(off % 8 + i) / 8, List.mem_range.2 (by omega), rfl⟩, ?_⟩,
        by omega, by omega⟩
      unfold sramKey
      omega
    rw [getElem_rdBytes, h.written _ hcov, Nat.add_sub_cancel_left, getD_of_lt h2]
  · exact h.kept j fun hc => by
      obtain ⟨-, h1, h2⟩ := hc
      omega

theorem writeParts_of_clean {s : State} (hclean : s.sramErr = []) (hm : memWf s.mem = true) {f off : Nat} {data : List Byte}
    (code : W16) (ctx : BitVec 6) {os : List Nat} (hos : ∀ o ∈ os, o % 8 = 0 ∧ o < off + data.length ∧ off < o + 8) :
    ∃ t, os.foldl (fun (a : State × Byte) o =>
        let (t, st) := writeSramPart a.1 f off (cleanBytes data) code ctx o
        (t, if st = stOk then a.2 else st)) (s, stOk) = (t, stOk) ∧ SramPut s t f off data os := by
  induction os generalizing s with
  | nil => exact ⟨s, rfl, ⟨_, rfl⟩, hm, fun k hk => absurd hk (not_covered_nil f off _ k), fun _ _ => rfl⟩
  | cons o os ih =>
    obtain ⟨h8, hlo, hhi⟩ := hos o List.mem_cons_self
    have hput := sramPut_word hm f off data o
    have herr : (s.wrBytes (sramKey f o) (wordAfter s f off data o)).sramErr = [] := by
      obtain ⟨m, hframe⟩ := hput.frame
      rw [hframe]
      exact hclean
    obtain ⟨t, ht, hrest⟩ := ih herr hput.wf fun x hx => hos x (List.mem_cons_of_mem _ hx)
    refine ⟨t, ?_, hput.trans hrest⟩
    simp only [List.foldl_cons, writeSramPart_of_clean hclean code ctx h8 hlo hhi, if_true]
    exact ht

theorem sramWrite_of_clean {s : State} (hclean : s.sramErr = []) (hm : memWf s.mem = true) (f off : Nat) (data : List Byte) (code : W16) (ctx : BitVec 6) :
    ∃ t, sramWrite s f off (cleanBytes data) code ctx = (t, stOk) ∧ SramPut s t f off data (wordsOf off data.length) := by
  rw [sramWrite, cleanBytes_length]
  refine writeParts_of_clean hclean hm code ctx fun o ho => ?_
  obtain ⟨i, hi, rfl⟩ := List.mem_map.1 ho
  have := List.mem_range.1 hi
  omega

end Sys2Proof.Machine
end

section
/-! SUPPORT. A hoist's accesses to blocks that lie in face SRAM (R46, R200, R213). -/

namespace Sys2Proof.Machine
open Sys2Proof.Claims

/-! ## What one access leaves -/

/-- What an access of a unit to face SRAM can touch: a domain that wakes, the request numbers, memory, and its own entry among the
transfers. -/
def Reached (who : Waiter) (i : Nat) (s t : State) : Prop := ∃ p n q m x,
  t = { s with power := p, freeTick := n, reqNext := q, mem := m, xfers := s.xfers ++ [x] } ∧ x.owner = .inner who i

theorem wakeDomain_frame (s : State) (d : Nat) : ∃ p n, wakeDomain s d = { s with power := p, freeTick := n } := by
  simp only [wakeDomain]
  split
  · exact ⟨_, _, rfl⟩
  · exact ⟨_, _, rfl⟩

theorem innerXfer_of_append {s t : State} {who : Waiter} {j : Nat} {l : List Xfer} (h : t.xfers = s.xfers ++ l)
    (hn : innerXfer s who j = none) : innerXfer t who j = l.find? fun x => x.owner == .inner who j := by
  unfold innerXfer at *
  rw [h, List.find?_append, hn, Option.none_or]

theorem Reached.innerXfer_other {who : Waiter} {i j : Nat} {s t : State} (h : Reached who i s t) (hj : j ≠ i)
    (hn : innerXfer s who j = none) : innerXfer t who j = none := by
  obtain ⟨p, n, q, m, x, rfl, hx⟩ := h
  rw [innerXfer_of_append (l := [x]) rfl hn]
  have hne : (x.owner == .inner who j) = false := by
    rw [hx]
    exact beq_false_of_ne fun h => hj (XferOwner.inner.inj h).2.symm
  rw [List.find?_cons, hne]
  rfl

theorem inSram_of_reached {who : Waiter} {i : Nat} {s t : State} {r : HoistRun} {va len p a : Nat} (h : InSram s r va len p a)
    (ht : Reached who i s t) : InSram t r va len p a := by
  obtain ⟨_, _, _, _, _, rfl, -⟩ := ht
  exact h

theorem Reached.sramErr {who : Waiter} {i : Nat} {s t : State} (ht : Reached who i s t) : t.sramErr = s.sramErr := by
  obtain ⟨_, _, _, _, _, rfl, -⟩ := ht
  rfl

theorem Reached.faces {who : Waiter} {i : Nat} {s t : State} (ht : Reached who i s t) : t.faces = s.faces := by
  obtain ⟨_, _, _, _, _, rfl, -⟩ := ht
  rfl

theorem Reached.stackTbl {who : Waiter} {i : Nat} {s t : State} (ht : Reached who i s t) : t.stackTbl = s.stackTbl := by
  obtain ⟨_, _, _, _, _, rfl, -⟩ := ht
  rfl

/-! ## A block in one page -/

theorem rangePieces_of_page {va len : Nat} (h0 : 0 < len) (hva : va < 2 ^ 40) (hp : va % 2 ^ 24 + len ≤ 2 ^ 24) :
    rangePieces va len = [(va, len)] := by
  have hone : pageCount va len = 1 := by
    rw [pageCount, if_neg (by omega)]
    omega
  have hmin : min (va + len) ((va / 2 ^ 24 + 0 + 1) * 2 ^ 24) = va + len := by omega
  simp only [rangePieces, hone, List.range_one, List.map_cons, List.map_nil, if_true, hmin, Nat.mod_eq_of_lt hva,
    Nat.add_sub_cancel_left]

/-- The one piece of a block in SRAM. -/
structure SramPiece (s : State) (len p a pa : Nat) : Prop where
  page : isSramPage (pa / 2 ^ 24) = true
  check : paCheck s pa len = stOk
  place : sramPlace s pa = some (p, a)

theorem vaBlock_of_inSram {s : State} {r : HoistRun} {va len p a : Nat} (h : InSram s r va len p a) :
    ∃ pa, (∀ wr, vaBlock r len wr va = ⟨va, [⟨pa, len, wr⟩]⟩) ∧ SramPiece s len p a pa := by
  obtain ⟨h0, hva, hp, hs, hc, hl⟩ := h
  exact ⟨_, fun wr => by rw [vaBlock, rangePieces_of_page h0 hva hp, List.map_singleton], hs, hc, hl⟩

/-! ## Beginning an access -/

section Begin
variable {s t : State} {q : Req} {i va pa len : Nat} {wr : Bool} {data bs : List PByte} {st : Byte}

theorem isDramPage_of_sram {n : Nat} (hs : isSramPage n = true) : isDramPage n = false := by
  simp only [isSramPage, Bool.and_eq_true, decide_eq_true_eq] at hs
  exact decide_eq_false (by omega)

theorem granulesFrom_of_sram (s : State) (base len : Nat) (hs : isSramPage (pa / 2 ^ 24) = true) :
    granulesFrom s base [(pa, len)] = [] := by
  simp only [granulesFrom, isDramPage_of_sram hs, Bool.false_eq_true, if_false, List.append_nil]

theorem withTag_of_log (tag : W16) (h : t.log = s.log) : withTag tag s t = t := by
  rw [withTag, h, BitVec.sub_self]
  rfl

/-- An access to SRAM alone is over as it begins. -/
theorem innerBegin_of_sram (hs : isSramPage (pa / 2 ^ 24) = true) (hlog : t.log = s.log)
    (hl : localPieces s.newReq.2 q 0 data (if wr then [] else List.replicate len (0, false)) stOk [⟨pa, len, wr⟩] = (t, bs, st)) :
    ∃ x, innerBegin s q i va wr [⟨pa, len, wr⟩] data = { t with xfers := t.xfers ++ [x] } ∧ x.owner = .inner q.who i ∧ x.left = 0 ∧
      x.data = bs ∧ x.status = st := by
  have htag : withTag q.tag s.newReq.2 t = t := withTag_of_log _ hlog
  simp only [innerBegin, List.map_singleton, List.sum_singleton, hl, htag, granulesFrom_of_sram _ _ _ hs]
  exact ⟨_, rfl, rfl, rfl, rfl, rfl⟩

end Begin

/-! ## One access to a block -/

section Access
variable {s t : State} {q : Req} {i va pa len p a : Nat} (hp : SramPiece s len p a pa) (hn : innerXfer s q.who i = none)
include hp hn

/-- Where the pieces of the access are done at once, so is the access. -/
theorem blockAccess_of_pieces {wr : Bool} {data bs : List PByte} {st : Byte} (hlog : t.log = s.log) (hx : t.xfers = s.xfers)
    (hl : localPieces s.newReq.2 q 0 data (if wr then [] else List.replicate len (0, false)) stOk [⟨pa, len, wr⟩] = (t, bs, st)) :
    ∃ x, blockAccess s q i wr ⟨va, [⟨pa, len, wr⟩]⟩ data = .ok { t with xfers := s.xfers ++ [x] } (st, bs) ∧
      x.owner = .inner q.who i := by
  obtain ⟨x, hb, hown, hleft, hdata, hst⟩ := innerBegin_of_sram (i := i) (va := va) hp.page hlog hl
  have hfind : innerXfer { t with xfers := s.xfers ++ [x] } q.who i = some x := by
    rw [innerXfer_of_append (l := [x]) rfl hn, List.find?_cons, hown, beq_self_eq_true]
  refine ⟨x, ?_, hown⟩
  simp only [blockAccess, hn, Option.isSome_none, Bool.false_eq_true, if_false, List.find?_cons, hp.check, ne_eq, not_true_eq_false,
    decide_false, List.find?_nil, innerAccess, hb, hx, innerResult, hfind, hleft, if_true, hdata, hst]

variable (hclean : s.sramErr = [])
include hclean

theorem blockAccess_read : ∃ t, blockAccess s q i false ⟨va, [⟨pa, len, false⟩]⟩ [] =
      .ok t (stOk, cleanBytes (s.rdBytes (sramKey p a) len)) ∧ Reached q.who i s t ∧ t.mem = s.mem := by
  obtain ⟨pw, n, hw⟩ := wakeDomain_frame s.newReq.2 (11 + clusterOf p)
  have hplace : sramPlace s.newReq.2 pa = some (p, a) := hp.place
  obtain ⟨w, hwdef⟩ : ∃ w, ({ s.newReq.2 with power := pw, freeTick := n } : State) = w := ⟨_, rfl⟩
  have hread : paRead s.newReq.2 pa len q.code q.ctx = (w, cleanBytes (s.rdBytes (sramKey p a) len)) := by
    have hwc : w.sramErr = [] := by rw [← hwdef]; exact hclean
    have hwm : w.rdBytes (sramKey p a) len = s.rdBytes (sramKey p a) len := by rw [← hwdef]; rfl
    simp only [paRead, hp.page, if_true, hplace, hw, hwdef, sramRead_of_clean hwc, hwm]
  have hdram : isDramPage (pa / 2 ^ 24) = false := isDramPage_of_sram hp.page
  have hlen : (cleanBytes (s.rdBytes (sramKey p a) len)).length = len := by rw [cleanBytes_length, length_rdBytes]
  have hl : localPieces s.newReq.2 q 0 [] (if false then [] else List.replicate len (0, false)) stOk [⟨pa, len, false⟩] =
      (w, cleanBytes (s.rdBytes (sramKey p a) len), stOk) := by
    have hpoison : anyPoison (cleanBytes (s.rdBytes (sramKey p a) len)) = false := any_poison_cleanBytes _
    simp only [localPieces, hdram, hread, Bool.false_eq_true, if_false, overlayP_replicate hlen, hpoison]
    rfl
  obtain ⟨x, hx, hown⟩ := blockAccess_of_pieces hp hn (va := va) (by rw [← hwdef]; rfl) (by rw [← hwdef]; rfl) hl
  subst hwdef
  exact ⟨_, hx, ⟨_, _, _, _, x, rfl, hown⟩, rfl⟩

theorem blockAccess_write (hm : memWf s.mem = true) {data : List Byte} (hd : data.length = len) :
    ∃ t, blockAccess s q i true ⟨va, [⟨pa, len, true⟩]⟩ (cleanBytes data) = .ok t (stOk, []) ∧ Reached q.who i s t ∧
      t.rdBytes (sramKey p a) len = data ∧
      ∀ j, j < sramKey p a ∨ sramKey p a + len ≤ j → t.rdByte j = s.rdByte j := by
  obtain ⟨pw, n, hw⟩ := wakeDomain_frame s.newReq.2 (11 + clusterOf p)
  have hplace : sramPlace s.newReq.2 pa = some (p, a) := hp.place
  obtain ⟨w, hwdef⟩ : ∃ w, ({ s.newReq.2 with power := pw, freeTick := n } : State) = w := ⟨_, rfl⟩
  have hwm : w.mem = s.mem := by rw [← hwdef]; rfl
  obtain ⟨t, hwr, hput⟩ := sramWrite_of_clean (s := w) (by rw [← hwdef]; exact hclean) (by rwa [hwm]) p a data q.code q.ctx
  obtain ⟨hback, hother⟩ := sramPut_wordsOf hput
  obtain ⟨m, hframe⟩ := hput.frame
  have hdram : isDramPage (pa / 2 ^ 24) = false := isDramPage_of_sram hp.page
  have htake : ((cleanBytes data).drop 0).take len = cleanBytes data :=
    List.take_of_length_le (Nat.le_of_eq ((cleanBytes_length data).trans hd))
  have hl : localPieces s.newReq.2 q 0 (cleanBytes data) (if true then [] else List.replicate len (0, false)) stOk
      [⟨pa, len, true⟩] = (t, [], stOk) := by
    simp only [localPieces, hdram, htake, paWrite, hp.page, hplace, hw, hwdef, hwr, Bool.false_eq_true, if_false, if_true]
    rfl
  obtain ⟨x, hx, hown⟩ := blockAccess_of_pieces hp hn (va := va) (by rw [hframe, ← hwdef]; rfl) (by rw [hframe, ← hwdef]; rfl) hl
  refine ⟨_, hx, ?_, ?_, ?_⟩
  · subst hframe hwdef
    exact ⟨_, _, _, _, x, rfl, hown⟩
  · rw [hd] at hback
    exact hback
  · rw [hd] at hother
    exact fun j hj => (hother j hj).trans (congrArg (tget 0 · j) hwm)

end Access

/-! ## One block read or written -/

/-- A state whose memory reads a string at a key and elsewhere as before. -/
structure BytesPut (s t : State) (k n : Nat) (bs : List Byte) : Prop where
  put : t.rdBytes k n = bs
  others : ∀ j, j < k ∨ k + n ≤ j → t.rdByte j = s.rdByte j

theorem markBlock_of_clean (bs : List Byte) : markBlock (cleanBytes bs) = cleanBytes bs :=
  if_neg (by rw [anyPoison, any_poison_cleanBytes]; exact Bool.false_ne_true)

theorem cleanBytes_ne_nil {bs : List Byte} (h : 0 < bs.length) : cleanBytes bs ≠ [] := fun he => by
  rw [← cleanBytes_length, he] at h
  exact Nat.lt_irrefl 0 h

section OneBlock
variable {s : State} {r : HoistRun} {va len p a : Nat} (h : InSram s r va len p a) (hclean : s.sramErr = []) {q : Req} {i : Nat}
  (hn : innerXfer s q.who i = none)
include h hclean hn

theorem readBlocks_of_inSram : ∃ t, readBlocks s q i [vaBlock r len false va] = .ok t [(stOk, cleanBytes (s.rdBytes (sramKey p a) len))] ∧
    Reached q.who i s t ∧ t.mem = s.mem := by
  obtain ⟨pa, hb, hp⟩ := vaBlock_of_inSram h
  obtain ⟨t, ht, hreach, hmem⟩ := blockAccess_read hp hn (va := va) hclean
  refine ⟨t, ?_, hreach, hmem⟩
  have hbad : stBad stOk = false := by decide
  simp only [readBlocks, hb, chkAll, ht, Chk.andThen, hbad, Bool.false_eq_true, if_false, markBlock_of_clean]

theorem writeBlocks_of_inSram (hm : memWf s.mem = true) {data : List Byte} (hd : data.length = len) :
    ∃ t, writeBlocks s q i [(vaBlock r len true va, cleanBytes data)] = .ok t [stOk] ∧ Reached q.who i s t ∧
      BytesPut s t (sramKey p a) len data := by
  have h0 : 0 < data.length := by
    obtain ⟨h0, -⟩ := h
    rwa [hd]
  obtain ⟨pa, hb, hp⟩ := vaBlock_of_inSram h
  obtain ⟨t, ht, hreach, hput, hothers⟩ := blockAccess_write hp hn (va := va) hclean hm hd
  refine ⟨t, ?_, hreach, hput, hothers⟩
  simp only [writeBlocks, hb, chkAll, cleanBytes_ne_nil h0, ht, Chk.andThen, if_false]

end OneBlock

theorem BytesPut.of_mem {s t u v : State} {k n : Nat} {bs : List Byte} (h : BytesPut t u k n bs) (hs : t.mem = s.mem)
    (hv : v.mem = u.mem) : BytesPut s v k n bs := by
  obtain ⟨hput, hothers⟩ := h
  simp only [State.rdBytes, State.rdByte, ← hv, hs] at hput hothers
  exact ⟨hput, hothers⟩

end Sys2Proof.Machine
end

section
/-! SUPPORT. A hoist's transfer, move by move, and its end (R197, R200, R205 to R210, R214, R217). -/

namespace Sys2Proof.Machine
open Sys2Proof.Claims

/-! ## Counting a move leaves memory and the generator -/

/-- Memory and the stochastic-rounding state of a face stand. -/
structure CountKept (f : Nat) (s t : State) : Prop where
  mem : t.mem = s.mem
  stackTbl : t.stackTbl = s.stackTbl
  wf : tabWf ({} : Face) s.faces = true → tabWf ({} : Face) t.faces = true
  sr : tabWf ({} : Face) s.faces = true → (t.face f).srState = (s.face f).srState

theorem CountKept.refl (f : Nat) (s : State) : CountKept f s s := ⟨rfl, rfl, id, fun _ => rfl⟩

theorem CountKept.trans {f : Nat} {s t u : State} (h : CountKept f s t) (k : CountKept f t u) : CountKept f s u :=
  ⟨k.mem.trans h.mem, k.stackTbl.trans h.stackTbl, fun hw => k.wf (h.wf hw), fun hw => (k.sr (h.wf hw)).trans (h.sr hw)⟩

theorem modFace_countKept (s : State) (f : Nat) {g : Face → Face} (hg : ∀ c, (g c).srState = c.srState) :
    CountKept f s (s.modFace f g) :=
  ⟨rfl, rfl, fun hw => tabWf_tset hw _ _, fun hw => (congrArg Face.srState (State.face_setFace_same hw f _)).trans (hg _)⟩

theorem putEngOp_countKept (s : State) (f : Nat) (o : EngOp) : CountKept f s (putEngOp s f o) :=
  modFace_countKept s f (g := fun c => { c with task := c.task.map _ }) fun _ => rfl

theorem hoistDrop_countKept (s : State) (f : Nat) (d : BitVec 768) : CountKept f s (hoistDrop s f d) :=
  ⟨rfl, rfl, id, fun _ => rfl⟩

theorem hoistAdvance_countKept (s : State) (f : Nat) (o : EngOp) (r : HoistRun) (ends : List (List Nat)) (st : Byte) (fl : List Flags) :
    CountKept f s (hoistAdvance s f o r ends st fl) := by
  have hcount (p : Prop) [Decidable p] (b : BitVec 32) : CountKept f s (if p then hoistDrop s f o.desc else
      (hoistDrop s f o.desc).modFace f fun c => { c with hoistMisaligned := c.hoistMisaligned + b }) := by
    split
    · exact hoistDrop_countKept s f o.desc
    · exact (hoistDrop_countKept s f o.desc).trans (modFace_countKept _ f fun _ => rfl)
  simp only [hoistAdvance]
  split
  · exact (hcount ..).trans (putEngOp_countKept ..)
  · split
    · exact (hcount ..).trans (putEngOp_countKept ..)
    · exact (hcount ..).trans (putEngOp_countKept ..)

/-! ## Lengths of blocks -/

theorem length_packElems (w : Nat) (es : List Nat) : (packElems w es).length = (es.length * w + 7) / 8 := length_leBytes ..

theorem length_srDraws (n : Nat) (x : W32) : (srDraws n x).1.length = n := by
  induction n generalizing x with
  | zero => rfl
  | succ n ih => exact congrArg (· + 1) (ih _)

theorem length_roundings (rnd n : Nat) (x : W32) : (roundings rnd n x).1.length = n := by
  unfold roundings
  split
  · exact length_srDraws n x
  · exact List.length_replicate

theorem length_fusedVals (c : Face) (d : BitVec 768) (r : HoistRun) (n : Nat) : (fusedVals c d r n).length = 32 := by
  rw [fusedVals, List.length_map, List.length_range]

theorem chunks32_of_one {α : Type} {l : List α} (h : l.length = 32) : chunks32 (l.length + 1) l = [l] := by
  have hne : l ≠ [] := fun he => by rw [he] at h; cases h
  have hrest : chunks32 l.length ([] : List α) = [] := by rw [h]; rfl
  rw [chunks32, if_neg hne, List.take_of_length_le (Nat.le_of_eq h), List.drop_of_length_le (Nat.le_of_eq h), hrest]

theorem length_blockScale (f : Fmt) {modes : List RMode} {vs : List Val} (h : modes.length = vs.length) :
    (blockScale f modes vs).2.length = vs.length := by
  unfold blockScale
  split
  · exact List.length_map _
  · rw [List.length_map, List.length_zip, h, Nat.min_self]

theorem length_storeElems {g : FaceFmt} {vs : List Val} {modes : List RMode} (hv : vs.length = 32) (hmodes : modes.length = 32) :
    (storeElems g vs modes).1.length = if g.mx then 4 * g.fmt.bits + 1 else 4 * g.fmt.bits := by
  unfold storeElems
  split
  · rw [chunks32_of_one hv, chunks32_of_one hmodes]
    have hes := length_blockScale g.fmt (hmodes.trans hv.symm)
    simp only [List.zip_cons_cons, List.zip_nil_right, List.foldl_cons, List.foldl_nil, List.nil_append, List.length_append,
      length_packElems, List.length_map, hes, hv, List.length_singleton]
    omega
  · simp only [length_packElems, List.length_map, List.length_zip, hv, hmodes, Nat.min_self]
    omega

theorem etypeBytes_of_faceFmt {e : Nat} {g : FaceFmt} (hg : faceFmt e = some g) :
    (if g.mx then 4 * g.fmt.bits + 1 else 4 * g.fmt.bits) = etypeBytes e := by
  have he : e ≤ 12 := by
    refine Decidable.by_contra fun hlt => ?_
    have hnone : faceFmt e = none := by
      obtain ⟨m, rfl⟩ := Nat.exists_eq_add_of_lt (Nat.lt_of_not_le hlt)
      rw [show 12 + m + 1 = m + 13 by omega]
      rfl
    rw [hnone] at hg
    cases hg
  have hall : ∀ e ≤ 12, ∀ g ∈ faceFmt e, (if g.mx then 4 * g.fmt.bits + 1 else 4 * g.fmt.bits) = etypeBytes e := by decide
  exact hall e he g hg

/-- A block of a fused store has the bytes of its element type. -/
theorem length_storeElems_block {l : BitVec 512} {g : FaceFmt} (hg : faceFmt (ldEtype l) = some g) {vs : List Val} {modes : List RMode}
    (hv : vs.length = 32) (hmodes : modes.length = 32) : (storeElems g vs modes).1.length = blockLen l :=
  (length_storeElems hv hmodes).trans (etypeBytes_of_faceFmt hg)

theorem etypeBytes_of_plain {e : Nat} (he : e ≤ 6) : etypeBytes e = 4 * (plainFmt e).bits := by
  have hall : ∀ e ≤ 6, etypeBytes e = 4 * (plainFmt e).bits := by decide
  exact hall e he

theorem length_addBlock {l : BitVec 512} (he : ldEtype l ≤ 6) (src dst : List PByte) :
    (addBlock (plainFmt (ldEtype l)) src dst).1.length = blockLen l := by
  rw [blockLen, etypeBytes_of_plain he, addBlock, length_packElems, List.length_map, List.length_map, List.length_range]
  omega

/-! ## Segments and addresses -/

theorem map_fst_cleanBytes (bs : List Byte) : (cleanBytes bs).map (·.1) = bs := by
  rw [cleanBytes, List.map_map]
  exact List.map_id bs

theorem poison_cleanBytes (bs : List Byte) : ((cleanBytes bs).zipIdx.filter fun p => p.1.2).map (·.2) = [] := by
  rw [List.map_eq_nil_iff, List.filter_eq_nil_iff]
  intro x hx
  obtain ⟨b, -, hb⟩ := List.mem_map.1 (List.fst_mem_of_mem_zipIdx hx)
  rw [← hb]
  exact Bool.false_ne_true

theorem segmentOf_of_plain {l : BitVec 512} (he : ldEtype l ≤ 6) (bs : List PByte) : segmentOf l [bs] = bs := by
  have hlen : ¬ (blockLen l = 33 ∨ blockLen l = 25 ∨ blockLen l = 17) := by
    have hall : ∀ e ≤ 6, ¬ (etypeBytes e = 33 ∨ etypeBytes e = 25 ∨ etypeBytes e = 17) := by decide
    exact hall _ he
  have hmx : ¬ (decide (blockLen l = 33) || decide (blockLen l = 25) || decide (blockLen l = 17)) = true := by
    simpa only [Bool.or_eq_true, decide_eq_true_eq, or_assoc] using hlen
  exact (if_neg hmx).trans (by rw [List.flatten_cons, List.flatten_nil, List.append_nil])

theorem blockAddr_of_untiled {l : BitVec 512} (h : ldTile l = 0) (xo c0 c1 : Nat) : (blockAddr l xo [c0, c1] : Int) =
    ((ldBase l + xo : Nat) + ((c0 : Int) * ldStride l 0 + c1 * ldStride l 1) * blockLen l).emod (2 ^ 40) := by
  have hdim (i c : Nat) : dimOff l i c = (c : Int) * ldStride l i := if_pos (by rw [decide_eq_true h, Bool.or_true])
  simp only [blockAddr, List.zipIdx_cons, List.zipIdx_nil, List.foldl_cons, List.foldl_nil, hdim, Int.zero_add]
  exact Int.toNat_of_nonneg (Int.emod_nonneg _ (by decide))

/-! ## One move -/

theorem forget_eq {r : HoistRun} (hheld : r.held = []) (hdrop : r.dropped = []) : { r with held := [], dropped := [] } = r := by
  cases r
  cases hheld
  cases hdrop
  rfl

theorem hoistMove_of_settled {r : HoistRun} (hmode : r.mode = 0) (s : State) (f : Nat) (t : FaceTask) (o : EngOp) :
    hoistMove s f t o r = if hoFused o.desc = true then moveFused s f t o r
      else if hoKind o.desc = 3 then moveAdd s f t o r else movePlain s f t o r := by
  rw [hoistMove, if_neg (by rw [hmode]; decide), if_neg (by rw [hmode]; decide)]

section Moves
variable {s : State} {f hid : Nat} {t : FaceTask} {o : EngOp} {r : HoistRun} {ok : BitVec 768 → Bool}
  (hrun : runningHoist s f hid = some (t, o, r))
include hrun

theorem hoistMoves_one {u : State} (hok : ok o.desc = true) (hm : hoistMove s f t o r = .ok u ()) : hoistMoves f hid ok 1 s = u := by
  simp only [hoistMoves, hrun, hok, hm, Bool.not_true, Bool.false_eq_true, if_false]

theorem hoistMoves_of_other (hok : ok o.desc = false) (n : Nat) : hoistMoves f hid ok n s = s := by
  cases n with
  | zero => rfl
  | succ n => simp only [hoistMoves, hrun, hok, Bool.not_false, if_true]

theorem hoHid_of_running : hoHid o.desc = hid := by
  simp only [runningHoist, openHoist] at hrun
  split at hrun
  · cases hrun
  · split at hrun
    · cases hrun
    · split at hrun
      · cases hrun
      · next _ _ _ o' hfind =>
        obtain ⟨_, -, heq⟩ := Option.map_eq_some_iff.1 hrun
        cases heq
        have hprop := List.find?_some hfind
        simp only [Bool.and_eq_true, beq_iff_eq] at hprop
        obtain ⟨⟨⟨-, hhid⟩, -⟩, -⟩ := hprop
        exact hhid

section Free
variable (hfree : ∀ i, innerXfer s (.hoist f hid) i = none)
include hfree

theorem innerXfer_hoistReq (i : Nat) : innerXfer s (hoistReq s f t.ctx o).who i = none := by
  rw [hoistReq, hoHid_of_running hrun]
  exact hfree i

section Clean
variable (hm : memWf s.mem = true) (hclean : s.sramErr = [])
include hm hclean

theorem moveBlocks_of_inSram {x y p a q b n : Nat} (hsrc : InSram s r x n p a) (hdst : InSram s r y n q b) :
    ∃ u, moveBlocks s (hoistReq s f t.ctx o) [vaBlock r n false x] [vaBlock r n true y] id =
        .ok u (stOk, [cleanBytes (s.rdBytes (sramKey p a) n)]) ∧
      BytesPut s u (sramKey q b) n (s.rdBytes (sramKey p a) n) := by
  obtain ⟨v, hread, hv, hvm⟩ := readBlocks_of_inSram hsrc hclean (innerXfer_hoistReq hrun hfree 0)
  obtain ⟨u, hwrite, -, hput⟩ := writeBlocks_of_inSram (inSram_of_reached hdst hv) (hv.sramErr.trans hclean)
    (hv.innerXfer_other (j := 128) (by decide) (innerXfer_hoistReq hrun hfree 128)) (by rwa [hvm])
    (length_rdBytes s (sramKey p a) n)
  refine ⟨u, ?_, hput.of_mem hvm rfl⟩
  simp only [moveBlocks, hread, Chk.andThen, List.map_cons, List.map_nil, id_eq, List.zip_cons_cons, List.zip_nil_right, hwrite]
  rfl

theorem movePlain_of_inSram {x y p a q b k : Nat} (hmode : r.mode = 0) (hx : hoXpose o.desc = false)
    (hlen : blockLen r.srcLd = blockLen r.dstLd) (hmove : moveOf o.desc r r.moved = ⟨[x], [y], true, k⟩)
    (hsrc : InSram s r x (blockLen r.dstLd) p a) (hdst : InSram s r y (blockLen r.dstLd) q b) :
    ∃ u, movePlain s f t o r = .ok u () ∧
      BytesPut s u (sramKey q b) (blockLen r.dstLd) (s.rdBytes (sramKey p a) (blockLen r.dstLd)) := by
  obtain ⟨u, hmv, hput⟩ := moveBlocks_of_inSram hrun hfree hm hclean hsrc hdst
  have hsources : sourceBlocks s f r ⟨[x], [y], true, k⟩ = [vaBlock r (blockLen r.dstLd) false x] := by
    have h03 : ¬ (0 : Nat) = 3 := by decide
    simp only [sourceBlocks, hmode, h03, if_false, hlen, List.map_cons, List.map_nil]
  have hid : (fun bs : List (List PByte) => if hoXpose o.desc = true then transposeTile (blockLen r.dstLd / 32) bs else bs) = id := by
    funext bs
    exact if_neg (by rw [hx]; exact Bool.false_ne_true)
  have hplain : ∃ r1 ends, movePlain s f t o r = .ok (hoistAdvance u f o r1 ends stOk []) () := by
    simp only [movePlain, hmove, Bool.not_true, Bool.false_and, Bool.false_eq_true, if_false, hsources, hid, List.map_cons,
      List.map_nil, hmv, Chk.andThen]
    exact ⟨_, _, rfl⟩
  obtain ⟨r1, ends, hplain⟩ := hplain
  exact ⟨_, hplain, hput.of_mem rfl (hoistAdvance_countKept u f o r1 ends stOk []).mem⟩

/-- A COPY, a GATHER or a SCATTER of one block. -/
theorem hoistMoves_plain {ok : BitVec 768 → Bool} {x y p a q b k : Nat} (hmode : r.mode = 0) (hx : hoXpose o.desc = false)
    (hf : hoFused o.desc = false) (hlen : blockLen r.srcLd = blockLen r.dstLd) (hmove : moveOf o.desc r r.moved = ⟨[x], [y], true, k⟩)
    (hsrc : InSram s r x (blockLen r.dstLd) p a) (hdst : InSram s r y (blockLen r.dstLd) q b) (hk : hoKind o.desc ≠ 3)
    (hok : ok o.desc = true) :
    ∃ u, (.next (hoistMoves f hid ok 1 s) : Result) = .next u ∧
      u.rdBytes (sramKey q b) (blockLen r.dstLd) = s.rdBytes (sramKey p a) (blockLen r.dstLd) ∧
      ∀ j, j < sramKey q b ∨ sramKey q b + blockLen r.dstLd ≤ j → u.rdByte j = s.rdByte j := by
  obtain ⟨u, hu, hput, hothers⟩ := movePlain_of_inSram hrun hfree hm hclean hmode hx hlen hmove hsrc hdst
  have hmv : hoistMove s f t o r = .ok u () := by
    rw [hoistMove_of_settled hmode, hf, if_neg hk]
    exact hu
  exact ⟨u, congrArg Host.Outcome.next (hoistMoves_one hrun hok hmv), hput, hothers⟩

theorem moveFused_of_inSram {y q b k : Nat} {g : FaceFmt} (hg : faceFmt (ldEtype r.dstLd) = some g)
    (hmove : moveOf o.desc r r.moved = ⟨[], [y], true, k⟩) (hdst : InSram s r y (blockLen r.dstLd) q b) :
    ∃ u, moveFused s f t o r = .ok u () ∧
      BytesPut s u (sramKey q b) (blockLen r.dstLd) (storeElems g (fusedVals (s.face f) o.desc r r.moved)
        (roundings (hoRnd o.desc) 32 (s.face f).srState).1).1 ∧
      (tabWf ({} : Face) s.faces = true → (u.face f).srState = (roundings (hoRnd o.desc) 32 (s.face f).srState).2) := by
  have hlen := length_storeElems_block hg (length_fusedVals (s.face f) o.desc r r.moved)
    (length_roundings (hoRnd o.desc) 32 (s.face f).srState)
  obtain ⟨w, hwrite, hw, hput⟩ := writeBlocks_of_inSram hdst hclean (innerXfer_hoistReq hrun hfree 128) hm hlen
  have hbad : [stOk].any stBad = false := by decide
  have hfused : ∃ ends fl, moveFused s f t o r =
      .ok (hoistAdvance (w.modFace f fun k => { k with srState := (roundings (hoRnd o.desc) 32 (s.face f).srState).2 }) f o r ends
        (firstBad [stOk]) fl) () := by
    simp only [moveFused, hmove, hg, Option.getD_some, List.map_cons, List.map_nil, hwrite, Chk.andThen, hbad, Bool.false_eq_true,
      if_false]
    exact ⟨_, _, rfl⟩
  obtain ⟨ends, fl, hfused⟩ := hfused
  have hkept := hoistAdvance_countKept
    (w.modFace f fun k => { k with srState := (roundings (hoRnd o.desc) 32 (s.face f).srState).2 }) f o r ends (firstBad [stOk]) fl
  refine ⟨_, hfused, hput.of_mem rfl hkept.mem, fun hwf => ?_⟩
  rw [← hw.faces] at hwf
  exact (hkept.sr (tabWf_tset hwf _ _)).trans (congrArg Face.srState (State.face_setFace_same hwf f _))

theorem moveAdd_of_inSram {x y p a q b k : Nat} (hmode : r.mode = 0) (hlen : blockLen r.srcLd = blockLen r.dstLd)
    (hty : ldEtype r.dstLd ≤ 6) (hrep : isRepeat r (r.moved / unitBlocks o.desc r) = false)
    (hnext : isRepeat r (r.moved / unitBlocks o.desc r + 1) = false) (hheld : r.held = []) (hdrop : r.dropped = [])
    (hmove : moveOf o.desc r r.moved = ⟨[x], [y], true, k⟩)
    (hsrc : InSram s r x (blockLen r.dstLd) p a) (hdst : InSram s r y (blockLen r.dstLd) q b) :
    ∃ u, moveAdd s f t o r = .ok u () ∧
      BytesPut s u (sramKey q b) (blockLen r.dstLd) (addBlock (plainFmt (ldEtype r.dstLd))
        (cleanBytes (s.rdBytes (sramKey p a) (blockLen r.dstLd))) (cleanBytes (s.rdBytes (sramKey q b) (blockLen r.dstLd)))).1 := by
  have hforget := forget_eq hheld hdrop
  have hsources : sourceBlocks s f r ⟨[x], [y], true, k⟩ = [vaBlock r (blockLen r.dstLd) false x] := by
    have h03 : ¬ (0 : Nat) = 3 := by decide
    simp only [sourceBlocks, hmode, h03, if_false, hlen, List.map_cons, List.map_nil]
  have hpos : 0 < blockLen r.dstLd := by
    obtain ⟨h0, -⟩ := hsrc
    exact h0
  obtain ⟨v, hread, hv, hvm⟩ := readBlocks_of_inSram hsrc hclean (innerXfer_hoistReq hrun hfree 0)
  have hvclean := hv.sramErr.trans hclean
  obtain ⟨w, hold, hw, hwm⟩ := readBlocks_of_inSram (inSram_of_reached hdst hv) hvclean
    (hv.innerXfer_other (j := 64) (by decide) (innerXfer_hoistReq hrun hfree 64))
  have hvdst : v.rdBytes (sramKey q b) (blockLen r.dstLd) = s.rdBytes (sramKey q b) (blockLen r.dstLd) := by
    simp only [State.rdBytes, State.rdByte, hvm]
  rw [hvdst] at hold
  obtain ⟨u, hwrite, -, hput⟩ := writeBlocks_of_inSram (inSram_of_reached (inSram_of_reached hdst hv) hw) (hw.sramErr.trans hvclean)
    (hw.innerXfer_other (j := 128) (by decide)
      (hv.innerXfer_other (j := 128) (by decide) (innerXfer_hoistReq hrun hfree 128))) (by rwa [hwm, hvm])
    (length_addBlock hty (cleanBytes (s.rdBytes (sramKey p a) (blockLen r.dstLd)))
      (cleanBytes (s.rdBytes (sramKey q b) (blockLen r.dstLd))))
  have hne (c : Nat) : cleanBytes (s.rdBytes c (blockLen r.dstLd)) ≠ [] := cleanBytes_ne_nil (by rwa [length_rdBytes])
  have hadd : ∃ ends st fl, moveAdd s f t o r = .ok (hoistAdvance u f o r ends st fl) () := by
    simp only [moveAdd, hforget, ite_self, hmove, hrep, hnext, hheld, hdrop, hsources, hread, hold, hwrite, hne, Chk.andThen, tget,
      List.contains_nil, List.headD_cons, List.map_cons, List.map_nil, Bool.and_false, Bool.or_self, Bool.false_eq_true, if_false,
      if_true]
    exact ⟨_, _, _, rfl⟩
  obtain ⟨ends, st, fl, hadd⟩ := hadd
  exact ⟨_, hadd, hput.of_mem (hwm.trans hvm) (hoistAdvance_countKept u f o r ends st fl).mem⟩

/-! ## Broadcast -/

omit hm in
theorem hoistBroadcast_of_inSram {x p a n : Nat} (hb : hoBcast o.desc = true) (h0 : r.moved = 0) (h1 : r.total = 1)
    (hst : setBits (hoStacks o.desc) = [n]) (hx : x = blockAddr r.srcLd r.sx (radix (ldExtents r.srcLd) 0)) (hty : ldEtype r.srcLd ≤ 6)
    (hsrc : InSram s r x (blockLen r.srcLd) p a) (hw : tabWf ({} : Stack) s.stackTbl = true) :
    ∃ g, ((hoistBroadcast s f hid).stack n).segments = (s.stack n).segments ++ [g] ∧
      g.data = s.rdBytes (sramKey p a) (blockLen r.srcLd) ∧ g.poison = [] ∧ g.lane = hoLane o.desc ∧ g.window = hoWindow o.desc ∧
      (hoistBroadcast s f hid).mem = s.mem := by
  have hpos : 0 < blockLen r.srcLd := by
    obtain ⟨hpos, -⟩ := hsrc
    exact hpos
  obtain ⟨u, hread, hu, hum⟩ := readBlocks_of_inSram hsrc hclean (innerXfer_hoistReq hrun hfree 0)
  have hne : cleanBytes (s.rdBytes (sramKey p a) (blockLen r.srcLd)) ≠ [] := cleanBytes_ne_nil (by rwa [length_rdBytes])
  have hsent : ∃ (c : Face → Face) (o' : EngOp) (sg : Segment), hoistBroadcast s f hid =
      putEngOp (((hoistDrop u f o.desc).modFace f c).modStack n fun k => { k with segments := k.segments ++ [sg] }) f o' ∧
      sg.data = s.rdBytes (sramKey p a) (blockLen r.srcLd) ∧ sg.poison = [] ∧ sg.lane = hoLane o.desc ∧
      sg.window = hoWindow o.desc := by
    simp only [hoistBroadcast, hrun, hb, h0, h1, hst, List.range_one, List.map_cons, List.map_nil, ← hx, hread, hne, if_false,
      segmentOf_of_plain hty, Bool.not_true, ne_eq, not_true_eq_false, decide_false, Bool.or_self, Bool.false_eq_true,
      List.foldl_cons, List.foldl_nil]
    exact ⟨_, _, _, rfl, map_fst_cleanBytes _, poison_cleanBytes _, rfl, rfl⟩
  obtain ⟨c, o', sg, hsent, hdata, hpoison, hlane, hwindow⟩ := hsent
  refine ⟨sg, ?_, hdata, hpoison, hlane, hwindow, ?_⟩
  · rw [hsent, State.stack, (putEngOp_countKept _ f o').stackTbl]
    have hus : tabWf ({} : Stack) u.stackTbl = true := by rwa [hu.stackTbl]
    refine (congrArg Stack.segments (State.stack_setStack_same (s := (hoistDrop u f o.desc).modFace f c) hus n _)).trans ?_
    show (u.stack n).segments ++ [sg] = _
    rw [State.stack, hu.stackTbl]
    rfl
  · rw [hsent, (putEngOp_countKept _ f o').mem]
    exact hum

end Clean
end Free

end Moves

/-! ## The end of a transfer -/

section Done
variable {s : State} {f hid : Nat} {t : FaceTask} {o : EngOp} (ht : (s.face f).task = some t) (hops : t.ops = [o])
  (hopc : descOpc o.desc = 0x30) (hhid : hoHid o.desc = hid) (hstart : o.started.isSome = true)
include ht hops hopc hhid hstart

theorem hoistDone_of_sole : hoistDone s f hid = engineDone s f 0 := by
  have hfind : (t.ops.findIdx? fun o => descOpc o.desc == opcHoist && hoHid o.desc == hid && o.started.isSome) = some 0 := by
    rw [hops, List.findIdx?_cons, hopc, hhid, hstart, beq_self_eq_true, beq_self_eq_true]
    rfl
  simp only [hoistDone, ht, hfind]

variable (hent : entered s f = s)
include hent

theorem hoistDone_of_due (hdone : o.done = true) (hdue : engDue s f o = true) (hgated : (s.face f).gated = false) (hx : o.xout = none) :
    hoistDone s f hid =
      let u := (modTask s f fun t => { t with ops := [], seqAt := max t.seqAt s.now, assay := assayAdd t.assay o.assay }).modFace f
        fun c => { c with hoistTransfers := c.hoistTransfers + 1, hoistLastStatus := o.status }
      if o.status = stOk then u else taskFail u f o.uid o.status (descTag o.desc) := by
  have hleave : (t.ops.filter fun x => x.uid ≠ o.uid) = [] := by
    rw [hops, List.filter_cons_of_neg (by rw [decide_eq_false (Decidable.not_not.2 rfl)]; exact Bool.false_ne_true), List.filter_nil]
  rw [hoistDone_of_sole ht hops hopc hhid hstart, engineDone_of_due hent ht (by rw [hops]; rfl) hdone hdue hgated hx, modTask_of_task ht,
    modTask_of_task ht]
  simp only [hleave, hopc, if_true]

theorem hoistDone_of_notDue (h : o.done = false ∨ engDue s f o = false ∨ (s.face f).gated = true) : hoistDone s f hid = s := by
  rw [hoistDone_of_sole ht hops hopc hhid hstart]
  exact engineDone_of_notDue hent ht (by rw [hops]; rfl) h

end Done

/-- Settles O38: a move's reads and writes are accesses to SRAM without errors, done at once; counting the move leaves memory alone. -/
theorem hoistsMoveBlocksAndEnd : Obligations.HoistsMoveBlocksAndEnd := by
  unfold Obligations.HoistsMoveBlocksAndEnd
  refine ⟨fun s f hid t o r x y p a q b k hrun hm hclean hfree =>
    ⟨fun hmode hx hf hb hlen hmove hsrc hdst =>
      ⟨fun hk => ?_, fun hk => ?_, fun hk => ?_, fun hk hty hrep hnext hheld hdrop => ?_⟩,
      fun hmode hf hk g hg hmove hdst => ?_, fun h n => ?_, fun h n => ?_,
      fun n hb h0 h1 hst hx hty hsrc hw => ?_, fun l xo c0 c1 h => blockAddr_of_untiled h xo c0 c1⟩,
    fun s f hid t o hent ht hops hopc hhid hstart => ⟨fun hdone hdue hgated hx => ⟨fun hst => ?_, fun hst => ?_⟩, fun h => ?_⟩⟩
  · exact hoistMoves_plain hrun hfree hm hclean hmode hx hf hlen hmove hsrc hdst (by rw [hk]; decide) (by rw [isCopy, hk, hf, hb]; rfl)
  · exact hoistMoves_plain hrun hfree hm hclean hmode hx hf hlen hmove hsrc hdst (by rw [hk]; decide) (by rw [hk]; rfl)
  · exact hoistMoves_plain hrun hfree hm hclean hmode hx hf hlen hmove hsrc hdst (by rw [hk]; decide) (by rw [hk]; rfl)
  · obtain ⟨u, hu, hput, hothers⟩ := moveAdd_of_inSram hrun hfree hm hclean hmode hlen hty hrep hnext hheld hdrop hmove hsrc hdst
    have hmv : hoistMove s f.val t o r = .ok u () := by
      rw [hoistMove_of_settled hmode, hf, hk]
      exact hu
    exact ⟨u, congrArg Host.Outcome.next (hoistMoves_one hrun (by rw [hk]; rfl) hmv), hput, hothers⟩
  · obtain ⟨u, hu, ⟨hput, hothers⟩, hsr⟩ := moveFused_of_inSram hrun hfree hm hclean hg hmove hdst
    have hmv : hoistMove s f.val t o r = .ok u () := by
      rw [hoistMove_of_settled hmode, hf]
      exact hu
    exact ⟨u, congrArg Host.Outcome.next (hoistMoves_one hrun hf hmv), hput, hothers, hsr⟩
  · exact congrArg Host.Outcome.next (hoistMoves_of_other hrun h n.toNat)
  · exact congrArg Host.Outcome.next (hoistMoves_of_other (ok := fun d => hoKind d == 3) hrun (beq_false_of_ne h) n.toNat)
  · obtain ⟨g, hseg, hdata, hpoison, hlane, hwindow, hmem⟩ := hoistBroadcast_of_inSram hrun hfree hclean hb h0 h1 hst hx hty hsrc hw
    exact ⟨_, g, rfl, hseg, hdata, hpoison, hlane, hwindow, hmem⟩
  · exact congrArg Host.Outcome.next ((hoistDone_of_due ht hops hopc hhid hstart hent hdone hdue hgated hx).trans (if_pos hst))
  · exact congrArg Host.Outcome.next ((hoistDone_of_due ht hops hopc hhid hstart hent hdone hdue hgated hx).trans (if_neg hst))
  · exact congrArg Host.Outcome.next (hoistDone_of_notDue ht hops hopc hhid hstart hent h)

end Sys2Proof.Machine
end

section
/-! SUPPORT. What every shared operation keeps of the queue of waiting commands, whatever memory lists. The lemmas of `Kept` speak of
a memory in canonical form, which the claim about the queue does not assume; these say it of the queue alone, once for each operation
that takes a state to a state, and a proof about a command cites them and unfolds nothing. -/

namespace Sys2Proof.Machine

/-- The queue of waiting commands is p. -/
def Queued (qp : List Instr) (s : State) : Prop := s.pending = qp

variable {qp : List Instr} {s : State}

theorem queued_mk {m : List Host.Cell} {l : List Instr} (now : _) (out : _) (freeTick : _) (reqNext : _)
    (eccDiff : _) (sramErr : _) (xfers : _) (waits : _) (xlate : _) (groupView : _) (ctxs : _) (drain : _) (cols : _)
    (stackTbl : _) (passes : _) (collar : _) (collarFree : _) (faces : _) (clusters : _) (queues : _) (foreman : _) (win : _)
    (tally : _) (ports : _) (fwds : _) (host : _) (can : _) (log : _) (life : _) (fuse : _) (trust : _) (geo : _) (power : _)
    (canary : _) (inputs : _) (fence : _) (oldBinding : _) :
    Queued qp ⟨l, now, out, freeTick, reqNext, m, eccDiff, sramErr, xfers, waits, xlate, groupView, ctxs, drain, cols, stackTbl,
    passes, collar, collarFree, faces, clusters, queues, foreman, win, tally, ports, fwds, host, can, log, life, fuse, trust,
    geo, power, canary, inputs, fence, oldBinding⟩ ↔ l = qp := Iff.rfl

theorem queued_of (h : Queued qp s) : s.pending = qp := h

theorem queued_fst {α : Type} {x : State × α} {s : State} {a : α} (h : Queued qp x.1) (e : x = (s, a)) : Queued qp s := by
  subst e; exact h

theorem queued_ite {c : Prop} [Decidable c] {s t : State} (h : c → Queued qp s) (k : ¬ c → Queued qp t) :
    Queued qp (if c then s else t) := by
  split
  · exact h ‹_›
  · exact k ‹_›

theorem queued_ite2 {α : Type} {c : Prop} [Decidable c] {s t : State × α} (h : c → Queued qp s.1)
    (k : ¬ c → Queued qp t.1) : Queued qp (if c then s else t).1 := by
  split
  · exact h ‹_›
  · exact k ‹_›

theorem queued_foldl {α : Type} {f : State → α → State} {l : List α} {s : State} (h : Queued qp s)
    (hf : ∀ t x, Queued qp t → Queued qp (f t x)) : Queued qp (l.foldl f s) := by
  induction l generalizing s with
  | nil => exact h
  | cons a l ih => exact ih (hf s a h)

theorem queued_foldl2 {α β : Type} {f : State × β → α → State × β} {l : List α} {s : State × β} (h : Queued qp s.1)
    (hf : ∀ t x, Queued qp t.1 → Queued qp (f t x).1) : Queued qp (l.foldl f s).1 := by
  induction l generalizing s with
  | nil => exact h
  | cons a l ih => exact ih (hf s a h)

/-- An opened access keeps the queue, however it was decided. -/
def QueuedD (qp : List Instr) : Opened → Prop
  | .serve s => Queued qp s
  | .drop s => Queued qp s
  | .wait => True
  | .refuse _ _ s => Queued qp s

theorem queuedD_serve (s : State) : QueuedD qp (.serve s) ↔ Queued qp s := Iff.rfl

theorem queuedD_drop (s : State) : QueuedD qp (.drop s) ↔ Queued qp s := Iff.rfl

theorem queuedD_wait : QueuedD qp .wait ↔ True := Iff.rfl

theorem queuedD_refuse (e : Byte) (a : W32) (s : State) : QueuedD qp (.refuse e a s) ↔ Queued qp s := Iff.rfl

/-- A write keeps the queue, at once and when its held part ends. -/
def QueuedW (qp : List Instr) (w : WriteOut) : Prop := Queued qp w.after ∧ ∀ t, Queued qp t → Queued qp (w.later t)

theorem queuedW_mk {st : Option Byte} {f : State → State} :
    QueuedW qp ⟨s, st, f⟩ ↔ Queued qp s ∧ ∀ t, Queued qp t → Queued qp (f t) := Iff.rfl

theorem opened_drop_queued {x : Opened} {s : State} (h : QueuedD qp x) (e : x = .drop s) : Queued qp s := by subst e; exact h

theorem opened_serve_queued {x : Opened} {s : State} (h : QueuedD qp x) (e : x = .serve s) : Queued qp s := by
  subst e; exact h

theorem opened_refuse_queued {x : Opened} {s : State} {st : Byte} {a : W32} (h : QueuedD qp x) (e : x = .refuse st a s) :
    Queued qp s := by subst e; exact h

theorem chk_ok_queued {α : Type} {x : Chk α} {s : State} {a : α} (h : Queued qp x.st) (e : x = .ok s a) : Queued qp s := by
  subst e; exact h

theorem chk_wait_queued {α : Type} {x : Chk α} {s : State} (h : Queued qp x.st) (e : x = .wait s) : Queued qp s := by
  subst e; exact h

theorem chk_fail_queued {α : Type} {x : Chk α} {s : State} {st : Byte} (h : Queued qp x.st) (e : x = .fail st s) :
    Queued qp s := by subst e; exact h

theorem chk_andThen_queued {α β : Type} {x : Chk α} {f : State → α → Chk β} (h : Queued qp x.st)
    (k : ∀ s a, Queued qp s → Queued qp (f s a).st) : Queued qp (x.andThen f).st := by
  cases x with
  | ok s a => exact k s a h
  | wait s => exact h
  | fail st s => exact h

theorem newReq_queued {s t : State} {n : Nat} (h : Queued qp s) (e : s.newReq = (n, t)) : Queued qp t := by
  cases e; exact h

theorem newFree_queued {s t : State} {n : Nat} (h : Queued qp s) (e : s.newFree = (n, t)) : Queued qp t := by
  cases e; exact h

theorem queued_iteD {c : Prop} [Decidable c] {s t : Opened} (h : c → QueuedD qp s)
    (k : ¬ c → QueuedD qp t) : QueuedD qp (if c then s else t) := by
  split
  · exact h ‹_›
  · exact k ‹_›

theorem queued_iteC {α : Type} {c : Prop} [Decidable c] {s t : Chk α} (h : c → Queued qp s.st)
    (k : ¬ c → Queued qp t.st) : Queued qp (if c then s else t).st := by
  split
  · exact h ‹_›
  · exact k ‹_›

theorem queued_iteU {c : Prop} [Decidable c] {s t : StepOut} (h : c → Queued qp s.after)
    (k : ¬ c → Queued qp t.after) : Queued qp (if c then s else t).after := by
  split
  · exact h ‹_›
  · exact k ‹_›

theorem queued_iteW {c : Prop} [Decidable c] {s t : WriteOut} (h : c → QueuedW qp s)
    (k : ¬ c → QueuedW qp t) : QueuedW qp (if c then s else t) := by
  split
  · exact h ‹_›
  · exact k ‹_›

theorem WriteOut.after_queued {w : WriteOut} (h : QueuedW qp w) : Queued qp w.after := h.1

theorem WriteOut.later_queued {w : WriteOut} {s : State} (h : QueuedW qp w) (k : Queued qp s) : Queued qp (w.later s) := h.2 s k

end Sys2Proof.Machine
end

section
/-! SUPPORT. What the operations of tables, messages, the tally board, memory and access paths keep of the queue (`Queued`). -/

namespace Sys2Proof.Machine

set_option linter.unusedSimpArgs false

variable {qp : List Instr} {s : State}

theorem State.setCol_queued (g : Nat) (c : Col) (h0 : Queued qp s) : Queued qp (State.setCol s g c) := h0

theorem State.modCol_queued (g : Nat) (f : Col → Col) (h0 : Queued qp s) : Queued qp (State.modCol s g f) := h0

theorem State.setStack_queued (n : Nat) (k : Stack) (h0 : Queued qp s) : Queued qp (State.setStack s n k) := h0

theorem State.modStack_queued (n : Nat) (f : Stack → Stack) (h0 : Queued qp s) : Queued qp (State.modStack s n f) := h0

theorem State.setFace_queued (f : Nat) (c : Face) (h0 : Queued qp s) : Queued qp (State.setFace s f c) := h0

theorem State.modFace_queued (f : Nat) (k : Face → Face) (h0 : Queued qp s) : Queued qp (State.modFace s f k) := h0

theorem State.setCluster_queued (c : Nat) (k : Cluster) (h0 : Queued qp s) : Queued qp (State.setCluster s c k) := h0

theorem State.setQueue_queued (q : Nat) (k : Queue) (h0 : Queued qp s) : Queued qp (State.setQueue s q k) := h0

theorem State.modQueue_queued (q : Nat) (f : Queue → Queue) (h0 : Queued qp s) : Queued qp (State.modQueue s q f) := h0

theorem State.setPort_queued (k : Nat) (p : Port) (h0 : Queued qp s) : Queued qp (State.setPort s k p) := h0

theorem State.modPort_queued (k : Nat) (f : Port → Port) (h0 : Queued qp s) : Queued qp (State.modPort s k f) := h0

theorem State.setCtx_queued (c : Nat) (k : Ctx) (h0 : Queued qp s) : Queued qp (State.setCtx s c k) := h0

theorem State.setBox_queued (m : Nat) (b : Mailbox) (h0 : Queued qp s) : Queued qp (State.setBox s m b) := h0

theorem State.setDomain_queued (d : Nat) (k : Domain) (h0 : Queued qp s) : Queued qp (State.setDomain s d k) := h0

theorem State.setChannel_queued (c : Nat) (k : Channel) (h0 : Queued qp s) : Queued qp (State.setChannel s c k) := h0

theorem State.setInput_queued (i : Nat) (k : InputPin) (h0 : Queued qp s) : Queued qp (State.setInput s i k) := h0

theorem State.setCell_queued (t : Nat) (k : TallyCell) (h0 : Queued qp s) : Queued qp (State.setCell s t k) := h0

theorem State.emit_queued (o : Out) (h0 : Queued qp s) : Queued qp (State.emit s o) := h0

theorem State.emits_queued (os : List Out) (h0 : Queued qp s) : Queued qp (State.emits s os) := h0

theorem wakeDomain_queued (d : Nat) (h0 : Queued qp s) : Queued qp (wakeDomain s d) := by
  unfold wakeDomain
  repeat' first
    | (with_reducible first | intro _ | apply queued_ite)
    | apply_assumption

theorem glitch_queued (i : Nat) (h0 : Queued qp s) : Queued qp (glitch s i) := h0

theorem logPut_queued (r : FaultRec) (h0 : Queued qp s) : Queued qp (logPut s r) := by
  unfold logPut
  repeat' first
    | (with_reducible first | assumption | apply queued_of)
    | simp only [queued_mk]
    | split

theorem logRec_queued (r : FaultRec) (h0 : Queued qp s) : Queued qp (logRec s r) := by
  unfold logRec
  repeat' with_reducible first | assumption | intro _ | apply queued_ite | apply logPut_queued

theorem logRefused_queued (o : Origin) (ctx : BitVec 6) (status : Byte) (info : Nat) (tag : optParam W16 0) (h0 : Queued qp s) :
    Queued qp (logRefused s o ctx status info tag) := by
  unfold logRefused
  repeat' with_reducible first | assumption | apply logRec_queued

theorem withTag_queued (tag : W16) {before : State} {after : State} (h2 : Queued qp after) :
    Queued qp (withTag tag before after) := by
  unfold withTag
  repeat' first
    | (with_reducible first | assumption | intro _ | apply queued_ite | apply queued_of)
    | simp only [queued_mk]

theorem raiseEmcy_queued (code : W16) (unit : Byte) (detail : Nat) (h0 : Queued qp s) :
    Queued qp (raiseEmcy s code unit detail) := by
  unfold raiseEmcy
  repeat' first
    | (with_reducible first | assumption | intro _ | apply queued_ite | apply queued_of)
    | simp only [queued_mk]
    | with_reducible apply logRec_queued

theorem condStart_queued (code : W16) (key : Nat) (unit : Byte) (detail : Nat) (h0 : Queued qp s) :
    Queued qp (condStart s code key unit detail) := by
  unfold condStart
  repeat' first
    | (with_reducible first | assumption | intro _ | apply queued_ite | apply queued_of)
    | simp only [queued_mk]
    | with_reducible apply raiseEmcy_queued

theorem condEnd_queued (code : W16) (key : Nat) (h0 : Queued qp s) : Queued qp (condEnd s code key) := by
  unfold condEnd
  repeat' first
    | (with_reducible first | assumption | intro _ | apply queued_ite | apply queued_of)
    | simp only [queued_mk]
    | with_reducible apply raiseEmcy_queued

theorem State.wrByte_queued (k : Nat) (b : Byte) (h0 : Queued qp s) : Queued qp (State.wrByte s k b) := h0

theorem State.wrBytes_queued (k : Nat) (x2 : List Byte) (h0 : Queued qp s) : Queued qp (State.wrBytes s k x2) := by
  revert h0
  fun_induction State.wrBytes s k x2
  all_goals intro h0
  repeat' first
    | with_reducible apply State.wrByte_queued
    | apply_assumption

theorem poolBack_queued (k : PortId) (h : BitVec 256) (n : Nat) (h0 : Queued qp s) : Queued qp (poolBack s k h n) := h0

theorem poolKeep_queued (k : PortId) (cls : Nat) (n : Nat) (h0 : Queued qp s) : Queued qp (poolKeep s k cls n) := h0

theorem poolLeave_queued (k : PortId) (cls : Nat) (n : Nat) (h0 : Queued qp s) : Queued qp (poolLeave s k cls n) := h0

theorem portIdle_queued (k : PortId) (x1 : Nat) {x2 : State} (h2 : Queued qp x2) : Queued qp (portIdle k x1 x2) := by
  revert h2
  fun_induction portIdle k x1 x2
  all_goals intro h2
  repeat' apply_assumption

theorem cutFlits_queued (k : PortId) (x1 : Nat) {x2 : State} (h2 : Queued qp x2) : Queued qp (cutFlits k x1 x2) := by
  revert h2
  fun_induction cutFlits k x1 x2
  all_goals intro h2
  repeat' apply_assumption

theorem startPacket_queued (k : PortId) (x : TxPkt) (h0 : Queued qp s) : Queued qp (startPacket s k x) := by
  unfold startPacket
  repeat' first
    | (with_reducible first | assumption | apply cutFlits_queued | apply State.emit_queued | apply State.setPort_queued
                            | apply portIdle_queued | apply poolLeave_queued)
    | split

theorem portDrain_queued (k : PortId) (x1 : Nat) {x2 : State} (h2 : Queued qp x2) : Queued qp (portDrain k x1 x2) := by
  revert h2
  fun_induction portDrain k x1 x2
  all_goals intro h2
  repeat' first
    | with_reducible apply startPacket_queued
    | apply_assumption

theorem portFlush_queued (k : PortId) (h0 : Queued qp s) : Queued qp (portFlush s k) := by
  unfold portFlush
  repeat' with_reducible first | assumption | apply portIdle_queued | apply portDrain_queued

theorem portSend_queued (k : PortId) (hdr : BitVec 256) (data : List Byte) (pool : optParam
    (Option PortId) none) (h0 : Queued qp s) :
    Queued qp (portSend s k hdr data pool) := by
  unfold portSend
  repeat' with_reducible first | assumption | intro _ | apply queued_ite | apply portFlush_queued | apply State.setPort_queued

theorem portMsg_queued (k : PortId) (mcode : Nat) (data : List Byte) (h0 : Queued qp s) : Queued qp (portMsg s k mcode data) := by
  unfold portMsg
  repeat' with_reducible first | assumption | apply portSend_queued

theorem msgAll_queued (mcode : Nat) (data : List Byte) (h0 : Queued qp s) : Queued qp (msgAll s mcode data) := by
  unfold msgAll
  repeat' with_reducible first | assumption | intro _ | apply queued_foldl | apply queued_ite | apply portMsg_queued

theorem portRsp_queued (k : PortId) (src : BitVec 4) (tag : BitVec 10) (ctx : Nat) (status : Byte)
    (data : List Byte) (org : optParam Nat ↑k) (h0 : Queued qp s) :
    Queued qp (portRsp s k src tag ctx status data org) := by
  unfold portRsp
  repeat' with_reducible first | assumption | apply portSend_queued

theorem portNotice_queued (k : PortId) (src : BitVec 4) (ctx : Nat) (word : W64) (h0 : Queued qp s) :
    Queued qp (portNotice s k src ctx word) := by
  unfold portNotice
  repeat' with_reducible first | assumption | apply portSend_queued

theorem fenceCount_queued (k : PortId) (src : BitVec 4) (h0 : Queued qp s) : Queued qp (fenceCount s k src) := h0

theorem hostSend_queued (addr : W64) (data : List Byte) (h0 : Queued qp s) : Queued qp (hostSend s addr data) := by
  unfold hostSend
  repeat' first
    | (with_reducible first | assumption | intro _ | apply queued_ite | apply queued_of)
    | simp only [queued_mk]
    | with_reducible apply State.emit_queued

theorem hostMsix_queued (v : Nat) (h0 : Queued qp s) : Queued qp (hostMsix s v) := by
  unfold hostMsix
  repeat' first
    | (with_reducible first | assumption | intro _ | apply queued_ite | apply queued_of)
    | simp only [queued_mk]
    | with_reducible apply State.emit_queued

theorem hostRefused_queued (status : Byte) (info : Nat) (h0 : Queued qp s) : Queued qp (hostRefused s status info) := by
  unfold hostRefused
  repeat' first
    | (with_reducible first | assumption | apply queued_of)
    | simp only [queued_mk]
    | with_reducible apply logRefused_queued

theorem answer_queued (o : Origin) (c : Nat) (rd : Bool) (status : Byte) (data : List Byte) (info : Nat) (h0 : Queued qp s) :
    Queued qp (answer s o c rd status data info) := by
  unfold answer
  repeat' first
    | (with_reducible first | assumption | apply portRsp_queued | apply hostRefused_queued | apply State.emit_queued)
    | split

theorem answerWrite_queued (o : Origin) (c : Nat) (status : Byte) (info : Nat) (h0 : Queued qp s) :
    Queued qp (answerWrite s o c status info) := by
  unfold answerWrite
  repeat' first
    | (with_reducible first | assumption | apply answer_queued | apply fenceCount_queued)
    | split

theorem logTally_queued (code : W16) (c : Nat) (st : Byte) (unit : W16) (info : Nat) (h0 : Queued qp s) :
    Queued qp (logTally s code c st unit info) := by
  unfold logTally
  repeat' with_reducible first | assumption | apply logRec_queued

theorem tallyRangeFault_queued (code : W16) (c : Nat) (r : TallyRef) (h0 : Queued qp s) :
    Queued qp (tallyRangeFault s code c r) := by
  unfold tallyRangeFault
  repeat' first
    | (with_reducible first | assumption | apply queued_of)
    | simp only [queued_mk]
    | with_reducible apply logTally_queued

theorem tallyFault_queued (code : W16) (c : Nat) (t : Nat) (st : Byte) (amount : W32) (h0 : Queued qp s) :
    Queued qp (tallyFault s code c t st amount) := by
  unfold tallyFault
  repeat' first
    | (with_reducible first | assumption | intro _ | apply queued_ite | apply queued_of)
    | simp only [queued_mk]
    | with_reducible apply logTally_queued

theorem faceWake_queued (f : Nat) (h0 : Queued qp s) : Queued qp (faceWake s f) := by
  unfold faceWake
  repeat' first
    | (with_reducible first | assumption | intro _ | apply queued_ite | apply queued_of)
    | simp only [queued_mk]
    | with_reducible apply State.setFace_queued

theorem faceResume_queued (l : Nat) (h0 : Queued qp s) : Queued qp (faceResume s l) := by
  unfold faceResume
  repeat' first
    | (with_reducible first | assumption | apply faceWake_queued | apply State.modFace_queued)
    | split

theorem faceWaitFail_queued (l : Nat) (st : Byte) (h0 : Queued qp s) : Queued qp (faceWaitFail s l st) := by
  unfold faceWaitFail
  repeat' first
    | (with_reducible first | assumption | apply State.modFace_queued)
    | split

theorem stepWait_queued (q : Nat) (w : HeadWait) (h0 : Queued qp s) : Queued qp (stepWait s q w) := by
  unfold stepWait
  repeat' first
    | (with_reducible first | assumption | apply State.modQueue_queued)
    | split

theorem deliver_queued (w : Watch) (value : W32) (st : Byte) (h0 : Queued qp s) : Queued qp (deliver s w value st) := by
  unfold deliver
  repeat' first
    | (with_reducible first | assumption | apply faceResume_queued | apply stepWait_queued | apply hostSend_queued
                            | apply hostMsix_queued | apply portNotice_queued)
    | split

theorem freeWatch_queued (i : Nat) (h0 : Queued qp s) : Queued qp (freeWatch s i) := h0

theorem fireWatch_queued (t : Nat) (i : Nat) (h0 : Queued qp s) : Queued qp (fireWatch s t i) := by
  unfold fireWatch
  repeat' with_reducible first | assumption | apply State.setCell_queued | apply deliver_queued | apply freeWatch_queued

theorem walkWatches_queued (t : Nat) (x2 : List Nat) (h0 : Queued qp s) : Queued qp (walkWatches s t x2) := by
  revert h0
  fun_induction walkWatches s t x2
  all_goals intro h0
  repeat' first
    | with_reducible apply fireWatch_queued
    | apply_assumption

theorem tallyPut_queued (t : Nat) (v : W32) (h0 : Queued qp s) : Queued qp (tallyPut s t v) := by
  unfold tallyPut
  repeat' with_reducible first | assumption | apply walkWatches_queued | apply State.setCell_queued

theorem tallyEffect_queued (code : W16) (c : Nat) (t : Nat) (top : BitVec 4) (n : W32) (h0 : Queued qp s) :
    Queued qp (tallyEffect s code c t top n).1 := by
  unfold tallyEffect
  repeat' first
    | (with_reducible first | assumption | apply queued_of)
    | simp only [queued_mk]
    | with_reducible apply tallyPut_queued
    | split

theorem tallySigned_queued (code : W16) (c : Nat) (t : Nat) (top : BitVec 4) (n : W32) (st : Byte) (h0 : Queued qp s) :
    Queued qp (tallySigned s code c t top n st) := by
  unfold tallySigned
  repeat' first
    | (with_reducible first | assumption | intro _ | apply queued_ite | apply queued_of)
    | simp only [queued_mk]
    | with_reducible apply State.setCell_queued

theorem tallyOp_queued (code : W16) (c : Nat) (r : TallyRef) (top : BitVec 4) (n : W32) (h0 : Queued qp s) :
    Queued qp (tallyOp s code c r top n).1 := by
  unfold tallyOp
  repeat' first
    | (with_reducible first | assumption | apply tallyRangeFault_queued | apply tallyEffect_queued | apply tallyFault_queued
                            | apply tallySigned_queued)
    | split

theorem armWatch_queued (i : Nat) (w : Watch) (h0 : Queued qp s) : Queued qp (armWatch s i w) := h0

theorem watchNow_queued (t : Nat) (thr : W32) (cons : Bool) (h0 : Queued qp s) : Queued qp (watchNow s t thr cons) := by
  unfold watchNow
  repeat' with_reducible first | assumption | intro _ | apply queued_ite | apply State.setCell_queued

theorem innerWatch_queued (target : WatchTarget) (c : Nat) (v : W16) (thr : W32) (cons : Bool) (h0 : Queued qp s) :
    Queued qp (innerWatch s target c v thr cons).1 := by
  unfold innerWatch
  repeat' first
    | (with_reducible first | assumption | apply queued_of)
    | simp only [queued_mk]
    | (with_reducible first | apply tallyRangeFault_queued | apply watchNow_queued | apply armWatch_queued)
    | split

theorem remoteWatch_queued (target : WatchTarget) (c : Nat) (r : TallyRef) (thr : W32) (cons : Bool)
    (cookie : W16) (h0 : Queued qp s) :
    Queued qp (remoteWatch s target c r thr cons cookie).1 := by
  unfold remoteWatch
  repeat' first
    | (with_reducible first | assumption | apply queued_of)
    | simp only [queued_mk]
    | (with_reducible first | apply tallyRangeFault_queued | apply deliver_queued | apply armWatch_queued | apply fireWatch_queued)
    | split

theorem withdraw_queued (p : Watch → Bool) (pw : WatchReq → Bool) (h0 : Queued qp s) : Queued qp (withdraw s p pw) := by
  unfold withdraw
  repeat' first
    | (with_reducible first | assumption | intro _ | apply queued_foldl | apply queued_of)
    | simp only [queued_mk]
    | (with_reducible first | apply freeWatch_queued | apply State.setCell_queued)

theorem withdrawTarget_queued (x : WatchTarget) (h0 : Queued qp s) : Queued qp (withdrawTarget s x) := by
  unfold withdrawTarget
  repeat' with_reducible first | assumption | apply withdraw_queued

theorem unwatch_queued (target : WatchTarget) (c : Nat) (r : TallyRef) (cookie : W16) (h0 : Queued qp s) :
    Queued qp (unwatch s target c r cookie).1 := by
  unfold unwatch
  repeat' first
    | (with_reducible first | assumption | apply queued_of)
    | simp only [queued_mk]
    | (with_reducible first | apply tallyRangeFault_queued | apply withdraw_queued)
    | split

theorem barinitEffect_queued (t : Nat) (mask : W64) (h0 : Queued qp s) : Queued qp (barinitEffect s t mask).1 := by
  unfold barinitEffect
  repeat' first
    | (with_reducible first | assumption | apply queued_of)
    | simp only [queued_mk]
    | with_reducible apply State.setCell_queued
    | split

theorem barfreeEffect_queued (t : Nat) (h0 : Queued qp s) : Queued qp (barfreeEffect s t).1 := by
  unfold barfreeEffect
  repeat' first
    | (with_reducible first | assumption | apply queued_of)
    | simp only [queued_mk]
    | with_reducible apply State.setCell_queued
    | split

theorem barOp_queued (code : W16) (c : Nat) (r : TallyRef) (top : BitVec 4) (mask : W64) (h0 : Queued qp s) :
    Queued qp (barOp s code c r top mask).1 := by
  unfold barOp
  repeat' first
    | (with_reducible first | assumption | apply tallyRangeFault_queued | apply barinitEffect_queued | apply barfreeEffect_queued
                            | apply tallySigned_queued)
    | split

theorem tallyCommand_queued (o : Origin) (c : CtxId) (r : TallyRef) (f : State → State × Byte)
    (h0 : Queued qp s) (h4 : ∀ y0, Queued qp y0 → Queued qp (f y0).1) :
    Queued qp (tallyCommand s o c r f) := by
  unfold tallyCommand
  repeat' first
    | (with_reducible first | intro _ | apply queued_ite2 | apply answer_queued)
    | apply_assumption

theorem armOldest_queued (h0 : Queued qp s) : Queued qp (armOldest s) := by
  unfold armOldest
  repeat' first
    | (with_reducible first | assumption | apply queued_of)
    | simp only [queued_mk]
    | (with_reducible first | apply faceWaitFail_queued | apply stepWait_queued | apply armWatch_queued | apply fireWatch_queued)
    | split

theorem faceGate_queued (f : Nat) (h0 : Queued qp s) : Queued qp (faceGate s f) := by
  unfold faceGate
  repeat' first
    | (with_reducible first | assumption | apply queued_of)
    | simp only [queued_mk]
    | with_reducible apply State.setFace_queued
    | split

theorem xlateRefused_queued (o : Origin) (c : Nat) (va : Nat) (st : Byte) (tag : optParam W16 0) (h0 : Queued qp s) :
    Queued qp (xlateRefused s o c va st tag) := by
  unfold xlateRefused
  repeat' with_reducible first | assumption | apply logRefused_queued | apply State.setCtx_queued

theorem holeRefused_queued (o : Origin) (c : Nat) (va : Nat) (tag : optParam W16 0) (h0 : Queued qp s) :
    Queued qp (holeRefused s o c va tag) := by
  unfold holeRefused
  repeat' with_reducible first | assumption | apply logRefused_queued

theorem placeRefused_queued (o : Origin) (c : Nat) (va : Nat) (st : Byte) (tag : optParam W16 0) (h0 : Queued qp s) :
    Queued qp (placeRefused s o c va st tag) := by
  unfold placeRefused
  repeat' with_reducible first | assumption | intro _ | apply queued_ite | apply xlateRefused_queued | apply holeRefused_queued

theorem logRemap_queued (l : W64) (status : Byte) (spare : Nat) (h0 : Queued qp s) : Queued qp (logRemap s l status spare) := by
  unfold logRemap
  repeat' with_reducible first | assumption | apply logRec_queued

theorem remapStart_queued (l : W64) (path : Option DictPath) (h0 : Queued qp s) : Queued qp (remapStart s l path) := h0

theorem remapAuto_queued (l : W64) (h0 : Queued qp s) : Queued qp (remapAuto s l) := by
  unfold remapAuto
  repeat' with_reducible first | assumption | intro _ | apply queued_ite | apply logRemap_queued | apply State.modStack_queued
                               | apply remapStart_queued

theorem ceFound_queued (g : Nat) (die : Nat) (row : Nat) (cw : Nat) (h0 : Queued qp s) : Queued qp (ceFound s g die row cw) := by
  unfold ceFound
  repeat' with_reducible first | assumption | intro _ | apply queued_ite | apply State.setStack_queued | apply remapAuto_queued

theorem ueFound_queued (g : Nat) (die : Nat) (row : Nat) (cw : Nat) (code : W16) (ctx : BitVec 6) (h0 : Queued qp s) :
    Queued qp (ueFound s g die row cw code ctx) := by
  unfold ueFound
  repeat' with_reducible first | assumption | apply State.modStack_queued | apply logRec_queued | apply raiseEmcy_queued

theorem actCount_queued (g : Nat) (die : Nat) (row : Nat) (i : Nat) (cnt : Nat) (floor : Nat) (h0 : Queued qp s) :
    Queued qp (actCount s g die row i cnt floor) := h0

theorem actRow_queued (g : Nat) (die : Nat) (row : Nat) (h0 : Queued qp s) : Queued qp (actRow s g die row) := by
  unfold actRow
  try dsimp only
  repeat' first
    | (with_reducible first | assumption | apply actCount_queued)
    | split

theorem rowStepAct_queued (at_ : Nat) {s : State} (g : Nat) (die : Nat) (row : Nat) (h1 : Queued qp s) :
    Queued qp (rowStepAct at_ s g die row) := by
  unfold rowStepAct
  repeat' with_reducible first | assumption | intro _ | apply queued_ite | apply State.setCol_queued | apply actRow_queued

theorem readCw_queued (g : Nat) (die : Nat) (row : Nat) (cw : Nat) (code : W16) (ctx : BitVec 6) (h0 : Queued qp s) :
    Queued qp (readCw s g die row cw code ctx).1 := by
  unfold readCw
  try dsimp only
  repeat' first
    | (with_reducible first | assumption | apply ceFound_queued | apply ueFound_queued)
    | split

theorem writeCw_queued (g : Nat) (die : Nat) (row : Nat) (cw : Nat) (bs : List Byte) (poison : Bool) (h0 : Queued qp s) :
    Queued qp (writeCw s g die row cw bs poison) := by
  unfold writeCw
  repeat' first
    | (with_reducible first | assumption | apply queued_of)
    | simp only [queued_mk]
    | with_reducible apply State.wrBytes_queued

theorem readRowCws_queued (g : Nat) (die : Nat) (row : Nat) (code : W16) (ctx : BitVec 6) (x6 : List Nat) (h0 : Queued qp s) :
    Queued qp (readRowCws s g die row code ctx x6).1 := by
  revert h0
  fun_induction readRowCws s g die row code ctx x6
  all_goals intro h0
  repeat' first
    | (with_reducible first | apply readCw_queued | refine queued_fst ?_ (by assumption))
    | apply_assumption

theorem dramRead_queued (g : Nat) (die : Nat) (row : Nat) (off : Nat) (n : Nat) (code : W16) (ctx : BitVec 6) (h0 : Queued qp s) :
    Queued qp (dramRead s g die row off n code ctx).1 := by
  unfold dramRead
  repeat' with_reducible first | assumption | apply readRowCws_queued

theorem writeRowCw_queued (g : Nat) (die : Nat) (row : Nat) (off : Nat) (bs : List PByte)
    (code : W16) (ctx : BitVec 6) (cw : Nat) (h0 : Queued qp s) :
    Queued qp (writeRowCw s g die row off bs code ctx cw).1 := by
  unfold writeRowCw
  repeat' with_reducible first | assumption | intro _ | apply queued_ite2 | apply writeCw_queued | apply readCw_queued
                               | apply State.modStack_queued

theorem dramWrite_queued (g : Nat) (die : Nat) (row : Nat) (off : Nat) (bs : List PByte)
    (code : W16) (ctx : BitVec 6) (h0 : Queued qp s) :
    Queued qp (dramWrite s g die row off bs code ctx).1 := by
  unfold dramWrite
  repeat' with_reducible first | assumption | intro _ | apply queued_foldl2 | apply writeRowCw_queued

theorem readSramWord_queued (f : Nat) (o : Nat) (code : W16) (ctx : BitVec 6) (h0 : Queued qp s) :
    Queued qp (readSramWord s f o code ctx).1 := by
  unfold readSramWord
  try dsimp only
  repeat' first
    | with_reducible apply logRec_queued
    | split
    | apply_assumption

theorem writeSramWord_queued (f : Nat) (o : Nat) (bs : List Byte) (poison : Bool) (h0 : Queued qp s) :
    Queued qp (writeSramWord s f o bs poison) := by
  unfold writeSramWord
  repeat' first
    | (with_reducible first | assumption | apply queued_of)
    | simp only [queued_mk]
    | with_reducible apply State.wrBytes_queued

theorem readSramWords_queued (f : Nat) (code : W16) (ctx : BitVec 6) (x4 : List Nat) (h0 : Queued qp s) :
    Queued qp (readSramWords s f code ctx x4).1 := by
  revert h0
  fun_induction readSramWords s f code ctx x4
  all_goals intro h0
  repeat' first
    | (with_reducible first | apply readSramWord_queued | refine queued_fst ?_ (by assumption))
    | apply_assumption

theorem sramRead_queued (f : Nat) (off : Nat) (n : Nat) (code : W16) (ctx : BitVec 6) (h0 : Queued qp s) :
    Queued qp (sramRead s f off n code ctx).1 := by
  unfold sramRead
  repeat' with_reducible first | assumption | apply readSramWords_queued

theorem writeSramPart_queued (f : Nat) (off : Nat) (bs : List PByte) (code : W16) (ctx : BitVec 6) (o : Nat) (h0 : Queued qp s) :
    Queued qp (writeSramPart s f off bs code ctx o).1 := by
  unfold writeSramPart
  try dsimp only
  repeat' first
    | (with_reducible first | assumption | apply writeSramWord_queued | apply readSramWord_queued)
    | split

theorem sramWrite_queued (f : Nat) (off : Nat) (bs : List PByte) (code : W16) (ctx : BitVec 6) (h0 : Queued qp s) :
    Queued qp (sramWrite s f off bs code ctx).1 := by
  unfold sramWrite
  repeat' with_reducible first | assumption | intro _ | apply queued_foldl2 | apply writeSramPart_queued

theorem paRead_queued (pa : Nat) (n : Nat) (code : W16) (ctx : BitVec 6) (h0 : Queued qp s) :
    Queued qp (paRead s pa n code ctx).1 := by
  unfold paRead
  repeat' first
    | (with_reducible first | assumption | apply sramRead_queued | apply wakeDomain_queued)
    | split

theorem paWrite_queued (pa : Nat) (bs : List PByte) (code : W16) (ctx : BitVec 6) (h0 : Queued qp s) :
    Queued qp (paWrite s pa bs code ctx).1 := by
  unfold paWrite
  repeat' first
    | (with_reducible first | assumption | apply sramWrite_queued | apply wakeDomain_queued | apply State.wrBytes_queued)
    | split

theorem claimWaited_queued (g : Nat) (waited : Nat) (h0 : Queued qp s) : Queued qp (claimWaited s g waited) := h0

theorem xferDone_queued (x : Xfer) (h0 : Queued qp s) : Queued qp (xferDone s x) := by
  unfold xferDone
  repeat' first
    | (with_reducible first | assumption | apply fenceCount_queued | apply portRsp_queued | apply answer_queued | apply State.emit_queued)
    | split

theorem granDone_queued (id : Nat) (base : Nat) (st : Byte) (bs : List PByte) (h0 : Queued qp s) :
    Queued qp (granDone s id base st bs) := by
  unfold granDone
  repeat' first
    | (with_reducible first | assumption | apply queued_of)
    | simp only [queued_mk]
    | with_reducible apply xferDone_queued
    | split

theorem serveGran_queued (r : GranReq) (h0 : Queued qp s) : Queued qp (serveGran s r) := by
  unfold serveGran
  repeat' first
    | (with_reducible first | assumption | apply granDone_queued | apply actRow_queued | apply dramWrite_queued | apply withTag_queued
                            | apply dramRead_queued)
    | split

theorem ctrlGran_queued (r : GranReq) (h0 : Queued qp s) : Queued qp (ctrlGran s r) := by
  unfold ctrlGran
  repeat' first
    | (with_reducible first | assumption | intro _ | apply queued_ite | apply queued_of)
    | simp only [queued_mk]
    | (with_reducible first | apply serveGran_queued | apply State.modStack_queued)

theorem arriveGran_queued (r : GranReq) (h0 : Queued qp s) : Queued qp (arriveGran s r) := by
  unfold arriveGran
  repeat' first
    | (with_reducible first | assumption | intro _ | apply queued_ite | apply queued_of)
    | simp only [queued_mk]
    | with_reducible apply ctrlGran_queued

theorem crossbarIn_queued (n : Nat) (h0 : Queued qp s) : Queued qp (crossbarIn s n) := by
  unfold crossbarIn
  repeat' first
    | (with_reducible first | assumption | intro _ | apply queued_foldl | apply queued_ite | apply queued_of)
    | simp only [queued_mk]
    | with_reducible apply ctrlGran_queued

theorem sendGrans_queued (x : Xfer) (gs : List Gran) (data : List PByte) (h0 : Queued qp s) :
    Queued qp (sendGrans s x gs data) := by
  unfold sendGrans
  repeat' first
    | (with_reducible first | intro _ | apply queued_foldl | apply arriveGran_queued)
    | apply_assumption

theorem startXfer_queued (owner : XferOwner) (code : W16) (ctx : BitVec 6) (wr : Bool) (va : W64)
    (pa : Nat) (n : Nat) (data : List Byte) (h0 : Queued qp s) :
    Queued qp (startXfer s owner code ctx wr va pa n data) := by
  unfold startXfer
  repeat' first
    | with_reducible apply sendGrans_queued
    | apply_assumption

theorem delayOp_queued (g : Nat) (n : Nat) (h0 : Queued qp s) : Queued qp (delayOp s g n) := h0

theorem serveWait_queued (r : GranReq) (h0 : Queued qp s) : Queued qp (serveWait s r) := by
  unfold serveWait
  repeat' first
    | (with_reducible first | assumption | apply queued_of)
    | simp only [queued_mk]
    | (with_reducible first | apply serveGran_queued | apply delayOp_queued)

theorem claimWaitEnd_queued (g : Nat) (h0 : Queued qp s) : Queued qp (claimWaitEnd s g) := by
  unfold claimWaitEnd
  repeat' with_reducible first | assumption | intro _ | apply queued_foldl | apply queued_ite | apply serveWait_queued
                               | apply claimWaited_queued

theorem serveOthers_queued (g : Nat) (x1 : Nat) (x2 : Tab (Nat × Nat)) {x3 : State} (h3 : Queued qp x3) :
    Queued qp (serveOthers g x1 x2 x3) := by
  revert h3
  fun_induction serveOthers g x1 x2 x3
  all_goals intro h3
  repeat' first
    | with_reducible apply serveWait_queued
    | apply_assumption

theorem serveColumn_queued (g : Nat) (limit : Nat) (h0 : Queued qp s) : Queued qp (serveColumn s g limit) := by
  unfold serveColumn
  repeat' with_reducible first | assumption | intro _ | apply queued_ite | apply crossbarIn_queued | apply claimWaitEnd_queued
                               | apply serveOthers_queued

theorem serveFree_queued (g : Nat) (h0 : Queued qp s) : Queued qp (serveFree s g) := by
  unfold serveFree
  repeat' with_reducible first | assumption | intro _ | apply queued_ite | apply serveColumn_queued

theorem requestTimeout_queued (r : GranReq) (h0 : Queued qp s) : Queued qp (requestTimeout s r) := by
  unfold requestTimeout
  repeat' first
    | (with_reducible first | assumption | intro _ | apply queued_foldl | apply queued_of)
    | simp only [queued_mk]
    | with_reducible apply granDone_queued

theorem Chk.andThen_queued {α : Type} {β : Type} {x : Chk α} (f : State → α → Chk β) (h2 : Queued qp x.st)
    (h3 : ∀ y0 y1, Queued qp y0 → Queued qp (f y0 y1).st) :
    Queued qp (Chk.andThen x f).st := by
  unfold Chk.andThen
  repeat' first
    | split
    | apply_assumption

theorem Chk.guard_queued (b : Bool) (st : Byte) (h0 : Queued qp s) : Queued qp (Chk.guard s b st).st := by
  unfold Chk.guard
  repeat' first
    | (with_reducible first | assumption | intro _ | apply queued_iteC)
    | simp only [st_ok, st_cwait, st_cfail, queuedD_serve, queuedD_drop, queuedD_wait, queuedD_refuse, queuedW_mk, id_eq]

theorem innerDrop_queued (p : Waiter → Bool) (h0 : Queued qp s) : Queued qp (innerDrop s p) := h0

theorem localPieces_queued (r : Req) (base : Nat) (data : List PByte) (acc : List PByte) (st : Byte)
    (x6 : List Acc) (h0 : Queued qp s) :
    Queued qp (localPieces s r base data acc st x6).1 := by
  have h : ∀ (as : List Acc) (s : State) (base : Nat) (acc : List PByte) (st : Byte), Queued qp s →
      Queued qp (localPieces s r base data acc st as).1 := by
    intro as
    induction as with
    | nil => exact fun _ _ _ _ h => h
    | cons a as ih =>
      intro s base acc st h
      rw [localPieces]
      split
      · exact ih _ _ _ _ h
      · split
        · exact ih _ _ _ _ (paWrite_queued _ _ _ _ h)
        · exact ih _ _ _ _ (paRead_queued _ _ _ _ h)
  exact h _ _ _ _ _ h0

theorem innerBegin_queued (r : Req) (i : Nat) (va : Nat) (wr : Bool) (as : List Acc) (data : List PByte) (h0 : Queued qp s) :
    Queued qp (innerBegin s r i va wr as data) := by
  unfold innerBegin
  repeat' first
    | (with_reducible first | apply localPieces_queued | apply sendGrans_queued | apply withTag_queued)
    | apply_assumption

theorem innerResult_queued (who : Waiter) (i : Nat) (h0 : Queued qp s) : Queued qp (innerResult s who i).st := by
  unfold innerResult
  repeat' first
    | with_reducible assumption
    | simp only [st_ok, st_cwait, st_cfail, queuedD_serve, queuedD_drop, queuedD_wait, queuedD_refuse, queuedW_mk, id_eq]
    | split

theorem innerAccess_queued (r : Req) (i : Nat) (va : Nat) (wr : Bool) (as : List Acc) (data : List PByte) (h0 : Queued qp s) :
    Queued qp (innerAccess s r i va wr as data).st := by
  unfold innerAccess
  repeat' first
    | (with_reducible first | assumption | apply innerResult_queued | apply innerBegin_queued)
    | split

theorem mailPut_queued (m : Nat) (via : Nat) (h0 : Queued qp s) : Queued qp (mailPut s m via) := h0

theorem mailHold_queued (p : DictPath) (idx : W16) (sb : Byte) (off : Option W64) (w : List Byte) (h0 : Queued qp s) :
    Queued qp (mailHold s p idx sb off w) := by
  unfold mailHold
  repeat' first
    | (with_reducible first | assumption | apply mailPut_queued | apply State.setBox_queued)
    | split

theorem usdoNew_queued (h0 : Queued qp s) : Queued qp (usdoNew s) := by
  unfold usdoNew
  repeat' first
    | (with_reducible first | assumption | intro _ | apply queued_ite | apply queued_of)
    | simp only [queued_mk]

theorem dictReply_queued (p : DictPath) (st : Byte) (abort : W32) (data : List Byte) (h0 : Queued qp s) :
    Queued qp (dictReply s p st abort data) := by
  unfold dictReply
  repeat' first
    | (with_reducible first | assumption | apply queued_of)
    | simp only [queued_mk]
    | (with_reducible first | apply State.emit_queued | apply State.setBox_queued)
    | split

theorem dictRelease_queued (p : DictPath) (idx : W16) (sb : Byte) (st : Byte) (h0 : Queued qp s) :
    Queued qp (dictRelease s p idx sb st) := by
  unfold dictRelease
  repeat' first
    | (with_reducible first | assumption | apply queued_of)
    | simp only [queued_mk]
    | with_reducible apply dictReply_queued
    | split

theorem logObject_queued (st : Byte) (idx : W16) (sb : Byte) (h0 : Queued qp s) : Queued qp (logObject s st idx sb) := by
  unfold logObject
  repeat' with_reducible first | assumption | apply logRec_queued

theorem dictOpen_queued (p : DictPath) (idx : W16) (sb : Byte) (wr : Bool) (h0 : Queued qp s) :
    QueuedD qp (dictOpen s p idx sb wr) := by
  unfold dictOpen
  repeat' first
    | (with_reducible first | assumption | apply queued_of)
    | simp only [st_ok, st_cwait, st_cfail, queuedD_serve, queuedD_drop, queuedD_wait, queuedD_refuse, queuedW_mk, id_eq]
    | simp only [queued_mk]
    | (with_reducible first | apply usdoNew_queued | apply State.setBox_queued)
    | split

theorem dictHold_queued (p : DictPath) (idx : W16) (sb : Byte) (h0 : Queued qp s) : Queued qp (dictHold s p idx sb) := by
  unfold dictHold
  repeat' first
    | (with_reducible first | assumption | apply queued_of)
    | simp only [queued_mk]
    | split

theorem dictFinish_queued (p : DictPath) (idx : W16) (sb : Byte) {r : State × Option Byte} (h3 : Queued qp r.1) :
    Queued qp (dictFinish p idx sb r) := by
  unfold dictFinish
  repeat' first
    | (with_reducible first | assumption | apply dictReply_queued | apply dictHold_queued)
    | split

theorem dictRow_queued (p : DictPath) (idx : W16) (sb : Byte) (w : List Byte)
    (f : State → State × Option Byte) (h0 : Queued qp s) (h5 : ∀ y0, Queued qp y0 → Queued qp (f y0).1) :
    Queued qp (dictRow s p idx sb w f) := by
  unfold dictRow
  repeat' first
    | (with_reducible first | apply dictOpen_queued | apply mailHold_queued | apply dictReply_queued | apply dictFinish_queued)
    | split
    | (with_reducible first | refine opened_drop_queued ?_ (by assumption) | refine opened_refuse_queued ?_ (by assumption)
                            | refine opened_serve_queued ?_ (by assumption))
    | apply_assumption

theorem dictRow1_queued (p : DictPath) (idx : W16) (sb : Byte) (w : List Byte)
    (f : State → State × Byte) (h0 : Queued qp s) (h5 : ∀ y0, Queued qp y0 → Queued qp (f y0).1) :
    Queued qp (dictRow1 s p idx sb w f) := by
  unfold dictRow1
  repeat' with_reducible first | assumption | apply dictRow_queued

theorem dictRowThen_queued (p : DictPath) (idx : W16) (sb : Byte) (w : List Byte)
    (check : State → Byte) (act : State → State) (h0 : Queued qp s) (h6 : ∀ y0, Queued qp y0 → Queued qp (act y0)) :
    Queued qp (dictRowThen s p idx sb w check act) := by
  unfold dictRowThen
  try dsimp only
  repeat' first
    | (with_reducible first | apply dictOpen_queued | apply mailHold_queued | apply dictReply_queued)
    | split
    | (with_reducible first | refine opened_drop_queued ?_ (by assumption) | refine opened_refuse_queued ?_ (by assumption)
                            | refine opened_serve_queued ?_ (by assumption))
    | apply_assumption

theorem domainRow_queued (p : DictPath) (idx : W16) (off : W32) (w : List Byte)
    (f : State → Nat → State × Byte) (h0 : Queued qp s) (h5 : ∀ y0 y1, Queued qp y0 → Queued qp (f y0 y1).1) :
    Queued qp (domainRow s p idx off w f) := by
  unfold domainRow
  repeat' first
    | (with_reducible first | apply dictOpen_queued | apply mailHold_queued | apply dictReply_queued | apply dictFinish_queued)
    | split
    | (with_reducible first | refine opened_drop_queued ?_ (by assumption) | refine opened_refuse_queued ?_ (by assumption)
                            | refine opened_serve_queued ?_ (by assumption))
    | apply_assumption

end Sys2Proof.Machine
end

section
/-! SUPPORT. What the operations of picks, units of the module, queues, requests and column modes keep of the queue (`Queued`). -/

namespace Sys2Proof.Machine

set_option linter.unusedSimpArgs false

variable {qp : List Instr} {s : State}

theorem State.modPass_queued (id : Nat) (f : Pass → Pass) (h0 : Queued qp s) : Queued qp (State.modPass s id f) := h0

theorem pickGone_queued (g : Nat) (o : PickOp) (st : Byte) (h0 : Queued qp s) : Queued qp (pickGone s g o st) := h0

theorem slotDone_queued (g : Nat) (k : Nat) (o : PickOp) (st : Byte) (h0 : Queued qp s) : Queued qp (slotDone s g k o st) := by
  unfold slotDone
  repeat' first
    | (with_reducible first | assumption | apply tallyOp_queued | apply State.modCol_queued)
    | split

theorem passOpDone_queued (pid : Nat) (idx : Nat) (o : PickOp) (st : Byte) (h0 : Queued qp s) :
    Queued qp (passOpDone s pid idx o st) := h0

theorem pickEnd1_queued (g : Nat) (o : PickOp) (st : Byte) (h0 : Queued qp s) : Queued qp (pickEnd1 s g o st) := by
  unfold pickEnd1
  repeat' first
    | (with_reducible first | assumption | apply pickGone_queued | apply slotDone_queued | apply passOpDone_queued)
    | split

theorem passOpEnd_queued (pid : Nat) (x : PassOp) (st : Byte) (h0 : Queued qp s) : Queued qp (passOpEnd s pid x st) := by
  unfold passOpEnd
  repeat' first
    | (with_reducible first | assumption | apply pickEnd1_queued)
    | split

theorem passFail_queued (pid : Nat) (idx : Nat) (st : Byte) (h0 : Queued qp s) : Queued qp (passFail s pid idx st) := by
  unfold passFail
  repeat' first
    | (with_reducible first | assumption | intro _ | apply queued_foldl | apply passOpEnd_queued)
    | split

theorem pickEnd_queued (g : Nat) (o : PickOp) (st : Byte) (h0 : Queued qp s) : Queued qp (pickEnd s g o st) := by
  unfold pickEnd
  repeat' first
    | (with_reducible first | assumption | apply pickEnd1_queued | apply passFail_queued)
    | split

theorem colOperand_queued (g : Nat) (c : Nat) (va : Nat) (wr : Bool) (tag : W16) (h0 : Queued qp s) :
    Queued qp (colOperand s g c va wr tag).1 := by
  unfold colOperand
  try dsimp only
  repeat' first
    | (with_reducible first | assumption | apply xlateRefused_queued | apply placeRefused_queued)
    | split

theorem hubOperand_queued (code : W16) (c : Nat) (va : Nat) (n : Nat) (wr : Bool) (tag : W16) (h0 : Queued qp s) :
    Queued qp (hubOperand s code c va n wr tag).1 := by
  unfold hubOperand
  try dsimp only
  repeat' first
    | (with_reducible first | assumption | apply xlateRefused_queued | apply placeRefused_queued)
    | split

theorem takeOperands_queued (g : Nat) (x1 : List Operand) {x2 : State × PickOp} (h2 : Queued qp x2.1) :
    Queued qp (takeOperands g x1 x2).1 := by
  revert h2
  fun_induction takeOperands g x1 x2
  all_goals intro h2
  repeat' first
    | (with_reducible first | apply colOperand_queued | apply hubOperand_queued | refine queued_fst ?_ (by assumption))
    | apply_assumption

theorem admissionChecks_queued (g : Nat) (o : PickOp) (h0 : Queued qp s) : Queued qp (admissionChecks s g o).1 := by
  unfold admissionChecks
  try dsimp only
  repeat' first
    | (with_reducible first | assumption | apply logRefused_queued | apply takeOperands_queued)
    | split

theorem admitHead_queued (g : Nat) (seq : Bool) (h0 : Queued qp s) : ∀ t, (admitHead s g seq) = some t → Queued qp t := by
  intro t e
  unfold admitHead at e
  dsimp only at e
  split at e
  · cases e
  · split at e
    · cases e
    · split at e
      · exact Option.some.inj e ▸ pickEnd_queued _ _ _ (admissionChecks_queued _ _ h0)
      · split at e
        · split at e
          · cases e
          · exact Option.some.inj e ▸ pickEnd_queued _ _ _ (State.modStack_queued _ _ (admissionChecks_queued _ _ h0))
        · exact Option.some.inj e ▸ State.modCol_queued _ _ (admissionChecks_queued _ _ h0)

theorem pickAdmission_queued (g : Nat) (h0 : Queued qp s) : Queued qp (pickAdmission s g) := by
  unfold pickAdmission
  dsimp only
  split
  · split
    · exact admitHead_queued _ _ h0 _ ‹_›
    · cases e : admitHead s g (!!(s.col g).lastSeq) with
      | none => exact h0
      | some t => exact admitHead_queued _ _ h0 _ e
  · exact h0

theorem putOp_queued (g : Nat) (o : PickOp) (h0 : Queued qp s) : Queued qp (putOp s g o) := h0

theorem pickStart_queued (g : Nat) (i : Nat) (h0 : Queued qp s) : Queued qp (pickStart s g i) := by
  unfold pickStart
  try dsimp only
  repeat' first
    | (with_reducible first | assumption | apply State.modCol_queued | apply State.modStack_queued | apply putOp_queued
                            | apply pickEnd_queued)
    | split

theorem pickCompletion_queued (g : Nat) (i : Nat) (h0 : Queued qp s) : Queued qp (pickCompletion s g i) := by
  unfold pickCompletion
  repeat' first
    | (with_reducible first | assumption | apply pickEnd_queued)
    | split

theorem apertureWrite_queued (g : Nat) (off : Nat) (data : List Byte) (ctx : BitVec 6) (h0 : Queued qp s) :
    Queued qp (apertureWrite s g off data ctx).1 := by
  unfold apertureWrite
  dsimp only
  repeat' split
  all_goals first
    | exact h0
    | exact State.modCol_queued _ _ (wakeDomain_queued _ h0)

theorem mapPieces_queued (code : W16) (tag : W16) (c : Nat) (wr : Bool) (x5 : List (Nat × Nat)) (h0 : Queued qp s) :
    Queued qp (mapPieces s code tag c wr x5).1 := by
  revert h0
  fun_induction mapPieces s code tag c wr x5
  all_goals intro h0
  repeat' first
    | (with_reducible first | apply xlateRefused_queued | apply placeRefused_queued | refine queued_fst ?_ (by assumption))
    | apply_assumption

theorem mapRange_queued (code : W16) (tag : W16) (c : Nat) (va : Nat) (len : Nat) (wr : Bool) (h0 : Queued qp s) :
    Queued qp (mapRange s code tag c va len wr).1 := by
  unfold mapRange
  repeat' with_reducible first | assumption | apply mapPieces_queued

theorem mapRanges_queued (code : W16) (tag : W16) (c : Nat) (x4 : List (Nat × Nat × Bool)) (h0 : Queued qp s) :
    Queued qp (mapRanges s code tag c x4).1 := by
  revert h0
  fun_induction mapRanges s code tag c x4
  all_goals intro h0
  repeat' first
    | (with_reducible first | apply mapRange_queued | refine queued_fst ?_ (by assumption))
    | apply_assumption

theorem pieceAccess_queued (r : Req) (i : Nat) (va : Nat) (wr : Bool) (ps : List (Nat × Nat))
    (data : List PByte) (h0 : Queued qp s) :
    Queued qp (pieceAccess s r i va wr ps data).st := by
  unfold pieceAccess
  repeat' first
    | (with_reducible first | assumption | intro _ | apply queued_iteC)
    | simp only [st_ok, st_cwait, st_cfail, queuedD_serve, queuedD_drop, queuedD_wait, queuedD_refuse, queuedW_mk, id_eq]
    | (with_reducible first | apply innerResult_queued | apply mapPieces_queued | apply innerAccess_queued)

theorem accessBytes_queued {x : Chk (Byte × List PByte)} (h0 : Queued qp x.st) : Queued qp (accessBytes x).st := by
  unfold accessBytes
  repeat' first
    | (with_reducible first | assumption | intro _ | apply queued_iteC | apply chk_andThen_queued)
    | simp only [st_ok, st_cwait, st_cfail, queuedD_serve, queuedD_drop, queuedD_wait, queuedD_refuse, queuedW_mk, id_eq]

theorem fetchRange_queued (r : Req) (i : Nat) (va : Nat) (len : Nat) (h0 : Queued qp s) :
    Queued qp (fetchRange s r i va len).st := by
  unfold fetchRange
  repeat' with_reducible first | assumption | apply accessBytes_queued | apply pieceAccess_queued

theorem fetchOne_queued (r : Req) (i : Nat) (va : Nat) (len : Nat) (h0 : Queued qp s) : Queued qp (fetchOne s r i va len).st := by
  unfold fetchOne
  repeat' with_reducible first | assumption | apply accessBytes_queued | apply pieceAccess_queued

theorem cleanOnly_queued {x : Chk (List PByte)} (h0 : Queued qp x.st) : Queued qp (cleanOnly x).st := by
  unfold cleanOnly
  repeat' first
    | (with_reducible first | assumption | intro _ | apply queued_iteC | apply chk_andThen_queued)
    | simp only [st_ok, st_cwait, st_cfail, queuedD_serve, queuedD_drop, queuedD_wait, queuedD_refuse, queuedW_mk, id_eq]

theorem storeRange_queued (r : Req) (i : Nat) (va : Nat) (bs : List PByte) (h0 : Queued qp s) :
    Queued qp (storeRange s r i va bs).st := by
  unfold storeRange
  repeat' first
    | (with_reducible first | assumption | intro _ | apply chk_andThen_queued)
    | simp only [st_ok, st_cwait, st_cfail, queuedD_serve, queuedD_drop, queuedD_wait, queuedD_refuse, queuedW_mk, id_eq]
    | with_reducible apply pieceAccess_queued

theorem putStepOp_queued (q : Nat) (o : StepOp) (h0 : Queued qp s) : Queued qp (putStepOp s q o) := by
  unfold putStepOp
  repeat' first
    | (with_reducible first | assumption | apply State.modQueue_queued)
    | split

theorem stepOpDone_queued (q : Nat) (seq : Nat) (st : Byte) (assay : W64) (h0 : Queued qp s) :
    Queued qp (stepOpDone s q seq st assay) := by
  unfold stepOpDone
  repeat' first
    | (with_reducible first | assumption | apply putStepOp_queued)
    | split

theorem opDrop_queued (o : StepOp) (h0 : Queued qp s) : Queued qp (opDrop s o) := h0

theorem maskRead_queued (x : StepRun) (o : StepOp) (d : BitVec 512) (h0 : Queued qp s) : Queued qp (maskRead s x o d).st := by
  unfold maskRead
  repeat' with_reducible first | assumption | apply cleanOnly_queued | apply fetchOne_queued

theorem recDrop_queued (q : Nat) (x : RecFlight) (st : Byte) (h0 : Queued qp s) : Queued qp (recDrop s q x st) := by
  unfold recDrop
  repeat' with_reducible first | assumption | apply State.modQueue_queued | apply logRec_queued

theorem recSent_queued (q : Nat) (x : RecFlight) (acked : Bool) (h0 : Queued qp s) : Queued qp (recSent s q x acked) := h0

theorem recSend_queued (q : Nat) (x : RecFlight) (h0 : Queued qp s) : Queued qp (recSend s q x) := by
  unfold recSend
  repeat' first
    | (with_reducible first | assumption | apply queued_of)
    | simp only [queued_mk]
    | (with_reducible first | apply recDrop_queued | apply storeRange_queued | apply innerDrop_queued | apply recSent_queued
                            | apply hostSend_queued | apply portSend_queued)
    | split
    | (with_reducible first | refine chk_ok_queued ?_ (by assumption) | refine chk_wait_queued ?_ (by assumption)
                            | refine chk_fail_queued ?_ (by assumption))

theorem putRecord_queued (q : Nat) (x : RecInfo) (h0 : Queued qp s) : Queued qp (putRecord s q x) := by
  unfold putRecord
  repeat' first
    | with_reducible apply recSend_queued
    | apply_assumption

theorem recordAcknowledged_queued (q : Nat) (h0 : Queued qp s) : Queued qp (recordAcknowledged s q) := by
  unfold recordAcknowledged
  try dsimp only
  repeat' first
    | (with_reducible first | assumption | apply recSend_queued | apply State.setQueue_queued | apply tallyOp_queued
                            | apply hostMsix_queued)
    | split

theorem recordWaitTimeout_queued (q : Nat) (h0 : Queued qp s) : Queued qp (recordWaitTimeout s q) := by
  unfold recordWaitTimeout
  repeat' first
    | (with_reducible first | assumption | apply recDrop_queued)
    | split

theorem acceptSlot_queued (q : Nat) (d : BitVec 1024) (h0 : Queued qp s) : Queued qp (acceptSlot s q d) := by
  unfold acceptSlot
  repeat' first
    | (with_reducible first | assumption | apply putRecord_queued | apply State.setQueue_queued)
    | split

theorem checkSlots_queued (q : Nat) (x1 : Nat) {x2 : State} (h2 : Queued qp x2) : Queued qp (checkSlots q x1 x2) := by
  revert h2
  fun_induction checkSlots q x1 x2
  all_goals intro h2
  repeat' first
    | with_reducible apply acceptSlot_queued
    | apply_assumption

theorem doorbell_queued (q : Nat) (off : BitVec 6) (data : List Byte) (h0 : Queued qp s) : Queued qp (doorbell s q off data).1 := by
  unfold doorbell
  try dsimp only
  repeat' first
    | (with_reducible first | assumption | apply State.modQueue_queued | apply checkSlots_queued)
    | split

theorem answerDoorbell_queued (o : Origin) (q : Nat) (st : Byte) (h0 : Queued qp s) : Queued qp (answerDoorbell s o q st) := by
  unfold answerDoorbell
  repeat' first
    | (with_reducible first | assumption | apply portRsp_queued | apply fenceCount_queued | apply State.emit_queued)
    | split

theorem rereadSlot_queued (q : Nat) (first : Nat) (last : Nat) (h0 : Queued qp s) : Queued qp (rereadSlot s q first last) := by
  unfold rereadSlot
  repeat' with_reducible first | assumption | apply checkSlots_queued | apply State.modQueue_queued

theorem slotReread_queued (q : Nat) (h0 : Queued qp s) : Queued qp (slotReread s q) := by
  unfold slotReread
  try dsimp only
  repeat' first
    | (with_reducible first | assumption | apply rereadSlot_queued)
    | split

theorem stallQueue_queued (q : Nat) (h0 : Queued qp s) : Queued qp (stallQueue s q) := by
  unfold stallQueue
  repeat' with_reducible first | assumption | apply State.setQueue_queued | apply logRec_queued | apply putRecord_queued

theorem slotStaleStall_queued (q : Nat) (h0 : Queued qp s) : Queued qp (slotStaleStall s q) := by
  unfold slotStaleStall
  try dsimp only
  repeat' first
    | (with_reducible first | assumption | apply rereadSlot_queued | apply stallQueue_queued)
    | split

theorem queueResume_queued (q : Nat) (h0 : Queued qp s) : Queued qp (queueResume s q).1 := by
  unfold queueResume
  try dsimp only
  repeat' first
    | (with_reducible first | assumption | apply checkSlots_queued | apply State.setQueue_queued)
    | split

theorem queueReset_queued (q : Nat) (h0 : Queued qp s) : Queued qp (queueReset s q).1 := by
  unfold queueReset
  try dsimp only
  repeat' first
    | (with_reducible first | assumption | apply State.setQueue_queued)
    | split

theorem stepStop_queued (q : Nat) (num : Nat) (st : Byte) (at_ : Nat) (h0 : Queued qp s) : Queued qp (stepStop s q num st at_) := by
  unfold stepStop
  repeat' first
    | (with_reducible first | assumption | apply State.modQueue_queued | apply withdrawTarget_queued)
    | split

theorem queueAbort_queued (q : Nat) (h0 : Queued qp s) : Queued qp (queueAbort s q).1 := by
  unfold queueAbort
  repeat' first
    | (with_reducible first | assumption | apply stepStop_queued)
    | split

theorem queueCtl_queued (q : Nat) (v : Nat) (h0 : Queued qp s) : Queued qp (queueCtl s q v).1 := by
  unfold queueCtl
  repeat' first
    | (with_reducible first | assumption | apply queueResume_queued | apply queueReset_queued | apply queueAbort_queued)
    | split

theorem queueEnable_queued (q : Nat) (v : Nat) (h0 : Queued qp s) : Queued qp (queueEnable s q v).1 := by
  unfold queueEnable
  try dsimp only
  repeat' first
    | (with_reducible first | assumption | apply State.setQueue_queued)
    | split

theorem queueWrite_queued (p : DictPath) (q : QueueId) (sb : Byte) (v : Byte)
    (f : State → State × Byte) (h0 : Queued qp s) (h5 : ∀ y0, Queued qp y0 → Queued qp (f y0).1) :
    Queued qp (queueWrite s p q sb v f) := by
  unfold queueWrite
  repeat' with_reducible first | assumption | apply dictRow1_queued

theorem queueObject_queued (q : Nat) (sb : Nat) (v : Nat) (h0 : Queued qp s) : Queued qp (queueObject s q sb v).1 := by
  unfold queueObject
  repeat' with_reducible first | assumption | intro _ | apply queued_ite2 | apply State.setQueue_queued | apply queueEnable_queued
                               | apply queueCtl_queued

theorem mirrorWrite_queued (o : Origin) (off : Nat) (data : List Byte) (h0 : Queued qp s) :
    Queued qp (mirrorWrite s o off data).1 := by
  unfold mirrorWrite
  repeat' first
    | (with_reducible first | assumption | intro _ | apply queued_ite | apply queued_ite2 | apply queued_of)
    | simp only [queued_mk]
    | (with_reducible first | apply State.setBox_queued | apply mailPut_queued)

theorem tallyRecord_queued (o : Origin) (c : Nat) (r : TallyRef) (w0 : W64) (w1 : W64) (h0 : Queued qp s) :
    Queued qp (tallyRecord s o c r w0 w1).1 := by
  unfold tallyRecord
  try dsimp only
  repeat' first
    | (with_reducible first | assumption | apply tallyOp_queued | apply remoteWatch_queued | apply unwatch_queued | apply barOp_queued)
    | split

theorem tallyPageWrite_queued (o : Origin) (c : Nat) (off : Nat) (data : List Byte) (h0 : Queued qp s) :
    Queued qp (tallyPageWrite s o c off data).1 := by
  unfold tallyPageWrite
  repeat' first
    | (with_reducible first | assumption | apply tallyRecord_queued)
    | split

theorem tallyPageRead_queued (o : Origin) (c : Nat) (off : Nat) (n : Nat) (h0 : Queued qp s) :
    Queued qp (tallyPageRead s o c off n).1 := by
  unfold tallyPageRead
  repeat' first
    | (with_reducible first | assumption | apply tallyRangeFault_queued)
    | split

theorem queuePageWrite_queued (off : Nat) (data : List Byte) (h0 : Queued qp s) : Queued qp (queuePageWrite s off data).1 := by
  unfold queuePageWrite
  repeat' first
    | (with_reducible first | assumption | apply doorbell_queued | apply State.wrBytes_queued)
    | split

theorem pageRefused_queued (o : Origin) (c : Nat) (va : Nat) (st : Byte) (h0 : Queued qp s) :
    Queued qp (pageRefused s o c va st) := by
  unfold pageRefused
  repeat' first
    | (with_reducible first | assumption | apply placeRefused_queued)
    | split

theorem pageWrite_queued (o : Origin) (c : Nat) (pa : Nat) (data : List Byte) (h0 : Queued qp s) :
    Queued qp (pageWrite s o c pa data).1 := by
  unfold pageWrite
  try dsimp only
  repeat' first
    | (with_reducible first | assumption | apply tallyPageWrite_queued | apply queuePageWrite_queued | apply mirrorWrite_queued
                            | apply apertureWrite_queued | apply paWrite_queued)
    | split

theorem pageRead_queued (o : Origin) (c : Nat) (pa : Nat) (n : Nat) (h0 : Queued qp s) : Queued qp (pageRead s o c pa n).1 := by
  unfold pageRead
  try dsimp only
  repeat' first
    | (with_reducible first | assumption | apply tallyPageRead_queued | apply paRead_queued)
    | split

theorem pageRequest_queued (o : Origin) (c : Nat) (wr : Bool) (va : Nat) (pa : Nat) (n : Nat)
    (data : List Byte) (h0 : Queued qp s) :
    Queued qp (pageRequest s o c wr va pa n data) := by
  unfold pageRequest
  repeat' with_reducible first | assumption | intro _ | apply queued_ite | apply startXfer_queued | apply pageWrite_queued
                               | apply answerWrite_queued | apply pageRefused_queued | apply pageRead_queued | apply answer_queued

theorem refuseRequest_queued (o : Origin) (c : Nat) (wr : Bool) (st : Byte) (va : Nat) (h0 : Queued qp s) :
    Queued qp (refuseRequest s o c wr st va) := by
  unfold refuseRequest
  repeat' with_reducible first | assumption | intro _ | apply queued_ite | apply answerWrite_queued | apply answer_queued

theorem request_queued (o : Origin) (c : Nat) (wr : Bool) (nc : Bool) (va : Nat) (n : Nat) (data : List Byte) (h0 : Queued qp s) :
    Queued qp (request s o c wr nc va n data) := by
  unfold request
  repeat' first
    | (with_reducible first | assumption | apply refuseRequest_queued | apply xlateRefused_queued | apply pageRequest_queued)
    | split

theorem ordinaryRequest_queued (o : Origin) (c : Nat) (wr : Bool) (nc : Bool) (va : Nat) (n : Nat)
    (data : List Byte) (h0 : Queued qp s) :
    Queued qp (ordinaryRequest s o c wr nc va n data) := by
  unfold ordinaryRequest
  repeat' with_reducible first | assumption | intro _ | apply queued_ite | apply refuseRequest_queued | apply request_queued

theorem apertureVa_queued (c : Nat) (g : Nat) (off : Nat) (wr : Bool) (h0 : Queued qp s) :
    Queued qp (apertureVa s c g off wr).1 := by
  unfold apertureVa
  try dsimp only
  repeat' first
    | split
    | apply_assumption

theorem directWrite_queued (o : Origin) (c : Nat) (g : Nat) (off : Nat) (data : List Byte) (h0 : Queued qp s) :
    Queued qp (directWrite s o c g off data) := by
  unfold directWrite
  repeat' with_reducible first | assumption | intro _ | apply queued_ite | apply apertureVa_queued | apply answerWrite_queued
                               | apply xlateRefused_queued | apply apertureWrite_queued | apply pageRefused_queued

theorem apertureReadBy_queued (o : Origin) (c : Nat) (g : Nat) (off : Nat) (len : Nat) (h0 : Queued qp s) :
    Queued qp (apertureReadBy s o c g off len) := by
  unfold apertureReadBy
  repeat' with_reducible first | assumption | intro _ | apply queued_ite | apply apertureVa_queued | apply answer_queued
                               | apply xlateRefused_queued | apply pageRefused_queued

theorem startToPick_queued (g : Nat) (p : DictPath) (byStack : Bool) (h0 : Queued qp s) :
    Queued qp (startToPick s g p byStack) := h0

theorem startToNormal_queued (g : Nat) (p : DictPath) (byStack : Bool) (h0 : Queued qp s) :
    Queued qp (startToNormal s g p byStack) := by
  unfold startToNormal
  repeat' with_reducible first | assumption | intro _ | apply queued_foldl | apply queued_ite | apply State.modCol_queued
                               | apply pickEnd_queued

theorem colModeWrite_queued (p : DictPath) (g : Nat) (v : Nat) (h0 : Queued qp s) : Queued qp (colModeWrite s p g v).1 := by
  unfold colModeWrite
  try dsimp only
  repeat' first
    | (with_reducible first | assumption | apply startToPick_queued | apply startToNormal_queued)
    | split

theorem changeEnds_queued (g : Nat) (ch : ModeChange) (st : Byte) (h0 : Queued qp s) : Queued qp (changeEnds s g ch st) := by
  unfold changeEnds
  try dsimp only
  repeat' first
    | (with_reducible first | assumption | apply State.modStack_queued | apply dictRelease_queued)
    | split

theorem pickModeReached_queued (g : Nat) (h0 : Queued qp s) : Queued qp (pickModeReached s g) := by
  unfold pickModeReached
  try dsimp only
  repeat' first
    | (with_reducible first | assumption | apply changeEnds_queued | apply State.setCol_queued)
    | split

theorem normalModeReached_queued (g : Nat) (h0 : Queued qp s) : Queued qp (normalModeReached s g) := by
  unfold normalModeReached
  try dsimp only
  repeat' first
    | (with_reducible first | assumption | apply changeEnds_queued | apply State.setCol_queued)
    | split

theorem colModeTimeout_queued (g : Nat) (h0 : Queued qp s) : Queued qp (colModeTimeout s g) := by
  unfold colModeTimeout
  try dsimp only
  repeat' first
    | (with_reducible first | assumption | apply State.setCol_queued | apply logObject_queued | apply changeEnds_queued)
    | split

theorem stackModeWrite_queued (p : DictPath) (n : Nat) (v : Nat) (h0 : Queued qp s) : Queued qp (stackModeWrite s p n v).1 := by
  unfold stackModeWrite
  repeat' with_reducible first | assumption | intro _ | apply queued_foldl | apply queued_ite | apply queued_ite2
                               | apply State.modStack_queued | apply startToPick_queued | apply startToNormal_queued

end Sys2Proof.Machine
end

section
/-! SUPPORT. What the operations of shaft controllers and ports keep of the queue (`Queued`). -/

namespace Sys2Proof.Machine

set_option linter.unusedSimpArgs false

variable {qp : List Instr} {s : State}

theorem fenceJob_queued (pick : Bool) (idx : Nat) (cause : Byte) (h0 : Queued qp s) : Queued qp (fenceJob s pick idx cause) := h0

theorem endAllOps_queued (g : Nat) (st : Byte) (h0 : Queued qp s) : Queued qp (endAllOps s g st) := by
  unfold endAllOps
  repeat' with_reducible first | assumption | intro _ | apply queued_foldl | apply queued_ite | apply pickEnd_queued

theorem passesFenced_queued (g : Nat) (h0 : Queued qp s) : Queued qp (passesFenced s g) := by
  unfold passesFenced
  repeat' with_reducible first | assumption | intro _ | apply queued_foldl | apply passOpEnd_queued | apply State.modPass_queued

theorem fencePickNow_queued (g : Nat) (h0 : Queued qp s) : Queued qp (fencePickNow s g) := by
  unfold fencePickNow
  try dsimp only
  repeat' first
    | (with_reducible first | assumption | apply passesFenced_queued | apply endAllOps_queued | apply State.setCol_queued
                            | apply changeEnds_queued)
    | split

theorem claimWaitTimeout_queued (g : Nat) (h0 : Queued qp s) : Queued qp (claimWaitTimeout s g) := by
  unfold claimWaitTimeout
  repeat' first
    | (with_reducible first | assumption | apply crossbarIn_queued | apply requestTimeout_queued | apply State.modStack_queued
                            | apply claimWaited_queued)
    | split

theorem voidStack_queued (n : Nat) (h0 : Queued qp s) : Queued qp (voidStack s n) := by
  unfold voidStack
  repeat' with_reducible first | assumption | intro _ | apply queued_foldl | apply State.modStack_queued | apply State.modCol_queued

theorem rateTrigger_queued (n : Nat) (h0 : Queued qp s) : Queued qp (rateTrigger s n) := by
  unfold rateTrigger
  repeat' with_reducible first | assumption | intro _ | apply queued_ite | apply State.modStack_queued | apply voidStack_queued

theorem coolCount_queued (n : Nat) (h0 : Queued qp s) : Queued qp (coolCount s n) := h0

theorem columnRate_queued (g : Nat) (h0 : Queued qp s) : Queued qp (columnRate s g) := by
  unfold columnRate
  repeat' with_reducible first | assumption | intro _ | apply queued_ite | apply rateTrigger_queued | apply State.modStack_queued
                               | apply voidStack_queued | apply State.modCol_queued

theorem refreshDie_queued (g : Nat) (k : Nat) (due : Nat) {s : State} (die : Nat) (h3 : Queued qp s) :
    Queued qp (refreshDie g k due s die) := by
  unfold refreshDie
  repeat' with_reducible first | assumption | apply State.modStack_queued | apply State.setCol_queued

theorem creditChecked_queued (g : Nat) (k : Nat) (due : Nat) {s : State} (die : Nat) (h3 : Queued qp s) :
    Queued qp (creditChecked g k due s die) := by
  unfold creditChecked
  repeat' with_reducible first | assumption | apply State.modCol_queued

theorem insertOwed_queued (g : Nat) (h0 : Queued qp s) : Queued qp (insertOwed s g) := by
  unfold insertOwed
  repeat' with_reducible first | assumption | intro _ | apply queued_foldl | apply queued_ite | apply refreshDie_queued
                               | apply delayOp_queued | apply State.modStack_queued | apply State.modCol_queued

theorem nextInterval_queued (g : Nat) (h0 : Queued qp s) : Queued qp (nextInterval s g) := by
  unfold nextInterval
  repeat' with_reducible first | assumption | intro _ | apply queued_ite | apply State.setCol_queued | apply State.modStack_queued

theorem refreshDue_queued (g : Nat) (h0 : Queued qp s) : Queued qp (refreshDue s g) := by
  unfold refreshDue
  repeat' with_reducible first | assumption | intro _ | apply queued_foldl | apply queued_ite | apply columnRate_queued
                               | apply creditChecked_queued | apply refreshDie_queued | apply insertOwed_queued
                               | apply State.modCol_queued | apply State.modStack_queued | apply nextInterval_queued

theorem targetedRefresh_queued (g : Nat) (h0 : Queued qp s) : Queued qp (targetedRefresh s g) := by
  unfold targetedRefresh
  repeat' first
    | (with_reducible first | assumption | apply delayOp_queued | apply State.modStack_queued | apply State.modCol_queued)
    | split

theorem rowStepBoundary_queued (g : Nat) (h0 : Queued qp s) : Queued qp (rowStepBoundary s g) := by
  unfold rowStepBoundary
  repeat' with_reducible first | assumption | intro _ | apply queued_foldl | apply queued_ite | apply insertOwed_queued
                               | apply targetedRefresh_queued | apply serveColumn_queued

theorem poisonWaits_queued (g : Nat) (h0 : Queued qp s) : Queued qp (poisonWaits s g) := by
  unfold poisonWaits
  repeat' first
    | (with_reducible first | assumption | intro _ | apply queued_foldl | apply queued_of)
    | simp only [queued_mk]
    | (with_reducible first | apply granDone_queued | apply crossbarIn_queued)

theorem pathFail_queued (g : Nat) (h0 : Queued qp s) : Queued qp (pathFail s g) := by
  unfold pathFail
  repeat' with_reducible first | assumption | intro _ | apply queued_foldl | apply queued_ite | apply State.setCol_queued
                               | apply poisonWaits_queued | apply pickEnd_queued | apply State.modStack_queued | apply raiseEmcy_queued
                               | apply logRec_queued | apply fenceJob_queued | apply fencePickNow_queued

theorem parityAlert_queued (g : Nat) (h0 : Queued qp s) : Queued qp (parityAlert s g) := by
  unfold parityAlert
  repeat' with_reducible first | assumption | intro _ | apply queued_ite | apply State.modStack_queued | apply pathFail_queued
                               | apply State.setCol_queued

theorem laneRetrained_queued (g : Nat) (h0 : Queued qp s) : Queued qp (laneRetrained s g) := by
  unfold laneRetrained
  repeat' with_reducible first | assumption | intro _ | apply queued_ite | apply serveFree_queued | apply State.modStack_queued
                               | apply State.setCol_queued

theorem logShaftLink_queued (n : Nat) (state : Nat) (h0 : Queued qp s) : Queued qp (logShaftLink s n state) := by
  unfold logShaftLink
  repeat' with_reducible first | assumption | apply logRec_queued

theorem linkNak_queued (n : Nat) (down : Bool) (h0 : Queued qp s) : Queued qp (linkNak s n down) := by
  unfold linkNak
  repeat' with_reducible first | assumption | intro _ | apply queued_ite | apply logShaftLink_queued | apply State.setStack_queued
                               | apply State.emit_queued

theorem linkFrame_queued (n : Nat) (down : Bool) (seq : Byte) (ftype : Byte) (payload : List Byte) (crc : W32) (h0 : Queued qp s) :
    Queued qp (linkFrame s n down seq ftype payload crc) := by
  unfold linkFrame
  repeat' with_reducible first | assumption | intro _ | apply queued_ite | apply State.setStack_queued | apply linkNak_queued

theorem shaftLinkRetrained_queued (n : Nat) (h0 : Queued qp s) : Queued qp (shaftLinkRetrained s n) := by
  unfold shaftLinkRetrained
  repeat' with_reducible first | assumption | intro _ | apply queued_ite | apply crossbarIn_queued | apply logShaftLink_queued
                               | apply State.modStack_queued

theorem stackRequestTimeout_queued (n : Nat) (h0 : Queued qp s) : Queued qp (stackRequestTimeout s n) := by
  unfold stackRequestTimeout
  try dsimp only
  repeat' first
    | (with_reducible first | assumption | apply requestTimeout_queued)
    | split

theorem cwFix_queued (g : Nat) (die : Nat) (row : Nat) (cw : Nat) (l : Nat) (e : Byte) (h0 : Queued qp s) :
    Queued qp (cwFix s g die row cw l e) := by
  unfold cwFix
  repeat' with_reducible first | assumption | apply State.modStack_queued | apply writeCw_queued

theorem writeBackEntry_queued (g : Nat) (h0 : Queued qp s) : Queued qp (writeBackEntry s g) := by
  unfold writeBackEntry
  try dsimp only
  repeat' first
    | (with_reducible first | assumption | apply actRow_queued | apply State.modStack_queued | apply cwFix_queued
                            | apply remapAuto_queued | apply ueFound_queued)
    | split

theorem scrubAdvance_queued (g : Nat) (h0 : Queued qp s) : Queued qp (scrubAdvance s g) := h0

theorem scrubCw_queued (g : Nat) (die : Nat) (row : Nat) {s : State} (cw : Nat) (h3 : Queued qp s) :
    Queued qp (scrubCw g die row s cw) := by
  unfold scrubCw
  try dsimp only
  repeat' first
    | (with_reducible first | assumption | apply cwFix_queued | apply State.setStack_queued | apply remapAuto_queued | apply ueFound_queued)
    | split

theorem scrubStep_queued (g : Nat) (h0 : Queued qp s) : Queued qp (scrubStep s g) := by
  unfold scrubStep
  repeat' with_reducible first | assumption | intro _ | apply queued_foldl | apply queued_ite | apply scrubAdvance_queued
                               | apply State.modStack_queued | apply scrubCw_queued | apply actRow_queued

theorem remapEnd_queued (n : Nat) (j : RemapJob) (st : Byte) (h0 : Queued qp s) : Queued qp (remapEnd s n j st) := by
  unfold remapEnd
  try dsimp only
  repeat' first
    | (with_reducible first | assumption | apply State.modStack_queued | apply dictRelease_queued | apply remapAuto_queued)
    | split

theorem remapReqWrite_queued (p : DictPath) (n : Nat) (l : W64) (h0 : Queued qp s) : Queued qp (remapReqWrite s p n l).1 := by
  unfold remapReqWrite
  repeat' first
    | (with_reducible first | assumption | apply logRemap_queued | apply remapStart_queued)
    | split

theorem copyCw_queued (g : Nat) (die : Nat) (row : Nat) (spare : Nat) {s : State} (cw : Nat) (h4 : Queued qp s) :
    Queued qp (copyCw g die row spare s cw) := by
  unfold copyCw
  repeat' first
    | (with_reducible first | assumption | apply queued_of)
    | simp only [queued_mk]
    | (with_reducible first | apply readCw_queued | apply State.wrBytes_queued)

theorem remapDo_queued (n : Nat) (j : RemapJob) (h0 : Queued qp s) : Queued qp (remapDo s n j) := by
  unfold remapDo
  repeat' first
    | (with_reducible first | assumption | apply queued_foldl | apply queued_of)
    | simp only [queued_mk]
    | (with_reducible first | apply remapEnd_queued | apply logRemap_queued | apply copyCw_queued | apply actRow_queued
                            | apply State.modStack_queued | apply State.setCol_queued)
    | split

theorem remapCopy_queued (n : Nat) (h0 : Queued qp s) : Queued qp (remapCopy s n) := by
  unfold remapCopy
  repeat' first
    | (with_reducible first | assumption | apply remapDo_queued | apply State.modStack_queued)
    | split

theorem remapClaimTimeout_queued (n : Nat) (h0 : Queued qp s) : Queued qp (remapClaimTimeout s n) := by
  unfold remapClaimTimeout
  repeat' first
    | (with_reducible first | assumption | apply remapEnd_queued | apply logRemap_queued)
    | split

theorem remapSelWrite_queued (n : Nat) (v : Nat) (h0 : Queued qp s) : Queued qp (remapSelWrite s n v).1 := by
  unfold remapSelWrite
  repeat' first
    | (with_reducible first | assumption | apply State.modStack_queued)
    | split

theorem malformed_queued (k : PortId) (h0 : Queued qp s) : Queued qp (malformed s k) := h0

theorem applySig_queued (k : PortId) (h : Hold) (h0 : Queued qp s) : Queued qp (applySig s k h) := by
  unfold applySig
  repeat' with_reducible first | assumption | apply tallyPageWrite_queued | apply portRsp_queued

theorem unhold_queued (k : PortId) (h : Hold) (h0 : Queued qp s) : Queued qp (unhold s k h) := h0

theorem timeoutSig_queued (k : PortId) (h : Hold) (h0 : Queued qp s) : Queued qp (timeoutSig s k h) := by
  unfold timeoutSig
  repeat' first
    | (with_reducible first | assumption | apply queued_of)
    | simp only [queued_mk]
    | (with_reducible first | apply unhold_queued | apply portRsp_queued)

theorem arriveSig_queued (k : PortId) (h : Hold) (h0 : Queued qp s) : Queued qp (arriveSig s k h) := by
  unfold arriveSig
  repeat' first
    | (with_reducible first | intro _ | apply queued_ite | apply applySig_queued)
    | apply_assumption

theorem sigStampMet_queued (k : PortId) (src : BitVec 4) (h0 : Queued qp s) : Queued qp (sigStampMet s k src) := by
  unfold sigStampMet
  try dsimp only
  repeat' first
    | (with_reducible first | assumption | apply applySig_queued | apply unhold_queued)
    | split

theorem logStamp_queued (k : PortId) (h : Hold) (h0 : Queued qp s) : Queued qp (logStamp s k h) := by
  unfold logStamp
  repeat' with_reducible first | assumption | apply logTally_queued

theorem stampTimeout_queued (k : PortId) (src : BitVec 4) (h0 : Queued qp s) : Queued qp (stampTimeout s k src) := by
  unfold stampTimeout
  try dsimp only
  repeat' first
    | (with_reducible first | assumption | apply timeoutSig_queued | apply logStamp_queued)
    | split

theorem dropHolds_queued (k : PortId) (h0 : Queued qp s) : Queued qp (dropHolds s k) := by
  unfold dropHolds
  repeat' with_reducible first | assumption | intro _ | apply queued_foldl | apply timeoutSig_queued

theorem fwdDone_queued (f : FwdReq) (st : Byte) (data : List Byte) (h0 : Queued qp s) : Queued qp (fwdDone s f st data) := by
  unfold fwdDone
  repeat' first
    | (with_reducible first | assumption | apply fenceCount_queued | apply portRsp_queued)
    | split

theorem refusePacket_queued (k : PortId) (h : BitVec 256) (st : Byte) (h0 : Queued qp s) : Queued qp (refusePacket s k h st) := by
  unfold refusePacket
  repeat' with_reducible first | assumption | intro _ | apply queued_ite | apply portRsp_queued | apply fenceCount_queued

theorem forward_queued (k : PortId) (h : BitVec 256) (data : List Byte) (h0 : Queued qp s) : Queued qp (forward s k h data) := by
  unfold forward
  repeat' first
    | (with_reducible first | assumption | apply queued_of)
    | simp only [queued_mk]
    | (with_reducible first | apply refusePacket_queued | apply State.setPort_queued | apply portSend_queued | apply poolKeep_queued)
    | split

theorem requestPacket_queued (k : PortId) (t : Nat) (h : BitVec 256) (data : List Byte) {f : State}
    (h0 : Queued qp s) (h5 : Queued qp f) :
    Queued qp (requestPacket s k t h data f) := by
  unfold requestPacket
  repeat' with_reducible first | assumption | intro _ | apply queued_ite | apply refusePacket_queued | apply forward_queued

theorem rdPacket_queued (k : PortId) (h : BitVec 256) (h0 : Queued qp s) : Queued qp (rdPacket s k h) := by
  unfold rdPacket
  repeat' with_reducible first | assumption | apply requestPacket_queued | apply request_queued

theorem wrPacket_queued (k : PortId) (h : BitVec 256) (data : List Byte) (h0 : Queued qp s) : Queued qp (wrPacket s k h data) := by
  unfold wrPacket
  repeat' with_reducible first | assumption | apply requestPacket_queued | apply request_queued

theorem sigPacket_queued (k : PortId) (h : BitVec 256) (data : List Byte) (h0 : Queued qp s) :
    Queued qp (sigPacket s k h data) := by
  unfold sigPacket
  repeat' first
    | (with_reducible first | assumption | apply requestPacket_queued | apply answer_queued | apply xlateRefused_queued
                            | apply arriveSig_queued | apply holeRefused_queued)
    | split

theorem recAnswered_queued (f : FwdReq) (st : Byte) (h0 : Queued qp s) : Queued qp (recAnswered s f st) := by
  unfold recAnswered
  repeat' first
    | (with_reducible first | assumption | apply recSent_queued | apply recDrop_queued)
    | split

theorem rspPacket_queued (k : PortId) (h : BitVec 256) (data : List Byte) (h0 : Queued qp s) :
    Queued qp (rspPacket s k h data) := by
  unfold rspPacket
  repeat' first
    | (with_reducible first | assumption | apply queued_of)
    | simp only [queued_mk]
    | (with_reducible first | apply malformed_queued | apply recAnswered_queued | apply fwdDone_queued)
    | split

theorem echoPacket_queued (k : PortId) (h : BitVec 256) (data : List Byte) (h0 : Queued qp s) :
    Queued qp (echoPacket s k h data) := by
  unfold echoPacket
  repeat' with_reducible first | assumption | intro _ | apply queued_ite | apply portMsg_queued | apply malformed_queued

theorem packetIn_queued (k : PortId) (h : BitVec 256) (data : List Byte) (h0 : Queued qp s) : Queued qp (packetIn s k h data) := by
  unfold packetIn
  repeat' with_reducible first | assumption | intro _ | apply queued_ite | apply rdPacket_queued | apply wrPacket_queued
                               | apply sigPacket_queued | apply rspPacket_queued | apply echoPacket_queued | apply malformed_queued
                               | apply refusePacket_queued

theorem onPort_queued (k : PortId) (h : BitVec 256) (n : Nat) (f : State → State) (h0 : Queued qp s)
    (h4 : ∀ y0, Queued qp y0 → Queued qp (f y0)) :
    Queued qp (onPort s k h n f) := by
  unfold onPort
  repeat' first
    | (with_reducible first | intro _ | apply queued_ite | apply portFlush_queued)
    | apply_assumption

theorem logPort_queued (k : PortId) (h0 : Queued qp s) : Queued qp (logPort s k) := by
  unfold logPort
  repeat' with_reducible first | assumption | apply logRec_queued

theorem endForwards_queued (k : PortId) (records : Bool) (h0 : Queued qp s) : Queued qp (endForwards s k records) := by
  unfold endForwards
  repeat' first
    | (with_reducible first | assumption | intro _ | apply queued_foldl | apply queued_ite | apply queued_of)
    | simp only [queued_mk]
    | (with_reducible first | apply recAnswered_queued | apply fwdDone_queued)

theorem retrain_queued (k : PortId) (h0 : Queued qp s) : Queued qp (retrain s k) := by
  unfold retrain
  repeat' with_reducible first | assumption | intro _ | apply queued_ite | apply State.setPort_queued | apply endForwards_queued
                               | apply dropHolds_queued

theorem dropPacket_queued (x : TxPkt) (h0 : Queued qp s) : Queued qp (dropPacket s x) := by
  unfold dropPacket
  repeat' first
    | (with_reducible first | assumption | apply portIdle_queued | apply poolLeave_queued)
    | split

theorem forgetFrom_queued (k : PortId) (h0 : Queued qp s) : Queued qp (forgetFrom s k) := h0

theorem portStop_queued (k : PortId) (state : Byte) (h0 : Queued qp s) : Queued qp (portStop s k state) := by
  unfold portStop
  repeat' with_reducible first | assumption | apply queued_foldl | apply State.setPort_queued | apply condEnd_queued
                               | apply endForwards_queued | apply forgetFrom_queued | apply dropPacket_queued

theorem portDown_queued (k : PortId) (h0 : Queued qp s) : Queued qp (portDown s k) := by
  unfold portDown
  repeat' with_reducible first | assumption | apply logPort_queued | apply portStop_queued | apply condStart_queued

theorem firstTrain_queued (k : PortId) (h0 : Queued qp s) : Queued qp (firstTrain s k) := by
  unfold firstTrain
  repeat' with_reducible first | assumption | apply condEnd_queued | apply State.modPort_queued

theorem laneFailed_queued (k : PortId) (lane : Nat) (h0 : Queued qp s) : Queued qp (laneFailed s k lane) := by
  unfold laneFailed
  repeat' with_reducible first | assumption | intro _ | apply queued_ite | apply State.setPort_queued | apply logPort_queued
                               | apply retrain_queued

theorem resend_queued (k : PortId) (fresh : Bool) (h0 : Queued qp s) : Queued qp (resend s k fresh) := h0

theorem trained_queued (k : PortId) (bad : BitVec 17) (c1 : W16) (c2 : W16) (c3 : W16) (peerSeq : BitVec 12) (h0 : Queued qp s) :
    Queued qp (trained s k bad c1 c2 c3 peerSeq) := by
  unfold trained
  repeat' first
    | (with_reducible first | assumption | intro _ | apply queued_ite | apply queued_of)
    | simp only [queued_mk]
    | (with_reducible first | apply portDown_queued | apply State.setPort_queued | apply State.emit_queued | apply condEnd_queued
                            | apply condStart_queued | apply portFlush_queued | apply resend_queued)

theorem trainingDone_queued (k : PortId) (good : Bool) (bad : BitVec 17) (c1 : W16) (c2 : W16)
    (c3 : W16) (peerSeq : BitVec 12) (h0 : Queued qp s) :
    Queued qp (trainingDone s k good bad c1 c2 c3 peerSeq) := by
  unfold trainingDone
  repeat' with_reducible first | assumption | intro _ | apply queued_ite | apply trained_queued | apply State.setPort_queued
                               | apply portDown_queued

theorem retrainReq_queued (k : PortId) (v : Nat) (h0 : Queued qp s) : Queued qp (retrainReq s k v).1 := by
  unfold retrainReq
  try dsimp only
  repeat' first
    | (with_reducible first | assumption | apply State.modPort_queued | apply retrain_queued | apply firstTrain_queued)
    | split

theorem portEnable_queued (k : PortId) (v : Nat) (h0 : Queued qp s) : Queued qp (portEnable s k v).1 := by
  unfold portEnable
  try dsimp only
  repeat' first
    | (with_reducible first | assumption | apply State.setPort_queued | apply condEnd_queued | apply portStop_queued
                            | apply retrain_queued | apply logRefused_queued | apply firstTrain_queued | apply State.setDomain_queued)
    | split

theorem fwdMatrix_queued (k : PortId) (v : Nat) (h0 : Queued qp s) : Queued qp (fwdMatrix s k v).1 := by
  unfold fwdMatrix
  repeat' first
    | (with_reducible first | assumption | apply logRefused_queued | apply State.modPort_queued)
    | split

theorem takePackets_queued (k : PortId) (x1 : Nat) {x2 : State} (h2 : Queued qp x2) : Queued qp (takePackets k x1 x2) := by
  revert h2
  fun_induction takePackets k x1 x2
  all_goals intro h2
  repeat' first
    | with_reducible apply packetIn_queued
    | apply_assumption

theorem nakIn_queued (k : PortId) (aseq : BitVec 12) (h0 : Queued qp s) : Queued qp (nakIn s k aseq) := by
  unfold nakIn
  repeat' with_reducible first | assumption | intro _ | apply queued_ite | apply State.setPort_queued | apply retrain_queued
                               | apply portFlush_queued | apply resend_queued

theorem sendNak_queued (k : PortId) (h0 : Queued qp s) : Queued qp (sendNak s k) := h0

theorem laneErrors_queued (k : PortId) (lanes : List (Fin 17)) (h0 : Queued qp s) : Queued qp (laneErrors s k lanes) := by
  unfold laneErrors
  repeat' with_reducible first | assumption | intro _ | apply queued_foldl | apply queued_ite | apply State.setPort_queued
                               | apply laneFailed_queued

theorem flitHeader_queued (k : PortId) (f : Nat) (h0 : Queued qp s) : Queued qp (flitHeader s k f) := h0

theorem goodFlit_queued (k : PortId) (flit : List Byte) (h0 : Queued qp s) : Queued qp (goodFlit s k flit) := by
  unfold goodFlit
  repeat' with_reducible first | assumption | intro _ | apply queued_ite | apply State.modPort_queued | apply flitHeader_queued
                               | apply portFlush_queued | apply takePackets_queued | apply sendNak_queued | apply nakIn_queued

theorem flitIn_queued (k : PortId) (corrected : W16) (bad : List (Fin 17)) (flit : List Byte) (h0 : Queued qp s) :
    Queued qp (flitIn s k corrected bad flit) := by
  unfold flitIn
  repeat' with_reducible first | assumption | intro _ | apply queued_ite | apply laneErrors_queued | apply State.setPort_queued
                               | apply goodFlit_queued | apply sendNak_queued

theorem sendPending_queued (v : Nat) (h0 : Queued qp s) : Queued qp (sendPending s v) := by
  unfold sendPending
  repeat' first
    | (with_reducible first | assumption | intro _ | apply queued_ite | apply queued_of)
    | simp only [queued_mk]
    | with_reducible apply hostMsix_queued

theorem msixWrite_queued (v : Nat) (e : BitVec 128) (h0 : Queued qp s) : Queued qp (msixWrite s v e) := by
  unfold msixWrite
  repeat' first
    | (with_reducible first | assumption | apply queued_of)
    | simp only [queued_mk]
    | with_reducible apply sendPending_queued

theorem msixUnmask_queued (x1 : Option (Fin 64)) (h0 : Queued qp s) : Queued qp (msixUnmask s x1) := by
  unfold msixUnmask
  repeat' first
    | (with_reducible first | assumption | apply queued_foldl | apply queued_of)
    | simp only [queued_mk]
    | (with_reducible first | apply msixWrite_queued | apply sendPending_queued)
    | split

theorem msixRegionWrite_queued (off : Nat) (data : List Byte) (h0 : Queued qp s) : Queued qp (msixRegionWrite s off data).1 := by
  unfold msixRegionWrite
  try dsimp only
  repeat' first
    | (with_reducible first | assumption | apply msixWrite_queued)
    | split

theorem hostRead_queued (off : Nat) (n : Nat) (tag : BitVec 10) (h0 : Queued qp s) : Queued qp (hostRead s off n tag) := by
  unfold hostRead
  repeat' with_reducible first | assumption | intro _ | apply queued_ite | apply answer_queued | apply pageRequest_queued

theorem hostWrite_queued (off : Nat) (data : List Byte) (h0 : Queued qp s) : Queued qp (hostWrite s off data) := by
  unfold hostWrite
  repeat' with_reducible first | assumption | intro _ | apply queued_ite | apply answer_queued | apply pageRequest_queued
                               | apply msixRegionWrite_queued

theorem aditAccess_queued (wr : Bool) (off : Nat) (n : Nat) (data : List Byte) (tag : BitVec 10) (h0 : Queued qp s) :
    Queued qp (aditAccess s wr off n data tag) := by
  unfold aditAccess
  repeat' first
    | (with_reducible first | assumption | intro _ | apply queued_ite | apply queued_of)
    | simp only [queued_mk]
    | (with_reducible first | apply answer_queued | apply startXfer_queued)

theorem aditPageWrite_queued (v : Nat) (h0 : Queued qp s) : Queued qp (aditPageWrite s v).1 := by
  unfold aditPageWrite
  repeat' first
    | (with_reducible first | assumption | intro _ | apply queued_ite2 | apply queued_of)
    | simp only [queued_mk]

theorem hostLinkUp_queued (full : Bool) (h0 : Queued qp s) : Queued qp (hostLinkUp s full) := by
  unfold hostLinkUp
  repeat' first
    | (with_reducible first | intro _ | apply queued_ite | apply condEnd_queued)
    | apply_assumption

theorem hostPortReset_queued (k : HostReset) (h0 : Queued qp s) : Queued qp (hostPortReset s k) := by
  unfold hostPortReset
  repeat' first
    | (with_reducible first | assumption | apply queued_of)
    | simp only [queued_mk]
    | with_reducible apply condStart_queued
    | split

end Sys2Proof.Machine
end

section
/-! SUPPORT. What the operations of engines, faces, foremen, life states and resets keep of the queue (`Queued`). -/

namespace Sys2Proof.Machine

set_option linter.unusedSimpArgs false

variable {qp : List Instr} {s : State}

theorem taskMemberDone_queued (q : Nat) (seq : Nat) (l : Nat) (st : Byte) (assay : W64) (h0 : Queued qp s) :
    Queued qp (taskMemberDone s q seq l st assay) := by
  unfold taskMemberDone
  try dsimp only
  repeat' first
    | (with_reducible first | assumption | apply putStepOp_queued | apply stepOpDone_queued)
    | split

theorem modTask_queued (f : Nat) (g : FaceTask → FaceTask) (h0 : Queued qp s) : Queued qp (modTask s f g) := h0

theorem taskFail_queued (f : Nat) (uid : Nat) (st : Byte) (tag : W16) (h0 : Queued qp s) : Queued qp (taskFail s f uid st tag) := by
  unfold taskFail
  repeat' with_reducible first | assumption | intro _ | apply queued_ite | apply modTask_queued | apply faceWake_queued
                               | apply withdrawTarget_queued

theorem dropTask_queued (r : TaskReq) (h0 : Queued qp s) : Queued qp (dropTask s r) := h0

theorem refuseTask_queued (f : Nat) (r : TaskReq) (st : Byte) (tag : optParam (Option W16) none) (h0 : Queued qp s) :
    Queued qp (refuseTask s f r st tag) := by
  unfold refuseTask
  repeat' with_reducible first | assumption | apply taskMemberDone_queued | apply dropTask_queued | apply State.modFace_queued

theorem runTask_queued (f : Nat) (r : TaskReq) (load : Nat) (h0 : Queued qp s) : Queued qp (runTask s f r load) := by
  unfold runTask
  repeat' first
    | (with_reducible first | assumption | apply refuseTask_queued | apply logRefused_queued | apply dropTask_queued
                            | apply State.modFace_queued)
    | split

theorem taskStart_queued (f : Nat) (h0 : Queued qp s) : Queued qp (taskStart s f) := by
  unfold taskStart
  try dsimp only
  repeat' first
    | (with_reducible first | assumption | apply refuseTask_queued | apply cleanOnly_queued | apply fetchRange_queued
                            | apply innerDrop_queued | apply runTask_queued | apply State.modFace_queued)
    | split
    | (with_reducible first | refine chk_ok_queued ?_ (by assumption) | refine chk_wait_queued ?_ (by assumption)
                            | refine chk_fail_queued ?_ (by assumption))

theorem seqEnter_queued (f : Nat) (x1 : Nat) {x2 : State} (h2 : Queued qp x2) : Queued qp (seqEnter f x1 x2) := by
  revert h2
  fun_induction seqEnter f x1 x2
  all_goals intro h2
  repeat' first
    | (with_reducible first | apply taskFail_queued | apply modTask_queued | refine newReq_queued ?_ (by assumption))
    | apply_assumption

theorem entered_queued (f : Nat) (h0 : Queued qp s) : Queued qp (entered s f) := by
  unfold entered
  repeat' with_reducible first | assumption | apply seqEnter_queued

theorem controlFail_queued (f : Nat) (d : BitVec 256) (st : Byte) (h0 : Queued qp s) : Queued qp (controlFail s f d st) := by
  unfold controlFail
  repeat' first
    | (with_reducible first | assumption | apply queued_of)
    | simp only [queued_mk]
    | with_reducible apply taskFail_queued

theorem goTo_queued (f : Nat) (pc : Nat) (cycles : optParam Nat 1) (h0 : Queued qp s) : Queued qp (goTo s f pc cycles) := h0

theorem setx_queued {s0 : State} (f : Nat) (h0 : Queued qp s0) : Queued qp (setx s0 f) := by
  unfold setx
  try dsimp only
  repeat' first
    | (with_reducible first | assumption | apply entered_queued | apply goTo_queued | apply State.setFace_queued | apply controlFail_queued)
    | split

theorem setvl_queued {s0 : State} (f : Nat) (h0 : Queued qp s0) : Queued qp (setvl s0 f) := by
  unfold setvl
  try dsimp only
  repeat' first
    | (with_reducible first | assumption | apply entered_queued | apply controlFail_queued | apply goTo_queued | apply State.modFace_queued)
    | split

theorem loopOpen_queued {s0 : State} (f : Nat) (h0 : Queued qp s0) : Queued qp (loopOpen s0 f) := by
  unfold loopOpen
  try dsimp only
  repeat' first
    | (with_reducible first | assumption | apply entered_queued | apply controlFail_queued | apply goTo_queued | apply modTask_queued
                            | apply State.setFace_queued)
    | split

theorem endl_queued {s0 : State} (f : Nat) (h0 : Queued qp s0) : Queued qp (endl s0 f) := by
  unfold endl
  try dsimp only
  repeat' first
    | (with_reducible first | assumption | apply entered_queued | apply goTo_queued | apply modTask_queued | apply State.setFace_queued)
    | split

theorem brCond_queued (c : Face) (t : FaceTask) (l : Nat) (d : BitVec 256) (h0 : Queued qp s) : Queued qp (brCond s c t l d).1 := by
  unfold brCond
  try dsimp only
  repeat' first
    | (with_reducible first | assumption | apply tallyRangeFault_queued)
    | split

theorem branch_queued {s0 : State} (f : Nat) (h0 : Queued qp s0) : Queued qp (branch s0 f) := by
  unfold branch
  try dsimp only
  repeat' first
    | (with_reducible first | assumption | apply entered_queued | apply brCond_queued | apply withTag_queued | apply controlFail_queued
                            | apply goTo_queued)
    | split
    | with_reducible refine queued_fst ?_ (by assumption)

theorem waitt_queued {s0 : State} (f : Nat) (h0 : Queued qp s0) : Queued qp (waitt s0 f) := by
  unfold waitt
  try dsimp only
  repeat' first
    | (with_reducible first | assumption | apply entered_queued | apply controlFail_queued | apply innerWatch_queued
                            | apply withTag_queued | apply goTo_queued | apply modTask_queued)
    | split
    | with_reducible refine queued_fst ?_ (by assumption)

theorem waittTimeout_queued (f : Nat) (h0 : Queued qp s) : Queued qp (waittTimeout s f) := by
  unfold waittTimeout
  try dsimp only
  repeat' first
    | (with_reducible first | assumption | apply controlFail_queued | apply faceWake_queued | apply withdrawTarget_queued)
    | split

theorem seqTally_queued {s0 : State} (f : Nat) (h0 : Queued qp s0) : Queued qp (seqTally s0 f) := by
  unfold seqTally
  try dsimp only
  repeat' first
    | (with_reducible first | assumption | apply entered_queued | apply controlFail_queued | apply tallyOp_queued
                            | apply withTag_queued | apply goTo_queued)
    | split

theorem seqFence_queued {s0 : State} (f : Nat) (h0 : Queued qp s0) : Queued qp (seqFence s0 f) := by
  unfold seqFence
  try dsimp only
  repeat' first
    | (with_reducible first | assumption | apply entered_queued | apply goTo_queued)
    | split

theorem faceEnd_queued {s0 : State} (f : Nat) (h0 : Queued qp s0) : Queued qp (faceEnd s0 f) := by
  unfold faceEnd
  try dsimp only
  repeat' first
    | (with_reducible first | assumption | apply entered_queued | apply modTask_queued)
    | split

theorem taskCompletion_queued {s0 : State} (f : Nat) (h0 : Queued qp s0) : Queued qp (taskCompletion s0 f) := by
  unfold taskCompletion
  try dsimp only
  repeat' first
    | (with_reducible first | assumption | apply entered_queued | apply taskMemberDone_queued | apply State.setFace_queued)
    | split

theorem putEngOp_queued (f : Nat) (o : EngOp) (h0 : Queued qp s) : Queued qp (putEngOp s f o) := h0

theorem engineDone_queued {s00 : State} (f : Nat) (i : Nat) (h0 : Queued qp s00) : Queued qp (engineDone s00 f i) := by
  unfold engineDone
  try dsimp only
  repeat' first
    | (with_reducible first | assumption | apply entered_queued | apply State.modFace_queued | apply modTask_queued | apply taskFail_queued)
    | split

theorem sramWriteBack_queued (f : Nat) (h0 : Queued qp s) : Queued qp (sramWriteBack s f) := by
  unfold sramWriteBack
  repeat' first
    | (with_reducible first | assumption | apply queued_of)
    | simp only [queued_mk]
    | with_reducible apply State.modFace_queued
    | split

theorem readSpan_queued (f : Nat) (ctx : BitVec 6) (r : Span) (h0 : Queued qp s) : Queued qp (readSpan s f ctx r).1 := by
  unfold readSpan
  repeat' with_reducible first | assumption | intro _ | apply queued_foldl2 | apply sramRead_queued

theorem engWrite_queued (f : Nat) (ctx : BitVec 6) (o : Nat) (bs : List Byte) (h0 : Queued qp s) :
    Queued qp (engWrite s f ctx o bs).1 := by
  unfold engWrite
  repeat' with_reducible first | assumption | apply sramWrite_queued

theorem engEnd_queued (f : Nat) (o : EngOp) (st : Byte) (fl : List Flags) (h0 : Queued qp s) : Queued qp (engEnd s f o st fl) := h0

theorem mxBusyFor_queued (f : Nat) (n : Nat) (h0 : Queued qp s) : Queued qp (mxBusyFor s f n) := h0

theorem vxBusyFor_queued (f : Nat) (n : Nat) (h0 : Queued qp s) : Queued qp (vxBusyFor s f n) := h0

theorem mxEnd_queued {before : State} {s : State} (f : Nat) (o : EngOp) (st : Byte) (fl : List Flags) (h1 : Queued qp s) :
    Queued qp (mxEnd before s f o st fl) := by
  unfold mxEnd
  repeat' with_reducible first | assumption | apply engEnd_queued | apply mxBusyFor_queued | apply withTag_queued

theorem vxEnd_queued {before : State} {s : State} (f : Nat) (o : EngOp) (st : Byte) (fl : List Flags) (h1 : Queued qp s) :
    Queued qp (vxEnd before s f o st fl) := by
  unfold vxEnd
  repeat' with_reducible first | assumption | apply engEnd_queued | apply vxBusyFor_queued | apply withTag_queued

theorem mma_queued (f : Nat) (i : Nat) (h0 : Queued qp s) : Queued qp (mma s f i) := by
  unfold mma
  repeat' first
    | (with_reducible first | assumption | apply readSpan_queued | apply State.modFace_queued | apply mxEnd_queued)
    | split

theorem mxvRows_queued (f : Nat) (ctx : BitVec 6) (o : EngOp) (rows : Nat) (h0 : Queued qp s) :
    Queued qp (mxvRows s f ctx o rows).1 := by
  unfold mxvRows
  repeat' with_reducible first | assumption | intro _ | apply queued_foldl2 | apply queued_ite2 | apply readSpan_queued
                               | apply State.modFace_queued | apply engWrite_queued

theorem mxv_queued (f : Nat) (i : Nat) (h0 : Queued qp s) : Queued qp (mxv s f i) := by
  unfold mxv
  repeat' first
    | (with_reducible first | assumption | apply mxvRows_queued | apply mxEnd_queued)
    | split

theorem mstoreRow_queued (f : Nat) (ctx : BitVec 6) (o : EngOp) (g : FaceFmt) {a : State × Byte × List Flags}
    (r : Nat) (h4 : Queued qp a.1) :
    Queued qp (mstoreRow f ctx o g a r).1 := by
  unfold mstoreRow
  repeat' with_reducible first | assumption | apply engWrite_queued | apply State.setFace_queued

theorem mstore_queued (f : Nat) (i : Nat) (h0 : Queued qp s) : Queued qp (mstore s f i) := by
  unfold mstore
  repeat' first
    | (with_reducible first | assumption | apply queued_foldl2 | apply mstoreRow_queued | apply mxEnd_queued)
    | split

theorem readBeat_queued (f : Nat) (ctx : BitVec 6) (o : EngOp) (x : ChainStream) (j : Nat) (h0 : Queued qp s) :
    Queued qp (readBeat s f ctx o x j).1 := by
  unfold readBeat
  repeat' first
    | (with_reducible first | assumption | apply readSpan_queued)
    | split

theorem packedIn_queued (f : Nat) (ctx : BitVec 6) (o : EngOp) (x : ChainStream) (g : FaceFmt)
    (used : Nat) (n : Nat) (h0 : Queued qp s) :
    Queued qp (packedIn s f ctx o x g used n).1 := by
  unfold packedIn
  repeat' first
    | (with_reducible first | assumption | apply readSpan_queued)
    | split

theorem readExpand_queued (f : Nat) (ctx : BitVec 6) (o : EngOp) (used : Nat) (h0 : Queued qp s) :
    Queued qp (readExpand s f ctx o used).1 := by
  unfold readExpand
  try dsimp only
  repeat' first
    | (with_reducible first | assumption | apply packedIn_queued)
    | split

theorem writeBeat_queued (f : Nat) (ctx : BitVec 6) (o : EngOp) (x : ChainStream) (j : Nat)
    (codes : List Nat) (scales : List Byte) (h0 : Queued qp s) :
    Queued qp (writeBeat s f ctx o x j codes scales).1 := by
  unfold writeBeat
  repeat' first
    | (with_reducible first | assumption | intro _ | apply queued_foldl2 | apply State.modFace_queued | apply engWrite_queued)
    | split

theorem packElem_queued (f : Nat) (ctx : BitVec 6) (o : EngOp) (code : Nat) (r : ChainRun) (h0 : Queued qp s) :
    Queued qp (packElem s f ctx o code r).1 := by
  unfold packElem
  try dsimp only
  repeat' first
    | (with_reducible first | assumption | apply State.modFace_queued | apply engWrite_queued)
    | split

theorem compressBeat_queued (f : Nat) (ctx : BitVec 6) (o : EngOp) (codes : List Nat) (r : ChainRun) (h0 : Queued qp s) :
    Queued qp (compressBeat s f ctx o codes r).1 := by
  unfold compressBeat
  repeat' with_reducible first | assumption | intro _ | apply queued_foldl2 | apply queued_ite2 | apply packElem_queued

theorem freeScales_queued (x0 : Nat) {x1 : State} (h1 : Queued qp x1) : Queued qp (freeScales x0 x1).1 := by
  revert h1
  fun_induction freeScales x0 x1
  all_goals intro h1
  repeat' first
    | (with_reducible first | refine queued_fst ?_ (by assumption) | refine newFree_queued ?_ (by assumption))
    | apply_assumption

theorem compressEnd_queued (f : Nat) (ctx : BitVec 6) (o : EngOp) (r : ChainRun) (h0 : Queued qp s) :
    Queued qp (compressEnd s f ctx o r).1 := by
  unfold compressEnd
  try dsimp only
  repeat' first
    | (with_reducible first | assumption | intro _ | apply queued_foldl2 | apply freeScales_queued | apply engWrite_queued)
    | split

theorem sinkBeat_queued (f : Nat) (ctx : BitVec 6) (o : EngOp) (j : Nat) (b : Beat) (r : ChainRun) (h0 : Queued qp s) :
    Queued qp (sinkBeat s f ctx o j b r).1 := by
  unfold sinkBeat
  try dsimp only
  repeat' first
    | (with_reducible first | assumption | apply State.setFace_queued | apply writeBeat_queued | apply compressBeat_queued)
    | split

theorem readInputs_queued (f : Nat) (ctx : BitVec 6) (o : EngOp) (j : Nat) {a : State × ChainRun} (h4 : Queued qp a.1) :
    Queued qp (readInputs f ctx o j a).1 := by
  unfold readInputs
  repeat' with_reducible first | assumption | intro _ | apply queued_foldl2 | apply queued_ite2 | apply readExpand_queued
                               | apply readBeat_queued

theorem chainBeat_queued (f : Nat) (ctx : BitVec 6) (o : EngOp) {a : State × ChainRun} (j : Nat) (h3 : Queued qp a.1) :
    Queued qp (chainBeat f ctx o a j).1 := by
  unfold chainBeat
  try dsimp only
  repeat' first
    | (with_reducible first | assumption | apply readSpan_queued | apply State.modFace_queued | apply readInputs_queued
                            | apply sinkBeat_queued | apply engWrite_queued)
    | split

theorem vchainBeats_queued (f : Nat) (ctx : BitVec 6) (o : EngOp) (n : Nat) (h0 : Queued qp s) :
    Queued qp (vchainBeats s f ctx o n).1 := by
  unfold vchainBeats
  repeat' with_reducible first | assumption | intro _ | apply queued_foldl2 | apply queued_ite2 | apply chainBeat_queued
                               | apply compressEnd_queued

theorem vchain_queued (f : Nat) (i : Nat) (h0 : Queued qp s) : Queued qp (vchain s f i) := by
  unfold vchain
  repeat' first
    | (with_reducible first | assumption | apply vchainBeats_queued | apply vxEnd_queued)
    | split

theorem vhred_queued (f : Nat) (i : Nat) (h0 : Queued qp s) : Queued qp (vhred s f i) := by
  unfold vhred
  repeat' first
    | (with_reducible first | assumption | apply vxEnd_queued | apply State.setFace_queued)
    | split

theorem planesumOuts_queued (f : Nat) (ctx : BitVec 6) (o : EngOp) (n : Nat) (h0 : Queued qp s) :
    Queued qp (planesumOuts s f ctx o n).1 := by
  unfold planesumOuts
  repeat' with_reducible first | assumption | apply readSpan_queued | apply engWrite_queued

theorem planesum_queued (f : Nat) (i : Nat) (h0 : Queued qp s) : Queued qp (planesum s f i) := by
  unfold planesum
  repeat' first
    | (with_reducible first | assumption | apply planesumOuts_queued | apply vxEnd_queued)
    | split

theorem engStopped_queued (f : Nat) (ctx : BitVec 6) (o : EngOp) (start : Nat) (h0 : Queued qp s) :
    Queued qp (engStopped s f ctx o start) := by
  unfold engStopped
  try dsimp only
  repeat' first
    | (with_reducible first | assumption | apply queued_foldl2 | apply vchainBeats_queued | apply mxvRows_queued
                            | apply mstoreRow_queued | apply planesumOuts_queued | apply withTag_queued | apply mxBusyFor_queued
                            | apply vxBusyFor_queued)
    | split

theorem modStep_queued (q : Nat) (f : StepRun → StepRun) (h0 : Queued qp s) : Queued qp (modStep s q f) := h0

theorem setHead_queued (q : Nat) (h : Nat) (h0 : Queued qp s) : Queued qp (setHead s q h) := by
  unfold setHead
  repeat' first
    | (with_reducible first | assumption | apply queued_of)
    | simp only [queued_mk]
    | (with_reducible first | apply modStep_queued | apply innerWatch_queued | apply withTag_queued | apply stepWait_queued
                            | apply stepStop_queued)
    | split
    | with_reducible refine queued_fst ?_ (by assumption)

theorem stepDrop_queued (q : Nat) (h0 : Queued qp s) : Queued qp (stepDrop s q) := h0

theorem loadStep_queued (q : Nat) (h0 : Queued qp s) : Queued qp (loadStep s q) := by
  unfold loadStep
  try dsimp only
  repeat' first
    | (with_reducible first | assumption | apply cleanOnly_queued | apply fetchRange_queued | apply stepStop_queued
                            | apply stepDrop_queued | apply setHead_queued | apply modStep_queued)
    | split
    | (with_reducible first | refine chk_ok_queued ?_ (by assumption) | refine chk_wait_queued ?_ (by assumption)
                            | refine chk_fail_queued ?_ (by assumption))

theorem startStep_queued (q : Nat) (h0 : Queued qp s) : Queued qp (startStep s q) := by
  unfold startStep
  repeat' first
    | (with_reducible first | assumption | apply queued_of)
    | simp only [queued_mk]
    | (with_reducible first | apply State.setQueue_queued | apply loadStep_queued)
    | split

theorem startSteps_queued (boundary : Bool) (x1 : Nat) {x2 : State} (h2 : Queued qp x2) :
    Queued qp (startSteps boundary x1 x2) := by
  revert h2
  fun_induction startSteps boundary x1 x2
  all_goals intro h2
  repeat' first
    | with_reducible apply startStep_queued
    | apply_assumption

theorem stepStart_queued (h0 : Queued qp s) : Queued qp (stepStart s) := by
  unfold stepStart
  repeat' with_reducible first | assumption | apply queued_foldl | apply startSteps_queued | apply loadStep_queued

theorem headSettle_queued (q : Nat) (h0 : Queued qp s) : Queued qp (headSettle s q) := by
  unfold headSettle
  repeat' first
    | (with_reducible first | assumption | apply stepStop_queued)
    | split

theorem opSignal_queued (x : StepRun) (d : BitVec 512) (st : Byte) (h0 : Queued qp s) : Queued qp (opSignal s x d st).1 := by
  unfold opSignal
  repeat' first
    | (with_reducible first | assumption | apply tallyOp_queued | apply withTag_queued)
    | split

theorem headDone_queued (q : Nat) (x : StepRun) (d : BitVec 512) (st : Byte) (next : Nat) (h0 : Queued qp s) :
    Queued qp (headDone s q x d st next) := by
  unfold headDone
  repeat' with_reducible first | assumption | intro _ | apply queued_ite | apply opSignal_queued | apply modStep_queued
                               | apply setHead_queued | apply stepStop_queued

theorem setn_queued {s0 : State} (q : Nat) (h0 : Queued qp s0) : Queued qp (setn s0 q) := by
  unfold setn
  try dsimp only
  repeat' first
    | (with_reducible first | assumption | apply headSettle_queued | apply headDone_queued | apply modStep_queued)
    | split

theorem jump_queued {s0 : State} (q : Nat) (h0 : Queued qp s0) : Queued qp (jump s0 q) := by
  unfold jump
  try dsimp only
  repeat' first
    | (with_reducible first | assumption | apply headSettle_queued | apply headDone_queued | apply modStep_queued
                            | apply withTag_queued | apply tallyRangeFault_queued)
    | split

theorem signalOp_queued {s0 : State} (q : Nat) (h0 : Queued qp s0) : Queued qp (signalOp s0 q) := by
  unfold signalOp
  try dsimp only
  repeat' first
    | (with_reducible first | assumption | apply headSettle_queued | apply tallyOp_queued | apply headDone_queued | apply withTag_queued)
    | split

theorem waitw_queued {s0 : State} (q : Nat) (h0 : Queued qp s0) : Queued qp (waitw s0 q) := by
  unfold waitw
  try dsimp only
  repeat' first
    | (with_reducible first | assumption | apply headSettle_queued | apply headDone_queued)
    | split

theorem readTokens_queued (q : Nat) (x : StepRun) (va : Nat) (h0 : Queued qp s) : Queued qp (readTokens s q x va).st := by
  unfold readTokens
  repeat' first
    | with_reducible assumption
    | simp only [st_ok, st_cwait, st_cfail, queuedD_serve, queuedD_drop, queuedD_wait, queuedD_refuse, queuedW_mk, id_eq]
    | (with_reducible first | apply cleanOnly_queued | apply fetchRange_queued | apply stepDrop_queued)
    | split
    | (with_reducible first | refine chk_ok_queued ?_ (by assumption) | refine chk_wait_queued ?_ (by assumption)
                            | refine chk_fail_queued ?_ (by assumption))

theorem emitOp_queued {s0 : State} (q : Nat) (h0 : Queued qp s0) : Queued qp (emitOp s0 q) := by
  unfold emitOp
  try dsimp only
  repeat' first
    | (with_reducible first | assumption | apply headSettle_queued | apply readTokens_queued | apply headDone_queued
                            | apply putRecord_queued | apply withTag_queued)
    | split
    | (with_reducible first | refine chk_ok_queued ?_ (by assumption) | refine chk_wait_queued ?_ (by assumption)
                            | refine chk_fail_queued ?_ (by assumption))

theorem stepEnd_queued {s0 : State} (q : Nat) (h0 : Queued qp s0) : Queued qp (stepEnd s0 q) := by
  unfold stepEnd
  try dsimp only
  repeat' first
    | (with_reducible first | assumption | apply headSettle_queued | apply readTokens_queued | apply opSignal_queued
                            | apply withTag_queued | apply modStep_queued | apply stepStop_queued)
    | split
    | (with_reducible first | refine chk_ok_queued ?_ (by assumption) | refine chk_wait_queued ?_ (by assumption)
                            | refine chk_fail_queued ?_ (by assumption))

theorem maskBegin_queued (q : Nat) (x : StepRun) (o : StepOp) (d : BitVec 512) (h0 : Queued qp s) :
    Queued qp (maskBegin s q x o d) := by
  unfold maskBegin
  repeat' first
    | (with_reducible first | assumption | apply maskRead_queued | apply stepOpDone_queued | apply opDrop_queued)
    | split
    | (with_reducible first | refine chk_ok_queued ?_ (by assumption) | refine chk_wait_queued ?_ (by assumption)
                            | refine chk_fail_queued ?_ (by assumption))

theorem dispatchHead_queued (q : Nat) (h0 : Queued qp s) : Queued qp (dispatchHead s q) := by
  unfold dispatchHead
  repeat' first
    | (with_reducible first | apply setHead_queued | apply maskBegin_queued)
    | split
    | apply_assumption

theorem headsSettled_queued (h0 : Queued qp s) : Queued qp (headsSettled s) := by
  unfold headsSettled
  repeat' with_reducible first | assumption | apply queued_foldl | apply headSettle_queued

theorem dispatchNext_queued (h0 : Queued qp s) : Queued qp (dispatchNext s) := by
  unfold dispatchNext
  repeat' first
    | (with_reducible first | assumption | apply dispatchHead_queued)
    | split

theorem operationDispatch_queued {s0 : State} (h0 : Queued qp s0) : Queued qp (operationDispatch s0) := by
  unfold operationDispatch
  repeat' with_reducible first | assumption | apply dispatchNext_queued | apply headsSettled_queued

theorem waitLimitExpiry_queued {s0 : State} (q : Nat) (h0 : Queued qp s0) : Queued qp (waitLimitExpiry s0 q) := by
  unfold waitLimitExpiry
  try dsimp only
  repeat' first
    | (with_reducible first | assumption | apply headSettle_queued | apply stepStop_queued)
    | split

theorem giveTask_queued (q : Nat) (x : StepRun) (o : StepOp) (d : BitVec 512) (args : List W32) (l : Nat) (h0 : Queued qp s) :
    Queued qp (giveTask s q x o d args l) := by
  unfold giveTask
  repeat' with_reducible first | assumption | apply State.setCluster_queued | apply wakeDomain_queued

theorem bindTask_queued (q : Nat) (x : StepRun) (o : StepOp) (d : BitVec 512) (ls : List Nat) (h0 : Queued qp s) :
    Queued qp (bindTask s q x o d ls) := by
  unfold bindTask
  repeat' with_reducible first | assumption | intro _ | apply queued_foldl | apply putStepOp_queued | apply giveTask_queued

theorem taskOp_queued (q : Nat) (h0 : Queued qp s) : Queued qp (taskOp s q) := by
  unfold taskOp
  try dsimp only
  repeat' first
    | (with_reducible first | assumption | apply stepOpDone_queued | apply bindTask_queued | apply State.setCluster_queued)
    | split

theorem operationCompletion_queued (q : Nat) (h0 : Queued qp s) : Queued qp (operationCompletion s q) := by
  unfold operationCompletion
  try dsimp only
  repeat' first
    | (with_reducible first | assumption | apply opSignal_queued | apply modStep_queued | apply stepStop_queued)
    | split

theorem stepCompletion_queued (q : Nat) (h0 : Queued qp s) : Queued qp (stepCompletion s q) := by
  unfold stepCompletion
  repeat' first
    | (with_reducible first | assumption | apply queued_of)
    | simp only [queued_mk]
    | (with_reducible first | apply stepDrop_queued | apply State.setQueue_queued | apply putRecord_queued)
    | split

theorem abortAll_queued (h0 : Queued qp s) : Queued qp (abortAll s) := by
  unfold abortAll
  repeat' with_reducible first | assumption | apply queued_foldl | apply queueAbort_queued

theorem logLife_queued (old : Byte) (new : Byte) (kind : Nat) (h0 : Queued qp s) : Queued qp (logLife s old new kind) := by
  unfold logLife
  repeat' with_reducible first | assumption | apply logPut_queued

theorem lifeTo_queued (new : Byte) (kind : optParam Nat 0) (h0 : Queued qp s) : Queued qp (lifeTo s new kind) := by
  unfold lifeTo
  repeat' first
    | (with_reducible first | assumption | intro _ | apply queued_ite | apply queued_of)
    | simp only [queued_mk]
    | (with_reducible first | apply logLife_queued | apply msgAll_queued | apply abortAll_queued)

theorem lifeFollow_queued (h0 : Queued qp s) : Queued qp (lifeFollow s) := by
  unfold lifeFollow
  repeat' with_reducible first | assumption | intro _ | apply queued_ite | apply lifeTo_queued

theorem lifeFatal_queued (h0 : Queued qp s) : Queued qp (lifeFatal s) := by
  unfold lifeFatal
  repeat' with_reducible first | assumption | intro _ | apply queued_ite | apply lifeTo_queued

theorem stateReq_queued (v : Nat) (h0 : Queued qp s) : Queued qp (stateReq s v).1 := by
  unfold stateReq
  try dsimp only
  repeat' first
    | (with_reducible first | assumption | apply lifeTo_queued)
    | split

theorem enginesStop_queued (f : Nat) (t : FaceTask) (h0 : Queued qp s) : Queued qp (enginesStop s f t) := by
  unfold enginesStop
  repeat' first
    | (with_reducible first | assumption | intro _ | apply queued_foldl | apply engStopped_queued)
    | split

theorem hoistsStop_queued (p : Nat → Bool) (h0 : Queued qp s) : Queued qp (hoistsStop s p) := h0

theorem faceStop_queued (f : Nat) (st : Byte) (h0 : Queued qp s) : Queued qp (faceStop s f st) := by
  unfold faceStop
  repeat' first
    | (with_reducible first | assumption | apply queued_of)
    | simp only [queued_mk]
    | (with_reducible first | apply wakeDomain_queued | apply enginesStop_queued | apply taskMemberDone_queued
                            | apply State.setFace_queued | apply withdrawTarget_queued | apply State.modFace_queued
                            | apply faceWake_queued | apply innerDrop_queued | apply hoistsStop_queued)
    | split

theorem faceResetBegin_queued (f : Nat) (h0 : Queued qp s) : Queued qp (faceResetBegin s f) := by
  unfold faceResetBegin
  repeat' with_reducible first | assumption | apply State.modFace_queued | apply faceStop_queued | apply logLife_queued

theorem faceResetDone_queued (f : Nat) (h0 : Queued qp s) : Queued qp (faceResetDone s f) := by
  unfold faceResetDone
  repeat' with_reducible first | assumption | intro _ | apply queued_ite | apply State.modFace_queued

theorem computeStop_queued (h0 : Queued qp s) : Queued qp (computeStop s) := by
  unfold computeStop
  repeat' first
    | (with_reducible first | assumption | intro _ | apply queued_foldl | apply queued_of)
    | simp only [queued_mk]
    | (with_reducible first | apply innerDrop_queued | apply hoistsStop_queued | apply faceStop_queued | apply withdraw_queued
                            | apply faceResetDone_queued)

theorem computeBegin_queued (h0 : Queued qp s) : Queued qp (computeBegin s) := by
  unfold computeBegin
  repeat' first
    | (with_reducible first | assumption | apply queued_of)
    | simp only [queued_mk]
    | (with_reducible first | apply computeStop_queued | apply logLife_queued)

theorem computeResetDone_queued (h0 : Queued qp s) : Queued qp (computeResetDone s) := by
  unfold computeResetDone
  repeat' first
    | (with_reducible first | assumption | intro _ | apply queued_ite | apply queued_of)
    | simp only [queued_mk]

theorem warmBegin_queued (h0 : Queued qp s) : Queued qp (warmBegin s) := by
  unfold warmBegin
  repeat' first
    | (with_reducible first | assumption | apply queued_of)
    | simp only [queued_mk]
    | (with_reducible first | apply computeStop_queued | apply lifeTo_queued)

theorem xferTimeout_queued (x : Xfer) (h0 : Queued qp s) : Queued qp (xferTimeout s x) := by
  unfold xferTimeout
  repeat' first
    | (with_reducible first | assumption | apply queued_of)
    | simp only [queued_mk]
    | with_reducible apply xferDone_queued

theorem drainTimeouts_queued (h0 : Queued qp s) : Queued qp (drainTimeouts s) := by
  unfold drainTimeouts
  repeat' with_reducible first | assumption | intro _ | apply queued_foldl | apply endForwards_queued | apply dropHolds_queued
                               | apply xferTimeout_queued

theorem warmCleared_queued (h0 : Queued qp s) : Queued qp (warmCleared s) := h0

theorem warmResetDrainEnd_queued (h0 : Queued qp s) : Queued qp (warmResetDrainEnd s) := by
  unfold warmResetDrainEnd
  repeat' first
    | (with_reducible first | assumption | apply warmCleared_queued | apply drainTimeouts_queued)
    | split

theorem coldCleared_queued (h0 : Queued qp s) : Queued qp (coldCleared s) := h0

theorem coldBegin_queued (h0 : Queued qp s) : Queued qp (coldBegin s) := by
  unfold coldBegin
  repeat' with_reducible first | assumption | apply coldCleared_queued

theorem bootUp_queued (h0 : Queued qp s) : Queued qp (bootUp s) := h0

theorem coldResetOffEnd_queued (h0 : Queued qp s) : Queued qp (coldResetOffEnd s) := by
  unfold coldResetOffEnd
  repeat' first
    | (with_reducible first | assumption | apply queued_of)
    | simp only [queued_mk]
    | (with_reducible first | apply bootUp_queued | apply logLife_queued)
    | split

theorem resetBegin_queued (v : Nat) (h0 : Queued qp s) : Queued qp (resetBegin s v) := by
  unfold resetBegin
  repeat' with_reducible first | assumption | intro _ | apply queued_ite | apply computeBegin_queued | apply warmBegin_queued
                               | apply coldBegin_queued

theorem powerOff_queued (h0 : Queued qp s) : Queued qp (powerOff s) := by
  unfold powerOff
  repeat' first
    | (with_reducible first | assumption | apply queued_of)
    | simp only [queued_mk]
    | with_reducible apply coldCleared_queued

theorem d00Start_queued (node : BitVec 6) (h0 : Queued qp s) : Queued qp (d00Start s node) := by
  unfold d00Start
  repeat' first
    | (with_reducible first | assumption | intro _ | apply queued_ite | apply queued_of)
    | simp only [queued_mk]
    | (with_reducible first | apply bootUp_queued | apply logLife_queued)

end Sys2Proof.Machine
end

section
/-! SUPPORT. What the operations of service, windows, trust and bring-up keep of the queue (`Queued`). -/

namespace Sys2Proof.Machine

set_option linter.unusedSimpArgs false

variable {qp : List Instr} {s : State}

theorem recount_queued (h0 : Queued qp s) : Queued qp (recount s) := h0

theorem recountNext_queued (h0 : Queued qp s) : Queued qp (recountNext s) := h0

theorem recountMany_queued (h0 : Queued qp s) : Queued qp (recountMany s) := h0

theorem faceFenceBegin_queued (f : Nat) (cause : Byte) (h0 : Queued qp s) : Queued qp (faceFenceBegin s f cause) := by
  unfold faceFenceBegin
  repeat' with_reducible first | assumption | intro _ | apply queued_ite | apply fenceJob_queued | apply State.modFace_queued
                               | apply faceStop_queued

theorem pickFenceBegin_queued (g : Nat) (cause : Byte) (h0 : Queued qp s) : Queued qp (pickFenceBegin s g cause) := by
  unfold pickFenceBegin
  repeat' with_reducible first | assumption | intro _ | apply queued_ite | apply fenceJob_queued | apply fencePickNow_queued

theorem rebindTask_queued (r : TaskReq) (l : Nat) (h0 : Queued qp s) : Queued qp (rebindTask s r l) := by
  unfold rebindTask
  try dsimp only
  repeat' first
    | (with_reducible first | assumption | apply State.setCluster_queued | apply putStepOp_queued)
    | split

theorem heldFenced_queued (r : TaskReq) (h0 : Queued qp s) : Queued qp (heldFenced s r) := by
  unfold heldFenced
  try dsimp only
  repeat' first
    | (with_reducible first | assumption | apply rebindTask_queued | apply taskMemberDone_queued | apply dropTask_queued)
    | split

theorem faceFencedNow_queued (f : Nat) (h0 : Queued qp s) : Queued qp (faceFencedNow s f) := by
  unfold faceFencedNow
  try dsimp only
  repeat' first
    | (with_reducible first | assumption | apply queued_foldl | apply State.modFace_queued | apply heldFenced_queued)
    | split

theorem logFence_queued (pick : Bool) (idx : Nat) (cause : Byte) (h0 : Queued qp s) : Queued qp (logFence s pick idx cause) := by
  unfold logFence
  repeat' with_reducible first | assumption | apply logRec_queued

theorem fenceReport_queued (pick : Bool) (idx : Nat) (cause : Byte) (h0 : Queued qp s) :
    Queued qp (fenceReport s pick idx cause) := by
  unfold fenceReport
  repeat' first
    | (with_reducible first | assumption | apply queued_of)
    | simp only [queued_mk]
    | (with_reducible first | apply raiseEmcy_queued | apply logFence_queued)

theorem fenceComplete_queued (h0 : Queued qp s) : Queued qp (fenceComplete s) := by
  unfold fenceComplete
  repeat' first
    | (with_reducible first | assumption | apply queued_of)
    | simp only [queued_mk]
    | (with_reducible first | apply faceFencedNow_queued | apply recountNext_queued | apply lifeFollow_queued | apply fenceReport_queued)
    | split

theorem colRetired_queued (g : Nat) (h0 : Queued qp s) : Queued qp (colRetired s g) := h0

theorem retireBegin_queued (g : Nat) (h0 : Queued qp s) : Queued qp (retireBegin s g) := by
  unfold retireBegin
  repeat' first
    | (with_reducible first | assumption | intro _ | apply queued_ite | apply queued_of)
    | simp only [queued_mk]
    | (with_reducible first | apply recountNext_queued | apply colRetired_queued | apply raiseEmcy_queued | apply logRec_queued)

theorem flogSel_queued (v : W32) (h0 : Queued qp s) : Queued qp (flogSel s v).1 := by
  unfold flogSel
  repeat' first
    | (with_reducible first | assumption | apply queued_of)
    | simp only [queued_mk]
    | split

theorem flogSavedSel_queued (v : W16) (h0 : Queued qp s) : Queued qp (flogSavedSel s v).1 := by
  unfold flogSavedSel
  repeat' first
    | (with_reducible first | assumption | apply queued_of)
    | simp only [queued_mk]
    | split

theorem flogClear_queued (v : Nat) (h0 : Queued qp s) : Queued qp (flogClear s v).1 := by
  unfold flogClear
  repeat' first
    | (with_reducible first | assumption | intro _ | apply queued_ite2 | apply queued_of)
    | simp only [queued_mk]

theorem overrunSteps_queued (h0 : Queued qp s) : Queued qp (overrunSteps s) := by
  unfold overrunSteps
  repeat' first
    | (with_reducible first | assumption | intro _ | apply queued_foldl | apply queued_of)
    | simp only [queued_mk]
    | with_reducible apply modStep_queued
    | split

theorem boundaryAt_queued (stamp : Nat) (h0 : Queued qp s) : Queued qp (boundaryAt s stamp) := by
  unfold boundaryAt
  repeat' first
    | (with_reducible first | assumption | apply queued_of)
    | simp only [queued_mk]
    | (with_reducible first | apply overrunSteps_queued | apply startSteps_queued)

theorem windowBoundary_queued (h0 : Queued qp s) : Queued qp (windowBoundary s) := by
  unfold windowBoundary
  repeat' with_reducible first | assumption | intro _ | apply queued_ite | apply boundaryAt_queued

theorem cadenceAligned_queued (h0 : Queued qp s) : Queued qp (cadenceAligned s) := by
  unfold cadenceAligned
  repeat' first
    | (with_reducible first | assumption | apply queued_of)
    | simp only [queued_mk]
    | with_reducible apply condEnd_queued

theorem cadenceFallback_queued (h0 : Queued qp s) : Queued qp (cadenceFallback s) := by
  unfold cadenceFallback
  repeat' first
    | (with_reducible first | assumption | apply queued_of)
    | simp only [queued_mk]
    | with_reducible apply condStart_queued

theorem cadenceEdge_queued (h0 : Queued qp s) : Queued qp (cadenceEdge s) := by
  unfold cadenceEdge
  repeat' first
    | (with_reducible first | assumption | intro _ | apply queued_ite | apply queued_of)
    | simp only [queued_mk]
    | (with_reducible first | apply boundaryAt_queued | apply cadenceAligned_queued)

theorem cadenceLevel_queued (rising : Bool) (h0 : Queued qp s) : Queued qp (cadenceLevel s rising) := by
  unfold cadenceLevel
  repeat' with_reducible first | assumption | intro _ | apply queued_ite | apply glitch_queued | apply State.setInput_queued
                               | apply cadenceEdge_queued

theorem cadenceMissed_queued (h0 : Queued qp s) : Queued qp (cadenceMissed s) := by
  unfold cadenceMissed
  repeat' first
    | (with_reducible first | assumption | intro _ | apply queued_ite | apply queued_of)
    | simp only [queued_mk]
    | (with_reducible first | apply cadenceFallback_queued | apply boundaryAt_queued)

theorem winLenWrite_queued (v : Nat) (h0 : Queued qp s) : Queued qp (winLenWrite s v).1 := by
  unfold winLenWrite
  repeat' first
    | (with_reducible first | assumption | intro _ | apply queued_ite2 | apply queued_of)
    | simp only [queued_mk]
    | with_reducible apply cadenceAligned_queued

theorem cadAlignWrite_queued (v : Nat) (h0 : Queued qp s) : Queued qp (cadAlignWrite s v).1 := by
  unfold cadAlignWrite
  repeat' first
    | (with_reducible first | assumption | intro _ | apply queued_ite | apply queued_ite2 | apply queued_of)
    | simp only [queued_mk]
    | with_reducible apply cadenceAligned_queued

theorem logTrust_queued (unit : Nat) (st : Byte) (order : Nat) (feat : Nat) (h0 : Queued qp s) :
    Queued qp (logTrust s unit st order feat) := by
  unfold logTrust
  repeat' with_reducible first | assumption | apply logRec_queued

theorem fwImageWrite_queued (off : Nat) (data : List Byte) (h0 : Queued qp s) : Queued qp (fwImageWrite s off data).1 := by
  unfold fwImageWrite
  repeat' first
    | (with_reducible first | assumption | apply queued_of)
    | simp only [queued_mk]
    | split

theorem fwCommand_queued (allowed : List Byte) (f : Trust → Trust) (h0 : Queued qp s) : Queued qp (fwCommand s allowed f).1 := by
  unfold fwCommand
  repeat' first
    | (with_reducible first | assumption | intro _ | apply queued_ite2 | apply queued_of)
    | simp only [queued_mk]

theorem fwVerify_queued (h0 : Queued qp s) : Queued qp (fwVerify s).1 := by
  unfold fwVerify
  repeat' with_reducible first | assumption | apply fwCommand_queued

theorem fwCommit_queued (h0 : Queued qp s) : Queued qp (fwCommit s).1 := by
  unfold fwCommit
  repeat' with_reducible first | assumption | apply fwCommand_queued

theorem fwActivate_queued (h0 : Queued qp s) : Queued qp (fwActivate s).1 := by
  unfold fwActivate
  repeat' first
    | (with_reducible first | assumption | intro _ | apply queued_ite2 | apply queued_of)
    | simp only [queued_mk]
    | with_reducible apply fwCommand_queued

theorem fwDiscard_queued (h0 : Queued qp s) : Queued qp (fwDiscard s).1 := by
  unfold fwDiscard
  repeat' with_reducible first | assumption | apply fwCommand_queued

theorem fwCmd_queued (v : Nat) (h0 : Queued qp s) : Queued qp (fwCmd s v).1 := by
  unfold fwCmd
  repeat' first
    | (with_reducible first | assumption | intro _ | apply queued_ite2 | apply queued_of)
    | simp only [queued_mk]
    | (with_reducible first | apply fwVerify_queued | apply fwCommit_queued | apply fwActivate_queued | apply fwDiscard_queued)

theorem fwRejected_queued (st : Byte) (order : Nat) (h0 : Queued qp s) : Queued qp (fwRejected s st order) := by
  unfold fwRejected
  repeat' first
    | (with_reducible first | assumption | apply queued_of)
    | simp only [queued_mk]
    | with_reducible apply logTrust_queued

theorem imageVerified_queued (h0 : Queued qp s) : Queued qp (imageVerified s) := by
  unfold imageVerified
  repeat' first
    | (with_reducible first | assumption | intro _ | apply queued_ite | apply queued_of)
    | simp only [queued_mk]
    | with_reducible apply fwRejected_queued

theorem flashWriteDone_queued (good : Bool) (h0 : Queued qp s) : Queued qp (flashWriteDone s good) := by
  unfold flashWriteDone
  repeat' first
    | (with_reducible first | assumption | intro _ | apply queued_ite | apply queued_of)
    | simp only [queued_mk]
    | with_reducible apply fwRejected_queued

theorem imageLoaded_queued (h0 : Queued qp s) : Queued qp (imageLoaded s) := by
  unfold imageLoaded
  repeat' first
    | (with_reducible first | assumption | apply queued_of)
    | simp only [queued_mk]
    | with_reducible apply condEnd_queued

theorem headframeRestartDone_queued (h0 : Queued qp s) : Queued qp (headframeRestartDone s) := by
  unfold headframeRestartDone
  repeat' first
    | (with_reducible first | assumption | intro _ | apply queued_ite | apply queued_of)
    | simp only [queued_mk]
    | with_reducible apply imageLoaded_queued

theorem licImageWrite_queued (off : Nat) (data : List Byte) (h0 : Queued qp s) : Queued qp (licImageWrite s off data).1 := by
  unfold licImageWrite
  repeat' first
    | (with_reducible first | assumption | apply queued_of)
    | simp only [queued_mk]
    | split

theorem licStore_queued (h0 : Queued qp s) : Queued qp (licStore s).1 := by
  unfold licStore
  repeat' first
    | (with_reducible first | assumption | apply queued_of)
    | simp only [queued_mk]
    | with_reducible apply logTrust_queued
    | split

theorem licEmpty_queued (k : Nat) (h0 : Queued qp s) : Queued qp (licEmpty s k).1 := by
  unfold licEmpty
  repeat' first
    | (with_reducible first | assumption | intro _ | apply queued_ite2 | apply queued_of)
    | simp only [queued_mk]

theorem licCmd_queued (v : Nat) (h0 : Queued qp s) : Queued qp (licCmd s v).1 := by
  unfold licCmd
  repeat' first
    | (with_reducible first | assumption | intro _ | apply queued_ite2 | apply queued_of)
    | simp only [queued_mk]
    | (with_reducible first | apply licStore_queued | apply licEmpty_queued)

theorem attNonceWrite_queued (off : Nat) (data : List Byte) (h0 : Queued qp s) : Queued qp (attNonceWrite s off data).1 := by
  unfold attNonceWrite
  repeat' first
    | (with_reducible first | assumption | apply queued_of)
    | simp only [queued_mk]
    | split

theorem attCmd_queued (v : Nat) (h0 : Queued qp s) : Queued qp (attCmd s v).1 := by
  unfold attCmd
  repeat' first
    | (with_reducible first | assumption | intro _ | apply queued_ite2 | apply queued_of)
    | simp only [queued_mk]

theorem signingDone_queued (h0 : Queued qp s) : Queued qp (signingDone s) := by
  unfold signingDone
  repeat' first
    | (with_reducible first | assumption | intro _ | apply queued_ite | apply queued_of)
    | simp only [queued_mk]

theorem warnIf_queued {t : State} (lost : Bool) (st : Byte) (detail : Nat) (h0 : Queued qp t) :
    Queued qp (warnIf t lost st detail).after := by
  unfold warnIf
  repeat' first
    | with_reducible assumption
    | split

theorem stepFatal_queued {t : State} (detail : Nat) (h0 : Queued qp t) : Queued qp (stepFatal t detail).after := by
  unfold stepFatal
  repeat' with_reducible assumption

theorem domainUp_queued (d : Nat) (h0 : Queued qp s) : Queued qp (domainUp s d) := h0

theorem domainsUp_queued (fail : Option (Fin 30)) (x2 : List Nat) (h0 : Queued qp s) : Queued qp (domainsUp s fail x2).after := by
  revert h0
  fun_induction domainsUp s fail x2
  all_goals intro h0
  repeat' apply_assumption

theorem buStep1_queued (e : BringupEnv) (h0 : Queued qp s) : Queued qp (buStep1 s e).after := by
  unfold buStep1
  repeat' first
    | (with_reducible first | assumption | intro _ | apply queued_iteU | apply queued_of)
    | simp only [queued_mk]
    | with_reducible apply domainsUp_queued

theorem clearSram_queued (gone : Nat → Bool) (h0 : Queued qp s) : Queued qp (clearSram s gone) := h0

theorem step3Domains_queued (e : BringupEnv) (h0 : Queued qp s) : Queued qp (step3Domains s e).after := by
  unfold step3Domains
  repeat' first
    | (with_reducible first | assumption | apply queued_foldl | apply domainsUp_queued | apply domainUp_queued | apply stepFatal_queued
                            | apply State.setDomain_queued)
    | split

theorem buStep3_queued (e : BringupEnv) (h0 : Queued qp s) : Queued qp (buStep3 s e).after := by
  unfold buStep3
  repeat' first
    | (with_reducible first | assumption | intro _ | apply queued_iteU | apply queued_of)
    | simp only [queued_mk]
    | (with_reducible first | apply step3Domains_queued | apply clearSram_queued)

theorem applyRepairs_queued (h0 : Queued qp s) : Queued qp (applyRepairs s) := by
  unfold applyRepairs
  repeat' with_reducible first | assumption | intro _ | apply queued_foldl | apply State.modCol_queued

theorem bindFaces_queued (h0 : Queued qp s) : Queued qp (bindFaces s) := by
  unfold bindFaces
  repeat' with_reducible first | assumption | intro _ | apply queued_foldl | apply State.modFace_queued

theorem applyMarks_queued (h0 : Queued qp s) : Queued qp (applyMarks s) := by
  unfold applyMarks
  repeat' first
    | (with_reducible first | assumption | intro _ | apply queued_foldl | apply queued_of)
    | simp only [queued_mk]
    | with_reducible apply State.modCol_queued

theorem buStep2_queued (e : BringupEnv) (h0 : Queued qp s) : Queued qp (buStep2 s e).after := by
  unfold buStep2
  repeat' first
    | (with_reducible first | assumption | intro _ | apply queued_iteU | apply queued_of)
    | simp only [queued_mk]
    | (with_reducible first | apply recountMany_queued | apply applyMarks_queued | apply bindFaces_queued | apply applyRepairs_queued
                            | apply warnIf_queued)

theorem bringupFence_queued (pick : Bool) (idx : Nat) (cause : Byte) (h0 : Queued qp s) :
    Queued qp (bringupFence s pick idx cause) := by
  unfold bringupFence
  repeat' first
    | (with_reducible first | assumption | intro _ | apply queued_ite | apply queued_of)
    | simp only [queued_mk]
    | (with_reducible first | apply fencePickNow_queued | apply faceFencedNow_queued | apply fenceReport_queued | apply recountNext_queued)

theorem buStep4_queued (e : BringupEnv) (h0 : Queued qp s) : Queued qp (buStep4 s e).after := by
  unfold buStep4
  repeat' with_reducible first | assumption | intro _ | apply queued_foldl | apply queued_iteU | apply State.modStack_queued
                               | apply stepFatal_queued | apply retireBegin_queued | apply bringupFence_queued | apply warnIf_queued

theorem fillMemory_queued (t0 : Nat) (h0 : Queued qp s) : Queued qp (fillMemory s t0) := h0

theorem fillFailed_queued (g : Nat) (h0 : Queued qp s) : Queued qp (fillFailed s g) := by
  unfold fillFailed
  repeat' with_reducible first | assumption | intro _ | apply queued_ite | apply pathFail_queued | apply fenceComplete_queued
                               | apply retireBegin_queued | apply State.modStack_queued

theorem buStep5_queued (e : BringupEnv) (t0 : Nat) (h0 : Queued qp s) : Queued qp (buStep5 s e t0).after := by
  unfold buStep5
  repeat' first
    | (with_reducible first | assumption | intro _ | apply queued_foldl | apply queued_iteU | apply queued_of)
    | simp only [queued_mk]
    | (with_reducible first | apply fillFailed_queued | apply fillMemory_queued | apply warnIf_queued)

theorem buStep6_queued (e : BringupEnv) (h0 : Queued qp s) : Queued qp (buStep6 s e).after := by
  unfold buStep6
  repeat' with_reducible first | assumption | intro _ | apply queued_foldl | apply queued_iteU | apply clearSram_queued
                               | apply bringupFence_queued | apply warnIf_queued

theorem buStep7_queued (h0 : Queued qp s) : Queued qp (buStep7 s).after := by
  unfold buStep7
  repeat' first
    | (with_reducible first | assumption | apply imageLoaded_queued | apply condStart_queued | apply logTrust_queued)
    | split

theorem buStep8_queued (h0 : Queued qp s) : Queued qp (buStep8 s).after := by
  unfold buStep8
  repeat' first
    | (with_reducible first | assumption | intro _ | apply queued_foldl | apply queued_of)
    | simp only [queued_mk]
    | (with_reducible first | apply logTrust_queued | apply condStart_queued | apply warnIf_queued)

theorem buStep9_queued (h0 : Queued qp s) : Queued qp (buStep9 s).after := by
  unfold buStep9
  repeat' first
    | (with_reducible first | assumption | intro _ | apply queued_foldl | apply queued_ite | apply queued_of)
    | simp only [queued_mk]
    | (with_reducible first | apply domainUp_queued | apply State.modPort_queued)

theorem trainPort_queued (e : BringupEnv) {s : State} (k : PortId) (h1 : Queued qp s) : Queued qp (trainPort e s k) := by
  unfold trainPort
  repeat' with_reducible first | assumption | intro _ | apply queued_ite | apply firstTrain_queued | apply trainingDone_queued

theorem buStep10_queued (e : BringupEnv) (h0 : Queued qp s) : Queued qp (buStep10 s e).after := by
  unfold buStep10
  repeat' with_reducible first | assumption | apply queued_foldl | apply trainPort_queued | apply warnIf_queued

theorem buStep11_queued (h0 : Queued qp s) : Queued qp (buStep11 s).after := by
  unfold buStep11
  repeat' first
    | (with_reducible first | assumption | apply queued_of)
    | simp only [queued_mk]
    | with_reducible apply lifeTo_queued

theorem buStep_queued (e : BringupEnv) (t0 : Nat) (n : Nat) {s : State} (h3 : Queued qp s) : Queued qp (buStep e t0 n s).after := by
  unfold buStep
  repeat' first
    | (with_reducible first | assumption | apply buStep1_queued | apply buStep2_queued | apply buStep3_queued | apply buStep4_queued
                            | apply buStep5_queued | apply buStep6_queued | apply buStep7_queued | apply buStep8_queued
                            | apply buStep9_queued | apply buStep10_queued | apply buStep11_queued)
    | split

theorem putStep_queued (n : Nat) (o : StepObj) (h0 : Queued qp s) : Queued qp (putStep s n o) := h0

theorem runOver_queued (h0 : Queued qp s) : Queued qp (runOver s) := h0

theorem stepLate_queued (n : Nat) (h0 : Queued qp s) : Queued qp (stepLate s n) := by
  unfold stepLate
  repeat' with_reducible first | assumption | intro _ | apply queued_ite | apply runOver_queued | apply putStep_queued
                               | apply lifeFatal_queued

theorem stepOver_queued (n : Nat) (us : Nat) {r : StepOut} (h2 : Queued qp r.after) : Queued qp (stepOver n us r) := by
  unfold stepOver
  repeat' first
    | (with_reducible first | assumption | intro _ | apply queued_ite | apply queued_of)
    | simp only [queued_mk]
    | (with_reducible first | apply putStep_queued | apply lifeFatal_queued | apply runOver_queued)

theorem fillBegin_queued (h0 : Queued qp s) : Queued qp (fillBegin s) := by
  unfold fillBegin
  repeat' with_reducible first | assumption | intro _ | apply queued_foldl | apply State.modStack_queued

theorem stepBegin_queued (n : Nat) (last : Nat) {s : State} (h2 : Queued qp s) : Queued qp (stepBegin n last s) := by
  unfold stepBegin
  repeat' first
    | (with_reducible first | assumption | intro _ | apply queued_ite | apply queued_of)
    | simp only [queued_mk]
    | (with_reducible first | apply putStep_queued | apply fillBegin_queued)

theorem runSteps_queued (e : BringupEnv) (last : Nat) (x2 : Nat) (x3 : Nat) {x4 : State} (h4 : Queued qp x4) :
    Queued qp (runSteps e last x2 x3 x4) := by
  revert h4
  fun_induction runSteps e last x2 x3 x4
  all_goals intro h4
  repeat' first
    | with_reducible apply queued_of
    | simp only [queued_mk]
    | (with_reducible first | apply stepBegin_queued | apply stepLate_queued | apply buStep_queued | apply stepOver_queued)
    | apply_assumption

theorem buRunAct_queued (e : BringupEnv) (n : Nat) {s : State} (h2 : Queued qp s) : Queued qp (buRunAct e n s) := by
  unfold buRunAct
  repeat' first
    | (with_reducible first | assumption | intro _ | apply queued_ite | apply queued_of)
    | simp only [queued_mk]
    | (with_reducible first | apply lifeTo_queued | apply runSteps_queued)

theorem bringupTimeout_queued (h0 : Queued qp s) : Queued qp (bringupTimeout s) := by
  unfold bringupTimeout
  repeat' first
    | (with_reducible first | assumption | apply stepLate_queued)
    | split

end Sys2Proof.Machine
end

section
/-! SUPPORT. What the operations of power, the canary round, translation rows, the dictionary and CAN keep of the queue (`Queued`). -/

namespace Sys2Proof.Machine

set_option linter.unusedSimpArgs false

variable {qp : List Instr} {s : State}

theorem logSupply_queued (unit : Nat) (reading : Nat) (h0 : Queued qp s) : Queued qp (logSupply s unit reading) := by
  unfold logSupply
  repeat' with_reducible first | assumption | apply logRec_queued

theorem voltConditions_queued (h0 : Queued qp s) : Queued qp (voltConditions s) := by
  unfold voltConditions
  repeat' first
    | (with_reducible first | assumption | intro _ | apply queued_ite | apply queued_of)
    | simp only [queued_mk]
    | (with_reducible first | apply logSupply_queued | apply condStart_queued | apply condEnd_queued)

theorem inputSample_queued (v : Nat) (w : Nat) (h0 : Queued qp s) : Queued qp (inputSample s v w) := by
  unfold inputSample
  repeat' first
    | (with_reducible first | assumption | intro _ | apply queued_ite | apply queued_of)
    | simp only [queued_mk]
    | (with_reducible first | apply voltConditions_queued | apply powerOff_queued | apply coldBegin_queued)

theorem phaseFault_queued (i : Nat) (h0 : Queued qp s) : Queued qp (phaseFault s i) := by
  unfold phaseFault
  repeat' first
    | (with_reducible first | assumption | intro _ | apply queued_ite | apply queued_of)
    | simp only [queued_mk]
    | with_reducible apply logSupply_queued

theorem lendShares_queued (h0 : Queued qp s) : Queued qp (lendShares s) := h0

theorem unitDutyTick_queued (stackTbl : List Nat) (faces : List Nat) (h0 : Queued qp s) :
    Queued qp (unitDutyTick s stackTbl faces) := by
  unfold unitDutyTick
  repeat' first
    | (with_reducible first | assumption | intro _ | apply queued_ite | apply queued_of)
    | simp only [queued_mk]
    | with_reducible apply lendShares_queued

theorem recallComplete_queued (f : Nat) (h0 : Queued qp s) : Queued qp (recallComplete s f) := by
  unfold recallComplete
  repeat' first
    | (with_reducible first | assumption | intro _ | apply queued_ite | apply queued_of)
    | simp only [queued_mk]
    | with_reducible apply State.setFace_queued

theorem domainIdle_queued (d : Nat) (h0 : Queued qp s) : Queued qp (domainIdle s d) := by
  unfold domainIdle
  repeat' with_reducible first | assumption | intro _ | apply queued_ite | apply State.setDomain_queued

theorem domainSleep_queued (d : Nat) (h0 : Queued qp s) : Queued qp (domainSleep s d) := by
  unfold domainSleep
  repeat' with_reducible first | assumption | intro _ | apply queued_ite | apply State.setDomain_queued

theorem pinChange_queued (i : Nat) (active : Bool) (h0 : Queued qp s) : Queued qp (pinChange s i active) := by
  unfold pinChange
  repeat' with_reducible first | assumption | intro _ | apply queued_ite | apply glitch_queued | apply State.setInput_queued

theorem wakeSleepers_queued (h0 : Queued qp s) : Queued qp (wakeSleepers s) := by
  unfold wakeSleepers
  repeat' with_reducible first | assumption | apply queued_foldl | apply wakeDomain_queued

theorem inputStuck_queued (i : Nat) (h0 : Queued qp s) : Queued qp (inputStuck s i) := by
  unfold inputStuck
  repeat' with_reducible first | assumption | intro _ | apply queued_ite | apply condStart_queued | apply State.setInput_queued
                               | apply cadenceFallback_queued

theorem inputRelease_queued (i : Nat) (h0 : Queued qp s) : Queued qp (inputRelease s i) := by
  unfold inputRelease
  repeat' with_reducible first | assumption | intro _ | apply queued_ite | apply condEnd_queued | apply State.setInput_queued

theorem chanCond_queued (c : Nat) (code : W16) (on : Bool) (starts : Bool) {s : State} (h4 : Queued qp s) :
    Queued qp (chanCond c code on starts s) := by
  unfold chanCond
  repeat' with_reducible first | assumption | intro _ | apply queued_ite | apply condStart_queued | apply condEnd_queued

theorem channelReport_queued (c : Nat) (st : Byte) (r : Int) (h0 : Queued qp s) : Queued qp (channelReport s c st r) := by
  unfold channelReport
  repeat' with_reducible first | assumption | intro _ | apply queued_foldl | apply queued_ite | apply chanCond_queued
                               | apply logSupply_queued

theorem coreReading_queued (n : Nat) (h0 : Queued qp s) : Queued qp (coreReading s n) := by
  unfold coreReading
  repeat' with_reducible first | assumption | apply State.modStack_queued | apply coolCount_queued | apply rateTrigger_queued

theorem canarySlot_queued (c : Nat) (raw : Sensor) (h0 : Queued qp s) : Queued qp (canarySlot s c raw) := by
  unfold canarySlot
  repeat' first
    | (with_reducible first | assumption | intro _ | apply queued_ite | apply queued_of)
    | simp only [queued_mk]
    | (with_reducible first | apply channelReport_queued | apply State.setChannel_queued | apply coreReading_queued)

theorem supplyBegin_queued (c : Nat) (h0 : Queued qp s) : Queued qp (supplyBegin s c) := by
  unfold supplyBegin
  repeat' with_reducible first | assumption | intro _ | apply queued_foldl | apply queued_ite | apply rateTrigger_queued
                               | apply State.modStack_queued | apply faceFenceBegin_queued | apply lifeFatal_queued

theorem supplyEnd_queued (c : Nat) (h0 : Queued qp s) : Queued qp (supplyEnd s c) := by
  unfold supplyEnd
  repeat' with_reducible first | assumption | intro _ | apply queued_foldl | apply queued_ite | apply coolCount_queued
                               | apply State.modStack_queued

theorem supplyRound_queued (c : Nat) (h0 : Queued qp s) : Queued qp (supplyRound s c) := by
  unfold supplyRound
  repeat' with_reducible first | assumption | intro _ | apply queued_ite | apply supplyBegin_queued | apply State.setChannel_queued
                               | apply supplyEnd_queued

theorem conditionsAgain_queued (h0 : Queued qp s) : Queued qp (conditionsAgain s) := by
  unfold conditionsAgain
  repeat' with_reducible first | assumption | intro _ | apply queued_foldl | apply queued_ite | apply condStart_queued

theorem thrTo_queued (st : Byte) (k : Nat) (h0 : Queued qp s) : Queued qp (thrTo s st k) := h0

theorem throttleEnded_queued (h0 : Queued qp s) : Queued qp (throttleEnded s) := by
  unfold throttleEnded
  repeat' with_reducible first | assumption | apply raiseEmcy_queued | apply msgAll_queued

theorem throttleAsk_queued (h0 : Queued qp s) : Queued qp (throttleAsk s) := by
  unfold throttleAsk
  repeat' first
    | (with_reducible first | assumption | intro _ | apply queued_ite | apply queued_of)
    | simp only [queued_mk]
    | (with_reducible first | apply thrTo_queued | apply msgAll_queued | apply hostMsix_queued | apply condStart_queued)

theorem throttleRound_queued {s0 : State} (h0 : Queued qp s0) : Queued qp (throttleRound s0).1 := by
  unfold throttleRound
  repeat' first
    | (with_reducible first | assumption | intro _ | apply queued_ite | apply queued_ite2 | apply queued_of)
    | simp only [queued_mk]
    | (with_reducible first | apply thrTo_queued | apply throttleAsk_queued | apply throttleEnded_queued)

theorem dutyReport_queued {x : State × Bool} (h0 : Queued qp x.1) : Queued qp (dutyReport x) := by
  unfold dutyReport
  repeat' first
    | (with_reducible first | assumption | intro _ | apply queued_ite | apply queued_of)
    | simp only [queued_mk]
    | (with_reducible first | apply msgAll_queued | apply raiseEmcy_queued | apply condStart_queued | apply throttleEnded_queued
                            | apply condEnd_queued)

theorem telemetryCopy_queued (h0 : Queued qp s) : Queued qp (telemetryCopy s) := by
  unfold telemetryCopy
  repeat' first
    | (with_reducible first | assumption | apply queued_of)
    | simp only [queued_mk]

theorem canaryRoundEnd_queued (h0 : Queued qp s) : Queued qp (canaryRoundEnd s) := by
  unfold canaryRoundEnd
  repeat' first
    | (with_reducible first | assumption | intro _ | apply queued_foldl | apply queued_ite | apply queued_of)
    | simp only [queued_mk]
    | (with_reducible first | apply telemetryCopy_queued | apply dutyReport_queued | apply throttleRound_queued
                            | apply supplyRound_queued | apply conditionsAgain_queued)

theorem entryWriteObj_queued (n : Nat) (v : W32) (h0 : Queued qp s) : Queued qp (entryWriteObj s n v).1 := by
  unfold entryWriteObj
  repeat' first
    | (with_reducible first | assumption | intro _ | apply queued_ite | apply queued_of)
    | simp only [queued_mk]

theorem groupViewObj_queued (k : Nat) (v : W32) (h0 : Queued qp s) : Queued qp (groupViewObj s k v).1 := by
  unfold groupViewObj
  repeat' first
    | (with_reducible first | assumption | intro _ | apply queued_ite | apply queued_of)
    | simp only [queued_mk]

theorem contextObj_queued (c : Nat) (f : CtxField) (v : W16) (h0 : Queued qp s) : Queued qp (contextObj s c f v).1 := by
  unfold contextObj
  repeat' with_reducible first | assumption | intro _ | apply queued_ite | apply State.setCtx_queued

theorem drainWrite_queued (p : DictPath) (v : Nat) (h0 : Queued qp s) : Queued qp (drainWrite s p v).1 := by
  unfold drainWrite
  repeat' first
    | (with_reducible first | assumption | intro _ | apply queued_ite2 | apply queued_of)
    | simp only [queued_mk]

theorem drainConfirmed_queued (h0 : Queued qp s) : Queued qp (drainConfirmed s) := by
  unfold drainConfirmed
  repeat' first
    | (with_reducible first | assumption | apply queued_of)
    | simp only [queued_mk]
    | with_reducible apply dictRelease_queued
    | split

theorem logDrain_queued (d : Drain) (h0 : Queued qp s) : Queued qp (logDrain s d) := by
  unfold logDrain
  repeat' first
    | (with_reducible first | assumption | apply logObject_queued | apply logRec_queued)
    | split

theorem drainTimeout_queued (h0 : Queued qp s) : Queued qp (drainTimeout s) := by
  unfold drainTimeout
  repeat' first
    | (with_reducible first | assumption | apply queued_of)
    | simp only [queued_mk]
    | (with_reducible first | apply dictRelease_queued | apply logDrain_queued)
    | split

theorem srSeedObj_queued (f : Nat) (v : W32) (h0 : Queued qp s) : Queued qp (srSeedObj s f v).1 := by
  unfold srSeedObj
  repeat' first
    | (with_reducible first | assumption | apply State.modFace_queued)
    | split

theorem tallySel_queued (v : Nat) (h0 : Queued qp s) : Queued qp (tallySel s v).1 := by
  unfold tallySel
  repeat' first
    | (with_reducible first | assumption | intro _ | apply queued_ite2 | apply queued_of)
    | simp only [queued_mk]

theorem watchSel_queued (v : Nat) (h0 : Queued qp s) : Queued qp (watchSel s v).1 := by
  unfold watchSel
  repeat' first
    | (with_reducible first | assumption | intro _ | apply queued_ite2 | apply queued_of)
    | simp only [queued_mk]

theorem barrierSel_queued (v : Byte) (h0 : Queued qp s) : Queued qp (barrierSel s v).1 := h0

theorem wrote_queued {r : State × Byte} (h0 : Queued qp r.1) : QueuedW qp (wrote r) := by
  unfold wrote
  repeat' first
    | (with_reducible first | assumption | intro _)
    | simp only [st_ok, st_cwait, st_cfail, queuedD_serve, queuedD_drop, queuedD_wait, queuedD_refuse, queuedW_mk, id_eq]
    | with_reducible apply And.intro

theorem wroteHeld_queued {r : State × Option Byte} (h0 : Queued qp r.1) : QueuedW qp (wroteHeld r) := by
  unfold wroteHeld
  repeat' first
    | (with_reducible first | assumption | intro _)
    | simp only [st_ok, st_cwait, st_cfail, queuedD_serve, queuedD_drop, queuedD_wait, queuedD_refuse, queuedW_mk, id_eq]
    | with_reducible apply And.intro

theorem wroteThen_queued (st : Byte) (f : State → State) (h0 : Queued qp s) (h2 : ∀ y0, Queued qp y0 → Queued qp (f y0)) :
    QueuedW qp (wroteThen s st f) := by
  unfold wroteThen
  repeat' first
    | with_reducible assumption
    | simp only [st_ok, st_cwait, st_cfail, queuedD_serve, queuedD_drop, queuedD_wait, queuedD_refuse, queuedW_mk, id_eq]
    | with_reducible apply And.intro

theorem ranged_queued (ok : Bool) {t : State} (h0 : Queued qp s) (h2 : Queued qp t) : Queued qp (ranged s ok t).1 := by
  unfold ranged
  repeat' first
    | with_reducible assumption
    | split

theorem putComm_queued (c : CommObjs) (h0 : Queued qp s) : Queued qp (putComm s c) := h0

theorem errorCount_queued (v : Nat) (h0 : Queued qp s) : Queued qp (errorCount s v).1 := by
  unfold errorCount
  repeat' first
    | (with_reducible first | assumption | apply queued_of)
    | simp only [queued_mk]
    | with_reducible apply ranged_queued

theorem commWrite_queued (idx : Nat) (sb : Nat) (v : Nat) (h0 : Queued qp s) : Queued qp (commWrite s idx sb v).1 := by
  unfold commWrite
  repeat' first
    | (with_reducible first | assumption | apply errorCount_queued | apply ranged_queued | apply putComm_queued)
    | split

theorem rateWrite_queued (sb : Nat) (v : Nat) (h0 : Queued qp s) : Queued qp (rateWrite s sb v).1 := by
  unfold rateWrite
  repeat' first
    | (with_reducible first | assumption | intro _ | apply queued_ite2 | apply queued_of)
    | simp only [queued_mk]
    | with_reducible apply ranged_queued

theorem lifeWrite_queued (idx : Nat) (sb : Nat) (off : Nat) (data : List Byte) (v : Nat) (h0 : Queued qp s) :
    QueuedW qp (lifeWrite s idx sb off data v) := by
  unfold lifeWrite
  repeat' first
    | (with_reducible first | assumption | intro _ | apply queued_ite2 | apply queued_iteW | apply queued_of)
    | simp only [queued_mk]
    | (with_reducible first | apply wroteThen_queued | apply buRunAct_queued | apply wrote_queued | apply stateReq_queued
                            | apply resetBegin_queued | apply faceResetBegin_queued | apply ranged_queued | apply fwImageWrite_queued
                            | apply fwCmd_queued | apply licImageWrite_queued | apply licCmd_queued | apply attNonceWrite_queued
                            | apply attCmd_queued)

theorem ignoreWrite_queued (sb : Nat) (v : Nat) (h0 : Queued qp s) : Queued qp (ignoreWrite s sb v).1 := by
  unfold ignoreWrite
  repeat' first
    | (with_reducible first | assumption | intro _ | apply queued_ite2 | apply queued_of)
    | simp only [queued_mk]
    | with_reducible apply ranged_queued

theorem inputWrite_queued (i : Nat) (sb : Nat) (v : Nat) (h0 : Queued qp s) : Queued qp (inputWrite s i sb v).1 := by
  unfold inputWrite
  repeat' first
    | (with_reducible first | assumption | apply ranged_queued | apply State.setInput_queued)
    | split

theorem powerWrite_queued (idx : Nat) (sb : Nat) (v : Nat) (h0 : Queued qp s) : Queued qp (powerWrite s idx sb v).1 := by
  unfold powerWrite
  repeat' first
    | (with_reducible first | assumption | intro _ | apply queued_ite2 | apply queued_of)
    | simp only [queued_mk]
    | (with_reducible first | apply ranged_queued | apply ignoreWrite_queued | apply State.setChannel_queued | apply inputWrite_queued)

theorem portWrite_queued (idx : Nat) (sb : Nat) (v : Nat) (h0 : Queued qp s) : Queued qp (portWrite s idx sb v).1 := by
  unfold portWrite
  repeat' first
    | (with_reducible first | assumption | apply winLenWrite_queued | apply cadAlignWrite_queued | apply fwdMatrix_queued
                            | apply aditPageWrite_queued | apply portEnable_queued | apply retrainReq_queued | apply State.modPort_queued)
    | split

theorem xlateWrite_queued (p : DictPath) (idx : Nat) (sb : Nat) (v : Nat) (h0 : Queued qp s) :
    QueuedW qp (xlateWrite s p idx sb v) := by
  unfold xlateWrite
  repeat' first
    | (with_reducible first | assumption | apply wroteHeld_queued | apply drainWrite_queued | apply wrote_queued
                            | apply groupViewObj_queued | apply contextObj_queued | apply entryWriteObj_queued)
    | split

theorem tallyWrite_queued (idx : Nat) (sb : Nat) (v : Nat) (h0 : Queued qp s) : Queued qp (tallyWrite s idx sb v).1 := by
  unfold tallyWrite
  repeat' first
    | (with_reducible first | assumption | intro _ | apply queued_ite2 | apply queued_of)
    | simp only [queued_mk]
    | (with_reducible first | apply tallySel_queued | apply watchSel_queued | apply barrierSel_queued | apply ranged_queued)

theorem hotWrite_queued (n : Nat) (enter : Nat) (exit : Nat) (h0 : Queued qp s) : Queued qp (hotWrite s n enter exit).1 := by
  unfold hotWrite
  repeat' with_reducible first | assumption | apply ranged_queued | apply State.modStack_queued

theorem stackWrite_queued (p : DictPath) (n : Nat) (i : Nat) (sb : Nat) (v : Nat) (h0 : Queued qp s) :
    QueuedW qp (stackWrite s p n i sb v) := by
  unfold stackWrite
  repeat' first
    | (with_reducible first | assumption | apply wroteHeld_queued | apply colModeWrite_queued | apply stackModeWrite_queued
                            | apply wrote_queued | apply hotWrite_queued | apply ranged_queued | apply State.setStack_queued
                            | apply remapSelWrite_queued | apply remapReqWrite_queued)
    | split

theorem serviceWrite_queued (idx : Nat) (sb : Nat) (v : Nat) (h0 : Queued qp s) : QueuedW qp (serviceWrite s idx sb v) := by
  unfold serviceWrite
  repeat' first
    | (with_reducible first | assumption | intro _ | apply wrote_queued | apply flogSel_queued | apply flogClear_queued
                            | apply flogSavedSel_queued | apply wroteThen_queued | apply faceFenceBegin_queued
                            | apply pickFenceBegin_queued | apply retireBegin_queued)
    | split

theorem objWrite_queued (p : DictPath) (idx : Nat) (sb : Nat) (off : Nat) (data : List Byte) (h0 : Queued qp s) :
    QueuedW qp (objWrite s p idx sb off data) := by
  unfold objWrite
  repeat' first
    | (with_reducible first | assumption | apply wrote_queued | apply commWrite_queued | apply rateWrite_queued
                            | apply lifeWrite_queued | apply powerWrite_queued | apply portWrite_queued | apply xlateWrite_queued
                            | apply tallyWrite_queued | apply stackWrite_queued | apply srSeedObj_queued | apply queueObject_queued
                            | apply serviceWrite_queued)
    | split

theorem serveWrite_queued (p : DictPath) (idx : Nat) (sb : Nat) (off : Nat) (data : List Byte) (mail : Bool) (h0 : Queued qp s) :
    Queued qp (serveWrite s p idx sb off data mail) := by
  unfold serveWrite
  try dsimp only
  repeat' first
    | (with_reducible first | assumption | apply dictReply_queued | apply objWrite_queued | apply dictHold_queued
                            | apply WriteOut.after_queued | apply WriteOut.later_queued)
    | split

theorem registerWrite_queued (p : DictPath) (idx : Nat) (sb : Nat) (data : List Byte) (h0 : Queued qp s) :
    Queued qp (registerWrite s p idx sb data) := by
  unfold registerWrite
  repeat' first
    | (with_reducible first | assumption | apply dictOpen_queued | apply mailHold_queued | apply dictReply_queued | apply serveWrite_queued)
    | split
    | (with_reducible first | refine opened_drop_queued ?_ (by assumption) | refine opened_refuse_queued ?_ (by assumption)
                            | refine opened_serve_queued ?_ (by assumption))

theorem serveMailbox_queued (m : Fin 16) (h0 : Queued qp s) : Queued qp (serveMailbox s m) := by
  unfold serveMailbox
  repeat' with_reducible first | assumption | intro _ | apply queued_ite | apply State.setBox_queued | apply serveWrite_queued
                               | apply dictReply_queued

theorem serveWaiting_queued (h0 : Queued qp s) : Queued qp (serveWaiting s) := by
  unfold serveWaiting
  repeat' first
    | (with_reducible first | assumption | intro _ | apply queued_foldl | apply queued_ite | apply queued_of)
    | simp only [queued_mk]
    | with_reducible apply serveMailbox_queued

theorem mailboxAccess_queued (m : Fin 16) (cmd : W64) (h0 : Queued qp s) : Queued qp (mailboxAccess s m cmd) := by
  unfold mailboxAccess
  repeat' first
    | (with_reducible first | assumption | intro _ | apply queued_ite | apply queued_of)
    | simp only [queued_mk]
    | (with_reducible first | apply mailPut_queued | apply State.setBox_queued | apply serveWaiting_queued)

theorem tick_queued (h0 : Queued qp s) : Queued qp (tick s) := by
  unfold tick
  repeat' first
    | (with_reducible first | assumption | intro _ | apply queued_ite | apply queued_of)
    | simp only [queued_mk]
    | with_reducible apply serveWaiting_queued

theorem nmtStart_queued (h0 : Queued qp s) : Queued qp (nmtStart s) := by
  unfold nmtStart
  repeat' first
    | (with_reducible first | assumption | intro _ | apply queued_ite | apply queued_of)
    | simp only [queued_mk]

theorem nmtReset_queued (h0 : Queued qp s) : Queued qp (nmtReset s) := by
  unfold nmtReset
  repeat' first
    | (with_reducible first | assumption | intro _ | apply queued_ite | apply queued_of)
    | simp only [queued_mk]
    | with_reducible apply State.emit_queued

theorem heartbeat_queued (h0 : Queued qp s) : Queued qp (heartbeat s) := by
  unfold heartbeat
  repeat' first
    | (with_reducible first | assumption | intro _ | apply queued_ite | apply queued_of)
    | simp only [queued_mk]
    | with_reducible apply State.emit_queued

theorem usdoOpen_queued (idx : W16) (sb : Byte) (wr : Bool) (f : State → State) (h0 : Queued qp s)
    (h4 : ∀ y0, Queued qp y0 → Queued qp (f y0)) :
    Queued qp (usdoOpen s idx sb wr f) := by
  unfold usdoOpen
  repeat' first
    | (with_reducible first | apply dictOpen_queued | apply dictReply_queued | apply usdoNew_queued)
    | split
    | (with_reducible first | refine opened_drop_queued ?_ (by assumption) | refine opened_refuse_queued ?_ (by assumption)
                            | refine opened_serve_queued ?_ (by assumption))
    | apply_assumption

theorem usdoPut_queued (x : UsdoXfer) (h0 : Queued qp s) : Queued qp (usdoPut s x) := h0

theorem usdoEnd_queued (h0 : Queued qp s) : Queued qp (usdoEnd s) := h0

theorem usdoUpload_queued (idx : W16) (sb : Byte) (part : UsdoPart) (h0 : Queued qp s) : Queued qp (usdoUpload s idx sb part) := by
  unfold usdoUpload
  try dsimp only
  repeat' first
    | (with_reducible first | assumption | intro _ | apply usdoOpen_queued | apply dictReply_queued | apply usdoPut_queued
                            | apply usdoEnd_queued)
    | split

theorem usdoDownload_queued (idx : W16) (sb : Byte) (part : UsdoPart) (data : List Byte) (h0 : Queued qp s) :
    Queued qp (usdoDownload s idx sb part data) := by
  unfold usdoDownload
  repeat' first
    | (with_reducible first | assumption | intro _ | apply usdoOpen_queued | apply serveWrite_queued | apply dictReply_queued
                            | apply usdoPut_queued | apply usdoEnd_queued)
    | split

theorem usdoTimeout_queued (h0 : Queued qp s) : Queued qp (usdoTimeout s) := by
  unfold usdoTimeout
  repeat' first
    | (with_reducible first | assumption | apply queued_of)
    | simp only [queued_mk]
    | (with_reducible first | apply usdoEnd_queued | apply State.emit_queued)
    | split

theorem tpdoTimer_queued (t : Nat) (h0 : Queued qp s) : Queued qp (tpdoTimer s t) := by
  unfold tpdoTimer
  repeat' first
    | (with_reducible first | assumption | intro _ | apply queued_ite | apply queued_of)
    | simp only [queued_mk]
    | with_reducible apply State.emit_queued

theorem emcyRoom_queued (h0 : Queued qp s) : Queued qp (emcyRoom s) := by
  unfold emcyRoom
  repeat' first
    | (with_reducible first | assumption | intro _ | apply queued_ite | apply queued_of)
    | simp only [queued_mk]
    | with_reducible apply raiseEmcy_queued

theorem emcySend_queued (h0 : Queued qp s) : Queued qp (emcySend s) := by
  unfold emcySend
  repeat' first
    | (with_reducible first | assumption | apply queued_of)
    | simp only [queued_mk]
    | (with_reducible first | apply emcyRoom_queued | apply State.emit_queued)
    | split

theorem errorPassive_queued (enter : Bool) (h0 : Queued qp s) : Queued qp (errorPassive s enter) := by
  unfold errorPassive
  repeat' first
    | (with_reducible first | assumption | intro _ | apply queued_ite | apply queued_of)
    | simp only [queued_mk]
    | (with_reducible first | apply condStart_queued | apply condEnd_queued)

theorem busOffRecovered_queued (h0 : Queued qp s) : Queued qp (busOffRecovered s) := by
  unfold busOffRecovered
  repeat' first
    | (with_reducible first | assumption | intro _ | apply queued_ite | apply queued_of)
    | simp only [queued_mk]
    | with_reducible apply raiseEmcy_queued

end Sys2Proof.Machine
end

section
/-! SUPPORT. What the operations of pick operations, hoists and passes keep of the queue (`Queued`). -/

namespace Sys2Proof.Machine

set_option linter.unusedSimpArgs false

variable {qp : List Instr} {s : State}

theorem rowRead_queued (g : Nat) (o : PickOp) (pa : Nat) (i : Nat) (h0 : Queued qp s) : Queued qp (rowRead s g o pa i).1 := by
  unfold rowRead
  repeat' with_reducible first | assumption | apply rowStepAct_queued | apply dramRead_queued | apply withTag_queued

theorem rowWrite_queued (g : Nat) (o : PickOp) (pa : Nat) (i : Nat) (bs : List PByte) (h0 : Queued qp s) :
    Queued qp (rowWrite s g o pa i bs).1 := by
  unfold rowWrite
  repeat' with_reducible first | assumption | apply dramWrite_queued | apply rowStepAct_queued

theorem copyRow_queued (g : Nat) {p : State × PickOp} (i : Nat) (h1 : Queued qp p.1) : Queued qp (copyRow g p i).1 := by
  unfold copyRow
  repeat' with_reducible first | assumption | apply rowRead_queued | apply rowWrite_queued

theorem initRow_queued (g : Nat) {p : State × PickOp} (i : Nat) (h1 : Queued qp p.1) : Queued qp (initRow g p i).1 := by
  unfold initRow
  repeat' with_reducible first | assumption | apply rowWrite_queued

theorem logicRow_queued (g : Nat) {p : State × PickOp} (i : Nat) (h1 : Queued qp p.1) : Queued qp (logicRow g p i).1 := by
  unfold logicRow
  repeat' first
    | (with_reducible first | assumption | apply rowRead_queued | apply rowWrite_queued)
    | split

theorem portOp_queued (g : Nat) (i : Nat) (op : Nat) (h0 : Queued qp s) : ∀ t x, (portOp s g i op) = some (t, x) → Queued qp t := by
  intro t o e
  unfold portOp at e
  obtain ⟨x, -, e⟩ := Option.map_eq_some_iff.1 e
  cases e
  exact claimWaitEnd_queued _ h0

theorem runRows_queued (g : Nat) (i : Nat) (op : Nat) (n : Nat)
    (f : Nat → State × PickOp → Nat → State × PickOp) (h0 : Queued qp s) (h5 : ∀ y0 y1 y2, Queued qp y1.1 → Queued qp (f y0 y1 y2).1) :
    Queued qp (runRows s g i op n f) := by
  unfold runRows
  repeat' first
    | (with_reducible first | apply queued_foldl2 | refine portOp_queued _ _ _ ?_ _ _ (by assumption) | apply putOp_queued)
    | split
    | apply_assumption

theorem loadSlots_queued (g : Nat) (o : PickOp) (bs : List PByte) (cost : Nat) (h0 : Queued qp s) :
    Queued qp (loadSlots s g o bs cost) := h0

theorem readRows_queued (g : Nat) (o : PickOp) (pa : Nat) (n : Nat) (h0 : Queued qp s) : Queued qp (readRows s g o pa n).1 := by
  unfold readRows
  repeat' with_reducible first | assumption | intro _ | apply queued_foldl2 | apply rowRead_queued

theorem pload_queued (g : Nat) (i : Nat) (h0 : Queued qp s) : Queued qp (pload s g i) := by
  unfold pload
  split
  · exact h0
  · have h1 := portOp_queued _ _ _ h0 _ _ ‹_›
    dsimp only
    split
    · split
      · exact loadSlots_queued _ _ _ _ (State.modCol_queued _ _ h1)
      · exact State.modCol_queued _ _ h1
    · split
      · exact loadSlots_queued _ _ _ _ (readRows_queued _ _ _ _ h1)
      · have h2 := fun r i va wr as data => innerAccess_queued (qp := qp) r i va wr as data h1
        split
        · exact chk_wait_queued (h2 _ _ _ _ _ _) ‹_›
        · exact putOp_queued _ _ (chk_fail_queued (h2 _ _ _ _ _ _) ‹_›)
        · have h3 := fun p => innerDrop_queued (qp := qp) p (chk_ok_queued (h2 _ _ _ _ _ _) ‹_›)
          split
          · exact putOp_queued _ _ (h3 _)
          · exact loadSlots_queued _ _ _ _ (h3 _)

theorem readRun_queued (g : Nat) (first : Nat) (n : Nat) {p : State × PickOp × Stream} (h3 : Queued qp p.1) :
    Queued qp (readRun g first n p).1 := by
  unfold readRun
  repeat' with_reducible first | assumption | intro _ | apply queued_foldl2 | apply rowRead_queued

theorem readStream_queued (g : Nat) (o : PickOp) (w : WFmt) (h0 : Queued qp s) : Queued qp (readStream s g o w).1 := by
  unfold readStream
  repeat' with_reducible first | assumption | intro _ | apply queued_foldl2 | apply queued_ite2 | apply readRun_queued
                               | apply rowRead_queued

theorem matVec_queued (g : Nat) (i : Nat) (op : Nat) (h0 : Queued qp s) : Queued qp (matVec s g i op) := by
  unfold matVec
  try dsimp only
  repeat' first
    | (with_reducible first | assumption | refine portOp_queued _ _ _ ?_ _ _ (by assumption) | apply readStream_queued
                            | apply putOp_queued | apply State.setCol_queued)
    | split

theorem foldSend_queued (g : Nat) (q : Nat) (leaves : Nat) (down : Bool) (ws : List LinkWord) (h0 : Queued qp s) :
    Queued qp (foldSend s g q leaves down ws) := h0

theorem pfold_queued (g : Nat) (i : Nat) (h0 : Queued qp s) : Queued qp (pfold s g i) := by
  unfold pfold
  try dsimp only
  repeat' first
    | (with_reducible first | assumption | apply putOp_queued | apply foldSend_queued | apply State.setCol_queued
                            | apply State.modCol_queued)
    | split

theorem pdrain_queued (g : Nat) (i : Nat) (h0 : Queued qp s) : Queued qp (pdrain s g i) := by
  unfold pdrain
  split
  · exact h0
  · have h1 := portOp_queued _ _ _ h0 _ _ ‹_›
    dsimp only
    split
    · exact putOp_queued _ _ (queued_foldl2 h1 fun _ _ h => rowWrite_queued _ _ _ _ _ h)
    · split
      · exact h1
      · have h2 := fun r i va wr as data => innerAccess_queued (qp := qp) r i va wr as data h1
        split
        · exact chk_wait_queued (h2 _ _ _ _ _ _) ‹_›
        · exact putOp_queued _ _ (chk_fail_queued (h2 _ _ _ _ _ _) ‹_›)
        · exact putOp_queued _ _ (innerDrop_queued _ (chk_ok_queued (h2 _ _ _ _ _ _) ‹_›))

theorem pfence_queued (g : Nat) (i : Nat) (h0 : Queued qp s) : Queued qp (pfence s g i) := by
  unfold pfence
  repeat' first
    | (with_reducible first | assumption | apply putOp_queued)
    | split

theorem pickDataTimeout_queued (g : Nat) (i : Nat) (h0 : Queued qp s) : Queued qp (pickDataTimeout s g i) := by
  unfold pickDataTimeout
  try dsimp only
  repeat' first
    | (with_reducible first | assumption | apply pickEnd_queued)
    | split

theorem mapPages_queued (r : Req) (wr : Bool) (x2 : List FootPiece) {x3 : State} (h3 : Queued qp x3) :
    Queued qp (mapPages r wr x2 x3).1 := by
  revert h3
  fun_induction mapPages r wr x2 x3
  all_goals intro h3
  repeat' first
    | (with_reducible first | apply xlateRefused_queued | apply placeRefused_queued | refine queued_fst ?_ (by assumption))
    | apply_assumption

theorem hoistFetch_queued (q : Req) (d : BitVec 768) (h0 : Queued qp s) : Queued qp (hoistFetch s q d).st := by
  unfold hoistFetch
  repeat' first
    | (with_reducible first | assumption | intro _ | apply queued_iteC | apply chk_andThen_queued)
    | simp only [st_ok, st_cwait, st_cfail, queuedD_serve, queuedD_drop, queuedD_wait, queuedD_refuse, queuedW_mk, id_eq]
    | (with_reducible first | apply cleanOnly_queued | apply fetchOne_queued | apply fetchRange_queued)

theorem hoistPages_queued (q : Req) (sp : List FootPiece) (dp : List FootPiece) (h0 : Queued qp s) :
    Queued qp (hoistPages s q sp dp).st := by
  unfold hoistPages
  repeat' first
    | (with_reducible first | assumption | intro _ | apply queued_iteC)
    | simp only [st_ok, st_cwait, st_cfail, queuedD_serve, queuedD_drop, queuedD_wait, queuedD_refuse, queuedW_mk, id_eq]
    | with_reducible apply mapPages_queued

theorem hoistPlace_queued (f : Nat) (l : Nat) (ctx : BitVec 6) (d : BitVec 768) (r : HoistRun)
    (clamped : Nat) (sp : List FootPiece) (dp : List FootPiece) (lists : List (Nat × Nat)) (ms : List PageMap) (h0 : Queued qp s) :
    Queued qp (hoistPlace s f l ctx d r clamped sp dp lists ms).st := by
  unfold hoistPlace
  repeat' first
    | with_reducible assumption
    | simp only [st_ok, st_cwait, st_cfail, queuedD_serve, queuedD_drop, queuedD_wait, queuedD_refuse, queuedW_mk, id_eq]
    | with_reducible apply State.modFace_queued
    | split

theorem hoistPrepare_queued (f : Nat) (ctx : BitVec 6) (o : EngOp) (h0 : Queued qp s) : Queued qp (hoistPrepare s f ctx o).st := by
  unfold hoistPrepare
  repeat' first
    | (with_reducible first | assumption | intro _ | apply queued_iteC | apply chk_andThen_queued)
    | simp only [st_ok, st_cwait, st_cfail, queuedD_serve, queuedD_drop, queuedD_wait, queuedD_refuse, queuedW_mk, id_eq]
    | (with_reducible first | apply hoistFetch_queued | apply hoistPages_queued | apply hoistPlace_queued)

theorem hoistDrop_queued (f : Nat) (d : BitVec 768) (h0 : Queued qp s) : Queued qp (hoistDrop s f d) := h0

theorem engRefused_queued (f : Nat) (o : EngOp) (st : Byte) (h0 : Queued qp s) : Queued qp (engRefused s f o st) := by
  unfold engRefused
  repeat' with_reducible first | assumption | intro _ | apply queued_ite | apply putEngOp_queued | apply hoistDrop_queued

theorem engineStart_queued {s0 : State} (f : Nat) (i : Nat) (h0 : Queued qp s0) : Queued qp (engineStart s0 f i) := by
  unfold engineStart
  dsimp only
  split
  · exact entered_queued _ h0
  · split
    · exact entered_queued _ h0
    · split
      · have hp := fun a b c => hoistPrepare_queued (qp := qp) (s := entered s0 f) a b c (entered_queued _ h0)
        split
        · rename_i e
          exact chk_wait_queued (hp _ _ _) e
        · rename_i e
          exact engRefused_queued _ _ _ (chk_fail_queued (hp _ _ _) e)
        · rename_i e
          have hk := chk_ok_queued (hp _ _ _) e
          exact putEngOp_queued _ _ hk
      · split
        · exact engRefused_queued _ _ _ (entered_queued _ h0)
        · have hk := entered_queued (qp := qp) f h0
          exact putEngOp_queued _ _ hk

theorem chkAll_queued {α : Type} {β : Type} (f : State → Nat → α → Chk β) (x3 : Nat) (x4 : List α) {x5 : State}
    (h2 : ∀ y0 y1 y2, Queued qp y0 → Queued qp (f y0 y1 y2).st) (h5 : Queued qp x5) :
    Queued qp (chkAll f x3 x4 x5).st := by
  revert h2 h5
  fun_induction chkAll f x3 x4 x5
  all_goals intro h2 h5
  repeat' first
    | (with_reducible first | intro _ | apply chk_andThen_queued)
    | simp only [st_ok, st_cwait, st_cfail, queuedD_serve, queuedD_drop, queuedD_wait, queuedD_refuse, queuedW_mk, id_eq]
    | (with_reducible first | refine chk_ok_queued ?_ (by assumption) | refine chk_wait_queued ?_ (by assumption)
                            | refine chk_fail_queued ?_ (by assumption))
    | apply_assumption

theorem blockAccess_queued (q : Req) (i : Nat) (wr : Bool) (b : Block) (data : List PByte) (h0 : Queued qp s) :
    Queued qp (blockAccess s q i wr b data).st := by
  unfold blockAccess
  repeat' first
    | with_reducible assumption
    | simp only [st_ok, st_cwait, st_cfail, queuedD_serve, queuedD_drop, queuedD_wait, queuedD_refuse, queuedW_mk, id_eq]
    | (with_reducible first | apply innerResult_queued | apply innerAccess_queued)
    | split

theorem readBlocks_queued (q : Req) (i : Nat) (bs : List Block) (h0 : Queued qp s) : Queued qp (readBlocks s q i bs).st := by
  unfold readBlocks
  repeat' first
    | (with_reducible first | assumption | intro _ | apply chk_andThen_queued)
    | simp only [st_ok, st_cwait, st_cfail, queuedD_serve, queuedD_drop, queuedD_wait, queuedD_refuse, queuedW_mk, id_eq]
    | (with_reducible first | apply chkAll_queued | apply blockAccess_queued)

theorem writeBlocks_queued (q : Req) (i : Nat) (bs : List (Block × List PByte)) (h0 : Queued qp s) :
    Queued qp (writeBlocks s q i bs).st := by
  unfold writeBlocks
  repeat' first
    | (with_reducible first | assumption | intro _ | apply queued_iteC | apply chk_andThen_queued)
    | simp only [st_ok, st_cwait, st_cfail, queuedD_serve, queuedD_drop, queuedD_wait, queuedD_refuse, queuedW_mk, id_eq]
    | (with_reducible first | apply chkAll_queued | apply blockAccess_queued)

theorem hoistAdvance_queued (f : Nat) (o : EngOp) (r : HoistRun) (ends : List (List Nat))
    (st : Byte) (fl : List Flags) (h0 : Queued qp s) :
    Queued qp (hoistAdvance s f o r ends st fl) := by
  unfold hoistAdvance
  repeat' with_reducible first | assumption | intro _ | apply queued_ite | apply hoistDrop_queued | apply State.modFace_queued
                               | apply putEngOp_queued

theorem moveBlocks_queued (q : Req) (srcs : List Block) (dsts : List Block) (make : List
    (List PByte) → List (List PByte)) (h0 : Queued qp s) :
    Queued qp (moveBlocks s q srcs dsts make).st := by
  unfold moveBlocks
  repeat' first
    | (with_reducible first | assumption | intro _ | apply chk_andThen_queued)
    | simp only [st_ok, st_cwait, st_cfail, queuedD_serve, queuedD_drop, queuedD_wait, queuedD_refuse, queuedW_mk, id_eq]
    | (with_reducible first | apply readBlocks_queued | apply writeBlocks_queued)

theorem moveInPlace_queued (f : Nat) (t : FaceTask) (o : EngOp) (r : HoistRun) (h0 : Queued qp s) :
    Queued qp (moveInPlace s f t o r).st := by
  unfold moveInPlace
  repeat' first
    | (with_reducible first | assumption | intro _ | apply queued_iteC | apply chk_andThen_queued)
    | simp only [st_ok, st_cwait, st_cfail, queuedD_serve, queuedD_drop, queuedD_wait, queuedD_refuse, queuedW_mk, id_eq]
    | (with_reducible first | apply hoistAdvance_queued | apply moveBlocks_queued)

theorem moveStage_queued (f : Nat) (t : FaceTask) (o : EngOp) (r : HoistRun) (h0 : Queued qp s) :
    Queued qp (moveStage s f t o r).st := by
  unfold moveStage
  repeat' first
    | (with_reducible first | assumption | intro _ | apply queued_iteC | apply chk_andThen_queued)
    | simp only [st_ok, st_cwait, st_cfail, queuedD_serve, queuedD_drop, queuedD_wait, queuedD_refuse, queuedW_mk, id_eq]
    | (with_reducible first | apply hoistAdvance_queued | apply moveBlocks_queued)

theorem movePlain_queued (f : Nat) (t : FaceTask) (o : EngOp) (r : HoistRun) (h0 : Queued qp s) :
    Queued qp (movePlain s f t o r).st := by
  unfold movePlain
  repeat' first
    | (with_reducible first | assumption | intro _ | apply chk_andThen_queued)
    | simp only [st_ok, st_cwait, st_cfail, queuedD_serve, queuedD_drop, queuedD_wait, queuedD_refuse, queuedW_mk, id_eq]
    | (with_reducible first | apply moveBlocks_queued | apply hoistAdvance_queued)

theorem moveFused_queued (f : Nat) (t : FaceTask) (o : EngOp) (r : HoistRun) (h0 : Queued qp s) :
    Queued qp (moveFused s f t o r).st := by
  unfold moveFused
  repeat' first
    | (with_reducible first | assumption | intro _ | apply queued_ite | apply chk_andThen_queued)
    | simp only [st_ok, st_cwait, st_cfail, queuedD_serve, queuedD_drop, queuedD_wait, queuedD_refuse, queuedW_mk, id_eq]
    | (with_reducible first | apply writeBlocks_queued | apply State.modFace_queued | apply hoistAdvance_queued)

theorem moveAdd_queued (f : Nat) (t : FaceTask) (o : EngOp) (r0 : HoistRun) (h0 : Queued qp s) :
    Queued qp (moveAdd s f t o r0).st := by
  unfold moveAdd
  repeat' first
    | (with_reducible first | assumption | intro _ | apply queued_iteC | apply chk_andThen_queued)
    | simp only [st_ok, st_cwait, st_cfail, queuedD_serve, queuedD_drop, queuedD_wait, queuedD_refuse, queuedW_mk, id_eq]
    | (with_reducible first | apply hoistAdvance_queued | apply readBlocks_queued | apply writeBlocks_queued)

theorem hoistMove_queued (f : Nat) (t : FaceTask) (o : EngOp) (r : HoistRun) (h0 : Queued qp s) :
    Queued qp (hoistMove s f t o r).st := by
  unfold hoistMove
  repeat' first
    | (with_reducible first | assumption | apply moveInPlace_queued | apply moveStage_queued | apply moveFused_queued
                            | apply moveAdd_queued | apply movePlain_queued)
    | split

theorem hoistMoves_queued (f : Nat) (hid : Nat) (ok : BitVec 768 → Bool) (x3 : Nat) {x4 : State} (h4 : Queued qp x4) :
    Queued qp (hoistMoves f hid ok x3 x4) := by
  revert h4
  fun_induction hoistMoves f hid ok x3 x4
  all_goals intro h4
  repeat' first
    | (with_reducible first | apply hoistMove_queued | refine chk_ok_queued ?_ (by assumption) | refine chk_wait_queued ?_ (by assumption)
                            | refine chk_fail_queued ?_ (by assumption))
    | apply_assumption

theorem hoistBroadcast_queued (f : Nat) (hid : Nat) (h0 : Queued qp s) : Queued qp (hoistBroadcast s f hid) := by
  unfold hoistBroadcast
  try dsimp only
  repeat' first
    | (with_reducible first | assumption | intro _ | apply queued_foldl | apply readBlocks_queued | apply hoistDrop_queued
                            | apply State.modFace_queued | apply State.modStack_queued | apply putEngOp_queued)
    | split
    | (with_reducible first | refine chk_ok_queued ?_ (by assumption) | refine chk_wait_queued ?_ (by assumption)
                            | refine chk_fail_queued ?_ (by assumption))

theorem takeSegment_queued (g : Nat) (o : PickOp) (bs : List PByte) (h0 : Queued qp s) : Queued qp (takeSegment s g o bs) := by
  unfold takeSegment
  repeat' with_reducible first | assumption | intro _ | apply queued_ite | apply loadSlots_queued | apply putOp_queued

theorem segDelivered_queued (n : Nat) (seg : Segment) (h0 : Queued qp s) : Queued qp (segDelivered s n seg) := by
  unfold segDelivered
  repeat' first
    | (with_reducible first | assumption | apply putEngOp_queued)
    | split

theorem segmentDelivery_queued (n : Nat) (lane : Nat) (window : Nat) (h0 : Queued qp s) :
    Queued qp (segmentDelivery s n lane window) := by
  unfold segmentDelivery
  repeat' first
    | (with_reducible first | assumption | intro _ | apply queued_foldl | apply State.modStack_queued | apply takeSegment_queued
                            | apply segDelivered_queued)
    | split

theorem segmentTimeout_queued (f : Nat) (hid : Nat) (h0 : Queued qp s) : Queued qp (segmentTimeout s f hid) := by
  unfold segmentTimeout
  try dsimp only
  repeat' first
    | (with_reducible first | assumption | intro _ | apply queued_foldl | apply State.modStack_queued | apply putEngOp_queued)
    | split

theorem hoistDone_queued (f : Nat) (hid : Nat) (h0 : Queued qp s) : Queued qp (hoistDone s f hid) := by
  unfold hoistDone
  repeat' first
    | (with_reducible first | assumption | apply engineDone_queued)
    | split

theorem logLicence_queued (code : W16) (ctx : BitVec 6) (tag : Nat) (h0 : Queued qp s) : Queued qp (logLicence s code ctx tag) := by
  unfold logLicence
  repeat' with_reducible first | assumption | apply logRefused_queued

theorem exactCheck_queued (p : PassParams) (ctx : BitVec 6) (tag : Nat) (h0 : Queued qp s) :
    Queued qp (exactCheck s p ctx tag).st := by
  unfold exactCheck
  repeat' first
    | (with_reducible first | assumption | intro _ | apply queued_iteC)
    | simp only [st_ok, st_cwait, st_cfail, queuedD_serve, queuedD_drop, queuedD_wait, queuedD_refuse, queuedW_mk, id_eq]
    | with_reducible apply logLicence_queued

theorem inputCheck_queued (r : Req) (rs : List (Nat × Nat)) (h0 : Queued qp s) : Queued qp (inputCheck s r rs).st := by
  unfold inputCheck
  repeat' first
    | with_reducible assumption
    | simp only [st_ok, st_cwait, st_cfail, queuedD_serve, queuedD_drop, queuedD_wait, queuedD_refuse, queuedW_mk, id_eq]
    | (with_reducible first | apply mapRanges_queued | apply placeRefused_queued)
    | split

theorem eachSequencer_queued (o : StepOp) (ctx : BitVec 6) (tag : W16) (k : Nat)
    (f : State → Req → Nat → Chk (List PByte)) (h0 : Queued qp s) (h5 : ∀ y0 y1 y2, Queued qp y0 → Queued qp (f y0 y1 y2).st) :
    Queued qp (eachSequencer s o ctx tag k f).st := by
  unfold eachSequencer
  have h : ∀ (l : List Nat) (x : Chk (List PByte)), Queued qp x.st → Queued qp (l.foldl (fun (x : Chk (List PByte)) n =>
      x.andThen fun t bs =>
        match f t (seqReq n o ctx tag) (8 * k + n) with
        | .ok u cs => .ok u (if n = 0 then cs else bs)
        | .wait u => .wait u
        | .fail st u => .fail st u) x).st := by
    intro l
    induction l with
    | nil => exact fun _ h => h
    | cons n l ih =>
      intro x hx
      refine ih _ (chk_andThen_queued hx fun t bs ht => ?_)
      have hf := h5 t (seqReq n o ctx tag) (8 * k + n) ht
      split
      · exact chk_ok_queued hf ‹_›
      · exact chk_wait_queued hf ‹_›
      · exact chk_fail_queued hf ‹_›
  exact h _ _ h0

theorem fetchFrags_queued (o : StepOp) (ctx : BitVec 6) (tag : W16) (x3 : Nat) (x4 : List (Nat × Nat))
    {x5 : State} (h5 : Queued qp x5) :
    Queued qp (fetchFrags o ctx tag x3 x4 x5).st := by
  revert h5
  fun_induction fetchFrags o ctx tag x3 x4 x5
  all_goals intro h5
  repeat' first
    | (with_reducible first | intro _ | apply queued_iteC | apply chk_andThen_queued | apply eachSequencer_queued | apply cleanOnly_queued
                            | apply fetchOne_queued | apply fetchRange_queued)
    | apply_assumption

theorem lodePlan_queued (o : StepOp) (ctx : BitVec 6) (tag0 : W16) (p : PassParams) (h0 : Queued qp s) :
    Queued qp (lodePlan s o ctx tag0 p).st := by
  unfold lodePlan
  repeat' first
    | (with_reducible first | assumption | intro _ | apply chk_andThen_queued)
    | simp only [st_ok, st_cwait, st_cfail, queuedD_serve, queuedD_drop, queuedD_wait, queuedD_refuse, queuedW_mk, id_eq]
    | (with_reducible first | apply eachSequencer_queued | apply cleanOnly_queued | apply fetchOne_queued | apply Chk.guard_queued
                            | apply exactCheck_queued | apply inputCheck_queued | apply fetchRange_queued | apply fetchFrags_queued)
    | split

theorem fetchQueries_queued (r : Req) (x1 : Nat) (x2 : List (Nat × Nat)) {x3 : State} (h3 : Queued qp x3) :
    Queued qp (fetchQueries r x1 x2 x3).st := by
  revert h3
  fun_induction fetchQueries r x1 x2 x3
  all_goals intro h3
  repeat' first
    | (with_reducible first | intro _ | apply chk_andThen_queued | apply fetchRange_queued)
    | apply_assumption

theorem cachePlan_queued (o : StepOp) (ctx : BitVec 6) (tag0 : W16) (kind : PassKind) (p : PassParams) (h0 : Queued qp s) :
    Queued qp (cachePlan s o ctx tag0 kind p).st := by
  unfold cachePlan
  repeat' first
    | (with_reducible first | assumption | intro _ | apply queued_iteC | apply chk_andThen_queued)
    | simp only [st_ok, st_cwait, st_cfail, queuedD_serve, queuedD_drop, queuedD_wait, queuedD_refuse, queuedW_mk, id_eq]
    | (with_reducible first | apply eachSequencer_queued | apply cleanOnly_queued | apply fetchOne_queued | apply Chk.guard_queued
                            | apply exactCheck_queued | apply inputCheck_queued | apply fetchRange_queued | apply fetchQueries_queued)

theorem issueOps_queued (pid : Nat) (ctx : BitVec 6) (tag : W16) (ops : List RawOp) (h0 : Queued qp s) :
    Queued qp (issueOps s pid ctx tag ops) := by
  unfold issueOps
  exact queued_foldl h0 fun t x h => State.modCol_queued _ _ (wakeDomain_queued _ h)

theorem holdSegments_queued (pid : Nat) (gs : List SegPlan) (h0 : Queued qp s) : Queued qp (holdSegments s pid gs) := by
  unfold holdSegments
  repeat' with_reducible first | assumption | intro _ | apply queued_foldl | apply State.modStack_queued

theorem startPass_queued (q : Nat) (ctx : BitVec 6) (o : StepOp) (p : PassParams) (x : Plan) (h0 : Queued qp s) :
    Queued qp (startPass s q ctx o p x) := by
  unfold startPass
  repeat' first
    | with_reducible apply queued_of
    | simp only [queued_mk]
    | (with_reducible first | apply writeFillers_queued | apply putStepOp_queued | apply holdSegments_queued | apply issueOps_queued)
    | apply_assumption

theorem planResult_queued (q : Nat) (ctx : BitVec 6) (o : StepOp) (p : PassParams) {x4 : Chk Plan} (h4 : Queued qp x4.st) :
    Queued qp (planResult q ctx o p x4) := by
  unfold planResult
  repeat' first
    | (with_reducible first | apply startPass_queued | apply stepOpDone_queued)
    | split
    | apply_assumption

theorem lodeMask_queued (x : StepRun) (o : StepOp) (d : BitVec 512) (h0 : Queued qp s) : Queued qp (lodeMask s x o d).st := by
  unfold lodeMask
  repeat' first
    | (with_reducible first | assumption | intro _ | apply queued_iteC | apply chk_andThen_queued)
    | simp only [st_ok, st_cwait, st_cfail, queuedD_serve, queuedD_drop, queuedD_wait, queuedD_refuse, queuedW_mk, id_eq]
    | with_reducible apply maskRead_queued

theorem lodeStart_queued (q : Nat) (h0 : Queued qp s) : Queued qp (lodeStart s q) := by
  unfold lodeStart
  repeat' first
    | (with_reducible first | assumption | apply lodeMask_queued | apply stepOpDone_queued | apply opDrop_queued
                            | apply planResult_queued | apply lodePlan_queued)
    | split
    | (with_reducible first | refine chk_ok_queued ?_ (by assumption) | refine chk_wait_queued ?_ (by assumption)
                            | refine chk_fail_queued ?_ (by assumption))

theorem cacheStart_queued (q : Nat) (op : Nat) (kind : PassKind) (h0 : Queued qp s) : Queued qp (cacheStart s q op kind) := by
  unfold cacheStart
  repeat' first
    | (with_reducible first | assumption | apply withTag_queued | apply planResult_queued | apply cachePlan_queued)
    | split

theorem fillOne_queued (r : Req) (exact : Bool) {a : RedStage} (va : Nat) (h2 : Queued qp a.1) :
    Queued qp (fillOne r exact a va).1 := by
  unfold fillOne
  repeat' first
    | (with_reducible first | assumption | apply storeRange_queued | apply innerDrop_queued)
    | split
    | (with_reducible first | refine chk_ok_queued ?_ (by assumption) | refine chk_wait_queued ?_ (by assumption)
                            | refine chk_fail_queued ?_ (by assumption))

theorem readOne_queued (r : Req) (value : List PByte → RedVal) {a : RedStage} (x : RedItem) (h2 : Queued qp a.1) :
    Queued qp (readOne r value a x).1 := by
  unfold readOne
  repeat' first
    | (with_reducible first | assumption | apply pieceAccess_queued | apply innerDrop_queued)
    | split
    | (with_reducible first | refine chk_ok_queued ?_ (by assumption) | refine chk_wait_queued ?_ (by assumption)
                            | refine chk_fail_queued ?_ (by assumption))

theorem writeOne_queued (r : Req) {a : RedStage} (o : RedOut) (h1 : Queued qp a.1) : Queued qp (writeOne r a o).1 := by
  unfold writeOne
  repeat' first
    | (with_reducible first | assumption | apply storeRange_queued | apply innerDrop_queued)
    | split
    | (with_reducible first | refine chk_ok_queued ?_ (by assumption) | refine chk_wait_queued ?_ (by assumption)
                            | refine chk_fail_queued ?_ (by assumption))

theorem reduceRun_queued (x : Reduction) (fillReq : Req) (r : Req) (exact : Bool) (fills : List Nat)
    (items : List RedItem) (value : List PByte → RedVal) (cost : Nat → Nat) (h0 : Queued qp s) :
    Queued qp (reduceRun s x fillReq r exact fills items value cost).1 := by
  unfold reduceRun
  try dsimp only
  repeat' first
    | (with_reducible first | assumption | apply queued_foldl2 | apply fillOne_queued | apply readOne_queued | apply writeOne_queued)
    | split

theorem reducePass_queued (code : W16) (p : Pass) (cost : Nat → Nat) (h0 : Queued qp s) :
    Queued qp (reducePass s code p cost).1 := by
  unfold reducePass
  repeat' with_reducible first | assumption | apply reduceRun_queued | apply State.modPass_queued

theorem fastHubReduction_queued (q : Nat) (f : Nat) (h0 : Queued qp s) : Queued qp (fastHubReduction s q f) := by
  unfold fastHubReduction
  repeat' first
    | (with_reducible first | assumption | apply reducePass_queued)
    | split

theorem mergeStart_queued (q : Nat) (h0 : Queued qp s) : Queued qp (mergeStart s q) := by
  unfold mergeStart
  repeat' first
    | (with_reducible first | assumption | apply queued_of)
    | simp only [queued_mk]
    | (with_reducible first | apply putStepOp_queued | apply stepOpDone_queued | apply logLicence_queued)
    | split

theorem serveMerge_queued (j : CollarJob) (h0 : Queued qp s) : Queued qp (serveMerge s j) := by
  unfold serveMerge
  repeat' first
    | (with_reducible first | assumption | apply queued_of)
    | simp only [queued_mk]
    | (with_reducible first | apply stepOpDone_queued | apply reduceRun_queued)
    | split

theorem collarReduction_queued (h0 : Queued qp s) : Queued qp (collarReduction s) := by
  unfold collarReduction
  repeat' first
    | (with_reducible first | assumption | apply queued_of)
    | simp only [queued_mk]
    | (with_reducible first | apply reducePass_queued | apply serveMerge_queued)
    | split

theorem passCompletion_queued (q : Nat) (h0 : Queued qp s) : Queued qp (passCompletion s q) := by
  unfold passCompletion
  repeat' first
    | (with_reducible first | assumption | intro _ | apply queued_foldl | apply queued_of)
    | simp only [queued_mk]
    | (with_reducible first | apply innerDrop_queued | apply State.modStack_queued | apply stepOpDone_queued)
    | split

end Sys2Proof.Machine
end

section
/-! SUPPORT. Every command goes on, and keeps the queue of those that wait (`Queued`). -/

namespace Sys2Proof.Machine

variable {qp : List Instr} {s : State}

/-- A command goes on, and keeps the queue. -/
theorem exec_queued (h : Queued qp s) (c : Instr) : ∃ t, exec c s = .next t ∧ Queued qp t := by
  cases c with
  | registerWrite => exact ⟨_, rfl, registerWrite_queued _ _ _ _ h⟩
  | xlateEntryWrite => exact ⟨_, rfl, dictRow1_queued _ _ _ _ _ h fun _ => entryWriteObj_queued _ _⟩
  | groupViewWrite => exact ⟨_, rfl, dictRow1_queued _ _ _ _ _ h fun _ => groupViewObj_queued _ _⟩
  | contextWrite => exact ⟨_, rfl, dictRow1_queued _ _ _ _ _ h fun _ => contextObj_queued _ _ _⟩
  | xlateDrain => exact ⟨_, rfl, dictRow_queued _ _ _ _ _ h fun _ => drainWrite_queued _ _⟩
  | xlateDrainConfirmed => exact ⟨_, rfl, drainConfirmed_queued h⟩
  | xlateDrainTimeout => exact ⟨_, rfl, drainTimeout_queued h⟩
  | srSeedWrite => exact ⟨_, rfl, dictRow1_queued _ _ _ _ _ h fun _ => srSeedObj_queued _ _⟩
  | colModePick => exact ⟨_, rfl, dictRow_queued _ _ _ _ _ h fun _ => colModeWrite_queued _ _ _⟩
  | pickModeReached => exact ⟨_, rfl, pickModeReached_queued _ h⟩
  | colModeNormal => exact ⟨_, rfl, dictRow_queued _ _ _ _ _ h fun _ => colModeWrite_queued _ _ _⟩
  | normalModeReached => exact ⟨_, rfl, normalModeReached_queued _ h⟩
  | colModeTimeout => exact ⟨_, rfl, colModeTimeout_queued _ h⟩
  | stackMode => exact ⟨_, rfl, dictRow_queued _ _ _ _ _ h fun _ => stackModeWrite_queued _ _ _⟩
  | directCommandWrite => exact ⟨_, rfl, directWrite_queued _ _ _ _ _ h⟩
  | apertureRead => exact ⟨_, rfl, apertureReadBy_queued _ _ _ _ _ h⟩
  | pickAdmission => exact ⟨_, rfl, pickAdmission_queued _ h⟩
  | pickOperationStart => exact ⟨_, rfl, pickStart_queued _ _ h⟩
  | pickOperationCompletion => exact ⟨_, rfl, pickCompletion_queued _ _ h⟩
  | pcopy => exact ⟨_, rfl, runRows_queued _ _ _ _ _ h fun _ _ _ => copyRow_queued _ _⟩
  | pinit => exact ⟨_, rfl, runRows_queued _ _ _ _ _ h fun _ _ _ => initRow_queued _ _⟩
  | plogic => exact ⟨_, rfl, runRows_queued _ _ _ _ _ h fun _ _ _ => logicRow_queued _ _⟩
  | pload => exact ⟨_, rfl, pload_queued _ _ h⟩
  | pmv => exact ⟨_, rfl, matVec_queued _ _ _ h⟩
  | pmvk => exact ⟨_, rfl, matVec_queued _ _ _ h⟩
  | pfold => exact ⟨_, rfl, pfold_queued _ _ h⟩
  | pdrain => exact ⟨_, rfl, pdrain_queued _ _ h⟩
  | pfence => exact ⟨_, rfl, pfence_queued _ _ h⟩
  | pickDataTimeout => exact ⟨_, rfl, pickDataTimeout_queued _ _ h⟩
  | rowStepBoundary => exact ⟨_, rfl, rowStepBoundary_queued _ h⟩
  | ordinaryRequest => exact ⟨_, rfl, ordinaryRequest_queued _ _ _ _ _ _ _ h⟩
  | claimWaitEnd => exact ⟨_, rfl, crossbarIn_queued _ (claimWaitEnd_queued _ h)⟩
  | claimWaitTimeout => exact ⟨_, rfl, claimWaitTimeout_queued _ h⟩
  | segmentDelivery => exact ⟨_, rfl, segmentDelivery_queued _ _ _ h⟩
  | segmentTimeout => exact ⟨_, rfl, segmentTimeout_queued _ _ h⟩
  | lode => exact ⟨_, rfl, lodeStart_queued _ h⟩
  | score => exact ⟨_, rfl, cacheStart_queued _ _ _ h⟩
  | valuePass => exact ⟨_, rfl, cacheStart_queued _ _ _ h⟩
  | mergeOp => exact ⟨_, rfl, mergeStart_queued _ h⟩
  | passCompletion => exact ⟨_, rfl, passCompletion_queued _ h⟩
  | fastHubReduction => exact ⟨_, rfl, fastHubReduction_queued _ _ h⟩
  | collarReduction => exact ⟨_, rfl, collarReduction_queued h⟩
  | taskStart => exact ⟨_, rfl, taskStart_queued _ h⟩
  | faceEnd => exact ⟨_, rfl, faceEnd_queued _ h⟩
  | setx => exact ⟨_, rfl, setx_queued _ h⟩
  | setvl => exact ⟨_, rfl, setvl_queued _ h⟩
  | loopOpen => exact ⟨_, rfl, loopOpen_queued _ h⟩
  | endl => exact ⟨_, rfl, endl_queued _ h⟩
  | br => exact ⟨_, rfl, branch_queued _ h⟩
  | waitt => exact ⟨_, rfl, waitt_queued _ h⟩
  | waittTimeout => exact ⟨_, rfl, waittTimeout_queued _ h⟩
  | seqTally => exact ⟨_, rfl, seqTally_queued _ h⟩
  | seqFence => exact ⟨_, rfl, seqFence_queued _ h⟩
  | engineOperationStart => exact ⟨_, rfl, engineStart_queued _ _ h⟩
  | engineOperationDone => exact ⟨_, rfl, engineDone_queued _ _ h⟩
  | taskCompletion => exact ⟨_, rfl, taskCompletion_queued _ h⟩
  | mma => exact ⟨_, rfl, mma_queued _ _ h⟩
  | mxv => exact ⟨_, rfl, mxv_queued _ _ h⟩
  | mstore => exact ⟨_, rfl, mstore_queued _ _ h⟩
  | vchain => exact ⟨_, rfl, vchain_queued _ _ h⟩
  | vhred => exact ⟨_, rfl, vhred_queued _ _ h⟩
  | planesum => exact ⟨_, rfl, planesum_queued _ _ h⟩
  | sramWriteBack => exact ⟨_, rfl, sramWriteBack_queued _ h⟩
  | hoistCopy => exact ⟨_, rfl, hoistMoves_queued _ _ _ _ h⟩
  | hoistGather => exact ⟨_, rfl, hoistMoves_queued _ _ _ _ h⟩
  | hoistScatter => exact ⟨_, rfl, hoistMoves_queued _ _ _ _ h⟩
  | hoistScatterAdd => exact ⟨_, rfl, hoistMoves_queued _ _ _ _ h⟩
  | hoistFusedStore => exact ⟨_, rfl, hoistMoves_queued _ _ _ _ h⟩
  | hoistBroadcast => exact ⟨_, rfl, hoistBroadcast_queued _ _ h⟩
  | hoistTransferDone => exact ⟨_, rfl, hoistDone_queued _ _ h⟩
  | doorbellWrite => exact ⟨_, rfl, answerDoorbell_queued _ _ _ (doorbell_queued _ _ _ h)⟩
  | slotReread => exact ⟨_, rfl, slotReread_queued _ h⟩
  | slotStaleStall => exact ⟨_, rfl, slotStaleStall_queued _ h⟩
  | qResume => exact ⟨_, rfl, queueWrite_queued _ _ _ _ _ h fun _ => queueResume_queued _⟩
  | qReset => exact ⟨_, rfl, queueWrite_queued _ _ _ _ _ h fun _ => queueReset_queued _⟩
  | qAbort => exact ⟨_, rfl, queueWrite_queued _ _ _ _ _ h fun _ => queueAbort_queued _⟩
  | qEnableWrite => exact ⟨_, rfl, queueWrite_queued _ _ _ _ _ h fun _ => queueEnable_queued _ _⟩
  | stepStart => exact ⟨_, rfl, stepStart_queued h⟩
  | operationDispatch => exact ⟨_, rfl, operationDispatch_queued h⟩
  | operationCompletion => exact ⟨_, rfl, operationCompletion_queued _ h⟩
  | stepEnd => exact ⟨_, rfl, stepEnd_queued _ h⟩
  | emit => exact ⟨_, rfl, emitOp_queued _ h⟩
  | jump => exact ⟨_, rfl, jump_queued _ h⟩
  | setn => exact ⟨_, rfl, setn_queued _ h⟩
  | signal => exact ⟨_, rfl, signalOp_queued _ h⟩
  | waitw => exact ⟨_, rfl, waitw_queued _ h⟩
  | task => exact ⟨_, rfl, taskOp_queued _ h⟩
  | waitLimitExpiry => exact ⟨_, rfl, waitLimitExpiry_queued _ h⟩
  | stepCompletion => exact ⟨_, rfl, stepCompletion_queued _ h⟩
  | recordAcknowledged => exact ⟨_, rfl, recordAcknowledged_queued _ h⟩
  | recordWaitTimeout => exact ⟨_, rfl, recordWaitTimeout_queued _ h⟩
  | winLenWrite => exact ⟨_, rfl, dictRow1_queued _ _ _ _ _ h fun _ => winLenWrite_queued _⟩
  | windowBoundary => exact ⟨_, rfl, windowBoundary_queued h⟩
  | cadenceEdge => exact ⟨_, rfl, cadenceLevel_queued _ h⟩
  | cadenceMissed => exact ⟨_, rfl, cadenceMissed_queued h⟩
  | tallyAdd => exact ⟨_, rfl, tallyCommand_queued _ _ _ _ h fun _ => tallyOp_queued _ _ _ _ _⟩
  | tallySub => exact ⟨_, rfl, tallyCommand_queued _ _ _ _ h fun _ => tallyOp_queued _ _ _ _ _⟩
  | tallyArrive => exact ⟨_, rfl, tallyCommand_queued _ _ _ _ h fun _ => tallyOp_queued _ _ _ _ _⟩
  | tallySet => exact ⟨_, rfl, tallyCommand_queued _ _ _ _ h fun _ => tallyOp_queued _ _ _ _ _⟩
  | tallyWatch => exact ⟨_, rfl, tallyCommand_queued _ _ _ _ h fun _ => remoteWatch_queued _ _ _ _ _ _⟩
  | tallyUnwatch => exact ⟨_, rfl, tallyCommand_queued _ _ _ _ h fun _ => unwatch_queued _ _ _ _⟩
  | barinit => exact ⟨_, rfl, tallyCommand_queued _ _ _ _ h fun _ => barOp_queued _ _ _ _ _⟩
  | barfree => exact ⟨_, rfl, tallyCommand_queued _ _ _ _ h fun _ => barOp_queued _ _ _ _ _⟩
  | watchArmOnFree => exact ⟨_, rfl, armOldest_queued h⟩
  | sigStampMet => exact ⟨_, rfl, sigStampMet_queued _ _ h⟩
  | stampTimeout => exact ⟨_, rfl, stampTimeout_queued _ _ h⟩
  | faceGate => exact ⟨_, rfl, faceGate_queued _ h⟩
  | tallyDbgSel => exact ⟨_, rfl, dictRow1_queued _ _ _ _ _ h fun _ => tallySel_queued _⟩
  | watchDbgSel => exact ⟨_, rfl, dictRow1_queued _ _ _ _ _ h fun _ => watchSel_queued _⟩
  | barrierDbgSel => exact ⟨_, rfl, dictRow1_queued _ _ _ _ _ h fun _ => barrierSel_queued _⟩
  | refreshIntervalDue => exact ⟨_, rfl, refreshDue_queued _ h⟩
  | owedRefreshInsertion => exact ⟨_, rfl, queued_ite (fun _ => insertOwed_queued _ h) fun _ => h⟩
  | targetedRefresh => exact ⟨_, rfl, targetedRefresh_queued _ h⟩
  | commandParityAlert => exact ⟨_, rfl, parityAlert_queued _ h⟩
  | shaftLinkFrame => exact ⟨_, rfl, linkFrame_queued _ _ _ _ _ _ h⟩
  | stackRequestTimeout => exact ⟨_, rfl, stackRequestTimeout_queued _ h⟩
  | writeBackEntry => exact ⟨_, rfl, writeBackEntry_queued _ h⟩
  | scrubStep => exact ⟨_, rfl, scrubStep_queued _ h⟩
  | remapReq => exact ⟨_, rfl, dictRow_queued _ _ _ _ _ h fun _ => remapReqWrite_queued _ _ _⟩
  | remapCopy => exact ⟨_, rfl, remapCopy_queued _ h⟩
  | remapClaimTimeout => exact ⟨_, rfl, remapClaimTimeout_queued _ h⟩
  | remapSel => exact ⟨_, rfl, dictRow1_queued _ _ _ _ _ h fun _ => remapSelWrite_queued _ _⟩
  | flitReceived => exact ⟨_, rfl, flitIn_queued _ _ _ _ h⟩
  | nak => exact ⟨_, rfl, nakIn_queued _ _ h⟩
  | portRetrain => exact ⟨_, rfl, retrain_queued _ h⟩
  | portTrainingDone => exact ⟨_, rfl, trainingDone_queued _ _ _ _ _ _ _ h⟩
  | retrainReq => exact ⟨_, rfl, dictRow1_queued _ _ _ _ _ h fun _ => retrainReq_queued _ _⟩
  | portEnable => exact ⟨_, rfl, dictRow1_queued _ _ _ _ _ h fun _ => portEnable_queued _ _⟩
  | rd => exact ⟨_, rfl, onPort_queued _ _ _ _ h fun _ => rdPacket_queued _ _⟩
  | wr => exact ⟨_, rfl, onPort_queued _ _ _ _ h fun _ => wrPacket_queued _ _ _⟩
  | sig => exact ⟨_, rfl, onPort_queued _ _ _ _ h fun _ => sigPacket_queued _ _ _⟩
  | rsp => exact ⟨_, rfl, onPort_queued _ _ _ _ h fun _ => rspPacket_queued _ _ _⟩
  | echo => exact ⟨_, rfl, onPort_queued _ _ _ _ h fun _ => echoPacket_queued _ _ _⟩
  | hostRead => exact ⟨_, rfl, queued_ite (fun _ => hostRead_queued _ _ _ h) fun _ => h⟩
  | hostWrite => exact ⟨_, rfl, queued_ite (fun _ => hostWrite_queued _ _ h) fun _ => h⟩
  | aditAccess => exact ⟨_, rfl, queued_ite (fun _ => aditAccess_queued _ _ _ _ _ h) fun _ => h⟩
  | msixUnmask => exact ⟨_, rfl, queued_ite (fun _ => msixUnmask_queued _ h) fun _ => h⟩
  | hostPortReset => exact ⟨_, rfl, hostPortReset_queued _ h⟩
  | nmtStart => exact ⟨_, rfl, nmtStart_queued h⟩
  | nmtStop => exact ⟨_, rfl, queued_ite (fun _ => h) fun _ => h⟩
  | nmtEnterPreOperational => exact ⟨_, rfl, queued_ite (fun _ => h) fun _ => h⟩
  | nmtResetNode => exact ⟨_, rfl, nmtReset_queued h⟩
  | nmtResetCommunication => exact ⟨_, rfl, nmtReset_queued h⟩
  | heartbeatTimer => exact ⟨_, rfl, heartbeat_queued h⟩
  | usdoUpload => exact ⟨_, rfl, usdoUpload_queued _ _ _ h⟩
  | usdoDownload => exact ⟨_, rfl, usdoDownload_queued _ _ _ _ h⟩
  | usdoSegmentTimeout => exact ⟨_, rfl, usdoTimeout_queued h⟩
  | tpdoEventTimer => exact ⟨_, rfl, tpdoTimer_queued _ h⟩
  | emcySend => exact ⟨_, rfl, emcySend_queued h⟩
  | errorCountWrite => exact ⟨_, rfl, dictRow1_queued _ _ _ _ _ h fun _ => errorCount_queued _⟩
  | mailboxRead => exact ⟨_, rfl, mailboxAccess_queued _ _ h⟩
  | mailboxWrite => exact ⟨_, rfl, mailboxAccess_queued _ _ h⟩
  | buRun => exact ⟨_, rfl, dictRowThen_queued _ _ _ _ _ _ h fun _ => buRunAct_queued _ _⟩
  | bringupStepTimeout => exact ⟨_, rfl, bringupTimeout_queued h⟩
  | quiesceRequest => exact ⟨_, rfl, dictRow1_queued _ _ _ _ _ h fun _ => stateReq_queued _⟩
  | serviceRequest => exact ⟨_, rfl, dictRow1_queued _ _ _ _ _ h fun _ => stateReq_queued _⟩
  | maintenanceRequest => exact ⟨_, rfl, dictRow1_queued _ _ _ _ _ h fun _ => stateReq_queued _⟩
  | faceReset => exact ⟨_, rfl, dictRowThen_queued _ _ _ _ _ _ h fun _ => faceResetBegin_queued _⟩
  | computeReset => exact ⟨_, rfl, dictRowThen_queued _ _ _ _ _ _ h fun _ => computeBegin_queued⟩
  | warmReset => exact ⟨_, rfl, dictRowThen_queued _ _ _ _ _ _ h fun _ => warmBegin_queued⟩
  | warmResetDrainEnd => exact ⟨_, rfl, warmResetDrainEnd_queued h⟩
  | coldReset => exact ⟨_, rfl, dictRowThen_queued _ _ _ _ _ _ h fun _ => coldBegin_queued⟩
  | coldResetOffEnd => exact ⟨_, rfl, coldResetOffEnd_queued h⟩
  | fwImageWrite => exact ⟨_, rfl, domainRow_queued _ _ _ _ _ h fun _ _ => fwImageWrite_queued _ _⟩
  | verify => exact ⟨_, rfl, dictRow1_queued _ _ _ _ _ h fun _ => fwVerify_queued⟩
  | imageVerified => exact ⟨_, rfl, imageVerified_queued h⟩
  | commit => exact ⟨_, rfl, dictRow1_queued _ _ _ _ _ h fun _ => fwCommit_queued⟩
  | flashWriteDone => exact ⟨_, rfl, flashWriteDone_queued _ h⟩
  | activate => exact ⟨_, rfl, dictRow1_queued _ _ _ _ _ h fun _ => fwActivate_queued⟩
  | headframeRestartDone => exact ⟨_, rfl, serveWaiting_queued (headframeRestartDone_queued h)⟩
  | discard => exact ⟨_, rfl, dictRow1_queued _ _ _ _ _ h fun _ => fwDiscard_queued⟩
  | licImageWrite => exact ⟨_, rfl, domainRow_queued _ _ _ _ _ h fun _ _ => licImageWrite_queued _ _⟩
  | licenceCheck => exact ⟨_, rfl, dictRow1_queued _ _ _ _ _ h fun _ => licCmd_queued _⟩
  | licenceSlotEmpty => exact ⟨_, rfl, dictRow1_queued _ _ _ _ _ h fun _ => licCmd_queued _⟩
  | attNonceWrite => exact ⟨_, rfl, domainRow_queued _ _ _ _ _ h fun _ _ => attNonceWrite_queued _ _⟩
  | attCmd => exact ⟨_, rfl, dictRow1_queued _ _ _ _ _ h fun _ => attCmd_queued _⟩
  | signingDone => exact ⟨_, rfl, signingDone_queued h⟩
  | d00Start => exact ⟨_, rfl, d00Start_queued _ h⟩
  | powerRemoved => exact ⟨_, rfl, powerOff_queued h⟩
  | inputSample => exact ⟨_, rfl, inputSample_queued _ _ h⟩
  | phaseFault => exact ⟨_, rfl, phaseFault_queued _ h⟩
  | unitDutyTick => exact ⟨_, rfl, unitDutyTick_queued _ _ h⟩
  | recallComplete => exact ⟨_, rfl, recallComplete_queued _ h⟩
  | canarySlot => exact ⟨_, rfl, canarySlot_queued _ _ h⟩
  | canaryRoundEnd => exact ⟨_, rfl, canaryRoundEnd_queued h⟩
  | domainIdle => exact ⟨_, rfl, domainIdle_queued _ h⟩
  | domainSleep => exact ⟨_, rfl, domainSleep_queued _ h⟩
  | domainWake => exact ⟨_, rfl, wakeDomain_queued _ h⟩
  | wakeNChange => exact ⟨_, rfl, queued_ite (fun _ => wakeSleepers_queued (pinChange_queued _ _ h)) fun _ => pinChange_queued _ _ h⟩
  | throttleNChange => exact ⟨_, rfl, pinChange_queued _ _ h⟩
  | inputStuck => exact ⟨_, rfl, inputStuck_queued _ h⟩
  | faceFence => exact ⟨_, rfl, dictRowThen_queued _ _ _ _ _ _ h fun _ => faceFenceBegin_queued _ _⟩
  | pickFence => exact ⟨_, rfl, dictRowThen_queued _ _ _ _ _ _ h fun _ => pickFenceBegin_queued _ _⟩
  | fenceComplete => exact ⟨_, rfl, fenceComplete_queued h⟩
  | colRetire => exact ⟨_, rfl, dictRow1_queued _ _ _ _ _ h fun _ k => queued_ite (fun _ => retireBegin_queued _ k) fun _ => k⟩
  | flogSel => exact ⟨_, rfl, dictRow1_queued _ _ _ _ _ h fun _ => flogSel_queued _⟩
  | flogSavedSel => exact ⟨_, rfl, dictRow1_queued _ _ _ _ _ h fun _ => flogSavedSel_queued _⟩
  | flogClear => exact ⟨_, rfl, dictRow1_queued _ _ _ _ _ h fun _ => flogClear_queued _⟩
  | hostLinkUp => exact ⟨_, rfl, hostLinkUp_queued _ h⟩
  | shaftLinkRetrained => exact ⟨_, rfl, shaftLinkRetrained_queued _ h⟩
  | commandLaneRetrained => exact ⟨_, rfl, laneRetrained_queued _ h⟩
  | laneLossOfLock => exact ⟨_, rfl, queued_ite (fun _ => laneFailed_queued _ _ h) fun _ => h⟩
  | inputGlitch => exact ⟨_, rfl, queued_ite (fun _ => glitch_queued _ h) fun _ => h⟩
  | inputStuckRelease => exact ⟨_, rfl, inputRelease_queued _ h⟩
  | canErrorPassive => exact ⟨_, rfl, errorPassive_queued _ h⟩
  | canBusOff => exact ⟨_, rfl, queued_ite (fun _ => h) fun _ => h⟩
  | canBusOffRecovered => exact ⟨_, rfl, busOffRecovered_queued h⟩
  | computeResetDone => exact ⟨_, rfl, computeResetDone_queued h⟩
  | faceResetDone => exact ⟨_, rfl, faceResetDone_queued _ h⟩

/-- Settles O2: `exec_queued`, over every command by the laws of `Queued`. -/
theorem commandsAlwaysGoOnAndLeaveTheQueue : Obligations.CommandsAlwaysGoOnAndLeaveTheQueue :=
  fun c _ => exec_queued rfl c

end Sys2Proof.Machine
end
